-- ==== Sys2Proof/Word.lean ====
section
/-! DEFINITION. The word types of the Z9 (00_scope R4, 02_numbers R22) and the shape of a sparse store. -/

namespace Sys2Proof

/-- One byte of memory. -/
abbrev Byte := BitVec 8
/-- One 32-bit register lane, one memory word, one parcel of code (R43). -/
abbrev Word := BitVec 32
/-- One g register, one address, one base word (R48). -/
abbrev DWord := BitVec 64
/-- A parcel of the instruction stream (R43). -/
abbrev Parcel := BitVec 32
/-- One bit per lane of a warp; bit L is lane L. -/
abbrev LaneMask := BitVec 32
/-- One value per lane of a warp. -/
abbrev Lanes (α : Type) := Vector α 32
/-- A sparse store: pairs of a key and a value, keys strictly rising (the operations are in Machine/Map.lean). -/
abbrev SMap (β : Type) := List (Nat × β)

end Sys2Proof
end

