-- ==== Sys2Proof/Syntax.lean ====
section
/-! DEFINITION. The steps of the part (spec/opcode_table.json): the coded instructions with the fields of their
formats (03_encoding R48-R62) and the events with the payload their agent brings. -/

namespace Sys2Proof

/-- TY codes, R61. -/
inductive Ty where
  | b32 | i32 | n32 | i16x2 | n16x2 | i8x4 | i64 | n64 | f32 | bf16x2 | f16x2 | e4m3x4 | e5m2x4 | f4x8
deriving DecidableEq, Repr

/-- SP codes, R62. -/
inductive Space where
  | gen | scr | gscr | wb | ab | cb | l2w | const
deriving DecidableEq, Repr

/-- CP codes, R62. -/
inductive Policy where
  | normal | stream | keep | noalloc
deriving DecidableEq, Repr

/-- Rounding modes, R30. -/
inductive Rnd where
  | rne | rtz | rup | rdn | rna | sr
deriving DecidableEq, Repr

/-- IXS of the prefix, R59: the field an index register is added to. -/
inductive Ixs where
  | none | sa | sb | d
deriving DecidableEq, Repr

/-- CM of format B, R54. -/
inductive Cm where
  | each | any | all
deriving DecidableEq, Repr

/-- The prefix, R59. -/
structure Prefix where
  k4 : BitVec 4
  z : Bool
  rm : Rnd
  sd : BitVec 8
  ixs : Ixs
  ixr : BitVec 3
  /-- Trap on empty: bit 2 SA, bit 1 SB, bit 0 SC. -/
  e : BitVec 3
deriving DecidableEq, Repr

/-- Format V, R50. -/
structure FmtV where
  pfx : Option Prefix
  a : Bool
  ty : Ty
  k : BitVec 3
  kn : Bool
  d : BitVec 8
  sa : BitVec 8
  sb : BitVec 8
  sc : BitVec 8
  sbk : Bool
  sak : Bool
deriving DecidableEq, Repr

/-- Format I, R51. -/
structure FmtI where
  pfx : Option Prefix
  a : Bool
  ty : Ty
  k : BitVec 3
  kn : Bool
  d : BitVec 8
  sa : BitVec 8
  imm : BitVec 26
deriving DecidableEq, Repr

/-- Format L, R52. -/
structure FmtL where
  pfx : Option Prefix
  a : Bool
  ty : Ty
  k : BitVec 3
  kn : Bool
  d : BitVec 8
  imm : BitVec 32
deriving DecidableEq, Repr

/-- Format M, R53. -/
structure FmtM where
  pfx : Option Prefix
  a : Bool
  sak : Bool
  nb : Bool
  ty : Ty
  k : BitVec 3
  kn : Bool
  d : BitVec 8
  sa : BitVec 8
  sb : BitVec 8
  sp : Space
  cp : Policy
  off : BitVec 13
deriving DecidableEq, Repr

/-- Format B, R54 (R149 gives the fields of JTB and CALLJ inside `off`). -/
structure FmtB where
  k : BitVec 3
  kn : Bool
  sa : BitVec 8
  cm : Cm
  off : BitVec 32
deriving DecidableEq, Repr

/-- Format S, R55. -/
structure FmtS where
  k : BitVec 3
  kn : Bool
  d : BitVec 8
  sa : BitVec 8
  sb : BitVec 8
  imm : BitVec 18
deriving DecidableEq, Repr

/-- Condition of ICMP, R183. -/
inductive Cmp where
  | eq | ne | lt | le | gt | ge
deriving DecidableEq, Repr

/-- Condition of FCMP, R208. -/
inductive FCmp where
  | eq | ne | lt | le | gt | ge | un | or
deriving DecidableEq, Repr

/-- Mode of SHFL, R198. -/
inductive ShflMode where
  | idx | up | down | xor
deriving DecidableEq, Repr

/-- Functions of REDL and SCANL, R200. -/
inductive RedFn where
  | add | min | max | and | or | xor | fadd | fmin | fmax
deriving DecidableEq, Repr

/-- Mode of MATCH, R202. -/
inductive MatchMode where
  | any | all
deriving DecidableEq, Repr

/-- Width of LD and ST, R234. -/
inductive MemWidth where
  | elem | byte | half
deriving DecidableEq, Repr

/-- Functions of ATOM and RED, R275. -/
inductive AtomFn where
  | add | min | max | and | or | xor | xchg | incw | decw | fadd | fmin | fmax
deriving DecidableEq, Repr

/-- Condition of WAITU, R300. -/
inductive WaitCc where
  | eq | ne | ge | lt | anybits | changed
deriving DecidableEq, Repr

/-- A warp: the serial of its group and its index in it. -/
structure WarpId where
  g : Nat
  w : Nat
deriving DecidableEq, Repr

/-- What the destination package answers to a PUT's admission request, R379. -/
inductive Admission where
  | admitted
  | staleGen (tgen : Word)
  | firewall
  | peerLost
  | txnTimeout
deriving DecidableEq, Repr

/-- How a remote landing of a PUT goes, R380: all lines, or stopped at a line. -/
inductive Landing where
  | ok
  | peerLost (line : Nat)
  | txnTimeout (line : Nat)
  | firewall (line : Nat)
deriving DecidableEq, Repr

/-- TDISP states of a TDI, R90. -/
inductive TdiState where
  | configUnlocked | configLocked | run | error
deriving DecidableEq, Repr

/-- Causes of a context error, R86. -/
inductive CtxErrCause where
  | areaWrite | walkPoison | tdiError
deriving DecidableEq, Repr

/-- What a soft error struck, R390. -/
inductive SoftErr where
  /-- Correctable: corrected and counted for the unit. -/
  | corrected (unit : Nat)
  /-- Uncorrectable, in a clean copy of a line held by a core: dropped and fetched again. -/
  | cleanCopy (core line : Nat)
  /-- Uncorrectable, in the only copy: the 4-byte words of physical memory listed are marked. -/
  | onlyCopy (words : List Nat) (syndrome : Word)
  /-- Uncorrectable, in the only copy, in a group's scratchpad (0), WB (1), AB (2) or CB (3). -/
  | buffer (group : Nat) (space : Nat) (words : List Nat) (syndrome : Word)
  /-- Uncorrectable, in the only copy, in the L2 scratch of a context in a sector: words of its window. -/
  | scratch (ctx sector : Nat) (words : List Nat) (syndrome : Word)
  /-- Uncorrectable, in the directory entry of a line. -/
  | directory (line : Nat) (syndrome : Word)
deriving DecidableEq, Repr

/-- What a fabric transaction timer belongs to, R359. -/
inductive TxnTarget where
  /-- The request of the instruction the warp presents: the line. -/
  | warp (w : WarpId) (line : Nat)
  /-- A copy in flight: the failing line, and whether it is on the destination side. -/
  | copy (id : Nat) (line : Nat) (dst : Bool)
  /-- A PUT in flight: the failing line. -/
  | put (id : Nat) (line : Nat)
  /-- A fetch or a page walk of the instruction the warp presents: the line that it reads. -/
  | fetch (w : WarpId) (line : Nat)
  /-- A recall that a home agent waits for: the line. -/
  | recall (line : Nat)
  /-- A request of the hub die for a kernel's descriptor, packet or completion record. -/
  | kernel (k : Nat)
  /-- A closing write of a tree instance. -/
  | tree (inst : Nat)
deriving DecidableEq, Repr

/-- What a link end learns from the peer's summary, R367. -/
structure LinkSummary where
  intact : Bool
  /-- The peer received this end's summary intact. -/
  heard : Bool
  width : BitVec 12
  maps : List (BitVec 25)
  rate : Nat
deriving DecidableEq, Repr

/-- What a packet asks of this package (R355-R357, R380). -/
inductive PacketKind where
  /-- Nothing that concerns memory. -/
  | other
  /-- A read of a line homed here. -/
  | read (pa : Nat)
  /-- Data of a PUT, named by its source: lines with the poison of their words (R368, R380). -/
  | putLine (put pa : Nat) (data : List Byte) (psn : BitVec 128)
  /-- An admission request of a PUT, named by its source: the physical addresses of its lines and counter (R379). -/
  | askAdmission (put : Nat) (pas : List Nat)
  /-- The status of a PUT is final, or its admission is withdrawn (R379). -/
  | putDone (put : Nat)
  /-- The counter of a PUT of so many data packets. -/
  | putCounter (put lines pa inc : Nat)
  /-- An atomic of another cell, performed at the home agent (R271, R357). -/
  | atom (fn : Option AtomFn) (ty : Ty) (pa : Nat) (o o2 : DWord) (po : Bool)
  /-- A package of the own cell takes exclusive ownership of a line homed here (R271, R356). -/
  | own (pa : Nat)
  /-- A committed write of a package of the own cell to a line homed here: its bytes by address, and what it does to the
  poison of its words (R250, R358). -/
  | commit (line : Nat) (data : List (Nat × Byte)) (psn : List (Nat × Bool))
  /-- The owner of a line homed here writes it back (R356). -/
  | writeBack (pa : Nat) (data : List Byte) (psn : BitVec 32)
  /-- The home agent of a line homed elsewhere drops this package's copies of it, and has taken these bytes, with the poison of the
  line's words since then (R298). -/
  | invalidate (pa : Nat) (data : List Byte) (psn : BitVec 32)
deriving DecidableEq, Repr

/-- The fields of a packet that R368 and R371 act on. -/
structure PacketHdr where
  port : Nat
  src : Nat
  dst : Nat
  seq : Nat
  gen : Word
  ctx : Nat
  checkOk : Bool
  kind : PacketKind
deriving DecidableEq, Repr

/-- A host access over CXL.mem, R312. -/
inductive CxlAccess where
  | read (pa n : Nat)
  | write (pa : Nat) (data : List Byte)
deriving DecidableEq, Repr

/-- A host snoop over CXL.cache, R312: invalidating (the host will write `data`, possibly nothing) or downgrading. -/
inductive Snoop where
  | invalidate (pa : Nat) (data : List Byte)
  | downgrade (pa : Nat)
deriving DecidableEq, Repr

/-- A host read of a register or a page: the BAR, the offset in it, the link on which it came (R92). -/
structure BarRead where
  bar : Nat
  adr : Nat
  link : Nat
deriving DecidableEq, Repr

/-- A connector of a CZH9-M that reports (R406): the optical one of a port, with the insertion loss of each fibre in 0.01 dB, or a
power connector, with the resistance of each contact in 0.01 mΩ. -/
inductive Connector where
  | optical (port : Nat)
  | power (n : Nat)
deriving DecidableEq, Repr

/-- The number under which State keeps a connector. -/
def Connector.key : Connector → Nat
  | .optical p => 2 * p
  | .power n => 2 * n + 1

/-- One register of firmware or host that REGISTER_WRITE covers (R5). -/
inductive RegWrite where
  /-- Posts a way-mask pair for a context in a sector, R231, R248. -/
  | wayMask (ctx sector : Nat) (cache scratch : BitVec 16)
  /-- Sectors allotted to a context, R84, R107. -/
  | allot (ctx : Nat) (sectors : List Nat)
  /-- Cap of a die, in W, R404. -/
  | cap (die watts : Nat)
  /-- Entry of the boiling-limit table for a die under the present coolant, R404. -/
  | boiling (die watts : Nat)
  /-- Trip limits of a regulator, R405. -/
  | trip (reg current temp : Nat)
  /-- Thresholds of one reading of a connector, R406. -/
  | threshold (conn : Connector) (reading warn fault : Nat)
  /-- Takes a port Down whose optical connector reads above a fault threshold, R406. -/
  | portDown (port : Nat)
  /-- Clears the Lantern's FROZEN, R393. -/
  | clearFrozen
  /-- Adds a context number to the fabric-control grant list, R377. -/
  | grant (ctx : Nat)
  /-- Says which package or host a physical range is homed at (0-80 package, 81 host, 82 host over CXL.cache). -/
  | home (base size home : Nat)
  /-- ECC scrub rate, R390. -/
  | scrub (rate : Nat)
  /-- The space's active slot and generation, set after a reset and before readmission (R373). -/
  | topology (slot : Nat) (gen : Word)
  /-- A reset of a package of a cell, seen by this package (R364). -/
  | peerReset (pkg : Nat)
  /-- A package withdraws its join of a round, told over the management channel (R376). -/
  | withdraws (pkg : Nat)
  /-- Firmware reads a slot of the Lantern (R393). -/
  | lanternRead (slot : Nat)
  /-- Firmware reads a core's count of unsampled slots (R399). -/
  | unsampledRead (core : Nat)
  /-- Any other register: reserved bits are ignored (R5). -/
  | other (addr : Nat) (value : DWord)
deriving DecidableEq, Repr

/-- One regulator's report, R403. -/
structure RegulatorReport where
  reg : Nat
  voltage : Nat
  current : Nat
  temp : Nat
deriving DecidableEq, Repr

/-- What bring-up finds, R407, R408, R410. -/
structure BringUp where
  /-- The supply is present and the regulators start. -/
  power : Bool
  /-- The Forer image, its Ed448 signature and its security version. -/
  image : List Byte
  imageSig : List Byte
  imageVersion : Word
  /-- The configuration blob, its signature, and the minimum version that it may name. -/
  blob : List Byte
  blobSig : List Byte
  minVersion : Option Word
  /-- What the SRAM powers up with, and the helper data of the configuration flash. -/
  sram : List Byte
  helper : List Byte
  /-- Firmware's scrub rate (R390). -/
  scrub : Nat
  cause : Nat
deriving DecidableEq, Repr

/-- Every step of spec/opcode_table.json, one constructor a row. -/
inductive Instr where
  -- coded instructions, in the table's order
  | nop (f : FmtS) | yield (f : FmtS) | brk (f : FmtS) | bra (f : FmtB) | jtb (f : FmtB) | lpad (f : FmtS)
  | call (f : FmtB) | callj (f : FmtB) | ret (f : FmtS) | exit (f : FmtS) | cdecl (f : FmtS) | csign (f : FmtS)
  | partset (f : FmtS) | movsr (f : FmtS) | movsrVector (f : FmtS) | movts (f : FmtS) | setx (f : FmtI)
  | span (f : FmtS) | trap (f : FmtS) | resumeF (f : FmtS) | resumeS (f : FmtS) | resumeN (f : FmtS)
  | abortg (f : FmtS) | launch (f : FmtS) | alloc (f : FmtS) | freeb (f : FmtS) | iadd (f : FmtV) | isub (f : FmtV)
  | imin (f : FmtV) | imax (f : FmtV) | ineg (f : FmtV) | iabs (f : FmtV) | iaddc (f : FmtV) | isubc (f : FmtV)
  | iadds (f : FmtV) | isubs (f : FmtV) | imul (f : FmtV) | imad (f : FmtV) | imulh (f : FmtV) | imadw (f : FmtV)
  | idiv (f : FmtV) | irem (f : FmtV) | iaddUniform (f : FmtV) | isubUniform (f : FmtV) | iminUniform (f : FmtV)
  | imaxUniform (f : FmtV) | inegUniform (f : FmtV) | iabsUniform (f : FmtV) | iaddcUniform (f : FmtV)
  | isubcUniform (f : FmtV) | iaddsUniform (f : FmtV) | isubsUniform (f : FmtV) | imulUniform (f : FmtV)
  | imadUniform (f : FmtV) | imulhUniform (f : FmtV) | imadwUniform (f : FmtV) | idivUniform (f : FmtV)
  | iremUniform (f : FmtV) | icmp (cc : Cmp) (f : FmtV) | isel (f : FmtV) | and (f : FmtV) | or (f : FmtV)
  | xor (f : FmtV) | andn (f : FmtV) | orn (f : FmtV) | xnor (f : FmtV) | not (f : FmtV) | andUniform (f : FmtV)
  | orUniform (f : FmtV) | xorUniform (f : FmtV) | andnUniform (f : FmtV) | ornUniform (f : FmtV)
  | xnorUniform (f : FmtV) | notUniform (f : FmtV) | shl (f : FmtV) | shr (f : FmtV) | sar (f : FmtV)
  | rol (f : FmtV) | ror (f : FmtV) | fshl (f : FmtV) | fshr (f : FmtV) | shlUniform (f : FmtV)
  | shrUniform (f : FmtV) | sarUniform (f : FmtV) | rolUniform (f : FmtV) | rorUniform (f : FmtV)
  | fshlUniform (f : FmtV) | fshrUniform (f : FmtV) | bext (f : FmtV) | bins (f : FmtV) | popc (f : FmtV)
  | clz (f : FmtV) | ctz (f : FmtV) | brev (f : FmtV) | bswap (f : FmtV) | bextUniform (f : FmtV)
  | binsUniform (f : FmtV) | popcUniform (f : FmtV) | clzUniform (f : FmtV) | ctzUniform (f : FmtV)
  | brevUniform (f : FmtV) | bswapUniform (f : FmtV) | clmul (f : FmtV) | clmulh (f : FmtV) | clmulUniform (f : FmtV)
  | clmulhUniform (f : FmtV) | lea (f : FmtV) | leaUniform (f : FmtV) | mov (f : FmtV) | movUniform (f : FmtV)
  | movg (f : FmtV) | gmov (f : FmtV) | movi (f : FmtL) | moviUniform (f : FmtL) | iaddi (f : FmtI) | andi (f : FmtI)
  | ori (f : FmtI) | xori (f : FmtI) | shli (f : FmtI) | shri (f : FmtI) | sari (f : FmtI) | iaddiUniform (f : FmtI)
  | andiUniform (f : FmtI) | oriUniform (f : FmtI) | xoriUniform (f : FmtI) | shliUniform (f : FmtI)
  | shriUniform (f : FmtI) | sariUniform (f : FmtI) | kand (f : FmtV) | kor (f : FmtV) | kxor (f : FmtV)
  | knot (f : FmtV) | kmov (f : FmtV) | kpopc (f : FmtV) | kfirst (f : FmtV) | shfl (mode : ShflMode) (f : FmtV)
  | voteAny (f : FmtV) | voteAll (f : FmtV) | voteBallot (f : FmtV) | redl (fn : RedFn) (f : FmtV)
  | scanl (fn : RedFn) (excl : Bool) (f : FmtV) | matchLanes (mode : MatchMode) (f : FmtV) | fadd (f : FmtV)
  | fsub (f : FmtV) | fmul (f : FmtV) | fmin (f : FmtV) | fmax (f : FmtV) | fminm (f : FmtV) | fmaxm (f : FmtV)
  | fabs (f : FmtV) | fneg (f : FmtV) | fcopysign (f : FmtV) | ffma (f : FmtV) | ffms (f : FmtV) | fnma (f : FmtV)
  | fcmp (cc : FCmp) (f : FmtV) | fclass (f : FmtV) | frcp (f : FmtV) | frsq (f : FmtV) | fsqrt (f : FmtV)
  | fexp2 (f : FmtV) | flog2 (f : FmtV) | fsin (f : FmtV) | fcos (f : FmtV) | ftanh (f : FmtV) | fdot2 (f : FmtV)
  | cvtfi (src : Ty) (f : FmtV) | cvtif (src : Ty) (f : FmtV) | cvtff (src : Ty) (sat amax : Bool) (f : FmtV)
  | frnd (f : FmtV) | scaleb (f : FmtV) | packf4 (f : FmtV) | unpackf4 (f : FmtV) | ld (wd : MemWidth) (f : FmtM)
  | st (wd : MemWidth) (f : FmtM) | ldt (f : FmtM) | prf (f : FmtM) | cpa (f : FmtS) | cpaGcm (f : FmtS)
  | cpwait (f : FmtS) | cpwaitId (f : FmtS) | cppoll (f : FmtS) | cctlInv (f : FmtS) | cctlInvr (f : FmtS)
  | cctlWayset (f : FmtS) | pgq (f : FmtM) | atom (fn : AtomFn) (f : FmtM) | red (fn : AtomFn) (f : FmtM)
  | cas (f : FmtM) | rtree (ty : Ty) (f : FmtS) | fence (f : FmtS) | acq (f : FmtS) | rel (f : FmtS)
  | bind (f : FmtS) | unbind (f : FmtS) | barset (f : FmtS) | bararv (f : FmtS) | barwt (f : FmtS)
  | barsync (f : FmtS) | barq (f : FmtS) | waitu (cc : WaitCc) (f : FmtM) | mxlease (f : FmtS) | mxfree (f : FmtS)
  | mxcfg (f : FmtS) | mxw (f : FmtS) | mxa (f : FmtS) | mxrd (f : FmtV) | mxwr (f : FmtV) | mxz (f : FmtS)
  | put (f : FmtS) | reconf (f : FmtS)
  -- events that the package's own engines bring
  | specialFunctionWriteback (w : WarpId) (reg : Nat) | loadWriteback (w : WarpId) (id : Nat)
  | copyLineWrite (copy line : Nat) | tagVerify (copy : Nat) | copyEnd (copy : Nat)
  | atomicWriteback (w : WarpId) (id : Nat) | contribution (id : Nat) | sampledEvaluation (wait line : Nat)
  | spillScan (line : Nat) | dependenceRetry (kernel dep : Nat) | mxOperationComplete (core : Nat)
  | pipelineError (w : WarpId) (lanes : LaneMask) (control : Bool) | putLanding (id : Nat) (how : Landing) | drainComplete | switch
  | commitStep | quiesceComplete (ctx : Nat) | scrubComplete (ctx : Nat) | descriptorRead (kernel : Nat)
  | contextError (ctx : Nat) (cause : CtxErrCause) | saveComplete (gang : Nat)
  | restoreComplete (gang : Nat) | completionActions (kernel : Nat)
  | bundleFormation (w : WarpId) | redundancyCompare (w : WarpId) | hotQueueRetire (line : Nat)
  | inval (cmd : BitVec 512) | copyOutComplete (tier : Nat) | fillComplete (tier : Nat)
  | scanComplete (cell : Nat) | writeThroughArrival (id : Nat) | pathLoss (cell : Nat) | pathRestored (cell : Nat)
  -- events of the scheduler's choice, firmware, host, peers and environment
  | ownershipRequest (core line : Nat) | putAdmission (id : Nat) (reply : Admission)
  | packageStop (lastPath : Nat) | restore (gang sector : Nat) (cores : List Nat) | schedulerSelect (kernel sector : Nat) (cores : List Nat)
  | rtreeTimeout (inst : Nat) | barwtLimit (w : WarpId) (pc : Nat) | waitTimeout (wait : Nat) | lineMigration (line slice : Nat)
  | leaseExpiry (core : Nat) | checkFailure (core op : Nat) | watchdog (core : Nat)
  | engineResetComplete (core : Nat) | join (pkg slot : Nat) (gen : Word) | gatherTimeout (w : WarpId)
  | create (cmd : BitVec 512) | ctxBind (cmd : BitVec 512) | start (cmd : BitVec 512) | quiesce (cmd : BitVec 512)
  | destroy (cmd : BitVec 512) | keyset (cmd : BitVec 512) (onIde : Bool) | keyclr (cmd : BitVec 512)
  | debuggo (cmd : BitVec 512) | preemption (gang : Nat)
  | tdiTransition (ctx : Nat) (onto : TdiState) | assign (cmd : BitVec 512) | enable (cmd : BitVec 512)
  | drain (cmd : BitVec 512) | revoke (cmd : BitVec 512)
  | notifyWrite (bar adr link : Nat) (pasid : Option (BitVec 20)) (onIde : Bool) (size : Nat) (data : BitVec 512)
  | refrecRead (read : BarRead) | remapEntryWrite (adr : Nat) (data : BitVec 128) | reservationTimeout (gang : Nat × Nat)
  | softError (e : SoftErr)
  | hotModeExpiry (line : Nat) | pageRequestResponse (id page : Nat) (ok : Bool)
  | evictionSelect (tier : Nat) | fillFlashError (tier : Nat) | tierRequest (tier : Nat)
  | firewallUpdate (page : Nat) (wmask rmask : Word) | txnTimeout (t : TxnTarget)
  | formsTheSpace (pkg cell : Nat) (members : List (Nat × Nat)) (slot : Nat) | admitsTheCell (cell : Nat)
  | suspectTimeout (cell : Nat)
  | declaresTheCellDead (cell : Nat) | readmitsTheCell (cell : Nat) | rejoinComplete (cell : Nat)
  | enablesThePort (port : Nat) | summary (port : Nat) (peer : LinkSummary) | trainingTimeout (port : Nat)
  | wavelengthFailure (port fibre wave : Nat) | laserFailure (port fibre wave : Nat) | blackoutEnd (port : Nat)
  | flitCrcFailure (port : Nat) (same : Bool) | resetsThePort (port : Nat) | packetArrival (h : PacketHdr)
  | slotWrite (slot : Nat) (block : List Byte) | shapeWrite (sector slot : Nat) (shape : BitVec 256)
  | grantListRemoval (ctx : Nat) | registerWrite (w : RegWrite)
  | telemetryReport (regs : List RegulatorReport) (trim : List Nat)
  | connectorReport (conn : Connector) (readings : List Nat) | spdmMeasurementRequest (link : Nat) (nonce : BitVec 256)
  | packageReset (b : BringUp) | powerLoss (standby : Bool) | hostSnoop (s : Snoop) | cxlMemRequest (a : CxlAccess)
deriving DecidableEq, Repr

end Sys2Proof
end

