-- ==== Sys2Proof/Decode.lean ====
section
/-! DEFINITION. Units of code and their meaning as instructions (03_encoding R43-R66): the opcode map of R63 as one
description per instruction, the ILLEGAL details of R65, decoding (lowest detail wins) and the encoder. -/

namespace Sys2Proof

/-! ### Codes of R61, R62, R59, R54 -/

def tyBits : Ty → BitVec 4
  | .b32 => 0 | .i32 => 1 | .n32 => 2 | .i16x2 => 3 | .n16x2 => 4 | .i8x4 => 5 | .i64 => 6 | .n64 => 7
  | .f32 => 8 | .bf16x2 => 9 | .f16x2 => 10 | .e4m3x4 => 11 | .e5m2x4 => 12 | .f4x8 => 13

/-- TY 14 and 15 are reserved (R61). -/
def tyOf (b : BitVec 4) : Option Ty :=
  match b.toNat with
  | 0 => some .b32 | 1 => some .i32 | 2 => some .n32 | 3 => some .i16x2 | 4 => some .n16x2 | 5 => some .i8x4
  | 6 => some .i64 | 7 => some .n64 | 8 => some .f32 | 9 => some .bf16x2 | 10 => some .f16x2 | 11 => some .e4m3x4
  | 12 => some .e5m2x4 | 13 => some .f4x8 | _ => none

/-- Types 6 and 7 occupy a register pair (R61). -/
def tyPair : Ty → Bool
  | .i64 | .n64 => true
  | _ => false

def spaceBits : Space → BitVec 3
  | .gen => 0 | .scr => 1 | .gscr => 2 | .wb => 3 | .ab => 4 | .cb => 5 | .l2w => 6 | .const => 7

def spaceOf (b : BitVec 3) : Space :=
  match b.toNat with
  | 0 => .gen | 1 => .scr | 2 => .gscr | 3 => .wb | 4 => .ab | 5 => .cb | 6 => .l2w | _ => .const

def policyBits : Policy → BitVec 2
  | .normal => 0 | .stream => 1 | .keep => 2 | .noalloc => 3

def policyOf (b : BitVec 2) : Policy :=
  match b.toNat with
  | 0 => .normal | 1 => .stream | 2 => .keep | _ => .noalloc

def rndBits : Rnd → BitVec 3
  | .rne => 0 | .rtz => 1 | .rup => 2 | .rdn => 3 | .rna => 4 | .sr => 5

/-- RM 110 and 111 are reserved (R30). -/
def rndOf (b : BitVec 3) : Option Rnd :=
  match b.toNat with
  | 0 => some .rne | 1 => some .rtz | 2 => some .rup | 3 => some .rdn | 4 => some .rna | 5 => some .sr | _ => none

def ixsBits : Ixs → BitVec 2
  | .none => 0 | .sa => 1 | .sb => 2 | .d => 3

def ixsOf (b : BitVec 2) : Ixs :=
  match b.toNat with
  | 0 => .none | 1 => .sa | 2 => .sb | _ => .d

def cmBits : Cm → BitVec 2
  | .each => 0 | .any => 1 | .all => 2

/-- CM 11 raises ILLEGAL (R54). -/
def cmOf (b : BitVec 2) : Option Cm :=
  match b.toNat with
  | 0 => some .each | 1 => some .any | 2 => some .all | _ => none

/-! ### Units -/

/-- A unit of code: a base word with or without a prefix in front (R43). -/
structure RawUnit where
  pfx : Option Parcel
  base : DWord
deriving DecidableEq, Repr

/-- Bits hi..lo of a word. -/
def bitsAt {w : Nat} (x : BitVec w) (lo len : Nat) : BitVec len := x.extractLsb' lo len

def prefixOf (p : Parcel) : Option Prefix :=
  (rndOf (bitsAt p 16 3)).map fun rm =>
    { k4 := bitsAt p 20 4, z := p.getLsbD 19, rm := rm, sd := bitsAt p 8 8, ixs := ixsOf (bitsAt p 6 2),
      ixr := bitsAt p 3 3, e := bitsAt p 0 3 }

def prefixParcel (p : Prefix) : Parcel :=
  (0x7E#8) ++ p.k4 ++ BitVec.ofBool p.z ++ rndBits p.rm ++ p.sd ++ ixsBits p.ixs ++ p.ixr ++ p.e

/-- Bits 63, 62:56, 55:50, 49:46, 45:43, 42 of a base word and its operand bits (R48). -/
def packBase (a : Bool) (maj : BitVec 7) (fn : BitVec 6) (ty : BitVec 4) (k : BitVec 3) (kn : Bool) (ops : BitVec 42) :
    DWord :=
  BitVec.ofBool a ++ maj ++ fn ++ ty ++ k ++ BitVec.ofBool kn ++ ops

def rawA (w : DWord) : Bool := w.getLsbD 63
def rawMaj (w : DWord) : BitVec 7 := bitsAt w 56 7
def rawFn (w : DWord) : BitVec 6 := bitsAt w 50 6
def rawTy (w : DWord) : BitVec 4 := bitsAt w 46 4
def rawK (w : DWord) : BitVec 3 := bitsAt w 43 3
def rawKn (w : DWord) : Bool := w.getLsbD 42

/-- The prefix of a unit; one whose RM is reserved reads as RNE here and is refused by `rawDetails`. -/
def unitPrefix (u : RawUnit) : Option Prefix :=
  u.pfx.map fun p => (prefixOf p).getD
    { k4 := bitsAt p 20 4, z := p.getLsbD 19, rm := .rne, sd := bitsAt p 8 8, ixs := ixsOf (bitsAt p 6 2),
      ixr := bitsAt p 3 3, e := bitsAt p 0 3 }

def fmtV (u : RawUnit) : FmtV :=
  let w := u.base
  { pfx := unitPrefix u, a := rawA w, ty := (tyOf (rawTy w)).getD .b32, k := rawK w, kn := rawKn w, d := bitsAt w 34 8,
    sa := bitsAt w 26 8, sb := bitsAt w 18 8, sc := bitsAt w 10 8, sbk := w.getLsbD 9, sak := w.getLsbD 8 }

def fmtI (u : RawUnit) : FmtI :=
  let w := u.base
  { pfx := unitPrefix u, a := rawA w, ty := (tyOf (rawTy w)).getD .b32, k := rawK w, kn := rawKn w, d := bitsAt w 34 8,
    sa := bitsAt w 26 8, imm := bitsAt w 0 26 }

def fmtL (u : RawUnit) : FmtL :=
  let w := u.base
  { pfx := unitPrefix u, a := rawA w, ty := (tyOf (rawTy w)).getD .b32, k := rawK w, kn := rawKn w, d := bitsAt w 34 8,
    imm := bitsAt w 0 32 }

def fmtM (u : RawUnit) : FmtM :=
  let w := u.base
  { pfx := unitPrefix u, a := rawA w, sak := w.getLsbD 55, nb := w.getLsbD 54, ty := (tyOf (rawTy w)).getD .b32,
    k := rawK w, kn := rawKn w, d := bitsAt w 34 8, sa := bitsAt w 26 8, sb := bitsAt w 18 8,
    sp := spaceOf (bitsAt w 15 3), cp := policyOf (bitsAt w 13 2), off := bitsAt w 0 13 }

def fmtB (u : RawUnit) : FmtB :=
  let w := u.base
  { k := rawK w, kn := rawKn w, sa := bitsAt w 34 8, cm := (cmOf (bitsAt w 32 2)).getD .each, off := bitsAt w 0 32 }

def fmtS (u : RawUnit) : FmtS :=
  let w := u.base
  { k := rawK w, kn := rawKn w, d := bitsAt w 34 8, sa := bitsAt w 26 8, sb := bitsAt w 18 8, imm := bitsAt w 0 18 }

/-! ### The opcode map of R63, one description per instruction -/

/-- What a field of format V or I names. -/
inductive Opd where
  /-- Unused: the field (and its K bit) must be zero. -/
  | none
  /-- `n` consecutive vector registers (a pair base is even), or a g register through the K bit. -/
  | vg (n : Nat) (pair : Bool)
  /-- Vector registers only. -/
  | v (n : Nat) (pair : Bool)
  /-- A g register; the K bit must be 1. -/
  | gk
  /-- A g register by class; there is no K bit or it must be zero. -/
  | g
  /-- A k register. -/
  | k
  /-- A number below the bound. -/
  | num (bound : Nat)
deriving DecidableEq, Repr

/-- Description of a format-V, -I or -L instruction. -/
structure VSpec where
  tys : List Ty
  /-- A prefix may precede it (R63). -/
  pfx : Bool
  /-- Uniform form (R58). -/
  uni : Bool
  d : Opd
  a : Opd
  b : Opd
  c : Opd
  rms : List Rnd
  /-- Z = 1 is accepted. -/
  zOk : Bool
  /-- K and KN are used as a predicate. -/
  pred : Bool
  /-- Further checks of the entry: a detail and whether it applies. -/
  extra : List (Nat × Bool)
deriving DecidableEq, Repr

/-- What a register field of format S names. -/
inductive SOpd where
  | none | g | v
  /-- A g register other than g0, refused with detail 3. -/
  | gNZ
  /-- A multiple of 4 from 4 to 60 (R240, R281, R378), detail 9. -/
  | g4
  /-- An even number from 2 to 62, detail 9. -/
  | gEven
  /-- A field that must be zero, refused with detail 9 (SB of CPA, R240). -/
  | zero9
  | vPair | k | c
deriving DecidableEq, Repr

structure SSpec where
  tys : List Ty
  /-- Detail for a TY that is not accepted: 4, or 3 where the entry says so (R174, R240, R378). -/
  tyDetail : Nat
  pred : Bool
  d : SOpd
  a : SOpd
  b : SOpd
  /-- Bits of IMM18 that the entry assigns. -/
  immMask : BitVec 18
  extra : List (Nat × Bool)
deriving DecidableEq, Repr

/-- What D and the fourth operand of format M are. -/
inductive MOpd where
  | none | v (n : Nat) (align : Nat) | gEven
deriving DecidableEq, Repr

structure MSpec where
  tys : List Ty
  d : MOpd
  /-- The fourth operand exists, as a pair or a single register. -/
  sd : MOpd
  /-- SB names a g register and SAK must be 0 (LDT, R237). -/
  ldt : Bool
  zOk : Bool
  /-- Policies other than `normal` are refused in every space (R301, R349). -/
  noPolicy : Bool
deriving DecidableEq, Repr

structure BSpec where
  saZero : Bool
  saPair : Bool
  cmOk : Bool
  extra : List (Nat × Bool)
deriving DecidableEq, Repr

/-- An instruction as its format, opcode and description; an event has no encoding. -/
inductive Info where
  | v (maj : BitVec 7) (fn : BitVec 6) (s : VSpec) (f : FmtV)
  | i (maj : BitVec 7) (fn : BitVec 6) (s : VSpec) (f : FmtI)
  | l (maj : BitVec 7) (fn : BitVec 6) (s : VSpec) (f : FmtL)
  | m (maj : BitVec 7) (fn : BitVec 4) (s : MSpec) (f : FmtM)
  | b (maj : BitVec 7) (fn : BitVec 6) (s : BSpec) (f : FmtB)
  | s (maj : BitVec 7) (fn : BitVec 6) (ty : Ty) (s : SSpec) (f : FmtS)
  | event
deriving DecidableEq, Repr

def noRm : List Rnd := [.rne]
def allRm : List Rnd := [.rne, .rtz, .rup, .rdn, .rna]
def srRm : List Rnd := [.rne, .rtz, .rup, .rdn, .rna, .sr]

def tInt : List Ty := [.i32, .n32, .i16x2, .n16x2, .i8x4, .i64, .n64]
def tSigned : List Ty := [.i32, .i16x2, .i8x4, .i64]
def t32 : List Ty := [.i32, .n32]
def tSat : List Ty := [.i32, .n32, .i16x2, .n16x2, .i8x4]
def tWide : List Ty := [.i32, .n32, .i64, .n64]
def tBits : List Ty := [.b32, .n64]
def tShift : List Ty := [.b32, .i32, .n32, .i16x2, .n16x2, .i8x4, .i64, .n64]
def tFloat : List Ty := [.f32, .bf16x2, .f16x2]

def regs (p : Bool) : Nat := if p then 2 else 1

/-- Integer vector form: D, SA, SB, SC with the widths given; sources may name g registers. -/
def vInt (tys : List Ty) (d : Opd) (a b c : Opd) : VSpec :=
  { tys, pfx := true, uni := false, d, a, b, c, rms := noRm, zOk := true, pred := true, extra := [] }

/-- The uniform form of a vector entry (R58): every operand is a g register. -/
def uniOpd : Opd → Opd
  | .none => .none
  | .num n => .num n
  | _ => .g

def uniSpec (s : VSpec) : VSpec :=
  { s with pfx := false, uni := true, d := uniOpd s.d, a := uniOpd s.a, b := uniOpd s.b, c := uniOpd s.c, zOk := false,
           pred := false }

/-- A vector or pair operand by the type (R175). -/
def opT (ty : Ty) : Opd := .vg (regs (tyPair ty)) (tyPair ty)
def op1 : Opd := .vg 1 false
def op2 : Opd := .vg 2 true
def dT (ty : Ty) : Opd := .v (regs (tyPair ty)) (tyPair ty)

def spec2 (tys : List Ty) (ty : Ty) : VSpec := vInt tys (dT ty) (opT ty) (opT ty) .none
def spec1 (tys : List Ty) (ty : Ty) : VSpec := vInt tys (dT ty) (opT ty) .none .none
def spec3 (tys : List Ty) (ty : Ty) : VSpec := vInt tys (dT ty) (opT ty) (opT ty) (.v (regs (tyPair ty)) (tyPair ty))
/-- IADDC and ISUBC: the result is a pair (R180). -/
def specCarry : VSpec := vInt t32 (.v 2 true) op1 op1 (.v 1 false)
/-- Shifts and rotates: the count is a single register (R186). -/
def specShift (tys : List Ty) (ty : Ty) : VSpec := vInt tys (dT ty) (opT ty) op1 .none
def specIcmp (ty : Ty) : VSpec := vInt tWide .k (opT ty) (opT ty) .none
def specLea (sc : BitVec 8) : VSpec :=
  { vInt [.n64] (.v 2 true) op2 op1 (.num 256) with extra := [(3, decide (8 ≤ sc.toNat))] }
/-- MOVG and GMOV: Z is refused with detail 5; SC bits 7:6 are zero, and the lane bits are not read under FIRST (R192,
notes/assumptions/100). -/
def specMovg (ty : Ty) (sc : BitVec 8) : VSpec :=
  { vInt tBits .g (.v (regs (tyPair ty)) (tyPair ty)) .none (.num 256) with
    zOk := false, extra := [(3, decide (64 ≤ sc.toNat))] }
def specGmov (ty : Ty) (sc : BitVec 8) : VSpec :=
  { vInt tBits (dT ty) .gk .none (.num 256) with zOk := false, extra := [(3, decide (64 ≤ sc.toNat))] }
/-- Mask operations: no prefix, no predicate (R195). -/
def specMask (d a b : Opd) : VSpec := { vInt [.b32] d a b .none with pfx := false, zOk := false, pred := false }
def specImm (tys : List Ty) (ty : Ty) : VSpec := vInt tys (dT ty) (.v (regs (tyPair ty)) (tyPair ty)) .none .none
/-- Shift amounts of SHLI, SHRI and SARI: bits 25:8 are zero (R51, R194). -/
def specShiftImm (tys : List Ty) (ty : Ty) (imm : BitVec 26) : VSpec :=
  { specImm tys ty with extra := [(3, decide (256 ≤ imm.toNat))] }
def redTys : RedFn → List Ty
  | .add | .min | .max => tWide
  | .and | .or | .xor => tBits
  | .fadd | .fmin | .fmax => [.f32]
def specRed (fn : RedFn) (ty : Ty) : VSpec :=
  { vInt (redTys fn) (dT ty) (opT ty) .none .none with
    rms := match fn with
      | .fadd | .fmin | .fmax => allRm
      | _ => noRm }
def specF (rms : List Rnd) (tys : List Ty) (b c : Opd) : VSpec := { vInt tys (.v 1 false) op1 b c with rms := rms }

/-- Elements per register unit of a conversion type (R213). -/
def convElems : Ty → Nat
  | .bf16x2 | .f16x2 => 2
  | .e4m3x4 | .e5m2x4 => 4
  | _ => 1
/-- Registers in the run of type `t` when the conversion handles `n` elements (R213). -/
def convRegs (t : Ty) (n : Nat) : Nat := (n / convElems t) * regs (tyPair t)
def specConv (src dst : Ty) : VSpec :=
  let n := Nat.max (convElems src) (convElems dst)
  { vInt [] (.v (convRegs dst n) (tyPair dst)) (.vg (convRegs src n) (tyPair src)) .none .none with rms := allRm }
/-- Width in bits of an element, for the narrowing rule of R216. -/
def floatBits : Ty → Nat
  | .bf16x2 | .f16x2 => 16
  | .e4m3x4 | .e5m2x4 | .i8x4 => 8
  | .i16x2 | .n16x2 => 16
  | .f4x8 => 4
  | .i64 | .n64 => 64
  | _ => 32
def specCvtff (src : Ty) (amax : Bool) (f : FmtV) : VSpec :=
  let sr : Bool := match f.pfx with
    | some p => decide (p.rm = .sr)
    | none => false
  { specConv src f.ty with
    tys := [.f32, .bf16x2, .f16x2, .e4m3x4, .e5m2x4].filter (· ≠ src)
    b := if sr then .gk else .none
    c := if amax then .num 4 else .none
    rms := srRm
    extra := [(2, amax && decide (floatBits src ≤ floatBits f.ty)), (3, amax && decide (4 ≤ f.sc.toNat))] }

/-! ### Format S and B descriptions -/

def sPlain (d a b : SOpd) (mask : BitVec 18) : SSpec :=
  { tys := [.b32], tyDetail := 4, pred := false, d, a, b, immMask := mask, extra := [] }
def sPred (mask : BitVec 18) : SSpec := { sPlain .none .none .none mask with pred := true }

/-- Special registers of R157: exists, read-write, per lane, 64 bits. -/
def srExists (n : Nat) : Bool := decide (n < 24)
def srWritable (n : Nat) : Bool := decide (12 ≤ n ∧ n ≤ 18) || decide (n = 21)
def srPerLane (n : Nat) : Bool := decide (n = 0) || decide (n = 23)
def srWide (n : Nat) : Bool := decide (n = 13) || decide (n = 20) || decide (n = 21) || decide (n = 23)
def srNum (imm : BitVec 18) : Nat := (bitsAt imm 0 6).toNat

def immScope (imm : BitVec 18) : Nat := (bitsAt imm 8 3).toNat
def scopeBad (imm : BitVec 18) : Nat × Bool := (3, decide (6 ≤ immScope imm))
def barGang (imm : BitVec 18) : Bool := imm.getLsbD 17
def barNum (imm : BitVec 18) : Nat := (bitsAt imm 0 4).toNat
def sBar (d a b : SOpd) (count : Bool) (imm : BitVec 18) : SSpec :=
  { sPlain d a b (if count then 0x3FF8F else 0x2000F) with
    extra := [(9, barGang imm && decide (4 ≤ barNum imm))] }
def spcBad (imm : BitVec 18) : Nat × Bool :=
  let n := (bitsAt imm 15 3).toNat
  (3, !(n == 1 || n == 3 || n == 4 || n == 5))
def partBad (imm : BitVec 18) : Nat × Bool :=
  let n := imm.toNat
  (3, !(n == 2 || n == 4 || n == 8 || n == 16 || n == 32))

def bPlain (saZero saPair cmOk : Bool) (extra : List (Nat × Bool)) : BSpec := { saZero, saPair, cmOk, extra }

def atomTys : AtomFn → List Ty
  | .add | .min | .max => tWide
  | .and | .or | .xor | .xchg => tBits
  | .incw | .decw => [.n32, .n64]
  | .fadd | .fmin | .fmax => [.f32]
def waitTys : WaitCc → List Ty
  | .eq | .ne => [.b32, .i32, .n32, .i64, .n64]
  | .ge | .lt => tWide
  | .anybits | .changed => tBits
def tMem : List Ty :=
  [.b32, .i32, .n32, .i16x2, .n16x2, .i8x4, .i64, .n64, .f32, .bf16x2, .f16x2, .e4m3x4, .e5m2x4, .f4x8]
def tMem32 : List Ty :=
  [.b32, .i32, .n32, .i16x2, .n16x2, .i8x4, .f32, .bf16x2, .f16x2, .e4m3x4, .e5m2x4, .f4x8]
def ldTys : MemWidth → List Ty
  | .elem => tMem
  | _ => [.b32, .i32, .n32]
def mdT (ty : Ty) : MOpd := .v (regs (tyPair ty)) (regs (tyPair ty))
def mPlain (tys : List Ty) (d : MOpd) : MSpec := { tys, d, sd := .none, ldt := false, zOk := true, noPolicy := false }

def cmpCode : Cmp → BitVec 6
  | .eq => 0 | .ne => 1 | .lt => 2 | .le => 3 | .gt => 4 | .ge => 5
def fcmpCode : FCmp → BitVec 6
  | .eq => 0 | .ne => 1 | .lt => 2 | .le => 3 | .gt => 4 | .ge => 5 | .un => 6 | .or => 7
def shflCode : ShflMode → BitVec 6
  | .idx => 0 | .up => 1 | .down => 2 | .xor => 3
def redCode : RedFn → BitVec 6
  | .add => 0 | .min => 1 | .max => 2 | .and => 3 | .or => 4 | .xor => 5 | .fadd => 8 | .fmin => 9 | .fmax => 10
def matchCode : MatchMode → BitVec 6
  | .any => 0 | .all => 1
def widthCode : MemWidth → BitVec 4
  | .elem => 0 | .byte => 1 | .half => 2
def atomCode : AtomFn → BitVec 4
  | .add => 0 | .min => 1 | .max => 2 | .and => 3 | .or => 4 | .xor => 5 | .xchg => 6 | .incw => 7 | .decw => 8
  | .fadd => 9 | .fmin => 10 | .fmax => 11
def waitCode : WaitCc → BitVec 4
  | .eq => 0 | .ne => 1 | .ge => 2 | .lt => 3 | .anybits => 4 | .changed => 5

/-- The description of an instruction: R63's row with the field rules of its entry. -/
def Instr.info : Instr → Info
  | .nop f => .s 0x00 0 .b32 (sPlain .none .none .none 0) f
  | .yield f => .s 0x00 1 .b32 (sPlain .none .none .none 0) f
  | .brk f => .s 0x00 2 .b32 (sPred 0x3FFFF) f
  | .bra f => .b 0x01 0 (bPlain true false true []) f
  | .jtb f => .b 0x02 0 (bPlain false false false
      [(9, f.off.getLsbD 10), (3, decide (bitsAt f.off 0 10 = 0#10))]) f
  | .lpad f => .s 0x02 1 .b32 (sPlain .none .none .none 0xFFFF) f
  | .call f => .b 0x03 0 (bPlain true false false []) f
  | .callj f => .b 0x03 1 (bPlain false true false [(3, decide (bitsAt f.off 16 16 ≠ 0#16))]) f
  | .ret f => .s 0x03 2 .b32 (sPred 0) f
  | .exit f => .s 0x04 0 .b32 (sPred 0) f
  | .cdecl f => .s 0x05 0 .b32 (sPlain .c .k .none 0) f
  | .csign f => .s 0x05 1 .b32 { sPlain .c .none .none 0 with pred := true } f
  | .partset f => .s 0x05 2 .b32 { sPlain .none .none .none 0x3FFFF with extra := [partBad f.imm] } f
  | .movsr f => .s 0x06 0 .b32 { sPlain .g .none .none 0x3F with
      extra := [(3, !srExists (srNum f.imm)), (3, srPerLane (srNum f.imm))] } f
  | .movsrVector f => .s 0x06 0 .b32 { sPlain (if srWide (srNum f.imm) then .vPair else .v) .none .none 0x2003F with
      pred := true, extra := [(3, !srExists (srNum f.imm)), (3, !f.imm.getLsbD 17)] } f
  | .movts f => .s 0x06 1 .b32 { sPlain .none .g .none 0x3F with extra := [(3, !srWritable (srNum f.imm))] } f
  | .setx f => .i 0x06 2 { vInt [.b32] .none .g .none .none with
      pfx := false, zOk := false, pred := false, d := .num 8, extra := [] } f
  | .span f => .s 0x07 0 .b32 { sPlain .none .none .none 0 with tyDetail := 3 } f
  | .trap f => .s 0x08 0 .b32 (sPred 0x3FFFF) f
  | .resumeF f => .s 0x08 1 .b32 (sPlain .none .none .none 0) f
  | .resumeS f => .s 0x08 1 .b32 { sPlain .none .none .none 1 with extra := [(3, decide (f.imm ≠ 1#18))] } f
  | .resumeN f => .s 0x08 1 .b32 { sPlain .none .none .none 2 with extra := [(3, decide (f.imm ≠ 2#18))] } f
  | .abortg f => .s 0x08 2 .b32 (sPlain .none .none .none 0) f
  | .launch f => .s 0x09 0 .b32 (sPlain .g .g .g 0x3F) f
  | .alloc f => .s 0x0A 0 .b32 { sPlain .g .g .none 0x38000 with extra := [spcBad f.imm] } f
  | .freeb f => .s 0x0A 1 .b32 { sPlain .g .g .none 0x38000 with extra := [spcBad f.imm] } f
  | .iadd f => .v 0x10 0 (spec2 tInt f.ty) f
  | .isub f => .v 0x10 1 (spec2 tInt f.ty) f
  | .imin f => .v 0x10 2 (spec2 tInt f.ty) f
  | .imax f => .v 0x10 3 (spec2 tInt f.ty) f
  | .ineg f => .v 0x10 4 (spec1 tSigned f.ty) f
  | .iabs f => .v 0x10 5 (spec1 tSigned f.ty) f
  | .iaddc f => .v 0x10 6 specCarry f
  | .isubc f => .v 0x10 7 specCarry f
  | .iadds f => .v 0x10 8 (spec2 tSat f.ty) f
  | .isubs f => .v 0x10 9 (spec2 tSat f.ty) f
  | .imul f => .v 0x11 0 (spec2 tInt f.ty) f
  | .imad f => .v 0x11 2 (spec3 tInt f.ty) f
  | .imulh f => .v 0x11 1 (spec2 t32 f.ty) f
  | .imadw f => .v 0x11 3 (vInt t32 (.v 2 true) op1 op1 (.v 2 true)) f
  | .idiv f => .v 0x12 0 (spec2 tWide f.ty) f
  | .irem f => .v 0x12 1 (spec2 tWide f.ty) f
  | .iaddUniform f => .v 0x10 32 (uniSpec (spec2 tInt f.ty)) f
  | .isubUniform f => .v 0x10 33 (uniSpec (spec2 tInt f.ty)) f
  | .iminUniform f => .v 0x10 34 (uniSpec (spec2 tInt f.ty)) f
  | .imaxUniform f => .v 0x10 35 (uniSpec (spec2 tInt f.ty)) f
  | .inegUniform f => .v 0x10 36 (uniSpec (spec1 tSigned f.ty)) f
  | .iabsUniform f => .v 0x10 37 (uniSpec (spec1 tSigned f.ty)) f
  | .iaddcUniform f => .v 0x10 38 (uniSpec specCarry) f
  | .isubcUniform f => .v 0x10 39 (uniSpec specCarry) f
  | .iaddsUniform f => .v 0x10 40 (uniSpec (spec2 tSat f.ty)) f
  | .isubsUniform f => .v 0x10 41 (uniSpec (spec2 tSat f.ty)) f
  | .imulUniform f => .v 0x11 32 (uniSpec (spec2 tInt f.ty)) f
  | .imadUniform f => .v 0x11 34 (uniSpec (spec3 tInt f.ty)) f
  | .imulhUniform f => .v 0x11 33 (uniSpec (spec2 t32 f.ty)) f
  | .imadwUniform f => .v 0x11 35 (uniSpec (vInt t32 (.v 2 true) op1 op1 (.v 2 true))) f
  | .idivUniform f => .v 0x12 32 (uniSpec (spec2 tWide f.ty)) f
  | .iremUniform f => .v 0x12 33 (uniSpec (spec2 tWide f.ty)) f
  | .icmp cc f => .v 0x13 (cmpCode cc) (specIcmp f.ty) f
  | .isel f => .v 0x13 8 (vInt tBits (dT f.ty) (opT f.ty) (opT f.ty) .k) f
  | .and f => .v 0x14 0 (spec2 tBits f.ty) f
  | .or f => .v 0x14 1 (spec2 tBits f.ty) f
  | .xor f => .v 0x14 2 (spec2 tBits f.ty) f
  | .andn f => .v 0x14 3 (spec2 tBits f.ty) f
  | .orn f => .v 0x14 4 (spec2 tBits f.ty) f
  | .xnor f => .v 0x14 5 (spec2 tBits f.ty) f
  | .not f => .v 0x14 6 (spec1 tBits f.ty) f
  | .andUniform f => .v 0x14 32 (uniSpec (spec2 tBits f.ty)) f
  | .orUniform f => .v 0x14 33 (uniSpec (spec2 tBits f.ty)) f
  | .xorUniform f => .v 0x14 34 (uniSpec (spec2 tBits f.ty)) f
  | .andnUniform f => .v 0x14 35 (uniSpec (spec2 tBits f.ty)) f
  | .ornUniform f => .v 0x14 36 (uniSpec (spec2 tBits f.ty)) f
  | .xnorUniform f => .v 0x14 37 (uniSpec (spec2 tBits f.ty)) f
  | .notUniform f => .v 0x14 38 (uniSpec (spec1 tBits f.ty)) f
  | .shl f => .v 0x15 0 (specShift tShift f.ty) f
  | .shr f => .v 0x15 1 (specShift tShift f.ty) f
  | .sar f => .v 0x15 2 (specShift tSigned f.ty) f
  | .rol f => .v 0x15 3 (specShift tShift f.ty) f
  | .ror f => .v 0x15 4 (specShift tShift f.ty) f
  | .fshl f => .v 0x15 5 (spec3 [.b32] f.ty) f
  | .fshr f => .v 0x15 6 (spec3 [.b32] f.ty) f
  | .shlUniform f => .v 0x15 32 (uniSpec (specShift tShift f.ty)) f
  | .shrUniform f => .v 0x15 33 (uniSpec (specShift tShift f.ty)) f
  | .sarUniform f => .v 0x15 34 (uniSpec (specShift tSigned f.ty)) f
  | .rolUniform f => .v 0x15 35 (uniSpec (specShift tShift f.ty)) f
  | .rorUniform f => .v 0x15 36 (uniSpec (specShift tShift f.ty)) f
  | .fshlUniform f => .v 0x15 37 (uniSpec (spec3 [.b32] f.ty)) f
  | .fshrUniform f => .v 0x15 38 (uniSpec (spec3 [.b32] f.ty)) f
  | .bext f => .v 0x16 0 (spec2 t32 f.ty) f
  | .bins f => .v 0x16 1 (spec3 [.b32] f.ty) f
  | .popc f => .v 0x16 2 (spec1 tBits f.ty) f
  | .clz f => .v 0x16 3 (spec1 tBits f.ty) f
  | .ctz f => .v 0x16 4 (spec1 tBits f.ty) f
  | .brev f => .v 0x16 5 (spec1 tBits f.ty) f
  | .bswap f => .v 0x16 6 (spec1 tBits f.ty) f
  | .bextUniform f => .v 0x16 32 (uniSpec (spec2 t32 f.ty)) f
  | .binsUniform f => .v 0x16 33 (uniSpec (spec3 [.b32] f.ty)) f
  | .popcUniform f => .v 0x16 34 (uniSpec (spec1 tBits f.ty)) f
  | .clzUniform f => .v 0x16 35 (uniSpec (spec1 tBits f.ty)) f
  | .ctzUniform f => .v 0x16 36 (uniSpec (spec1 tBits f.ty)) f
  | .brevUniform f => .v 0x16 37 (uniSpec (spec1 tBits f.ty)) f
  | .bswapUniform f => .v 0x16 38 (uniSpec (spec1 tBits f.ty)) f
  | .clmul f => .v 0x17 0 (spec2 [.b32] f.ty) f
  | .clmulh f => .v 0x17 1 (spec2 [.b32] f.ty) f
  | .clmulUniform f => .v 0x17 32 (uniSpec (spec2 [.b32] f.ty)) f
  | .clmulhUniform f => .v 0x17 33 (uniSpec (spec2 [.b32] f.ty)) f
  | .lea f => .v 0x18 0 (specLea f.sc) f
  | .leaUniform f => .v 0x18 32 (uniSpec (specLea f.sc)) f
  | .mov f => .v 0x18 1 (spec1 tBits f.ty) f
  | .movUniform f => .v 0x18 33 (uniSpec (spec1 tBits f.ty)) f
  | .movg f => .v 0x18 2 (specMovg f.ty f.sc) f
  | .gmov f => .v 0x18 3 (specGmov f.ty f.sc) f
  | .movi f => .l 0x19 0 (vInt [.b32, .i32, .n32] (.v 1 false) .none .none .none) f
  | .moviUniform f => .l 0x19 32 (uniSpec (vInt [.b32, .i32, .n32] (.v 1 false) .none .none .none)) f
  | .iaddi f => .i 0x1A 0 (specImm tWide f.ty) f
  | .andi f => .i 0x1A 1 (specImm tBits f.ty) f
  | .ori f => .i 0x1A 2 (specImm tBits f.ty) f
  | .xori f => .i 0x1A 3 (specImm tBits f.ty) f
  | .shli f => .i 0x1A 4 (specShiftImm tShift f.ty f.imm) f
  | .shri f => .i 0x1A 5 (specShiftImm tShift f.ty f.imm) f
  | .sari f => .i 0x1A 6 (specShiftImm tSigned f.ty f.imm) f
  | .iaddiUniform f => .i 0x1A 32 (uniSpec (specImm tWide f.ty)) f
  | .andiUniform f => .i 0x1A 33 (uniSpec (specImm tBits f.ty)) f
  | .oriUniform f => .i 0x1A 34 (uniSpec (specImm tBits f.ty)) f
  | .xoriUniform f => .i 0x1A 35 (uniSpec (specImm tBits f.ty)) f
  | .shliUniform f => .i 0x1A 36 (uniSpec (specShiftImm tShift f.ty f.imm)) f
  | .shriUniform f => .i 0x1A 37 (uniSpec (specShiftImm tShift f.ty f.imm)) f
  | .sariUniform f => .i 0x1A 38 (uniSpec (specShiftImm tSigned f.ty f.imm)) f
  | .kand f => .v 0x1B 0 (specMask .k .k .k) f
  | .kor f => .v 0x1B 1 (specMask .k .k .k) f
  | .kxor f => .v 0x1B 2 (specMask .k .k .k) f
  | .knot f => .v 0x1B 3 (specMask .k .k .none) f
  | .kmov f => .v 0x1B 4 (specMask .k .k .none) f
  | .kpopc f => .v 0x1B 5 (specMask .g .k .none) f
  | .kfirst f => .v 0x1B 6 (specMask .g .k .none) f
  | .shfl m f => .v 0x40 (shflCode m) (vInt tBits (dT f.ty) (opT f.ty) op1 .none) f
  | .voteAny f => .v 0x41 0 (vInt [.b32] .k .none .none .k) f
  | .voteAll f => .v 0x41 1 (vInt [.b32] .k .none .none .k) f
  | .voteBallot f => .v 0x41 2 (vInt [.b32] (.v 1 false) .none .none .k) f
  | .redl fn f => .v 0x42 (redCode fn) (specRed fn f.ty) f
  | .scanl fn x f => .v 0x43 (redCode fn + if x then 16 else 0) (specRed fn f.ty) f
  | .matchLanes m f => .v 0x44 (matchCode m) (vInt tBits (.v 1 false) (opT f.ty) .none .none) f
  | .fadd f => .v 0x30 0 (specF allRm tFloat op1 .none) f
  | .fsub f => .v 0x30 1 (specF allRm tFloat op1 .none) f
  | .fmul f => .v 0x30 2 (specF allRm tFloat op1 .none) f
  | .fmin f => .v 0x30 3 (specF noRm tFloat op1 .none) f
  | .fmax f => .v 0x30 4 (specF noRm tFloat op1 .none) f
  | .fminm f => .v 0x30 5 (specF noRm tFloat op1 .none) f
  | .fmaxm f => .v 0x30 6 (specF noRm tFloat op1 .none) f
  | .fabs f => .v 0x30 7 (specF noRm tFloat .none .none) f
  | .fneg f => .v 0x30 8 (specF noRm tFloat .none .none) f
  | .fcopysign f => .v 0x30 9 (specF noRm tFloat op1 .none) f
  | .ffma f => .v 0x31 0 (specF allRm tFloat op1 (.v 1 false)) f
  | .ffms f => .v 0x31 1 (specF allRm tFloat op1 (.v 1 false)) f
  | .fnma f => .v 0x31 2 (specF allRm tFloat op1 (.v 1 false)) f
  | .fcmp cc f => .v 0x32 (fcmpCode cc) { specF noRm [.f32] op1 .none with d := .k } f
  | .fclass f => .v 0x32 8 (specF noRm [.f32] .none .none) f
  | .frcp f => .v 0x33 0 (specF allRm [.f32] .none .none) f
  | .frsq f => .v 0x33 1 (specF noRm [.f32] .none .none) f
  | .fsqrt f => .v 0x33 2 (specF allRm [.f32] .none .none) f
  | .fexp2 f => .v 0x33 3 (specF noRm [.f32] .none .none) f
  | .flog2 f => .v 0x33 4 (specF noRm [.f32] .none .none) f
  | .fsin f => .v 0x33 5 (specF noRm [.f32] .none .none) f
  | .fcos f => .v 0x33 6 (specF noRm [.f32] .none .none) f
  | .ftanh f => .v 0x33 7 (specF noRm [.f32] .none .none) f
  | .specialFunctionWriteback _ _ => .event
  | .fdot2 f => .v 0x34 0 (specF allRm [.bf16x2] op1 (.v 1 false)) f
  | .cvtfi src f => .v 0x35 ((0#2) ++ tyBits src) { specConv src f.ty with
      tys := tWide, extra := [(2, !(src == .f32 || src == .bf16x2 || src == .f16x2))] } f
  | .cvtif src f => .v 0x36 ((0#2) ++ tyBits src) { specConv src f.ty with
      tys := tFloat, extra := [(2, !(src == .i32 || src == .n32 || src == .i64 || src == .n64))] } f
  | .cvtff src sat amax f => .v 0x37 (BitVec.ofBool amax ++ BitVec.ofBool sat ++ tyBits src)
      { specCvtff src amax f with
        extra := (2, !(src == .f32 || src == .bf16x2 || src == .f16x2 || src == .e4m3x4 || src == .e5m2x4))
          :: (specCvtff src amax f).extra } f
  | .frnd f => .v 0x38 0 (specF allRm [.f32] .none .none) f
  | .scaleb f => .v 0x38 1 (specF allRm tFloat op1 .none) f
  | .packf4 f => .v 0x39 0 { specF srRm [.f4x8] .gk (.v 1 false) with d := .v 2 true, a := .vg 8 false } f
  | .unpackf4 f => .v 0x39 1 { specF noRm [.f4x8] op1 (.v 1 false) with d := .v 8 false } f
  | .ld wd f => .m 0x50 (widthCode wd) (mPlain (ldTys wd) (mdT f.ty)) f
  | .loadWriteback _ _ => .event
  | .st wd f => .m 0x51 (widthCode wd) { mPlain (ldTys wd) (mdT f.ty) with zOk := false } f
  | .ldt f => .m 0x52 0 { mPlain tMem32 (.v 2 2) with ldt := true } f
  | .prf f => .m 0x53 0 (mPlain [.b32] .none) f
  | .cpa f => .s 0x54 0 .b32 { sPlain .none .g4 .zero9 0xFFF with tyDetail := 3 } f
  | .cpaGcm f => .s 0x54 1 .b32 { sPlain .none .g4 .gEven 0xFFF with tyDetail := 3 } f
  | .copyLineWrite _ _ => .event
  | .tagVerify _ => .event
  | .copyEnd _ => .event
  | .cpwait f => .s 0x55 0 .b32 (sPlain .g .g .none 0) f
  | .cpwaitId f => .s 0x55 0 .b32 { sPlain .g .none .none 0x2003F with extra := [(3, !f.imm.getLsbD 17)] } f
  | .cppoll f => .s 0x55 1 .b32 (sPlain .g .none .none 0x3F) f
  | .cctlInv f => .s 0x55 2 .b32 (sPlain .none .none .none 0) f
  | .cctlInvr f => .s 0x55 2 .b32 { sPlain .none .g .g 1 with extra := [(3, decide (f.imm ≠ 1#18))] } f
  | .cctlWayset f => .s 0x55 2 .b32 { sPlain .g .none .none 2 with extra := [(3, decide (f.imm ≠ 2#18))] } f
  | .pgq f => .m 0x56 0 { mPlain [.b32] (.v 1 1) with noPolicy := true } f
  | .atom fn f => .m 0x60 (atomCode fn) (mPlain (atomTys fn) (mdT f.ty)) f
  | .red fn f => .m 0x61 (atomCode fn) { mPlain (atomTys fn) (mdT f.ty) with zOk := false } f
  | .cas f => .m 0x62 0 (mPlain tBits (.v (2 * regs (tyPair f.ty)) (2 * regs (tyPair f.ty)))) f
  | .atomicWriteback _ _ => .event
  | .rtree ty f => .s 0x63 0 ty { sPlain .g .v .g4 0x7 with tys := [.i32, .n32, .f32] } f
  | .contribution _ => .event
  | .rtreeTimeout _ => .event
  | .fence f => .s 0x68 0 .b32 { sPlain .none .none .none 0x7FF with
      extra := [scopeBad f.imm, (3, decide (bitsAt f.imm 0 4 = 0#4)), (3, decide (bitsAt f.imm 4 4 = 0#4))] } f
  | .acq f => .s 0x68 1 .b32 { sPlain .g .gNZ .none 0x700 with extra := [scopeBad f.imm] } f
  | .rel f => .s 0x68 2 .b32 { sPlain .none .gNZ .g 0x700 with extra := [scopeBad f.imm] } f
  | .bind f => .s 0x69 0 .b32 (sPlain .g .gNZ .gEven 0) f
  | .unbind f => .s 0x69 1 .b32 (sPlain .none .gNZ .none 0) f
  | .barset f => .s 0x6A 0 .b32 (sBar .g .none .none true f.imm) f
  | .bararv f => .s 0x6A 1 .b32 (sBar .g .none .none false f.imm) f
  | .barwt f => .s 0x6A 2 .b32 (sBar .g .g .g false f.imm) f
  | .barwtLimit _ _ => .event
  | .barsync f => .s 0x6A 3 .b32 (sBar .none .none .none false f.imm) f
  | .barq f => .s 0x6A 4 .b32 (sBar .g .none .none false f.imm) f
  | .waitu cc f => .m 0x6B (waitCode cc)
      { mPlain (waitTys cc) .gEven with
        zOk := false, noPolicy := true,
        sd := match cc with
          | .changed => .none
          | _ => mdT f.ty } f
  | .sampledEvaluation _ _ => .event
  | .spillScan _ => .event
  | .waitTimeout _ => .event
  | .dependenceRetry _ _ => .event
  | .lineMigration _ _ => .event
  | .mxlease f => .s 0x70 0 .b32 (sPlain .g .none .none 1) f
  | .mxfree f => .s 0x70 1 .b32 (sPlain .none .none .none 0) f
  | .mxcfg f => .s 0x70 2 .b32 (sPlain .none .none .none 3) f
  | .mxw f => .s 0x71 0 .b32 (sPlain .none .g .g 0) f
  | .mxa f => .s 0x72 0 .b32 (sPlain .none .gEven .g 0) f
  | .mxrd f => .v 0x73 0 { specF noRm [.f32] .gk .none with a := .v 1 false } f
  | .mxwr f => .v 0x73 1 { specF noRm [.f32] .gk .none with a := .v 1 false, zOk := false } f
  | .mxz f => .s 0x74 0 .b32 (sPlain .none .g .none 0) f
  | .mxOperationComplete _ => .event
  | .leaseExpiry _ => .event
  | .checkFailure _ _ => .event
  | .watchdog _ => .event
  | .engineResetComplete _ => .event
  | .put f => .s 0x78 0 .b32 { sPlain .none .g4 .g 0xE3F with tyDetail := 3 } f
  | .putAdmission _ _ => .event
  | .putLanding _ _ => .event
  | .reconf f => .s 0x79 0 .b32 (sPlain .g .g .g 7) f
  | .join _ _ _ => .event
  | .gatherTimeout _ => .event
  | .drainComplete => .event
  | .switch => .event
  | .commitStep => .event
  | .create _ => .event
  | .ctxBind _ => .event
  | .start _ => .event
  | .quiesce _ => .event
  | .quiesceComplete _ => .event
  | .destroy _ => .event
  | .scrubComplete _ => .event
  | .keyset _ _ => .event
  | .keyclr _ => .event
  | .inval _ => .event
  | .debuggo _ => .event
  | .contextError _ _ => .event
  | .tdiTransition _ _ => .event
  | .assign _ => .event
  | .enable _ => .event
  | .drain _ => .event
  | .revoke _ => .event
  | .notifyWrite _ _ _ _ _ _ _ => .event
  | .refrecRead _ => .event
  | .remapEntryWrite _ _ => .event
  | .descriptorRead _ => .event
  | .schedulerSelect _ _ _ => .event
  | .reservationTimeout _ => .event
  | .preemption _ => .event
  | .saveComplete _ => .event
  | .restore _ _ _ => .event
  | .restoreComplete _ => .event
  | .completionActions _ => .event
  | .bundleFormation _ => .event
  | .pipelineError _ _ _ => .event
  | .softError _ => .event
  | .redundancyCompare _ => .event
  | .hotModeExpiry _ => .event
  | .hotQueueRetire _ => .event
  | .ownershipRequest _ _ => .event
  | .pageRequestResponse _ _ _ => .event
  | .evictionSelect _ => .event
  | .copyOutComplete _ => .event
  | .fillComplete _ => .event
  | .fillFlashError _ => .event
  | .tierRequest _ => .event
  | .firewallUpdate _ _ _ => .event
  | .txnTimeout _ => .event
  | .formsTheSpace _ _ _ _ => .event
  | .admitsTheCell _ => .event
  | .pathLoss _ => .event
  | .pathRestored _ => .event
  | .suspectTimeout _ => .event
  | .declaresTheCellDead _ => .event
  | .scanComplete _ => .event
  | .readmitsTheCell _ => .event
  | .rejoinComplete _ => .event
  | .packageStop _ => .event
  | .enablesThePort _ => .event
  | .summary _ _ => .event
  | .trainingTimeout _ => .event
  | .wavelengthFailure _ _ _ => .event
  | .laserFailure _ _ _ => .event
  | .blackoutEnd _ => .event
  | .flitCrcFailure _ _ => .event
  | .resetsThePort _ => .event
  | .packetArrival _ => .event
  | .slotWrite _ _ => .event
  | .shapeWrite _ _ _ => .event
  | .grantListRemoval _ => .event
  | .registerWrite _ => .event
  | .telemetryReport _ _ => .event
  | .connectorReport _ _ => .event
  | .spdmMeasurementRequest _ _ => .event
  | .packageReset _ => .event
  | .powerLoss _ => .event
  | .hostSnoop _ => .event
  | .cxlMemRequest _ => .event
  | .writeThroughArrival _ => .event

/-! ### Details of R65 -/

/-- Majors whose A marker is accepted (R49). -/
def aMajor (maj : BitVec 7) : Bool :=
  decide (0x10 ≤ maj.toNat ∧ maj.toNat ≤ 0x1A) || decide (0x50 ≤ maj.toNat ∧ maj.toNat ≤ 0x53) || decide (maj = 0x56#7)

/-- Predicate rules of R48. -/
def predDetails (p : Option Prefix) (k : BitVec 3) (kn : Bool) : List (Nat × Bool) :=
  match p with
  | none => [(13, k == 0#3 && kn)]
  | some q => [(13, k != 0#3), (13, q.k4 == 0#4 && kn)]

/-- Details of one register field of format V: `ix` says that the prefix's index register is added to it. -/
def opdDetails (o : Opd) (fld : BitVec 8) (kbit ix : Bool) : List (Nat × Bool) :=
  match o with
  | .none => [(3, fld != 0#8), (3, kbit)]
  | .vg _ pair =>
    if kbit then [(9, decide (64 ≤ fld.toNat))] else [(9, pair && !ix && fld.getLsbD 0)]
  | .v _ pair => [(3, kbit), (9, pair && !ix && fld.getLsbD 0)]
  | .gk => [(3, !kbit), (9, decide (64 ≤ fld.toNat))]
  | .g => [(3, kbit), (9, decide (64 ≤ fld.toNat))]
  | .k => [(3, kbit), (9, decide (16 ≤ fld.toNat))]
  | .num b => [(9, decide (b ≤ fld.toNat))]

/-- Whether IXS may name this field: it must be a vector field in use (R60); a field of class k is refused with the g fields
(notes/assumptions/66). -/
def ixOk (o : Opd) (kbit : Bool) : Bool :=
  match o with
  | .vg _ _ => !kbit
  | .v _ _ => true
  | _ => false

/-- Prefix rules of R60 for formats V, I and L. -/
def pfxDetails (p : Option Prefix) (s : VSpec) (sak sbk : Bool) : List (Nat × Bool) :=
  match p with
  | none => []
  | some q =>
    [(5, !s.pfx), (5, q.sd != 0#8), (5, q.z && !s.zOk), (10, !(s.rms.contains q.rm)),
     (5, match q.ixs with
      | .none => false
      | .sa => !(ixOk s.a sak)
      | .sb => !(ixOk s.b sbk)
      | .d => !(ixOk s.d false))]

def ixNames (p : Option Prefix) (x : Ixs) : Bool :=
  match p with
  | none => false
  | some q => decide (q.ixs = x)

/-- K and KN where the instruction is not predicated: detail 12 for a uniform form (R58), else 3. -/
def unpredDetails (uni : Bool) (k : BitVec 3) (kn : Bool) : List (Nat × Bool) :=
  [(if uni then 12 else 3, k != 0#3 || kn)]

/-- In a uniform form SAK and SBK break R58 (detail 12); otherwise they are judged with their field. -/
def uniK (s : VSpec) (kbit : Bool) : Bool := !s.uni && kbit

def detailsV (maj : BitVec 7) (s : VSpec) (f : FmtV) : List (Nat × Bool) :=
  [(4, !(s.tys.contains f.ty)), (12, f.a && !aMajor maj), (12, s.uni && (f.sak || f.sbk))]
    ++ opdDetails s.d f.d false (ixNames f.pfx .d)
    ++ opdDetails s.a f.sa (uniK s f.sak) (ixNames f.pfx .sa)
    ++ opdDetails s.b f.sb (uniK s f.sbk) (ixNames f.pfx .sb)
    ++ opdDetails s.c f.sc false false
    ++ pfxDetails f.pfx s f.sak f.sbk
    ++ (if s.pred then predDetails f.pfx f.k f.kn else unpredDetails s.uni f.k f.kn)
    ++ s.extra

def detailsI (maj : BitVec 7) (s : VSpec) (f : FmtI) : List (Nat × Bool) :=
  [(4, !(s.tys.contains f.ty)), (12, f.a && !aMajor maj)]
    ++ opdDetails s.d f.d false (ixNames f.pfx .d)
    ++ opdDetails s.a f.sa false (ixNames f.pfx .sa)
    ++ pfxDetails f.pfx s false false
    ++ (if s.pred then predDetails f.pfx f.k f.kn else unpredDetails s.uni f.k f.kn)
    ++ s.extra

def detailsL (maj : BitVec 7) (s : VSpec) (f : FmtL) : List (Nat × Bool) :=
  [(4, !(s.tys.contains f.ty)), (12, f.a && !aMajor maj)]
    ++ opdDetails s.d f.d false (ixNames f.pfx .d)
    ++ pfxDetails f.pfx s false false
    ++ (if s.pred then predDetails f.pfx f.k f.kn else unpredDetails s.uni f.k f.kn)
    ++ s.extra

def sOpdDetails (o : SOpd) (fld : BitVec 8) : List (Nat × Bool) :=
  let n := fld.toNat
  match o with
  | .none => [(3, decide (n ≠ 0))]
  | .g => [(9, decide (64 ≤ n))]
  | .v => []
  | .gNZ => [(3, decide (n = 0)), (9, decide (64 ≤ n))]
  | .g4 => [(9, !(decide (n % 4 = 0) && decide (4 ≤ n) && decide (n ≤ 60)))]
  | .gEven => [(9, !(decide (n % 2 = 0) && decide (2 ≤ n) && decide (n ≤ 62)))]
  | .zero9 => [(9, decide (n ≠ 0))]
  | .vPair => [(9, decide (n % 2 = 1))]
  | .k => [(9, decide (16 ≤ n))]
  | .c => [(9, decide (8 ≤ n))]

def detailsS (ty : Ty) (s : SSpec) (f : FmtS) : List (Nat × Bool) :=
  [(s.tyDetail, !(s.tys.contains ty)), (3, f.imm &&& ~~~s.immMask != 0#18)]
    ++ sOpdDetails s.d f.d ++ sOpdDetails s.a f.sa ++ sOpdDetails s.b f.sb
    ++ (if s.pred then predDetails none f.k f.kn else unpredDetails false f.k f.kn)
    ++ s.extra

def detailsB (s : BSpec) (f : FmtB) : List (Nat × Bool) :=
  [(3, s.saZero && f.sa != 0#8), (9, s.saPair && f.sa.getLsbD 0), (3, !s.cmOk && decide (f.cm ≠ .each))]
    ++ predDetails none f.k f.kn ++ s.extra

/-- Spaces with no cache take no policy (R62). -/
def uncached : Space → Bool
  | .gen | .const => false
  | _ => true

def mOpdDetails (o : MOpd) (fld : BitVec 8) (ix : Bool) : List (Nat × Bool) :=
  let n := fld.toNat
  match o with
  | .none => [(3, decide (n ≠ 0))]
  | .v _ align => [(9, !ix && decide (n % align ≠ 0))]
  | .gEven => [(9, !(decide (n % 2 = 0) && decide (2 ≤ n) && decide (n ≤ 62)))]

def detailsM (maj : BitVec 7) (s : MSpec) (f : FmtM) : List (Nat × Bool) :=
  [(4, !(s.tys.contains f.ty)), (12, f.a && !aMajor maj), (2, f.nb && f.sb != 0#8), (2, s.ldt && f.sak),
   (3, decide (f.cp ≠ .normal) && (s.noPolicy || uncached f.sp)),
   (9, if f.sak then !(ixNames f.pfx .sa) && f.sa.getLsbD 0 else decide (64 ≤ f.sa.toNat)),
   (9, s.ldt && !f.nb && decide (64 ≤ f.sb.toNat))]
    ++ mOpdDetails s.d f.d (ixNames f.pfx .d)
    ++ predDetails f.pfx f.k f.kn
    ++ match f.pfx with
      | none => []
      | some q =>
        [(5, q.z && !s.zOk), (10, decide (q.rm ≠ .rne)),
         (5, match q.ixs with
          | .none => false
          | .sa => !f.sak
          | .sb => f.nb || s.ldt
          | .d => match s.d with
            | .v _ _ => false
            | _ => true),
         match s.sd with
          | .none => (5, q.sd != 0#8)
          | .v _ align => (9, decide (q.sd.toNat % align ≠ 0))
          | .gEven => (5, q.sd != 0#8)]

/-- Every detail of R65 that the fields of one instruction can earn, each with whether it applies. -/
def Info.details : Info → List (Nat × Bool)
  | .v maj _ q f => detailsV maj q f
  | .i maj _ q f => detailsI maj q f
  | .l maj _ q f => detailsL maj q f
  | .m maj _ q f => detailsM maj q f
  | .b _ _ q f => detailsB q f
  | .s _ _ ty q f => detailsS ty q f
  | .event => [(1, true)]

/-- The lowest detail that applies (R65). -/
def lowestDetail : List (Nat × Bool) → Option Nat
  | [] => none
  | (d, false) :: r => (fun _ => lowestDetail r) d
  | (d, true) :: r =>
    match lowestDetail r with
    | none => some d
    | some e => some (Nat.min d e)

/-! ### From a unit to an instruction -/

def srcTy (fn : Nat) : Option Ty := tyOf (BitVec.ofNat 4 (fn % 16))

def buildRed (fn : Nat) : Option RedFn :=
  match fn with
  | 0 => some .add | 1 => some .min | 2 => some .max | 3 => some .and | 4 => some .or | 5 => some .xor
  | 8 => some .fadd | 9 => some .fmin | 10 => some .fmax | _ => none

def buildAtom (fn : Nat) : Option AtomFn :=
  match fn with
  | 0 => some .add | 1 => some .min | 2 => some .max | 3 => some .and | 4 => some .or | 5 => some .xor
  | 6 => some .xchg | 7 => some .incw | 8 => some .decw | 9 => some .fadd | 10 => some .fmin | 11 => some .fmax
  | _ => none

def build00 (fn : Nat) (f : FmtS) : Option Instr :=
  match fn with
  | 0 => some (.nop f) | 1 => some (.yield f) | 2 => some (.brk f) | _ => none

def build10 (fn : Nat) (f : FmtV) : Option Instr :=
  match fn with
  | 0 => some (.iadd f) | 1 => some (.isub f) | 2 => some (.imin f) | 3 => some (.imax f) | 4 => some (.ineg f)
  | 5 => some (.iabs f) | 6 => some (.iaddc f) | 7 => some (.isubc f) | 8 => some (.iadds f) | 9 => some (.isubs f)
  | 32 => some (.iaddUniform f) | 33 => some (.isubUniform f) | 34 => some (.iminUniform f) | 35 => some (.imaxUniform f)
  | 36 => some (.inegUniform f) | 37 => some (.iabsUniform f) | 38 => some (.iaddcUniform f) | 39 => some (.isubcUniform f)
  | 40 => some (.iaddsUniform f) | 41 => some (.isubsUniform f) | _ => none

def build11 (fn : Nat) (f : FmtV) : Option Instr :=
  match fn with
  | 0 => some (.imul f) | 1 => some (.imulh f) | 2 => some (.imad f) | 3 => some (.imadw f)
  | 32 => some (.imulUniform f) | 33 => some (.imulhUniform f) | 34 => some (.imadUniform f) | 35 => some (.imadwUniform f)
  | _ => none

def build12 (fn : Nat) (f : FmtV) : Option Instr :=
  match fn with
  | 0 => some (.idiv f) | 1 => some (.irem f) | 32 => some (.idivUniform f) | 33 => some (.iremUniform f) | _ => none

def build13 (fn : Nat) (f : FmtV) : Option Instr :=
  match fn with
  | 0 => some (.icmp .eq f) | 1 => some (.icmp .ne f) | 2 => some (.icmp .lt f) | 3 => some (.icmp .le f)
  | 4 => some (.icmp .gt f) | 5 => some (.icmp .ge f) | 8 => some (.isel f) | _ => none

def build14 (fn : Nat) (f : FmtV) : Option Instr :=
  match fn with
  | 0 => some (.and f) | 1 => some (.or f) | 2 => some (.xor f) | 3 => some (.andn f) | 4 => some (.orn f)
  | 5 => some (.xnor f) | 6 => some (.not f)
  | 32 => some (.andUniform f) | 33 => some (.orUniform f) | 34 => some (.xorUniform f) | 35 => some (.andnUniform f)
  | 36 => some (.ornUniform f) | 37 => some (.xnorUniform f) | 38 => some (.notUniform f) | _ => none

def build15 (fn : Nat) (f : FmtV) : Option Instr :=
  match fn with
  | 0 => some (.shl f) | 1 => some (.shr f) | 2 => some (.sar f) | 3 => some (.rol f) | 4 => some (.ror f)
  | 5 => some (.fshl f) | 6 => some (.fshr f)
  | 32 => some (.shlUniform f) | 33 => some (.shrUniform f) | 34 => some (.sarUniform f) | 35 => some (.rolUniform f)
  | 36 => some (.rorUniform f) | 37 => some (.fshlUniform f) | 38 => some (.fshrUniform f) | _ => none

def build16 (fn : Nat) (f : FmtV) : Option Instr :=
  match fn with
  | 0 => some (.bext f) | 1 => some (.bins f) | 2 => some (.popc f) | 3 => some (.clz f) | 4 => some (.ctz f)
  | 5 => some (.brev f) | 6 => some (.bswap f)
  | 32 => some (.bextUniform f) | 33 => some (.binsUniform f) | 34 => some (.popcUniform f) | 35 => some (.clzUniform f)
  | 36 => some (.ctzUniform f) | 37 => some (.brevUniform f) | 38 => some (.bswapUniform f) | _ => none

def build17 (fn : Nat) (f : FmtV) : Option Instr :=
  match fn with
  | 0 => some (.clmul f) | 1 => some (.clmulh f) | 32 => some (.clmulUniform f) | 33 => some (.clmulhUniform f) | _ => none

def build18 (fn : Nat) (f : FmtV) : Option Instr :=
  match fn with
  | 0 => some (.lea f) | 1 => some (.mov f) | 2 => some (.movg f) | 3 => some (.gmov f)
  | 32 => some (.leaUniform f) | 33 => some (.movUniform f) | _ => none

def build1A (fn : Nat) (f : FmtI) : Option Instr :=
  match fn with
  | 0 => some (.iaddi f) | 1 => some (.andi f) | 2 => some (.ori f) | 3 => some (.xori f) | 4 => some (.shli f)
  | 5 => some (.shri f) | 6 => some (.sari f)
  | 32 => some (.iaddiUniform f) | 33 => some (.andiUniform f) | 34 => some (.oriUniform f) | 35 => some (.xoriUniform f)
  | 36 => some (.shliUniform f) | 37 => some (.shriUniform f) | 38 => some (.sariUniform f) | _ => none

def build1B (fn : Nat) (f : FmtV) : Option Instr :=
  match fn with
  | 0 => some (.kand f) | 1 => some (.kor f) | 2 => some (.kxor f) | 3 => some (.knot f) | 4 => some (.kmov f)
  | 5 => some (.kpopc f) | 6 => some (.kfirst f) | _ => none

def build30 (fn : Nat) (f : FmtV) : Option Instr :=
  match fn with
  | 0 => some (.fadd f) | 1 => some (.fsub f) | 2 => some (.fmul f) | 3 => some (.fmin f) | 4 => some (.fmax f)
  | 5 => some (.fminm f) | 6 => some (.fmaxm f) | 7 => some (.fabs f) | 8 => some (.fneg f) | 9 => some (.fcopysign f)
  | _ => none

def build32 (fn : Nat) (f : FmtV) : Option Instr :=
  match fn with
  | 0 => some (.fcmp .eq f) | 1 => some (.fcmp .ne f) | 2 => some (.fcmp .lt f) | 3 => some (.fcmp .le f)
  | 4 => some (.fcmp .gt f) | 5 => some (.fcmp .ge f) | 6 => some (.fcmp .un f) | 7 => some (.fcmp .or f)
  | 8 => some (.fclass f) | _ => none

def build33 (fn : Nat) (f : FmtV) : Option Instr :=
  match fn with
  | 0 => some (.frcp f) | 1 => some (.frsq f) | 2 => some (.fsqrt f) | 3 => some (.fexp2 f) | 4 => some (.flog2 f)
  | 5 => some (.fsin f) | 6 => some (.fcos f) | 7 => some (.ftanh f) | _ => none

def build6A (fn : Nat) (f : FmtS) : Option Instr :=
  match fn with
  | 0 => some (.barset f) | 1 => some (.bararv f) | 2 => some (.barwt f) | 3 => some (.barsync f) | 4 => some (.barq f)
  | _ => none

def buildWait (fn : Nat) (f : FmtM) : Option Instr :=
  match fn with
  | 0 => some (.waitu .eq f) | 1 => some (.waitu .ne f) | 2 => some (.waitu .ge f) | 3 => some (.waitu .lt f)
  | 4 => some (.waitu .anybits f) | 5 => some (.waitu .changed f) | _ => none

def buildLd (fn : Nat) : Option MemWidth :=
  match fn with
  | 0 => some .elem | 1 => some .byte | 2 => some .half | _ => none

/-- RESUME by its mode (R391): a reserved one earns detail 3. -/
def buildResume (mode : Nat) (f : FmtS) : Except Nat Instr :=
  match mode with
  | 0 => .ok (.resumeF f) | 1 => .ok (.resumeS f) | 2 => .ok (.resumeN f) | _ => .error 3

/-- CCTL by its operation (R248): a reserved one earns detail 3. -/
def buildCctl (op : Nat) (f : FmtS) : Except Nat Instr :=
  match op with
  | 0 => .ok (.cctlInv f) | 1 => .ok (.cctlInvr f) | 2 => .ok (.cctlWayset f) | _ => .error 3

/-- The instruction that a major and FN name (R63), its fields read from the unit; `fn4` is FN without its two upper bits
(format M, R53). The error is the detail of R65 for a reserved major (1), a reserved FN (2), or a reserved operation inside
a listed FN (3). -/
def buildAt (maj fn fn4 : Nat) (u : RawUnit) : Except Nat Instr :=
  let w := u.base
  let fnOr (o : Option Instr) : Except Nat Instr :=
    match o with
    | some i => .ok i
    | none => .error 2
  match maj with
  | 0x00 => fnOr (build00 fn (fmtS u))
  | 0x01 => fnOr (if fn = 0 then some (.bra (fmtB u)) else none)
  | 0x02 => fnOr (if fn = 0 then some (.jtb (fmtB u)) else if fn = 1 then some (.lpad (fmtS u)) else none)
  | 0x03 => fnOr (if fn = 0 then some (.call (fmtB u)) else if fn = 1 then some (.callj (fmtB u))
      else if fn = 2 then some (.ret (fmtS u)) else none)
  | 0x04 => fnOr (if fn = 0 then some (.exit (fmtS u)) else none)
  | 0x05 => fnOr (if fn = 0 then some (.cdecl (fmtS u)) else if fn = 1 then some (.csign (fmtS u))
      else if fn = 2 then some (.partset (fmtS u)) else none)
  | 0x06 => fnOr (if fn = 0 then (if w.getLsbD 17 then some (.movsrVector (fmtS u)) else some (.movsr (fmtS u)))
      else if fn = 1 then some (.movts (fmtS u)) else if fn = 2 then some (.setx (fmtI u)) else none)
  | 0x07 => fnOr (if fn = 0 then some (.span (fmtS u)) else none)
  | 0x08 =>
    if fn = 0 then .ok (.trap (fmtS u))
    else if fn = 1 then
      buildResume (bitsAt w 0 2).toNat (fmtS u)
    else if fn = 2 then .ok (.abortg (fmtS u)) else .error 2
  | 0x09 => fnOr (if fn = 0 then some (.launch (fmtS u)) else none)
  | 0x0A => fnOr (if fn = 0 then some (.alloc (fmtS u)) else if fn = 1 then some (.freeb (fmtS u)) else none)
  | 0x10 => fnOr (build10 fn (fmtV u))
  | 0x11 => fnOr (build11 fn (fmtV u))
  | 0x12 => fnOr (build12 fn (fmtV u))
  | 0x13 => fnOr (build13 fn (fmtV u))
  | 0x14 => fnOr (build14 fn (fmtV u))
  | 0x15 => fnOr (build15 fn (fmtV u))
  | 0x16 => fnOr (build16 fn (fmtV u))
  | 0x17 => fnOr (build17 fn (fmtV u))
  | 0x18 => fnOr (build18 fn (fmtV u))
  | 0x19 => fnOr (if fn = 0 then some (.movi (fmtL u)) else if fn = 32 then some (.moviUniform (fmtL u)) else none)
  | 0x1A => fnOr (build1A fn (fmtI u))
  | 0x1B => fnOr (build1B fn (fmtV u))
  | 0x30 => fnOr (build30 fn (fmtV u))
  | 0x31 => fnOr (if fn = 0 then some (.ffma (fmtV u)) else if fn = 1 then some (.ffms (fmtV u))
      else if fn = 2 then some (.fnma (fmtV u)) else none)
  | 0x32 => fnOr (build32 fn (fmtV u))
  | 0x33 => fnOr (build33 fn (fmtV u))
  | 0x34 => fnOr (if fn = 0 then some (.fdot2 (fmtV u)) else none)
  | 0x35 => fnOr (if fn < 16 then (srcTy fn).map (.cvtfi · (fmtV u)) else none)
  | 0x36 => fnOr (if fn < 16 then (srcTy fn).map (.cvtif · (fmtV u)) else none)
  | 0x37 => fnOr ((srcTy fn).map (.cvtff · (w.getLsbD 54) (w.getLsbD 55) (fmtV u)))
  | 0x38 => fnOr (if fn = 0 then some (.frnd (fmtV u)) else if fn = 1 then some (.scaleb (fmtV u)) else none)
  | 0x39 => fnOr (if fn = 0 then some (.packf4 (fmtV u)) else if fn = 1 then some (.unpackf4 (fmtV u)) else none)
  | 0x40 => fnOr (match fn with
      | 0 => some (.shfl .idx (fmtV u)) | 1 => some (.shfl .up (fmtV u)) | 2 => some (.shfl .down (fmtV u))
      | 3 => some (.shfl .xor (fmtV u)) | _ => none)
  | 0x41 => fnOr (if fn = 0 then some (.voteAny (fmtV u)) else if fn = 1 then some (.voteAll (fmtV u))
      else if fn = 2 then some (.voteBallot (fmtV u)) else none)
  | 0x42 => fnOr ((buildRed fn).map (.redl · (fmtV u)))
  | 0x43 => fnOr (if fn < 16 then (buildRed fn).map (.scanl · false (fmtV u))
      else if fn < 32 then (buildRed (fn - 16)).map (.scanl · true (fmtV u)) else none)
  | 0x44 => fnOr (if fn = 0 then some (.matchLanes .any (fmtV u)) else if fn = 1 then some (.matchLanes .all (fmtV u))
      else none)
  | 0x50 => fnOr ((buildLd fn4).map (.ld · (fmtM u)))
  | 0x51 => fnOr ((buildLd fn4).map (.st · (fmtM u)))
  | 0x52 => fnOr (if fn4 = 0 then some (.ldt (fmtM u)) else none)
  | 0x53 => fnOr (if fn4 = 0 then some (.prf (fmtM u)) else none)
  | 0x54 => fnOr (if fn = 0 then some (.cpa (fmtS u)) else if fn = 1 then some (.cpaGcm (fmtS u)) else none)
  | 0x55 =>
    if fn = 0 then (if w.getLsbD 17 then .ok (.cpwaitId (fmtS u)) else .ok (.cpwait (fmtS u)))
    else if fn = 1 then .ok (.cppoll (fmtS u))
    else if fn = 2 then
      buildCctl (bitsAt w 0 3).toNat (fmtS u)
    else .error 2
  | 0x56 => fnOr (if fn4 = 0 then some (.pgq (fmtM u)) else none)
  | 0x60 => fnOr ((buildAtom fn4).map (.atom · (fmtM u)))
  | 0x61 => fnOr ((buildAtom fn4).map (.red · (fmtM u)))
  | 0x62 => fnOr (if fn4 = 0 then some (.cas (fmtM u)) else none)
  | 0x63 => fnOr (if fn = 0 then some (.rtree ((tyOf (rawTy w)).getD .b32) (fmtS u)) else none)
  | 0x68 => fnOr (if fn = 0 then some (.fence (fmtS u)) else if fn = 1 then some (.acq (fmtS u))
      else if fn = 2 then some (.rel (fmtS u)) else none)
  | 0x69 => fnOr (if fn = 0 then some (.bind (fmtS u)) else if fn = 1 then some (.unbind (fmtS u)) else none)
  | 0x6A => fnOr (build6A fn (fmtS u))
  | 0x6B => fnOr (buildWait fn4 (fmtM u))
  | 0x70 => fnOr (if fn = 0 then some (.mxlease (fmtS u)) else if fn = 1 then some (.mxfree (fmtS u))
      else if fn = 2 then some (.mxcfg (fmtS u)) else none)
  | 0x71 => fnOr (if fn = 0 then some (.mxw (fmtS u)) else none)
  | 0x72 => fnOr (if fn = 0 then some (.mxa (fmtS u)) else none)
  | 0x73 => fnOr (if fn = 0 then some (.mxrd (fmtV u)) else if fn = 1 then some (.mxwr (fmtV u)) else none)
  | 0x74 => fnOr (if fn = 0 then some (.mxz (fmtS u)) else none)
  | 0x78 => fnOr (if fn = 0 then some (.put (fmtS u)) else none)
  | 0x79 => fnOr (if fn = 0 then some (.reconf (fmtS u)) else none)
  | _ => .error 1

/-- The instruction of a unit (R63), or the detail of R65 where its major or FN is reserved. -/
def buildUnit (u : RawUnit) : Except Nat Instr :=
  buildAt (rawMaj u.base).toNat (rawFn u.base).toNat ((rawFn u.base).toNat % 16) u

/-- Details that the typed fields cannot hold: a reserved TY, RM or CM, a nonzero reserved bit of the format, TY or the
A marker or a prefix on formats S and B. CM = 11, and CM other than 00 on JTB, CALL and CALLJ, have no detail of their own in
R54 and R65: they take detail 3, the model's choice (notes/assumptions/86). -/
def rawDetails (u : RawUnit) (x : Info) : List (Nat × Bool) :=
  let w := u.base
  let badRm := match u.pfx with
    | none => false
    | some p => (prefixOf p).isNone
  let badTy := (tyOf (rawTy w)).isNone
  match x with
  | .v _ _ _ _ => [(10, badRm), (4, badTy), (3, bitsAt w 0 8 != 0#8)]
  | .i _ _ _ _ => [(10, badRm), (4, badTy)]
  | .l _ _ _ _ => [(10, badRm), (4, badTy), (3, bitsAt w 32 2 != 0#2)]
  | .m _ _ _ _ => [(10, badRm), (4, badTy)]
  | .b _ _ _ _ =>
    [(5, u.pfx.isSome), (12, rawA w), (4, rawTy w != 0#4), (3, (cmOf (bitsAt w 32 2)).isNone)]
  | .s _ _ _ s _ =>
    [(5, u.pfx.isSome), (10, badRm), (12, rawA w), (4, badTy), (s.tyDetail, s.tys == [.b32] && rawTy w != 0#4)]
  | .event => []

/-- Decodes a unit: the instruction, or the ILLEGAL detail it earns by itself (cases 6, 7, 8, 11 and 14 depend on the
block and are judged by the step). -/
def decodeUnit (u : RawUnit) : Except Nat Instr :=
  match buildUnit u with
  | .error d => .error d
  | .ok i =>
    match lowestDetail (rawDetails u i.info ++ i.info.details) with
    | none => .ok i
    | some d => .error d

/-! ### The encoder -/

def packV (f : FmtV) : BitVec 42 :=
  f.d ++ f.sa ++ f.sb ++ f.sc ++ BitVec.ofBool f.sbk ++ BitVec.ofBool f.sak ++ 0#8

def packI (f : FmtI) : BitVec 42 := f.d ++ f.sa ++ f.imm
def packL (f : FmtL) : BitVec 42 := f.d ++ 0#2 ++ f.imm
def packM (f : FmtM) : BitVec 42 := f.d ++ f.sa ++ f.sb ++ spaceBits f.sp ++ policyBits f.cp ++ f.off
def packB (f : FmtB) : BitVec 42 := f.sa ++ cmBits f.cm ++ f.off
def packS (f : FmtS) : BitVec 42 := f.d ++ f.sa ++ f.sb ++ f.imm

/-- The unit of an instruction; an event has none. -/
def encodeUnit (i : Instr) : Option RawUnit :=
  match i.info with
  | .v maj fn _ f => some ⟨f.pfx.map prefixParcel, packBase f.a maj fn (tyBits f.ty) f.k f.kn (packV f)⟩
  | .i maj fn _ f => some ⟨f.pfx.map prefixParcel, packBase f.a maj fn (tyBits f.ty) f.k f.kn (packI f)⟩
  | .l maj fn _ f => some ⟨f.pfx.map prefixParcel, packBase f.a maj fn (tyBits f.ty) f.k f.kn (packL f)⟩
  | .m maj fn _ f => some ⟨f.pfx.map prefixParcel,
      packBase f.a maj (BitVec.ofBool f.sak ++ BitVec.ofBool f.nb ++ fn) (tyBits f.ty) f.k f.kn (packM f)⟩
  | .b maj fn _ f => some ⟨none, packBase false maj fn 0 f.k f.kn (packB f)⟩
  | .s maj fn ty _ f => some ⟨none, packBase false maj fn (tyBits ty) f.k f.kn (packS f)⟩
  | .event => none

/-- The parcels of a unit in memory order: the prefix, bits 63:32, bits 31:0 (R43). -/
def unitParcels (u : RawUnit) : List Parcel :=
  (match u.pfx with
    | none => []
    | some p => [p]) ++ [bitsAt u.base 32 32, bitsAt u.base 0 32]

/-- The words of a well-formed instruction. -/
def encode (i : Instr) : List Parcel :=
  match encodeUnit i with
  | none => []
  | some u => unitParcels u

/-! ### Decoding a stream of parcels -/

/-- How the decoder classifies a unit by the top byte of its first parcel (R43). -/
inductive ParcelKind where
  | header | pre | reserved | base
deriving DecidableEq, Repr

def parcelKind (p : Parcel) : ParcelKind :=
  match (bitsAt p 24 8).toNat with
  | 0x7F => .header
  | 0x7E => .pre
  | 0xFE => .reserved
  | 0xFF => .reserved
  | _ => .base

/-- The unit at the head of a stream, or the detail of R60/R65 (1 reserved, 5 prefix misuse, 6 header, 7 the stream
ends inside the unit). -/
def takeUnit : List Parcel → Except Nat RawUnit
  | [] => .error 7
  | p :: rest =>
    match parcelKind p with
    | .header => .error 6
    | .reserved => .error 1
    | .base =>
      match rest with
      | [] => .error 7
      | q :: _ => .ok ⟨none, p ++ q⟩
    | .pre =>
      match rest with
      | [] => .error 5
      | q :: rest' =>
        match parcelKind q with
        | .header => .error 5
        | .pre => .error 5
        | .reserved => .error 1
        | .base =>
          match rest' with
          | [] => .error 7
          | r :: _ => .ok ⟨some p, q ++ r⟩

/-- Decodes the first unit of a stream of parcels. -/
def decodeParcels (ps : List Parcel) : Except Nat Instr :=
  match takeUnit ps with
  | .error d => .error d
  | .ok u => decodeUnit u

/-- The parcel at position `i` of a number whose bit 0 is the least significant bit of the first parcel. -/
def tableParcel (w i : Nat) : Parcel := BitVec.ofNat 32 (w >>> (32 * i))

/-- The first `nbits` bits of `w`; every bit above is 0. -/
def tableWord (nbits w : Nat) : Nat := w % 2 ^ nbits

/-- The instruction this decoder reads from a unit whose bits are `w` (bit 0 the least significant bit of the FIRST
parcel; at most three parcels: a prefix and a base word). -/
def decodeTableWord (nbits w : Nat) : Option Instr :=
  let v := tableWord nbits w
  match decodeParcels [tableParcel v 0, tableParcel v 1, tableParcel v 2] with
  | .ok i => some i
  | .error _ => none

/-! ### Facts about a unit that the step needs -/

/-- Length of a unit in bytes: 8, or 12 with a prefix (R43). -/
def Info.bytes : Info → Nat
  | .v _ _ _ f => if f.pfx.isSome then 12 else 8
  | .i _ _ _ f => if f.pfx.isSome then 12 else 8
  | .l _ _ _ f => if f.pfx.isSome then 12 else 8
  | .m _ _ _ f => if f.pfx.isSome then 12 else 8
  | _ => 8

/-- Block-ending instructions, R45. -/
def Instr.blockEnding : Instr → Bool
  | .bra _ | .jtb _ | .call _ | .callj _ | .ret _ => true
  | .atom _ _ | .red _ _ | .cas _ | .put _ | .rtree _ _ | .reconf _ | .cpa _ | .cpaGcm _ => true
  | .mxlease _ | .mxfree _ | .mxw _ | .mxa _ | .mxwr _ | .mxz _ | .mxcfg _ => true
  | .fence f => f.imm.getLsbD 1
  | .rel _ | .bararv _ | .barsync _ | .waitu _ _ | .launch _ | .span _ | .exit _ | .trap _ => true
  | .resumeF _ | .resumeS _ | .resumeN _ | .abortg _ => true
  | _ => false

end Sys2Proof
end

