-- ==== Sys2Proof/Machine/Num.lean ====
section
/-! DEFINITION. Number formats and exact arithmetic (02_numbers): decoding, exact values, rounding under R30 to R34 with
the flags of R36, and the special functions of R211. -/

namespace Sys2Proof.Machine

/-! ### Formats (R24, R25) -/

/-- A floating-point format: mantissa bits, bias, width, the code of the greatest finite value, and the codes of infinity
and of the canonical NaN where the format has them. -/
structure FFmt where
  mant : Nat
  bias : Nat
  width : Nat
  maxCode : Nat
  inf : Option Nat
  nan : Option Nat
deriving DecidableEq, Repr

def fp32 : FFmt := ⟨23, 127, 32, 0x7F7FFFFF, some 0x7F800000, some 0x7FC00000⟩
def bf16 : FFmt := ⟨7, 127, 16, 0x7F7F, some 0x7F80, some 0x7FC0⟩
def fp16 : FFmt := ⟨10, 15, 16, 0x7BFF, some 0x7C00, some 0x7E00⟩
def e4m3 : FFmt := ⟨3, 7, 8, 0x7E, none, some 0x7F⟩
def e5m2 : FFmt := ⟨2, 15, 8, 0x7B, some 0x7C, some 0x7E⟩
def e2m1 : FFmt := ⟨1, 1, 4, 7, none, none⟩

/-- The format of a float type's elements. -/
def fmtOf : Ty → FFmt
  | .bf16x2 => bf16
  | .f16x2 => fp16
  | .e4m3x4 => e4m3
  | .e5m2x4 => e5m2
  | .f4x8 => e2m1
  | _ => fp32

/-- An exact value: a NaN (signalling or not), an infinity, or (-1)^neg × m × 2^e. -/
inductive FV where
  | nan (sig : Bool)
  | inf (neg : Bool)
  | fin (neg : Bool) (m : Nat) (e : Int)
deriving DecidableEq, Repr

/-- The value of an encoding (R24, R25). -/
def FFmt.val (f : FFmt) (x : Nat) : FV :=
  let neg := Nat.testBit x (f.width - 1)
  let mag := x % 2 ^ (f.width - 1)
  if f.maxCode < mag then
    if f.inf = some mag then .inf neg
    else .nan (f.inf.isSome && !Nat.testBit mag (f.mant - 1))
  else
    let e := mag / 2 ^ f.mant
    let m := mag % 2 ^ f.mant
    if e = 0 then .fin neg m (1 - (f.bias : Int) - f.mant)
    else .fin neg (2 ^ f.mant + m) ((e : Int) - f.bias - f.mant)

/-! ### Flags of FSTAT (R36) -/

abbrev Flags := BitVec 6
def fNV : Flags := 1
def fDZ : Flags := 2
def fOF : Flags := 4
def fUF : Flags := 8
def fNX : Flags := 16
def fSAT : Flags := 32

def FV.isNan : FV → Bool
  | .nan _ => true
  | _ => false
def FV.isSig : FV → Bool
  | .nan s => s
  | _ => false
def FV.neg? : FV → Bool
  | .nan _ => false
  | .inf n => n
  | .fin n _ _ => n
def FV.isZero : FV → Bool
  | .fin _ 0 _ => true
  | _ => false
def FV.isInf : FV → Bool
  | .inf _ => true
  | _ => false
/-- NV for a signalling input. -/
def sigFlag (v : FV) : Flags := if v.isSig then fNV else 0

/-! ### Rounding (R30, R31, R33) -/

def pow2 (i : Int) : Nat := 2 ^ i.toNat

/-- Whether the magnitude (q and the fraction r / den) is rounded up. -/
def roundsUp (mode : Rnd) (neg : Bool) (q r den rnd : Nat) : Bool :=
  match mode with
  | .rne => decide (den < 2 * r) || (decide (2 * r = den) && decide (q % 2 = 1))
  | .rtz => false
  | .rup => decide (0 < r) && !neg
  | .rdn => decide (0 < r) && neg
  | .rna => decide (den ≤ 2 * r)
  | .sr => decide (2 ^ 32 ≤ r * 2 ^ 32 / den + rnd)

/-- floor(log2 (n / d)) for n, d > 0. -/
def ratLog2 (n d : Nat) : Int :=
  let g : Int := (n.log2 : Int) - d.log2
  if d * pow2 g ≤ n * pow2 (-g) then g else g - 1

/-- Where the magnitude exceeds the greatest finite value: true for that value, false for infinity (R31). -/
def toMax (mode : Rnd) (neg sat : Bool) : Bool :=
  sat || match mode with
    | .rtz => true
    | .rup => neg
    | .rdn => !neg
    | _ => false

def signBit (f : FFmt) (neg : Bool) : Nat := if neg then 2 ^ (f.width - 1) else 0

/-- Rounds (-1)^neg × (n / d) × 2^e to a format: the encoding and its flags. -/
def roundRat (f : FFmt) (mode : Rnd) (sat neg : Bool) (n d : Nat) (e : Int) (rnd : Nat) : Nat × Flags :=
  if n = 0 then (signBit f neg, 0)
  else
    let emin : Int := 1 - (f.bias : Int)
    let ex := ratLog2 n d + e
    let u : Int := max ex emin - f.mant
    let sh := e - u
    let num := n * pow2 sh
    let den := d * pow2 (-sh)
    let q := num / den
    let r := num % den
    let q' := if roundsUp mode neg q r den rnd then q + 1 else q
    let code := ((u + f.mant + f.bias - 1) * 2 ^ f.mant + q').toNat
    if f.maxCode < code then
      let satd := sat || f.inf.isNone
      if toMax mode neg satd then (signBit f neg + f.maxCode, fOF ||| fNX ||| (if satd then fSAT else 0))
      else (signBit f neg + f.inf.getD f.maxCode, fOF ||| fNX)
    else
      let nx := decide (r ≠ 0)
      (signBit f neg + code, (if nx then fNX else 0) ||| (if nx && decide (ex < emin) then fUF else 0))

/-- Round of R69: an exact value to a format. -/
def roundFV (f : FFmt) (mode : Rnd) (sat : Bool) (rnd : Nat) : FV → Nat × Flags
  | .nan _ =>
    match f.nan with
    | some c => (c, 0)
    | none => (0, fNV)
  | .inf neg =>
    match f.inf, sat with
    | some c, false => (signBit f neg + c, 0)
    | _, _ => (signBit f neg + f.maxCode, fOF ||| fNX ||| fSAT)
  | .fin neg m e => roundRat f mode sat neg m 1 e rnd

/-- The canonical NaN, where the format has one (R25). -/
def FFmt.qnan (f : FFmt) : Nat := f.nan.getD 0

/-- Rounds a finite value to an integer magnitude: the magnitude and whether it differs. -/
def roundInt (mode : Rnd) (neg : Bool) (m : Nat) (e : Int) : Nat × Bool :=
  let num := m * pow2 e
  let den := pow2 (-e)
  let q := num / den
  let r := num % den
  (if roundsUp mode neg q r den 0 then q + 1 else q, decide (r ≠ 0))

/-! ### Stochastic bits (R34) -/

def srStep (h c : DWord) : DWord :=
  let h := (h ^^^ (h >>> 29)) * c
  h ^^^ (h >>> 32)

def srBits (seed : DWord) (stream row col : Nat) : Nat :=
  let h := BitVec.ofNat 64 (stream % 2 ^ 16 * 2 ^ 48 + row % 2 ^ 24 * 2 ^ 24 + col % 2 ^ 24) ^^^ seed
  ((srStep (srStep (srStep h 0xA3B195C47D2E6F0B#64) 0xC2F81D5A93E4B617#64) 0x8F3D6A27E1C954AD#64).setWidth 32).toNat

/-! ### Exact arithmetic (R32, R205, R206) -/

def sgn (neg : Bool) (m : Nat) : Int := if neg then -(m : Int) else m

/-- The exact product; the flag is NV of 0 × ∞. -/
def fvMul (a b : FV) : FV × Flags :=
  match a, b with
  | .nan s, .nan t => (.nan (s || t), 0)
  | .nan s, _ => (.nan s, 0)
  | _, .nan t => (.nan t, 0)
  | .inf n, y => if y.isZero then (.nan false, fNV) else (.inf (n != y.neg?), 0)
  | x, .inf n => if x.isZero then (.nan false, fNV) else (.inf (n != x.neg?), 0)
  | .fin n m e, .fin n' m' e' => (.fin (n != n') (m * m') (e + e'), 0)

/-- The exact sum; an exact zero is -0 only from two -0 or under RDN (R206). -/
def fvAdd (mode : Rnd) (a b : FV) : FV × Flags :=
  match a, b with
  | .nan s, .nan t => (.nan (s || t), 0)
  | .nan s, _ => (.nan s, 0)
  | _, .nan t => (.nan t, 0)
  | .inf n, .inf n' => if n = n' then (.inf n, 0) else (.nan false, fNV)
  | .inf n, _ => (.inf n, 0)
  | _, .inf n => (.inf n, 0)
  | .fin n m e, .fin n' m' e' =>
    if m = 0 ∧ m' = 0 then (.fin (if n = n' then n else decide (mode = .rdn)) 0 0, 0)
    else
      let lo := min e e'
      let t := sgn n (m * pow2 (e - lo)) + sgn n' (m' * pow2 (e' - lo))
      if t = 0 then (.fin (decide (mode = .rdn)) 0 0, 0) else (.fin (decide (t < 0)) t.natAbs lo, 0)

def FV.negate : FV → FV
  | .nan s => .nan s
  | .inf n => .inf !n
  | .fin n m e => .fin (!n) m e

/-- NV of a signalling input, beside what the operation itself raised (R206, notes/assumptions/48). -/
def nvOf (ins : List FV) (made : Flags) : Flags := made ||| (if ins.any FV.isSig then fNV else 0)

/-- One rounded operation on exact inputs: the encoding and its flags. -/
def roundOp (f : FFmt) (mode : Rnd) (ins : List FV) (r : FV × Flags) : Nat × Flags :=
  let (c, fl) := roundFV f mode false 0 r.1
  (c, fl ||| nvOf ins r.2)

def fAdd (f : FFmt) (mode : Rnd) (x y : Nat) : Nat × Flags :=
  let a := f.val x
  let b := f.val y
  roundOp f mode [a, b] (fvAdd mode a b)
def fSub (f : FFmt) (mode : Rnd) (x y : Nat) : Nat × Flags :=
  let a := f.val x
  let b := f.val y
  roundOp f mode [a, b] (fvAdd mode a b.negate)
def fMul (f : FFmt) (mode : Rnd) (x y : Nat) : Nat × Flags :=
  let a := f.val x
  let b := f.val y
  roundOp f mode [a, b] (fvMul a b)

/-- Fused forms: a × b + c with the signs asked for, rounded once (R205). -/
def fFma (f : FFmt) (mode : Rnd) (negP negC : Bool) (x y z : Nat) : Nat × Flags :=
  let a := f.val x
  let b := f.val y
  let c := f.val z
  let p := fvMul a b
  let r := fvAdd mode (if negP then p.1.negate else p.1) (if negC then c.negate else c)
  roundOp f mode [a, b, c] (r.1, p.2 ||| r.2)

/-- The sum of the exact terms of FDOT2 as one addition (R212). -/
def fDot2 (mode : Rnd) (a0 b0 a1 b1 c : FV) : Nat × Flags :=
  let p := fvMul a0 b0
  let q := fvMul a1 b1
  let ts := [p.1, q.1, c]
  let infs := ts.filter FV.isInf
  let res : FV × Flags :=
    if ts.any FV.isNan then (.nan false, p.2 ||| q.2)
    else
      match infs with
      | v :: r => if r.all fun w => decide (w.neg? = v.neg?) then (.inf v.neg?, 0) else (.nan false, fNV)
      | [] =>
        if ts.all FV.isZero then
          (.fin (if ts.all FV.neg? then true else if ts.all fun v => !v.neg? then false else decide (mode = .rdn)) 0 0, 0)
        else
          let s := fvAdd mode p.1 q.1
          let t := fvAdd mode (if s.1.isZero then .fin false 0 0 else s.1) c
          if t.1.isZero then (.fin (decide (mode = .rdn)) 0 0, 0) else t
  roundOp fp32 mode [a0, b0, a1, b1, c] res

/-- Order of two values that are not NaN, with -0 equal to +0. -/
def fvLt (a b : FV) : Bool :=
  match a, b with
  | .inf n, .inf n' => n && !n'
  | .inf n, _ => n
  | _, .inf n => !n
  | .fin n m e, .fin n' m' e' =>
    let lo := min e e'
    decide (sgn n (m * pow2 (e - lo)) < sgn n' (m' * pow2 (e' - lo)))
  | _, _ => false

def fvEq (a b : FV) : Bool := !a.isNan && !b.isNan && !fvLt a b && !fvLt b a

/-- Order with -0 less than +0 (R207). -/
def fvLess (a b : FV) : Bool := fvLt a b || (a.isZero && b.isZero && a.neg? && !b.neg?)

/-- FMIN, FMAX, FMINM, FMAXM (R207): `mx` for the greater, `prop` for the members that give NaN with one NaN. -/
def fMinMax (f : FFmt) (mx prop : Bool) (x y : Nat) : Nat × Flags :=
  let a := f.val x
  let b := f.val y
  let fl := sigFlag a ||| sigFlag b
  if a.isNan && b.isNan then (f.qnan, fl)
  else if a.isNan then (if prop then f.qnan else y, fl)
  else if b.isNan then (if prop then f.qnan else x, fl)
  else ((if mx then (if fvLess a b then y else x) else (if fvLess b a then y else x)), fl)

/-- FABS, FNEG and FCOPYSIGN: a NaN gives the canonical NaN, else the sign is set (R205). -/
def fSetSign (f : FFmt) (x : Nat) (neg : Bool) : Nat :=
  if (f.val x).isNan then f.qnan else x % 2 ^ (f.width - 1) + signBit f neg

def fcmpEval (cc : FCmp) (x y : Nat) : Bool × Flags :=
  let a := fp32.val x
  let b := fp32.val y
  let un := a.isNan || b.isNan
  let sig := sigFlag a ||| sigFlag b
  let q := if un then fNV else 0
  match cc with
  | .eq => (!un && fvEq a b, sig)
  | .ne => (un || !fvEq a b, sig)
  | .lt => (!un && fvLt a b, q)
  | .le => (!un && !fvLt b a, q)
  | .gt => (!un && fvLt b a, q)
  | .ge => (!un && !fvLt a b, q)
  | .un => (un, sig)
  | .or => (!un, sig)

/-- FCLASS (R209). -/
def fClass (x : Nat) : Nat :=
  match fp32.val x with
  | .nan s => if s then 256 else 512
  | .inf n => if n then 1 else 128
  | .fin n m _ =>
    if m = 0 then (if n then 8 else 16)
    else if m < 2 ^ 23 then (if n then 4 else 32)
    else (if n then 2 else 64)

/-! ### Conversions (R214, R215, R218, R219) -/

/-- CVTFI of one element to a type of `w` bits. -/
def fToInt (mode : Rnd) (signed : Bool) (w : Nat) (v : FV) : Int × Flags :=
  let lo : Int := if signed then -(2 ^ (w - 1) : Nat) else 0
  let hi : Int := if signed then (2 ^ (w - 1) : Nat) - 1 else (2 ^ w : Nat) - 1
  match v with
  | .nan _ => (0, fNV)
  | .inf n => (if n then lo else hi, fNV)
  | .fin n m e =>
    let (q, nx) := roundInt mode n m e
    let t := sgn n q
    if t < lo then (lo, fNV) else if hi < t then (hi, fNV) else (t, if nx then fNX else 0)

/-- CVTIF of one integer. -/
def intToF (f : FFmt) (mode : Rnd) (t : Int) : Nat × Flags := roundRat f mode false (decide (t < 0)) t.natAbs 1 0 0

/-- FRND: an integral FP32 value, with no flag but NV for a signalling NaN (R218). -/
def fRnd (mode : Rnd) (x : Nat) : Nat × Flags :=
  match fp32.val x with
  | .nan s => (fp32.qnan, if s then fNV else 0)
  | .inf _ => (x, 0)
  | .fin n m e =>
    let q := (roundInt mode n m e).1
    ((roundRat fp32 .rne false n q 1 0 0).1, 0)

/-- SCALEB: a × 2^n rounded once (R219). Beyond ±2048 the exponent no longer changes the rounding. -/
def fScale (f : FFmt) (mode : Rnd) (x : Nat) (n : Int) : Nat × Flags :=
  match f.val x with
  | .nan s => (f.qnan, if s then fNV else 0)
  | .inf _ => (x, 0)
  | .fin s m e => if m = 0 then (x, 0) else roundRat f mode false s m 1 (e + max (-2048) (min 2048 n)) 0

/-! ### Special functions (R211)

Each takes the exact value, or a rational closer to it than any rounding boundary can be: enclosures at 256 fraction
bits (notes/assumptions/15). -/

/-- An enclosure of a value, in units of 2^-256. -/
structure Iv where
  lo : Int
  hi : Int
deriving DecidableEq, Repr

def ivOne : Nat := 2 ^ 256
def ivMul (a b : Iv) : Iv := ⟨a.lo * b.lo / ivOne, a.hi * b.hi / ivOne + 1⟩
def ivDivN (a : Iv) (n : Nat) : Iv := ⟨a.lo / n, a.hi / n + 1⟩
def ivAdd (a b : Iv) : Iv := ⟨a.lo + b.lo, a.hi + b.hi⟩
def ivSub (a b : Iv) : Iv := ⟨a.lo - b.hi, a.hi - b.lo⟩
/-- n / d of non-negative rationals. -/
def ivRat (n d : Nat) : Iv := ⟨(n * ivOne / d : Nat), (n * ivOne / d + 1 : Nat)⟩
def ivDiv (a b : Iv) : Iv := ⟨a.lo * ivOne / b.hi, a.hi * ivOne / b.lo + 1⟩

/-- Σ y^i / i! from term i on, y in [0, 20]. -/
def expSum (y : Iv) : Nat → Nat → Iv → Iv → Iv
  | 0, _, t, acc => ⟨acc.lo, acc.hi + t.hi + 1⟩
  | k + 1, i, t, acc =>
    let t' := ivDivN (ivMul t y) (i + 1)
    expSum y k (i + 1) t' (ivAdd acc t')
def ivExp (y : Iv) : Iv := expSum y 160 0 ⟨ivOne, ivOne⟩ ⟨ivOne, ivOne⟩

/-- Σ z^(2i+1) / (2i+1), z in [0, 1/3]. -/
def atanhSum (z2 : Iv) : Nat → Nat → Iv → Iv → Iv
  | 0, _, t, acc => ⟨acc.lo, acc.hi + t.hi + 1⟩
  | k + 1, i, t, acc =>
    let t' := ivMul t z2
    atanhSum z2 k (i + 1) t' (ivAdd acc (ivDivN t' (2 * i + 3)))
def ivAtanh (z : Iv) : Iv := atanhSum (ivMul z z) 90 0 z z
def ivLn2 : Iv := let a := ivAtanh (ivRat 1 3); ivAdd a a

/-- Alternating Σ (-1)^i t_i where t_(i+1) = t_i × r2 / ((2i+s) (2i+s+1)); s = 2 for sine, 1 for cosine. -/
def altSum (r2 : Iv) (s : Nat) : Nat → Nat → Iv → Iv → Iv
  | 0, _, t, acc => ⟨acc.lo - t.hi - 1, acc.hi + t.hi + 1⟩
  | k + 1, i, t, acc =>
    let t' := ivDivN (ivMul t r2) ((2 * i + s) * (2 * i + s + 1))
    altSum r2 s k (i + 1) t' (if i % 2 = 0 then ivSub acc t' else ivAdd acc t')
def ivSin (r : Iv) : Iv := altSum (ivMul r r) 2 48 0 r r
def ivCos (r : Iv) : Iv := altSum (ivMul r r) 1 48 0 ⟨ivOne, ivOne⟩ ⟨ivOne, ivOne⟩

/-- floor(π × 2^640). -/
def piScaled : Nat :=
  0x3243f6a8885a308d313198a2e03707344a4093822299f31d0082efa98ec4e6c89452821e638d01377be5466cf34e90c6cc0ac29b7c97c50dd3f84d5b5b54709179216d5d98979fb1bd1310ba698dfb5ac

/-- |x| = m × 2^e modulo π/2: the quadrant and an enclosure of the remainder. -/
def reduceAngle (m : Nat) (e : Int) : Nat × Iv :=
  let x := 2 * m * pow2 (e + 640)
  let k := x / (piScaled + 1)
  (k, ⟨((x - k * (piScaled + 1)) / 2 ^ 385 : Nat), ((x - k * piScaled) / 2 ^ 385 + 1 : Nat)⟩)

/-- Rounds the middle of an enclosure. -/
def roundIv (mode : Rnd) (neg : Bool) (v : Iv) : Nat × Flags :=
  roundRat fp32 mode false neg (v.lo + v.hi).toNat 1 (-257) 0

/-- A value within 2^-40 of x, relatively, on the side asked for: it rounds as the exact one does. -/
def nudge (neg : Bool) (m : Nat) (e : Int) (up : Bool) : Nat × Flags :=
  roundRat fp32 .rne false neg (if up then m * 2 ^ 40 + 1 else m * 2 ^ 40 - 1) 1 (e - 40) 0

/-- Integer square root by bits, from bit k down. -/
def isqrtGo (n : Nat) : Nat → Nat → Nat
  | 0, r => r
  | k + 1, r =>
    let r' := r + 2 ^ k
    isqrtGo n k (if r' * r' ≤ n then r' else r)
def isqrt (n : Nat) : Nat := isqrtGo n (n.log2 / 2 + 1) 0

/-- √(m × 2^e) for m > 0 as a rational with one sticky half: (numerator, exponent). -/
def sqrtParts (m : Nat) (e : Int) : Nat × Int :=
  let (m, e) := if e % 2 = 0 then (m, e) else (2 * m, e - 1)
  let s := isqrt (m * 2 ^ 128)
  if s * s = m * 2 ^ 128 then (2 * s, e / 2 - 65) else (2 * s + 1, e / 2 - 65)

def fNaN32 : Nat := 0x7FC00000
def fInf32 (neg : Bool) : Nat := signBit fp32 neg + 0x7F800000
def fOne32 : Nat := 0x3F800000

def frcpEval (mode : Rnd) (x : Nat) : Nat × Flags :=
  match fp32.val x with
  | .nan s => (fNaN32, if s then fNV else 0)
  | .inf n => (signBit fp32 n, 0)
  | .fin n m e => if m = 0 then (fInf32 n, fDZ) else roundRat fp32 mode false n 1 m (-e) 0

def fsqrtEval (mode : Rnd) (x : Nat) : Nat × Flags :=
  match fp32.val x with
  | .nan s => (fNaN32, if s then fNV else 0)
  | .inf n => if n then (fNaN32, fNV) else (x, 0)
  | .fin n m e =>
    if m = 0 then (x, 0)
    else if n then (fNaN32, fNV)
    else
      let (q, k) := sqrtParts m e
      roundRat fp32 mode false false q 1 k 0

def frsqEval (x : Nat) : Nat × Flags :=
  match fp32.val x with
  | .nan s => (fNaN32, if s then fNV else 0)
  | .inf n => if n then (fNaN32, fNV) else (0, 0)
  | .fin n m e =>
    if m = 0 then (fInf32 n, fDZ)
    else if n then (fNaN32, fNV)
    else
      let (q, k) := sqrtParts m e
      roundRat fp32 .rne false false 1 q (-k) 0

/-- m × 2^e split at the binary point: floor and the fraction in units of 2^-256. -/
def splitInt (m : Nat) (e : Int) : Nat × Nat :=
  let x := m * pow2 (e + 256)
  (x / ivOne, x % ivOne)

def fexp2Eval (x : Nat) : Nat × Flags :=
  match fp32.val x with
  | .nan s => (fNaN32, if s then fNV else 0)
  | .inf n => (if n then 0 else fInf32 false, 0)
  | .fin n m e =>
    if m = 0 then (fOne32, 0)
    else if e + m.log2 < -26 then nudge false 1 0 (!n)
    else
      let (k, f) := splitInt m e
      -- 2^-x for a negative x: -(k + f) = -(k + 1) + (1 - f)
      let (k', f') : Int × Nat := if n then (if f = 0 then (-(k : Int), 0) else (-(k : Int) - 1, ivOne - f)) else ((k : Int), f)
      let k' := max (-400) (min 400 k')
      if f' = 0 then roundRat fp32 .rne false false 1 1 k' 0
      else
        let v := ivExp (ivMul ⟨f', f'⟩ ivLn2)
        roundRat fp32 .rne false false (v.lo + v.hi).toNat 1 (k' - 257) 0

def flog2Eval (x : Nat) : Nat × Flags :=
  match fp32.val x with
  | .nan s => (fNaN32, if s then fNV else 0)
  | .inf n => if n then (fNaN32, fNV) else (x, 0)
  | .fin n m e =>
    if m = 0 then (fInf32 true, fDZ)
    else if n then (fNaN32, fNV)
    else
      -- x = (m / 2^l) × 2^(e + l), the ratio taken into [3/4, 3/2)
      let l := m.log2
      let big := decide (3 * 2 ^ l ≤ 2 * m)
      let d := if big then 2 ^ (l + 1) else 2 ^ l
      let ex : Int := e + l + if big then 1 else 0
      if m = d then roundRat fp32 .rne false (decide (ex < 0)) ex.natAbs 1 0 0
      else
        let below := decide (m < d)
        let z := if below then ivRat (d - m) (d + m) else ivRat (m - d) (m + d)
        let a := ivAtanh z
        let g := ivDiv (ivAdd a a) ivLn2
        let v : Iv := if below then ivSub ⟨ex * ivOne, ex * ivOne⟩ g else ivAdd ⟨ex * ivOne, ex * ivOne⟩ g
        let t := v.lo + v.hi
        roundRat fp32 .rne false (decide (t < 0)) t.natAbs 1 (-257) 0

/-- Sine (false) or cosine (true). -/
def ftrigEval (cosine : Bool) (x : Nat) : Nat × Flags :=
  match fp32.val x with
  | .nan s => (fNaN32, if s then fNV else 0)
  | .inf _ => (fNaN32, fNV)
  | .fin n m e =>
    if m = 0 then (if cosine then fOne32 else x, 0)
    else if e + m.log2 < -14 then (if cosine then nudge false 1 0 false else nudge n m e false)
    else
      let (k, r) := reduceAngle m e
      let quad := k % 4
      let useCos := decide (quad % 2 = if cosine then 0 else 1)
      let v := if useCos then ivCos r else ivSin r
      let flip := if cosine then decide (quad = 1) || decide (quad = 2) else decide (2 ≤ quad)
      roundIv .rne ((if cosine then false else n) != flip) v

def ftanhEval (x : Nat) : Nat × Flags :=
  match fp32.val x with
  | .nan s => (fNaN32, if s then fNV else 0)
  | .inf n => (signBit fp32 n + fOne32, 0)
  | .fin n m e =>
    if m = 0 then (x, 0)
    else if e + m.log2 < -14 then nudge n m e false
    else if 3 < e + m.log2 then nudge n 1 0 false
    else
      let (k, f) := splitInt (2 * m) e
      let y : Int := k * ivOne + f
      let v := ivExp ⟨y, y⟩
      let one : Iv := ⟨ivOne, ivOne⟩
      roundIv .rne n (ivDiv (ivSub v one) (ivAdd v one))

/-! ### The FP4 block format (R27, R29, R220, R221) -/

/-- The value of an E3M5 code as m × 2^e (R27). -/
def e3m5 (c : Nat) : Nat × Int :=
  let e := c / 32
  let m := c % 32
  if e = 0 then (m, -7) else (32 + m, (e : Int) - 8)

/-- m × 2^e ≤ m' × 2^e'. -/
def dyLe (m : Nat) (e : Int) (m' : Nat) (e' : Int) : Bool :=
  let lo := min e e'
  decide (m * pow2 (e - lo) ≤ m' * pow2 (e' - lo))

/-- The greatest magnitude of values that are not NaN: none for an infinity, else m × 2^e. -/
def maxMag (l : List FV) : Option (Nat × Int) :=
  l.foldl (fun acc v =>
    match acc, v with
    | none, _ => none
    | some _, .inf _ => none
    | some a, .nan _ => some a
    | some a, .fin _ m e => if dyLe m e a.1 a.2 then some a else some (m, e)) (some (0, 0))

/-- PACKF4 of one lane: element word, block scale, flags (R220). `rnd` gives the stochastic bits of an element. -/
def packF4 (mode : Rnd) (xs : List Nat) (band : Nat) (rnd : Nat → Nat) : Nat × Nat × Flags :=
  let vs := xs.map fp32.val
  let word := fun (el : List Nat) => leNat4 el
  match bf16.val band with
  | .fin bneg bm be =>
    if bm = 0 then (0, 0, fNV)
    else
      let mag := maxMag vs
      if mag.map Prod.fst = some 0 then
        (word (vs.map fun v => if v.isZero && v.neg? then 8 else 0), 0, if vs.any FV.isNan then fNV else 0)
      else
        let fits := fun (s : Nat) =>
          match mag with
          | none => false
          | some (m, e) => dyLe m e (6 * (e3m5 s).1 * bm) ((e3m5 s).2 + be)
        let s := ((List.range 255).find? fits).getD 0xFE
        let (sm, se) := e3m5 s
        let els := (List.range 8).map fun j =>
          match vs.getD j (.nan false) with
          | .nan _ => ((0, fNV) : Nat × Flags)
          | .inf n => (signBit e2m1 (n != bneg) + 7, fOF ||| fNX ||| fSAT)
          | .fin n m e => roundRat e2m1 mode true (n != bneg) m (sm * bm) (e - se - be) (rnd j)
        (word (els.map Prod.fst), s, (els.map Prod.snd).foldl (· ||| ·) 0)
  | _ => (0, 0, fNV)
where
  /-- Elements of four bits, element 0 lowest. -/
  leNat4 : List Nat → Nat
    | [] => 0
    | e :: r => e + 16 * leNat4 r

/-- A decoded FP4 element: none where its scales poison it (R29). -/
def f4Value (code scale band : Nat) : Option FV :=
  match e2m1.val code, bf16.val band with
  | .fin n m e, .fin n' m' e' =>
    if scale = 0xFF then none
    else some (.fin (n != n') (m * (e3m5 scale).1 * m') (e + (e3m5 scale).2 + e'))
  | _, _ => none

end Sys2Proof.Machine
end

