-- ==== Sys2Proof/Config.lean ====
section
/-! DEFINITION. What an implementation fixes or the spec leaves open: free values, opaque to every proof. Each is
applied to the step counter of State where the spec leaves a fresh choice (notes/assumptions/5). -/

namespace Sys2Proof.Config

/-- The core's cycle count that MOVSR CYCLE and record stamps read (R157). -/
opaque cycle : Nat → Nat → DWord
/-- Whether a read copy is still held when a load looks for it (eviction, R225). -/
opaque copyKept : Nat → Nat → Bool
/-- Whether a cached translation is used rather than a new walk (R342). -/
opaque tlbKept : Nat → Nat → Bool
/-- Whether a copy of instruction bytes is used rather than a new fetch (R421). -/
opaque icopyKept : Nat → Nat → Bool
/-- The home slice of a line of package memory (R422). -/
opaque homeSlice : Nat → Nat
/-- A byte of a copy's destination where source and destination overlap (R243). -/
opaque overlapByte : Nat → Nat → Byte
/-- Which of the rows that write one destination granule of a copy comes last (R243). -/
opaque copyRow : Nat → Nat → Nat
/-- How many packets of a port's replay buffer the far end has acknowledged (R368). -/
opaque acked : Nat → Nat → Nat
/-- A register lane that an understated LIVE excluded from a save (R47): value and poison. -/
opaque excludedLane : Nat → Nat → Nat → Word × Bool
/-- Which of the 16 entries of a C group that disagrees is used (R340). -/
opaque groupEntry : Nat → Nat
/-- Where the PC table's hash puts a key (R401): AQI, CSEQ, PC, reason. -/
opaque pcHash : Nat → Nat → Nat → Nat → Nat
/-- AES-256-GCM decryption (R88): key, stream ID, counter, ciphertext; a byte of the plaintext. -/
opaque gcmPlain : BitVec 256 → Word → DWord → List Byte → Nat → Byte
/-- The tag that AES-256-GCM computes over a ciphertext (R88). -/
opaque gcmTag : BitVec 256 → Word → DWord → List Byte → Vector Byte 16
/-- SHAKE256 (R407, R408): the message, and how many bytes of output. -/
opaque shake256 : List Byte → Nat → List Byte
/-- Paipra's Ed448 public key, which the boot ROM holds (R407). -/
opaque publicKey : List Byte
/-- Whether a signature over a digest verifies under a public key (R407). -/
opaque ed448Verify : List Byte → List Byte → List Byte → Bool
/-- The SRAM PUF response that the helper data reconstruct, or none (R408). -/
opaque pufResponse : List Byte → List Byte → Option (List Byte)
/-- The Ed448 key that a seed gives (R408). -/
opaque ed448Key : List Byte → List Byte
/-- The Ed448 signature of a key over a message (R409). -/
opaque ed448Sign : List Byte → List Byte → List Byte
/-- The image, the blob and the PUF response of the machine after reset (R407, R408). -/
opaque resetImage : List Byte
opaque resetBlob : List Byte
opaque resetResponse : List Byte
/-- A die's power, computed from the regulators' last readings (voltage, current, temperature) and the computation's own
adjustment (R403). -/
opaque diePower : Nat → List (Nat × Nat × Nat × Nat) → List Nat → Nat
/-- The die that a regulator serves (R394, R405). -/
opaque regulatorDie : Nat → Nat
/-- A regulator's trip limits on current and temperature where firmware has set none (R405). -/
opaque tripLimit : Nat → Nat × Nat
/-- A word that raced with a write to an operand buffer: true when the new value is read (R230, R331). -/
opaque raceNew : Nat → Nat → Bool
/-- Whether the last eight transfers of a line's ownership lie within 1,024 cycles (R273). -/
opaque passedFast : Nat → Nat → Bool
/-- Whether the package is a CZH9-M, which has the flash tier (R1). -/
opaque flashTier : Bool
/-- Which line a full L1 gives up (R225). -/
opaque l1Victim : Nat → Nat → Nat
/-- Which entry a full directory gives up (R354). -/
opaque dirVictim : Nat → Nat
/-- Which owned line a die's snoop filter recalls to make room (R354). -/
opaque snoopVictim : Nat → Nat → Nat
/-- Whether a cached table pointer is used rather than a walk from the root (R342). -/
opaque walkKept : Nat → Nat → Bool
/-- The home agent of a line of package memory (R12, R16). -/
opaque homeAgent : Nat → Nat
/-- Which of the ports that lead to a package the sender's load favours (R370). -/
opaque pathPick : Nat → Nat → Nat
/-- Whether the load is such that two instructions that may share a slot do (R15). -/
opaque paired : Nat → Bool
/-- Where the package's own format keeps an object's entry of the bind table (R260). -/
opaque bindEntry : Nat → Nat
/-- The implemented bits of a register the spec does not lay out (R5). -/
opaque regMask : Nat → DWord
/-- A word the spec does not state, at a step and a place (notes/assumptions/23). -/
opaque freeWord : Nat → Nat → Word

end Sys2Proof.Config
end

