-- ==== Sys2Proof/Machine/Map.lean ====
section
/-! DEFINITION. Sparse stores: lists of pairs with strictly rising keys. Every operation keeps that form, and
reads what was written whether or not a store has it. -/

namespace Sys2Proof.Machine

/-- The value at a key. -/
def sget? {β : Type} : SMap β → Nat → Option β
  | [], _ => none
  | (k, v) :: r, a => if k = a then some v else sget? r a

/-- Sets the value at a key. -/
def sset {β : Type} : SMap β → Nat → β → SMap β
  | [], a, x => [(a, x)]
  | (k, v) :: r, a, x => if a < k then (a, x) :: (k, v) :: r else if a = k then (a, x) :: r else (k, v) :: sset r a x

/-- Removes a key. -/
def sdel {β : Type} : SMap β → Nat → SMap β
  | [], _ => []
  | (k, v) :: r, a => if k = a then sdel r a else (k, v) :: sdel r a

/-- The value at a key, or what an unlisted key reads as. -/
def sgetD {β : Type} (m : SMap β) (a : Nat) (d : β) : β := (sget? m a).getD d

/-- Sets the value at a key and keeps no entry equal to what an unlisted key reads as. -/
def sput {β : Type} [DecidableEq β] (m : SMap β) (a : Nat) (x d : β) : SMap β := if x = d then sdel m a else sset m a x

/-- Applies a change to the value at a key, if there is one. -/
def supd {β : Type} (m : SMap β) (a : Nat) (f : β → β) : SMap β :=
  match sget? m a with
  | none => m
  | some x => sset m a (f x)

/-- Keys strictly rising. -/
def sortedKeys {β : Type} : SMap β → Bool
  | [] => true
  | [_] => true
  | (a, _) :: (b, y) :: r => decide (a < b) && sortedKeys ((b, y) :: r)

/-- No entry equals what an unlisted key reads as. -/
def noDefault {β : Type} [DecidableEq β] (d : β) (m : SMap β) : Bool := m.all fun e => decide (e.2 ≠ d)

end Sys2Proof.Machine
end

