-- ==== Sys2Proof/Machine/State.lean ====
section
/-! DEFINITION. The state of one Z9 package: every object the spec gives it, as plain data, and its value after
reset. INVENTORY.md lists each field with the rule that names it. -/

namespace Sys2Proof.Machine

/-! ### Memory -/

/-- Cause of a poison mark: R88 marks lines with TAG_FAIL, every other cause is plain (R235 step 5). -/
inductive Mark where
  | plain | tagFail
deriving DecidableEq, Repr

/-- A memory: bytes (an unlisted byte reads 0) and poison marks per 4-byte word, keyed by address / 4 (R236). -/
structure Mem where
  bytes : SMap Byte
  marks : SMap Mark
deriving DecidableEq, Repr

/-- The 128 bytes of a line and the poison of its 32 words. -/
structure LineImg where
  data : List Byte
  psn : List (Option Mark)
deriving DecidableEq, Repr

/-! ### Registers and threads (09) -/

/-- One lane of a vector register: value and poison bit (R69). -/
structure Lane where
  v : Word
  p : Bool
deriving DecidableEq, Repr

/-- A g register: value and poison bit (R69). -/
structure GReg where
  v : DWord
  p : Bool
deriving DecidableEq, Repr

/-- A k register: mask and the poison of each bit (R195). -/
structure KReg where
  m : LaneMask
  p : LaneMask
deriving DecidableEq, Repr

/-- A convergence register: declared and signed sets (R145). -/
structure CReg where
  d : LaneMask
  s : LaneMask
deriving DecidableEq, Repr

/-- A place in code: a PC and the header of its block. -/
structure Place where
  pc : DWord
  hdr : DWord
deriving DecidableEq, Repr

/-- How a thread waits at a barrier (R290, R294): to present the instruction at `pc` again; in the BARWT at `pc`, under a limit
or not, which it leaves by continuing at `next` with its status in gD; or in BARSYNC, which it leaves by continuing at its PC
after the acquire; `at_` is the BARSYNC itself, for Broken. -/
inductive BarPark where
  | again (pc : Nat)
  | wait (pc : Nat) (next : Place) (d : Nat) (lim : Bool)
  | sync (at_ : Place)
deriving DecidableEq, Repr

/-- Thread states, R134. -/
inductive ThSt where
  | active
  | spm (group line : Nat)
  | page (pages : List Nat)
  | bar (gang : Bool) (n : Nat) (how : BarPark)
  | conv (c : Nat)
  | waiting (wait : Nat)
  | finished
deriving DecidableEq, Repr

/-- A thread: its place, state, return stack (the hardware entries, top first), depth and restart place. -/
structure Thread where
  at_ : Place
  st : ThSt
  stack : List DWord
  depth : Nat
  restart : Place
deriving DecidableEq, Repr

/-- Control state of one thread recorded at a commit (R147). -/
structure ThRec where
  st : ThSt
  stack : List DWord
  depth : Nat
deriving DecidableEq, Repr

/-- The control record of a warp (R147). -/
structure CtlRec where
  th : Lanes ThRec
  c : Vector CReg 8
  part : BitVec 6
deriving DecidableEq, Repr

/-- The current bundle (R136): members, the place of the next unit, and LEN and LP of the block's header. -/
structure Bundle where
  mask : LaneMask
  at_ : Place
  len : Nat
  lp : Bool
deriving DecidableEq, Repr

/-- A line of the span buffer (R162): key, physical line (GSCR: line of the gang window), byte mask and data, per word what the commit
does to the poison mark (R236): none leaves it, some b sets it to b; and the IPA that its translation went through (R343). -/
structure SpanLine where
  sp : Space
  addr : Nat
  pa : Nat
  grp : Nat
  data : SMap Byte
  psn : SMap Bool
  ipa : Nat
deriving DecidableEq, Repr

/-- One word or part of a word that a load delivers: lane, register, physical address or offset, virtual address, width,
bytes forwarded from the span buffer and the poison they force. -/
structure LoadItem where
  lane : Nat
  reg : Nat
  addr : Nat
  va : Nat
  n : Nat
  fwd : List (Option Byte)
  fwdP : Option Bool
deriving DecidableEq, Repr

/-- What a load in flight reads: a space (with the group it belongs to), CB for MXRD with the operations it waits for
(R315), or a copy's status word for CPPOLL. -/
inductive LoadKind where
  | mem (sp : Space) (grp : Nat) (noalloc : Bool) (signed : Bool)
  | cb (after : List Nat)
  | poll (id : Nat) (d : Nat)
deriving DecidableEq, Repr

/-- A load between issue and write-back (R140, R235). -/
structure Load where
  id : Nat
  kind : LoadKind
  regs : List Nat
  zero : LaneMask
  items : List LoadItem
deriving DecidableEq, Repr

/-- A special function between issue and write-back (R210). -/
structure Sfu where
  reg : Nat
  mask : LaneMask
  val : Lanes Lane
  flags : BitVec 6
  /-- The commits of its warp when it issued. -/
  commit : Nat
deriving DecidableEq, Repr

/-- An ATOM or CAS between issue and write-back (R277): the words returned so far; `left` lanes are still queued at a
hot line or at the primary. -/
structure AtomWb where
  id : Nat
  regs : List Nat
  lanes : LaneMask
  zero : LaneMask
  res : List (Nat × Nat × Lane)
  left : Nat
deriving DecidableEq, Repr

/-- What a twin still expects from its primary (R172), by commit number. -/
inductive Mail where
  | g (v : DWord)
  | atom (res : List (Nat × Nat × Lane))
deriving DecidableEq, Repr

/-- Events held for frozen threads while a warp is in handler mode (R384). -/
inductive Held where
  | bar (gang : Bool) (n : Nat) (broken : Bool)
  | wait (id : Nat) (status value : DWord) (psn : Bool) (d : Nat) (scope : Option Nat)
deriving DecidableEq, Repr

/-- Handler mode (R383-R386): where the handler stands, its restart place, the shadow of g56-g63, and the record as
hardware wrote it. -/
structure Handler where
  at_ : Place
  restart : Place
  shadow : List GReg
  forms : BitVec 3
  code : Nat
  pc : Place
  next : DWord
  /-- g63 is a header, not an instruction of the same block. -/
  fall : Bool
  lanes : LaneMask
  held : List Held
deriving DecidableEq, Repr

/-- Progress of a redundant commit (R171): waiting with a signature, or matched. -/
inductive Meet where
  | none
  | waiting (sig : DWord)
  | matched (sig : DWord)
  | failed (other : DWord)
deriving DecidableEq, Repr

/-- A page whose request was refused to the lanes of a bundle, or to the handler's (R344, R384). -/
structure PageFail where
  page : Nat
  lanes : LaneMask
  handler : Bool
deriving DecidableEq, Repr

/-- A warp (09, 10, 22). Vector and g registers not listed read zero; registers not listed as empty are full. -/
structure Warp where
  th : Lanes Thread
  bundle : Option Bundle
  v : SMap (Lanes Lane)
  vEmpty : SMap Unit
  g : SMap GReg
  gEmpty : SMap Unit
  x : Vector (BitVec 11) 8
  k : Vector KReg 16
  c : Vector CReg 8
  part : BitVec 6
  fstat : BitVec 6
  srseed : DWord
  amax : Vector Word 4
  amaxnan : BitVec 4
  cstk : DWord
  span : List SpanLine
  formed : Nat
  ctl : CtlRec
  pipeErr : Bool
  pipeFault : LaneMask
  redErr : Bool
  sig : DWord
  commits : Nat
  /-- MXRDs since the latest commit (R337). -/
  mxrds : Nat
  meet : Meet
  handler : Option Handler
  loads : List Load
  sfus : List Sfu
  atoms : List AtomWb
  mail : SMap Mail
  /-- The limits of BARWTs being waited at (R294), by the BARWT's PC: false while it counts, true once passed. -/
  barLimit : SMap Bool
  /-- Threads that were parked on a gang barrier when it broke, by barrier (R291). -/
  broken : SMap LaneMask
  /-- Remote lines the presented instruction has sent requests for (R359). -/
  asked : List Nat
  /-- Lines whose request by the presented instruction timed out (R359). -/
  txnLost : List Nat
  /-- Pages whose request was answered Invalid Request or Response Failure, with who asked (R344). -/
  pageFail : List PageFail
  /-- Page requests that a handler waits for (R384). -/
  asks : List Nat
  /-- Slots of its quadrant that go to other ready warps first (YIELD, R154). -/
  yield : Nat
  /-- Slots of its quadrant in a row in which it was ready and did not issue (R139). -/
  age : Nat
  quadrant : Nat
  /-- Issued slots since the last commit (R398). -/
  slots : Nat
  /-- The instruction it issued last has committed: no discard takes its slot back (R398). -/
  ended : Bool
  /-- The unit presented last: a commit step already begun goes on with it, whatever is in memory by then (R166). -/
  unit : Option Instr
  /-- The presented instruction has committed and waits for its release action, which belongs to the same step (R166). -/
  releasing : Bool
  /-- The presented CCTL.WAYSET waits, and holds new L2W accesses of its context in its sector (R248). -/
  sealing : Bool
  /-- The physical address of the object of a presented REL that has committed (R265). -/
  relPa : Nat
  /-- The packet that a presented LAUNCH has read (R117). -/
  launch : BitVec 512
deriving DecidableEq, Repr

/-! ### Groups, gangs, kernels (07, 08, 16, 18) -/

inductive BarState where
  | free | armed | collecting | released | broken
deriving DecidableEq, Repr

/-- A barrier (R290): marks and arrivals are keyed by warp (32 × group index + warp for a gang barrier). -/
structure Bar where
  st : BarState
  gen : Bool
  e : Nat
  a : Nat
  marks : SMap LaneMask
  arrived : List Nat
deriving DecidableEq, Repr

/-- An extent (R124-R126): the warp whose span allocated it, the warp whose span marked it, and, once a commit has
passed the mark, the engine operations its return waits for. -/
structure Extent where
  sp : Space
  base : Nat
  size : Nat
  newBy : Option Nat
  markBy : Option Nat
  ret : Option (List Nat)
deriving DecidableEq, Repr

/-- An absent scratchpad line (R228): the copies that made it absent, and its failed mark. -/
structure Absent where
  copies : List Nat
  failed : Bool
deriving DecidableEq, Repr

/-- The recorded operands of an MXW (R331): WB offset, descriptor bytes, check mode. -/
structure MxwRec where
  off : Nat
  desc : List Byte
  chk : BitVec 2
deriving DecidableEq, Repr

/-- A pending engine fault (R334): MX_CHECK or MX_RESET, CB offset, low PC bits; in a twin, the warp, commit, MXRDs since
it, and PC at which the primary took it (R337). -/
structure EngFault where
  reset : Bool
  addr : Nat
  pc : Word
  after : Option (Nat × Nat × Nat × DWord)
deriving DecidableEq, Repr

inductive GroupSt where
  | resident | discarding | saved | restoring | retired | aborted
deriving DecidableEq, Repr

/-- A group (08). -/
structure Group where
  kernel : Nat
  gang : Nat
  idx : Nat
  core : Nat
  /-- The other copy of a redundant group, and whether this one is the twin (R169). -/
  other : Option Nat
  isTwin : Bool
  st : GroupSt
  /-- Its resources other than the scratchpad are released (R132). -/
  freed : Bool
  warps : List Warp
  scr : Mem
  wb : Mem
  ab : Mem
  cb : Mem
  absent : SMap Absent
  extents : List Extent
  ids : SMap DWord
  bars : Vector Bar 16
  chk : BitVec 2
  lastMxw : Option MxwRec
  /-- Engine faults not taken yet (R334): one, or in a twin those that its primary has taken before it, oldest first (R337). -/
  pending : List EngFault
  revoked : Bool
  /-- It held the lease when it was saved (R128, R130). -/
  hadLease : Bool
  /-- An MXW issued, or a replay ran, since the latest grant or loss (R323). -/
  weights : Bool
  slot : Option Nat
  fcode : Nat
  /-- Waits of a saved group that have ended (R309): status delivered at restore. -/
  wakes : List Held
deriving DecidableEq, Repr

inductive GangSt where
  | resident | discarding | saved | restoring | done
deriving DecidableEq, Repr

/-- A gang (08): its groups in index order (the twins apart), the gang barriers of its sector and of the twins' sector
(16, R169), and the L2W tie of R233. -/
structure Gang where
  kernel : Nat
  idx : Nat
  sector : Nat
  st : GangSt
  groups : List Nat
  twins : List Nat
  gb : Vector Bar 4
  gbTwin : Vector Bar 4
  l2w : Bool
deriving DecidableEq, Repr

/-- The kernel descriptor's snapshot (R106). -/
structure Desc where
  entry : DWord
  handler : DWord
  groups : Nat
  warps : Nat
  allot : Nat
  scr : Nat
  wb : Nat
  ab : Nat
  cb : Nat
  redundant : Bool
  quantum : Nat
  brken : Bool
  stopl : Bool
  trace : Bool
  sample : Bool
deriving DecidableEq, Repr

inductive KernelSt where
  | posted | pending | ready | dispatching | running | retiring | complete | aborted
deriving DecidableEq, Repr

/-- Kernel status codes, R114. -/
inductive KStatus where
  | ok | fault | depAborted | xlate | descriptor | nofit | quiesced | contextError | revoked | peerLost
deriving DecidableEq, Repr

/-- A kernel or SIGNAL packet (07). -/
structure Kernel where
  ctx : Nat
  aqi : Nat
  subq : Nat
  cls : Nat
  seq : Word
  signal : Bool
  irq : Bool
  ord : Bool
  /-- The packet before it in its sub-queue (R97). -/
  prev : Option Nat
  descVA : DWord
  arg : DWord
  gangs : Nat
  inc : Word
  sigVA : DWord
  deps : List (DWord × Word)
  st : KernelSt
  err : KStatus
  fcode : Nat
  desc : Option Desc
  depsLeft : Nat
  /-- Dependences that found no room for their entry (R311). -/
  retry : List Nat
  /-- Its page requests that are not answered yet, and the pages whose request was refused (R107, R344). -/
  pend : List Nat
  pageFail : List Nat
  nextGang : Nat
  stopped : Bool
  /-- Completion actions still to run (R115). -/
  closing : Bool
  noMore : Bool
deriving DecidableEq, Repr

/-! ### Contexts and queue interfaces (05, 06) -/

inductive CtxSt where
  | free | created | bound | runnable | running | swapped | quiescing | faulted | destroyed
deriving DecidableEq, Repr

/-- A key slot (R88); `full` is false for an empty slot. -/
structure KeySlot where
  full : Bool
  key : BitVec 256
  stream : Word
  last : DWord
deriving DecidableEq, Repr

/-- A write that waits at the hub die for its turn (R83, R95): a command, with whether it came over the IDE stream, or a notify
write. -/
inductive HubWrite where
  | cmd (c : BitVec 512) (onIde : Bool)
  | notify (adr link : Nat) (pasid : Option (BitVec 20)) (onIde : Bool) (size : Nat) (data : BitVec 512)
deriving DecidableEq, Repr

/-- A context (R81). -/
structure Ctx where
  st : CtxSt
  conf : Bool
  fabric : Bool
  s1 : DWord
  s2 : DWord
  save : DWord
  spill : DWord
  wake : DWord
  bind : DWord
  sample : DWord
  tdi : TdiState
  keys : Vector KeySlot 8
  binds : SMap (List (Nat × Nat))
  wakes : List Nat
  written : Nat
  dropped : Nat
  allot : List Nat
  /-- An INVAL that is not done yet and the writes behind it, oldest first (R83, R95). -/
  cmds : List HubWrite
deriving DecidableEq, Repr

inductive AqiSt where
  | unassigned | assigned | enabled | draining | revoked
deriving DecidableEq, Repr

/-- A queue interface with its status block (R94, R104). -/
structure Aqi where
  st : AqiSt
  ctx : Nat
  pasid : BitVec 20
  limit : Nat
  link : Nat
  count : Nat
  reason : Nat
  slot : Nat
  pv : Bool
  refPasid : BitVec 20
  refSeq : Word
  accepted : DWord
deriving DecidableEq, Repr

/-- An interrupt remap entry (R102). -/
structure Remap where
  addr : BitVec 62
  data : Word
  v : Bool
  mask : Bool
  pend : Bool
deriving DecidableEq, Repr

/-! ### Coherence and memory system (13-15, 19, 20) -/

/-- A write-through on its way from a core's L1 to the coherent level (R250). -/
structure WriteThrough where
  id : Nat
  core : Nat
  wid : WarpId
  kernel : Nat
  line : Nat
  data : SMap Byte
  psn : SMap Bool
deriving DecidableEq, Repr

/-- A cached translation (R342). -/
structure TlbEntry where
  /-- The core, or the sector in a sector's TLB. -/
  core : Nat
  ctx : Nat
  va : Nat
  size : Nat
  pa : Nat
  perm : BitVec 3
  /-- The IPA it went through, for INVAL with S2. -/
  ipa : Nat
deriving DecidableEq, Repr

/-- An entry of a sector's walk cache (R342): the table below a stage-1 pointer, the addresses it serves, and its level. -/
structure WalkEntry where
  sector : Nat
  ctx : Nat
  va : Nat
  size : Nat
  level : Nat
  table : Nat
deriving DecidableEq, Repr

/-- A read copy (R225): its bytes, the lines (context × 2^50 + VA / 128) it was loaded through, and the bound ranges
(context, base, length) acquired since, through which it serves no load (R254). -/
structure RCopy where
  img : LineImg
  tags : List Nat
  barred : List (Nat × Nat × Nat)
deriving DecidableEq, Repr

/-- What a core's L1 and fetch hold: read copies keyed by 2 × line + (1 for CONST), and copies of instruction parcels
keyed by context × 2^57 + VA (R225, R421). -/
structure Core where
  copies : SMap RCopy
  code : SMap (Parcel × Bool)
deriving DecidableEq, Repr

/-- Directory states, R355; P lines are kept apart. -/
inductive DirSt where
  | s | e | o | m
deriving DecidableEq, Repr

structure DirEntry where
  st : DirSt
  vec : BitVec 32
  owner : Nat
deriving DecidableEq, Repr

/-- An atomic on one lane, queued or performed (R275, R277). -/
structure AtomReq where
  wid : WarpId
  id : Nat
  lane : Nat
  fn : Option AtomFn
  ty : Ty
  addr : Nat
  o : DWord
  o2 : DWord
  po : Bool
deriving DecidableEq, Repr

/-- A home range (R4, R16, R351): 0-80 package, 81 host, 82 host over CXL.cache. -/
structure HomeRange where
  base : Nat
  size : Nat
  home : Nat
deriving DecidableEq, Repr

/-- Tier page states, R345 (Resident unlisted; Poisoned is Resident with lines in P). -/
inductive TierSt where
  | cold | filling | evicting
deriving DecidableEq, Repr

/-- The L2W window of a context in a sector (R231, R232, R248). -/
structure L2w where
  cache : BitVec 16
  scratch : BitVec 16
  posted : Option (BitVec 16 × BitVec 16)
  mem : Mem
deriving DecidableEq, Repr

/-- An asynchronous copy (R243). `todo` holds the destination lines not yet written; `err` the status it ends with. -/
structure Copy where
  id : Nat
  wid : WarpId
  ctx : Nat
  core : Nat
  cid : Nat
  dsp : Space
  ssp : Space
  dst : Nat
  src : Nat
  bytes : Nat
  rows : Nat
  dstride : DWord
  sstride : DWord
  gcm : Option (BitVec 256 × Word × DWord)
  verified : Bool
  todo : List Nat
  err : Option DWord
  after : List Nat
  /-- Its page requests that are not answered yet, and the pages whose request was refused (R344). -/
  pend : List Nat
  pageFail : List Nat
  /-- Plaintext held until it is written, with the poison of each byte (R88). -/
  plain : List (Byte × Bool)
deriving DecidableEq, Repr

/-- A PUT being sent (R380): its name in the fabric, virtual line, physical line and snapshot of each line still to land, and the counter's
addresses. -/
structure Put where
  id : Nat
  name : Nat
  wid : WarpId
  cid : Nat
  dest : Nat
  lines : List (Nat × Nat × LineImg)
  src : Nat
  ssp : Space
  ctr : Option (Nat × Nat)
  inc : Word
  bytes : Nat
  /-- The generation under which it is sent (R373). -/
  gen : Word
deriving DecidableEq, Repr

/-- An admission request of a presented PUT (R379). -/
structure Admit where
  wid : WarpId
  dest : Nat
  reply : Option Admission
deriving DecidableEq, Repr

/-- Lease states, R316. -/
inductive LeaseSt where
  | idle | granted | expiring | revoked | reset
deriving DecidableEq, Repr

inductive MxKind where
  | w (r : MxwRec)
  | a (arow astride afmt m cdst : Nat)
  | wr (items : List (Nat × Lane))
  | z (cdst m : Nat)
deriving DecidableEq, Repr

/-- A matrix operation in flight (R315): the commit that issued it, counted by its warp (R172), and its WB or AB as it
stood then (R331). -/
structure MxOp where
  id : Nat
  wid : WarpId
  pc : DWord
  commit : Nat
  old : Mem
  kind : MxKind
deriving DecidableEq, Repr

/-- A latched tile (R320): a snapshot of WB at the latch. -/
structure Tile where
  r : MxwRec
  wb : Mem
deriving DecidableEq, Repr

/-- What happened to the holder while the engine stood in Reset, or awaits the end of its operations (R316). -/
inductive LeaseEnd where
  | free | discard | gone
deriving DecidableEq, Repr

/-- A core's matrix engine (R314-R316). -/
structure Engine where
  st : LeaseSt
  holder : Option Nat
  qleft : Nat
  queue : List Nat
  ops : List MxOp
  tile : Option Tile
  ending : Option LeaseEnd
deriving DecidableEq, Repr

/-- A tree shape (R284). -/
structure Shape where
  left : List Byte
  right : List Byte
  leaves : BitVec 16
deriving DecidableEq, Repr

/-- A contribution to a tree (R283). -/
structure Contrib where
  id : Nat
  wid : WarpId
  d : Nat
  ctx : Nat
  sector : Nat
  leaf : Nat
  shape : Nat
  tag : Nat
  ty : Ty
  result : Nat
  status : Nat
  counter : Nat
  timeout : Nat
  x : Lanes Word
  core : Nat
  /-- The commit that sent it, counted by its warp (R172). -/
  commit : Nat
deriving DecidableEq, Repr

/-- An open instance (R286), or one that closes with a status of R287 and waits for the pages of its targets. -/
structure Tree where
  shape : Shape
  got : List Contrib
  /-- A closing write's transaction timed out (R288). -/
  lost : Bool
  closing : Option Nat
  /-- Its page requests that are not answered yet, and the pages whose request was refused (R344). -/
  pend : List Nat
  pageFail : List Nat
deriving DecidableEq, Repr

/-! ### The Belfry (17) -/

/-- One lane's condition: lane, address, operand, the value at the first evaluation for CHANGED, latched. -/
structure WaitLane where
  lane : Nat
  addr : Nat
  o : DWord
  ref : Option DWord
  latched : Bool
deriving DecidableEq, Repr

/-- An entry (R297, R298): its line, whether exact, and the slice, or none once spilled. -/
structure Entry where
  line : Nat
  exact : Bool
  slice : Option Nat
deriving DecidableEq, Repr

/-- Who waits: a bundle of a warp, or a kernel's dependence (R311). -/
inductive Waiter where
  | bundle (w : WarpId) (lanes : LaneMask) (d : Nat)
  | dep (kernel idx : Nat)
deriving DecidableEq, Repr

structure Wait where
  ctx : Nat
  who : Waiter
  sp : Space
  cc : WaitCc
  ty : Ty
  any : Bool
  acq : Option Nat
  lanes : List WaitLane
  entries : List Entry
deriving DecidableEq, Repr

/-! ### Space, links, package (20-24) -/

inductive CellSt where
  | forming | member | suspect | recovering | fenced | rejoining
deriving DecidableEq, Repr

/-- The view of another cell (R353); `reset` the packages reset since its declaration (R364). -/
structure Cell where
  st : CellSt
  members : List Nat
  reset : List Nat
deriving DecidableEq, Repr

inductive LinkSt where
  | down | training | up | degraded | retraining | failed
deriving DecidableEq, Repr

/-- A port (R365-R368): spares used per fibre (0-5 transmit, 6-11 receive), lasers lost, failures in a row of one flit,
and the packets its replay buffer holds. -/
structure Port where
  st : LinkSt
  mc : Nat
  blackout : Bool
  spares : SMap Nat
  lasers : Nat
  fibres : BitVec 12
  maps : List (BitVec 25)
  rate : Nat
  peer : Nat
  peerPort : Nat
  drops : Nat
  replays : Nat
  sent : List PacketHdr
deriving DecidableEq, Repr

/-- A topology slot (R372). -/
structure TopoSlot where
  name : List Byte
  valid : Bool
  ports : List (BitVec 32)
  routes : List (BitVec 32)
deriving DecidableEq, Repr

inductive RoundPhase where
  | gather | drain | switch | retrain | commit
deriving DecidableEq, Repr

/-- A reconfiguration round (R374). -/
structure Round where
  slot : Nat
  gen : Word
  joins : List Nat
  warps : List WarpId
  phase : RoundPhase
  /-- What has a lower name was issued before the commit point: the drain waits for it (R374). -/
  mark : Nat
deriving DecidableEq, Repr

/-- A Lantern record (R394). -/
structure LanternRec where
  stamp : DWord
  kind : Nat
  sev : Nat
  unit : Nat
  ctx : Nat
  aqi : Nat
  cseq : Word
  engine : Nat
  code : Nat
  payload : List Nat
deriving DecidableEq, Repr

/-- The Lantern (R393). -/
structure Lantern where
  widx : Nat
  frozen : Option Nat
  recs : SMap LanternRec
  resets : Nat
deriving DecidableEq, Repr

/-- Why a packet's request is refused. -/
inductive Refused where
  | firewall | txnTimeout | unknown
deriving DecidableEq, Repr

/-- What the package sent to the outside. -/
inductive Msg where
  | msix (link : Nat) (addr : DWord) (data : Word)
  | vector0 (link : Nat)
  | pageRequest (link : Nat) (pasid : BitVec 20) (va : Nat) (access : BitVec 3)
  | refrec (aqi : Nat) (v : DWord)
  | connector (conn : Connector) (idx reading : Nat)
  | spdm (link : Nat) (log : List Byte) (nonce : BitVec 256) (sig : List Byte)
  | cxlRead (data : List Byte)
  /-- A packet leaves through a port (R369, R370). -/
  | packet (port : Nat) (h : PacketHdr)
  /-- A packet's request is refused (R348, R359). -/
  | answer (src seq : Nat) (why : Refused)
  /-- What an admission request of a package is answered (R379). -/
  | admission (dst put : Nat) (reply : Admission)
  /-- Data that answer a packet's read or atomic, with the poison of their words (R271, R357). -/
  | reply (dst seq : Nat) (data : List Byte) (psn : BitVec 32)
  /-- This end's summary (R367). -/
  | summary (port : Nat) (own : LinkSummary)
  /-- The circuit setting of a port, for the external switch controller (R372). -/
  | circuit (port : Nat) (setting : BitVec 16)
  /-- What a host read returns (R92, R96, R104). -/
  | hostRead (link : Nat) (v : DWord)
  /-- A join of a round, or its withdrawal, to the coordinator (R374, R376). -/
  | round (coordinator slot : Nat) (gen : Word) (joins : Bool)
  /-- A firewall update of a page is complete (R348). -/
  | firewallDone (page : Nat)
  /-- What firmware reads of a core's unsampled slots (R399). -/
  | unsampled (core count : Nat)
  /-- What firmware reads of a slot of the Lantern (R393). -/
  | lantern (slot : Nat) (data : List Byte)
  /-- A tier operation is refused with status "tier absent" (R2). -/
  | tierAbsent (tier : Nat)
  | refused (what : Nat)
deriving DecidableEq, Repr

inductive Form where
  | p | m
deriving DecidableEq, Repr

inductive Stopped where
  | running | trip | lost | noPower | imageFail
deriving DecidableEq, Repr

/-- One entry of a core's PC table (R401). -/
structure PcEntry where
  kernel : Nat
  aqi : Nat
  seq : Word
  pc : DWord
  reason : Nat
  count : Nat
deriving DecidableEq, Repr

/-- A page request that is not answered yet (R344): the sector that sent it (12 the hub die), the AQI whose PASID it
carries, the page and the access. -/
structure PageReq where
  id : Nat
  ctx : Nat
  aqi : Nat
  sector : Nat
  page : Nat
  need : BitVec 3
deriving DecidableEq, Repr

/-- A move the environment chose: an event, or the issue of a warp. -/
inductive Move where
  | event (i : Instr)
  | issue (w : WarpId)
deriving DecidableEq, Repr

/-- An Issued slot that carried two warps' instructions (R15, R398): the warp it is charged to, and the warps whose
instruction of it is neither committed nor discarded. -/
structure SharedSlot where
  own : WarpId
  live : List WarpId
deriving DecidableEq, Repr

/-- The package. -/
structure State where
  -- the model's own fields (notes/assumptions 2, 4, 5)
  tick : Nat
  serial : Nat
  agenda : List Move
  due : List Instr
  turn : Bool
  cur : Option WarpId
  /-- The slot found its warp blocked, at a PC with a leaf of R397: another warp may have it (R139). -/
  blocked : Option (WarpId × DWord × Nat)
  /-- Issue slots so far: the quadrants take theirs in turn. -/
  slotTurn : Nat
  /-- Slots that carried instructions of two warps and that may still be discarded (R398). -/
  pairs : List SharedSlot
  /-- The instruction now presented rides in the slot of the one before it (R15). -/
  shares : Bool
  /-- The slot of the instruction now presented has been counted (R397). -/
  paid : Bool
  -- package and firmware (01, 24)
  pkg : Nat
  cell : Nat
  /-- Firmware has assigned PKG and CELL since power came (R12). -/
  numbered : Bool
  form : Form
  bringUp : Nat
  stopped : Stopped
  imageVersion : Word
  minVersion : Word
  /-- The Ed448 identity key, where the PUF response was reconstructed (R408). -/
  identity : Option (List Byte)
  /-- SHAKE256 digests of the image and the configuration blob that were loaded (R407, R409). -/
  imageDigest : List Byte
  blobDigest : List Byte
  caps : Vector Nat 4
  boiling : Vector Nat 4
  power : Vector Nat 4
  throttled : Vector Bool 4
  trips : SMap (Nat × Nat)
  lastReport : SMap (Nat × Nat × Nat)
  /-- Warning and fault thresholds, by connector and by reading (R406). -/
  thresholds : SMap (SMap (Nat × Nat))
  readings : SMap (List Nat)
  scrub : Nat
  softErrors : SMap Nat
  regs : SMap DWord
  msgs : List Msg
  lantern : Lantern
  -- contexts and hub (05, 06)
  ctx : SMap Ctx
  aqi : SMap Aqi
  remap : SMap Remap
  grants : List Nat
  /-- The packet last accepted in each sub-queue: 16 to an AQI (R97). -/
  lastPacket : SMap Nat
  -- kernels, gangs, groups (07, 08)
  kernels : SMap Kernel
  gangs : SMap Gang
  groups : SMap Group
  /-- The starving gangs that reserve their sectors (R112): kernel and gang index. -/
  reserve : List (Nat × Nat)
  -- memory system (13-15, 19, 20)
  mem : Mem
  pline : List Nat
  dir : SMap DirEntry
  homes : List HomeRange
  cores : SMap Core
  owned : SMap Nat
  /-- Cores' requests for lines that are being recalled from other packages: core and line (R354). -/
  ownAsks : List (Nat × Nat)
  /-- CXL.cache lines whose ownership the host has granted: held in E or M (R417). -/
  granted : List Nat
  /-- CXL.cache lines that the package holds in S (R312, R418). -/
  hostShared : List Nat
  wts : List WriteThrough
  hot : SMap (List AtomReq)
  transfers : SMap Nat
  /-- The owner that last took a line: a core, or a package or cell by a number above (R273). -/
  lastOwner : SMap Nat
  migrated : SMap Nat
  tlb : List TlbEntry
  sectorTlb : List TlbEntry
  walks : List WalkEntry
  tier : SMap TierSt
  firewall : SMap DWord
  l2w : SMap L2w
  pageReqs : List PageReq
  -- engines (13, 15, 18, 21)
  copies : List Copy
  puts : List Put
  admits : SMap Admit
  engines : SMap Engine
  shapes : SMap Shape
  contribs : List Contrib
  trees : SMap Tree
  lastTag : SMap Nat
  -- the Belfry (17)
  waits : SMap Wait
  -- space and links (20, 21)
  cells : SMap Cell
  ports : Vector Port 16
  slots : Vector TopoSlot 8
  active : Option TopoSlot
  tgen : Word
  round : Option Round
  /-- Next sequence number of each source package, and packets that came early (R371). -/
  seqs : SMap Nat
  early : List PacketHdr
  /-- Next sequence number to each package (R371). -/
  outSeq : SMap Nat
  /-- Requests of other packages that wait for a recall from a Suspect cell (R359, R361). -/
  asks : List PacketHdr
  /-- Lines whose recall from other packages is out (R354). -/
  recalls : List Nat
  /-- Firewall updates that are not complete: a page, and the cells that lost a grant (R348). -/
  fwOpen : List (Nat × BitVec 32)
  /-- Packets that no port can carry now (R370). -/
  stuck : List PacketHdr
  /-- Data packets landed of each source's PUT (R371, R380). -/
  landed : SMap Nat
  /-- Lines homed in other packages that this package holds in E or M, oldest first: of the own cell, and of other cells those
  that its PUTs have written (R356). -/
  putLines : List Nat
  /-- Admitted PUTs of other packages whose status is not final: source and name (R379). -/
  admitted : List (Nat × Nat)
  -- observation (23)
  leaves : SMap Nat
  pcs : SMap PcEntry
  unsampled : SMap Nat
deriving DecidableEq, Repr

/-- Why a step stops as a fault. -/
inductive Fault where
  /-- Raised by `exec` of a coded instruction when no warp has a bundle to issue it: no step of the part is described
  there. Safe: the machine stops. -/
  | noIssuingWarp
deriving DecidableEq, Repr

/-- Why a step is refused. -/
inductive Refusal where
  /-- Raised by `exec` for an instruction that has no meaning yet. Safe: the machine stops. -/
  | notModelled (mnemonic : String)
deriving DecidableEq, Repr

/-! ### Values after reset -/

def Mem.empty : Mem := ⟨[], []⟩
def Place.zero : Place := ⟨0, 0⟩
def Core.empty : Core := ⟨[], []⟩
def KeySlot.empty : KeySlot := ⟨false, 0, 0, 0⟩
def Bar.reset : Bar := ⟨.free, false, 0, 0, [], []⟩
def Engine.idle : Engine := ⟨.idle, none, 0, [], [], none, none⟩
def L2w.none : L2w := ⟨0, 0, Option.none, Mem.empty⟩
def Port.reset : Port := ⟨.down, 0, false, [], 0, 0xFFF, List.replicate 12 0xFFFFFF, 64, 0xFF, 0, 0, 0, []⟩
def TopoSlot.reset : TopoSlot := ⟨[], false, [], []⟩
def Lantern.empty : Lantern := ⟨0, none, [], 1⟩

/-- A remap entry resets with MASK = 1 (R102). -/
def Remap.reset : Remap := ⟨0, 0, false, true, false⟩

/-- An Unassigned AQI (R94, R104). -/
def Aqi.reset : Aqi := ⟨.unassigned, 0, 0, 0, 0, 0, 0, 0, false, 0, 0, 0⟩

/-- A Free context (R84). -/
def Ctx.free : Ctx :=
  { st := .free, conf := false, fabric := false, s1 := 0, s2 := 0, save := 0, spill := 0, wake := 0, bind := 0,
    sample := 0, tdi := .configUnlocked, keys := Vector.replicate 8 KeySlot.empty, binds := [], wakes := [],
    written := 0, dropped := 0, allot := [], cmds := [] }

/-- The digest that R407 takes of an image or a blob. -/
def digest (l : List Byte) : List Byte := Config.shake256 l 64

/-- The identity key: derived from the PUF response through SHAKE256 (R408; the seed's 57 bytes: notes/assumptions/92). -/
def identityKey (response : List Byte) : List Byte := Config.ed448Key (Config.shake256 response 57)

/-- The machine right after reset: steps 1 to 5 of bring-up are done, and firmware has not formed the space (R410; the values the spec does not give: notes/assumptions/19). -/
def State.reset : State :=
  { tick := 0, serial := 0, agenda := [], due := [], turn := false, cur := none, blocked := none, slotTurn := 0, pairs := [], shares := false, paid := false,
    pkg := 0, cell := 0, numbered := false, form := if Config.flashTier then .m else .p, bringUp := 5, stopped := .running, imageVersion := 0, minVersion := 0,
    identity := some (identityKey Config.resetResponse), imageDigest := digest Config.resetImage, blobDigest := digest Config.resetBlob,
    caps := Vector.replicate 4 780, boiling := Vector.replicate 4 780,
    power := Vector.replicate 4 0, throttled := Vector.replicate 4 false, trips := [], lastReport := [],
    thresholds := [], readings := [], scrub := 0, softErrors := [], regs := [], msgs := [], lantern := Lantern.empty,
    ctx := [], aqi := [], remap := [], grants := [], lastPacket := [], kernels := [], gangs := [], groups := [], reserve := [],
    mem := Mem.empty, pline := [], dir := [], homes := [], cores := [], owned := [], ownAsks := [], granted := [], hostShared := [], wts := [], hot := [],
    transfers := [], lastOwner := [], migrated := [], tlb := [], sectorTlb := [], walks := [], tier := [], firewall := [], l2w := [], pageReqs := [],
    copies := [], puts := [], admits := [], engines := [], shapes := [], contribs := [], trees := [], lastTag := [],
    waits := [], cells := [(0, ⟨.member, [0], []⟩)], ports := Vector.replicate 16 Port.reset, slots := Vector.replicate 8 TopoSlot.reset,
    active := none, tgen := 1, round := none, seqs := [], early := [],
    outSeq := [], asks := [], recalls := [], fwOpen := [], stuck := [], landed := [], putLines := [], admitted := [], leaves := [], pcs := [], unsampled := [] }

end Sys2Proof.Machine
end

