-- ==== Sys2Proof/Machine/Mem.lean ====
section
/-! DEFINITION. Lanes, masks, bytes and the memories of the state: reads and writes of one memory, little-endian
values (R4), poison marks (R236). -/

namespace Sys2Proof.Machine

/-! ### Lanes and masks -/

def allLanes : LaneMask := 0xFFFFFFFF#32
def bitMask (L : Nat) : LaneMask := BitVec.ofNat 32 (2 ^ L)
def inMask (m : LaneMask) (L : Nat) : Bool := m.getLsbD L
/-- The lanes of a mask, ascending. -/
def lanesOf (m : LaneMask) : List Nat := (List.range 32).filter (inMask m)
/-- The mask of the lanes that satisfy a test. -/
def maskOf (p : Nat → Bool) : LaneMask := (List.range 32).foldl (fun m L => if p L then m ||| bitMask L else m) 0
/-- The mask of a list of lanes. -/
def maskOfList (l : List Nat) : LaneMask := l.foldl (fun m L => m ||| bitMask L) 0
/-- A value per lane. -/
def mkLanes {α : Type} (f : Nat → α) : Lanes α := Vector.ofFn fun i => f i.val
def laneOf {α : Type} [Inhabited α] (v : Lanes α) (L : Nat) : α := v.toList.getD L default
/-- Changes the value of the lanes of a mask. -/
def mapLanes {α : Type} (v : Lanes α) (m : LaneMask) (f : Nat → α → α) : Lanes α :=
  Vector.ofFn fun i => if inMask m i.val then f i.val v[i] else v[i]

def sext (x : BitVec w) (n : Nat) : BitVec n := x.signExtend n
def zext (x : BitVec w) (n : Nat) : BitVec n := x.setWidth n
/-- Bits lo+len-1 .. lo of a number. -/
def fld (x lo len : Nat) : Nat := x / 2 ^ lo % 2 ^ len

/-! ### One memory -/

/-- The byte at an address; a byte nothing has written reads 0 (notes/assumptions/6). -/
def Mem.byte (m : Mem) (a : Nat) : Byte := sgetD m.bytes a 0
def Mem.mark (m : Mem) (w : Nat) : Option Mark := sget? m.marks w
def Mem.setByte (m : Mem) (a : Nat) (b : Byte) : Mem := { m with bytes := sput m.bytes a b 0 }
def Mem.setMark (m : Mem) (w : Nat) (k : Option Mark) : Mem :=
  match k with
  | none => { m with marks := sdel m.marks w }
  | some k => { m with marks := sset m.marks w k }

/-- The canonical form of a memory: addresses strictly rising, no byte 0 listed. -/
def Mem.wf (m : Mem) : Bool := sortedKeys m.bytes && noDefault 0 m.bytes && sortedKeys m.marks

/-- n bytes from a, lowest first. -/
def Mem.bytesAt (m : Mem) (a : Nat) : Nat → List Byte
  | 0 => []
  | n + 1 => m.byte a :: m.bytesAt (a + 1) n

/-- Little-endian value of a list of bytes (R4). -/
def leNat : List Byte → Nat
  | [] => 0
  | b :: r => b.toNat + 256 * leNat r

/-- The n low bytes of a number, lowest first (R4). -/
def leBytes (x : Nat) : Nat → List Byte
  | 0 => []
  | n + 1 => BitVec.ofNat 8 x :: leBytes (x / 256) n

def Mem.nat (m : Mem) (a n : Nat) : Nat := leNat (m.bytesAt a n)

/-- Writes bytes from a upwards. -/
def Mem.setBytes (m : Mem) (a : Nat) : List Byte → Mem
  | [] => m
  | b :: r => (m.setByte a b).setBytes (a + 1) r

/-- Writes bytes listed with their addresses. -/
def Mem.setCells (m : Mem) : List (Nat × Byte) → Mem
  | [] => m
  | (a, b) :: r => (m.setByte a b).setCells r

/-- Sets or clears poison marks of words (R236): true poisons (plain), false clears. -/
def Mem.setPsn (m : Mem) : List (Nat × Bool) → Mem
  | [] => m
  | (w, p) :: r => (m.setMark w (if p then some .plain else none)).setPsn r

/-- What a write of n bytes at a with poison p does to the marks of its words (R236): a word wholly written takes p, a
word partly written is marked when p is set. -/
def psnEffect (a n : Nat) (p : Bool) : List (Nat × Bool) :=
  ((List.range ((a % 4 + n + 3) / 4)).map fun i =>
    let w := a / 4 + i
    let full := decide (a ≤ 4 * w ∧ 4 * w + 4 ≤ a + n)
    if full then [(w, p)] else if p then [(w, true)] else []).flatten

/-- A write of bytes with one poison bit (R236). -/
def Mem.write (m : Mem) (a : Nat) (d : List Byte) (p : Bool) : Mem :=
  (m.setBytes a d).setPsn (psnEffect a d.length p)

/-- Clears n bytes from a and their marks. -/
def Mem.clear (m : Mem) (a n : Nat) : Mem :=
  { bytes := m.bytes.filter (fun e => !(decide (a ≤ e.1) && decide (e.1 < a + n))),
    marks := m.marks.filter (fun e => !(decide (a ≤ 4 * e.1) && decide (4 * e.1 < a + n))) }

/-- Poison of the words that n bytes at a touch. -/
def Mem.anyMark (m : Mem) (a n : Nat) : Bool :=
  (List.range ((a % 4 + n + 3) / 4)).any fun i => (m.mark (a / 4 + i)).isSome

/-- Line number of an address. -/
def lineOf (a : Nat) : Nat := a / 128

/-! ### Lists -/

/-- Adds an element that is not there yet. -/
def addOnce {α : Type} [DecidableEq α] (x : α) (l : List α) : List α := if x ∈ l then l else l ++ [x]

/-- A list without repeats, first places kept. -/
def distinct {α : Type} [DecidableEq α] (l : List α) : List α := l.foldl (fun acc x => addOnce x acc) []

/-- The element at a position. -/
def nth? {α : Type} (l : List α) (i : Nat) : Option α := l[i]?

/-- Replaces the element at a position. -/
def setNth {α : Type} (l : List α) (i : Nat) (x : α) : List α := l.set i x

def vget {α : Type} {n : Nat} (v : Vector α n) (i : Nat) (d : α) : α := v.toList.getD i d
def vset {α : Type} {n : Nat} (v : Vector α n) (i : Nat) (x : α) : Vector α n := v.setIfInBounds i x

end Sys2Proof.Machine
end

