-- ==== Sys2Proof/Machine/Access.lean ====
section
/-! DEFINITION. Access to the objects of the state: warps, groups, kernels, contexts, registers, records of the
Lantern and messages. -/

namespace Sys2Proof.Machine

/-! ### Objects -/

def State.group? (s : State) (g : Nat) : Option Group := sget? s.groups g
def State.gang? (s : State) (g : Nat) : Option Gang := sget? s.gangs g
def State.kernel? (s : State) (k : Nat) : Option Kernel := sget? s.kernels k
def State.warp? (s : State) (w : WarpId) : Option Warp := (s.group? w.g).bind fun g => nth? g.warps w.w
def State.core (s : State) (c : Nat) : Core := sgetD s.cores c Core.empty
def State.engine (s : State) (c : Nat) : Engine := sgetD s.engines c Engine.idle
def State.ctxOf (s : State) (c : Nat) : Ctx := sgetD s.ctx c Ctx.free
def State.aqiOf (s : State) (n : Nat) : Aqi := sgetD s.aqi n Aqi.reset

def State.setGroup (s : State) (n : Nat) (g : Group) : State := { s with groups := sset s.groups n g }
def State.setGang (s : State) (n : Nat) (g : Gang) : State := { s with gangs := sset s.gangs n g }
def State.setKernel (s : State) (n : Nat) (k : Kernel) : State := { s with kernels := sset s.kernels n k }
def State.setCore (s : State) (c : Nat) (x : Core) : State := { s with cores := sput s.cores c x Core.empty }
def State.setEngine (s : State) (c : Nat) (x : Engine) : State := { s with engines := sput s.engines c x Engine.idle }
def State.setCtx (s : State) (c : Nat) (x : Ctx) : State := { s with ctx := sput s.ctx c x Ctx.free }
def State.setAqi (s : State) (n : Nat) (x : Aqi) : State := { s with aqi := sput s.aqi n x Aqi.reset }

def State.updGroup (s : State) (n : Nat) (f : Group → Group) : State := { s with groups := supd s.groups n f }
def State.updGang (s : State) (n : Nat) (f : Gang → Gang) : State := { s with gangs := supd s.gangs n f }
def State.updKernel (s : State) (n : Nat) (f : Kernel → Kernel) : State := { s with kernels := supd s.kernels n f }

def Group.updWarp (g : Group) (i : Nat) (f : Warp → Warp) : Group :=
  match nth? g.warps i with
  | none => g
  | some w => { g with warps := setNth g.warps i (f w) }

def State.updWarp (s : State) (w : WarpId) (f : Warp → Warp) : State := s.updGroup w.g fun g => g.updWarp w.w f
def State.setWarp (s : State) (w : WarpId) (x : Warp) : State := s.updWarp w fun _ => x

/-- A fresh name for a kernel, gang, group, wait or engine operation. -/
def State.fresh (s : State) : Nat × State := (s.serial, { s with serial := s.serial + 1 })

/-- The sector of a core (R12). -/
def sectorOf (core : Nat) : Nat := core / 16
/-- The die of a sector (R12). -/
def dieOf (sector : Nat) : Nat := sector / 3

def State.coreOf (s : State) (w : WarpId) : Nat :=
  match s.group? w.g with
  | none => 0
  | some g => g.core

def State.kernelOf (s : State) (w : WarpId) : Option Kernel := (s.group? w.g).bind fun g => s.kernel? g.kernel

def State.ctxNo (s : State) (w : WarpId) : Nat :=
  match s.kernelOf w with
  | none => 0
  | some k => k.ctx

def State.descOf (s : State) (w : WarpId) : Option Desc := (s.kernelOf w).bind (·.desc)

/-- The warps of a group, by name. -/
def groupWarps (n : Nat) (g : Group) : List WarpId := (List.range g.warps.length).map fun i => ⟨n, i⟩

/-- Every warp of every group. -/
def State.allWarps (s : State) : List WarpId := (s.groups.map fun e => groupWarps e.1 e.2).flatten

/-! ### Redundant copies (R169, R172) -/

def State.isTwin (s : State) (g : Nat) : Bool := ((s.group? g).map Group.isTwin).getD false

/-- The primary of a group; a group that is not redundant is its own. -/
def State.primaryOf (s : State) (g : Nat) : Nat :=
  match s.group? g with
  | none => g
  | some x => if x.isTwin then x.other.getD g else g

/-- The same warp in the primary. -/
def State.primaryWarp (s : State) (w : WarpId) : WarpId := ⟨s.primaryOf w.g, w.w⟩

/-- The twin of a primary. -/
def State.twinOf (s : State) (g : Nat) : Option Nat := (s.group? g).bind fun x => if x.isTwin then none else x.other

/-- Both copies of a group (R172). -/
def State.bothCopies (s : State) (g : Nat) : List Nat :=
  let p := s.primaryOf g
  match s.twinOf p with
  | none => [p]
  | some t => [p, t]

/-! ### Registers (R56, R57, R69, R140) -/

def Lane.zero : Lane := ⟨0, false⟩
def GReg.zero : GReg := ⟨0, false⟩
def zeroV : Lanes Lane := Vector.replicate 32 Lane.zero

def Warp.vreg (w : Warp) (n : Nat) : Lanes Lane := sgetD w.v n zeroV
def Warp.lane (w : Warp) (n L : Nat) : Lane := (w.vreg n).toList.getD L Lane.zero
def Warp.setV (w : Warp) (n : Nat) (x : Lanes Lane) : Warp := { w with v := sput w.v n x zeroV }
def Warp.setLane (w : Warp) (n L : Nat) (x : Lane) : Warp := w.setV n (vset (w.vreg n) L x)
def Warp.vFull (w : Warp) (n : Nat) : Bool := (sget? w.vEmpty n).isNone
def Warp.emptyV (w : Warp) (n : Nat) : Warp := { w with vEmpty := sset w.vEmpty n () }
def Warp.fillV (w : Warp) (n : Nat) : Warp := { w with vEmpty := sdel w.vEmpty n }

/-- A g register; g0 reads 0 (R69). -/
def Warp.greg (w : Warp) (n : Nat) : GReg := if n = 0 then GReg.zero else sgetD w.g n GReg.zero
/-- Writes a g register; a write to g0 is discarded (R56). -/
def Warp.setG (w : Warp) (n : Nat) (x : GReg) : Warp := if n = 0 then w else { w with g := sput w.g n x GReg.zero }
def Warp.gFull (w : Warp) (n : Nat) : Bool := (sget? w.gEmpty n).isNone
def Warp.emptyG (w : Warp) (n : Nat) : Warp := if n = 0 then w else { w with gEmpty := sset w.gEmpty n () }
def Warp.fillG (w : Warp) (n : Nat) : Warp := { w with gEmpty := sdel w.gEmpty n }

/-- A k register; k0 reads all ones (R48, R69). -/
def Warp.kreg (w : Warp) (n : Nat) : KReg := if n = 0 then ⟨allLanes, 0⟩ else vget w.k n ⟨0, 0⟩
/-- Writes a k register; a write to k0 is discarded (R56). -/
def Warp.setK (w : Warp) (n : Nat) (x : KReg) : Warp := if n = 0 then w else { w with k := vset w.k n x }

def Warp.thread (w : Warp) (L : Nat) : Thread := w.th.toList.getD L ⟨Place.zero, .finished, [], 0, Place.zero⟩

/-- Lanes whose thread satisfies a test. -/
def Warp.lanesWhere (w : Warp) (p : Thread → Bool) : LaneMask := maskOf fun L => p (w.thread L)
def Warp.finished (w : Warp) : LaneMask := w.lanesWhere fun t => decide (t.st = .finished)
def Warp.active (w : Warp) : LaneMask := w.lanesWhere fun t => decide (t.st = .active)
def Warp.retired (w : Warp) : Bool := decide (w.finished = allLanes)
def Warp.updThreads (w : Warp) (m : LaneMask) (f : Nat → Thread → Thread) : Warp := { w with th := mapLanes w.th m f }

/-! ### Messages, Lantern and accounting -/

def State.say (s : State) (m : Msg) : State := { s with msgs := s.msgs ++ [m] }
def State.addDue (s : State) (i : Instr) : State := { s with due := s.due ++ [i] }

/-- Appends a Lantern record (R393): a frozen Lantern drops it, and SEV 2 freezes. -/
def State.lanternAdd (s : State) (r : LanternRec) : State :=
  if s.lantern.frozen.isSome then s
  else
    let n := s.lantern.widx
    { s with lantern := { s.lantern with
        widx := n + 1, recs := sset s.lantern.recs (n % 1023) r,
        frozen := if r.sev = 2 then some n else none } }

/-- Bytes of each field of a record's payload, by its kind (R394; notes/assumptions/83). -/
def payloadSizes : Nat → List Nat
  | 1 => [8, 8, 8, 4, 2, 2]
  | 2 => [8, 8]
  | 3 => [8, 8, 8, 2, 2]
  | 4 => [8, 4]
  | 5 => [1, 1, 1, 1, 1]
  | 6 => [1, 1, 1, 1]
  | 7 => [8, 4]
  | 10 | 11 => [4, 4]
  | _ => [8]

/-- The 64 bytes of record n (R394). -/
def LanternRec.bytes (r : LanternRec) (n : Nat) : List Byte :=
  let b := leBytes n 8 ++ leBytes r.stamp.toNat 8 ++ leBytes r.kind 1 ++ leBytes r.sev 1 ++ leBytes r.unit 2 ++ leBytes r.ctx 2 ++
    leBytes r.aqi 2 ++ leBytes r.cseq.toNat 4 ++ leBytes r.engine 1 ++ leBytes r.code 1 ++ leBytes 0 2 ++
    ((payloadSizes r.kind).zip r.payload).flatMap fun e => leBytes e.2 e.1
  b ++ leBytes 0 (64 - b.length)

/-- A slot of the Lantern: the control block in slot 0, then the last 1,023 records (R393). -/
def Lantern.slot (l : Lantern) (k : Nat) : List Byte :=
  match k with
  | 0 => leBytes l.widx 8 ++ leBytes ((l.frozen.map fun n => 2 ^ 63 + n).getD 0) 8 ++ leBytes l.resets 8 ++ leBytes 0 40
  | j + 1 =>
    match sget? l.recs j with
    | none => leBytes 0 64
    -- the last record number below WIDX that lies in the slot
    | some r => r.bytes ((l.widx - 1 - j) / 1023 * 1023 + j)

/-- Kinds and severities of R394. -/
def State.lanternHub (s : State) (kind sev : Nat) (payload : List Nat) : State :=
  s.lanternAdd { stamp := Config.cycle s.tick 0, kind, sev, unit := 0x4000, ctx := 0xFFFF, aqi := 0xFFFF, cseq := 0,
                 engine := 0xFF, code := 0, payload }

/-- A record that names a warp's command task (R394). -/
def State.lanternWarp (s : State) (w : WarpId) (kind engine code : Nat) (payload : List Nat) : State :=
  let k := s.kernelOf w
  s.lanternAdd { stamp := Config.cycle s.tick (s.coreOf w), kind, sev := 1, unit := s.coreOf w,
                 ctx := (k.map (·.ctx)).getD 0xFFFF, aqi := (k.map (·.aqi)).getD 0xFFFF, cseq := (k.map (·.seq)).getD 0,
                 engine, code, payload }

/-- Sends the interrupt of a remap entry (R103): dropped when invalid, held when masked; an entry that is both drops it
(notes/assumptions/69). -/
def State.interrupt (s : State) (entry link : Nat) : State :=
  let e := sgetD s.remap entry Remap.reset
  if !e.v then s
  else if e.mask then { s with remap := sput s.remap entry { e with pend := true } Remap.reset }
  else s.say (.msix link (e.addr ++ 0#2) e.data)

/-- The link that carries a context's AQIs (R90); link 0 where it has none, the lowest AQI's where they differ
(notes/assumptions/70). -/
def State.linkOfCtx (s : State) (c : Nat) : Nat :=
  match s.aqi.find? fun e => decide (e.2.st ≠ .unassigned) && decide (e.2.ctx = c) with
  | none => 0
  | some e => e.2.link

/-- The fault interrupt of a context (R103, R92). -/
def State.faultInterrupt (s : State) (c : Nat) : State := s.interrupt (1024 + c) (s.linkOfCtx c)

end Sys2Proof.Machine
end

