-- ==== Sys2Proof/Machine/Route.lean ====
section
/-! DEFINITION. Ports and routes: link states and their records (21_link R366), the paths of the active topology (R369, R370),
packets that leave, the replay buffer (R368), and what a path's loss or return means for the views of other cells (20_cell
R353). -/

namespace Sys2Proof.Machine

/-! ### Ports -/

def LinkSt.num : LinkSt → Nat
  | .down => 0
  | .training => 1
  | .up => 2
  | .degraded => 3
  | .retraining => 4
  | .failed => 5

def LinkSt.recorded : LinkSt → Bool
  | .up | .degraded | .failed => true
  | _ => false

/-- A link in the routing tables (R366, R370). -/
def LinkSt.carries : LinkSt → Bool
  | .up | .degraded => true
  | _ => false

def State.port (s : State) (n : Nat) : Port := vget s.ports n Port.reset
def State.setPort (s : State) (n : Nat) (p : Port) : State := { s with ports := vset s.ports n p }

/-! ### Paths (R369, R370) -/

/-- The direct port of a route entry (R372). -/
def routeDirect (r : BitVec 32) : Option Nat := if r.getLsbD 20 then some (fld r.toNat 16 4) else none

/-- The ports of a route entry, the direct one first. -/
def routePorts (r : BitVec 32) : List Nat := (routeDirect r).toList ++ (List.range 16).filter fun i => r.getLsbD i

def State.routeWord (s : State) (dst : Nat) : BitVec 32 := ((s.active.map TopoSlot.routes).getD []).getD dst 0

/-- The ports that lead to a package now: those of its route whose links are Up or Degraded. A port whose link leaves these
states is out of every route from that step on (notes/assumptions/76). -/
def State.paths (s : State) (dst : Nat) : List Nat := (routePorts (s.routeWord dst)).filter fun n => (s.port n).st.carries

/-- During a blackout packets go over the other paths, where there are any (R365). -/
def State.openPaths (s : State) (dst : Nat) : List Nat :=
  match (s.paths dst).filter fun n => !(s.port n).blackout with
  | [] => s.paths dst
  | l => l

/-- The path that the sender's load favours (R370). -/
def State.pathTo (s : State) (dst : Nat) : Option Nat :=
  match s.openPaths dst with
  | [] => none
  | [n] => some n
  | n :: l => some ((n :: l).getD (Config.pathPick s.tick dst % (l.length + 1)) n)

/-- Whether some path of the active topology leads to a package (R353, R370); none does before the space is formed. -/
def State.reachable (s : State) (dst : Nat) : Bool := decide (dst = s.pkg) || !(s.paths dst).isEmpty

/-- Whether every package of a cell can be reached (R353). -/
def State.cellReached (s : State) (c : Nat) : Bool := (((sget? s.cells c).map Cell.members).getD []).all s.reachable

/-! ### Packets that leave -/

/-- A packet leaves through a port, whose replay buffer keeps it (R368). -/
def State.sendOn (s : State) (h : PacketHdr) (n : Nat) : State :=
  let p := s.port n
  (s.setPort n { p with sent := p.sent ++ [{ h with port := n }] }).say (.packet n { h with port := n })

/-- A packet leaves on a path to its destination, or waits for one (R370). -/
def State.send (s : State) (h : PacketHdr) : State :=
  match s.pathTo h.dst with
  | none => { s with stuck := s.stuck ++ [h] }
  | some n => s.sendOn h n

/-- A packet of another source goes on through this package's direct port for its destination (R369); while that port carries
nothing or is in a blackout it takes another path, as the package's own packets do (R365, R370). -/
def State.forward (s : State) (h : PacketHdr) : State :=
  match (routeDirect (s.routeWord h.dst)).filter fun n => (s.port n).st.carries && !(s.port n).blackout with
  | some n => s.sendOn h n
  | none => s.send h

/-- A new packet of this package, numbered for its destination; it carries a generation (R371, R373). -/
def State.transmit (s : State) (dst ctx : Nat) (gen : Word) (kind : PacketKind) : State :=
  let q := sgetD s.outSeq dst 0
  ({ s with outSeq := sset s.outSeq dst (q + 1) }).send
    { port := 0, src := s.pkg, dst := dst, seq := q, gen := gen, ctx := ctx, checkOk := true, kind := kind }

/-- What waited for a path looks for one again. -/
def State.resend (s : State) : State :=
  s.stuck.foldl (fun t h => if h.src = t.pkg then t.send h else t.forward h) { s with stuck := [] }

/-- A port has left the routes: what its replay buffer still holds, the packets that the far end has not acknowledged, goes over
other paths (R368, R370). -/
def State.replay (s : State) (n : Nat) : State :=
  let p := s.port n
  (p.sent.drop (Config.acked s.tick n % (p.sent.length + 1))).foldl (fun t h => if h.src = t.pkg then t.send h else t.forward h)
    (s.setPort n { p with sent := [] })

/-- The fabric is empty: no replay buffer holds a packet (R376). -/
def State.clearSent (s : State) : State := { s with ports := s.ports.map fun (p : Port) => { p with sent := [] } }

/-- A line held dirty is written back to its home (R356). -/
def State.writeBack (s : State) (line : Nat) (home : Nat) : State :=
  let psn := (List.range 32).foldl (fun v j => if (s.mem.mark (32 * line + j)).isSome then v ||| BitVec.ofNat 32 (2 ^ j) else v)
    (0 : BitVec 32)
  s.transmit home 0xFFFF s.tgen (.writeBack (128 * line) (s.mem.bytesAt (128 * line) 128) psn)

/-- Admission requests of presented PUTs are withdrawn; a package that may have admitted one is told (R379). -/
def State.withdraw (s : State) (p : WarpId → Bool) : State :=
  (s.admits.filter fun e => p e.2.wid).foldl (fun t e =>
    if e.2.reply = none ∨ e.2.reply = some .admitted then t.transmit e.2.dest (t.ctxNo e.2.wid) t.tgen (.putDone e.1) else t)
    { s with admits := s.admits.filter fun e => !p e.2.wid }

/-! ### What paths mean for the views (R353) -/

/-- A cell that has become unreachable, or reachable again, is looked at by an event of its own. -/
def State.watchCells (s : State) : State :=
  s.cells.foldl (fun t e =>
    if e.1 = t.cell then t
    else
      match e.2.st with
      | .member | .rejoining => if t.cellReached e.1 then t else { t with due := addOnce (.pathLoss e.1) t.due }
      | .suspect => if t.cellReached e.1 then { t with due := addOnce (.pathRestored e.1) t.due } else t
      | _ => t) s

/-- A link's record (R366, R394). -/
def State.linkRecord (s : State) (n : Nat) (p : Port) (onto : LinkSt) : State :=
  s.lanternAdd { stamp := Config.cycle s.tick 0, kind := 5, sev := 0, unit := 0x3000 + n, ctx := 0xFFFF, aqi := 0xFFFF,
                 cseq := 0, engine := 0xFF, code := 0, payload := [n, p.peer, p.peerPort, p.st.num, onto.num] }

/-- A link in training, which exchanges summaries (R366, R367). -/
def LinkSt.trains : LinkSt → Bool
  | .training | .retraining => true
  | _ => false

/-- The summary that an end sends (R367). -/
def Port.own (p : Port) : LinkSummary := ⟨true, true, p.fibres, p.maps, p.rate⟩

/-- A transition of a link: recorded into or out of Up, Degraded and Failed; the port enters or leaves the routes (R366,
R370). -/
def State.linkTo (s : State) (n : Nat) (p : Port) (onto : LinkSt) : State :=
  let t := s.setPort n { p with st := onto }
  let u := if p.st.recorded || onto.recorded then t.linkRecord n p onto else t
  let u := if onto.trains then u.say (.summary n p.own) else u
  if onto.carries && !p.st.carries then u.resend.watchCells
  else if p.st.carries && !onto.carries then (u.replay n).watchCells
  else u

end Sys2Proof.Machine
end

