-- ==== Sys2Proof/Machine/Translate.lean ====
section
/-! DEFINITION. Homes, cells and the firewall; the two-stage walk (19_page R339-R344); what an access to a virtual
address finds (R235 step 3, R345, R357, R360). -/

namespace Sys2Proof.Machine

/-! ### Homes and cells -/

/-- Where a physical address is homed: 0-80 a package, 81 the host, 82 the host over CXL.cache, 83 nowhere. An address in
no range is one of the 1 TiB of this package (R16), and beyond that nowhere: no one answers a request for it
(notes/assumptions/7). -/
def State.homeOf (s : State) (pa : Nat) : Nat :=
  match s.homes.find? fun r => decide (r.base ≤ pa) && decide (pa < r.base + r.size) with
  | none => if pa < 2 ^ 40 then s.pkg else 83
  | some r => r.home

/-- Bytes of the physical space homed in a package (R16): between two neighbouring bounds of the ranges a home does not change. -/
def State.homedBytes (s : State) (p : Nat) : Nat :=
  let cuts := distinct (0 :: 2 ^ 40 :: (s.homes.map fun (r : HomeRange) => [r.base, r.base + r.size]).flatten)
  (cuts.map fun a => if s.homeOf a = p then (cuts.foldl (fun m c => if a < c ∧ c < m then c else m) (2 ^ 52)) - a else 0).sum

/-- Every package homes at most its 1 TiB (R16). -/
def State.homesFit (s : State) : Bool := (List.range 81).all fun p => decide (s.homedBytes p ≤ 2 ^ 40)

def isHost (home : Nat) : Bool := decide (home = 81) || decide (home = 82)

/-- The cell of a package, as this package records it. -/
def State.cellOfPkg (s : State) (p : Nat) : Option Nat :=
  if p = s.pkg then some s.cell else (s.cells.find? fun e => p ∈ e.2.members).map (·.1)

/-- Whether a request to a home may be sent: it flows, it is held (R353, R363), or it ends PEER_LOST (R360). -/
inductive Gate where
  | ok | hold | lost (cell : Nat)
deriving DecidableEq, Repr

/-- Whether a round is past its commit point: new fabric requests are held (R374). -/
def State.roundOn (s : State) : Bool := (s.round.map fun r => decide (r.phase ≠ .gather)).getD false

/-- Whether a round holds the new requests of a warp's instruction: those of an admitted PUT the drain waits for (R374, R379). -/
def State.roundFor (s : State) (w : WarpId) : Bool :=
  s.roundOn && !(s.admits.any fun e => decide (e.2.wid = w) && decide (e.2.reply = some .admitted))

/-- What the views say of a request to a home; a round holds new requests where they are made (R374). -/
def State.gateHome (s : State) (home : Nat) : Gate :=
  if isHost home || decide (home = s.pkg) then .ok
  else
    match s.cellOfPkg home with
    | none => .hold
    | some c =>
      if c = s.cell then (if s.reachable home then .ok else .hold)
      else
        match (sget? s.cells c).map Cell.st with
        | some .member => if s.reachable home then .ok else .hold
        | some .recovering => .lost c
        | some .fenced => .lost c
        | _ => .hold

/-- Whether a cell is lost to this package. -/
def State.cellLost (s : State) (c : Nat) : Bool :=
  match (sget? s.cells c).map Cell.st with
  | some .recovering => true
  | some .fenced => true
  | _ => false

/-- The other packages that a recall or invalidation of an entry goes to: every package of each cell that it names (R354). -/
def State.holders (s : State) (e : DirEntry) : List Nat :=
  (((List.range 32).filter fun c => (e.vec.getLsbD c || (decide (e.st ≠ .s) && decide (c = e.owner))) && !s.cellLost c).map fun c =>
    (((sget? s.cells c).map Cell.members).getD []).filter fun p => decide (p ≠ s.pkg)).flatten

/-- A line that another package holds in E, O or M: what needs it waits until a recall has brought its data home, which a
Suspect cell does not answer (R354, R356, R361, R363). -/
def State.recallWaits (s : State) (line : Nat) : Bool :=
  match sget? s.dir line with
  | none => false
  | some e => decide (e.st ≠ .s) && !(s.holders e).isEmpty

/-- The recall of a line goes to every package that may hold it, once (R354). -/
def State.askRecall (s : State) (line : Nat) : State :=
  match sget? s.dir line with
  | none => s
  | some e =>
    if !s.recallWaits line || s.recalls.contains line then s
    else
      let t := (s.holders e).foldl (fun t p => t.transmit p 0xFFFF t.tgen (.invalidate (128 * line) [] 0)) s
      { t with recalls := t.recalls ++ [line] }

/-- A directory entry goes, and with it the recall of its line. -/
def State.dirDel (s : State) (line : Nat) : State := { s with dir := sdel s.dir line, recalls := s.recalls.filter (· ≠ line) }

def State.gate (s : State) (pa : Nat) : Gate := if s.recallWaits (lineOf pa) then .hold else s.gateHome (s.homeOf pa)

/-- A line of the host that the package reaches over CXL.cache (R312). -/
def State.cxlLine (s : State) (line : Nat) : Bool := decide (s.homeOf (128 * line) = 82)

/-- A CXL.cache line is obtained in E: the host grants its ownership, which stands until a snoop ends it (R417). -/
def State.obtain (s : State) (line : Nat) : State :=
  if s.cxlLine line then { s with granted := addOnce line s.granted, hostShared := s.hostShared.filter (· ≠ line) } else s

/-- A read of a CXL.cache line that is not held obtains a shared copy (R312, R418). -/
def State.shareHost (s : State) (line : Nat) : State :=
  if s.cxlLine line && !decide (line ∈ s.granted) then { s with hostShared := addOnce line s.hostShared } else s

def State.remote (s : State) (pa : Nat) : Bool :=
  let h := s.homeOf pa
  !isHost h && decide (h ≠ s.pkg)

/-- Homed in another cell (R357). -/
def State.otherCell (s : State) (pa : Nat) : Bool :=
  let h := s.homeOf pa
  decide (h ≤ 80) && decide (s.cellOfPkg h ≠ some s.cell)

/-- The firewall entry of a page: WMASK 63:32, RMASK 31:0; at reset the home cell's bit (R347). -/
def State.fwEntry (s : State) (pa : Nat) : DWord :=
  let c := (s.cellOfPkg (s.homeOf pa)).getD 0
  let bit : DWord := BitVec.ofNat 64 (2 ^ c)
  sgetD s.firewall (pa / 0x200000) ((bit <<< 32) ||| bit)

/-- A cell may gain write ownership (R347); the home cell always may. -/
def State.fwWriteBy (s : State) (cell pa : Nat) : Bool :=
  decide (s.cellOfPkg (s.homeOf pa) = some cell) || isHost (s.homeOf pa) || (s.fwEntry pa).getLsbD (32 + cell)
/-- A cell may read (R347). -/
def State.fwReadBy (s : State) (cell pa : Nat) : Bool := s.fwWriteBy cell pa || (s.fwEntry pa).getLsbD cell
def State.fwWrite (s : State) (pa : Nat) : Bool := s.fwWriteBy s.cell pa
def State.fwRead (s : State) (pa : Nat) : Bool := s.fwReadBy s.cell pa

/-! ### The coherent level -/

/-- A line held dirty by a lost cell is P even before the scan reaches it (R360, R362). -/
def State.lostDirty (s : State) (line : Nat) : Bool :=
  match sget? s.dir line with
  | none => false
  | some e => (decide (e.st = .m) || decide (e.st = .o)) && s.cellLost e.owner

/-- The poison mark of a word at the coherent level; every word of a P line is poisoned (R355). -/
def State.cohMark (s : State) (w : Nat) : Option Mark :=
  if w / 32 ∈ s.pline || s.lostDirty (w / 32) then some .plain else s.mem.mark w

/-! ### The walk -/

/-- Result of one stage: a leaf with its base, size and X, W, R bits; an entry that is not valid or not legal, with its
level and whether it is replayable; poison; a table line in a tier page that must be filled (R345), or whose home is lost or
held. -/
inductive Walk where
  | leaf (base size : Nat) (perm : BitVec 3)
  | bad (level : Nat) (replay : Bool) (stage2 : Bool)
  | poison
  | cold (tier : Nat)
  | lost (cell : Nat)
  | hold
deriving DecidableEq, Repr

/-- The tier page of an address is Cold or Filling (R345). -/
def State.isCold (s : State) (pa : Nat) : Bool :=
  match sget? s.tier (pa / 65536) with
  | some .cold => true
  | some .filling => true
  | _ => false

/-- A table entry at the coherent level. -/
def State.entryAt (s : State) (pa : Nat) : Except Walk Nat :=
  match s.gate pa with
  | .hold => .error .hold
  | .lost c => .error (.lost c)
  | .ok =>
    if (s.cohMark (pa / 4)).isSome || (s.cohMark (pa / 4 + 1)).isSome then .error .poison
    else .ok (s.mem.nat pa 8)

/-- Reads a table entry for a walk (R341). -/
def State.readEntry (s : State) (pa : Nat) : Except Walk Nat :=
  if s.isCold pa then .error (.cold (pa / 65536)) else s.entryAt pa

def entryAddr (e : Nat) : Nat := e / 4096 % 2 ^ 40 * 4096
def entryPerm (e : Nat) : BitVec 3 := BitVec.ofNat 3 (e / 4)
def entryV (e : Nat) : Bool := Nat.testBit e 0
def entryT (e : Nat) : Bool := Nat.testBit e 1
def entryC (e : Nat) : Bool := Nat.testBit e 5
def entryPr (e : Nat) : Bool := Nat.testBit e 6

/-- A level 0 leaf with C = 1 (R340). -/
def isGrouped (e : Nat) : Bool := entryV e && !entryT e && entryC e

/-- Whether the 16 entries of a C group agree (R340): C = 1, consecutive ADDR, equal permissions. -/
def groupAgrees (es : List Nat) : Bool :=
  let e0 := es.headD 0
  (List.range 16).all fun i =>
    let e := es.getD i 0
    isGrouped e && decide (entryAddr e = entryAddr e0 + 4096 * i) && decide (entryPerm e = entryPerm e0)

/-- What one entry of level 0 gives. -/
def leaf0 (st2 : Bool) (e : Nat) : Walk :=
  if entryV e && !entryT e then .leaf (entryAddr e) 4096 (entryPerm e) else .bad 0 (!entryV e && entryPr e) st2

def gives (st2 : Bool) : Except Walk Nat → Walk
  | .ok e => leaf0 st2 e
  | .error w => w

def readsGrouped : Except Walk Nat → Bool
  | .ok e => isGrouped e
  | .error _ => false

/-- What level 0 gives for the entry e. A group that agrees is one 64 KiB page where its address is aligned (R339;
notes/assumptions/75); in one that disagrees `pick` chooses an entry (R340). An entry without a group is used alone,
whatever its neighbours hold. -/
def level0 (rd : Nat → Except Walk Nat) (table idx e pick : Nat) (st2 : Bool) : Walk :=
  let near := (List.range 16).map fun i => rd (table + 8 * (idx / 16 * 16 + i))
  if !(near.any readsGrouped) then leaf0 st2 e
  else
    match near.mapM id with
    | .error w => if isGrouped e then w else gives st2 (near.getD (pick % 16) (.error w))
    | .ok es =>
      if groupAgrees es then
        (if entryAddr (es.headD 0) % 65536 = 0 then .leaf (entryAddr (es.headD 0)) 65536 (entryPerm e) else leaf0 st2 e)
      else leaf0 st2 (es.getD (pick % 16) 0)

/-- Walks from a table at a level down to a leaf (R340). -/
def walkTable (rd : Nat → Except Walk Nat) (addr pick : Nat) (st2 : Bool) : Nat → Nat → Walk
  | level, table =>
    let idx := addr / 2 ^ (12 + 9 * level) % 512
    match rd (table + 8 * idx) with
    | .error w => w
    | .ok e =>
      match level with
      | 0 => level0 rd table idx e pick st2
      | l + 1 =>
        if !entryV e then .bad level (entryPr e) st2
        else if entryT e then walkTable rd addr pick st2 l (entryAddr e)
        else
        match level with
        | 1 => .leaf (entryAddr e / 2 ^ 21 * 2 ^ 21) (2 ^ 21) (entryPerm e)
        | 2 => .leaf (entryAddr e / 2 ^ 30 * 2 ^ 30) (2 ^ 30) (entryPerm e)
        | l => .bad l false st2

/-- Stage 2: IPA bits 51:0 to PA (R340). -/
def State.stage2 (s : State) (c : Ctx) (ipa : Nat) : Walk :=
  walkTable s.readEntry (ipa % 2 ^ 52) (Config.groupEntry s.tick) true 4 c.s2.toNat

/-- A read of a stage-1 table entry, through stage 2 (R341). -/
def State.readStage1 (s : State) (c : Ctx) (ipa : Nat) : Except Walk Nat :=
  match s.stage2 c ipa with
  | .leaf base size _ => s.readEntry (base + ipa % size)
  | w => .error w

/-- A pointer of the sector's walk cache that may still be used (R342): the level and the table below it. -/
def State.walkStart (s : State) (sector ctx va : Nat) : Option (Nat × Nat) :=
  match s.walks.find? fun e => decide (e.sector = sector) && decide (e.ctx = ctx) && decide (e.va ≤ va) && decide (va < e.va + e.size) with
  | none => none
  | some e => if Config.walkKept s.tick va then some (e.level, e.table) else none

/-- Stage 1: VA to IPA, from the root or from a cached pointer (R340, R342). -/
def State.stage1 (s : State) (sector ctx va : Nat) : Walk :=
  let c := s.ctxOf ctx
  let (level, table) := (s.walkStart sector ctx va).getD (4, c.s1.toNat)
  walkTable (s.readStage1 c) va (Config.groupEntry s.tick) false level table

/-- The last table pointer of a walk: the level below it and the table. -/
def lastPointer (rd : Nat → Except Walk Nat) (addr : Nat) : Nat → Nat → Option (Nat × Nat)
  | 0, _ => none
  | l + 1, table =>
    match rd (table + 8 * (addr / 2 ^ (12 + 9 * (l + 1)) % 512)) with
    | .error _ => none
    | .ok e =>
      if entryV e && entryT e then
        match lastPointer rd addr l (entryAddr e) with
        | some p => some p
        | none => some (l, entryAddr e)
      else none

/-- The addresses of the table entries that a walk reads, from a table at a level. -/
def walkPath (rd : Nat → Except Walk Nat) (addr : Nat) : Nat → Nat → List Nat
  | level, table =>
    let a := table + 8 * (addr / 2 ^ (12 + 9 * level) % 512)
    a :: match level with
      | 0 => []
      | l + 1 =>
        match rd a with
        | .ok e => if entryV e && entryT e then walkPath rd addr l (entryAddr e) else []
        | .error _ => []

/-- The physical addresses that a stage-2 walk reads. -/
def State.path2 (s : State) (c : Ctx) (ipa : Nat) : List Nat := walkPath s.readEntry (ipa % 2 ^ 52) 4 c.s2.toNat

/-- The lines of the tables that a walk of both stages reads (R341). -/
def State.tableLines (s : State) (sector ctx va : Nat) : List Nat :=
  let c := s.ctxOf ctx
  let (level, table) := (s.walkStart sector ctx va).getD (4, c.s1.toNat)
  let entry := fun (ipa : Nat) => s.path2 c ipa ++ match s.stage2 c ipa with
    | .leaf b z _ => [b + ipa % z]
    | _ => []
  let last := match s.stage1 sector ctx va with
    | .leaf b z _ => s.path2 c (b + va % z)
    | _ => []
  distinct ((((walkPath (s.readStage1 c) va level table).map entry).flatten ++ last).map lineOf)

/-- A complete translation. -/
structure Xl where
  pa : Nat
  size : Nat
  perm : BitVec 3
  ipa : Nat
deriving DecidableEq, Repr

/-- What a translation gives (R341-R344). `page` is the permission fault of a leaf. -/
inductive Tr where
  | ok (x : Xl)
  | xlate (level : Nat) (stage2 : Bool)
  | page
  | replay (level : Nat) (stage2 : Bool)
  | poison
  | cold (tier : Nat)
  | lost (cell : Nat)
  | hold
deriving DecidableEq, Repr

def trOf : Walk → Tr
  | .leaf _ _ _ => .hold
  | .bad l true st => .replay l st
  | .bad l false st => .xlate l st
  | .poison => .poison
  | .cold t => .cold t
  | .lost c => .lost c
  | .hold => .hold

/-- Walks both stages; `need` holds the X, W, R bits the access needs, stage 1 first (R341). -/
def State.walk (s : State) (sector ctx va : Nat) (need : BitVec 3) : Tr :=
  if 2 ^ 57 ≤ va then .xlate 0 false
  else
    let c := s.ctxOf ctx
    match s.stage1 sector ctx va with
    | .leaf b1 z1 p1 =>
      if p1 &&& need ≠ need then .page
      else
        let ipa := b1 + va % z1
        match s.stage2 c ipa with
        | .leaf b2 z2 p2 =>
          if p2 &&& need ≠ need then .page
          else .ok { pa := b2 + ipa % z2, size := Nat.min z1 z2, perm := p1 &&& p2, ipa := ipa }
        | w => trOf w
    | w => trOf w

/-- Whether a cached translation serves an address of a context. -/
def TlbEntry.serves (e : TlbEntry) (unit ctx va : Nat) : Bool :=
  decide (e.core = unit) && decide (e.ctx = ctx) && decide (e.va ≤ va) && decide (va < e.va + e.size)

/-- A cached translation of the core, or of its sector, that may still be used (R342). -/
def State.tlbHit (s : State) (core ctx va : Nat) : Option TlbEntry :=
  match s.tlb.find? fun e => e.serves core ctx va with
  | some e => if Config.tlbKept s.tick va then some e else none
  | none =>
    match s.sectorTlb.find? fun e => e.serves (sectorOf core) ctx va with
    | some e => if Config.tlbKept s.tick va then some e else none
    | none => none

/-- Translates through the core's TLB or by a walk. -/
def State.translate (s : State) (core ctx va : Nat) (need : BitVec 3) : Tr :=
  match s.tlbHit core ctx va with
  | some e =>
    if e.perm &&& need ≠ need then .page
    else .ok { pa := e.pa + (va - e.va), size := e.size, perm := e.perm, ipa := e.ipa + (va - e.va) }
  | none => s.walk (sectorOf core) ctx va need

/-- The lines of the tables that a core's translation of an address reads: none where its TLB serves it. -/
def State.walkLines (s : State) (core ctx va : Nat) : List Nat :=
  if (s.tlbHit core ctx va).isSome then [] else s.tableLines (sectorOf core) ctx va

/-- A new entry of a TLB of n entries goes in front of the unit's others. -/
def tlbPut (n : Nat) (e : TlbEntry) (l : List TlbEntry) : List TlbEntry :=
  l.filter (fun t => decide (t.core ≠ e.core)) ++ (e :: l.filter fun t => decide (t.core = e.core)).take n

/-- The sector's walk cache keeps the last pointer of a walk (R342). -/
def State.walkAdd (s : State) (sector ctx va : Nat) : State :=
  if (s.walkStart sector ctx va).isSome then s
  else
    match lastPointer (s.readStage1 (s.ctxOf ctx)) va 4 (s.ctxOf ctx).s1.toNat with
    | none => s
    | some (level, table) =>
      let size := 2 ^ (21 + 9 * level)
      { s with walks := addOnce ⟨sector, ctx, va / size * size, size, level, table⟩ s.walks }

/-- Keeps a complete, valid translation: a core holds 128, a sector 4,096 (R342). -/
def State.tlbAdd (s : State) (core ctx va : Nat) (x : Xl) : State :=
  let off := va % x.size
  let e : TlbEntry := { core, ctx, va := va - off, size := x.size, pa := x.pa - off, perm := x.perm, ipa := x.ipa - off }
  if e ∈ s.tlb then s
  else
    let t := (s.tlbHit core ctx va).elim (s.walkAdd (sectorOf core) ctx va) fun _ => s
    { t with tlb := tlbPut 128 e t.tlb, sectorTlb := tlbPut 4096 { e with core := sectorOf core } t.sectorTlb }

/-! ### What an access finds -/

/-- Kinds of access with rules of their own (R341, R357); `ew` is a write that an engine makes for itself. -/
inductive Acc where
  | rd | wr | at | ft | wait | cpDst | put | ew
deriving DecidableEq, Repr

/-- X, W, R bits needed (R341). -/
def Acc.need : Acc → BitVec 3
  | .rd | .wait => 0b001#3
  | .ft => 0b100#3
  | .wr | .at | .cpDst | .put | .ew => 0b010#3

/-- Fault codes of R387. -/
inductive FaultCode where
  | illegal | vregBound | regEmpty | partialMask | segmentDiverged | jtBound | jtLabel | callDepth | misaligned | xlate
  | permission | firewall | poison | txnTimeout | peerLost | staleGen | spmAbsentStore | tagFail | noLease | noWeights
  | mxCheck | mxReset | redundancy | barrierBroken | softTrap
deriving DecidableEq, Repr

def FaultCode.num : FaultCode → Nat
  | .illegal => 1 | .vregBound => 2 | .regEmpty => 3 | .partialMask => 4 | .segmentDiverged => 5 | .jtBound => 6
  | .jtLabel => 7 | .callDepth => 8 | .misaligned => 9 | .xlate => 10 | .permission => 11 | .firewall => 12
  | .poison => 13 | .txnTimeout => 14 | .peerLost => 15 | .staleGen => 16 | .spmAbsentStore => 17 | .tagFail => 18
  | .noLease => 19 | .noWeights => 20 | .mxCheck => 21 | .mxReset => 22 | .redundancy => 23 | .barrierBroken => 24
  | .softTrap => 25

/-- What an access to an address finds: it may proceed at a physical address, faults with a code and detail, waits for a
page request (R344) or a fill (R345), is held (R363), or meets a context error (R86). -/
inductive Found where
  | ok (x : Xl)
  | fault (code : FaultCode) (detail : Nat)
  | page
  | cold (tier : Nat)
  | hold
  | ctxErr
deriving DecidableEq, Repr

def Found.ok? : Found → Option Xl
  | .ok x => some x
  | _ => none

/-- Rules of R271, R303, R312 and R357 for a line's home. -/
def State.homeRule (s : State) (pa : Nat) (a : Acc) : Option (FaultCode × Nat) :=
  let h := s.homeOf pa
  if decide (h = 81) && (decide (a = .at) || decide (a = .wait)) then some (.permission, a.need.toNat)
  else if !s.otherCell pa then none
  else
    match a with
    | .wr | .cpDst | .ew => some (.permission, a.need.toNat)
    | .at | .put => if s.fwWrite pa then none else some (.firewall, s.cell)
    | .rd | .ft | .wait => if s.fwRead pa then none else some (.firewall, s.cell)

/-- A Cold tier page starts its fill (R345). -/
def State.startFill (s : State) (t : Nat) : State :=
  if sget? s.tier t = some .cold then { s with tier := sset s.tier t .filling, due := s.due ++ [Instr.fillComplete t] } else s

/-- An access to a tier page abandons its eviction, or starts its fill (R345). -/
def State.touchTier (s : State) (pa : Nat) : State :=
  match sget? s.tier (pa / 65536) with
  | some .evicting => { s with tier := sdel s.tier (pa / 65536) }
  | _ => s.startFill (pa / 65536)

/-- The walk's reads abandon the eviction of the tier pages that hold its tables (R345). -/
def State.touchWalk (s : State) (core ctx va : Nat) : State :=
  match s.tier with
  | [] => s
  | _ => (s.walkLines core ctx va).foldl (fun t n => t.touchTier (128 * n)) s

/-- The line that an address translates to. -/
def State.lineAt (s : State) (core ctx va : Nat) : List Nat :=
  match s.translate core ctx va 0 with
  | .ok x => [lineOf x.pa]
  | _ => []

/-- The lines at another package that an access of an address waits for: its tables' and its own. -/
def State.awayLines (s : State) (core ctx va : Nat) : List Nat :=
  match s.dir with
  | [] => []
  | _ => (s.walkLines core ctx va ++ s.lineAt core ctx va).filter fun n => decide (s.homeOf (128 * n) = s.pkg) && s.recallWaits n

/-- The recalls that an access waits for are out (R354). -/
def State.recallFor (s : State) (core ctx va : Nat) : State := (s.awayLines core ctx va).foldl State.askRecall s

/-- As `recallFor`, for the presented instruction of a warp, which a recall that times out concerns (R359). -/
def State.recallWarp (s : State) (w : WarpId) (lines : List Nat) : State :=
  match lines with
  | [] => s
  | _ => (lines.foldl State.askRecall s).updWarp w fun x => { x with asked := lines.foldl (fun l n => addOnce n l) x.asked }

/-- What an access by a core of a context finds at a virtual address. A store takes its line at its commit (R358). -/
def State.find (s : State) (core ctx va : Nat) (a : Acc) (pageFail : List Nat) : Found :=
  match s.translate core ctx va a.need with
  | .xlate l st2 => .fault .xlate (l + if st2 then 8 else 0)
  | .page => .fault .permission (8 + a.need.toNat)
  | .poison => .ctxErr
  | .cold t => .cold t
  | .lost c => .fault .peerLost c
  | .hold => .hold
  | .replay l st2 => if va / 4096 ∈ pageFail then .fault .xlate (l + if st2 then 8 else 0) else .page
  | .ok x =>
    match s.homeRule x.pa a with
    | some (c, d) => .fault c d
    | none =>
      if s.isCold x.pa then .cold (x.pa / 65536)
      else
        match (if a = .wr then s.gateHome (s.homeOf x.pa) else s.gate x.pa) with
        | .ok => .ok x
        | .hold => .hold
        | .lost c => .fault .peerLost c

end Sys2Proof.Machine
end

