-- ==== Sys2Proof/Machine/Belfry.lean ====
section
/-! DEFINITION. Kernel ends and dependences (07_kernel R109), acquire actions (R254), the end of a wait (R303-R309),
and every write at the coherent level with the evaluation of the monitor entries of its line (R298). -/

namespace Sys2Proof.Machine

/-! ### Kernels leaving Pending and ending -/

def Kernel.ended (k : Kernel) : Bool := decide (k.st = .complete) || decide (k.st = .aborted)

/-- Whether ORD is met (R97): the previous packet of the sub-queue has reached Complete or Aborted. -/
def State.ordMet (s : State) (k : Kernel) : Bool :=
  if !k.ord then true
  else
    match k.prev with
    | none => true
    | some p =>
      match s.kernel? p with
      | none => true
      | some q => q.ended

/-- A Swapped context becomes Runnable (R84). -/
def State.unswap (s : State) (c : Nat) : State :=
  let x := s.ctxOf c
  if x.st = .swapped then s.setCtx c { x with st := .runnable } else s

def Waiter.kernel? : Waiter → Option Nat
  | .dep k _ => some k
  | .bundle _ _ _ => none

def Waiter.group? : Waiter → Option Nat
  | .dep _ _ => none
  | .bundle w _ _ => some w.g

/-- Drops the entries of a kernel's dependences (R109, R306). -/
def State.dropDeps (s : State) (n : Nat) : State :=
  { s with waits := s.waits.filter fun e => decide (e.2.who.kernel? ≠ some n) }

/-- The kernel reaches Complete or Aborted; its completion actions follow (R109, R115), with page requests of their own. -/
def State.kernelEnd (s : State) (n : Nat) (st : KernelSt) : State :=
  ((s.updKernel n fun k => { k with st := st, closing := true, pend := [], pageFail := [] }).dropDeps n).addDue
    (.completionActions n)

/-- Writes ERR; only the first non-OK value is kept (R109). -/
def Kernel.setErr (k : Kernel) (e : KStatus) (fcode : Nat) : Kernel :=
  if k.err = .ok then { k with err := e, fcode := fcode } else k

def State.kernelAbort (s : State) (n : Nat) (e : KStatus) : State :=
  (s.updKernel n fun k => k.setErr e 0).kernelEnd n .aborted

/-- The packets that wait for the end of kernel n under ORD. -/
def State.orderedBehind (s : State) (n : Nat) : List Nat :=
  (s.kernels.filter fun e => decide (e.2.prev = some n) && e.2.ord).map Prod.fst

/-- A Pending kernel whose dependences are satisfied and whose ORD is met becomes Ready, or completes if it is a SIGNAL
packet, and with its end the packets ordered behind it are looked at (R109); `fuel` bounds the chain of SIGNAL packets. -/
def State.leavePending (s : State) (n : Nat) : Nat → State
  | 0 => s
  | fuel + 1 =>
    match s.kernel? n with
    | none => s
    | some k =>
      if decide (k.st = .pending) && decide (k.depsLeft = 0) && s.ordMet k then
        if k.signal then (s.orderedBehind n).foldl (fun t m => t.leavePending m fuel) (s.kernelEnd n .complete)
        else
          let stop := (k.desc.map Desc.stopl).getD false
          (s.setKernel n { k with st := .ready, stopped := stop }).unswap k.ctx
      else s

/-- As `leavePending`, with a chain as long as the kernels there are. -/
def State.tryLeavePending (s : State) (n : Nat) : State := s.leavePending n (s.kernels.length + 1)

/-- The packets that waited for the end of kernel n under ORD are looked at. -/
def State.wakeOrd (s : State) (n : Nat) : State := (s.orderedBehind n).foldl State.tryLeavePending s

/-- A kernel ends and the packets ordered behind it are looked at. -/
def State.endKernel (s : State) (n : Nat) (st : KernelSt) : State := (s.kernelEnd n st).wakeOrd n
def State.abortKernel (s : State) (n : Nat) (e : KStatus) : State := (s.kernelAbort n e).wakeOrd n

/-- A dependence is satisfied by a word: bit 63 aborts the dependent (R99, R109). -/
def State.depSatisfied (s : State) (n : Nat) (v : DWord) : State :=
  match s.kernel? n with
  | none => s
  | some k =>
    if k.st ≠ .pending then s
    else if v.getLsbD 63 then s.abortKernel n .depAborted
    else (s.setKernel n { k with depsLeft := k.depsLeft - 1 }).tryLeavePending n

/-! ### Acquire actions -/

/-- Whether a read copy lies in bound ranges (VA) of a context (R254, R260). -/
def inRanges (ctx : Nat) (rs : List (Nat × Nat)) (tags : List Nat) : Bool :=
  tags.any fun t => decide (t / 2 ^ 50 = ctx) && rs.any fun r =>
    decide (r.1 < t % 2 ^ 50 * 128 + 128) && decide (t % 2 ^ 50 * 128 < r.1 + r.2)

/-- Whether an acquire that covers `ranges` (none: everything) drops a copy. -/
def hitRanges (ctx : Nat) (ranges : Option (List (Nat × Nat))) (tags : List Nat) : Bool :=
  match ranges with
  | none => true
  | some rs => inRanges ctx rs tags

/-- A copy that an acquire of bound ranges keeps serves no load through them from then on (R254, R256). -/
def RCopy.bar (x : RCopy) (ctx : Nat) (rs : List (Nat × Nat)) : RCopy :=
  { x with barred := rs.foldl (fun l r => addOnce (ctx, r) l) x.barred }

/-- Drops a core's GEN read copies: all, or those of bound ranges; CONST copies are kept (R254, R227). -/
def State.dropCopies (s : State) (core ctx : Nat) (ranges : Option (List (Nat × Nat))) : State :=
  let c := s.core core
  let kept := c.copies.filter fun e => decide (e.1 % 2 = 1) || !(hitRanges ctx ranges e.2.tags)
  match ranges with
  | none => s.setCore core { c with copies := kept }
  | some rs => s.setCore core { c with copies := kept.map fun e => if e.1 % 2 = 1 then e else (e.1, e.2.bar ctx rs) }

/-- The acquire action at a scope (R254): from GANG up the core's read copies are dropped. -/
def State.acquire (s : State) (core ctx scope : Nat) (ranges : Option (List (Nat × Nat))) : State :=
  if 2 ≤ scope then s.dropCopies core ctx ranges else s

/-! ### L2W addresses -/

/-- Key of a context's L2W window in a sector. -/
def l2wKey (ctx sector : Nat) : Nat := ctx * 16 + sector
/-- The window that a warp's L2W accesses reach: its own sector's, for a twin the primary's (R223, R172). -/
def State.l2wFor (s : State) (w : WarpId) : Nat := l2wKey (s.ctxNo w) (sectorOf (s.coreOf (s.primaryWarp w)))
/-- L2W offsets as addresses of their own, above the physical space. -/
def l2wAddr (key off : Nat) : Nat := 2 ^ 70 + key * 2 ^ 40 + off
def isL2w (a : Nat) : Bool := decide (2 ^ 70 ≤ a)
def l2wKeyOf (a : Nat) : Nat := (a - 2 ^ 70) / 2 ^ 40
def l2wOff (a : Nat) : Nat := (a - 2 ^ 70) % 2 ^ 40
def State.l2wOf (s : State) (key : Nat) : L2w := sgetD s.l2w key L2w.none
/-- Window size: 4 MiB per scratch way (R232). -/
def L2w.size (w : L2w) : Nat := ((List.range 16).filter fun i => w.scratch.getLsbD i).length * 2 ^ 22
def State.setL2w (s : State) (key : Nat) (w : L2w) : State := { s with l2w := sput s.l2w key w L2w.none }

/-- A word at the place that serves it: physical memory or an L2W window; value and poison. -/
def State.readWord (s : State) (a n : Nat) : DWord × Bool :=
  if isL2w a then
    let m := (s.l2wOf (l2wKeyOf a)).mem
    (BitVec.ofNat 64 (m.nat (l2wOff a) n), m.anyMark (l2wOff a) n)
  else
    (BitVec.ofNat 64 (s.mem.nat a n), (List.range ((n + 3) / 4)).any fun i => (s.cohMark (a / 4 + i)).isSome)

/-! ### Conditions of R300 -/

def waitBytes (ty : Ty) : Nat :=
  match ty with
  | .i64 | .n64 => 8
  | _ => 4

def tySigned (ty : Ty) : Bool := decide (ty = .i32) || decide (ty = .i64)

/-- m >= o, signed or unsigned by TY (R300). -/
def waitGe (ty : Ty) (m o : DWord) : Bool :=
  match ty with
  | .i32 => (o.setWidth 32).sle (m.setWidth 32)
  | .i64 => o.sle m
  | .n64 => o.ule m
  | _ => (o.setWidth 32).ule (m.setWidth 32)

def waitCond (cc : WaitCc) (ty : Ty) (m o : DWord) (ref : Option DWord) : Bool :=
  let eq := if waitBytes ty = 8 then m == o else m.setWidth 32 == o.setWidth 32
  match cc with
  | .eq => eq
  | .ne => !eq
  | .ge => waitGe ty m o
  | .lt => !waitGe ty m o
  | .anybits => if waitBytes ty = 8 then m &&& o != 0#64 else (m.setWidth 32 &&& o.setWidth 32) != 0#32
  | .changed =>
    match ref with
    | none => false
    | some r => m != r

/-- The value delivered in gD+1 (R304): sign-extended for TY 1, zero-extended for TY 0 and 2. -/
def waitValue (ty : Ty) (m : DWord) : DWord := if ty = .i32 then (m.setWidth 32).signExtend 64 else m

/-! ### Areas of a context (R86) -/

/-- A table entry that the package waits for, be its page Cold or its home Suspect, and then reads; only one that is poisoned or
whose home is lost fails. -/
def State.entryWaited (s : State) (pa : Nat) : Except Walk Nat :=
  match s.gate pa with
  | .lost c => .error (.lost c)
  | _ => if (s.cohMark (pa / 4)).isSome || (s.cohMark (pa / 4 + 1)).isSome then .error .poison else .ok (s.mem.nat pa 8)

/-- A page of a context's area, through stage 2 with write permission (R86); none is a context error. The package waits for
a table that cannot be read yet, and the program sees nothing of it. -/
def State.areaPA (s : State) (ctx : Nat) (addr : Nat) : Option Nat :=
  match walkTable s.entryWaited (addr % 2 ^ 52) (Config.groupEntry s.tick) true 4 (s.ctxOf ctx).s2.toNat with
  | .leaf base size perm => if perm.getLsbD 1 then some (base + addr % size) else none
  | _ => none

/-- Whether n bytes of an area, inside one page, can be written: they translate and meet no poison (R86). -/
def State.areaWrites (s : State) (ctx addr n : Nat) : Bool :=
  match s.areaPA ctx addr with
  | none => false
  | some pa => !(List.range ((pa % 4 + n + 3) / 4)).any fun i => (s.cohMark (pa / 4 + i)).isSome

/-- Whether n bytes of an area can be written, page by page. -/
def State.areaSpan (s : State) (ctx addr n : Nat) : Bool :=
  (List.range ((addr % 4096 + n + 4095) / 4096)).all fun j =>
    let lo := Nat.max addr (addr / 4096 * 4096 + 4096 * j)
    let hi := Nat.min (addr + n) (addr / 4096 * 4096 + 4096 * (j + 1))
    s.areaWrites ctx lo (hi - lo)

/-- Save slot i of a save area (R131). -/
def slotAddr (save : Nat) (i : Nat) : Nat := save + 0x1000 + i * 0x410000

/-- A context error is raised: it happens as an event of its own (R86). -/
def State.raiseCtxErr (s : State) (ctx : Nat) (why : CtxErrCause) : State :=
  { s with due := addOnce (.contextError ctx why) s.due }

/-! ### End of a wait -/

/-- Status word of R304. -/
def waitStatus (status : Nat) (mask : LaneMask) (lane : Nat) : DWord := mask ++ BitVec.ofNat 32 (lane * 256 + status)

/-- Threads waiting on a wait become Active and gD, gD+1 are written (R303, R134); the acquire comes first. -/
def State.deliverWait (s : State) (w : WarpId) (id : Nat) (status value : DWord) (psn : Bool) (d : Nat)
    (scope : Option Nat) : State :=
  let s1 := match scope with
    | none => s
    | some sc => s.acquire (s.coreOf w) (s.ctxNo w) sc none
  s1.updWarp w fun x =>
    let x := ((x.setG d ⟨status, false⟩).fillG d)
    let x := ((x.setG (d + 1) ⟨value, psn⟩).fillG (d + 1))
    x.updThreads (x.lanesWhere fun t => decide (t.st = .waiting id)) fun _ t => { t with st := .active }

/-- Mail keys of a wait's status and value for a twin (R172). -/
def waitMail (id : Nat) : Nat := 2 ^ 40 + 2 * id

/-- The end of a saved group's wait: status and value go into its save slot, in its first 16 bytes (R309; the place is the
package's own, notes/assumptions/35), then its wake record, at 64 bytes a slot of the wake area: merged with one already posted;
a Swapped context becomes Runnable. A write that fails is a context error (R86). -/
def State.postWake (s : State) (c : Nat) (slot : Nat) : State :=
  let x := s.ctxOf c
  if x.st = .quiescing || x.st = .faulted then s
  else if !s.areaWrites c (slotAddr x.save.toNat slot) 16 || !s.areaWrites c (x.wake.toNat + 64 * slot) 64 then
    s.raiseCtxErr c .areaWrite
  else (s.setCtx c { x with wakes := addOnce slot x.wakes }).unswap c

/-- Gives a warp the end of its wait: held in handler mode (R384), kept for a saved group (R309), else delivered. -/
def State.giveWait (s : State) (w : WarpId) (id : Nat) (status value : DWord) (psn : Bool) (d : Nat)
    (scope : Option Nat) : State :=
  match s.group? w.g with
  | none => s
  | some g =>
    if g.st = .resident then
      match nth? g.warps w.w with
      | none => s
      | some x =>
        match x.handler with
        | some h =>
          s.setWarp w { x with handler := some { h with held := h.held ++ [.wait id status value psn d scope] } }
        | none => s.deliverWait w id status value psn d scope
    else
      let s1 := s.setGroup w.g { g with wakes := g.wakes ++ [.wait id status value psn d scope] }
      match g.st, g.slot with
      | .saved, some slot => s1.postWake (s.ctxNo w) slot
      | _, _ => s1

/-- Delivery to the twin of a redundant group (R172): its threads wait on the same wait, or it has not issued yet. -/
def State.giveTwin (s : State) (w : WarpId) (id : Nat) (status value : DWord) (psn : Bool) (d : Nat)
    (scope : Option Nat) : State :=
  match s.group? w.g with
  | none => s
  | some g =>
    match g.other with
    | none => s
    | some o =>
      let t : WarpId := ⟨o, w.w⟩
      match s.warp? t with
      | none => s
      | some x =>
        if x.lanesWhere (fun h => decide (h.st = .waiting id)) ≠ 0 then s.giveWait t id status value psn d scope
        else s.setWarp t { x with mail := sset (sset x.mail (waitMail id) (.g status)) (waitMail id + 1) (.g value) }

/-- A wait ends (R303 End): its entries go, the acquire is performed unless BADCTL, status and value are written. -/
def State.endWait (s : State) (id : Nat) (x : Wait) (status : Nat) (mask : LaneMask) (lane : Nat) (value : DWord)
    (psn : Bool) : State :=
  let s1 := { s with waits := sdel s.waits id }
  match x.who with
  | .dep k _ =>
    match status with
    | 0 => s1.depSatisfied k value
    | 2 => (match s1.kernel? k with
      | some q => if q.st = .pending then s1.abortKernel k .peerLost else s1
      | none => s1)
    | _ => (match s1.kernel? k with
      | some q => if q.st = .pending then s1.abortKernel k .depAborted else s1
      | none => s1)
  | .bundle w _ d =>
    let st := waitStatus status mask lane
    let v := if status = 0 then waitValue x.ty value else if status = 5 then value else 0
    let scope := if status = 4 then none else x.acq
    (s1.giveWait w id st v psn d scope).giveTwin w id st v psn d scope

/-! ### Evaluation -/

/-- The lanes of a wait on one line after an evaluation, and what it found: poisoned lanes, and lanes newly latched with
the word's value. -/
def evalLanes (s : State) (cc : WaitCc) (ty : Ty) (line : Nat) :
    List WaitLane → List WaitLane × List Nat × List (Nat × DWord)
  | [] => ([], [], [])
  | l :: r =>
    let (ls, ps, hit) := evalLanes s cc ty line r
    if lineOf l.addr ≠ line || l.latched then (l :: ls, ps, hit)
    else
      let (m, p) := s.readWord l.addr (waitBytes ty)
      if p then (l :: ls, l.lane :: ps, hit)
      else
        let ok := waitCond cc ty m l.o l.ref
        let ref := match l.ref with
          | none => some m
          | some x => some x
        ({ l with latched := ok, ref := ref } :: ls, ps, if ok then (l.lane, m) :: hit else hit)

def latchedMask (ls : List WaitLane) : LaneMask := maskOfList ((ls.filter (·.latched)).map (·.lane))

/-- Evaluates a wait's lanes on a line (R298, R303, R306): ends it, or keeps what is latched; a line of the host is read with a
shared copy (R312). -/
def State.evalWait (s : State) (id line : Nat) : State :=
  match sget? s.waits id with
  | none => s
  | some x =>
    let (ls, ps, hit) := evalLanes s x.cc x.ty line x.lanes
    let y := { x with lanes := ls }
    let t := s.shareHost line
    match ps with
    | L :: _ =>
      let a := ((x.lanes.find? fun l => decide (l.lane = L)).map (·.addr)).getD 0
      t.endWait id y 5 (maskOfList ps) L (s.readWord a (waitBytes x.ty)).1 true
    | [] =>
      match hit with
      | [] => { t with waits := sset t.waits id y }
      | (L, m) :: _ =>
        if x.any then t.endWait id y 0 (maskOfList (hit.map (·.1))) L m false
        else if ls.all (·.latched) then t.endWait id y 0 (latchedMask ls) L m false
        else
          let live := fun (e : Entry) => ls.any fun l => decide (lineOf l.addr = e.line) && !l.latched
          { t with waits := sset t.waits id { y with entries := y.entries.filter live } }

/-- Waits with an entry on a line that satisfies a test. -/
def State.waitsOn (s : State) (line : Nat) (p : Entry → Bool) : List Nat :=
  (s.waits.filter fun e => e.2.entries.any fun n => decide (n.line = line) && p n).map (·.1)

def Entry.spilled (e : Entry) : Bool := e.slice.isNone

/-- After a write to a line: exact entries are evaluated at once, sampled ones after it, spilled ones by a scan (R298,
R308). -/
def State.noteWrite (s : State) (line : Nat) : State :=
  let s1 := (s.waitsOn line fun e => e.exact && !e.spilled).foldl (fun t w => t.evalWait w line) s
  let s2 := (s1.waitsOn line fun e => !e.exact && !e.spilled).foldl
    (fun t w => { t with due := addOnce (.sampledEvaluation w line) t.due }) s1
  if (s2.waitsOn line Entry.spilled).isEmpty then s2 else { s2 with due := addOnce (.spillScan line) s2.due }

/-! ### The directory (R354-R356) -/

/-- An entry goes: its clean copies are dropped; a line that a lost cell held dirty is P (R354, R356, R362). The data of a line
held in E, O or M are home by then: what needs the line has waited for its recall. -/
def State.dropEntry (s : State) (line : Nat) : State :=
  match sget? s.dir line with
  | none => s
  | some e =>
    let t := (s.holders e).foldl (fun t p => t.transmit p 0xFFFF t.tgen (.invalidate (128 * line) [] 0)) s
    { t.dirDel line with pline := if s.lostDirty line then addOnce line t.pline else t.pline }

/-- One directory entry under step 2 of R360 for lost cells: what is kept of it. -/
def keepEntry (lost : BitVec 32) (e : DirEntry) : Option DirEntry :=
  let v := e.vec &&& ~~~lost
  match e.st with
  | .s => if v = 0 then none else some { e with vec := v }
  | _ => if lost.getLsbD e.owner then none else some { e with vec := v }

/-- The cells that this package holds as Recovering or Fenced. -/
def State.lostCells (s : State) : BitVec 32 := maskOf fun c => s.cellLost c

/-- An access that meets an entry naming a lost cell before the scan has step 2 applied to it first (R362). -/
def State.settleLost (s : State) (line : Nat) : State :=
  match sget? s.dir line with
  | none => s
  | some e =>
    if s.lostDirty line then s.dropEntry line
    else
      match keepEntry s.lostCells e with
      | none => s.dirDel line
      | some d => if d = e then s else { s with dir := sset s.dir line d }

/-- An access by this package meets the directory: entries of lost cells are settled, and a line that another package still holds
in E, O or M is recalled (R356, R362). -/
def State.recallDir (s : State) (line : Nat) : State := (s.settleLost line).askRecall line

/-- Entries of the package's directory (R16). -/
def dirLines : Nat := 2 ^ 26

/-- An entry is written; its request has found room for it (R354). -/
def State.dirPut (s : State) (line : Nat) (e : DirEntry) : State := { s with dir := sset s.dir line e }

/-! ### Writes at the coherent level -/

/-- Applies bytes and poison effects to a line of physical memory: a full-line write clears P, a partial write to a P
line leaves it P and marks nothing (R236, R355, R362); an eviction of its tier page is abandoned, and a
Cold page filled, which changes no value (R345); copies outside the package are recalled (R354, R356); a line of the host is
obtained first (R417). -/
def State.cohLine (s : State) (line : Nat) (data : SMap Byte) (psn : SMap Bool) : State :=
  let full := decide (data.length = 128)
  let inP := decide (line ∈ s.pline) || s.lostDirty line
  let m1 := s.mem.setCells data
  let m2 := if inP && !full then m1 else m1.setPsn psn
  let t := ((s.dropEntry line).obtain line).touchTier (128 * line)
  { t with mem := m2, pline := if full then s.pline.filter (· ≠ line) else if inP then addOnce line s.pline else s.pline }

/-- A write of a line at the coherent level, seen by the Belfry. -/
def State.cohWriteLine (s : State) (line : Nat) (data : SMap Byte) (psn : SMap Bool) : State :=
  (s.cohLine line data psn).noteWrite line

/-- Bytes from an address as a sparse store. -/
def cellsOf (a : Nat) : List Byte → SMap Byte
  | [] => []
  | b :: r => (a, b) :: cellsOf (a + 1) r

/-- A write inside one line. -/
def State.cohWrite (s : State) (a : Nat) (d : List Byte) (p : Bool) : State :=
  s.cohWriteLine (lineOf a) (cellsOf a d) (psnEffect a d.length p)

/-- Whether a write-through is one of a core's own: made on it, or by the primary of a copy that the core runs (R172, R251). A
group leaves its core only when its writes have arrived (notes/assumptions/89). -/
def State.ownWt (s : State) (core : Nat) (w : WriteThrough) : Bool :=
  decide (w.core = core) || decide ((s.twinOf w.wid.g).map (fun t => s.coreOf ⟨t, w.wid.w⟩) = some core)

end Sys2Proof.Machine
end

