-- ==== Sys2Proof/Machine/Records.lean ====
section
/-! DEFINITION. Observation (23): the sample area, top-down counts, trace events and the PC table. -/

namespace Sys2Proof.Machine

/-- Writes bytes at the coherent level, line by line in address order. -/
def State.cohWriteLong (s : State) (a : Nat) (d : List Byte) : Nat → State
  | 0 => s
  | fuel + 1 =>
    match d with
    | [] => s
    | _ => (s.cohWrite a (d.take (128 - a % 128)) false).cohWriteLong (a / 128 * 128 + 128) (d.drop (128 - a % 128)) fuel

/-- Writes a record into the sample area, or drops it when the area is full (R395). -/
def State.sampleRecord (s : State) (ctx : Nat) (rec : List Byte) : State :=
  let c := s.ctxOf ctx
  if c.st = .free then s
  else
    match s.areaPA ctx c.sample.toNat with
    | none => s.raiseCtxErr ctx .areaWrite
    | some hd =>
      if !s.areaWrites ctx c.sample.toNat 24 then s.raiseCtxErr ctx .areaWrite
      else if (s.readWord hd 8).1.toNat ≤ c.written then
        (s.setCtx ctx { c with dropped := c.dropped + 1 }).cohWrite (hd + 16) (leBytes (c.dropped + 1) 8) false
      else
        let at_ := c.sample.toNat + 0x1000 + 32 * c.written
        match s.areaPA ctx at_, s.areaWrites ctx at_ 32 with
        | none, _ | _, false => s.raiseCtxErr ctx .areaWrite
        | some pa, true =>
          ((s.setCtx ctx { c with written := c.written + 1 }).cohWrite pa rec false).cohWrite (hd + 8)
            (leBytes (c.written + 1) 8) false

/-- The layout of R396. -/
def recordBytes (kind reason engine : Nat) (aqi core : Nat) (cseq : Word) (stamp value : Nat) : List Byte :=
  leBytes kind 1 ++ leBytes reason 1 ++ leBytes engine 1 ++ [0] ++ leBytes aqi 2 ++ leBytes core 2 ++ leBytes cseq.toNat 4
    ++ leBytes 0 4 ++ leBytes stamp 8 ++ leBytes value 8

/-- A trace event of a kernel with TRACE set (R400). -/
def State.trace (s : State) (kn : Nat) (core code value : Nat) : State :=
  match s.kernel? kn with
  | none => s
  | some k =>
    if (k.desc.map Desc.trace).getD false then
      s.sampleRecord k.ctx (recordBytes 3 code 5 k.aqi core k.seq (Config.cycle s.tick core).toNat value)
    else s

/-- VALUE of the group events (R400). -/
def groupValue (gang group fcode : Nat) : Nat := gang * 2 ^ 32 + fcode * 256 + group

def leafKey (core kernel leaf : Nat) : Nat := (kernel * 256 + core) * 16 + leaf

/-- Resets a kernel's leaf counts on a core, and writes their KIND 2 records where the kernel has SAMPLE set (R399). -/
def State.flushLeaves (s : State) (core kn : Nat) : State :=
  match s.kernel? kn with
  | none => s
  | some k =>
    (List.range 12).foldl (fun t leaf =>
      let n := sgetD t.leaves (leafKey core kn leaf) 0
      if n = 0 then t
      else
        let u := { t with leaves := sdel t.leaves (leafKey core kn leaf) }
        if (k.desc.map Desc.sample).getD false then
          u.sampleRecord k.ctx (recordBytes 2 leaf 0 k.aqi core k.seq (Config.cycle s.tick core).toNat n)
        else u) s

/-- Spills one PC entry (R401). -/
def State.spillPc (s : State) (core : Nat) (e : PcEntry) : State :=
  match s.kernel? e.kernel with
  | none => s
  | some k => s.sampleRecord k.ctx (recordBytes 1 e.reason 0 k.aqi core k.seq e.pc.toNat e.count)

/-- Whether a PC entry belongs to a kernel, whose key is its AQI and CSEQ (R401). -/
def PcEntry.isOf (e : PcEntry) (k : Kernel) : Bool := decide (e.aqi = k.aqi) && decide (e.seq = k.seq)

/-- Spills every PC entry of a kernel on a core (R401). -/
def State.flushPcs (s : State) (core kn : Nat) : State :=
  match s.kernel? kn with
  | none => s
  | some k =>
    let mine := fun (e : Nat × PcEntry) => decide (e.1 / 4096 = core) && e.2.isOf k
    let t := (s.pcs.filter mine).foldl (fun t e => t.spillPc core e.2) s
    { t with pcs := t.pcs.filter fun e => !mine e }

/-- Counts a slot in the PC table (R401): a clash spills the other key first. -/
def State.countPc (s : State) (core kn : Nat) (k : Kernel) (pc : DWord) (leaf : Nat) : State :=
  let i := core * 4096 + Config.pcHash k.aqi k.seq.toNat pc.toNat leaf % 4096
  match sget? s.pcs i with
  | none => { s with pcs := sset s.pcs i ⟨kn, k.aqi, k.seq, pc, leaf, 1⟩ }
  | some e =>
    if e.isOf k ∧ e.pc = pc ∧ e.reason = leaf then { s with pcs := sset s.pcs i { e with count := e.count + 1 } }
    else
      let t := (s.spillPc core e).flushLeaves core e.kernel
      { t with pcs := sset t.pcs i ⟨kn, k.aqi, k.seq, pc, leaf, 1⟩ }

/-- An Issued slot of a warp, which a discard may take back unless its instruction has committed (R398). -/
def Warp.slotUsed (x : Warp) : Warp := { x with slots := if x.ended then x.slots else x.slots + 1 }

/-- Charges one issue slot to a warp with a leaf of R397: the counts are kept for every kernel, and the slot of one without
SAMPLE is Unsampled, too, and outside the PC table (R399, R401). Each step of the model is one slot (notes/assumptions/20),
which the second instruction of a pair does not count again (R15). -/
def State.charge (s : State) (w : WarpId) (pc : DWord) (leaf : Nat) : State :=
  if s.paid then { s with paid := false }
  else if s.shares then s
  else
    match s.group? w.g with
    | none => s
    | some g =>
      match s.kernel? g.kernel with
      | none => s
      | some k =>
        let key := leafKey g.core g.kernel leaf
        let t := { s with leaves := sset s.leaves key (sgetD s.leaves key 0 + 1) }
        let t := if leaf = 0 then t.updWarp w Warp.slotUsed else t
        if (k.desc.map Desc.sample).getD false then t.countPc g.core g.kernel k pc leaf
        else { t with unsampled := sset t.unsampled g.core (sgetD t.unsampled g.core 0 + 1) }

/-- Counts the slot of the instruction now presented before its effect, which ends its group: the records of the group's last
slots are then whole (R399, R401). -/
def State.paySlot (s : State) (w : WarpId) (pc : DWord) : State := { s.charge w pc 0 with paid := true }

/-- Issued slots of a kernel on a core become Discarded (R398); what a spill of R401 has already reported stays reported. -/
def State.moveSlots (s : State) (core kn n : Nat) : State :=
  let ki := leafKey core kn 0
  let kd := leafKey core kn 11
  let m := Nat.min n (sgetD s.leaves ki 0)
  { s with leaves := sput (sset s.leaves kd (sgetD s.leaves kd 0 + m)) ki (sgetD s.leaves ki 0 - m) 0 }

/-- A slot that carried instructions of two warps moves once both have been discarded (R398). -/
def State.discardPairs (s : State) (w : WarpId) : State :=
  let mine := (s.pairs.filter fun p => decide (p.live = [w]))
  let rest := (s.pairs.filter fun p => decide (p.live ≠ [w])).map fun p => { p with live := p.live.filter (· ≠ w) }
  mine.foldl (fun t p => (t.group? p.own.g).elim t fun g => t.moveSlots g.core g.kernel 1) { s with pairs := rest }

/-- A discard moves the Issued slots since the last commit to Discarded (R398). -/
def State.discardSlots (s : State) (w : WarpId) : State :=
  match s.group? w.g with
  | none => s
  | some g =>
    let n := ((nth? g.warps w.w).map Warp.slots).getD 0
    let t := if n = 0 then s else (s.moveSlots g.core g.kernel n).updWarp w fun x => { x with slots := 0 }
    if t.pairs.isEmpty then t else t.discardPairs w

/-- Whether a group stands on its core. -/
def Group.live (g : Group) : Bool := decide (g.st = .resident) || decide (g.st = .discarding) || decide (g.st = .restoring)

/-- The last group of a kernel leaves a core: its counts and PC entries are written (R399, R401). -/
def State.leaveCore (s : State) (core kn : Nat) : State :=
  if s.groups.any fun e => decide (e.2.core = core) && decide (e.2.kernel = kn) && e.2.live then s
  else (s.flushPcs core kn).flushLeaves core kn

end Sys2Proof.Machine
end

