-- ==== Sys2Proof/Machine/Life.lean ====
section
/-! DEFINITION. Barriers (16_barrier R290-R296), convergence registers (R145), the lease (18_matrix R316), engine
operations in flight, extents, and the ends of warps, groups, gangs and kernels (08_group R132, R133; 07_kernel R109). -/

namespace Sys2Proof.Machine

/-! ### Convergence registers -/

/-- The release check of R145 on register n. -/
def Warp.convCheck (w : Warp) (n : Nat) : Warp :=
  let c := vget w.c n ⟨0, 0⟩
  if c.d ≠ 0 ∧ c.d &&& c.s = c.d then
    let w := { w with c := vset w.c n { c with s := 0 } }
    w.updThreads c.s fun _ t => if t.st = .conv n then { t with st := .active } else t
  else w

/-- Lanes leave every declared set (R145, Thread finishes). -/
def Warp.undeclare (w : Warp) (m : LaneMask) : Warp :=
  (List.range 8).foldl (fun w n =>
    let c := vget w.c n ⟨0, 0⟩
    if c.d &&& m = 0 then w
    else Warp.convCheck { w with c := vset w.c n ⟨c.d &&& ~~~m, c.s &&& ~~~m⟩ } n) w

/-! ### Barriers -/

def State.bar (s : State) (w : WarpId) (gang : Bool) (n : Nat) : Bar :=
  match s.group? w.g with
  | none => Bar.reset
  | some g =>
    if gang then
      match s.gang? g.gang with
      | none => Bar.reset
      | some x => vget (if g.isTwin then x.gbTwin else x.gb) n Bar.reset
    else vget g.bars n Bar.reset

def State.setBar (s : State) (w : WarpId) (gang : Bool) (n : Nat) (b : Bar) : State :=
  match s.group? w.g with
  | none => s
  | some g =>
    if gang then s.updGang g.gang fun x =>
      if g.isTwin then { x with gbTwin := vset x.gbTwin n b } else { x with gb := vset x.gb n b }
    else s.setGroup w.g { g with bars := vset g.bars n b }

/-- The groups a barrier serves: the group, or every group of its gang (the twins with the twins). -/
def State.barGroups (s : State) (w : WarpId) (gang : Bool) : List Nat :=
  match s.group? w.g with
  | none => []
  | some g =>
    if gang then
      match s.gang? g.gang with
      | none => []
      | some x => if g.isTwin then x.twins else x.groups
    else [w.g]

def State.barWarps (s : State) (w : WarpId) (gang : Bool) : List WarpId :=
  ((s.barGroups w gang).map fun n =>
    match s.group? n with
    | none => []
    | some g => groupWarps n g).flatten

/-- Participants of a barrier: warps that have not retired, without those of aborted groups (R290, R291). -/
def State.participants (s : State) (w : WarpId) (gang : Bool) : Nat :=
  ((s.barWarps w gang).filter fun x =>
    (match s.group? x.g with
      | none => false
      | some g => decide (g.st ≠ .aborted)) &&
    (match s.warp? x with
      | none => false
      | some y => !y.retired)).length

/-- Key of a warp in a barrier. -/
def State.barKey (s : State) (w : WarpId) (gang : Bool) : Nat :=
  if gang then ((s.group? w.g).map Group.idx).getD 0 * 32 + w.w else w.w

def parkedAt (gang : Bool) (n : Nat) (t : Thread) : Bool :=
  match t.st with
  | .bar g m _ => decide (g = gang) && decide (m = n)
  | _ => false

/-- The BARWT that a parked thread waits in, by its PC. -/
def ThSt.barPc : ThSt → Option Nat
  | .bar _ _ (.again pc) => some pc
  | .bar _ _ (.wait pc _ _ _) => some pc
  | _ => none

/-- Whether a thread leaves its barrier, for a status, by going on behind its BARWT: released, under a limit that has run out, or
under a limit at a barrier that broke (R291, R294). -/
def ThSt.waitsBehind (t : ThSt) (status : Nat) : Option (Nat × Place × Nat) :=
  match t with
  | .bar _ _ (.wait pc next d lim) => if lim || decide (status = 0) then some (pc, next, d) else none
  | _ => none

/-- A thread leaves a barrier: a BARWT that has its status is behind it; after release a BARSYNC stands at its PC; one that broke, and
a BARWT that broke without a limit, present themselves again (R291, R294). -/
def Thread.leaveBar (t : Thread) (status : Nat) : Thread :=
  match t.st, t.st.waitsBehind status with
  | _, some (_, next, _) => { t with st := .active, at_ := next }
  | .bar _ _ (.sync p), _ => { t with st := .active, at_ := if status = 2 then p else t.at_ }
  | _, _ => { t with st := .active }

/-- Threads of a warp leave a barrier with a status (0 released, 1 limit, 2 Broken): each BARWT among them that returns writes its
register, and its limit is kept no longer unless another thread still waits under it (R294). -/
def Warp.leaveBar (x : Warp) (m : LaneMask) (status : Nat) : Warp :=
  let ends := ((lanesOf m).filterMap fun L => (x.thread L).st.waitsBehind status)
  let y := ends.foldl (fun y e => (y.setG e.2.2 ⟨BitVec.ofNat 64 status, false⟩).fillG e.2.2) x
  let z := y.updThreads m fun _ t => t.leaveBar status
  let kept := fun (pc : Nat) => (List.range 32).any fun L =>
    decide ((x.thread L).st.barPc = some pc) && !(inMask m L && ((x.thread L).st.waitsBehind status).isSome)
  { z with barLimit := z.barLimit.filter fun (e : Nat × Bool) => !(ends.any fun d => decide (d.1 = e.1)) || kept e.1 }

def Thread.inSync (t : Thread) : Bool :=
  match t.st with
  | .bar _ _ (.sync _) => true
  | _ => false

/-- The threads of a warp parked at a barrier become Active; a released BARSYNC acquires first at the barrier's scope
(R294). -/
def State.freeBarWarp (s : State) (w : WarpId) (gang : Bool) (n : Nat) (broken : Bool) : State :=
  match s.warp? w with
  | none => s
  | some x =>
    let m := x.lanesWhere (parkedAt gang n)
    if m = 0 then s
    else
      let acq := !broken && decide (x.lanesWhere (fun t => parkedAt gang n t && t.inSync) ≠ 0)
      let s1 := if acq then s.acquire (s.coreOf w) (s.ctxNo w) (if gang then 2 else 1) none else s
      s1.updWarp w fun x =>
        -- the others take BARRIER_BROKEN whatever becomes of the barrier before they present again (R291)
        let hurt := m &&& ~~~(maskOf fun L => ((x.thread L).st.waitsBehind 2).isSome)
        let y := if broken && hurt ≠ 0 then { x with broken := sset x.broken n (sgetD x.broken n 0 ||| hurt) } else x
        y.leaveBar m (if broken then 2 else 0)

/-- As `freeBarWarp`, held while the warp is in handler mode (R384). -/
def State.wakeBarWarp (s : State) (gang : Bool) (n : Nat) (broken : Bool) (w : WarpId) : State :=
  match s.warp? w with
  | none => s
  | some x =>
    match x.handler with
    | some h => s.setWarp w { x with handler := some { h with held := h.held ++ [.bar gang n broken] } }
    | none => s.freeBarWarp w gang n broken

def State.wakeBar (s : State) (w : WarpId) (gang : Bool) (n : Nat) (broken : Bool) : State :=
  (s.barWarps w gang).foldl (fun t x => t.wakeBarWarp gang n broken x) s

/-- The phase is released: GEN flips, A and every mark are cleared, parked threads become Active (R291). -/
def State.barRelease (s : State) (w : WarpId) (gang : Bool) (n : Nat) : State :=
  let b := s.bar w gang n
  (s.setBar w gang n { b with st := .released, gen := !b.gen, a := 0, marks := [], arrived := [] }).wakeBar w gang n false

/-- A warp arrives (R291, Collecting rows). -/
def State.barWarpArrives (s : State) (w : WarpId) (gang : Bool) (n : Nat) : State :=
  let b := s.bar w gang n
  let s1 := s.setBar w gang n { b with a := b.a + 1, arrived := s.barKey w gang :: b.arrived }
  if b.e ≤ b.a + 1 then s1.barRelease w gang n else s1

/-- Whether every thread of the warp that is not Finished carries the mark (R290). -/
def State.barAllMarked (s : State) (w : WarpId) (b : Bar) (key : Nat) : Bool :=
  match s.warp? w with
  | none => false
  | some x =>
    let m := sgetD b.marks key 0
    decide (m ≠ 0) && decide ((~~~x.finished) &&& ~~~m = 0)

/-- Threads arrive at a barrier (R290, R291). -/
def State.barArrive (s : State) (w : WarpId) (gang : Bool) (n : Nat) (lanes : LaneMask) : State :=
  let b := s.bar w gang n
  let key := s.barKey w gang
  let e := if b.st = .free then s.participants w gang else b.e
  let b1 := { b with st := .collecting, e := e, marks := sset b.marks key (sgetD b.marks key 0 ||| lanes) }
  let s1 := s.setBar w gang n b1
  if s1.barAllMarked w b1 key && !(decide (key ∈ b1.arrived)) then s1.barWarpArrives w gang n else s1

/-- After threads of a warp finished: a Collecting barrier they left may now see the warp arrive (R291). -/
def State.barThreadsFinished (s : State) (w : WarpId) (gang : Bool) (n : Nat) : State :=
  let b := s.bar w gang n
  let key := s.barKey w gang
  if b.st = .collecting ∧ key ∉ b.arrived ∧ s.barAllMarked w b key ∧ (s.warp? w).map Warp.retired = some false then
    s.barWarpArrives w gang n
  else s

/-- A participant warp retires (R291). -/
def State.barWarpRetires (s : State) (w : WarpId) (gang : Bool) (n : Nat) : State :=
  let b := s.bar w gang n
  let key := s.barKey w gang
  if b.st = .free ∨ b.st = .broken then s
  else
    let here := decide (key ∈ b.arrived)
    let b1 := { b with e := b.e - 1, a := if here then b.a - 1 else b.a, marks := sdel b.marks key,
                       arrived := b.arrived.filter (· ≠ key) }
    if b1.e = 0 then s.setBar w gang n { b1 with st := .free, a := 0, marks := [], arrived := [] }
    else
      let s1 := s.setBar w gang n b1
      if b1.st = .collecting ∧ b1.a = b1.e then s1.barRelease w gang n else s1

/-- A group of the gang aborts: gang barriers in use become Broken (R291, R133). -/
def State.breakBar (s : State) (w : WarpId) (n : Nat) : State :=
  let b := s.bar w true n
  if b.st = .free ∨ b.st = .broken then s
  else (s.setBar w true n { b with st := .broken, marks := [], arrived := [], a := 0 }).wakeBar w true n true

/-- Every barrier: 16 of the group, 4 of the gang. -/
def barNames : List (Bool × Nat) := (List.range 16).map (fun n => (false, n)) ++ (List.range 4).map (fun n => (true, n))

/-! ### Engine operations in flight (R127, R132) -/

/-- Ranges (space, base, length) of the group's buffers that an engine operation names (R126). -/
def copyRows (base : Nat) (stride : DWord) (rows bytes : Nat) : List (Nat × Nat) :=
  (List.range rows).map fun r => ((BitVec.ofNat 64 base + stride * BitVec.ofNat 64 r).toNat, bytes)

def Copy.ranges (c : Copy) : List (Space × Nat × Nat) :=
  (copyRows c.dst c.dstride c.rows c.bytes).map (fun r => (c.dsp, r)) ++
  (copyRows c.src c.sstride c.rows c.bytes).map (fun r => (c.ssp, r))

/-- Size of a weight tile in WB (R320). -/
def tileSize (desc : List Byte) : Nat :=
  match fld (desc.headD 0).toNat 0 2 with
  | 2 => 20 * 1024
  | 3 => 64 * 1024
  | _ => 32 * 1024

/-- Bytes of an activation record (R321). -/
def recordSize (fm : Nat) : Nat :=
  match fm with
  | 3 => 512
  | 2 => 162
  | _ => 256

def MxOp.ranges (o : MxOp) : List (Space × Nat × Nat) :=
  match o.kind with
  | .w r => [(.wb, r.off, tileSize r.desc)]
  | .a arow astride afmt m cdst =>
    (.cb, cdst, 512 * m) :: (.ab, afmt, m) :: (List.range m).map fun i =>
      (.ab, arow + i * astride, recordSize (fld (o.old.byte (afmt + i)).toNat 0 2))
  | .wr items => items.map fun i => (.cb, i.1, 4)
  | .z cdst m => [(.cb, cdst, 512 * m)]

def overlaps (a n b k : Nat) : Bool := decide (a < b + k) && decide (b < a + n)

/-- Engine operations in flight of the warps that satisfy a test: their names, with the ranges they name. -/
def State.engineOps (s : State) (p : WarpId → Bool) : List (Nat × List (Space × Nat × Nat)) :=
  (s.copies.filter fun c => p c.wid).map (fun c => (c.id, c.ranges)) ++
  (s.puts.filter fun c => p c.wid).map (fun c => (c.id, [(c.ssp, c.src, c.bytes)])) ++
  ((s.engines.map fun e => e.2.ops).flatten.filter fun o => p o.wid).map (fun o => (o.id, o.ranges)) ++
  (s.contribs.filter fun c => p c.wid).map (fun c => (c.id, [])) ++
  (((s.trees.map fun e => e.2.got).flatten).filter fun c => p c.wid).map (fun c => (c.id, []))

/-- A range of a group's own scratchpad that is named through the gang window (R223). -/
def ownScr (idx : Nat) (r : Space × Nat × Nat) : Space × Nat × Nat :=
  if r.1 = .gscr ∧ r.2.1 / 2 ^ 19 = idx then (.scr, r.2.1 % 2 ^ 19, r.2.2) else r

/-- Engine operations in flight that a group issued; a twin's are its primary's, whose results land in both copies (R172). -/
def State.groupOps (s : State) (g : Nat) : List (Nat × List (Space × Nat × Nat)) :=
  let idx := ((s.group? g).map Group.idx).getD 0
  (s.engineOps fun w => decide (w.g = s.primaryOf g)).map fun o => (o.1, o.2.map (ownScr idx))

/-- Marked extents whose operations have ended are returned (R126). -/
def State.returnExtents (s : State) (g : Nat) : State :=
  let live := (s.groupOps g).map (·.1)
  let keep := fun (e : Extent) =>
    match e.ret with
    | none => true
    | some ops => ops.any fun o => decide (o ∈ live)
  s.updGroup g fun x => { x with extents := x.extents.filter keep }

/-! ### The lease (R316, R318) -/

/-- VIEW of R318: 0 None, 1 Granted, 2 Expiring, 3 Revoked, 4 Reset; a twin's is its primary's (R337). -/
def State.leaseView (s : State) (g : Nat) : Nat :=
  let p := s.primaryOf g
  match s.group? p with
  | none => 0
  | some x =>
    let e := s.engine x.core
    if e.holder = some p then
      match e.st with
      | .expiring => if e.ending = some .free then 0 else 2
      | .reset => 4
      | _ => if e.ending = some .free then 0 else 1
    else if x.revoked then 3 else 0

/-- MOVSR LEASE (R318). -/
def State.leaseWord (s : State) (g : Nat) : Nat :=
  let p := s.primaryOf g
  match s.group? p, s.group? g with
  | some x, some own =>
    let e := s.engine x.core
    let holds := decide (e.holder = some p)
    x.chk.toNat * 2 ^ 27 + (if holds && x.weights then 2 ^ 26 else 0) + (if own.pending.isEmpty then 0 else 2 ^ 25)
      + (if holds then e.qleft * 16 else 0) + (if p ∈ e.queue then 8 else 0) + s.leaseView g
  | _, _ => 0

def State.quantumOf (s : State) (g : Nat) : Nat :=
  let q := (((s.group? g).bind fun x => s.kernel? x.kernel).bind (·.desc)).map Desc.quantum
  match q with
  | none => 4096
  | some 0 => 4096
  | some n => n

def State.classOf (s : State) (g : Nat) : Nat := (((s.group? g).bind fun x => s.kernel? x.kernel).map Kernel.cls).getD 0

/-- The engine is granted to a group: array empty, full quantum; a Revoked or restoring group has its last MXW replayed
from WB as it stands (R316, R331). -/
def State.grantLease (s : State) (core g : Nat) : State :=
  match s.group? g with
  | none => s
  | some x =>
    let replay := if x.revoked || x.hadLease then x.lastMxw else none
    let e := s.engine core
    let tile := replay.map fun r => (⟨r, x.wb⟩ : Tile)
    (s.setEngine core { e with
        st := .granted, holder := some g, qleft := s.quantumOf g, ops := [], tile := tile, ending := none,
        queue := e.queue.filter (· ≠ g) }).setGroup g
      { x with revoked := false, hadLease := false, weights := tile.isSome }

/-- The engine stands in Revoked: the first queued group is granted, else it goes Idle (R316). -/
def State.passLease (s : State) (core : Nat) : State :=
  let e := s.engine core
  match e.queue with
  | [] => s.setEngine core Engine.idle
  | g :: _ => s.grantLease core g

/-- MXFREE: the view is None and the lease record is cleared (R316, R335). -/
def Group.clearLease (x : Group) : Group :=
  { x with revoked := false, weights := false, hadLease := false, lastMxw := none, chk := 0, pending := [] }

/-- The holder's lease record after its tenure ended (R316, R335). -/
def Group.afterLease (x : Group) (why : Option LeaseEnd) : Group :=
  match why with
  | none => { x with revoked := true, weights := false }
  | some .free => { x with revoked := false, weights := false }
  -- the lease record was settled when the group began Discarding
  | some .discard => x
  | some .gone => { x with revoked := false, weights := false }

/-- A Granted or Expiring engine whose holder has no operation left gives up its tenure when an end is recorded or it is
Expiring (R316). -/
def State.settleLease (s : State) (core : Nat) : State :=
  let e := s.engine core
  match e.holder with
  | none => s
  | some g =>
    if e.ops ≠ [] ∨ e.st = .reset then s
    else if e.ending.isSome || decide (e.st = .expiring) then
      ((s.updGroup g fun x => x.afterLease e.ending).setEngine core
        { e with st := .revoked, holder := none, tile := none, ending := none }).passLease core
    else s

/-- An Expiring engine whose queue has emptied goes back to Granted while an operation is in flight (R316). -/
def State.unexpire (s : State) (core : Nat) : State :=
  let e := s.engine core
  if e.st = .expiring ∧ e.queue = [] ∧ e.ops ≠ [] then s.setEngine core { e with st := .granted } else s

/-- A group leaves the queue of its engine (R316). -/
def State.leaveQueue (s : State) (core g : Nat) : State :=
  let e := s.engine core
  (s.setEngine core { e with queue := e.queue.filter (· ≠ g) }).unexpire core

/-- A group that begins Discarding: whether it held the lease, Revoked included, is kept for its restore (R128, R335); a twin
holds none (R337). -/
def State.keepLease (s : State) (g : Nat) : State :=
  let held := !s.isTwin g && decide (s.leaseView g ≠ 0)
  s.updGroup g fun x => { x with revoked := false, weights := false, hadLease := held }

/-- MXFREE, retirement, abort or Discarding of a group at its engine: it leaves the queue, and its tenure ends with its
operations (R316). -/
def State.endLease (s : State) (core g : Nat) (why : LeaseEnd) : State :=
  let t := (if why = .discard then s.keepLease g else s).leaveQueue core g
  let e := t.engine core
  if e.holder = some g then (t.setEngine core { e with ending := some why }).settleLease core else t

/-- A group is queued in order of class and arrival (R316). -/
def State.queueLease (s : State) (core g : Nat) : State :=
  let e := s.engine core
  if g ∈ e.queue then s
  else
    let c := s.classOf g
    let before := e.queue.takeWhile fun q => decide (c ≤ s.classOf q)
    let q := before ++ g :: e.queue.drop before.length
    s.setEngine core { e with queue := q, st := if e.st = .granted ∧ e.qleft = 0 then .expiring else e.st }

/-! ### Ends of gangs, kernels, contexts -/

def State.gangGroups (s : State) (n : Nat) : List Nat :=
  match s.gang? n with
  | none => []
  | some g => g.groups ++ g.twins

def Group.over (g : Group) : Bool := decide (g.st = .retired) || decide (g.st = .aborted)

/-- Whether every group of a gang has retired or aborted. -/
def State.gangOver (s : State) (n : Nat) : Bool := (s.gangGroups n).all fun g => ((s.group? g).map Group.over).getD true

def State.kernelGangs (s : State) (k : Nat) : List Nat := (s.gangs.filter fun e => decide (e.2.kernel = k)).map (·.1)

/-- Engine operations of a kernel are over (R109). -/
def State.kernelIdle (s : State) (k : Nat) : Bool :=
  (s.engineOps fun w => ((s.group? w.g).map Group.kernel) == some k).isEmpty

/-- Running to Retiring when the last resident group has ended, and Retiring to Complete or Aborted (R109). -/
def State.kernelCheck (s : State) (n : Nat) : State :=
  match s.kernel? n with
  | none => s
  | some k =>
    let ended := (s.kernelGangs n).all fun g => s.gangOver g
    let s1 := if decide (k.st = .running) && ended then s.setKernel n { k with st := .retiring } else s
    if (decide (k.st = .running) && ended || decide (k.st = .retiring)) && s1.kernelIdle n then
      s1.endKernel n (if k.err = .ok then .complete else .aborted)
    else s1

def State.ctxGroups (s : State) (c : Nat) (p : Group → Bool) : List Nat :=
  (s.groups.filter fun e => p e.2 && decide (((s.kernel? e.2.kernel).map Kernel.ctx) = some c)).map (·.1)

/-- Engine operations of a context are over (R84). -/
def State.ctxIdle (s : State) (c : Nat) : Bool := (s.engineOps fun w => decide (s.ctxNo w = c)).isEmpty

/-- A context whose last resident group has gone: Running to Swapped or Runnable, or the end of Quiescing (R84). -/
def State.ctxCheck (s : State) (c : Nat) (saved : Bool) : State :=
  let x := s.ctxOf c
  let none := (s.ctxGroups c Group.live).isEmpty
  if x.st = .running ∧ none then s.setCtx c { x with st := if saved then .swapped else .runnable }
  else if x.st = .quiescing ∧ none ∧ s.ctxIdle c then { s with due := addOnce (.quiesceComplete c) s.due }
  else s

/-- The last group of a gang has ended: the scratchpad of each whose operations have ended is freed, its extents with it (R132). -/
def State.freeScratch (s : State) (n : Nat) : State :=
  (s.gangGroups n).foldl (fun t g =>
    if ((t.group? g).map fun x => x.extents.isEmpty || !x.freed).getD true then t else t.updGroup g fun x => { x with extents := [] }) s

/-- One copy of a group after engine operations have ended: its extents return; retired, it frees its resources and its lease, but for
its scratchpad, which stays until the gang is over (R126, R132). -/
def State.copyCheck (s : State) (g : Nat) : State :=
  let s1 := s.returnExtents g
  match s1.group? g with
  | none => s1
  | some x =>
    if x.over && (s1.groupOps g).isEmpty && !x.freed then
      (s1.setGroup g { x with freed := true, extents := x.extents.filter fun e => decide (e.sp = .scr) }).endLease x.core g .gone
    else s1.settleLease x.core

/-- After engine operations of a group have ended its copies, the gang, the kernel and the context are looked at (R126, R132, R109,
R84). -/
def State.groupCheck (s : State) (g : Nat) : State :=
  let s1 := s.copyCheck g
  match s1.group? g with
  | none => s1
  | some x =>
    let s2 := x.other.elim s1 fun o => s1.copyCheck o
    let s3 := if s2.gangOver x.gang then (s2.updGang x.gang fun y => { y with st := .done }).freeScratch x.gang else s2
    let c := ((s3.kernel? x.kernel).map Kernel.ctx).getD 0
    (s3.kernelCheck x.kernel).ctxCheck c false

/-- A group whose last warp has retired (R121, R132). -/
def State.groupRetires (s : State) (g : Nat) : State :=
  match s.group? g with
  | none => s
  | some x =>
    let c := ((s.kernel? x.kernel).map Kernel.ctx).getD 0
    let s1 := (s.setGroup g { x with st := .retired }).leaveQueue x.core g
    let s2 := (s1.trace x.kernel x.core 4 (groupValue (((s.gang? x.gang).map Gang.idx).getD 0) x.idx 0)).leaveCore x.core x.kernel
    (s2.groupCheck g).ctxCheck c false

/-- Threads of a bundle finish (R153): they leave the declared sets and the barriers; a warp whose 32 threads have
finished retires, and with the last one its group. -/
def State.finishThreads (s : State) (w : WarpId) (m : LaneMask) : State :=
  let s1 := s.updWarp w fun x => (x.updThreads m fun _ t => { t with st := .finished }).undeclare m
  let s2 := barNames.foldl (fun t b => t.barThreadsFinished w b.1 b.2) s1
  match s2.warp? w with
  | none => s2
  | some x =>
    if x.retired then
      let s3 := barNames.foldl (fun t b => t.barWarpRetires w b.1 b.2) s2
      match s3.group? w.g with
      | none => s3
      | some g => if g.warps.all Warp.retired then s3.groupRetires w.g else s3
    else s2

/-- A warp of an aborted group: every thread Finished, nothing in flight. -/
def Warp.kill (w : Warp) : Warp :=
  { w with th := w.th.map fun t => { t with st := .finished }, bundle := none, span := [], loads := [], sfus := [],
           atoms := [], handler := none, meet := .none, releasing := false, sealing := false }

/-- One copy of a group aborts (R133): span buffers dropped, waits removed, gang barriers Broken, the gang counted as
aborted in its kernel (R109). -/
def State.abortCopy (s : State) (g fcode : Nat) (err : KStatus) : State :=
  match s.group? g with
  | none => s
  | some x =>
    if x.over then s
    else
      let s1 := (s.setGroup g { x with st := .aborted, warps := x.warps.map Warp.kill, fcode := fcode,
                                       extents := x.extents.map fun e => { e with newBy := none, markBy := none } }).leaveQueue
        x.core g
      let s2 := { s1 with waits := s1.waits.filter (fun e => decide (e.2.who.group? ≠ some g)) }.withdraw fun v => decide (v.g = g)
      let s3 := (List.range 4).foldl (fun t n => t.breakBar ⟨g, 0⟩ n) s2
      let s4 := s3.updKernel x.kernel fun k =>
        { k.setErr err fcode with st := if k.st = .dispatching then .running else k.st, noMore := true }
      ((s4.trace x.kernel x.core 5 (groupValue (((s.gang? x.gang).map Gang.idx).getD 0) x.idx fcode)).leaveCore
        x.core x.kernel).groupCheck g

/-- A group aborts, with its twin (R133, R169). -/
def State.abortGroup (s : State) (g fcode : Nat) (err : KStatus) : State :=
  match (s.group? g).bind (·.other) with
  | none => s.abortCopy g fcode err
  | some o => (s.abortCopy g fcode err).abortCopy o fcode err

/-- The KIND 1 record of an abort (R394), the fault interrupt of R388 where asked, and the abort. -/
def State.abortWith (s : State) (w : WarpId) (code pc addr detail : Nat) (mask : LaneMask) (intr : Bool) : State :=
  let s1 := s.lanternWarp w 1 0 code [pc, addr, detail, mask.toNat, w.w, ((s.group? w.g).map Group.idx).getD 0]
  let s2 := if intr then s1.faultInterrupt (s.ctxNo w) else s1
  s2.abortGroup w.g code .fault

/-! ### Ends of parks (R134) -/

/-- A page request has been answered, or the fill of a tier page (from 2^60) has ended. -/
def State.pageOver (s : State) (p : Nat) : Bool :=
  if 2 ^ 60 ≤ p then
    match sget? s.tier (p - 2 ^ 60) with
    | some .cold => false
    | some .filling => false
    | _ => true
  else !(s.pageReqs.any fun q => decide (q.id = p))

/-- What a thread parked on a scratchpad line or a page waits for is over: the line is present or failed, the page request
is answered, the fill has ended. -/
def State.parkOver (s : State) (t : Thread) : Bool :=
  match t.st with
  | .spm g n =>
    match (s.group? g).bind fun x => sget? x.absent n with
    | none => true
    | some a => a.failed
  | .page ps => ps.all s.pageOver
  | _ => false

/-- Threads whose park is over present their instruction again; in handler mode the threads stay frozen (R384). -/
def State.wakeWarp (s : State) (w : WarpId) : State :=
  match s.warp? w with
  | none => s
  | some x =>
    if x.handler.isSome then s
    else
      let m := x.lanesWhere fun t => s.parkOver t ||
        (t.st.barPc.elim false fun pc => decide (sget? x.barLimit pc = some true))
      if m = 0 then s else s.setWarp w (x.leaveBar m 1)

/-- As `wakeWarp`, for every warp: after a line landed, a request was answered or a fill ended. -/
def State.wakeParked (s : State) : State := s.allWarps.foldl (fun t w => t.wakeWarp w) s

end Sys2Proof.Machine
end

