-- ==== Sys2Proof/Machine/Span.lean ====
section
/-! DEFINITION. The span buffer, commit and discard (10_span R160-R172, 09_warp R147), and what a core's loads see
(R225, R252). -/

namespace Sys2Proof.Machine

/-! ### What a core sees of GEN -/

/-- The coherent level's image of a line (R252, R355). -/
def State.cohImg (s : State) (line : Nat) : LineImg :=
  ⟨s.mem.bytesAt (128 * line) 128, (List.range 32).map fun i => s.cohMark (32 * line + i)⟩

/-- Lays bytes and poison effects over an image. -/
def LineImg.over (g : LineImg) (line : Nat) (data : SMap Byte) (psn : SMap Bool) : LineImg :=
  ⟨data.foldl (fun d e => d.set (e.1 - 128 * line) e.2) g.data,
   psn.foldl (fun p e => p.set (e.1 - 32 * line) (if e.2 then some .plain else none)) g.psn⟩

/-- The coherent image under the write-throughs of a line that satisfy a test. -/
def State.imgUnder (s : State) (line : Nat) (p : WriteThrough → Bool) : LineImg :=
  (s.wts.filter fun w => p w && decide (w.line = line)).foldl (fun g w => g.over line w.data w.psn) (s.cohImg line)

/-- The coherent image with the core's committed bytes that have not arrived yet (R225, R251). -/
def State.ownImg (s : State) (core line : Nat) : LineImg := s.imgUnder line (s.ownWt core)

/-- What an engine operation that warp `w` forked at serial n reads of a line: the coherent level, with what the warp had
committed before; other warps' writes reach it only through the coherent level (R266). -/
def State.forkImg (s : State) (w : WarpId) (n line : Nat) : LineImg :=
  s.imgUnder line fun t => (decide (t.wid = w) || decide (t.wid = s.primaryWarp w)) && decide (t.id < n)

def copyKey (line : Nat) (const : Bool) : Nat := 2 * line + if const then 1 else 0

/-- The name of a virtual line in the tags of read copies. -/
def lineTag (ctx va : Nat) : Nat := ctx * 2 ^ 50 + va / 128

/-- Whether a copy was kept by an acquire that covers a virtual line (R254). -/
def RCopy.bars (x : RCopy) (tag : Nat) : Bool := x.barred.any fun r => inRanges r.1 [r.2] [tag]

/-- The read copy that would serve a load through a virtual line (R225). -/
def State.copyOf (s : State) (core line : Nat) (const : Bool) (tag : Nat) : Option RCopy :=
  if sget? s.owned line = some core then none
  else
    match sget? (s.core core).copies (copyKey line const) with
    | none => none
    | some c => if !c.bars tag && Config.copyKept s.tick line then some c else none

/-- The image of a line that a load on the core reads through a virtual line (R225, R252). -/
def State.viewImg (s : State) (core line : Nat) (const : Bool) (tag : Nat) : LineImg :=
  match s.copyOf core line const tag with
  | some c => c.img
  | none => s.ownImg core line

/-- Lines of an L1 of 320 KiB (R13). -/
def l1Lines : Nat := 2560

/-- A full L1 makes room for a line (R13, R225): it gives up a read copy, or where it holds none an owned line, freely chosen
(notes/assumptions/9). -/
def State.l1Room (s : State) (core : Nat) : State :=
  let c := s.core core
  let mine := (s.owned.filter fun (e : Nat × Nat) => decide (e.2 = core)).map Prod.fst
  if c.copies.length + mine.length < l1Lines then s
  else if c.copies.isEmpty then { s with owned := sdel s.owned (mine.getD (Config.l1Victim s.tick core % mine.length) 0) }
  else s.setCore core { c with copies := c.copies.eraseIdx (Config.l1Victim s.tick core % c.copies.length) }

/-- A load fills a read copy unless its policy forbids it or a copy or owned line serves it (R225, R226). -/
def State.fillCopy (s : State) (core line : Nat) (const noalloc : Bool) (tag : Nat) : State :=
  if sget? s.owned line = some core then s
  else
    let c := s.core core
    let k := copyKey line const
    match s.copyOf core line const tag with
    | some x => s.setCore core { c with copies := sset c.copies k { x with tags := addOnce tag x.tags } }
    | none =>
      if noalloc then (s.shareHost line).setCore core { c with copies := sdel c.copies k }
      else
        let t := (s.shareHost line).l1Room core
        t.setCore core { t.core core with copies := sset (t.core core).copies k ⟨s.ownImg core line, [tag], []⟩ }

/-- A commit or an own engine write updates the core's read copies of the line (R225, R266). -/
def State.updCopies (s : State) (core line : Nat) (data : SMap Byte) (psn : SMap Bool) : State :=
  let c := s.core core
  let f := fun (x : RCopy) => { x with img := x.img.over line data psn }
  s.setCore core { c with copies := supd (supd c.copies (2 * line) f) (2 * line + 1) f }

/-- Drops the core's read copies of a line. -/
def State.dropLine (s : State) (core line : Nat) : State :=
  let c := s.core core
  s.setCore core { c with copies := sdel (sdel c.copies (2 * line)) (2 * line + 1) }

/-- One byte and one word's mark of an image. -/
def LineImg.byte (g : LineImg) (a : Nat) : Byte := g.data.getD (a % 128) 0
def LineImg.mark (g : LineImg) (a : Nat) : Option Mark := g.psn.getD (a % 128 / 4) none

/-! ### The span buffer -/

/-- Order of span lines (R170): space, then address; GSCR by group first. -/
def SpanLine.before (x l : SpanLine) : Bool :=
  let p := (spaceBits x.sp).toNat
  let q := (spaceBits l.sp).toNat
  decide (p < q) || (decide (p = q) && (decide (x.grp < l.grp) || (decide (x.grp = l.grp) && decide (x.addr < l.addr))))

/-- Whether a line buffers the bytes at a line address of a space (of one group's scratch, in GSCR). -/
def SpanLine.isAt (l : SpanLine) (sp : Space) (grp addr : Nat) : Bool :=
  decide (l.sp = sp) && decide (l.grp = grp) && decide (l.addr = addr)

def findLine (ls : List SpanLine) (sp : Space) (grp addr : Nat) : Option SpanLine :=
  ls.find? fun l => l.isAt sp grp (addr / 128)

def insertLine (x : SpanLine) : List SpanLine → List SpanLine
  | [] => [x]
  | l :: r => if x.before l then x :: l :: r else if l.isAt x.sp x.grp x.addr then x :: r else l :: insertLine x r

/-- The byte the span buffer holds at an address (R162). -/
def Warp.spanByte (w : Warp) (sp : Space) (grp a : Nat) : Option Byte :=
  (findLine w.span sp grp a).bind fun l => sget? l.data a

/-- The poison that the buffered bytes force on a word, if any of it is buffered (R236). -/
def Warp.spanPsn (w : Warp) (sp : Space) (grp a n : Nat) : Option Bool :=
  if (List.range n).any fun i => (w.spanByte sp grp (a + i)).isSome then
    (findLine w.span sp grp a).bind fun l => sget? l.psn (a / 4)
  else none

/-- Places a store in the buffer (R162, R236): bytes at `a`, whose line lies at a physical line reached through an IPA. -/
def Warp.spanPut (w : Warp) (sp : Space) (grp a : Nat) (pa : Nat × Nat) (d : List Byte) (p : Bool) : Warp :=
  let l := (findLine w.span sp grp a).getD ⟨sp, a / 128, pa.1, grp, [], [], pa.2⟩
  let data := (cellsOf a d).foldl (fun m e => sset m e.1 e.2) l.data
  let psn := (psnEffect a d.length p).foldl (fun m e => sset m e.1 e.2) l.psn
  { w with span := insertLine { l with data := data, psn := psn } w.span }

/-- Lines in use on a core's pool: those the warps hold, and 32 for each warp of a redundant group while it is bound (R162,
R169). -/
def State.poolUsed (s : State) (core : Nat) : Nat :=
  (s.groups.map fun e =>
    if e.2.core ≠ core then 0
    else if e.2.other.isNone then (e.2.warps.map fun w => w.span.length).sum
    else if e.2.live then 32 * e.2.warps.length else 0).sum

/-- Whether the pool has fewer than n free lines for a warp; a redundant group's lines are its own (R163, R169). -/
def State.poolShort (s : State) (w : WarpId) (n : Nat) : Bool :=
  ((s.group? w.g).bind (·.other)).isNone && decide (512 < s.poolUsed (s.coreOf w) + n)

/-- Whether `n` new lines force a commit (R163). -/
def State.spanFull (s : State) (w : WarpId) (x : Warp) (n : Nat) : Bool :=
  decide (0 < n) && (decide (32 < x.span.length + n) || s.poolShort w n)

/-! ### Signatures (R170) -/

def sigMix (h : DWord) : DWord :=
  let h := (h ^^^ (h >>> 31)) * 0xB3A56C1E47D92F81#64
  let h := (h ^^^ (h >>> 27)) * 0xE17C4D9305AB68C7#64
  h ^^^ (h >>> 33)

def sigLine (sig : DWord) (l : SpanLine) : DWord :=
  let base := 128 * l.addr
  -- a line of the gang window is named by its offset in the window (R170, R223)
  let name := if l.sp = .gscr then 128 * l.pa else base
  let mask := (List.range 128).foldl (fun m i => if (sget? l.data (base + i)).isSome then m + 2 ^ i else m) 0
  let sig := sigMix (sig ^^^ (BitVec.ofNat 64 ((spaceBits l.sp).toNat * 2 ^ 57)) ^^^ BitVec.ofNat 64 name)
  let sig := sigMix (sig ^^^ BitVec.ofNat 64 mask)
  let sig := sigMix (sig ^^^ BitVec.ofNat 64 (mask / 2 ^ 64))
  let sig := (List.range 16).foldl (fun g j =>
    sigMix (g ^^^ BitVec.ofNat 64 (leNat ((List.range 8).map fun i => sgetD l.data (base + 8 * j + i) 0)))) sig
  let pm := (List.range 32).foldl (fun m i => if sget? l.psn (base / 4 + i) = some true then m + 2 ^ i else m) 0
  sigMix (sig ^^^ BitVec.ofNat 64 pm)

/-- S after the buffered lines and the command of the committing instruction: its word, then its operand values. -/
def sigCommit (sig : DWord) (ls : List SpanLine) (cmd : List DWord) : DWord :=
  cmd.foldl (fun g v => sigMix (g ^^^ v)) (ls.foldl sigLine sig)

/-! ### Commit -/

/-- A fault to be entered: code, lanes, address, detail; `late` after the commit step of an atomic (R387). -/
structure FaultInfo where
  code : FaultCode
  lanes : LaneMask
  addr : Nat
  detail : Nat
  late : Bool
deriving DecidableEq, Repr

/-- How a presented instruction stops short of its effect: held with a leaf of R397, another warp having the
slot (R139, R140), parked (R134) with the pages
to request and the tier pages to fill, faulted (R383), or in a context error (R86). -/
inductive Stop where
  | hold (s : State) (leaf : Nat)
  | park (s : State) (onto : ThSt) (pages : List (Nat × BitVec 3)) (tiers : List Nat)
  | fault (s : State) (f : FaultInfo)
  | ctxErr (s : State)
deriving DecidableEq, Repr

/-- A stop that is no hold withdraws the admission of the instruction's PUT (R379). -/
def Stop.unadmitted (w : WarpId) : Stop → Stop
  | .hold s leaf => .hold s leaf
  | .park s onto pages tiers => .park (s.withdraw (· = w)) onto pages tiers
  | .fault s f => .fault (s.withdraw (· = w)) f
  | .ctxErr s => .ctxErr (s.withdraw (· = w))

/-- The bytes of a span line at its place: addresses moved from the virtual line to the physical one or the window. -/
def SpanLine.moved (l : SpanLine) (onto : Nat) : SMap Byte × SMap Bool :=
  (l.data.map fun e => (onto * 128 + e.1 % 128, e.2), l.psn.map fun e => (onto * 32 + e.1 % 32, e.2))

/-- Whether an offset lies in a live part of a group's buffer (R223): the reservation or an extent. -/
def inWindow (res : Nat) (ext : List Extent) (sp : Space) (a n : Nat) : Bool :=
  decide (a + n ≤ res) || ext.any fun e => decide (e.sp = sp) && decide (e.base ≤ a) && decide (a + n ≤ e.base + e.size)

/-- Reservation of a space by the descriptor (R106, R120). -/
def Desc.res (d : Desc) (sp : Space) : Nat :=
  match sp with
  | .scr | .gscr => d.scr
  | .wb => d.wb
  | .ab => d.ab
  | .cb => d.cb
  | _ => 0

def Group.buf (g : Group) (sp : Space) : Mem :=
  match sp with
  | .wb => g.wb
  | .ab => g.ab
  | .cb => g.cb
  | _ => g.scr

def Group.setBuf (g : Group) (sp : Space) (m : Mem) : Group :=
  match sp with
  | .wb => { g with wb := m }
  | .ab => { g with ab := m }
  | .cb => { g with cb := m }
  | _ => { g with scr := m }

/-- Writes one buffered line to its space (R164 step 3, R250): GEN lines go into L1 and on their way to the coherent
level; the others are written at their one place. A twin writes only its own core's buffers (R172). -/
def State.commitLine (s : State) (w : WarpId) (twin : Bool) (l : SpanLine) : State :=
  match l.sp with
  | .gen | .const =>
    if twin then s
    else
      let (d, p) := l.moved l.pa
      let core := s.coreOf w
      let s0 := s.updCopies core l.pa d p
      -- a twin's later reads see the primary's writes (R172)
      let s1 := match s.twinOf w.g with
        | none => s0
        | some t => s0.updCopies (s0.coreOf ⟨t, w.w⟩) l.pa d p
      let (id, s2) := s1.fresh
      let kn := ((s.group? w.g).map Group.kernel).getD 0
      { s2 with wts := s2.wts ++ [⟨id, core, w, kn, l.pa, d, p⟩], due := s2.due ++ [.writeThroughArrival id] }
  | .l2w =>
    if twin then s
    else
      let key := s.l2wFor w
      let x := s.l2wOf key
      let inw := l.data.filter fun e => decide (e.1 < x.size)
      (s.setL2w key { x with mem := (x.mem.setCells inw).setPsn (if inw.isEmpty then [] else l.psn) }).noteWrite
        (lineOf (l2wAddr key (128 * l.addr)))
  | .gscr =>
    if twin then s
    else s.updGroup l.grp fun g => g.setBuf .scr ((g.scr.setCells l.data).setPsn l.psn)
  | sp => s.updGroup w.g fun g => g.setBuf sp (((g.buf sp).setCells l.data).setPsn l.psn)

/-- The control record at a commit (R147). -/
def Warp.record (w : Warp) : CtlRec :=
  ⟨w.th.map fun t => ⟨t.st, t.stack, t.depth⟩, w.c, w.part⟩

/-- Extents at a commit (R126): new ones are committed; marked ones are returned once the operations that name them have
ended. -/
def commitExtents (w : Nat) (ops : List (Nat × List (Space × Nat × Nat))) (es : List Extent) : List Extent :=
  (es.map fun e =>
    let e := if e.newBy = some w then { e with newBy := none } else e
    if e.markBy = some w then
      { e with markBy := none, ret := some ((ops.filter fun o =>
          o.2.any fun r => decide (r.1 = e.sp) && overlaps r.2.1 r.2.2 e.base e.size).map (·.1)) }
    else e).filter fun e => decide (e.ret ≠ some [])

/-- Both copies complete step 3 when their signatures match (R171): the twin's lines take effect with the primary's. -/
def State.commitTwin (s : State) (w : WarpId) : State :=
  match s.twinOf w.g with
  | none => s
  | some t =>
    match s.warp? ⟨t, w.w⟩ with
    | none => s
    | some y => (y.span.foldl (fun u l => u.commitLine ⟨t, w.w⟩ true l) s).updWarp ⟨t, w.w⟩ fun y => { y with span := [] }

/-- Steps 3 to 5 of R164 for the whole warp: the lines are written, the buffer emptied, the control state recorded, and
restart places set: `rp` for the committing members, its current place for every other thread (R165). In handler mode
the threads' restart places stay and the handler's moves (R384). -/
def State.commitNow (s : State) (w : WarpId) (members : LaneMask) (rp : Place) : State :=
  match s.group? w.g, s.warp? w with
  | some g, some x =>
    let s0 := x.span.foldl (fun t l => t.commitLine w g.isTwin l) s
    let s1 := if g.isTwin then s0 else s0.commitTwin w
    let ops := s1.groupOps w.g
    let s2 := s1.updGroup w.g fun g => { g with extents := commitExtents w.w ops g.extents }
    ({ s2 with pairs := s2.pairs.filter fun p => !p.live.contains w }).updWarp w fun y =>
      let y := { y with span := [], formed := 0, pipeErr := false, redErr := false, slots := 0,
                        ended := y.bundle.any fun (b : Bundle) => decide (b.at_ ≠ rp), commits := y.commits + 1, mxrds := 0, meet := .none, ctl := y.record, asked := [],
                        barLimit := y.barLimit.filter fun (e : Nat × Bool) =>
                          y.th.toList.any fun t => decide (t.st.barPc = some e.1) }
      match y.handler with
      | some h => { y with handler := some { h with restart := rp } }
      | none => y.updThreads allLanes fun L t =>
          { t with restart := if inMask members L then rp else t.at_ }
  | _, _ => s

/-- Step 2 of R164 (R171): a redundant copy waits until the other reaches the same commit and the signatures have been
compared; the twin then follows its primary. -/
def State.meet (s : State) (w : WarpId) (g : Group) (x : Warp) (cmd : List DWord) : Except Stop State :=
  match g.other with
  | none => .ok s
  | some o =>
    let sig := sigCommit x.sig x.span cmd
    match x.meet with
    | .matched sig =>
      let ahead := match s.warp? ⟨o, w.w⟩ with
        | none => true
        | some y => decide (x.commits < y.commits)
      if g.isTwin && !ahead then .error (.hold s 10)
      else .ok (s.updWarp w fun y => { y with sig := sig })
    | .failed other => .error (.fault (s.updWarp w fun y => { y with meet := .none })
        ⟨.redundancy, allLanes, sig.toNat, other.toNat, false⟩)
    | _ =>
      let t := s.updWarp w fun y => { y with meet := .waiting sig }
      .error (.hold { t with due := addOnce (.redundancyCompare ⟨if g.isTwin then o else w.g, w.w⟩) t.due } 10)

/-- The presented instruction sends its requests for lines homed in other packages, and is held while they are out: it goes
on when it is presented again, unless one has timed out or its home is lost by then (R235, R359; notes/assumptions/77). -/
def State.askRemote (s : State) (w : WarpId) (kind : Nat → PacketKind) (lines : List Nat) : Except Stop Unit :=
  match (distinct lines).filter fun n => s.remote (128 * n) && !(((s.warp? w).map Warp.asked).getD []).contains n with
  | [] => .ok ()
  | l =>
    if s.roundFor w then .error (.hold s 10)
    else
    let t := l.foldl (fun t n => t.transmit (s.homeOf (128 * n)) (s.ctxNo w) s.tgen (kind n)) s
    .error (.hold (t.updWarp w fun x => { x with asked := x.asked ++ l }) 10)

/-- The ownership of lines is taken: those homed in other packages of the own cell are asked for, and those that another package
holds are recalled (R354, R358). -/
def State.askOwn (s : State) (w : WarpId) (lines : List Nat) : Except Stop Unit :=
  match s.askRemote w (fun n => .own (128 * n)) lines with
  | .error e => .error e
  | .ok _ =>
    match (distinct lines).filter s.recallWaits with
    | [] => .ok ()
    | l => .error (.hold (s.recallWarp w l) 10)

/-- Step 3 of R164 first takes the ownership of the lines that other packages hold or are the home of (R358). A twin writes no GEN
line (R172). -/
def State.ownRemote (s : State) (w : WarpId) (g : Group) (x : Warp) (members : LaneMask) : Except Stop Unit :=
  if g.isTwin then .ok ()
  else
    let gen := x.span.filter fun l => decide (l.sp = .gen)
    match gen.find? fun l => decide (l.pa ∈ x.txnLost) with
    | some l => .error (.fault ((s.bothCopies w.g).foldl (fun t n => t.updWarp ⟨n, w.w⟩ fun y => { y with meet := .none })
          (s.updWarp w fun y => { y with txnLost := [], asked := [] }))
        ⟨.txnTimeout, members, 128 * l.addr, s.homeOf (128 * l.pa), false⟩)
    | none => s.askOwn w (gen.map SpanLine.pa)

/-- Commit() (R164): waits for the warp's loads, compares redundant copies, takes the ownership of lines, which may end in
TXN_TIMEOUT (R358), then commits. `cmd` is the command that R170 adds. -/
def State.commit (s : State) (w : WarpId) (members : LaneMask) (rp : Place) (cmd : List DWord) : Except Stop State :=
  match s.group? w.g, s.warp? w with
  | some g, some x =>
    if !x.loads.isEmpty then .error (.hold s 10)
    else
      match s.meet w g x cmd with
      | .error e => .error e
      | .ok s1 =>
        match s1.ownRemote w g x members with
        | .error e => .error e
        | .ok _ => .ok (s1.commitNow w members rp)
  | _, _ => .ok s

/-- Where the bundle's members, or the handler, restart. -/
def Warp.restartsAt (x : Warp) (lanes : LaneMask) (p : Place) : Bool :=
  match x.handler with
  | some h => decide (h.restart = p)
  | none => (lanesOf lanes).all fun L => decide ((x.thread L).restart = p)

/-- Room for `n` new lines of a store or spill presented at `p` (R163): a commit where the warp or the pool has none free, and
then a wait until the pool has. -/
def State.makeRoom (s : State) (w : WarpId) (x : Warp) (lanes : LaneMask) (p : Place) (n : Nat) : Except Stop State :=
  if s.spanFull w x n then
    if x.span.isEmpty && x.restartsAt lanes p then .error (.hold s 10)
    else
      match s.commit w lanes p [] with
      | .error e => .error e
      | .ok t => if t.poolShort w n then .error (.hold t 10) else .ok t
  else .ok s

/-! ### Discard -/

/-- A register that a dropped load or special function left empty keeps its old value and becomes full (R167, R210). A
function that issued before the latest commit stands before the restart PCs: it is not dropped. -/
def Warp.dropLoads (w : Warp) : Warp :=
  let w := w.loads.foldl (fun x l =>
    let x := l.regs.foldl (fun y r => y.fillV r) x
    match l.kind with
    | .poll _ d => x.fillG d
    | _ => x) w
  let late := w.sfus.filter fun l => decide (l.commit = w.commits)
  let w := late.foldl (fun x l => x.fillV l.reg) w
  { w with loads := [], sfus := w.sfus.filter fun l => decide (l.commit ≠ w.commits) }

/-- A park after a discard: a thread that leaves the barrier later resumes at its restart PC, from where a BARWT is presented again
(R292). -/
def ThSt.sentBack : ThSt → ThSt
  | .bar g n (.wait pc _ _ _) => .bar g n (.again pc)
  | t => t

/-- The BARSYNC at which a recorded thread was parked when its barrier broke. -/
def ThSt.brokenSync (t : ThSt) (broken : Nat → Bool) : Option Place :=
  match t with
  | .bar true n (.sync p) => if broken n then some p else none
  | _ => none

/-- Where a thread stands after a discard (R147); one whose BARSYNC broke while it was parked there takes that still (R291). -/
def Thread.discarded (t : Thread) (r : ThRec) (conv : Option Nat) (broken : Nat → Bool) : Thread :=
  match t.st with
  | .finished => t
  | .waiting _ => t
  | .bar _ _ _ => { t with at_ := t.restart, st := t.st.sentBack, stack := r.stack, depth := r.depth }
  | _ =>
    match r.st.brokenSync broken with
    | some p => { t with at_ := p, st := .active, stack := r.stack, depth := r.depth }
    | none =>
    { t with at_ := t.restart, stack := r.stack, depth := r.depth,
             st := match conv with
               | some n => .conv n
               | none => .active }

/-- The convergence register of a restored record in whose S a lane is (R147). -/
def signedIn (c : Vector CReg 8) (L : Nat) : Option Nat :=
  (List.range 8).find? fun n => inMask (vget c n ⟨0, 0⟩).s L

def ThRec.zero : ThRec := ⟨.finished, [], 0⟩

def ThSt.gangSync : ThSt → Bool
  | .bar true _ (.sync _) => true
  | _ => false

def ThSt.atBar : ThSt → Bool
  | .bar _ _ _ => true
  | _ => false

/-- Whether a thread left a gang barrier through BARSYNC after the control record: its acquire is performed again (R147). -/
def Warp.reacquires (w : Warp) : Bool :=
  (List.range 32).any fun L => (w.ctl.th.toList.getD L ThRec.zero).st.gangSync && !(w.thread L).st.atBar

/-- Discards a warp (R167): loads and span buffer dropped, extents and marks of the span undone, threads at their restart
places with the control state of R147, a thread that has finished since the record staying finished and leaving the restored D
(notes/assumptions/96); in handler mode the handler restarts (R384). -/
def State.discard (s : State) (w : WarpId) : State :=
  let undo := fun (e : Extent) => if e.markBy = some w.w then { e with markBy := none } else e
  let s1 := s.updGroup w.g fun g =>
    { g with extents := (g.extents.filter fun e => decide (e.newBy ≠ some w.w)).map undo }
  let s2 := s1.withdraw fun v => decide (v = w)
  let s3 := if ((s2.warp? w).map Warp.reacquires).getD false then s2.acquire (s2.coreOf w) (s2.ctxNo w) 2 none else s2
  (s3.discardSlots w).updWarp w fun x =>
    let y := { x.dropLoads with span := [], formed := 0, bundle := none, mxrds := 0, meet := .none, txnLost := [], asked := [],
                                releasing := false, sealing := false }
    match y.handler with
    | some h => { y with handler := some { h with at_ := h.restart } }
    | none =>
      let fin := y.finished
      let z := { y with c := y.ctl.c, part := y.ctl.part }
      let z := z.updThreads allLanes fun L t =>
        t.discarded (y.ctl.th.toList.getD L ThRec.zero) (signedIn y.ctl.c L) fun n => inMask (sgetD y.broken n 0) L
      z.undeclare fin

end Sys2Proof.Machine
end

