-- ==== Sys2Proof/Machine/Ops.lean ====
section
/-! DEFINITION. The shared operations of issue: fetching code, forming bundles, parks, taking a fault and returning from
one (22_faults R383-R392), and the frame every coded instruction runs in. -/

namespace Sys2Proof.Machine

abbrev Out := Host.Outcome State Fault Refusal

/-- The step counter moves on. -/
def State.ticked (s : State) : State := { s with tick := s.tick + 1 }

/-! ### Taking a fault and returning from one -/

/-- RESUME forms that hardware sets in g56 (R387): bit 0 F, bit 1 S, bit 2 N. -/
def faultForms (f : FaultInfo) : BitVec 3 :=
  match f.code with
  | .illegal => if f.detail ∈ [1, 2, 3, 4, 5, 9, 10, 12, 13] then 0b100#3 else 0
  | .txnTimeout | .peerLost => if f.late then 0b100#3 else 0b111#3
  | .redundancy => 0b010#3
  | _ => 0b111#3

/-- The fault record g56 to g63 (R385, R386). -/
def faultRecord (f : FaultInfo) (pc next : DWord) (bundle : LaneMask) (seq : Word) (aqi : Nat) : List DWord :=
  [BitVec.ofNat 64 (f.code.num + (faultForms f).toNat * 2 ^ 16), pc, f.lanes.setWidth 64, BitVec.ofNat 64 f.addr,
   BitVec.ofNat 64 f.detail, bundle.setWidth 64, BitVec.ofNat 64 (seq.toNat + aqi * 2 ^ 32), next]

/-- Writes g56 to g63 from a list. -/
def Warp.setRecord (w : Warp) (r : List GReg) : Warp :=
  (List.range 8).foldl (fun x i => (x.setG (56 + i) (r.getD i GReg.zero)).fillG (56 + i)) w

def Warp.getRecord (w : Warp) : List GReg := (List.range 8).map fun i => w.greg (56 + i)

/-- Refused pages once the instruction of a bundle, or of the handler, is over: they concern other lanes only (R344). -/
def pagesFor (l : List PageFail) (handler : Bool) (lanes : LaneMask) : List PageFail :=
  (l.map fun e => if e.handler = handler then { e with lanes := e.lanes &&& ~~~lanes } else e).filter fun e => decide (e.lanes ≠ 0)

/-- A fault is taken (R383): in handler mode it kills the warp and aborts the group (R384); without a handler it aborts
the group and raises the fault interrupt (R388); otherwise g56-g63 go to the shadow, the record is written, the PC table
freezes and the warp continues at the handler header. -/
def State.enterFault (s : State) (w : WarpId) (at_ : Place) (next : DWord) (fall : Bool) (bundle : LaneMask) (f : FaultInfo) :
    State :=
  match s.warp? w, s.kernelOf w with
  | some x, some k =>
    let hv := (k.desc.map Desc.handler).getD 0
    if x.handler.isSome then s.abortWith w f.code.num at_.pc.toNat f.addr f.detail f.lanes false
    else if hv = 0 then s.abortWith w f.code.num at_.pc.toNat f.addr f.detail f.lanes true
    else
      let rec_ := (faultRecord f at_.pc next bundle k.seq k.aqi).map fun v => (⟨v, false⟩ : GReg)
      let h : Handler :=
        { at_ := ⟨hv, hv⟩, restart := ⟨hv, hv⟩, shadow := x.getRecord, forms := faultForms f, code := f.code.num,
          pc := at_, next := next, fall := fall, lanes := bundle, held := [] }
      let y := { x.setRecord rec_ with handler := some h, bundle := none, txnLost := [], asked := [], asks := [], releasing := false, sealing := false }
      s.setWarp w { y with pageFail := pagesFor x.pageFail false bundle }
  | _, _ => s

/-- Held events apply when the warp leaves handler mode (R384). -/
def State.applyHeld (s : State) (w : WarpId) : List Held → State
  | [] => s
  | .bar gang n broken :: r => (s.freeBarWarp w gang n broken).applyHeld w r
  | .wait id st v p d sc :: r => (s.deliverWait w id st v p d sc).applyHeld w r

/-- Leaving handler mode (R392): g56-g63 come back from the shadow, the PC table thaws, held events apply. -/
def State.leaveHandler (s : State) (w : WarpId) : State :=
  match (s.warp? w).bind (·.handler) with
  | none => s
  | some h =>
    let back := fun (x : Warp) => { x.setRecord h.shadow with handler := none, bundle := none, asks := [], pageFail := pagesFor x.pageFail true allLanes }
    ((s.updWarp w back).applyHeld w h.held).wakeWarp w

/-- The threads of g61 go on at a place (R392, F and N). -/
def State.resumeAt (s : State) (w : WarpId) (lanes : LaneMask) (p : Place) : State :=
  (s.leaveHandler w).updWarp w fun x => x.updThreads lanes fun _ t =>
    if t.st = .active then { t with at_ := p } else t

/-- The threads of g61 go on at g63 (R392): the following instruction of the same block, or a header. -/
def nextPlace (h : Handler) : Place := ⟨h.next, if h.fall then h.next else h.pc.hdr⟩

/-! ### Code -/

def alignUp8 (a : DWord) : DWord := (a + 7) &&& ~~~7#64

/-- What fetching a parcel finds: the parcel with its poison, a fault of translation, a park, a hold, a context error. -/
inductive Fetched where
  | ok (p : Parcel) (psn : Bool)
  | fault (code : FaultCode) (detail : Nat)
  | page
  | cold (tier : Nat)
  | hold
  | ctxErr
deriving DecidableEq, Repr

def codeKey (ctx va : Nat) : Nat := ctx * 2 ^ 57 + va

/-- Fetches one parcel through GEN translation with X, or from a copy the core may keep (R421). -/
def State.fetchParcel (s : State) (core ctx va : Nat) (pageFail : List Nat) : Fetched :=
  let kept := match sget? (s.core core).code (codeKey ctx va) with
    | none => none
    | some c => if Config.icopyKept s.tick va then some c else none
  match kept with
  | some (p, b) => .ok p b
  | none =>
    match s.find core ctx va .ft pageFail with
    | .ok x =>
      .ok (BitVec.ofNat 32 (s.mem.nat x.pa 4)) (s.cohMark (x.pa / 4)).isSome
    | .fault c d => .fault c d
    | .page => .page
    | .cold t => .cold t
    | .hold => .hold
    | .ctxErr => .ctxErr

/-- A fetch from a tier page abandons its eviction (R345); one from the host obtains a shared copy (R418). -/
def State.fetchTouch (s : State) (core ctx va : Nat) : State :=
  match s.tier, s.homes with
  | [], [] => s
  | _, _ =>
    match s.translate core ctx va 0 with
    | .ok x => (s.touchTier x.pa).shareHost (lineOf x.pa)
    | _ => s

/-- Keeps a copy of a fetched parcel (R421). -/
def State.keepCode (s : State) (core ctx va : Nat) (p : Parcel) (psn : Bool) : State :=
  let t := s.fetchTouch core ctx va
  let c := t.core core
  t.setCore core { c with code := sset c.code (codeKey ctx va) (p, psn) }

/-- Fields of a header (R46). -/
def hdrLen (w : DWord) : Nat := (bitsAt w 46 10).toNat
def hdrLive (w : DWord) : Nat := (bitsAt w 35 11).toNat
def hdrSe (w : DWord) : Bool := w.getLsbD 16
def hdrLp (w : DWord) : Bool := w.getLsbD 15

/-- A line of an access of the presented instruction whose request timed out (R359). -/
def Warp.txnOf (w : Warp) (lines : List Nat) : Option Nat :=
  match w.txnLost with
  | [] => none
  | l => lines.find? fun n => decide (n ∈ l)

/-- Whether a round past its commit point holds an access that reads lines of other packages, at an instruction that has sent no
request yet (R374). -/
def State.roundBars (s : State) (wid : WarpId) (w : Warp) (lines : List Nat) : Bool :=
  s.roundFor wid && w.asked.isEmpty && lines.any fun n => s.remote (128 * n)

/-- What stops a fetch before it is made: a request that timed out, or a round that holds it (R359, R374). -/
def State.fetchBar (s : State) (wid : WarpId) (w : Warp) (core ctx va : Nat) : Option (Option Nat) :=
  match w.txnOf (s.walkLines core ctx va ++ s.lineAt core ctx va) with
  | some n => some (some n)
  | none => if s.roundBars wid w (s.walkLines core ctx va ++ s.lineAt core ctx va) then some none else none

/-- A header as fetched, or that none stands there, with the poison of the parcel that does. -/
inductive Header where
  | ok (w : DWord) (psn : Bool)
  | no (psn : Bool)
  | stop (f : Fetched)
deriving DecidableEq, Repr

/-- Fetches the header at an address: aligned to 8, first parcel 0x7F (R43, R44). A parcel whose bits 31:24 are 0xFF is no
header (notes/assumptions/65). -/
def State.fetchHeader (s : State) (core ctx va : Nat) (pageFail : List Nat) : Header :=
  match s.fetchParcel core ctx va pageFail with
  | .ok p b =>
    if va % 8 ≠ 0 || bitsAt p 24 8 ≠ 0x7F#8 then .no b
    else
      match s.fetchParcel core ctx (va + 4) pageFail with
      | .ok q c => .ok (p ++ q) (b || c)
      | f => .stop f
  | f => .stop f

/-! ### The issuing bundle -/

/-- What an instruction knows of its issue: the warp, the bundle's lanes, its own place and size in bytes, the
fall-through header (R44), and whether it is last in its block. -/
structure Iss where
  wid : WarpId
  lanes : LaneMask
  at_ : Place
  size : Nat
  fall : Place
  last : Bool
  handler : Bool
  core : Nat
  ctx : Nat
deriving DecidableEq, Repr

def blockEnd (hdr : DWord) (len : Nat) : DWord := hdr + BitVec.ofNat 64 (8 + 4 * len)
def fallOf (hdr : DWord) (len : Nat) : DWord := alignUp8 (blockEnd hdr len)

def mkIss (s : State) (w : WarpId) (x : Warp) (b : Bundle) (size : Nat) : Iss :=
  let f := fallOf b.at_.hdr b.len
  { wid := w, lanes := b.mask, at_ := b.at_, size := size, fall := ⟨f, f⟩,
    last := decide (b.at_.pc + BitVec.ofNat 64 size = blockEnd b.at_.hdr b.len), handler := x.handler.isSome,
    core := s.coreOf w, ctx := s.ctxNo w }

/-- The address of the following instruction, or the fall-through header after the last (R386, g63). -/
def Iss.next (i : Iss) : DWord := if i.last then i.fall.pc else i.at_.pc + BitVec.ofNat 64 i.size

/-- The place of the following instruction, or the fall-through header after the last. -/
def Iss.after (i : Iss) : Place := if i.last then i.fall else ⟨i.next, i.at_.hdr⟩

/-- Members of the bundle go to their places and the bundle ends (R136); in handler mode the handler goes to the place of
lane 0 (R384). -/
def State.endBundle (s : State) (i : Iss) (onto : Nat → Place) : State :=
  s.updWarp i.wid fun x =>
    match x.handler with
    | some h => { x with bundle := none, handler := some { h with at_ := onto 0 } }
    | none => { x.updThreads i.lanes (fun L t => { t with at_ := onto L }) with bundle := none }

/-- The bundle ends and every member continues at the fall-through header. -/
def State.fallThrough (s : State) (i : Iss) : State := s.endBundle i fun _ => i.fall

/-- After an instruction that does not end its block: the bundle moves past it, or ends where LEN runs out (R136). A
bundle that its instruction has already ended (a park of every member) stays ended. -/
def State.advance (s : State) (i : Iss) : State :=
  match (s.warp? i.wid).bind (·.bundle) with
  | none => s
  | some b =>
    if i.last then s.endBundle { i with lanes := b.mask } fun _ => i.fall
    else
      let p : Place := ⟨i.next, i.at_.hdr⟩
      s.updWarp i.wid fun x =>
        match x.handler with
        | some _ => { x with bundle := some { b with at_ := p } }
        | none => { x.updThreads b.mask (fun _ t => { t with at_ := p }) with bundle := some { b with at_ := p } }

/-- A page request of a sector (12 the hub die) on the link and with the PASID of an AQI, unless the same one is out (R344,
notes/assumptions/81): its name. -/
def State.requestPage (s : State) (sector aqi ctx pg : Nat) (need : BitVec 3) : Nat × State :=
  match s.pageReqs.find? fun q => decide (q.ctx = ctx) && decide (q.aqi = aqi) && decide (q.sector = sector) && decide (q.page = pg) &&
      decide (q.need = need) with
  | some q => (q.id, s)
  | none =>
    let a := s.aqiOf aqi
    let (id, t) := s.fresh
    (id, ({ t with pageReqs := t.pageReqs ++ [(⟨id, ctx, aqi, sector, pg, need⟩ : PageReq)] }).say (.pageRequest a.link a.pasid (pg * 4096) need))

/-- Page requests for distinct pages: their names (R344). -/
def State.requestPages (s : State) (sector aqi ctx : Nat) : List (Nat × BitVec 3) → List Nat × State
  | [] => ([], s)
  | (pg, need) :: r =>
    let (id, t) := s.requestPage sector aqi ctx pg need
    let (ids, u) := t.requestPages sector aqi ctx r
    (id :: ids, u)

/-- Fills start for Cold tier pages (R345). -/
def State.startFills (s : State) : List Nat → State
  | [] => s
  | t :: r => (s.startFill t).startFills r

/-- A walk that finds no page, or a page that refuses the access, has read its tables: their evictions are abandoned (R345). -/
def State.touchPages (s : State) (core ctx : Nat) (pages : List (Nat × BitVec 3)) : State :=
  match s.tier with
  | [] => s
  | _ => pages.foldl (fun t e => t.touchWalk core ctx (4096 * e.1)) s
def State.touchRefused (s : State) (core ctx : Nat) (f : FaultInfo) : State :=
  match s.tier, f.code with
  | [], _ => s
  | _, .xlate | _, .firewall => s.touchWalk core ctx f.addr
  | _, .permission => if 8 ≤ f.detail then s.touchWalk core ctx f.addr else s
  | _, _ => s

/-- The bundle parks (R134); in handler mode it holds issue instead, with the page requests it waits for (R384). -/
def State.parkBundle (s : State) (i : Iss) (onto : ThSt) : State :=
  if i.handler then
    match onto with
    | .page ids => s.updWarp i.wid fun x => { x with asks := ids }
    | _ => s
  else s.updWarp i.wid fun x => { x.updThreads i.lanes (fun _ t => { t with st := onto }) with bundle := none }

/-- Pages whose request some lane of a bundle, or the handler, was refused (R344, R384). -/
def Warp.refused (x : Warp) (lanes : LaneMask) : List Nat :=
  (x.pageFail.filter fun e => decide (e.handler = x.handler.isSome) && decide (e.lanes &&& lanes ≠ 0)).map PageFail.page

/-- What becomes of a bundle that stops short: held, parked or in a context error it leaves the slot to other warps; a fault is
charged with a leaf and taken. -/
def stopWith (leaf : Nat) (i : Iss) : Stop → State
  | .hold s leaf => { s with blocked := some (i.wid, i.at_.pc, leaf) }
  | .park s onto pages tiers =>
    let aqi := ((s.kernelOf i.wid).map Kernel.aqi).getD 0
    let (ids, t) := (s.touchPages i.core i.ctx pages).requestPages (sectorOf i.core) aqi i.ctx pages
    let onto := match onto with
      | .page _ => ThSt.page (ids ++ tiers.map fun n => 2 ^ 60 + n)
      | o => o
    let leaf := match onto with
      | .spm _ _ => 4
      | .bar _ _ _ => 5
      | .conv _ => 6
      | _ => if tiers.isEmpty then 10 else 9
    { (t.startFills tiers).parkBundle i onto with blocked := some (i.wid, i.at_.pc, leaf) }
  | .fault s f => ((s.touchRefused i.core i.ctx f).charge i.wid i.at_.pc leaf).enterFault i.wid i.at_ i.next i.last i.lanes f
  | .ctxErr s => { s.raiseCtxErr i.ctx .walkPoison with blocked := some (i.wid, i.at_.pc, 10) }

/-- What becomes of an instruction that stops short of its effect; one that faults has issued (R397). -/
def finishStop (i : Iss) (e : Stop) : State := stopWith 0 i e

/-- Whether anything stands of an instruction that has been presented before. -/
def Warp.fresh (x : Warp) : Bool := x.pageFail.isEmpty && x.asked.isEmpty && x.txnLost.isEmpty && x.asks.isEmpty && !x.releasing && !x.sealing

/-- The instruction of a bundle is over: a refused page request concerned its lanes' presentation (R344), its remote requests
have been answered (R359), its commit step has ended (R166). -/
def Warp.settled (x : Warp) (handler : Bool) (lanes : LaneMask) : Warp :=
  { x with pageFail := pagesFor x.pageFail handler lanes, asked := [], txnLost := [], asks := [], releasing := false, sealing := false }

def State.settleWarp (s : State) (i : Iss) : State :=
  if ((s.warp? i.wid).map Warp.fresh).getD true then s else s.updWarp i.wid fun x => x.settled i.handler i.lanes

/-- A fault of the issuing instruction. -/
def stopFault {α : Type} (s : State) (code : FaultCode) (lanes : LaneMask) (addr detail : Nat) : Except Stop α :=
  .error (.fault s ⟨code, lanes, addr, detail, false⟩)

/-- A warp whose instruction is presented: its ready age starts anew (R139); one that has committed stays so (R398). -/
def Warp.presented (x : Warp) : Warp := { x with age := 0, ended := x.releasing && x.ended }

/-- The frame of a coded instruction: the issuing warp and its bundle, the body, and what follows. `ends` says that the
body itself has placed the members (a block-ending instruction). -/
def issue (s : State) (size : Nat) (ends : Bool) (body : State → Iss → Except Stop State) : Out :=
  match s.cur with
  | none => .fault .noIssuingWarp
  | some w =>
    match s.warp? w with
    | none => .fault .noIssuingWarp
    | some x =>
      match x.bundle with
      | none => .fault .noIssuingWarp
      | some b =>
        let i := mkIss s w x b size
        let s := s.updWarp w Warp.presented
        -- a second pipeline error before a commit is raised by the instruction that consumes the value (R168)
        let r := if x.pipeFault ≠ 0 then
            stopFault (s.updWarp w fun y => { y with pipeFault := 0 }) .poison x.pipeFault 0 1
          else body s i
        match r with
        | .ok t => .next (((if ends then t else t.advance i).settleWarp i).charge w i.at_.pc 0).ticked
        | .error e => .next (finishStop i e).ticked

/-- Bytes of a unit: 12 with a prefix, else 8 (R43). -/
def unitSize (p : Option Prefix) : Nat := if p.isSome then 12 else 8

/-- An event of an agent always gives a next state. -/
def event (s : State) : Out := .next s.ticked

def illegal {α : Type} (s : State) (i : Iss) (detail : Nat) : Except Stop α :=
  stopFault s .illegal i.lanes i.at_.pc.toNat detail

/-- ILLEGAL with detail 3 in handler mode, where R384 forbids the instruction: judged after the details of R65, a lower one of
which is reported first (notes/assumptions/64). -/
def notInHandler (s : State) (i : Iss) : Except Stop Unit := if i.handler then illegal s i 3 else .ok ()

/-! ### Forming bundles (R135, R136, R160, R163) -/

/-- The head of the PC table: Active threads at the smallest PC (R135), with the block of the lowest lane. -/
def Warp.head (w : Warp) : Option (LaneMask × Place) :=
  let act := (lanesOf w.active).map fun L => (L, (w.thread L).at_)
  let least := act.foldl (fun (m : Option Place) e =>
    match m with
    | none => some e.2
    | some p => if e.2.pc.toNat < p.pc.toNat then some e.2 else some p) none
  least.map fun p => (maskOfList ((act.filter fun e => decide (e.2 = p)).map (·.1)), p)

/-- The place where the warp's next bundle forms: the head, or the handler (R384). -/
def Warp.nextHead (w : Warp) : Option (LaneMask × Place) :=
  match w.handler with
  | some h => some (allLanes, h.at_)
  | none => w.head

/-- The warp enters a block or goes on inside one. At a header the block's own checks of R46 and R65 run, SE = 1 commits
(R160), and 1,024 bundles since the last commit force one (R163). A poisoned parcel raises POISON before any ILLEGAL (R67 step
1, R389). Where a kernel's entry VA holds no header the detail is 14 (notes/assumptions/63). -/
def State.enter (s : State) (w : WarpId) (x : Warp) (m : LaneMask) (p : Place) : Except Stop State :=
  let core := s.coreOf w
  let ctx := s.ctxNo w
  let set := fun (t : State) (at_ : Place) (h : DWord) => t.updWarp w fun y =>
    { y with bundle := some ⟨m, at_, hdrLen h, hdrLp h⟩, formed := y.formed + 1 }
  let redundant := ((s.group? w.g).bind (·.other)).isSome
  let force := decide (1024 ≤ x.formed) && !redundant
  match s.fetchBar w x core ctx p.hdr.toNat with
  | some (some n) => stopFault s .txnTimeout m p.hdr.toNat (s.homeOf (128 * n))
  | some none => .error (.hold s 2)
  | none =>
  match s.fetchHeader core ctx p.hdr.toNat (x.refused m) with
  | .no psn =>
    if psn then stopFault s .poison m p.pc.toNat 0 else stopFault s .illegal m p.hdr.toNat (if x.handler.isSome then 8 else 14)
  | .stop (.fault c d) => stopFault s c m p.hdr.toNat d
  | .stop .page => .error (.park s (.page [p.hdr.toNat / 4096]) [(p.hdr.toNat / 4096, 0b100#3)] [])
  | .stop (.cold t) => .error (.park s (.page [2 ^ 60 + t]) [] [t])
  | .stop .ctxErr => .error (.ctxErr s)
  | .stop _ => .error (.hold (s.recallWarp w (s.awayLines core ctx p.hdr.toNat)) 2)
  | .ok h psn =>
    let s := (s.keepCode core ctx p.hdr.toNat (bitsAt h 32 32) psn).keepCode core ctx (p.hdr.toNat + 4) (bitsAt h 0 32) psn
    if psn then stopFault s .poison m p.pc.toNat 0
    else if p.pc ≠ p.hdr then
      -- a resume point inside a block
      if force then
        match s.commit w m p [] with
        | .error e => .error e
        | .ok t => .ok (set t p h)
      else .ok (set s p h)
    else if bitsAt h 0 15 ≠ 0#15 then stopFault s .illegal m p.hdr.toNat 3
    else if hdrLen h = 0 then stopFault s .illegal m p.hdr.toNat 14
    else if hdrSe h || force then
      match s.commit w m p [] with
      | .error e => .error e
      | .ok t => .ok (set t ⟨p.hdr + 8, p.hdr⟩ h)
    else .ok (set s ⟨p.hdr + 8, p.hdr⟩ h)

end Sys2Proof.Machine
end

