-- ==== Sys2Proof/Machine/Operands.lean ====
section
/-! DEFINITION. Operand forms (03_encoding R48, R53, R56-R60, R69, R70): resolving fields, predicates, waiting for full
registers, reading sources, writing destinations, effective addresses; the checks of R67 steps 2 to 5. -/

namespace Sys2Proof.Machine

/-! ### Predicates (R48, R69) -/

/-- Lanes of the bundle whose predicate is true, and lanes of the bundle whose predicate bit is poisoned. -/
structure Pred where
  act : LaneMask
  psn : LaneMask
deriving DecidableEq, Repr

/-- The predicate register of a unit: K4 under a prefix, else K (R48). -/
def predNum (p : Option Prefix) (k : BitVec 3) : Nat :=
  match p with
  | none => k.toNat
  | some q => q.k4.toNat

def predOf (w : Warp) (lanes : LaneMask) (p : Option Prefix) (k : BitVec 3) (kn : Bool) : Pred :=
  let r := w.kreg (predNum p k)
  ⟨lanes &&& (if kn then ~~~r.m else r.m), lanes &&& r.p⟩

/-- POISON for lanes of the bundle whose predicate is poisoned (R176, R389). -/
def predPoison (s : State) (p : Pred) : Except Stop Unit :=
  if p.psn ≠ 0 then stopFault s .poison p.psn 0 0 else .ok ()

/-! ### Resolved fields -/

/-- What a field names once resolved: `n` vector registers from `r`, a g register read at 64 or 32 bits, a k register. -/
inductive Rs where
  | none
  | v (r n : Nat)
  | g (r : Nat) (wide : Bool)
  | k (r : Nat)
deriving DecidableEq, Repr

/-- The registers of D. -/
def Rs.regs : Rs → List Nat
  | .v r n => (List.range n).map (r + ·)
  | _ => []

/-- The index register added to a field under the prefix (R59). -/
def ixOf (w : Warp) (p : Option Prefix) (x : Ixs) : Option Nat :=
  match p with
  | none => none
  | some q => if q.ixs = x then some (vget w.x q.ixr.toNat 0).toNat else none

/-- Resolves `n` vector registers at a field (R56, Reg of R69); an error is the register number reached (R387). -/
def regV (allot n : Nat) (pair : Bool) (fld : Nat) (ix : Option Nat) : Except Nat Nat :=
  let r := fld + ix.getD 0
  if allot ≤ r then .error r
  else if pair && decide (r % 2 = 1) then .error r
  else if allot < r + n then .error allot
  else .ok r

/-- A field of format V, I or L as its description says; `uni` for the uniform form (R58). -/
def resolve (allot : Nat) (uni : Bool) (o : Opd) (fld : BitVec 8) (kbit : Bool) (ix : Option Nat) : Except Nat Rs :=
  match o with
  | .none => .ok .none
  | .num _ => .ok .none
  | .vg n pair =>
    if uni || kbit then .ok (.g fld.toNat pair) else (regV allot n pair fld.toNat ix).map fun r => .v r n
  | .v n pair => if uni then .ok (.g fld.toNat pair) else (regV allot n pair fld.toNat ix).map fun r => .v r n
  | .gk => .ok (.g fld.toNat true)
  | .g => .ok (.g fld.toNat true)
  | .k => .ok (.k fld.toNat)

/-- The first error of a list of resolutions: direct fields before the indirect one (R67 step 2). -/
def boundError (l : List (Bool × Except Nat Rs)) : Option Nat :=
  let bad := fun (ind : Bool) => l.findSome? fun e =>
    if e.1 = ind then
      match e.2 with
      | .error r => some r
      | .ok _ => none
    else none
  match bad false with
  | some r => some r
  | none => bad true

def okRs (e : Except Nat Rs) : Rs :=
  match e with
  | .ok r => r
  | .error _ => .none

/-- The first empty register of an operand: its number, and whether it is a g register (R140). -/
def Rs.empty? (w : Warp) (r : Rs) : Option (Nat × Bool) :=
  match r with
  | .v r n => ((List.range n).find? fun j => !w.vFull (r + j)).map fun j => (r + j, false)
  | .g r _ => if w.gFull r then Option.none else some (r, true)
  | _ => Option.none

/-- Operands in order, each with its E bit: the first empty one blocks, or raises REG_EMPTY (R67 step 4). -/
def waitFull (s : State) (w : Warp) (act : LaneMask) : List (Rs × Bool) → Except Stop Unit
  | [] => .ok ()
  | (r, e) :: rest =>
    match r.empty? w with
    | none => waitFull s w act rest
    | some (n, g) =>
      if e then stopFault s .regEmpty act 0 (n % 256 + if g then 256 else 0) else .error (.hold s 3)

/-- E bit of a source: 2 for SA, 1 for SB, 0 for SC (R59). -/
def eBit (p : Option Prefix) (b : Nat) : Bool :=
  match p with
  | none => false
  | some q => q.e.getLsbD b

/-- One lane of an operand: 32 bits zero-extended, a pair as 64 bits, a k register's bit; with its poison (R57, R69). -/
def Rs.read (w : Warp) (r : Rs) (L : Nat) : DWord × Bool :=
  match r with
  | .none => (0, false)
  | .v r 1 => ((w.lane r L).v.setWidth 64, (w.lane r L).p)
  | .v r _ => ((w.lane (r + 1) L).v ++ (w.lane r L).v, (w.lane r L).p || (w.lane (r + 1) L).p)
  | .g r true => ((w.greg r).v, (w.greg r).p)
  | .g r false => (((w.greg r).v.setWidth 32).setWidth 64, (w.greg r).p)
  | .k r => (if inMask (w.kreg r).m L then 1 else 0, inMask (w.kreg r).p L)

/-- Unit `t` of a run in one lane (R213): a register, or a pair; a g register supplies every unit. -/
def Rs.unit (w : Warp) (r : Rs) (pair : Bool) (t L : Nat) : DWord × Bool :=
  match r with
  | .v r _ => if pair then (Rs.v (r + 2 * t) 2).read w L else (Rs.v (r + t) 1).read w L
  | x => x.read w L

/-- Registers of the warp's allotment. -/
def State.allotOf (s : State) (w : WarpId) : Nat := ((s.descOf w).map Desc.allot).getD 0

/-! ### Whole-warp issue (R144) -/

def wholeWarp (i : Iss) (w : Warp) (act : LaneMask) : Bool :=
  decide (act = allLanes) &&
    (i.handler || (decide (i.lanes = allLanes) && decide (w.finished = 0) && decide (w.part = 32#6)))

def checkWhole (s : State) (i : Iss) (w : Warp) (act : LaneMask) : Except Stop Unit :=
  if wholeWarp i w act then .ok () else stopFault s .partialMask i.lanes 0 0

/-! ### Vector and uniform instructions (formats V, I, L) -/

/-- A vector instruction ready to run: its operands resolved and full. -/
structure Vx where
  w : Warp
  lanes : LaneMask
  act : LaneMask
  z : Bool
  rm : Rnd
  ty : Ty
  d : Rs
  a : Rs
  b : Rs
  c : Rs

/-- Formats I and L as format V with their unused fields zero. -/
def iToV (f : FmtI) : FmtV :=
  { pfx := f.pfx, a := f.a, ty := f.ty, k := f.k, kn := f.kn, d := f.d, sa := f.sa, sb := 0, sc := 0, sbk := false,
    sak := false }
def lToV (f : FmtL) : FmtV :=
  { pfx := f.pfx, a := f.a, ty := f.ty, k := f.k, kn := f.kn, d := f.d, sa := 0, sb := 0, sc := 0, sbk := false,
    sak := false }

def pfxZ (p : Option Prefix) : Bool := (p.map Prefix.z).getD false
def pfxRm (p : Option Prefix) : Rnd := (p.map Prefix.rm).getD .rne

/-- The operands of an instruction, resolved: D, SA, SB, SC. -/
def vecOpds (allot : Nat) (w : Warp) (uni : Bool) (q : VSpec) (f : FmtV) : List (Bool × Except Nat Rs) :=
  let one := fun (o : Opd) (fld : BitVec 8) (kbit : Bool) (x : Ixs) =>
    let ix := ixOf w f.pfx x
    (ix.isSome && decide (x ≠ .none), resolve allot uni o fld kbit ix)
  [one q.d f.d false .d, one q.a f.sa f.sak .sa, one q.b f.sb f.sbk .sb, (false, resolve allot uni q.c f.sc false none)]

/-- Steps 2 to 5 of R67: bounds, whole-warp shape where asked, full sources and destination, predicate poison. `q` is the
description of the vector form, `uni` the uniform form of it. A poisoned predicate bit is reported before any poisoned input bit
(notes/assumptions/98); bounds and empty registers record the lanes whose predicate bit is true (notes/assumptions/99). -/
def vecPrep (s : State) (i : Iss) (w : Warp) (uni whole : Bool) (q : VSpec) (f : FmtV) : Except Stop Vx :=
  let pr := predOf w i.lanes f.pfx f.k f.kn
  let ops := vecOpds (s.allotOf i.wid) w uni q f
  match boundError ops with
  | some r => stopFault s .vregBound pr.act 0 r
  | none =>
    let x : Vx :=
      { w := w, lanes := i.lanes, act := pr.act, z := pfxZ f.pfx, rm := pfxRm f.pfx, ty := f.ty,
        d := okRs ((ops.getD 0 (false, .ok .none)).2), a := okRs ((ops.getD 1 (false, .ok .none)).2),
        b := okRs ((ops.getD 2 (false, .ok .none)).2), c := okRs ((ops.getD 3 (false, .ok .none)).2) }
    match (if whole then checkWhole s i w pr.act else .ok ()) with
    | .error e => .error e
    | .ok _ =>
      match waitFull s w pr.act [(x.a, eBit f.pfx 2), (x.b, eBit f.pfx 1), (x.c, eBit f.pfx 0), (x.d, false)] with
      | .error e => .error e
      | .ok _ =>
        match predPoison s pr with
        | .error e => .error e
        | .ok _ => .ok x

/-- New value of one register of D: `part` picks the word of the lane results (R70). -/
def Vx.reg (x : Vx) (n : Nat) (res : Lanes (DWord × Bool)) (part : DWord → Word) : Lanes Lane :=
  let old := x.w.vreg n
  Vector.ofFn fun L =>
    if inMask x.act L.val then ⟨part res[L].1, res[L].2⟩
    else if x.z && inMask x.lanes L.val then Lane.zero
    else old[L]

def loWord (v : DWord) : Word := v.setWidth 32
def hiWord (v : DWord) : Word := (v >>> 32).setWidth 32

/-- The value a uniform form writes (R58, R178): all 64 bits of a pair, else bits 31:0 with the sign for .i32. -/
def uniValue (ty : Ty) (wide : Bool) (v : DWord) : DWord :=
  if wide then v else if ty = .i32 then (v.setWidth 32).signExtend 64 else (v.setWidth 32).setWidth 64

/-- VectorBody (R70) over lane results; a uniform form executes once, as lane 0. -/
def Vx.write (x : Vx) (f : Nat → DWord × Bool) : Warp :=
  match x.d with
  | .v r 1 => let res := mkLanes f; x.w.setV r (x.reg r res loWord)
  | .v r _ => let res := mkLanes f; (x.w.setV r (x.reg r res loWord)).setV (r + 1) (x.reg (r + 1) res hiWord)
  | .g r wide => x.w.setG r ⟨uniValue x.ty wide (f 0).1, (f 0).2⟩
  | _ => x.w

/-- Writes the bits of the bundle's lanes in a k register (R183): a result bit and its poison. -/
def Vx.writeK (x : Vx) (f : Nat → Bool × Bool) : Warp :=
  match x.d with
  | .k r =>
    let old := x.w.kreg r
    let pick := fun (get : Bool × Bool → Bool) (o : LaneMask) => maskOf fun L =>
      if inMask x.act L then get (f L) else if x.z && inMask x.lanes L then false else inMask o L
    x.w.setK r ⟨pick Prod.fst old.m, pick Prod.snd old.p⟩
  | _ => x.w

/-- Sources of one lane with the OR of their poison (R175). -/
def Vx.srcs (x : Vx) (L : Nat) : DWord × DWord × DWord × Bool :=
  let a := x.a.read x.w L
  let b := x.b.read x.w L
  let c := x.c.read x.w L
  (a.1, b.1, c.1, a.2 || b.2 || c.2)

/-- The frame of a vector or uniform instruction: `run` gives the warp after it. -/
def vecFrame (s : State) (f : FmtV) (q : VSpec) (uni : Bool)
    (run : State → Iss → Vx → Except Stop Warp) : Out :=
  issue s (unitSize f.pfx) false fun s i =>
    match s.warp? i.wid with
    | none => .ok s
    | some w =>
      match vecPrep s i w uni false q f with
      | .error e => .error e
      | .ok x =>
        match run s i x with
        | .error e => .error e
        | .ok y => .ok (s.setWarp i.wid y)

/-- A vector instruction whose lane function works on the three sources and carries the OR of their poison (R175). -/
def alu (s : State) (f : FmtV) (q : VSpec) (fn : DWord → DWord → DWord → DWord) : Out :=
  vecFrame s f q false fun _ _ x => .ok (x.write fun L => let (a, b, c, p) := x.srcs L; (fn a b c, p))

/-- The uniform form of an instruction, from the description of its vector form (R58, R178). -/
def aluUni (s : State) (f : FmtV) (q : VSpec) (fn : DWord → DWord → DWord → DWord) : Out :=
  vecFrame s f q true fun _ _ x => .ok (x.write fun L => let (a, b, c, p) := x.srcs L; (fn a b c, p))

/-! ### System instructions (format S) -/

/-- g sources wait, then g destinations wait, then a poisoned source raises POISON (R67, R389). -/
def sysRegs (s : State) (i : Iss) (w : Warp) (srcs dsts : List Nat) : Except Stop Unit :=
  if (srcs ++ dsts).any fun r => !w.gFull r then .error (.hold s 3)
  else if srcs.any fun r => (w.greg r).p then stopFault s .poison i.lanes 0 0
  else .ok ()

/-- The four registers gA to gA+3. -/
def fourOf (r : BitVec 8) : List Nat := [r.toNat, r.toNat + 1, r.toNat + 2, r.toNat + 3]

def Warp.gv (w : Warp) (r : BitVec 8) : DWord := (w.greg r.toNat).v

/-- The frame of a system instruction whose operands are g registers. -/
def sysFrame (s : State) (ends : Bool) (srcs dsts : List Nat) (run : State → Iss → Warp → Except Stop State) : Out :=
  issue s 8 ends fun s i =>
    match s.warp? i.wid with
    | none => .ok s
    | some w =>
      match sysRegs s i w srcs dsts with
      | .error e => .error e
      | .ok _ => run s i w

/-- As `sysFrame`, for an instruction that handler mode forbids (R384). -/
def sysFrameOut (s : State) (ends : Bool) (srcs dsts : List Nat) (run : State → Iss → Warp → Except Stop State) : Out :=
  issue s 8 ends fun s i =>
    match notInHandler s i with
    | .error e => .error e
    | .ok _ =>
      match s.warp? i.wid with
      | none => .ok s
      | some w =>
        match sysRegs s i w srcs dsts with
        | .error e => .error e
        | .ok _ => run s i w

/-- Writes a g register, full and unpoisoned. -/
def State.putG (s : State) (w : WarpId) (r : Nat) (v : DWord) : State := s.updWarp w fun x => (x.setG r ⟨v, false⟩).fillG r

/-! ### Memory instructions (format M) -/

/-- A memory instruction ready to run. -/
structure Mx where
  w : Warp
  lanes : LaneMask
  act : LaneMask
  z : Bool
  d : Rs
  base : Rs
  ofs : Rs
  sd : Rs
  off : DWord

def resolveM (allot : Nat) (o : MOpd) (fld : BitVec 8) (ix : Option Nat) : Except Nat Rs :=
  match o with
  | .none => .ok .none
  | .gEven => .ok (.g fld.toNat true)
  | .v n align =>
    match regV allot n false fld.toNat ix with
    | .error r => .error r
    | .ok r => if r % align = 0 then .ok (.v r n) else .error r

/-- D, SA, SB, SD of format M (R53, R56). -/
def memOpds (allot : Nat) (w : Warp) (q : MSpec) (f : FmtM) : List (Bool × Except Nat Rs) :=
  let ixd := ixOf w f.pfx .d
  let ixa := ixOf w f.pfx .sa
  let ixb := ixOf w f.pfx .sb
  [(ixd.isSome, resolveM allot q.d f.d ixd),
   (ixa.isSome, if f.sak then (regV allot 2 true f.sa.toNat ixa).map (fun r => .v r 2) else .ok (.g f.sa.toNat true)),
   (ixb.isSome, if f.nb then .ok .none else if q.ldt then .ok (.g f.sb.toNat true)
      else (regV allot 1 false f.sb.toNat ixb).map (fun r => .v r 1)),
   (false, resolveM allot q.sd ((f.pfx.map Prefix.sd).getD 0) none)]

/-- EffectiveAddress of R53, modulo 2^64. -/
def Mx.addr (x : Mx) (L : Nat) : DWord :=
  let b := (x.base.read x.w L).1
  match x.ofs with
  | .none => b + x.off
  | r => b + ((r.read x.w L).1.setWidth 32).signExtend 64 + x.off

/-- Poison of a lane's address. -/
def Mx.addrPsn (x : Mx) (L : Nat) : Bool := (x.base.read x.w L).2 || (x.ofs.read x.w L).2

def Mx.addrPsnMask (x : Mx) : LaneMask := maskOf fun L => inMask x.act L && x.addrPsn L

/-- The registers of D behind the one that `resolveM` names: a g pair's second (R140). -/
def dPair (q : MSpec) (f : FmtM) : List (Rs × Bool) :=
  match q.d with
  | .gEven => [(.g (f.d.toNat + 1) true, false)]
  | _ => []

/-- Steps 2 to 5 of R67 for a memory instruction, without the poison of its addresses: bounds, shape, full registers, poison of
the predicate. -/
def memOps (s : State) (i : Iss) (w : Warp) (whole : Bool) (q : MSpec) (f : FmtM) : Except Stop Mx :=
  let pr := predOf w i.lanes f.pfx f.k f.kn
  let ops := memOpds (s.allotOf i.wid) w q f
  match boundError ops with
  | some r => stopFault s .vregBound pr.act 0 r
  | none =>
    let x : Mx :=
      { w := w, lanes := i.lanes, act := pr.act, z := pfxZ f.pfx, d := okRs ((ops.getD 0 (false, .ok .none)).2),
        base := okRs ((ops.getD 1 (false, .ok .none)).2), ofs := okRs ((ops.getD 2 (false, .ok .none)).2),
        sd := okRs ((ops.getD 3 (false, .ok .none)).2), off := f.off.signExtend 64 }
    match (if whole then checkWhole s i w pr.act else .ok ()) with
    | .error e => .error e
    | .ok _ =>
      match waitFull s w pr.act ([(x.base, eBit f.pfx 2), (x.ofs, eBit f.pfx 1), (x.sd, false), (x.d, false)] ++ dPair q f) with
      | .error e => .error e
      | .ok _ =>
        match predPoison s pr with
        | .error e => .error e
        | .ok _ => .ok x

/-- Steps 2 to 5 of R67 for a memory instruction. -/
def memPrep (s : State) (i : Iss) (w : Warp) (whole : Bool) (q : MSpec) (f : FmtM) : Except Stop Mx :=
  match memOps s i w whole q f with
  | .error e => .error e
  | .ok x => if x.addrPsnMask ≠ 0 then stopFault s .poison x.addrPsnMask 0 0 else .ok x

/-- The frame of a memory instruction. -/
def memFrame (s : State) (f : FmtM) (q : MSpec) (whole ends : Bool) (run : State → Iss → Mx → Except Stop State) : Out :=
  issue s (unitSize f.pfx) ends fun s i =>
    match s.warp? i.wid with
    | none => .ok s
    | some w =>
      match memPrep s i w whole q f with
      | .error e => .error e
      | .ok x => run s i x

end Sys2Proof.Machine
end

