-- ==== Sys2Proof/Machine/Flags.lean ====
section
/-! DEFINITION. Flag computations: FSTAT (R36, R37), AMAX and AMAXNAN (R38, R157), element layout (R23, R175), carries
(R180), saturation (R179). -/

namespace Sys2Proof.Machine

/-! ### FSTAT and AMAX -/

/-- Flags are ORed into FSTAT and never cleared by hardware (R37). -/
def Warp.orFstat (w : Warp) (fl : Flags) : Warp := { w with fstat := w.fstat ||| fl }

/-- The OR of the flags of active lanes that are not poisoned (R37). -/
def laneFlags (act : LaneMask) (psn : Nat → Bool) (fl : Nat → Flags) : Flags :=
  (lanesOf act).foldl (fun acc L => if psn L then acc else acc ||| fl L) 0

/-- UpdateAmax of R38 over FP32 encodings. -/
def Warp.updAmax (w : Warp) (n : Nat) (xs : List Nat) : Warp :=
  let step := fun (acc : Word × Bool) (x : Nat) =>
    if (fp32.val x).isNan then (acc.1, true)
    else
      let m := BitVec.ofNat 32 (x % 2 ^ 31)
      (if acc.1.toNat < m.toNat then m else acc.1, acc.2)
  let r := xs.foldl step (vget w.amax n 0, false)
  { w with amax := vset w.amax n r.1, amaxnan := if r.2 then w.amaxnan ||| BitVec.ofNat 4 (2 ^ n) else w.amaxnan }

/-- A write of AMAXn by MOVTS (R157): bit 31 is cleared, a NaN is stored as zero and marked. -/
def Warp.setAmax (w : Warp) (n : Nat) (v : Word) : Warp :=
  let x := v &&& 0x7FFFFFFF#32
  if (fp32.val x.toNat).isNan then
    { w with amax := vset w.amax n 0, amaxnan := w.amaxnan ||| BitVec.ofNat 4 (2 ^ n) }
  else { w with amax := vset w.amax n x }

/-! ### Elements (R23, R175) -/

/-- Width of a type's elements (R61). -/
def tyWidth : Ty → Nat
  | .i16x2 | .n16x2 | .bf16x2 | .f16x2 => 16
  | .i8x4 | .e4m3x4 | .e5m2x4 => 8
  | .f4x8 => 4
  | .i64 | .n64 => 64
  | _ => 32

/-- Elements of a value of the type: 32 / w, or one of a pair (R175). -/
def tyCount (ty : Ty) : Nat := if tyPair ty then 1 else 32 / tyWidth ty

/-- .i types are signed (R175). -/
def tySgn : Ty → Bool
  | .i32 | .i16x2 | .i8x4 | .i64 => true
  | _ => false

/-- Element i of width w, unsigned. -/
def elemN (w : Nat) (x : DWord) (i : Nat) : Nat := x.toNat / 2 ^ (w * i) % 2 ^ w
/-- A number of w bits read as two's complement. -/
def toSigned (w x : Nat) : Int := if x < 2 ^ (w - 1) then x else (x : Int) - (2 ^ w : Nat)
/-- Element i read by its type. -/
def elemI (ty : Ty) (x : DWord) (i : Nat) : Int :=
  let n := elemN (tyWidth ty) x i
  if tySgn ty then toSigned (tyWidth ty) n else n
/-- Reduction modulo 2^w. -/
def wrapTo (w : Nat) (x : Int) : Nat := (x % (2 ^ w : Nat)).toNat
/-- Packs element values of width w, element 0 lowest. -/
def packElems (w : Nat) : List Nat → Nat
  | [] => 0
  | e :: r => e % 2 ^ w + 2 ^ w * packElems w r

/-- Applies an element function to each element, reduced modulo 2^w (ElemBody of R175). -/
def elems (ty : Ty) (f : Int → Int → Int → Int) (a b c : DWord) : DWord :=
  BitVec.ofNat 64 (packElems (tyWidth ty) ((List.range (tyCount ty)).map fun i =>
    wrapTo (tyWidth ty) (f (elemI ty a i) (elemI ty b i) (elemI ty c i))))

/-! ### Carries and saturation -/

/-- A 32-bit source extended by its type (Ext of R69). -/
def ext32 (ty : Ty) (x : DWord) : Int := if tySgn ty then toSigned 32 (elemN 32 x 0) else elemN 32 x 0

/-- The exact sum with carry-in bit 0 of c, modulo 2^64 (R180). -/
def addCarry (ty : Ty) (a b c : DWord) : DWord := BitVec.ofInt 64 (ext32 ty a + ext32 ty b + (c.toNat % 2 : Nat))
/-- The exact difference with borrow-in bit 0 of c (R180). -/
def subBorrow (ty : Ty) (a b c : DWord) : DWord := BitVec.ofInt 64 (ext32 ty a - ext32 ty b - (c.toNat % 2 : Nat))

/-- Clamps to the range of a type's elements (R179). -/
def clampTy (ty : Ty) (x : Int) : Int :=
  let w := tyWidth ty
  let lo : Int := if tySgn ty then -(2 ^ (w - 1) : Nat) else 0
  let hi : Int := if tySgn ty then (2 ^ (w - 1) : Nat) - 1 else (2 ^ w : Nat) - 1
  if x < lo then lo else if hi < x then hi else x

end Sys2Proof.Machine
end

