-- ==== Sys2Proof/Machine/Check.lean ====
section
/-! DEFINITION. Checks of an access over the lanes of a bundle (R223, R224, R229, R235): what each lane meets, and what the
instruction reports. -/

namespace Sys2Proof.Machine

/-- What one lane's access meets. -/
inductive Chk where
  | ok
  | fault (code : FaultCode) (addr detail : Nat)
  | page (pg : Nat) (need : BitVec 3)
  | cold (tier : Nat)
  | absent (grp line : Nat)
  | hold
  | ctxErr
deriving DecidableEq, Repr

abbrev Chks := List (Nat × Chk)

/-- Lanes that meet a fault code, with address and detail. -/
def failing (c : FaultCode) (l : Chks) : List (Nat × Nat × Nat) :=
  l.filterMap fun e =>
    match e.2 with
    | .fault k a d => if k = c then some (e.1, a, d) else none
    | _ => none

/-- The first code of a list that some lane meets, with the mask of those lanes (R235): MISALIGNED records the lowest
address, every other code the lowest lane's (R387; notes/assumptions/22). -/
def firstFault (l : Chks) : List FaultCode → Option FaultInfo
  | [] => none
  | c :: r =>
    match failing c l with
    | [] => firstFault l r
    | (L, a, d) :: t =>
      let m := maskOfList (L :: t.map Prod.fst)
      let a' := if c = .misaligned then t.foldl (fun lo e => Nat.min lo e.2.1) a else a
      some ⟨c, m, a', d, false⟩

def faultIf (s : State) (l : Chks) (codes : List FaultCode) : Except Stop Unit :=
  match firstFault l codes with
  | some f => .error (.fault s f)
  | none => .ok ()

/-- Pages and tier pages that a bundle waits for (R134, R344, R345). -/
def parkPages (l : Chks) : List (Nat × BitVec 3) :=
  distinct (l.filterMap fun e => match e.2 with
    | .page p n => some (p, n)
    | _ => none)
def parkTiers (l : Chks) : List Nat :=
  distinct (l.filterMap fun e => match e.2 with
    | .cold t => some t
    | _ => none)

def parkIf (s : State) (l : Chks) : Except Stop Unit :=
  match parkPages l, parkTiers l with
  | [], [] => .ok ()
  | ps, ts => .error (.park s (.page (ps.map Prod.fst ++ ts.map fun t => 2 ^ 60 + t)) ps ts)

/-- A walk that meets poison is a context error, whatever the other lanes meet (R86, R341). -/
def ctxErrIf (s : State) (l : Chks) : Except Stop Unit :=
  if l.any fun e => decide (e.2 = .ctxErr) then .error (.ctxErr s) else .ok ()

/-- A lane whose request must wait: the recalls that it waits for are out (R354). -/
def waitFor (s : State) (i : Iss) (l : Chks) (vas : List Nat) : Except Stop Unit :=
  if l.any fun e => decide (e.2 = .hold) then
    .error (.hold (s.recallWarp i.wid (distinct (vas.map fun a => s.awayLines i.core i.ctx a).flatten)) 10)
  else .ok ()

/-- A lane whose request must wait. -/
def waitIf (s : State) (l : Chks) : Except Stop Unit :=
  if l.any fun e => decide (e.2 = .hold) then .error (.hold s 10) else .ok ()

/-- A lane on an absent scratchpad line parks the bundle on it (R134, R229). -/
def absentIf (s : State) (l : Chks) : Except Stop Unit :=
  match l.findSome? fun e => match e.2 with
      | .absent g n => some (g, n)
      | _ => none with
  | some (g, n) => .error (.park s (.spm g n) [] [])
  | none => .ok ()

/-! ### One lane -/

/-- A GEN or CONST access (R235 step 3 and step 5): what it finds, with the physical address where it may proceed. -/
def State.genChk (s : State) (i : Iss) (w : Warp) (va : Nat) (a : Acc) : Chk :=
  match w.txnOf (s.walkLines i.core i.ctx va) with
  | some n => .fault .txnTimeout va (s.homeOf (128 * n))
  | none =>
    if s.roundBars i.wid w (s.walkLines i.core i.ctx va) then .hold
    else
      match s.find i.core i.ctx va a (w.refused i.lanes) with
      | .ok _ => .ok
      | .fault c d => .fault c va d
      | .page => .page (va / 4096) a.need
      | .cold t => .cold t
      | .hold => .hold
      | .ctxErr => .ctxErr

/-- The physical address of a GEN access that may proceed. -/
def State.paOf (s : State) (i : Iss) (va : Nat) (a : Acc) : Nat :=
  match s.find i.core i.ctx va a [] with
  | .ok x => x.pa
  | _ => 0

/-- A request of the instruction that timed out (R359), of the line behind an address. -/
def State.txnChk (s : State) (i : Iss) (w : Warp) (va : Nat) : Chk :=
  match w.txnOf (s.lineAt i.core i.ctx va) with
  | some n => .fault .txnTimeout va (s.homeOf (128 * n))
  | none => .ok

/-- The group that an SCR or GSCR address names, and the offset in its window (R223); a twin's GSCR is its primary's (R172). -/
def State.scrPlace (s : State) (i : Iss) (sp : Space) (a : Nat) : Option (Nat × Nat) :=
  match sp with
  | .gscr =>
    if 2 ^ 23 ≤ a then none
    else
      match (s.group? i.wid.g).bind fun g => s.gang? g.gang with
      | none => none
      | some gang => (nth? gang.groups (a / 2 ^ 19)).map fun g => (g, a % 2 ^ 19)
  | _ => some (i.wid.g, a)

/-- Whether n bytes at an address lie in the valid range of a space other than GEN and CONST (R223). -/
def State.inSpace (s : State) (i : Iss) (sp : Space) (a n : Nat) : Bool :=
  match sp with
  | .gen | .const => true
  | .l2w => decide (a + n ≤ (s.l2wOf (s.l2wFor i.wid)).size)
  | _ =>
    match s.scrPlace i sp a with
    | none => false
    | some (g, o) =>
      match s.group? g with
      | none => false
      | some x => inWindow (((s.descOf i.wid).map fun d => d.res sp).getD 0) x.extents (if sp = .gscr then .scr else sp) o n

/-- An SCR or GSCR line's presence (R229): `store` for ST. -/
def State.scrChk (s : State) (i : Iss) (sp : Space) (a : Nat) (store : Bool) : Chk :=
  match sp with
  | .scr | .gscr =>
    (match s.scrPlace i sp a with
      | none => .ok
      | some (g, o) =>
        match (s.group? g).bind fun x => sget? x.absent (lineOf o) with
        | none => .ok
        | some ab =>
          if store then .fault .spmAbsentStore a 0
          else if ab.failed then .fault .tagFail a 0
          else .absent g (lineOf o))
  | _ => .ok

/-- Whether a word that a load would deliver carries the mark of TAG_FAIL (R88, R235 step 5): one that the span buffer
replaces whole does not. `mark` is the mark of the word j words on. -/
def tagFailAt (w : Warp) (sp : Space) (va n : Nat) (mark : Nat → Option Mark) : Bool :=
  (List.range ((n + 3) / 4)).any fun j =>
    (w.spanPsn sp 0 (va + 4 * j) (Nat.min n 4)).isNone && decide (mark j = some .tagFail)

/-- As `tagFailAt`, of the line that a load on the core reads (R225, R252). -/
def State.genTagFail (s : State) (i : Iss) (w : Warp) (const : Bool) (va pa n : Nat) : Bool :=
  let g := s.viewImg i.core (lineOf pa) const (lineTag i.ctx va)
  tagFailAt w (if const then .const else .gen) va n fun j => g.mark (pa + 4 * j)

/-- As `tagFailAt`, of the L2W window (R88). -/
def State.l2wTagFail (s : State) (i : Iss) (w : Warp) (a n : Nat) : Bool :=
  let m := (s.l2wOf (s.l2wFor i.wid)).mem
  tagFailAt w .l2w a n fun j => m.mark (a / 4 + j)

/-- Whether a CCTL.WAYSET of another warp, which acts on its own sector, holds new accesses of the warp's L2W window (R248). -/
def State.l2wSealed (s : State) (i : Iss) : Bool :=
  s.allWarps.any fun v => decide (v ≠ i.wid) && ((s.warp? v).map Warp.sealing).getD false &&
    decide (l2wKey (s.ctxNo v) (sectorOf (s.coreOf v)) = s.l2wFor i.wid)

/-! ### Uses of spaces (R224) -/

def mayLoad : Space → Bool
  | .gen | .const | .scr | .gscr | .l2w => true
  | _ => false
def mayStore : Space → Bool
  | .gen | .scr | .gscr | .ab | .l2w => true
  | _ => false
def mayCopySrc : Space → Bool
  | .gen | .scr | .gscr | .cb | .l2w => true
  | _ => false
def mayCopyDst : Space → Bool
  | .gen | .scr | .gscr | .wb | .ab | .l2w => true
  | _ => false
/-- Spaces of ATOM, RED, CAS and WAITU (R271, R303). -/
def mayAtom : Space → Bool
  | .gen | .scr | .gscr | .l2w => true
  | _ => false

def isGen : Space → Bool
  | .gen | .const => true
  | _ => false

/-- Active lanes with their effective addresses. -/
def Mx.places (x : Mx) : List (Nat × Nat) := (lanesOf x.act).map fun L => (L, (x.addr L).toNat)

/-- Steps 1 and 2 of R235: alignment, use of the space, valid range. -/
def spaceChecks (s : State) (i : Iss) (sp : Space) (use : Bool) (need : BitVec 3) (align n : Nat) (pl : List (Nat × Nat)) :
    Except Stop Unit :=
  let mis : Chks := pl.map fun e => (e.1, if e.2 % align ≠ 0 then .fault .misaligned e.2 align else .ok)
  let bad : Chks := pl.map fun e => (e.1, if !use || !s.inSpace i sp e.2 n then .fault .permission e.2 need.toNat else .ok)
  match faultIf s mis [.misaligned] with
  | .error e => .error e
  | .ok _ => if decide (sp = .l2w) && s.l2wSealed i then .error (.hold s 10) else faultIf s bad [.permission]

/-- Whether an atomic of the warp is still queued at a hot line: its later accesses of the line come after it (R280). -/
def State.hotPending (s : State) (w : WarpId) (line : Nat) : Bool :=
  ((sget? s.hot line).getD []).any fun q => decide (q.wid = w)

/-- Step 3 of R235 for GEN and CONST: a context error, then a fault of some lane, then a park of some lane. -/
def findChecks (s : State) (l : Chks) : Except Stop Unit :=
  match ctxErrIf s l with
  | .error e => .error e
  | .ok _ =>
    match faultIf s l [.xlate, .permission, .firewall] with
    | .error e => .error e
    | .ok _ => parkIf s l

/-- Steps 3 and 5 of R235 for GEN and CONST: `tag` says for a load, which meets TAG_FAIL, whether it reads CONST; `txn` for
accesses whose request may end in TXN_TIMEOUT. -/
def genChecks (s : State) (i : Iss) (w : Warp) (a : Acc) (tag : Option Bool) (txn : Bool) (n : Nat) (pl : List (Nat × Nat)) :
    Except Stop Unit :=
  let l : Chks := pl.map fun e => (e.1, s.genChk i w e.2 a)
  match findChecks s l with
  | .error e => .error e
  | .ok _ =>
    let t : Chks := match tag with
      | some c => pl.map fun e => (e.1, if s.genTagFail i w c e.2 (s.paOf i e.2 a) n then .fault .tagFail e.2 0 else .ok)
      | none => []
    let u : Chks := if txn then pl.map fun e => (e.1, s.txnChk i w e.2) else []
    match faultIf s (t ++ u ++ l) [.tagFail, .txnTimeout, .peerLost] with
    | .error e => .error e
    | .ok _ =>
      if pl.any fun e => s.hotPending i.wid (lineOf (s.paOf i e.2 a)) then .error (.hold s 10) else waitFor s i l (pl.map Prod.snd)

/-- Requests for the lines homed in other packages that a load of the core finds no copy of (R225, R359). -/
def State.askReads (s : State) (i : Iss) (const : Bool) (pl : List (Nat × Nat)) : Except Stop Unit :=
  s.askRemote i.wid (fun n => .read (128 * n)) ((pl.map fun e => (s.paOf i e.2 .rd, e.2)).filterMap fun p =>
    if (s.copyOf i.core (lineOf p.1) const (lineTag i.ctx p.2)).isSome then none else some (lineOf p.1))

/-- Steps 3 to 5 of R235 for a load of GEN or CONST, with its requests to other packages. -/
def loadChecks (s : State) (i : Iss) (w : Warp) (const : Bool) (n : Nat) (pl : List (Nat × Nat)) : Except Stop Unit :=
  match genChecks s i w .rd (some const) true n pl with
  | .error e => .error e
  | .ok _ => s.askReads i const pl

/-- Checks of a read that an instruction makes for itself (Mem.Read). -/
def readChecks (s : State) (i : Iss) (w : Warp) (n : Nat) (pl : List (Nat × Nat)) : Except Stop Unit :=
  match genChecks s i w .rd none true n pl with
  | .error e => .error e
  | .ok _ => s.askReads i false pl

/-- Steps 3 to 5 of R235 for lanes of LD, LDT or ST. -/
def placeChecks (s : State) (i : Iss) (w : Warp) (sp : Space) (a : Acc) (n : Nat) (pl : List (Nat × Nat)) : Except Stop Unit :=
  if isGen sp then
    (if a = .rd then loadChecks s i w (decide (sp = .const)) n pl else genChecks s i w a none false n pl)
  else
    let l : Chks := pl.map fun e => (e.1, s.scrChk i sp e.2 (decide (a = .wr)))
    let t : Chks := if sp = .l2w ∧ a = .rd then
        pl.map fun e => (e.1, if s.l2wTagFail i w e.2 n then .fault .tagFail e.2 0 else .ok)
      else []
    match faultIf s (l ++ t) [.spmAbsentStore, .tagFail] with
    | .error e => .error e
    | .ok _ => absentIf s l

/-- An access that proceeds keeps the translation it found and abandons an eviction of its tier page (R342, R345). -/
def State.touched (s : State) (core ctx va : Nat) (found : Found) : State :=
  match found with
  | .ok x => ((s.touchWalk core ctx va).tlbAdd core ctx va x).touchTier x.pa
  | _ => s

def State.touch (s : State) (core ctx va : Nat) (a : Acc) : State := s.touched core ctx va (s.find core ctx va a [])

def State.touchAll (s : State) (i : Iss) (sp : Space) (a : Acc) (pl : List (Nat × Nat)) : State :=
  if isGen sp then pl.foldl (fun t e => t.touched i.core i.ctx e.2 (s.find i.core i.ctx e.2 a [])) s else s

/-- A gang that touches L2W is tied to its sector (R233). -/
def State.tieL2w (s : State) (w : WarpId) (sp : Space) : State :=
  if sp = .l2w then
    match s.group? w.g with
    | none => s
    | some g => s.updGang g.gang fun x => { x with l2w := true }
  else s

end Sys2Proof.Machine
end

