-- ==== Sys2Proof/Machine/Commit.lean ====
section
/-! DEFINITION. Commit-class instructions: the command a signature takes (R170), the twin of a redundant group (R172),
commit and release as one step (R166, R254). -/

namespace Sys2Proof.Machine

/-! ### Redundant copies -/

/-- The command of R170: the base word, then the operand values, each for every active lane. -/
def cmdOf (i : Instr) (lanes : LaneMask) (vals : List (Nat → DWord)) : List DWord :=
  ((encodeUnit i).map RawUnit.base).getD 0 :: (vals.map fun f => (lanesOf lanes).map f).flatten

/-- The command of a system instruction: its g values. -/
def cmdG (i : Instr) (lanes : LaneMask) (vals : List DWord) : List DWord := cmdOf i lanes (vals.map fun v _ => v)

/-- The primary's result is left for the twin under the number of the commit (R172). -/
def State.mailTwin (s : State) (w : WarpId) (m : Mail) : State :=
  match s.twinOf w.g with
  | none => s
  | some t =>
    let n := ((s.warp? w).map Warp.commits).getD 0
    s.updWarp ⟨t, w.w⟩ fun x => { x with mail := sset x.mail n m }

/-- What the primary left for the twin's latest commit; the twin waits for it. -/
def State.takeMail (s : State) (w : WarpId) : Except Stop (Mail × State) :=
  match s.warp? w with
  | none => .error (.hold s 10)
  | some x =>
    match sget? x.mail x.commits with
    | none => .error (.hold s 10)
    | some m => .ok (m, s.updWarp w fun x => { x with mail := sdel x.mail x.commits })

def Mail.gVal : Mail → DWord
  | .g v => v
  | .atom _ => 0

/-! ### Release actions -/

/-- Whether the release action of a scope is done for the warp (R254). -/
def State.released (s : State) (w : WarpId) (scope : Nat) : Bool :=
  s.wts.all fun t =>
    decide (t.wid ≠ w) ||
      (let h := s.homeOf (128 * t.line)
       match scope with
       | 0 | 1 => true
       | 2 | 3 => decide (h ≠ s.pkg)
       | 4 => isHost h
       | _ => false)

/-- Commit() and the release action that follows it in the same step (R166): the bundle holds until both are done. -/
def State.commitRelease (s : State) (i : Iss) (w : Warp) (cmd : List DWord) (scope : Nat) : Except Stop State :=
  let wait := fun (t : State) => if t.released i.wid scope then (.ok t : Except Stop State) else .error (.hold t 10)
  if w.releasing then wait s
  else
    match s.commit i.wid i.lanes i.fall cmd with
    | .error e => .error e
    | .ok t => wait (t.updWarp i.wid fun x => { x with releasing := true })

/-- Every lane of the bundle at one address, for an instruction that executes once. -/
def Iss.onePlace (i : Iss) (a : Nat) : List (Nat × Nat) := (lanesOf i.lanes).map fun L => (L, a)

/-- A committed write of one warp that does not pass through its span buffer (REL, R265): through L1, then write-through. -/
def State.writeThrough (s : State) (w : WarpId) (va pa : Nat) (d : List Byte) (p : Bool) : State :=
  s.commitLine w (s.isTwin w.g) ⟨.gen, va / 128, pa / 128, 0, cellsOf va d, psnEffect va d.length p, 0⟩

/-- An access from a core recalls a line that another core owns (R225), and one that another cell holds (R354). -/
def State.recallOwned (s : State) (core line : Nat) : State :=
  let t := s.recallDir line
  match sget? t.owned line with
  | some c => if c = core then t else { t with owned := sdel t.owned line }
  | none => t

end Sys2Proof.Machine
end

