-- ==== Sys2Proof/Machine/Memory.lean ====
section
/-! DEFINITION. LD, ST, LDT, PRF and PGQ, and the write-back of a load (13_spaces R234-R239, 19_page R349-R351). -/

namespace Sys2Proof.Machine

/-! ### Loads -/

/-- Bytes of one register's share of an access (R234). -/
def memBytes : MemWidth → Nat
  | .elem => 4
  | .byte => 1
  | .half => 2

/-- Width n of LD and ST: 8 for a pair (R234). -/
def memWidth (wd : MemWidth) (ty : Ty) : Nat :=
  match wd with
  | .elem => if tyPair ty then 8 else 4
  | .byte => 1
  | .half => 2

/-- Where the span buffer keeps a byte: the sibling group of a GSCR address (0 elsewhere) and the address there (R162). -/
def State.spanKey (s : State) (i : Iss) (sp : Space) (a : Nat) : Nat × Nat :=
  match sp with
  | .gscr => (s.scrPlace i sp a).getD (0, 0)
  | _ => (0, a)

/-- The memory that serves a space other than GEN and CONST, with the offset in it. -/
def State.localMem (s : State) (i : Iss) (sp : Space) (a : Nat) : Mem × Nat :=
  match sp with
  | .l2w => ((s.l2wOf (s.l2wFor i.wid)).mem, a)
  | .gscr =>
    match s.scrPlace i sp a with
    | none => (Mem.empty, 0)
    | some (g, o) => (((s.group? g).map Group.scr).getD Mem.empty, o)
  | _ => (((s.group? i.wid.g).map fun g => g.buf sp).getD Mem.empty, a)

/-- One word of a load as it issues: bytes of the span buffer stand already; a space with no copies is read now (R229,
R250), GEN and CONST at write-back (R252). -/
def State.loadItem (s : State) (i : Iss) (w : Warp) (sp : Space) (lane reg a n : Nat) : LoadItem :=
  let (g, o) := s.spanKey i sp a
  let fwd := (List.range n).map fun j => w.spanByte sp g (o + j)
  let psn := w.spanPsn sp g o n
  if isGen sp then { lane, reg, addr := s.paOf i a .rd, va := a, n, fwd, fwdP := psn }
  else
    let (m, k) := s.localMem i sp a
    { lane, reg, addr := k, va := a, n, fwd := (List.range n).map fun j => some (((fwd.getD j none)).getD (m.byte (k + j))),
      fwdP := some (psn.getD (m.anyMark k n)) }

/-- Starts a load: D becomes empty and the write-back is due (R140, R235). -/
def State.startLoad (s : State) (w : WarpId) (kind : LoadKind) (regs : List Nat) (zero : LaneMask) (items : List LoadItem) :
    State :=
  let (id, s1) := s.fresh
  (s1.updWarp w fun x => regs.foldl Warp.emptyV { x with loads := x.loads ++ [⟨id, kind, regs, zero, items⟩] }).addDue
    (.loadWriteback w id)

/-- Lanes of the bundle that Z = 1 clears (R70). -/
def Mx.zeroMask (x : Mx) : LaneMask := if x.z then x.lanes &&& ~~~x.act else 0

def specLd (wd : MemWidth) (ty : Ty) : MSpec := mPlain (ldTys wd) (mdT ty)

/-- LD, R235. -/
def execLd (wd : MemWidth) (f : FmtM) (s : State) : Out :=
  memFrame s f (specLd wd f.ty) false false fun s i x =>
    let n := memWidth wd f.ty
    match spaceChecks s i f.sp (mayLoad f.sp) 0b001#3 n n x.places with
    | .error e => .error e
    | .ok _ =>
      match placeChecks s i x.w f.sp .rd n x.places with
      | .error e => .error e
      | .ok _ =>
        let d := x.d.regs
        let items := (x.places.map fun e =>
          (List.range d.length).map fun j => s.loadItem i x.w f.sp e.1 (d.getD j 0) (e.2 + 4 * j) (memBytes wd)).flatten
        .ok (((s.touchAll i f.sp .rd x.places).tieL2w i.wid f.sp).startLoad i.wid
          (.mem f.sp 0 (decide (f.cp = .noalloc)) (decide (f.ty = .i32))) d x.zeroMask items)

/-- Value and poison that an item delivers, from the image of its line (R235, R236). -/
def LoadItem.lane_ (it : LoadItem) (g : LineImg) (signed : Bool) : Lane :=
  let bytes := (List.range it.n).map fun j => (it.fwd.getD j none).getD (g.byte (it.addr + j))
  let v := leNat bytes
  ⟨if signed then BitVec.ofInt 32 (toSigned (8 * it.n) v) else BitVec.ofNat 32 v, it.fwdP.getD (g.mark it.addr).isSome⟩

/-- A register takes the lanes listed; lanes of `zero` are cleared; it becomes full (R70, R140). -/
def Warp.deliver (w : Warp) (reg : Nat) (zero : LaneMask) (vals : List (Nat × Lane)) : Warp :=
  let old := w.vreg reg
  (w.setV reg (Vector.ofFn fun L =>
    match vals.find? fun e => decide (e.1 = L.val) with
    | some e => e.2
    | none => if inMask zero L.val then Lane.zero else old[L])).fillV reg

def Warp.deliverAll (w : Warp) (regs : List Nat) (zero : LaneMask) (vals : List (Nat × Nat × Lane)) : Warp :=
  regs.foldl (fun x r => x.deliver r zero ((vals.filter fun e => decide (e.1 = r)).map Prod.snd)) w

/-- What a load in flight reads at its write-back: register, lane and value. -/
def State.loadVals (s : State) (w : WarpId) (l : Load) : List (Nat × Nat × Lane) :=
  match l.kind with
  | .mem sp _ _ signed =>
    let core := s.coreOf w
    let lines := if isGen sp then distinct (l.items.map fun it => (lineOf it.addr, lineTag (s.ctxNo w) it.va)) else []
    let imgs := lines.map fun n => (n, s.viewImg core n.1 (decide (sp = .const)) n.2)
    l.items.map fun it =>
      let g := ((imgs.find? fun e => decide (e.1 = (lineOf it.addr, lineTag (s.ctxNo w) it.va))).map Prod.snd).getD ⟨[], []⟩
      (it.reg, it.lane, it.lane_ g signed)
  | .cb _ =>
    let m := ((s.group? w.g).map Group.cb).getD Mem.empty
    l.items.map fun it => (it.reg, it.lane, ⟨BitVec.ofNat 32 (m.nat it.addr 4), m.anyMark it.addr 4⟩)
  | .poll _ _ => []

/-- Lines that a load must read and that another package has taken since it issued: they are recalled first (R354). -/
def State.loadAway (s : State) (w : WarpId) (l : Load) : List Nat :=
  match s.dir, l.kind with
  | [], _ => []
  | _, .mem sp _ _ _ =>
    if isGen sp then
      distinct ((l.items.filter fun it => s.recallWaits (lineOf it.addr) &&
        (s.copyOf (s.coreOf w) (lineOf it.addr) (decide (sp = .const)) (lineTag (s.ctxNo w) it.va)).isNone).map fun it => lineOf it.addr)
    else []
  | _, _ => []

/-- Whether a line is homed in a cell that this package holds as Recovering or Fenced: no copy of it is made (R360). -/
def State.homeGone (s : State) (line : Nat) : Bool := ((s.cellOfPkg (s.homeOf (128 * line))).map s.cellLost).getD false

/-- The read copies that a load's write-back fills (R225, R226). -/
def State.fillCopies (s : State) (w : WarpId) (l : Load) : State :=
  match l.kind with
  | .mem sp _ noalloc _ =>
    if isGen sp then
      let core := s.coreOf w
      l.items.foldl (fun t it => if s.homeGone (lineOf it.addr) then t
        else (t.recallOwned core (lineOf it.addr)).fillCopy core (lineOf it.addr) (decide (sp = .const)) noalloc (lineTag (s.ctxNo w) it.va)) s
    else s
  | _ => s

/-- Whether an engine operation of the core is still in flight. -/
def State.mxLive (s : State) (core : Nat) (ops : List Nat) : Bool :=
  (s.engine core).ops.any fun o => decide (o.id ∈ ops)

/-- Write-back of a load (R140): D takes its values and becomes full; an MXRD waits for the operations before it (R315), a line that
another package holds for its recall (R354). -/
def execLoadWriteback (w : WarpId) (id : Nat) (s : State) : Out :=
  match (s.warp? w).bind fun x => x.loads.find? fun l => decide (l.id = id) with
  | none => event s
  | some l =>
    let wait := match l.kind with
      | .cb after => s.mxLive (s.coreOf (s.primaryWarp w)) after
      | _ => false
    if wait || !(s.loadAway w l).isEmpty then event (((s.loadAway w l).foldl State.askRecall s).addDue (.loadWriteback w id))
    else
      let vals := s.loadVals w l
      event ((s.fillCopies w l).updWarp w fun x =>
        let x := { x with loads := x.loads.filter fun k => decide (k.id ≠ id) }
        match l.kind with
        | .poll cid d => (x.setG d ⟨((s.group? w.g).map fun g => sgetD g.ids cid 2).getD 2, false⟩).fillG d
        | _ => x.deliverAll l.regs l.zero vals)

/-- One 4-byte word of GEN from the image of its line, under the span buffer (R162). -/
def spanWord (w : Warp) (g : LineImg) (va pa : Nat) : Nat × Bool :=
  let b := (List.range 4).map fun j => (w.spanByte .gen 0 (va + j)).getD (g.byte (pa + j))
  (leNat b, (w.spanPsn .gen 0 va 4).getD (g.mark pa).isSome)

/-- Mem.Read(GEN, va, 4 n): the words that an instruction reads for itself, as a load would (R225); a translated, readable
address. -/
def State.readWords (s : State) (i : Iss) (w : Warp) (va : Nat) : Nat → List (Nat × Bool)
  | 0 => []
  | n + 1 =>
    let pa := s.paOf i va .rd
    spanWord w (s.viewImg i.core (lineOf pa) false (lineTag i.ctx va)) va pa :: s.readWords i w (va + 4) n

/-- The read copy that such a read fills. -/
def State.fillRead (s : State) (i : Iss) (va : Nat) : State :=
  let line := lineOf (s.paOf i va .rd)
  ((s.recallOwned i.core line).fillCopy i.core line false false (lineTag i.ctx va)).touch i.core i.ctx va .rd

def wordsNat : List (Nat × Bool) → Nat
  | [] => 0
  | (v, _) :: r => v + 2 ^ 32 * wordsNat r

/-! ### ST -/

/-- Lines that the places of a store need and the warp does not hold. -/
def State.newLines (s : State) (i : Iss) (w : Warp) (sp : Space) (pl : List (Nat × Nat)) : Nat :=
  ((distinct (pl.map fun e => let k := s.spanKey i sp e.2; (k.1, k.2 / 128))).filter fun k =>
    (findLine w.span sp k.1 (128 * k.2)).isNone).length

/-- Physical line of a GEN store, with the IPA it is reached through, and line of the gang window of a GSCR store (R170); other spaces
have none. -/
def State.storeLine (s : State) (i : Iss) (sp : Space) (a : Nat) : Nat × Nat :=
  if isGen sp then
    match s.find i.core i.ctx a .wr [] with
    | .ok x => (x.pa / 128, x.ipa)
    | _ => (0, 0)
  else if sp = .gscr then (a / 128, 0) else (0, 0)

def specSt (wd : MemWidth) (ty : Ty) : MSpec := { mPlain (ldTys wd) (mdT ty) with zOk := false }

/-- The bytes of one lane's store enter the span buffer (R236): a pair as two words, each with its own poison. -/
def Warp.storeLane (w : Warp) (sp : Space) (g o : Nat) (line : Nat × Nat) (d : Rs) (n L : Nat) : Warp :=
  match d with
  | .v r 2 => (w.spanPut sp g o line (leBytes (w.lane r L).v.toNat 4) (w.lane r L).p).spanPut sp g (o + 4) line
      (leBytes (w.lane (r + 1) L).v.toNat 4) (w.lane (r + 1) L).p
  | .v r _ => w.spanPut sp g o line (leBytes (w.lane r L).v.toNat n) (w.lane r L).p
  | _ => w

/-- ST, R236; a store that needs a line where none is free commits first (R163). -/
def execSt (wd : MemWidth) (f : FmtM) (s : State) : Out :=
  memFrame s f (specSt wd f.ty) false false fun s i x =>
    let n := memWidth wd f.ty
    match spaceChecks s i f.sp (mayStore f.sp) 0b010#3 n n x.places with
    | .error e => .error e
    | .ok _ =>
      match placeChecks s i x.w f.sp .wr n x.places with
      | .error e => .error e
      | .ok _ =>
        match s.makeRoom i.wid x.w i.lanes i.at_ (s.newLines i x.w f.sp x.places) with
        | .error e => .error e
        | .ok t =>
          .ok ((((t.touchAll i f.sp .wr x.places).tieL2w i.wid f.sp)).updWarp i.wid fun w =>
            x.places.foldl (fun y e =>
              let k := s.spanKey i f.sp e.2
              y.storeLane f.sp k.1 k.2 (s.storeLine i f.sp e.2) x.d n e.1) w)

/-! ### LDT -/

def specLdt : MSpec := { mPlain tMem32 (.v 2 2) with ldt := true }

/-- Row stride S of LDT (R237). -/
def Mx.stride (x : Mx) : DWord :=
  match x.ofs with
  | .g r _ => ((x.w.greg r).v.setWidth 32).signExtend 64
  | _ => 16

/-- A_r of R238. -/
def Mx.row (x : Mx) (r : Nat) : Nat := ((x.base.read x.w 0).1 + x.off + BitVec.ofNat 64 r * x.stride).toNat

/-- The addresses that are not multiples of 16: A_0, or the start of row 1 for the stride (R387). -/
def Mx.rowOffenders (x : Mx) : List Nat :=
  (if x.row 0 % 16 ≠ 0 then [x.row 0] else []) ++ (if x.stride.toNat % 16 ≠ 0 then [x.row 1] else [])

def least (l : List Nat) : Nat := l.foldl Nat.min (l.headD 0)

/-- LDT, R237 and R238. -/
def execLdt (f : FmtM) (s : State) : Out :=
  memFrame s f specLdt true false fun s i x =>
    match x.rowOffenders with
    | a :: r => stopFault s .misaligned i.lanes (least (a :: r)) 16
    | [] =>
      let pl := (List.range 32).map fun L => (L, x.row (L % 16))
      match spaceChecks s i f.sp (mayLoad f.sp) 0b001#3 1 16 pl with
      | .error e => .error e
      | .ok _ =>
        match placeChecks s i x.w f.sp .rd 16 pl with
        | .error e => .error e
        | .ok _ =>
          let d := x.d.regs
          let item := fun (j L : Nat) =>
            s.loadItem i x.w f.sp L (d.getD j 0) ((x.row (L % 16) + 4 * (2 * j + L / 16)) % 2 ^ 64) 4
          .ok (((s.touchAll i f.sp .rd pl).tieL2w i.wid f.sp).startLoad i.wid
            (.mem f.sp 0 (decide (f.cp = .noalloc)) false) d 0
            ((List.range 2).map fun j => (List.range 32).map (item j)).flatten)

/-! ### PRF -/

/-- One lane of PRF (R239): a readable line comes closer, a Cold page starts its fill, everything else is dropped. -/
def State.prefetch (s : State) (i : Iss) (const noalloc : Bool) (va : Nat) : State :=
  match s.find i.core i.ctx va .rd [] with
  | .ok x =>
    let t := (s.touchTier x.pa).recallOwned i.core (lineOf x.pa)
    if noalloc then t else t.fillCopy i.core (lineOf x.pa) const false (lineTag i.ctx va)
  | .cold t => s.startFill t
  -- a walk that meets poison is a context error (R86, R341)
  | .ctxErr => s.raiseCtxErr i.ctx .walkPoison
  | _ => s

/-- PRF, R239. -/
def execPrf (f : FmtM) (s : State) : Out :=
  memFrame s f (mPlain [.b32] .none) false false fun s i x =>
    match spaceChecks s i f.sp (isGen f.sp) 0b001#3 1 1 x.places with
    | .error e => .error e
    | .ok _ => .ok (x.places.foldl (fun t e => t.prefetch i (decide (f.sp = .const)) (decide (f.cp = .noalloc)) e.2) s)

/-! ### PGQ (R349-R351) -/

def sizeCode (n : Nat) : Nat := if n < 65536 then 0 else if n < 2 ^ 21 then 1 else if n < 2 ^ 30 then 2 else 3

/-- STATE of R351 for a mapped address. -/
def State.pageState (s : State) (pa : Nat) : Nat :=
  if !s.fwRead pa then 6
  else
    match sget? s.tier (pa / 65536) with
    | some .cold => 2
    | some .filling => 3
    | some .evicting => 4
    | none => if s.pline.any fun l => decide (l / 512 = pa / 65536) then 5 else 1

def bitAt (n : Nat) (b : Bool) : Nat := if b then 2 ^ n else 0

/-- The query word of R351, or a held query or a context error. A walk that cannot read a table, its page being Cold, its home lost
or its request timed out, parks nothing and starts no fill (R349), and has no stated word (notes/assumptions/23). -/
def State.query (s : State) (i : Iss) (w : Warp) (va : Nat) : Except Stop Word :=
  if 2 ^ 57 ≤ va then .ok 0
  else if (w.txnOf (s.walkLines i.core i.ctx va)).isSome then .ok (Config.freeWord s.tick va)
  else if s.roundBars i.wid w (s.walkLines i.core i.ctx va) then .error (.hold s 10)
  else
    match s.translate i.core i.ctx va 0 with
    | .ok x =>
      let h := s.homeOf x.pa
      let place := if isHost h then 2 ^ 12 else h * 2 ^ 16 + (s.cellOfPkg h).getD 0 * 2 ^ 23
      .ok (BitVec.ofNat 32 (place + bitAt 9 (s.fwWrite x.pa) + bitAt 8 (s.fwRead x.pa) + x.perm.toNat * 32
        + sizeCode x.size * 8 + s.pageState x.pa))
    | .xlate _ st2 => .ok (BitVec.ofNat 32 (bitAt 11 st2))
    | .replay _ st2 => .ok (BitVec.ofNat 32 (bitAt 11 st2 + bitAt 10 true))
    | .page => .ok 0
    | .poison => .error (.ctxErr s)
    | .cold _ => .ok (Config.freeWord s.tick va)
    | .lost _ => .ok (Config.freeWord s.tick va)
    | .hold => .error (.hold (s.recallWarp i.wid (s.awayLines i.core i.ctx va)) 10)

def State.queries (s : State) (i : Iss) (w : Warp) : List (Nat × Nat) → Except Stop (List (Nat × Lane))
  | [] => .ok []
  | (L, a) :: r =>
    match s.query i w a with
    | .error e => .error e
    | .ok v =>
      match s.queries i w r with
      | .error e => .error e
      | .ok l => .ok ((L, ⟨v, false⟩) :: l)

/-- PGQ, R350. -/
def execPgq (f : FmtM) (s : State) : Out :=
  memFrame s f { mPlain [.b32] (.v 1 1) with noPolicy := true } false false fun s i x =>
    match spaceChecks s i f.sp (isGen f.sp) 0b001#3 1 1 x.places with
    | .error e => .error e
    | .ok _ =>
      match s.queries i x.w x.places with
      | .error e => .error e
      | .ok vals => .ok (s.setWarp i.wid (x.d.regs.foldl (fun w r => w.deliver r x.zeroMask vals) x.w))

end Sys2Proof.Machine
end

