-- ==== Sys2Proof/Machine/Hot.lean ====
section
/-! DEFINITION. Atomics at the coherent level (15_atomics R275, R277), hot lines and their queues (R273), and the arrival of
write-throughs there (14_ordering R250). -/

namespace Sys2Proof.Machine

/-! ### Functions (R275, R277) -/

def lowBits (w : Nat) (x : DWord) : Nat := x.toNat % 2 ^ w

/-- The new value of ATOM and RED. -/
def atomNew (fn : AtomFn) (ty : Ty) (m o : DWord) : DWord :=
  let w := tyWidth ty
  let a := lowBits w m
  let b := lowBits w o
  let lt := fun (x y : DWord) => decide (elemI ty x 0 < elemI ty y 0)
  match fn with
  | .add => BitVec.ofNat 64 ((a + b) % 2 ^ w)
  | .min => if lt o m then BitVec.ofNat 64 b else BitVec.ofNat 64 a
  | .max => if lt m o then BitVec.ofNat 64 b else BitVec.ofNat 64 a
  | .and => m &&& o
  | .or => m ||| o
  | .xor => m ^^^ o
  | .xchg => o
  | .incw => if b ≤ a then 0 else BitVec.ofNat 64 (a + 1)
  | .decw => if a = 0 ∨ b < a then BitVec.ofNat 64 b else BitVec.ofNat 64 (a - 1)
  | .fadd => BitVec.ofNat 64 (fAdd fp32 .rne a b).1
  | .fmin => BitVec.ofNat 64 (fMinMax fp32 false false a b).1
  | .fmax => BitVec.ofNat 64 (fMinMax fp32 true false a b).1

def atomBytes (ty : Ty) : Nat := if tyPair ty then 8 else 4

/-- Perform(L) on the word found: what is written, if anything, and what is returned. -/
def AtomReq.result (q : AtomReq) (m : DWord) (pm : Bool) : Option (DWord × Bool) × DWord × Bool :=
  match q.fn with
  | some fn => (some (atomNew fn q.ty m q.o, if fn = .xchg then q.po else pm || q.po), m, pm)
  | none =>
    let w := tyWidth q.ty
    if pm || q.po then (none, m, true)
    else if lowBits w m = lowBits w q.o then (some (q.o2, false), m, false) else (none, m, false)

/-- Performs a request on a word of physical memory or of an L2W window. -/
def State.perform (s : State) (q : AtomReq) : (DWord × Bool) × State :=
  let n := atomBytes q.ty
  let (m, pm) := s.readWord q.addr n
  let (new, r) := q.result m pm
  match new with
  | none => (r, s)
  | some (v, p) =>
    if isL2w q.addr then
      let key := l2wKeyOf q.addr
      let x := s.l2wOf key
      (r, (s.setL2w key { x with mem := x.mem.write (l2wOff q.addr) (leBytes v.toNat n) p }).noteWrite (lineOf q.addr))
    else (r, s.cohWrite q.addr (leBytes v.toNat n) p)

/-- A result reaches the instruction that waits for it; RED waits for none. -/
def Warp.atomGot (w : Warp) (q : AtomReq) (r : DWord × Bool) : Warp :=
  { w with atoms := w.atoms.map fun a =>
      if a.id = q.id then
        { a with left := a.left - 1,
                 res := a.res ++ a.regs.zipIdx.map fun e => (e.1, q.lane, (⟨(r.1 >>> (32 * e.2)).setWidth 32, r.2⟩ : Lane)) }
      else a }

def State.atomGot (s : State) (q : AtomReq) (r : DWord × Bool) : State := s.updWarp q.wid fun w => w.atomGot q r

/-! ### Hot lines (R273) -/

def State.isHot (s : State) (line : Nat) : Bool := (sget? s.hot line).isSome

/-- The slice that is a line's home (R16, R422). -/
def sliceOf (line : Nat) : Nat := Config.homeSlice line % 192

/-- The hot lines of a slice. -/
def State.hotOf (s : State) (slice : Nat) : SMap (List AtomReq) := s.hot.filter fun e => decide (sliceOf e.1 = slice)

/-- Hot lines of the slice that is a line's home. -/
def State.hotInSlice (s : State) (line : Nat) : Nat := (s.hotOf (sliceOf line)).length

/-- The first request of a queue with its instruction's others behind it, between which no other access to the location falls
(R277), and the rest. -/
def headRun : List AtomReq → List AtomReq × List AtomReq
  | [] => ([], [])
  | q :: r =>
    let own := r.takeWhile fun p => decide (p.wid = q.wid) && decide (p.id = q.id)
    (q :: own, r.drop own.length)

/-- The core of a warp, and of its copy in the twin of a redundant group, whose reads see the primary's writes (R172). -/
def State.coresFor (s : State) (w : WarpId) : List Nat := (s.bothCopies w.g).map fun g => s.coreOf ⟨g, w.w⟩

/-- Performs a core's request at the coherent level: the read copies of the line give way (R172, R225). The core's own earlier
writes of the line are there. -/
def State.performOwn (s : State) (q : AtomReq) : State :=
  let p := ((s.coresFor q.wid).foldl (fun t c => t.dropLine c (lineOf q.addr)) s).perform q
  p.2.atomGot q p.1

/-- Queued requests are performed in order; each core's earlier writes of the line arrived before its request was queued. -/
def State.performAll (s : State) (l : List AtomReq) : State := l.foldl State.performOwn s

/-- What is queued at a hot line is performed: what arrives now comes after it (R273). -/
def State.flushHot (s : State) (line : Nat) : State :=
  match sget? s.hot line with
  | some (q :: r) => { s with hot := sset s.hot line [] }.performAll (q :: r)
  | _ => s

/-- The oldest request of a line's queue is performed, with its instruction's others. -/
def State.retireHot (s : State) (line : Nat) : State :=
  match sget? s.hot line with
  | some (q :: r) => { s with hot := sset s.hot line (headRun (q :: r)).2 }.performAll (headRun (q :: r)).1
  | _ => s

/-- Requests that a slice can hold queued (R273). -/
def sliceQueue : Nat := 64

/-- A requester that finds its slice's queue full waits for an entry to retire (R273): the line's own oldest, else another's. -/
def State.hotRoom (s : State) (line : Nat) : State :=
  let mine := s.hotOf (sliceOf line)
  if (mine.map fun e => e.2.length).sum < sliceQueue then s
  else if ((sget? s.hot line).getD []).isEmpty then
    (match mine.find? fun e => !e.2.isEmpty with
      | some e => s.retireHot e.1
      | none => s)
  else s.retireHot line

/-! ### Write-throughs (R250, R251) -/

/-- Lines that the package's slices hold (R16). -/
def sliceLines : Nat := 192 * 2 ^ 15

/-- A line homed in another package is E or M here from then on; full slices first write the oldest such line back (R356). -/
def State.holdLine (s : State) (line : Nat) : State :=
  if !s.remote (128 * line) || s.putLines.contains line then s
  else
    let t := match s.putLines with
      | old :: r => if s.putLines.length < sliceLines then s else { s with putLines := r }.writeBack old (s.homeOf (128 * old))
      | [] => s
    { t with putLines := t.putLines ++ [line] }

/-- A write of a line homed in another package of the own cell is sent there, and the line is held here (R250, R356). -/
def State.sendCommit (s : State) (ctx line : Nat) (d : SMap Byte) (p : SMap Bool) : State :=
  if s.remote (128 * line) then (s.transmit (s.homeOf (128 * line)) ctx s.tgen (.commit line d p)).holdLine line else s

/-- A write-through reaches the coherent level, behind what is queued at a hot line (R273). -/
def State.landWt (s : State) (w : WriteThrough) : State :=
  ((s.sendCommit (((s.kernel? w.kernel).map Kernel.ctx).getD 0) w.line w.data w.psn).flushHot w.line).cohWriteLine w.line w.data w.psn

/-- Write-throughs reach the coherent level, oldest first. -/
def State.land (s : State) (p : WriteThrough → Bool) : State :=
  (s.wts.filter p).foldl State.landWt { s with wts := s.wts.filter fun w => !p w }

/-- The pending write-throughs of a core to a line reach the coherent level, oldest first. -/
def State.flushLine (s : State) (core line : Nat) : State := s.land fun w => s.ownWt core w && decide (w.line = line)

end Sys2Proof.Machine
end

