-- ==== Sys2Proof/Machine/Copy.lean ====
section
/-! DEFINITION. The copy engine: CPA, CPA.GCM, CPWAIT, CPPOLL, CCTL and the events of a copy (13_spaces R228, R240-R248,
05_context R88). -/

namespace Sys2Proof.Machine

/-! ### Operands (R240, R241) -/

structure CopyOpds where
  id : Nat
  dsp : Space
  ssp : Space
  dst : DWord
  src : DWord
  bytes : Nat
  rows : Nat
  high : Nat
  ds : DWord
  ss : DWord
  ctr : DWord
  key : Nat
  gcm : Bool

def copyOpds (w : Warp) (f : FmtS) (gcm : Bool) : CopyOpds :=
  let g := fun (k : Nat) => (w.greg (f.sa.toNat + k)).v
  { id := fld f.imm.toNat 0 6, dsp := spaceOf (bitsAt f.imm 6 3), ssp := spaceOf (bitsAt f.imm 9 3), dst := g 0, src := g 1,
    bytes := fld (g 2).toNat 0 32, rows := fld (g 2).toNat 32 16, high := fld (g 2).toNat 48 16,
    ds := (bitsAt (g 3) 0 32).signExtend 64, ss := (bitsAt (g 3) 32 32).signExtend 64,
    ctr := if gcm then w.gv f.sb else 0, key := if gcm then fld (w.greg (f.sb.toNat + 1)).v.toNat 0 3 else 0, gcm }

/-- The addresses that are not multiples of 16 (R242). -/
def CopyOpds.offenders (o : CopyOpds) : List Nat :=
  [o.dst, o.src].filterMap (fun a => if a.toNat % 16 ≠ 0 then some a.toNat else none) ++
  (if o.ds.toNat % 16 ≠ 0 then [(o.dst + o.ds).toNat] else []) ++
  (if o.ss.toNat % 16 ≠ 0 then [(o.src + o.ss).toNat] else [])

/-- Whether every byte of a row lies in the valid range of its space (R223), in granules of 16 bytes. -/
def State.covers (s : State) (i : Iss) (sp : Space) (a n : Nat) : Bool :=
  isGen sp || decide (n = 0) ||
    decide (a + n ≤ 2 ^ 27) && (List.range ((n + 15) / 16)).all fun j => s.inSpace i sp (a + 16 * j) (Nat.min 16 (n - 16 * j))

/-- The lowest address of a range outside its space, in granules of 16 bytes. -/
def State.firstOutside (s : State) (i : Iss) (sp : Space) (a n : Nat) : Nat :=
  (((List.range (Nat.min ((n + 15) / 16) (2 ^ 23))).find? fun j => !s.inSpace i sp (a + 16 * j) (Nat.min 16 (n - 16 * j))).map
    fun j => a + 16 * j).getD a

/-- The first address outside its space, with the access needed. -/
def CopyOpds.outside (o : CopyOpds) (s : State) (i : Iss) : Option (Nat × Nat) :=
  let bad := fun (sp : Space) (base : DWord) (st : DWord) =>
    if isGen sp then none else ((copyRows base.toNat st o.rows o.bytes).find? fun r => !s.covers i sp r.1 r.2).map fun r => s.firstOutside i sp r.1 r.2
  match bad o.dsp o.dst o.ds with
  | some a => some (a, 2)
  | none => (bad o.ssp o.src o.ss).map fun a => (a, 1)

/-- Pages that the rows of a destination touch. -/
def CopyOpds.dstPages (o : CopyOpds) : List Nat :=
  distinct ((copyRows o.dst.toNat o.ds o.rows o.bytes).map fun r =>
    if r.2 = 0 then [] else (List.range ((r.1 + r.2 - 1) / 4096 - r.1 / 4096 + 1)).map (r.1 / 4096 + ·)).flatten

/-- Translation of a GEN destination of CPA.GCM at issue (R242): host memory is refused in a confidential context (R88). -/
def CopyOpds.gcmCheck (o : CopyOpds) (s : State) (i : Iss) (w : Warp) : Except Stop Unit :=
  if !o.gcm || decide (o.dsp ≠ .gen) then .ok ()
  else
    let one := fun (p : Nat) =>
      let va := Nat.max (4096 * p) (if o.dst.toNat / 4096 = p then o.dst.toNat else 0)
      match s.genChk i w va .cpDst with
      | .ok => if (s.ctxOf i.ctx).conf && isHost (s.homeOf (s.paOf i va .cpDst)) then Chk.fault .permission va 2 else .ok
      | c => c
    let l : Chks := o.dstPages.map fun p => (0, one p)
    match ctxErrIf s l, firstFault l [.xlate, .permission, .firewall] with
    | .error e, _ => .error e
    | _, some f => .error (.fault s { f with lanes := i.lanes })
    | _, none =>
      match parkIf s l with
      | .error e => .error e
      | .ok _ => waitIf s l

/-- Whether a copy or PUT would touch an L2W window that a CCTL.WAYSET holds (R248). -/
def State.sealedFor (s : State) (i : Iss) (sps : List Space) : Bool := sps.contains .l2w && s.l2wSealed i

/-! ### Issue (R242, R243) -/

/-- Whether a completion ID of a group is in flight, for a copy or a PUT. -/
def State.idBusy (s : State) (g id : Nat) : Bool :=
  let p := s.primaryOf g
  (s.copies.any fun c => decide (c.wid.g = p) && decide (c.cid = id)) ||
    s.puts.any fun c => decide (c.wid.g = p) && decide (c.cid = id)

/-- Writes a completion ID's status word, in both copies of a redundant group (R172, R244). -/
def State.setId (s : State) (g id : Nat) (v : DWord) : State :=
  (s.bothCopies g).foldl (fun t n => t.updGroup n fun x => { x with ids := sset x.ids id v }) s

/-- A status word (R244). -/
def statusWord (code addr : Nat) (dst : Bool) : DWord := BitVec.ofNat 64 (addr / 128 * 128 + bitAt 6 dst + code)

/-- Lines that ranges touch, ascending in each range. -/
def rowLines (l : List (Nat × Nat)) : List Nat :=
  distinct (l.map fun r =>
    if r.2 = 0 then [] else (List.range ((r.1 + r.2 - 1) / 128 - r.1 / 128 + 1)).map (r.1 / 128 + ·)).flatten

/-- The scratchpad lines behind a destination line: groups and line numbers (R228, R172). -/
def State.scrLines (s : State) (g : Nat) (gang : List Nat) (sp : Space) (line : Nat) : List (Nat × Nat) :=
  match sp with
  | .scr => (s.bothCopies g).map fun n => (n, line)
  | .gscr => match nth? gang (128 * line / 2 ^ 19) with
    | none => []
    | some n => [(n, line % 4096)]
  | _ => []

/-- The groups of a group's gang. -/
def State.siblings (s : State) (g : Nat) : List Nat := (((s.group? g).bind fun x => s.gang? x.gang).map Gang.groups).getD []

/-- A copy makes a line absent (R228). -/
def Group.makeAbsent (g : Group) (line id : Nat) : Group :=
  let a := sgetD g.absent line ⟨[], false⟩
  { g with absent := sset g.absent line ⟨a.copies ++ [id], false⟩ }

/-- A copy has done with a line: present when no other copy keeps it absent (R228). -/
def Group.landed (g : Group) (line id : Nat) : Group :=
  match sget? g.absent line with
  | none => g
  | some a =>
    let b : Absent := { a with copies := a.copies.filter (· ≠ id) }
    { g with absent := if b.copies.isEmpty && !b.failed then sdel g.absent line else sset g.absent line b }

/-- A copy whose tag failed leaves its lines absent and failed (R228). -/
def Group.tagFailed (g : Group) (line id : Nat) : Group :=
  match sget? g.absent line with
  | none => g
  | some a => { g with absent := sset g.absent line ⟨a.copies.filter (· ≠ id), true⟩ }

def State.scrUpd (s : State) (wid : WarpId) (sp : Space) (line : Nat) (f : Group → Nat → Group) : State :=
  (s.scrLines wid.g (s.siblings wid.g) sp line).foldl (fun t e => t.updGroup e.1 fun g => f g e.2) s

/-- Creates the copy and its events. -/
def State.forkCopy (s : State) (i : Iss) (o : CopyOpds) (gcm : Option (BitVec 256 × Word × DWord)) : State :=
  let (id, s1) := s.fresh
  let todo := rowLines (copyRows o.dst.toNat o.ds o.rows o.bytes)
  let c : Copy :=
    { id, wid := i.wid, ctx := i.ctx, core := i.core, cid := o.id, dsp := o.dsp, ssp := o.ssp, dst := o.dst.toNat,
      src := o.src.toNat, bytes := o.bytes, rows := o.rows, dstride := o.ds, sstride := o.ss, gcm, verified := false, todo,
      err := none, after := if o.ssp = .cb then (s.engine i.core).ops.map MxOp.id else [], pend := [], pageFail := [], plain := [] }
  let s2 := { s1 with copies := s1.copies ++ [c] }
  let s3 := todo.foldl (fun t n => t.scrUpd i.wid o.dsp n fun g k => g.makeAbsent k id) s2
  let evs := (if gcm.isSome then [Instr.tagVerify id] else []) ++ todo.map (Instr.copyLineWrite id ·) ++ [.copyEnd id]
  ({ s3 with due := s3.due ++ evs }.setId i.wid.g o.id 1)

/-- The copy issues (R243): SHAPE and empty shapes end at once, then the key check of R88. -/
def State.startCopy (s : State) (i : Iss) (o : CopyOpds) : State :=
  let s0 := (s.tieL2w i.wid o.dsp).tieL2w i.wid o.ssp
  if o.bytes % 16 ≠ 0 ∨ o.high ≠ 0 ∨ o.gcm ∧ (o.rows ≠ 1 ∨ 65536 < o.bytes) then s0.setId i.wid.g o.id 3
  else if o.bytes = 0 ∨ o.rows = 0 then s0.setId i.wid.g o.id 0
  else if o.gcm then
    let c := s0.ctxOf i.ctx
    let k := vget c.keys o.key KeySlot.empty
    if !k.full || decide (o.ctr.toNat ≤ k.last.toNat) then s0.setId i.wid.g o.id 4
    else (s0.setCtx i.ctx { c with keys := vset c.keys o.key { k with last := o.ctr } }).forkCopy i o (some (k.key, k.stream, o.ctr))
  else s0.forkCopy i o none

/-- CPA and CPA.GCM, R242; the control registers enter the signature one by one (notes/assumptions/97). -/
def copyInstr (f : FmtS) (gcm : Bool) (ins : Instr) (s : State) : Out :=
  issue s 8 true fun s i =>
    match s.warp? i.wid with
    | none => .ok s
    | some w =>
      match checkWhole s i w i.lanes with
      | .error e => .error e
      | .ok _ =>
        let srcs := fourOf f.sa ++ if gcm then [f.sb.toNat, f.sb.toNat + 1] else []
        match sysRegs s i w srcs [] with
        | .error e => .error e
        | .ok _ =>
          let o := copyOpds w f gcm
          match o.offenders with
          | a :: r => stopFault s .misaligned i.lanes (least (a :: r)) 16
          | [] =>
            if !mayCopyDst o.dsp then stopFault s .permission i.lanes o.dst.toNat 2
            else if !mayCopySrc o.ssp then stopFault s .permission i.lanes o.src.toNat 1
            else
              match o.outside s i with
              | some (a, need) => stopFault s .permission i.lanes a need
              | none =>
                match o.gcmCheck s i w with
                | .error e => .error e
                | .ok _ =>
                  let twin := s.isTwin i.wid.g
                  if s.sealedFor i [o.dsp, o.ssp] then .error (.hold s 10)
                  else if !twin && (s.idBusy i.wid.g o.id || decide (64 ≤ (s.copies.filter fun c => decide (c.core = i.core)).length)) then
                    .error (.hold s 10)
                  else
                    match s.commit i.wid i.lanes i.fall (cmdG ins i.lanes (srcs.map fun r => (w.greg r).v)) with
                    | .error e => .error e
                    | .ok t => .ok ((if twin then t else t.startCopy i o).fallThrough i)

def execCpa (f : FmtS) (s : State) : Out := copyInstr f false (.cpa f) s
def execCpaGcm (f : FmtS) (s : State) : Out := copyInstr f true (.cpaGcm f) s

/-! ### The engine -/

/-- The issue record under which a copy's addresses are resolved. -/
def Copy.iss (c : Copy) : Iss :=
  { wid := c.wid, lanes := allLanes, at_ := Place.zero, size := 8, fall := Place.zero, last := false, handler := false,
    core := c.core, ctx := c.ctx }

/-- Sixteen bytes with the poison of their four words. -/
structure Granule where
  data : List Byte
  psn : List Bool
deriving DecidableEq, Repr

/-- What an engine access finds: data, a wait (with the page requests it waits for), an error with its status code and
address. -/
inductive Got (α : Type) where
  | ok (x : α)
  | wait (s : State) (pend : List Nat)
  | err (s : State) (code addr : Nat)

/-- Status codes of R244 for a fault of an engine access. -/
def statusOf : FaultCode → Nat
  | .xlate => 6
  | .firewall => 8
  | .peerLost => 9
  | .txnTimeout => 10
  | _ => 7

/-- A GEN access of an engine: page requests and fills are served without the program seeing them (R243). -/
def State.engFind (s : State) (core ctx : Nat) (aqi : Nat) (pageFail : List Nat) (va : Nat) (a : Acc) : Got Xl :=
  match s.find core ctx va a pageFail with
  | .ok x => .ok x
  | .fault c _ => .err (s.touchWalk core ctx va) (statusOf c) va
  | .page => let (id, t) := (s.touchWalk core ctx va).requestPage (sectorOf core) aqi ctx (va / 4096) a.need; .wait t [id]
  | .cold t => .wait (s.startFill t) []
  | .hold => .wait (s.recallFor core ctx va) []
  | .ctxErr => .err (s.raiseCtxErr ctx .walkPoison) 6 va

def State.aqiOfWarp (s : State) (w : WarpId) : Nat := ((s.kernelOf w).map Kernel.aqi).getD 0

/-- A copy issued before the commit point of a round is one of the transactions that the drain waits for; a later one's
requests to other packages are held (R374). -/
def State.roundHolds (s : State) (id pa : Nat) : Bool :=
  s.remote pa && ((s.round.map fun (r : Round) => decide (r.phase ≠ .gather) && decide (r.mark ≤ id)).getD false)

def Copy.find (c : Copy) (s : State) (va : Nat) (a : Acc) : Got Xl :=
  match s.engFind c.core c.ctx (s.aqiOfWarp c.wid) c.pageFail va a with
  | .ok x => if s.roundHolds c.id x.pa then .wait s [] else .ok x
  | x => x

def memGranule (m : Mem) (a : Nat) : Granule := ⟨m.bytesAt a 16, (List.range 4).map fun j => m.anyMark (a + 4 * j) 4⟩

/-- Reads one granule of the source (R229, R243, R266, R315). -/
def Copy.read (c : Copy) (s : State) (a : Nat) : Got Granule :=
  if isGen c.ssp then
    match c.find s a .rd with
    | .wait t l => .wait t l
    | .err t k b => .err t k b
    | .ok x =>
      let g := s.forkImg c.wid c.id (lineOf x.pa)
      .ok ⟨(List.range 16).map fun j => g.byte (x.pa + j), (List.range 4).map fun j => (g.mark (x.pa + 4 * j)).isSome⟩
  else
    let (m, k) := s.localMem c.iss c.ssp a
    match c.ssp with
    | .cb => if s.mxLive c.core c.after then .wait s [] else .ok (memGranule m k)
    | .scr | .gscr =>
      match s.scrPlace c.iss c.ssp a with
      | none => .ok (memGranule m k)
      | some (g, o) =>
        match (s.group? g).bind fun x => sget? x.absent (lineOf o) with
        | none => .ok (memGranule m k)
        | some ab =>
          if ab.failed then .err s 5 a
          -- a line that only this copy keeps absent is an overlap of its own (R243)
          else if ab.copies.all (· = c.id) then .ok (memGranule m k) else .wait s []
    | _ => .ok (memGranule m k)

/-- Source granules of a destination granule: one per row that covers it. -/
def Copy.sources (c : Copy) (a : Nat) : List Nat :=
  (List.range c.rows).filterMap fun r =>
    let d := (BitVec.ofNat 64 a - (BitVec.ofNat 64 c.dst + c.dstride * BitVec.ofNat 64 r)).toNat
    if d < c.bytes then some ((BitVec.ofNat 64 c.src + c.sstride * BitVec.ofNat 64 r).toNat + d) else none

/-- Whether an address lies in the source as well, in the same space (R243, Overlap). -/
def Copy.overlap (c : Copy) (a : Nat) : Bool :=
  decide (c.dsp = c.ssp) && (copyRows c.src c.sstride c.rows c.bytes).any fun r => decide (r.1 ≤ a) && decide (a < r.1 + r.2)

/-- A source granule of a copy: of CPA.GCM the plaintext held. -/
def Copy.source (c : Copy) (s : State) (src : Nat) : Got Granule :=
  if c.gcm.isSome then
    let p := (c.plain.drop (src - c.src)).take 16
    .ok ⟨p.map Prod.fst, (List.range 4).map fun j => ((p.drop (4 * j)).take 4).any Prod.snd⟩
  else c.read s src

/-- The granules of a line: all data, or the error with the lowest address, or a wait. -/
def gather (l : List (Nat × Got Granule)) : Got (List (Nat × Granule)) :=
  l.foldr (fun e acc =>
    match e.2, acc with
    | .ok g, .ok r => .ok ((e.1, g) :: r)
    | .ok _, x => x
    | .err s k a, .err t k2 b => if a ≤ b then .err s k a else .err t k2 b
    | .err s k a, _ => .err s k a
    | .wait s l, .ok _ => .wait s l
    | .wait _ _, x => x) (.ok [])

/-- The granule that a destination granule receives, if the copy covers it. Every row's source is read; where several rows write
the granule, in no stated order, it takes one of theirs, freely chosen, and one that the source overlaps takes unspecified
bytes (notes/assumptions/16). -/
def Copy.granule (c : Copy) (s : State) (a : Nat) : Option (Got Granule) :=
  match c.sources a with
  | [] => none
  | l =>
    some (match gather (l.map fun b => (b, c.source s b)) with
      | .wait t p => .wait t p
      | .err t k b => .err t k b
      | .ok gs =>
        let g := (gs.getD (if gs.length = 1 then 0 else Config.copyRow s.tick a % gs.length) (0, ⟨[], []⟩)).2
        .ok (if c.overlap a then { g with data := (List.range 16).map fun j => Config.overlapByte s.tick (a + j) } else g))

def granuleCells (l : List (Nat × Granule)) : SMap Byte := (l.map fun e => cellsOf e.1 e.2.data).flatten
def granulePsn (l : List (Nat × Granule)) : SMap Bool :=
  (l.map fun e => (List.range 4).map fun j => (e.1 / 4 + j, e.2.psn.getD j false)).flatten

/-- Moves cells of a line to another line. -/
def movedTo (onto : Nat) (d : SMap Byte) (p : SMap Bool) : SMap Byte × SMap Bool :=
  (d.map fun e => (128 * onto + e.1 % 128, e.2), p.map fun e => (32 * onto + e.1 % 32, e.2))

/-- An engine's write of a GEN line for instructions of some cores (R266): after the cores' own earlier writes of the line, at
the coherent level; the cores' read copies are dropped and an owned line is recalled. -/
def State.engineWrite (s : State) (cores : List Nat) (line : Nat) (d : SMap Byte) (p : SMap Bool) : State :=
  let t := (cores.foldl (fun t c => t.flushLine c line) s).flushHot line
  cores.foldl (fun t c => t.dropLine c line) ({ t with owned := sdel t.owned line }.cohWriteLine line d p)

/-- As `engineWrite`, of a line that may be homed in another package of the own cell: the write is sent to its home (R250). -/
def State.engineStore (s : State) (ctx : Nat) (cores : List Nat) (line : Nat) (d : SMap Byte) (p : SMap Bool) : State :=
  (s.sendCommit ctx line d p).engineWrite cores line d p

/-- Writes bytes of a line in a space other than GEN, in both copies where the space is the group's own (R172). -/
def State.localWrite (s : State) (i : Iss) (sp : Space) (line : Nat) (d : SMap Byte) (p : SMap Bool) : State :=
  match sp with
  | .l2w =>
    let key := s.l2wFor i.wid
    let x := s.l2wOf key
    let inw := d.filter fun e => decide (e.1 < x.size)
    (s.setL2w key { x with mem := (x.mem.setCells inw).setPsn (if inw.isEmpty then [] else p) }).noteWrite
      (lineOf (l2wAddr key (128 * line)))
  | .gscr =>
    match s.scrPlace i sp (128 * line) with
    | none => s
    | some (g, o) =>
      let (d, p) := movedTo (lineOf o) d p
      s.updGroup g fun x => { x with scr := (x.scr.setCells d).setPsn p }
  | _ => (s.bothCopies i.wid.g).foldl (fun t n =>
      t.updGroup n fun x => x.setBuf sp (((x.buf sp).setCells d).setPsn p)) s

def State.updCopy (s : State) (id : Nat) (f : Copy → Copy) : State :=
  { s with copies := s.copies.map fun c => if c.id = id then f c else c }

/-- The copy stops with a status (R243). -/
def State.failCopy (s : State) (c : Copy) (code addr : Nat) (dst : Bool) : State :=
  s.updCopy c.id fun x => { x with err := some (statusWord code addr dst) }

/-- Where the line's share goes: a physical line for GEN (host memory is refused to CPA.GCM in a confidential context,
R88), else the line itself. -/
def Copy.place (c : Copy) (s : State) (line : Nat) : Got Nat :=
  if isGen c.dsp then
    match c.find s (128 * line) .cpDst with
    | .wait t l => .wait t l
    | .err t k a => .err t k a
    | .ok x =>
      if c.gcm.isSome && (s.ctxOf c.ctx).conf && isHost (s.homeOf x.pa) then .err s 7 (128 * line) else .ok (lineOf x.pa)
  else .ok line

/-- A copy waits for page requests, a fill or a hold (R243). -/
def State.copyWaits (s : State) (id : Nat) (pend : List Nat) : State := s.updCopy id fun x => { x with pend := pend }

/-- The tier pages that a copy's reads have reached, tables included, abandon their eviction (R345); lines of the host are held
shared (R418). -/
def Copy.keepSources (c : Copy) (s : State) (l : List Nat) : State :=
  if s.tier.isEmpty && s.homes.isEmpty || !isGen c.ssp then s
  else
    l.foldl (fun t a => match c.find t a .rd with
      | .ok x => ((t.touchWalk c.core c.ctx a).touchTier x.pa).shareHost (lineOf x.pa)
      | _ => t) s

/-- As `keepSources`, of the sources of a line's granules. -/
def Copy.keepTier (c : Copy) (s : State) (gs : List (Nat × Granule)) : State := c.keepSources s (gs.map fun e => c.sources e.1).flatten

/-- COPY_LINE_WRITE: one destination line's share is written in one step (R243). -/
def execCopyLineWrite (id line : Nat) (s : State) : Out :=
  match s.copies.find? fun c => decide (c.id = id) with
  | none => event s
  | some c =>
    if c.err.isSome || !decide (line ∈ c.todo) then event s
    else if c.gcm.isSome && !c.verified then event (s.addDue (.copyLineWrite id line))
    else
      match gather ((List.range 8).filterMap fun j => (c.granule s (128 * line + 16 * j)).map fun g => (128 * line + 16 * j, g)) with
      | .wait t l => event ((t.copyWaits id l).addDue (.copyLineWrite id line))
      | .err t k a => event (t.failCopy c k a false)
      | .ok gs =>
        match c.place s line with
        | .wait t l => event ((t.copyWaits id l).addDue (.copyLineWrite id line))
        | .err t k a => event (t.failCopy c k a true)
        | .ok onto =>
          let s := c.keepTier s gs
          let d := granuleCells gs
          let p := granulePsn gs
          let t := if isGen c.dsp then let m := movedTo onto d p; s.engineStore c.ctx (s.coresFor c.wid) onto m.1 m.2
            else s.localWrite c.iss c.dsp line d p
          let u := t.scrUpd c.wid c.dsp line fun g k => g.landed k id
          event ((u.updCopy id fun x => { x with todo := x.todo.filter (· ≠ line) }).wakeParked)

/-- Poison-marks a destination line with the cause TAG_FAIL (R88). -/
def State.markTagFail (s : State) (c : Copy) (line : Nat) : State :=
  let mark := fun (m : Mem) (w : Nat) => (List.range 32).foldl (fun x j => x.setMark (w + j) (some .tagFail)) m
  match c.dsp with
  | .gen | .const =>
    (match c.find s (128 * line) .cpDst with
      | .ok x =>
        -- a write of the engine: the warp's earlier writes of the line come before it (R266)
        let n := lineOf x.pa
        let t := (((s.flushLine c.core n).flushHot n).touchTier x.pa).dropEntry n
        let u := { t with mem := mark t.mem (32 * n), owned := sdel t.owned n }
        ((s.coresFor c.wid).foldl (fun v k => v.dropLine k n) u).noteWrite n
      | _ => s)
  | .l2w =>
    let key := s.l2wFor c.wid
    let x := s.l2wOf key
    (s.setL2w key { x with mem := mark x.mem (32 * line) }).noteWrite (lineOf (l2wAddr key (128 * line)))
  | .gscr => (s.scrLines c.wid.g (s.siblings c.wid.g) .gscr line).foldl
      (fun t e => t.updGroup e.1 fun g => { g with scr := mark g.scr (32 * e.2) }) s
  | sp => (s.bothCopies c.wid.g).foldl (fun t n => t.updGroup n fun g => g.setBuf sp (mark (g.buf sp) (32 * line))) s

/-- The tag behind the ciphertext: outside the valid range of its space it ends the copy with PERMISSION (R223, R243). -/
def Copy.readTag (c : Copy) (s : State) : Got Granule :=
  if isGen c.ssp || s.inSpace c.iss c.ssp (c.src + c.bytes) 16 then c.read s (c.src + c.bytes) else .err s 7 (c.src + c.bytes)

/-- The first destination line of a copy that must wait for its translation. -/
def Copy.waiting (c : Copy) (s : State) : Option (State × List Nat) :=
  c.todo.findSome? fun n => match c.place s n with
    | .wait t l => some (t, l)
    | _ => none

/-- TAG_VERIFY (R88, R228, R243): the ciphertext and the tag behind it are read; a good tag lets the lines be written, a bad
one ends the copy with TAG_FAIL, SIDE 1. -/
def execTagVerify (id : Nat) (s : State) : Out :=
  match s.copies.find? fun c => decide (c.id = id) with
  | none => event s
  | some c =>
    match c.gcm with
    | none => event s
    | some (key, stream, ctr) =>
      if c.verified || c.err.isSome then event s
      else
        match gather (((List.range (c.bytes / 16)).map fun j => (c.src + 16 * j, c.read s (c.src + 16 * j))) ++ [(c.src + c.bytes, c.readTag s)]) with
        | .wait t l => event ((t.copyWaits id l).addDue (.tagVerify id))
        | .err t k a => event (t.failCopy c k a false)
        | .ok gs =>
          let s := c.keepSources s (gs.map Prod.fst)
          let body := (gs.take (c.bytes / 16))
          let cipher := (body.map fun e => e.2.data).flatten
          let tag := ((gs.drop (c.bytes / 16)).map fun e => e.2.data).flatten
          let psn := (body.map fun e => (List.range 16).map fun j => e.2.psn.getD (j / 4) false).flatten
          if (Config.gcmTag key stream ctr cipher).toList = tag then
            let plain := Config.gcmPlain key stream ctr cipher
            event (s.updCopy id fun x => { x with verified := true, plain := psn.zipIdx.map fun e => (plain e.2, e.1) })
          else
            match c.waiting s with
            | some (t, l) => event ((t.copyWaits id l).addDue (.tagVerify id))
            | none =>
            let lo := least c.todo
            event ((c.todo.foldl (fun t n => t.markTagFail c n) s).failCopy c 5 (128 * lo) true)

/-- Every line that a copy made absent and has not landed is released, or failed (R228). -/
def State.endAbsent (s : State) (c : Copy) (tagFail : Bool) : State :=
  c.todo.foldl (fun t n => t.scrUpd c.wid c.dsp n fun g k => if tagFail then g.tagFailed k c.id else g.landed k c.id) s

/-- COPY_END: the ID takes the copy's status word, lines left absent become present (R228, R244). -/
def execCopyEnd (id : Nat) (s : State) : Out :=
  match s.copies.find? fun c => decide (c.id = id) with
  | none => event s
  | some c =>
    if c.err.isNone && !c.todo.isEmpty then event (s.addDue (.copyEnd id))
    else
      let v := c.err.getD 0
      let t := (s.endAbsent c (decide (v.toNat % 128 = 69))).setId c.wid.g c.cid v
      event (({ t with copies := t.copies.filter fun x => decide (x.id ≠ id) }.wakeParked).groupCheck c.wid.g)

/-! ### CPWAIT, CPPOLL (R245, R246) -/

/-- The join of a set of IDs: held until none is in flight, then the first bad status. -/
def cpJoin (s : State) (i : Iss) (d : Nat) (ids : List Nat) : Except Stop State :=
  if ids.any (s.idBusy i.wid.g) then .error (.hold s 10)
  else
    let st := fun n => ((s.group? i.wid.g).map fun g => sgetD g.ids n 2).getD (2 : DWord)
    let bad := ids.find? fun n => decide ((st n).toNat % 32 ≠ 0) && decide ((st n).toNat % 32 ≠ 2)
    .ok (s.putG i.wid d ((bad.map st).getD 0))

def execCpwait (f : FmtS) (s : State) : Out :=
  sysFrame s false [f.sa.toNat] [f.d.toNat] fun s i w =>
    cpJoin s i f.d.toNat ((List.range 64).filter fun n => (w.gv f.sa).getLsbD n)

def execCpwaitId (f : FmtS) (s : State) : Out :=
  sysFrame s false [] [f.d.toNat] fun s i _ => cpJoin s i f.d.toNat [fld f.imm.toNat 0 6]

def execCppoll (f : FmtS) (s : State) : Out :=
  sysFrame s false [] [f.d.toNat] fun s i _ =>
    .ok ((s.startLoad i.wid (.poll (fld f.imm.toNat 0 6) f.d.toNat) [] 0 []).updWarp i.wid fun w => w.emptyG f.d.toNat)

/-! ### CCTL (R248) -/

def execCctlInv (f : FmtS) (s : State) : Out :=
  let _ := f
  sysFrame s false [] [] fun s i _ => .ok (s.setCore i.core Core.empty)

/-- CCTL.INVR: read copies of both kinds and instruction bytes in a range of VAs. -/
def State.dropRange (s : State) (core ctx a n : Nat) : State :=
  let c := s.core core
  let code := c.code.filter fun e =>
    !(decide (e.1 / 2 ^ 57 = ctx) && decide (e.1 % 2 ^ 57 < a + n) && decide (a < e.1 % 2 ^ 57 + 4) && decide (0 < n))
  s.setCore core ⟨c.copies.filter fun e => !(decide (0 < n) && inRanges ctx [(a, n)] e.2.tags), code⟩

def execCctlInvr (f : FmtS) (s : State) : Out :=
  sysFrame s false [f.sa.toNat, f.sb.toNat] [] fun s i w =>
    .ok (s.dropRange i.core i.ctx (w.gv f.sa).toNat (w.gv f.sb).toNat)

/-- Whether an L2W access of the context is in flight in the sector. -/
def State.l2wBusy (s : State) (key : Nat) : Bool :=
  let mine := fun (w : WarpId) => decide (s.l2wFor w = key)
  (s.copies.any fun c => mine c.wid && (decide (c.dsp = .l2w) || decide (c.ssp = .l2w))) ||
  (s.puts.any fun c => mine c.wid && decide (c.ssp = .l2w)) ||
  (s.hot.any fun e => isL2w (128 * e.1) && decide (l2wKeyOf (128 * e.1) = key) && !e.2.isEmpty) ||
  s.allWarps.any fun w => mine w && (((s.warp? w).map Warp.loads).getD []).any fun l =>
    match l.kind with
    | .mem .l2w _ _ _ => true
    | _ => false

/-- The posted masks are installed and the new window reads zero (R232, R248). -/
def State.installWays (s : State) (key : Nat) (m : BitVec 16 × BitVec 16) : State :=
  let s1 := s.setL2w key { cache := m.1, scratch := m.2, posted := none, mem := Mem.empty }
  let lines := distinct ((s1.waits.map fun e => e.2.entries.map Entry.line).flatten.filter fun n =>
    isL2w (128 * n) && decide (l2wKeyOf (128 * n) = key))
  lines.foldl (fun t n => t.noteWrite n) s1

def execCctlWayset (f : FmtS) (s : State) : Out :=
  sysFrame s false [] [f.d.toNat] fun s i _ =>
    let key := l2wKey i.ctx (sectorOf i.core)
    match (s.l2wOf key).posted with
    | none => .ok (s.putG i.wid f.d.toNat 1)
    | some m =>
      if s.l2wBusy key then .error (.hold (s.updWarp i.wid fun w => { w with sealing := true }) 10)
      else .ok ((s.installWays key m).putG i.wid f.d.toNat 0)

end Sys2Proof.Machine
end

