-- ==== Sys2Proof/Machine/Atomic.lean ====
section
/-! DEFINITION. ATOM, RED, CAS and their write-back, ownership and hot mode, RTREE and the reduction trees (15_atomics). -/

namespace Sys2Proof.Machine

/-- A request of a core after its own earlier writes of the line (R251). -/
def State.performMem (s : State) (core : Nat) (q : AtomReq) : State :=
  (if isL2w q.addr then s else s.flushLine core (lineOf q.addr)).performOwn q

/-- Performs a request in scratchpads: the word of the first group, the result in all of them (both copies of a redundant
group's own scratchpad). -/
def State.performScr (s : State) (gs : List Nat) (o : Nat) (q : AtomReq) : (DWord × Bool) × State :=
  let n := atomBytes q.ty
  let m := ((s.group? (gs.headD 0)).map Group.scr).getD Mem.empty
  let (new, r) := q.result (BitVec.ofNat 64 (m.nat o n)) (m.anyMark o n)
  match new with
  | none => (r, s)
  | some (v, p) => (r, gs.foldl (fun t g => t.updGroup g fun x => { x with scr := x.scr.write o (leBytes v.toNat n) p }) s)

/-! ### Ownership and hot mode (R271-R273, R354) -/

/-- Owners of lines by number (R273): a core, a package of the own cell, another cell. -/
def pkgOwner (pkg : Nat) : Nat := 1000 + pkg
def cellOwner (cell : Nat) : Nat := 2000 + cell

/-- Ownership of a line passes from its last owner to another, a core or a package (R273): the eighth transfer within 1,024
cycles makes a line homed here hot, where its slice has room. -/
def State.countPass (s : State) (line owner : Nat) : State :=
  if s.isHot line || decide (s.homeOf (128 * line) ≠ s.pkg) || decide (sget? s.lastOwner line = some owner) then s
  else if (sget? s.lastOwner line).isNone then { s with lastOwner := sset s.lastOwner line owner }
  else
    let s := { s with lastOwner := sset s.lastOwner line owner }
    let n := sgetD s.transfers line 0 + 1
    if decide (8 ≤ n) && Config.passedFast s.tick line then
      if s.hotInSlice line < 16 then { s with hot := sset s.hot line [], transfers := sdel s.transfers line }
      else { s with transfers := sset s.transfers line 0 }
    else { s with transfers := sset s.transfers line n }

/-- To make room in a die's snoop filter an owned line may be recalled (R354, notes/assumptions/80). -/
def State.snoopEvict (s : State) (core line : Nat) : State :=
  let die := fun (c : Nat) => dieOf (sectorOf c)
  if !(s.owned.any fun e => decide (e.1 ≠ line) && decide (die e.2 = die core)) then s
  else
    let v := Config.snoopVictim s.tick (die core)
    if v ≠ line ∧ (sget? s.owned v).map die = some (die core) then { s with owned := sdel s.owned v } else s

/-- Ownership of a line passes to a core (R271, R272, R354): the owner elsewhere is recalled, and the core's own read copies
give way to the line. A hot line is granted to no core. -/
def State.takeOwnership (s : State) (core line : Nat) : State :=
  if s.isHot line || decide (sget? s.owned line = some core) then s
  else
    let t := ((((s.holdLine line).obtain line).countPass line core).recallDir line).dropLine core line
    if t.isHot line then { t with owned := sdel t.owned line }
    else
      let u := (t.snoopEvict core line).l1Room core
      { u with owned := sset u.owned line core }

/-- OWNERSHIP_REQUEST: a core's request for a line, which waits for the recall of one that another package holds (R354); one of
the host's is granted by the host (R417). -/
def execOwnershipRequest (core line : Nat) (s : State) : Out :=
  if s.recallWaits line then event { s.askRecall line with ownAsks := addOnce (core, line) (s.askRecall line).ownAsks }
  else event (s.takeOwnership core line)

/-- Cores' requests for lines that are home again are granted, oldest first. -/
def State.grantOwn (s : State) : State :=
  (s.ownAsks.filter fun e => !s.recallWaits e.2).foldl (fun t e => t.takeOwnership e.1 e.2)
    { s with ownAsks := s.ownAsks.filter fun e => s.recallWaits e.2 }

/-- HOT_MODE_EXPIRY: a hot line with no atomic queued is ordinary again (R273). -/
def execHotModeExpiry (line : Nat) (s : State) : Out :=
  match sget? s.hot line with
  | some [] => event { s with hot := sdel s.hot line }
  | _ => event s

/-! ### Results (R277, R279) -/

/-- HOT_QUEUE_RETIRE: the oldest queued request is performed, with the instruction's other requests behind it (R273, R274). -/
def execHotQueueRetire (line : Nat) (s : State) : Out := event (s.retireHot line)

/-- ATOMIC_WRITEBACK (R277): when every lane has returned, D is written and full; the twin of a redundant group takes the
primary's results (R172). -/
def execAtomicWriteback (w : WarpId) (id : Nat) (s : State) : Out :=
  match (s.warp? w).bind fun x => x.atoms.find? fun a => decide (a.id = id) with
  | none => event s
  | some a =>
    let give := fun (t : State) (res : List (Nat × Nat × Lane)) =>
      t.updWarp w fun x => ({ x with atoms := x.atoms.filter fun b => decide (b.id ≠ id) }).deliverAll a.regs a.zero res
    if s.isTwin w.g then
      match (s.warp? w).bind fun x => sget? x.mail id with
      | some (.atom res) => event ((give s res).updWarp w fun x => { x with mail := sdel x.mail id })
      | _ => event (s.addDue (.atomicWriteback w id))
    else if a.left ≠ 0 then event (s.addDue (.atomicWriteback w id))
    else
      let t := match s.twinOf w.g with
        | none => s
        | some g => s.updWarp ⟨g, w.w⟩ fun x => { x with mail := sset x.mail id (.atom a.res) }
      event (give t a.res)

/-! ### ATOM, RED and CAS -/

/-- The operand of a lane: for CAS the compare and the swap value (R277). -/
def Mx.atomOperand (x : Mx) (cas : Bool) (ty : Ty) (L : Nat) : DWord × DWord × Bool :=
  match x.d with
  | .v r _ =>
    let k := regs (tyPair ty)
    let a := (Rs.v r k).read x.w L
    let b := (Rs.v (r + k) k).read x.w L
    if cas then (a.1, b.1, a.2 || b.2) else (a.1, 0, a.2)
  | _ => (0, 0, false)

/-- A table read that timed out, or whose home is lost (R359, R361). -/
def State.walkLost (s : State) (i : Iss) (w : Warp) (va : Nat) (a : Acc) : Chk :=
  match w.txnOf (s.walkLines i.core i.ctx va) with
  | some n => .fault .txnTimeout va (s.homeOf (128 * n))
  | none =>
    match s.translate i.core i.ctx va a.need with
    | .lost c => .fault .peerLost va c
    | _ => .ok

/-- The translation checks of AtomBody: the walk's own loss comes before the commit (R361), a lost home of the line is met by
Perform (R279). -/
def atomChecks (s : State) (i : Iss) (w : Warp) (sp : Space) (n : Nat) (pl : List (Nat × Nat)) : Except Stop Unit :=
  if isGen sp then
    let l : Chks := pl.map fun e => (e.1, s.genChk i w e.2 .at)
    match findChecks s l with
    | .error e => .error e
    | .ok _ =>
      match faultIf s (pl.map fun e => (e.1, s.walkLost i w e.2 .at)) [.txnTimeout, .peerLost] with
      | .error e => .error e
      -- a lane whose request for its line timed out meets that in Perform
      | .ok _ => waitFor s i (l.filter fun e => (pl.filter fun p => decide (p.1 = e.1)).any fun p => decide (s.txnChk i w p.2 = .ok)) (pl.map Prod.snd)
  else placeChecks s i w sp .at n pl

/-- The physical address of an atomic, whether or not its home can be reached. -/
def State.atomPa (s : State) (i : Iss) (va : Nat) : Nat :=
  match s.translate i.core i.ctx va 0 with
  | .ok x => x.pa
  | _ => 0

/-- What Perform meets in a lane of GEN: a lost home or a request that timed out (R279). -/
def State.atomLost (s : State) (i : Iss) (w : Warp) (va : Nat) : Chk :=
  match s.genChk i w va .at with
  | .fault c a d => .fault c a d
  | _ => s.txnChk i w va

/-- The requests that lanes homed in other packages send: ownership of a line in the own cell, else the atomic itself, performed
at the line's home agent (R271, R357). They are out before Perform meets their answers (R279, notes/assumptions/77). -/
def State.askAtoms (s : State) (i : Iss) (x : Mx) (fn : Option AtomFn) (ty : Ty) : Except Stop Unit :=
  let new := x.places.filter fun e => s.remote (s.atomPa i e.2) && !x.w.asked.contains (lineOf (s.atomPa i e.2))
  if new.isEmpty || s.isTwin i.wid.g then .ok ()
  else if s.roundOn then .error (.hold s 10)
  else
    let ask := fun (e : Nat × Nat) =>
      let (o, o2, po) := x.atomOperand fn.isNone ty e.1
      if s.otherCell (s.atomPa i e.2) then PacketKind.atom fn ty (s.atomPa i e.2) o o2 po else .own (128 * lineOf (s.atomPa i e.2))
    let t := new.foldl (fun t e => t.transmit (s.homeOf (s.atomPa i e.2)) i.ctx s.tgen (ask e)) s
    .error (.hold (t.updWarp i.wid fun w => { w with asked := w.asked ++ new.map fun e => lineOf (s.atomPa i e.2) }) 10)

/-- One lane is performed at the place of R271, or queued at a hot line; `q.addr` is where GEN's translation put it. -/
def State.atomLane (s : State) (i : Iss) (sp : Space) (q : AtomReq) (a : Nat) : State :=
  match sp with
  | .scr | .gscr =>
    match s.scrPlace i sp a with
    | none => s
    | some (g, o) =>
      let p := s.performScr (if sp = .scr then s.bothCopies g else [g]) o q
      p.2.atomGot q p.1
  | .l2w =>
    s.performMem i.core { q with addr := l2wAddr (s.l2wFor i.wid) a }
  | _ =>
    let pa := q.addr
    let t := if s.otherCell pa then s else s.takeOwnership i.core (lineOf pa)
    if t.isHot (lineOf pa) then
      -- the core's earlier writes arrive before the request does
      let u := (t.flushLine i.core (lineOf pa)).hotRoom (lineOf pa)
      { u with hot := sset u.hot (lineOf pa) ((sget? u.hot (lineOf pa)).getD [] ++ [q]), due := u.due ++ [.hotQueueRetire (lineOf pa)] }
    else t.performMem i.core q

/-- The registers that an atomic returns into: none for RED, half of D for CAS. -/
def atomRegs (kind : Option AtomFn) (red : Bool) (d : Rs) : List Nat :=
  if red then []
  else
    match kind with
    | some _ => d.regs
    | none => d.regs.take (d.regs.length / 2)

/-- The atomic's own step after its commit: D is emptied, every lane is sent in ascending order; lanes whose home is lost
leave their locations alone and fault (R279). -/
def State.sendAtoms (s : State) (i : Iss) (x : Mx) (sp : Space) (fn : Option AtomFn) (red : Bool) (ty : Ty) : Except Stop State :=
  let id := ((s.warp? i.wid).map Warp.commits).getD 0
  let rs := atomRegs fn red x.d
  let lost : Chks := if isGen sp then x.places.map fun e => (e.1, s.atomLost i x.w e.2) else []
  let bad := fun (L : Nat) => lost.any fun e => decide (e.1 = L) && decide (e.2 ≠ .ok)
  let go := x.places.filter fun e => !bad e.1
  let wb : AtomWb := { id := id, regs := rs, lanes := maskOfList (go.map Prod.fst), zero := x.zeroMask, res := [], left := go.length }
  let s1 := if red then s else
    (s.updWarp i.wid fun w => rs.foldl Warp.emptyV { w with atoms := w.atoms ++ [wb] }).addDue (.atomicWriteback i.wid id)
  let s2 := if s.isTwin i.wid.g then s1 else
    go.foldl (fun t e =>
      let (o, o2, po) := x.atomOperand fn.isNone ty e.1
      t.atomLane i sp { wid := i.wid, id := id, lane := e.1, fn := fn, ty := ty, addr := s.atomPa i e.2, o := o, o2 := o2, po := po } e.2)
      ((s1.touchAll i sp .at go).tieL2w i.wid sp)
  match firstFault lost [.txnTimeout, .peerLost] with
  | none => .ok (s2.fallThrough i)
  | some f => .error (.fault (s2.updWarp i.wid fun w => { w with txnLost := [], asked := [] }) { f with late := true })

/-- ATOM, RED and CAS, R277. CAS enters the signature with its compare values, then its swap values (notes/assumptions/97). -/
def atomic (f : FmtM) (q : MSpec) (fn : Option AtomFn) (red : Bool) (ins : Instr) (s : State) : Out :=
  memFrame s f q false true fun s i x =>
    let n := atomBytes f.ty
    match spaceChecks s i f.sp (mayAtom f.sp) 0b010#3 n n x.places with
    | .error e => .error e
    | .ok _ =>
      match atomChecks s i x.w f.sp n x.places with
      | .error e => .error e
      | .ok _ =>
        let opd := x.atomOperand fn.isNone f.ty
        let away := fun (a : Nat) => isGen f.sp && decide (s.homeOf (s.atomPa i a) ≠ s.pkg)
        let bad : Chks := x.places.map fun e =>
          (e.1, if (opd e.1).2.2 && away e.2 then .fault .poison 0 0 else .ok)
        match faultIf s bad [.poison] with
        | .error e => .error e
        | .ok _ =>
          let vals := [fun L => (opd L).1] ++ (if fn.isNone then [fun L => (opd L).2.1] else []) ++ [fun L => (x.base.read x.w L).1] ++
            (if f.nb then [] else [fun L => (x.ofs.read x.w L).1])
          match (if isGen f.sp then s.askAtoms i x fn f.ty else .ok ()) with
          | .error e => .error e
          | .ok _ =>
          match s.commit i.wid i.lanes i.fall (cmdOf ins x.act vals) with
          | .error e => .error e
          | .ok t => t.sendAtoms i x f.sp fn red f.ty

def execAtom (fn : AtomFn) (f : FmtM) (s : State) : Out :=
  atomic f (mPlain (atomTys fn) (mdT f.ty)) (some fn) false (.atom fn f) s
def execRed (fn : AtomFn) (f : FmtM) (s : State) : Out :=
  atomic f { mPlain (atomTys fn) (mdT f.ty) with zOk := false } (some fn) true (.red fn f) s
def execCas (f : FmtM) (s : State) : Out :=
  atomic f (mPlain tBits (.v (2 * regs (tyPair f.ty)) (2 * regs (tyPair f.ty)))) none false (.cas f) s

/-! ### Reduction trees (R281-R288) -/

/-- Shape 0, pairwise, and shape 1, left chain (R284). -/
def shape0 : Shape :=
  ⟨(List.range 15).map fun i => BitVec.ofNat 8 (if i ≤ 6 then 0x10 + 2 * i + 1 else 2 * (i - 7)),
   (List.range 15).map fun i => BitVec.ofNat 8 (if i ≤ 6 then 0x10 + 2 * i + 2 else 2 * (i - 7) + 1), 0xFFFF⟩
def shape1 : Shape :=
  ⟨(List.range 15).map fun i => BitVec.ofNat 8 (if i ≤ 13 then 0x10 + i + 1 else 0),
   (List.range 15).map fun i => BitVec.ofNat 8 (if i ≤ 13 then 15 - i else 1), 0xFFFF⟩

/-- A sector's shape slot; firmware loads slots 0 and 1 by default (R284). -/
def State.shapeAt (s : State) (sector slot : Nat) : Option Shape :=
  match sget? s.shapes (sector * 8 + slot) with
  | some x => some x
  | none => if slot = 0 then some shape0 else if slot = 1 then some shape1 else none

/-- One lane of a node (R285); none is EMPTY. -/
def nodeVal (sh : Shape) (ty : Ty) (leaf : Nat → Option Word) : Nat → Nat → Option Word
  | 0, _ => none
  | fuel + 1, code =>
    if code < 16 then (if sh.leaves.getLsbD code then leaf code else none)
    else if code = 0xFF then none
    else
      let i := code - 16
      let l := nodeVal sh ty leaf fuel (sh.left.getD i 0xFF).toNat
      let r := nodeVal sh ty leaf fuel (sh.right.getD i 0xFF).toNat
      match l, r with
      | none, x => x
      | x, none => x
      | some a, some b => some (if ty = .f32 then BitVec.ofNat 32 (fAdd fp32 .rne a.toNat b.toNat).1 else a + b)

/-- The result of an instance: node 0, lane by lane. -/
def treeResult (t : Tree) (ty : Ty) : List Word :=
  (List.range 32).map fun L =>
    (nodeVal t.shape ty (fun n => (t.got.find? fun c => decide (c.leaf = n)).map fun c => c.x.toList.getD L 0) 16 0x10).getD 0

def treeKey (ctx sector shape : Nat) : Nat := (ctx * 16 + sector) * 8 + shape

/-- Status word of R287. -/
def treeStatus (tag missing status : Nat) : DWord := BitVec.ofNat 64 (tag * 2 ^ 48 + missing * 2 ^ 16 + status)

/-- A contribution is settled: its D takes the status word and is full, in both copies (R172, R287). -/
def State.settle (s : State) (c : Contrib) (v : DWord) : State :=
  let put := fun (w : Warp) => (w.setG c.d ⟨v, false⟩).fillG c.d
  let s1 := s.updWarp c.wid put
  match s.twinOf c.wid.g with
  | none => s1
  | some g => s1.updWarp ⟨g, c.wid.w⟩ fun w =>
      if c.commit ≤ w.commits then put w else { w with mail := sset w.mail c.commit (.g v) }

/-- Leaves of LEAVES that did not contribute. -/
def Tree.missing (t : Tree) : Nat :=
  ((List.range 16).filter fun n => t.shape.leaves.getLsbD n && !(t.got.any fun c => decide (c.leaf = n))).foldl
    (fun m n => m + 2 ^ n) 0

/-- The closing writes of R288, in order, each a target with its bytes; none for the counter. They stop at a target whose
home is lost or whose request timed out; a walk that meets poison is a context error (R86). -/
def closeWrites (s : State) (t : Tree) (c : Contrib) : List (Nat × Option (List Byte)) → State × Bool
  | [] => (s, true)
  | (va, d) :: r =>
    match s.engFind c.core c.ctx (s.aqiOfWarp c.wid) t.pageFail va .ew with
    | .ok x =>
      if t.lost && s.remote x.pa then (s, false)
      else
        let cores := (t.got.map fun g => s.coresFor g.wid).flatten
        let v := match d with
          | some bytes => s.engineStore c.ctx cores (lineOf x.pa) (cellsOf x.pa bytes) (psnEffect x.pa bytes.length false)
          | none =>
            let u := (s.flushLine c.core (lineOf x.pa)).flushHot (lineOf x.pa)
            let (m, p) := u.readWord x.pa 8
            u.engineStore c.ctx cores (lineOf x.pa) (cellsOf x.pa (leBytes (m + 1).toNat 8)) (psnEffect x.pa 8 p)
        closeWrites v t c r
    | .err u _ _ => (u, false)
    | .wait u _ => (u, false)

/-- Whether a target of an instance must wait: a page request, a fill or a held home (R243); the state has the requests. -/
def closeWait (s : State) (t : Tree) (c : Contrib) : List Nat → Option (State × List Nat)
  | [] => none
  | va :: r =>
    match s.engFind c.core c.ctx (s.aqiOfWarp c.wid) t.pageFail va .ew with
    | .wait u l => some (u, l)
    | _ => closeWait s t c r

/-- What the contributors committed before their RTREE reaches every observer before the counter moves (R269): their
write-throughs arrive. -/
def State.releaseWts (s : State) (cs : List Contrib) : State :=
  let mine := s.wts.filter fun t => cs.any fun c => decide (t.wid = c.wid) && decide (t.id < c.id)
  mine.foldl (fun t w => t.flushLine w.core w.line) s

def State.groupsCheck (s : State) (gs : List Nat) : State := (distinct gs).foldl (fun t g => t.groupCheck g) s

/-- The closing writes of an instance, then every recorded contributor's D (R288). -/
def closeTree (s : State) (t : Tree) (c : Contrib) (timeout : Bool) : State :=
  let missing := if timeout then t.missing else 0
  let v := treeStatus c.tag missing (if timeout then 1 else 0)
  let res := ((treeResult t c.ty).map fun x => leBytes x.toNat 4).flatten
  let ws := (if timeout then [] else [(c.result, some res)]) ++ [(c.status, some (leBytes v.toNat 8)), (c.counter, none)]
  let (u, ok) := closeWrites (s.releaseWts t.got) t c ws
  let w := if ok then v else treeStatus c.tag missing 6
  (t.got.foldl (fun z d => z.settle d w) u).groupsCheck (t.got.map fun d => d.wid.g)

/-- A closed instance under a name of its own: its closing writes follow once its targets can be reached (R243, R286). -/
def State.runClose (s : State) (name : Nat) (t : Tree) : State :=
  match t.got with
  | [] => s
  | c :: _ =>
    let timeout := decide (t.closing = some 1)
    match closeWait s t c ((if timeout then [] else [c.result]) ++ [c.status, c.counter]) with
    | some (u, l) => ({ u with trees := sset u.trees name { t with pend := l } }).addDue (.contribution c.id)
    | none => closeTree { s with trees := sdel s.trees name } t c timeout

/-- An open instance closes with a status of R287 (R286). -/
def State.beginClose (s : State) (key : Nat) (t : Tree) (status : Nat) : State :=
  let (n, s1) := s.fresh
  let tag := (t.got.head?.map Contrib.tag).getD 0
  ({ s1 with trees := sdel s1.trees key, lastTag := sset s1.lastTag key tag }).runClose (2 ^ 32 * (n + 1)) { t with closing := some status }

/-- Whether every leaf of LEAVES has contributed. -/
def Tree.full (t : Tree) : Bool := decide (t.missing = 0)

/-- Records a contribution; the last leaf closes the instance. -/
def State.recordLeaf (s : State) (key : Nat) (t : Tree) (c : Contrib) : State :=
  let t1 := { t with got := t.got ++ [c] }
  let s1 := { s with contribs := s.contribs.filter fun x => decide (x.id ≠ c.id) }
  if t1.full then s1.beginClose key t1 0 else { s1 with trees := sset s1.trees key t1 }

/-- A closed instance whose targets had to wait is looked at again. -/
def State.retryClose (s : State) (id : Nat) : State :=
  match s.trees.find? fun e => e.2.closing.isSome && decide ((e.2.got.head?.map Contrib.id) = some id) with
  | none => s
  | some (name, t) => s.runClose name t

/-- A contribution that opens or joins nothing: its D takes TAG and the status alone (R286, R287). -/
def State.dropLeaf (s : State) (c : Contrib) (status : Nat) : State :=
  (({ s with contribs := s.contribs.filter fun x => decide (x.id ≠ c.id) }).settle c (treeStatus c.tag 0 status)).groupCheck
    c.wid.g

/-- CONTRIBUTION: a leaf's vector reaches the sector's tree (R286). -/
def execContribution (id : Nat) (s : State) : Out :=
  match s.contribs.find? fun c => decide (c.id = id) with
  | none => event (s.retryClose id)
  | some c =>
    let key := treeKey c.ctx c.sector c.shape
    event (match sget? s.trees key with
      | none =>
        (match s.shapeAt c.sector c.shape with
          | none => s.dropLeaf c 5
          | some sh =>
            if !(sh.leaves.getLsbD c.leaf) then s.dropLeaf c 5
            else if sget? s.lastTag key = some c.tag then s.dropLeaf c 3
            else s.recordLeaf key ⟨sh, [], false, none, [], []⟩ c)
      | some t =>
        match t.got with
        | [] => s
        | o :: _ =>
          if o.tag ≠ c.tag then s.dropLeaf c 4
          else if o.ty ≠ c.ty ∨ o.result ≠ c.result ∨ o.status ≠ c.status ∨ o.counter ≠ c.counter
              ∨ t.got.any (fun x => decide (x.leaf = c.leaf)) then s.dropLeaf c 2
          else s.recordLeaf key t c)

/-- RTREE_TIMEOUT: the timer of an open instance ends it (R286, R288). -/
def execRtreeTimeout (inst : Nat) (s : State) : Out :=
  match sget? s.trees inst with
  | none => event s
  | some t =>
    if t.closing.isSome then event s else event (s.beginClose inst t 1)

/-! ### RTREE (R281-R283) -/

structure TreeOpds where
  result : Nat
  status : Nat
  counter : Nat
  ctl : Nat

def treeOpds (w : Warp) (f : FmtS) : TreeOpds :=
  let g := fun (k : Nat) => (w.greg (f.sb.toNat + k)).v.toNat
  ⟨g 0, g 1, g 2, g 3⟩

/-- Targets that are not aligned, with the multiple they miss (R283, R387). -/
def TreeOpds.offenders (o : TreeOpds) : List (Nat × Nat) :=
  (if o.result % 128 ≠ 0 then [(o.result, 128)] else []) ++ (if o.status % 8 ≠ 0 then [(o.status, 8)] else []) ++
  (if o.counter % 8 ≠ 0 then [(o.counter, 8)] else [])

/-- The contribution is sent; the primary's alone, and the twin takes its status (R172). -/
def State.sendLeaf (s : State) (i : Iss) (w : Warp) (f : FmtS) (ty : Ty) (d : Nat) (o : TreeOpds) : State :=
  let n := ((s.warp? i.wid).map Warp.commits).getD 0
  if s.isTwin i.wid.g then
    match (s.warp? i.wid).bind fun x => sget? x.mail n with
    | some m => s.updWarp i.wid fun x => ({ x with mail := sdel x.mail n }.setG d ⟨m.gVal, false⟩).fillG d
    | none => s.updWarp i.wid fun x => x.emptyG d
  else
    let (id, s1) := s.fresh
    let c : Contrib :=
      { id, wid := i.wid, d, ctx := i.ctx, sector := sectorOf i.core, leaf := i.core % 16, shape := fld f.imm.toNat 0 3,
        tag := fld o.ctl 32 16, ty, result := o.result, status := o.status, counter := o.counter, timeout := fld o.ctl 0 32,
        x := Vector.ofFn fun L => (w.lane f.sa.toNat L.val).v, core := i.core, commit := n }
    ({ s1 with contribs := s1.contribs ++ [c] }.updWarp i.wid fun x => x.emptyG d).addDue (.contribution id)

/-- RTREE, R283; its vector enters the signature register by register (notes/assumptions/97). -/
def execRtree (ty : Ty) (f : FmtS) (s : State) : Out :=
  issue s 8 true fun s i =>
    match s.warp? i.wid with
    | none => .ok s
    | some w =>
      match regV (s.allotOf i.wid) 1 false f.sa.toNat none with
      | .error r => stopFault s .vregBound i.lanes 0 r
      | .ok r =>
        match checkWhole s i w i.lanes with
        | .error e => .error e
        | .ok _ =>
          match waitFull s w i.lanes [(.v r 1, false)] with
          | .error e => .error e
          | .ok _ =>
            if (f.d.toNat :: fourOf f.sb).any fun g => !w.gFull g then .error (.hold s 3)
            else
              let bad := maskOf fun L => (w.lane r L).p
              if bad ≠ 0 then stopFault s .poison bad 0 0
              else if (fourOf f.sb).any fun g => (w.greg g).p then stopFault s .poison i.lanes 0 0
              else
                let o := treeOpds w f
                match o.offenders with
                | (a, n) :: l =>
                  let m := l.foldl (fun (m : Nat × Nat) e => if e.1 < m.1 then e else m) (a, n)
                  stopFault s .misaligned i.lanes m.1 m.2
                | [] =>
                  let pl := (i.onePlace o.result ++ i.onePlace o.status ++ i.onePlace o.counter)
                  match genChecks s i w .wr none false 8 pl with
                  | .error e => .error e
                  | .ok _ =>
                    let vals := (fun L => (w.lane r L).v.setWidth 64) :: (fourOf f.sb).map fun g _ => (w.greg g).v
                    match s.commit i.wid i.lanes i.fall (cmdOf (.rtree ty f) i.lanes vals) with
                    | .error e => .error e
                    | .ok t => .ok ((t.sendLeaf i w f ty f.d.toNat o).fallThrough i)

end Sys2Proof.Machine
end

