-- ==== Sys2Proof/Machine/Barrier.lean ====
section
/-! DEFINITION. BARSET, BARARV, BARWT, BARSYNC, BARQ and the limit of BARWT (16_barrier R290-R296). -/

namespace Sys2Proof.Machine

/-- Detail of BARRIER_BROKEN (R387): N, and G in bit 4. -/
def barDetail (f : FmtS) : Nat := barNum f.imm + bitAt 4 (barGang f.imm)

def State.barOf (s : State) (i : Iss) (f : FmtS) : Bar := s.bar i.wid (barGang f.imm) (barNum f.imm)

/-- Warps of the group, or of the gang, whether or not they have retired (R294, BADCOUNT). -/
def State.barCapacity (s : State) (i : Iss) (f : FmtS) : Nat := (s.barWarps i.wid (barGang f.imm)).length

/-- BARSET, R294: the status, and the barrier after it. -/
def barsetResult (b : Bar) (count capacity participants : Nat) : Nat × Bar :=
  if b.st = .collecting then (if count = b.e then 0 else 1, b)
  else if capacity < count then (2, b)
  else (0, { b with st := .armed, e := if count = 0 then participants else count })

def execBarset (f : FmtS) (s : State) : Out :=
  sysFrame s false [] [f.d.toNat] fun s i _ =>
    let g := barGang f.imm
    let r := barsetResult (s.barOf i f) (fld f.imm.toNat 7 10) (s.barCapacity i f) (s.participants i.wid g)
    .ok ((s.setBar i.wid g (barNum f.imm) r.2).putG i.wid f.d.toNat (BitVec.ofNat 64 r.1))

/-- Threads of the bundle that already carry the barrier's mark park until the phase is released, and present the
instruction again then (R290); the rest go on. -/
def State.splitMarked (s : State) (i : Iss) (f : FmtS) : Except Stop (State × Iss) :=
  let g := barGang f.imm
  let n := barNum f.imm
  let marked := sgetD (s.barOf i f).marks (s.barKey i.wid g) 0 &&& i.lanes
  let park : ThSt := .bar g n (.again i.at_.pc.toNat)
  if marked = 0 then .ok (s, i)
  else if marked = i.lanes then .error (.park s park [] [])
  else
    let rest := i.lanes &&& ~~~marked
    .ok (s.updWarp i.wid fun w =>
      { w.updThreads marked (fun _ t => { t with st := park }) with
        bundle := w.bundle.map fun b => { b with mask := rest } }, { i with lanes := rest })

/-- Whether an instruction finds its barrier Broken: it stands so, or it broke while threads of the bundle were parked on it
(R291). -/
def State.barBroken (s : State) (i : Iss) (w : Warp) (f : FmtS) : Bool :=
  decide ((s.barOf i f).st = .broken) || barGang f.imm && decide (sgetD w.broken (barNum f.imm) 0 &&& i.lanes ≠ 0)

/-- The bundle's threads have taken what R291 gives them for a barrier that broke. -/
def Warp.mendBar (w : Warp) (f : FmtS) (lanes : LaneMask) : Warp :=
  if barGang f.imm then { w with broken := sput w.broken (barNum f.imm) (sgetD w.broken (barNum f.imm) 0 &&& ~~~lanes) 0 } else w

def State.mendBar (s : State) (i : Iss) (f : FmtS) : State := s.updWarp i.wid fun w => w.mendBar f i.lanes

/-- BARARV, R294. -/
def execBararv (f : FmtS) (s : State) : Out :=
  sysFrameOut s true [] [f.d.toNat] fun s i w =>
      let g := barGang f.imm
      let n := barNum f.imm
      if s.barBroken i w f then stopFault (s.mendBar i f) .barrierBroken i.lanes 0 (barDetail f)
      else
        match s.splitMarked i f with
        | .error e => .error e
        | .ok (s, i) =>
          match s.commit i.wid i.lanes i.fall [] with
          | .error e => .error e
          | .ok t =>
            let gen : DWord := if (t.barOf i f).gen then 1 else 0
            .ok (((t.barArrive i.wid g n i.lanes).putG i.wid f.d.toNat gen).fallThrough i)

/-- Threads park in a BARSYNC; the commit and the park are one step, so the control record holds the park (R147, R294). -/
def Warp.syncAt (w : Warp) (gang : Bool) (n : Nat) (lanes : LaneMask) (p : Place) : Warp :=
  let x := w.updThreads lanes fun _ h => { h with st := .bar gang n (.sync p) }
  { x with ctl := x.record }

/-- BARSYNC, R294: committed and released, the threads park at the barrier and arrive; a release lets them go on at the
fall-through header. -/
def execBarsync (f : FmtS) (s : State) : Out :=
  issue s 8 true fun s i =>
    match notInHandler s i with
    | .error e => .error e
    | .ok _ =>
      let g := barGang f.imm
      let n := barNum f.imm
      match s.warp? i.wid with
      | none => .ok s
      | some w =>
        if s.barBroken i w f then stopFault (s.mendBar i f) .barrierBroken i.lanes 0 (barDetail f)
        else
          match s.splitMarked i f with
          | .error e => .error e
          | .ok (s, i) =>
            match s.commitRelease i w [] (if g then 2 else 1) with
            | .error e => .error e
            | .ok t => .ok (((t.fallThrough i).updWarp i.wid fun x => x.syncAt g n i.lanes i.at_).barArrive i.wid g n i.lanes)

/-- The limit of the BARWT at `pc` has run out, or is 0 (R294). -/
def Warp.limitPassed (w : Warp) (pc limit : Nat) : Bool :=
  decide (limit = 0) || decide (sget? w.barLimit pc = some true)

/-- A BARWT of some lanes returns: its limit is kept no longer, unless other threads wait at it (R294). -/
def Warp.dropLimit (x : Warp) (pc : Nat) (lanes : LaneMask) : Warp :=
  if (List.range 32).any fun L => !inMask lanes L && decide ((x.thread L).st.barPc = some pc) then x
  else { x with barLimit := sdel x.barLimit pc }

/-- BARWT, R294. -/
def execBarwt (f : FmtS) (s : State) : Out :=
  sysFrameOut s false ([f.sa.toNat] ++ if f.sb = 0 then [] else [f.sb.toNat]) [f.d.toNat] fun s i w =>
      let b := s.barOf i f
      let lim := decide (f.sb ≠ 0)
      let back := fun (v : DWord) =>
        (s.updWarp i.wid fun x => (x.mendBar f i.lanes).dropLimit i.at_.pc.toNat i.lanes).putG i.wid f.d.toNat v
      let hurt := barGang f.imm && decide (sgetD w.broken (barNum f.imm) 0 &&& i.lanes ≠ 0)
      if b.gen ≠ (w.gv f.sa).getLsbD 0 && !hurt then .ok (back 0)
      else if s.barBroken i w f then
        if lim then .ok (back 2) else stopFault (s.mendBar i f) .barrierBroken i.lanes 0 (barDetail f)
      else if lim && w.limitPassed i.at_.pc.toNat (fld (w.gv f.sb).toNat 0 32) then .ok (back 1)
      else
        let pc := i.at_.pc.toNat
        let t := if lim then s.updWarp i.wid fun x =>
          { x with barLimit := sset x.barLimit pc ((sget? x.barLimit pc).getD false) } else s
        .error (.park t (.bar (barGang f.imm) (barNum f.imm) (.wait pc i.after f.d.toNat lim)) [] [])

/-- BARWT_LIMIT: the count of a BARWT reaches its limit while its group is Resident (R294): the threads that wait go on behind it
with status 1; those that a discard has sent back present it again. -/
def execBarwtLimit (w : WarpId) (pc : Nat) (s : State) : Out :=
  match s.group? w.g, s.warp? w with
  | some g, some x =>
    if g.st = .resident ∧ sget? x.barLimit pc = some false then
      event ((s.setWarp w { x with barLimit := sset x.barLimit pc true }).wakeWarp w)
    else event s
  | _, _ => event s

/-- The state word of R295. -/
def Bar.word (b : Bar) : DWord :=
  BitVec.ofNat 64 (b.e * 2 ^ 32 + b.a * 2 ^ 16 + bitAt 3 b.gen + (match b.st with
    | .free => 0
    | .armed => 1
    | .collecting => 2
    | .released => 3
    | .broken => 4))

/-- BARQ, R294. -/
def execBarq (f : FmtS) (s : State) : Out :=
  sysFrame s false [] [f.d.toNat] fun s i _ => .ok (s.putG i.wid f.d.toNat (s.barOf i f).word)

end Sys2Proof.Machine
end

