-- ==== Sys2Proof/Machine/Wait.lean ====
section
/-! DEFINITION. WAITU and the life of a monitor entry: installation, sampled evaluation, spill scans, timeout, migration,
and the retry of a dependence (17_wait_entry R297-R312). -/

namespace Sys2Proof.Machine

/-! ### Places of entries (R297, R298) -/

/-- The slice that holds a line's entry, and whether it evaluates exactly; `sector` is the waiting core's. -/
def State.entryPlace (s : State) (sector line : Nat) : Bool × Nat :=
  let a := 128 * line
  if isL2w a then (true, 16 * (l2wKeyOf a % 16) + l2wOff a / 128 % 16)
  else if s.homeOf a = s.pkg then (true, sgetD s.migrated line (sliceOf line))
  else (false, 16 * sector + line % 16)

/-- Entries in a slice. -/
def State.sliceLoad (s : State) (slice : Nat) : Nat :=
  (s.waits.map fun w => (w.2.entries.filter fun e => decide (e.slice = some slice)).length).sum

/-- Spilled entries of a context. -/
def State.spillLoad (s : State) (ctx : Nat) : Nat :=
  ((s.waits.filter fun w => decide (w.2.ctx = ctx)).map fun w => (w.2.entries.filter Entry.spilled).length).sum

/-- Where a new entry goes: a slice or the spill list, nowhere, or a spill list that cannot be written (R306, R308). -/
inductive Room where
  | entry (e : Entry)
  | full
  | fails
deriving DecidableEq, Repr

/-- One more entry of a context on its spill list (R308): a list that cannot be read or written is a context error (R86). -/
def State.spillRoom (s : State) (ctx line : Nat) : Room :=
  let spill := (s.ctxOf ctx).spill.toNat
  match s.areaPA ctx spill with
  | none => .fails
  | some pa =>
    if (s.readWord pa 8).2 then .fails
    else if (s.readWord pa 8).1.toNat ≤ s.spillLoad ctx then .full
    else if s.areaWrites ctx (spill + 0x1000 + 64 * s.spillLoad ctx) 64 then .entry ⟨line, false, none⟩ else .fails

/-- Where a new entry goes: the slice, else the spill list (R306). -/
def State.entryFor (s : State) (ctx sector line : Nat) : Room :=
  let p := s.entryPlace sector line
  if s.sliceLoad p.2 < 256 then .entry ⟨line, p.1, some p.2⟩ else s.spillRoom ctx line

/-- One line of a wait: the words are read, the lanes evaluated and the entry installed in one step (R299, R303). -/
def State.installLine (s : State) (id sector line : Nat) : State :=
  match sget? s.waits id with
  | none => s
  | some x =>
    let (ls, ps, _) := evalLanes s x.cc x.ty line x.lanes
    match ps, s.entryFor x.ctx sector line with
    | [], .full => s.endWait id { x with lanes := ls } 3 (latchedMask ls) 0 0 false
    | [], .fails => (s.raiseCtxErr x.ctx .areaWrite).endWait id { x with lanes := ls } 3 (latchedMask ls) 0 0 false
    | [], .entry e => { s with waits := sset s.waits id { x with entries := x.entries ++ [e] } }.evalWait id line
    | _, _ => s.evalWait id line

/-! ### WAITU (R300-R304) -/

/-- The physical address a lane watches. -/
def State.watchAt (s : State) (i : Iss) (sp : Space) (a : Nat) : Nat :=
  if isGen sp then s.atomPa i a else l2wAddr (s.l2wFor i.wid) a

/-- What a lane's watched line meets: a page-walk line of a lost cell faults before the commit (R303). -/
def State.waitChk (s : State) (i : Iss) (w : Warp) (va : Nat) : Chk :=
  match s.translate i.core i.ctx va 0 with
  | .lost c => .fault .peerLost va c
  | .ok x =>
    (match s.genChk i w va .wait with
      | .fault .peerLost _ _ => .ok
      | c => if s.hotPending i.wid (lineOf x.pa) then (if c = .ok then .hold else c) else c)
  | _ => s.genChk i w va .wait

/-- A lane whose request for its line timed out: its wait goes on and meets that when its line is read (R303). -/
def State.txnOnly (s : State) (i : Iss) (w : Warp) (pl : List (Nat × Nat)) (l : Chks) : Chks :=
  l.filter fun e => (pl.filter fun p => decide (p.1 = e.1)).any fun p => decide (s.txnChk i w p.2 = .ok)

def waitChecks (s : State) (i : Iss) (w : Warp) (sp : Space) (pl : List (Nat × Nat)) : Except Stop Unit :=
  if isGen sp then
    let l : Chks := pl.map fun e => (e.1, s.waitChk i w e.2)
    match findChecks s l with
    | .error e => .error e
    | .ok _ =>
      match faultIf s (l ++ pl.map fun e => (e.1, s.walkLost i w e.2 .wait)) [.txnTimeout, .peerLost] with
      | .error e => .error e
      | .ok _ => waitFor s i (s.txnOnly i w pl l) (pl.map Prod.snd)
  else .ok ()

/-- The requests for watched lines homed in other packages, whose copies the installation reads (R298, R359). -/
def State.askWait (s : State) (i : Iss) (sp : Space) (pl : List (Nat × Nat)) : Except Stop Unit :=
  if !isGen sp || s.isTwin i.wid.g then .ok ()
  else s.askRemote i.wid (fun n => .read (128 * n)) ((pl.filter fun e => decide (s.gate (s.atomPa i e.2) = .ok)).map fun e => lineOf (s.atomPa i e.2))

def waitReady (s : State) (i : Iss) (w : Warp) (sp : Space) (pl : List (Nat × Nat)) : Except Stop Unit :=
  match waitChecks s i w sp pl with
  | .error e => .error e
  | .ok _ => s.askWait i sp pl

/-- The comparison operand of a lane (R300). -/
def Mx.waitOperand (x : Mx) (cc : WaitCc) (L : Nat) : DWord × Bool :=
  match cc with
  | .changed => (0, false)
  | _ => x.sd.read x.w L

/-- An installation at the coherent level: the core's earlier writes of the line arrive, and an owner's copy is recalled (R298,
R356). -/
def State.readyLine (s : State) (core line : Nat) : State :=
  if isL2w (128 * line) then s
  else
    let t := (s.flushLine core line).recallDir line
    { t with owned := sdel t.owned line }

/-- The lines of a wait, in the order of their lowest lanes, as long as it is open (R303): one whose home is lost ends it, one
whose request timed out removes its entries and is answered. -/
def State.openLines (s : State) (sector id : Nat) (lost timed : LaneMask) : List Nat → State × Option Nat
  | [] => (s, none)
  | n :: r =>
    match sget? s.waits id with
    | none => (s, none)
    | some y =>
      let meets := fun (m : LaneMask) => y.lanes.any fun l => decide (lineOf l.addr = n) && inMask m l.lane
      if meets timed then ({ s with waits := sdel s.waits id }, some n)
      else if meets lost then (s.endWait id y 2 lost 0 0 false, none)
      else (s.installLine id sector n).openLines sector id lost timed r

/-- The wait after the commit (R303): the cases that end at once, then the lines; the line whose request timed out, if the wait
came to it. -/
def State.openWait (s : State) (i : Iss) (id : Nat) (x : Wait) (lost timed : LaneMask) (badctl : Bool) : State × Option Nat :=
  if badctl then (s.endWait id { x with acq := none } 4 0 0 0 false, none)
  else if x.lanes.isEmpty then (s.endWait id x 0 0 0 0 false, none)
  else
    let lines := distinct (x.lanes.map fun l => lineOf l.addr)
    let s1 := lines.foldl (fun t n => t.readyLine i.core n) s
    ({ s1 with waits := sset s1.waits id x }).openLines (sectorOf i.core) id lost timed lines

/-- The twin's threads wait for what its primary installed (R172); where that wait has ended they take its end, with the
acquire of their own ACQ (R303). -/
def State.twinWait (s : State) (i : Iss) (d : Nat) (acq : Option Nat) (park : Nat → State → State) : Except Stop State :=
  match s.takeMail i.wid with
  | .error e => .error e
  | .ok (m, t) =>
    let id := m.gVal.toNat
    let u := park id t
    match (u.warp? i.wid).bind fun x => sget? x.mail (waitMail id), (u.warp? i.wid).bind fun x => sget? x.mail (waitMail id + 1) with
    | some st, some v =>
      .ok ((u.updWarp i.wid fun x => { x with mail := sdel (sdel x.mail (waitMail id)) (waitMail id + 1) }).giveWait i.wid id
        st.gVal v.gVal (decide (st.gVal.toNat % 256 = 5)) d (if st.gVal.toNat % 256 = 4 then none else acq))
    | _, _ => .ok u

/-- Every thread of the bundle waits at the following header, with gD and gD+1 empty (R303). -/
def State.parkWait (s : State) (i : Iss) (d id : Nat) : State :=
  (s.fallThrough i).updWarp i.wid fun w =>
    (w.updThreads i.lanes fun _ t => { t with st := .waiting id }).emptyG d |>.emptyG (d + 1)

/-- A wait that ends in a fault at its WAITU (R303): its threads, and its twin's, wait no more, at the header after it, with gD
and gD+1 as they were. -/
def State.dropWait (s : State) (i : Iss) (d id : Nat) : State :=
  (s.bothCopies i.wid.g).foldl (fun t g => t.updWarp ⟨g, i.wid.w⟩ fun w =>
    if w.lanesWhere (fun h => decide (h.st = .waiting id)) = 0 then w
    else
      { (w.updThreads (w.lanesWhere fun h => decide (h.st = .waiting id)) fun _ h => { h with st := .active }).fillG d |>.fillG (d + 1) with
        txnLost := [], asked := [] }) s

/-- Operands of WAITU: the comparison operands, which CHANGED has none of (R300, R301). -/
def specWaitu (cc : WaitCc) (ty : Ty) : MSpec :=
  { mPlain (waitTys cc) .gEven with
    sd := match cc with
      | .changed => .none
      | _ => mdT ty }

/-- WAITU, R303. -/
def execWaitu (cc : WaitCc) (f : FmtM) (s : State) : Out :=
  issue s (unitSize f.pfx) true fun s i =>
    match notInHandler s i with
    | .error e => .error e
    | .ok _ =>
      match s.warp? i.wid with
      | none => .ok s
      | some w =>
        match memOps s i w false (specWaitu cc f.ty) f with
        | .error e => .error e
        | .ok x =>
          let d := f.d.toNat
          let ctl := w.greg d
          let bad := maskOf fun L => inMask x.act L && (x.addrPsn L || (x.waitOperand cc L).2)
          let n := waitBytes f.ty
          if ctl.p || decide (bad ≠ 0) then
            stopFault s .poison (if ctl.p then (if x.act = 0 then i.lanes else x.act) else bad) 0 0
          else
            match spaceChecks s i f.sp (decide (f.sp = .gen) || decide (f.sp = .l2w)) 0b001#3 n n x.places with
            | .error e => .error e
            | .ok _ =>
              match waitReady s i w f.sp x.places with
              | .error e => .error e
              | .ok _ =>
                match s.commit i.wid i.lanes i.fall [] with
                | .error e => .error e
                | .ok t =>
                  let acq := ctl.v.getLsbD 33
                  let scope := fld ctl.v.toNat 34 3
                  if t.isTwin i.wid.g then t.twinWait i d (if acq then some scope else none) fun id u => u.parkWait i d id
                  else
                      let txn : Chks := if isGen f.sp then x.places.map fun e => (e.1, s.txnChk i w e.2) else []
                      let (id, t1) := t.fresh
                      let lanes := x.places.map fun e =>
                        (⟨e.1, s.watchAt i f.sp e.2, (x.waitOperand cc e.1).1, none, false⟩ : WaitLane)
                      let y : Wait :=
                        { ctx := i.ctx, who := .bundle i.wid i.lanes d, sp := f.sp, cc, ty := f.ty, any := ctl.v.getLsbD 32,
                          acq := if acq then some scope else none, lanes, entries := [] }
                      let lost := maskOfList ((x.places.filter fun e => isGen f.sp && (match s.gate (s.atomPa i e.2) with
                        | .lost _ => true
                        | _ => false)).map Prod.fst)
                      let t2 := ((t1.mailTwin i.wid (.g (BitVec.ofNat 64 id))).touchAll i f.sp .wait x.places).tieL2w i.wid f.sp
                      let timed := maskOfList ((txn.filter fun e => decide (e.2 ≠ .ok)).map Prod.fst)
                      match (t2.parkWait i d id).openWait i id y lost timed (acq && decide (5 < scope)) with
                      | (u, none) => .ok u
                      | (u, some n) =>
                        let met : Chks := txn.filter fun e => lanes.any fun l => decide (l.lane = e.1) && decide (lineOf l.addr = n)
                        match firstFault met [.txnTimeout] with
                        | none => .ok u
                        | some g => .error (.fault (u.dropWait i d id) { g with late := true })

/-! ### Events -/

/-- SAMPLED_EVALUATION (R298): a sampled entry reads its line again. -/
def execSampledEvaluation (wait line : Nat) (s : State) : Out :=
  if decide (wait ∈ s.waitsOn line fun e => !e.exact && !e.spilled) then event (s.evalWait wait line) else event s

/-- SPILL_SCAN (R308): every spilled entry of a line is evaluated, in every context. -/
def execSpillScan (line : Nat) (s : State) : Out :=
  event ((s.waitsOn line Entry.spilled).foldl (fun t w => t.evalWait w line) s)

/-- Whether a wait's timeout count is held (R310): a watched line's home cell is Suspect or Recovering. -/
def State.waitHeld (s : State) (x : Wait) : Bool :=
  x.entries.any fun e =>
    !isL2w (128 * e.line) &&
      match (s.cellOfPkg (s.homeOf (128 * e.line))).bind fun c => (sget? s.cells c).map Cell.st with
      | some .suspect => true
      | some .recovering => true
      | _ => false

/-- WAIT_TIMEOUT (R306): the count reaches TIMEOUT; a dependence has none (R311). -/
def execWaitTimeout (wait : Nat) (s : State) : Out :=
  match sget? s.waits wait with
  | none => event s
  | some x =>
    match x.who with
    | .dep _ _ => event s
    | .bundle _ _ _ => event (if s.waitHeld x then s else s.endWait wait x 1 (latchedMask x.lanes) 0 0 false)

/-- What the hub die finds at a virtual address of a context, without a core's TLB (R107, R115). -/
def hubCore : Nat := 192

/-- A hub access for a kernel, with its page requests on the kernel's AQI (R107). -/
def State.hubFind (s : State) (k : Kernel) (va : Nat) (a : Acc) : Got Xl := s.engFind hubCore k.ctx k.aqi k.pageFail va a

/-- A dependence that must wait is looked at again. -/
def State.retryDep (s : State) (kn : Nat) (k : Kernel) (idx : Nat) : State :=
  (s.setKernel kn { k with retry := addOnce idx k.retry }).addDue (.dependenceRetry kn idx)

/-- Installs dependence `idx` of a kernel on the word at a physical address that can be read (R311, R346); without room it is
retried. -/
def State.installDep (s : State) (kn idx pa value : Nat) : State :=
  match s.kernel? kn with
  | none => s
  | some k =>
    let s0 := ((s.setKernel kn { k with retry := k.retry.filter (· ≠ idx) }).touchTier pa).readyLine hubCore (lineOf pa)
    match s0.entryFor k.ctx 0 (lineOf pa) with
    | .full => s.retryDep kn k idx
    | .fails => s0.raiseCtxErr k.ctx .areaWrite
    | .entry _ =>
      let (id, s1) := s0.fresh
      let x : Wait :=
        { ctx := k.ctx, who := .dep kn idx, sp := .gen, cc := .ge, ty := .n64, any := true, acq := none,
          lanes := [⟨0, pa, BitVec.ofNat 64 value, none, false⟩], entries := [] }
      { s1 with waits := sset s1.waits id x }.installLine id 0 (lineOf pa)

/-- The kernel status that a hub access ends with, by the code of `statusOf`: XLATE for whatever R107 does not name, a permission,
a firewall entry or an unreached host line (notes/assumptions/95). -/
def hubErr (code : Nat) : KStatus := if code = 9 then .peerLost else .xlate

/-- DEPENDENCE_RETRY (R311): a fresh installation of a dependence that found no room. -/
def execDependenceRetry (kernel dep : Nat) (s : State) : Out :=
  match s.kernel? kernel with
  | none => event s
  | some k =>
    if decide (k.st = .pending) && decide (dep ∈ k.retry) then
      match nth? k.deps dep with
      | none => event s
      | some (va, v) =>
        match s.hubFind k va.toNat .wait with
        | .ok x => event (s.installDep kernel dep x.pa v.toNat)
        | .wait t l => event ((t.updKernel kernel fun k => { k with pend := l }).addDue (.dependenceRetry kernel dep))
        | .err t c _ => event (t.abortKernel kernel (hubErr c))
    else event s

/-- Moves the entries of a line to another slice, or to the spill lists (R306); an error where neither has room, naming the
context whose list cannot be written, if that is why. -/
def State.moveEntries (s : State) (line slice : Nat) : List Nat → Except (Option Nat) State
  | [] => .ok s
  | w :: r =>
    match sget? s.waits w with
    | none => s.moveEntries line slice r
    | some x =>
      let move := fun (n : Entry) =>
        { s with waits := sset s.waits w { x with entries := x.entries.map fun (e : Entry) => if e.line = line ∧ !e.spilled then n else e } }
      if s.sliceLoad slice < 256 then (move ⟨line, true, some slice⟩).moveEntries line slice r
      else
        match s.spillRoom x.ctx line with
        | .entry e => (move e).moveEntries line slice r
        | .full => .error none
        | .fails => .error (some x.ctx)

/-- LINE_MIGRATION (R20, R306): a line homed in the package moves to another slice with its exact entries. -/
def execLineMigration (line slice : Nat) (s : State) : Out :=
  if isL2w (128 * line) || decide (s.homeOf (128 * line) ≠ s.pkg) || decide (192 ≤ slice) then event s
  else
    match s.moveEntries line slice (s.waitsOn line fun e => e.exact && !e.spilled) with
    | .error none => event s
    | .error (some c) => event (s.raiseCtxErr c .areaWrite)
    | .ok t => event { t with migrated := sset t.migrated line slice }

end Sys2Proof.Machine
end

