-- ==== Sys2Proof/Machine/Matrix.lean ====
section
/-! DEFINITION. The lease and the matrix engine: MXLEASE, MXFREE, MXCFG, MXW, MXA, MXRD, MXWR, MXZ and the engine's own
events (18_matrix R314-R337, arithmetic of R40-R42). -/

namespace Sys2Proof.Machine

/-! ### Arithmetic (R28, R29, R40, R41) -/

/-- An operand of the array: its exact value, and whether it carries poison; a poisoned FP4 decode is +0 (R29). -/
structure Elem where
  v : FV
  p : Bool
deriving DecidableEq, Repr

def elemOf (v : Option FV) (p : Bool) : Elem :=
  match v with
  | some x => ⟨x, p⟩
  | none => ⟨.fin false 0 0, true⟩

/-- Little-endian half word of a list of bytes. -/
def half (l : List Byte) (i : Nat) : Nat := leNat ((l.drop i).take 2)

/-- Element (k, n) of the weight tile (R320). -/
def Tile.elem (t : Tile) (k n : Nat) : Elem :=
  let b := t.r.off
  let one := fun (a : Nat) => t.wb.anyMark a 1
  match fld (t.r.desc.headD 0).toNat 0 2 with
  | 0 => ⟨e4m3.val (t.wb.nat (b + 128 * k + n) 1), one (b + 128 * k + n)⟩
  | 1 => ⟨e5m2.val (t.wb.nat (b + 128 * k + n) 1), one (b + 128 * k + n)⟩
  | 3 => ⟨bf16.val (t.wb.nat (b + 256 * k + 2 * n) 2), one (b + 256 * k + 2 * n)⟩
  | _ =>
    let j := k * 16 + n / 8
    elemOf (f4Value (fld (t.wb.nat (b + 4 * j) 4) (4 * (n % 8)) 4) (t.wb.nat (b + 16384 + j) 1)
      (half t.r.desc (8 + 2 * (k / 64)))) (one (b + 4 * j) || one (b + 16384 + j))

/-- Element k of an activation record at `a` in format `fm` (R321). -/
def actElem (ab : Mem) (a fm k : Nat) : Elem :=
  let one := fun (a : Nat) => ab.anyMark a 1
  match fm with
  | 0 => ⟨e4m3.val (ab.nat (a + k) 1), one (a + k)⟩
  | 1 => ⟨e5m2.val (ab.nat (a + k) 1), one (a + k)⟩
  | 3 => ⟨bf16.val (ab.nat (a + 2 * k) 2), one (a + 2 * k)⟩
  | _ =>
    elemOf (f4Value (fld (ab.nat (a + 4 * (k / 8)) 4) (4 * (k % 8)) 4) (ab.nat (a + 128 + k / 8) 1) (ab.nat (a + 160) 2))
      (one (a + 4 * (k / 8)) || one (a + 128 + k / 8) || one (a + 160))

/-- The product of R41: none where a factor is a zero. -/
def mxProd (w a : FV) : Option FV := if w.isZero || a.isZero then none else some (fvMul w a).1

/-- The exact partial of a run with NV where it makes a NaN; none where every product is zero (R40, R41). -/
def runPartial (ps : List (Option FV)) : Option (FV × Flags) :=
  match ps.filterMap id with
  | [] => none
  | l =>
    let infs := l.filter FV.isInf
    if l.any FV.isNan then some (.nan false, fNV)
    else
      match infs with
      | v :: r => if r.all fun x => decide (x.neg? = v.neg?) then some (.inf v.neg?, 0) else some (.nan false, fNV)
      | [] =>
        let t := l.foldl (fun acc x => (fvAdd .rne acc x).1) (.fin false 0 0)
        some (if t.isZero then .fin false 0 0 else t, 0)

/-- One run applied to an accumulator (R40). -/
def accRun (acc : Nat × Flags) (ps : List (Option FV)) : Nat × Flags :=
  match runPartial ps with
  | none => acc
  | some (p, fl) =>
    let a := fp32.val acc.1
    let r := fvAdd .rne a p
    let o := roundFV fp32 .rne false 0 r.1
    (o.1, acc.2 ||| o.2 ||| fl ||| r.2 ||| sigFlag a)

/-- Runs of 32. -/
def runs32 (l : List (Option FV)) : Nat → List (List (Option FV))
  | 0 => []
  | n + 1 => l.take 32 :: runs32 (l.drop 32) n

/-- An accumulator element of R40: 256 products in 8 runs. -/
def accumulate (c : Nat) (ws as : List FV) : Nat × Flags :=
  (runs32 ((ws.zip as).map fun e => mxProd e.1 e.2) 8).foldl accRun (c, 0)

/-! ### Operand buffers while an operation runs (R230, R331) -/

/-- The words at which two memories may differ. -/
def memWords (a b : Mem) : List Nat :=
  distinct ((a.bytes ++ b.bytes).map (fun e => e.1 / 4) ++ (a.marks ++ b.marks).map Prod.fst)

/-- A buffer as an engine reads it: a word written since the issue gives the old or the new value, word by word. A word of WB
that has become poisoned poisons what it takes part in either way (R325), as does a word that only its mark tells apart. -/
def racedMem (wb : Bool) (old new : Mem) (tick : Nat) : Mem :=
  if old = new then new
  else
    (memWords old new).foldl (fun m w =>
      if old.bytesAt (4 * w) 4 = new.bytesAt (4 * w) 4 ∧ old.mark w = new.mark w then m
      else if Config.raceNew tick w then m
      else
        let kept := (wb || old.bytesAt (4 * w) 4 == new.bytesAt (4 * w) 4) && (new.mark w).isSome
        (m.setBytes (4 * w) (old.bytesAt (4 * w) 4)).setMark w (if kept then new.mark w else old.mark w)) new

/-! ### MxCommon (R323, R334, R337) -/

/-- The twin follows a commit that its primary has made: the primary's checks have passed. -/
def followed (s : State) (i : Iss) (w : Warp) : Bool := s.isTwin i.wid.g && match w.meet with
    | .matched _ => true
    | _ => false

/-- Whether a pending engine fault is taken here: in a twin, where the primary took it. -/
def EngFault.due (f : EngFault) (twin : Bool) (i : Iss) (w : Warp) : Bool :=
  if twin then
    match f.after with
    | none => false
    | some (k, c, n, pc) => decide (k = i.wid.w) && (decide (c < w.commits) || (decide (c = w.commits) &&
        (decide (n < w.mxrds) || (decide (n = w.mxrds) && decide (pc = i.at_.pc)))))
  else true

/-- The pending fault is delivered once, and in the twin at the same instruction (R334, R337). -/
def State.clearPending (s : State) (i : Iss) (w : Warp) : State :=
  let s1 := s.updGroup i.wid.g fun g => { g with pending := g.pending.drop 1 }
  match s.twinOf i.wid.g with
  | none => s1
  | some t => s1.updGroup t fun g =>
      { g with pending := g.pending.map fun f => { f with after := f.after.or (some (i.wid.w, w.commits, w.mxrds, i.at_.pc)) } }

def mxPending (s : State) (i : Iss) (w : Warp) : Except Stop Unit :=
  match (s.group? i.wid.g).bind fun g => g.pending.head? with
  | none => .ok ()
  | some f =>
    if f.due (s.isTwin i.wid.g) i w then
      stopFault (s.clearPending i w) (if f.reset then .mxReset else .mxCheck) allLanes f.addr f.pc.toNat
    else .ok ()

/-- The first two checks of MxCommon for an instruction that needs the lease. -/
def mxGate (s : State) (i : Iss) (w : Warp) : Except Stop Unit :=
  match mxPending s i w with
  | .error e => .error e
  | .ok _ => if !followed s i w && decide (s.leaseView i.wid.g = 0) then stopFault s .noLease allLanes 0 0 else .ok ()

/-- A group asks for the engine: granted if it is Idle, else queued (R316). -/
def State.askLease (s : State) (core g : Nat) : State :=
  let e := s.engine core
  if e.st = .idle then s.grantLease core g else (s.queueLease core g).settleLease core

/-- The hold of MxCommon while the view is Expiring, Revoked or Reset: leaf 8, Lease (R397). -/
def mxHold (s : State) (i : Iss) (w : Warp) : Except Stop State :=
  let g := i.wid.g
  if followed s i w then .ok s
  else
    match s.leaseView g with
    | 2 => .error (.hold (if s.isTwin g then s else s.queueLease i.core g) 8)
    | 3 =>
      if s.isTwin g then .error (.hold s 8)
      else
        let t := s.askLease i.core g
        if t.leaseView g = 1 then .ok t else .error (.hold t 8)
    | 4 => .error (.hold (if s.isTwin g then s else s.queueLease i.core g) 8)
    | _ => .ok s

/-- Whether an MXA finds weights: an MXW since the latest grant or loss, or a replay (R323). -/
def State.hasWeights (s : State) (g : Nat) : Bool := ((s.group? (s.primaryOf g)).map Group.weights).getD false

/-- The tail of MxCommon: hold, NO_WEIGHTS, commit; `run` issues the operation in the primary. -/
def mxTail (s : State) (i : Iss) (w : Warp) (mxa : Bool) (cmd : List DWord) (run : State → State) : Except Stop State :=
  match mxHold s i w with
  | .error e => .error e
  | .ok t =>
    if mxa && !followed s i w && !(t.hasWeights i.wid.g) then stopFault t .noWeights allLanes 0 0
    else
      match t.commit i.wid i.lanes i.fall cmd with
      | .error e => .error e
      | .ok u => .ok ((if u.isTwin i.wid.g then u else run u).fallThrough i)

/-- An operation enters the engine (R315). -/
def State.issueOp (s : State) (i : Iss) (kind : MxKind) : State :=
  let (id, s1) := s.fresh
  let g := (s.group? i.wid.g)
  let old := match kind with
    | .w _ => (g.map Group.wb).getD Mem.empty
    | .a _ _ _ _ _ => (g.map Group.ab).getD Mem.empty
    | _ => Mem.empty
  let op : MxOp := ⟨id, i.wid, i.at_.pc, ((s.warp? i.wid).map Warp.commits).getD 0, old, kind⟩
  let e := s1.engine i.core
  (s1.setEngine i.core { e with ops := e.ops ++ [op] }).addDue (.mxOperationComplete i.core)

/-- The frame of an MX instruction of format S: whole-warp issue, its g operands, MxCommon's first checks. -/
def mxFrame (s : State) (srcs dsts : List Nat) (lease : Bool) (run : State → Iss → Warp → Except Stop State) : Out :=
  issue s 8 true fun s i =>
    match s.warp? i.wid with
    | none => .ok s
    | some w =>
      match checkWhole s i w i.lanes with
      | .error e => .error e
      | .ok _ =>
        match sysRegs s i w srcs dsts with
        | .error e => .error e
        | .ok _ =>
          match (if lease then mxGate s i w else mxPending s i w) with
          | .error e => .error e
          | .ok _ => run s i w

/-! ### MXLEASE, MXFREE, MXCFG (R324) -/

/-- What MXLEASE answers: the status and the state, or a hold until the engine is granted. -/
def State.mxlease (s : State) (i : Iss) (try_ : Bool) : Except Stop (DWord × State) :=
  let g := i.wid.g
  let v := s.leaseView g
  if v = 1 ∨ v = 2 then .ok (0, s)
  else if try_ && decide ((s.engine i.core).st ≠ .idle) then .ok (1, s)
  else if v = 4 then .error (.hold (s.queueLease i.core g) 8)
  else
    let t := s.askLease i.core g
    if t.leaseView g = 1 then .ok (0, t) else .error (.hold t 8)

def execMxlease (f : FmtS) (s : State) : Out :=
  mxFrame s [] [f.d.toNat] false fun s i _ =>
    if s.isTwin i.wid.g then
      match s.commit i.wid i.lanes i.fall (cmdG (.mxlease f) i.lanes []) with
      | .error e => .error e
      | .ok t =>
        match t.takeMail i.wid with
        | .error e => .error e
        | .ok (m, u) => .ok ((u.putG i.wid f.d.toNat m.gVal).fallThrough i)
    else
      match s.mxlease i (f.imm.getLsbD 0) with
      | .error e => .error e
      | .ok (v, t) =>
        match t.commit i.wid i.lanes i.fall (cmdG (.mxlease f) i.lanes []) with
        | .error e => .error e
        | .ok u => .ok (((u.mailTwin i.wid (.g v)).putG i.wid f.d.toNat v).fallThrough i)

/-- MXFREE at the engine (R316): the holder's tenure ends once its operations have completed; any other group leaves the
queue and, if Revoked, loses its record. -/
def State.mxfree (s : State) (core g : Nat) : State :=
  let e := s.engine core
  if e.holder = some g then
    if e.st = .reset then (s.setEngine core { e with ending := some .free, queue := e.queue.filter (· ≠ g) })
    else ((s.updGroup g Group.clearLease).leaveQueue core g).endLease core g .free
  else (if s.leaseView g = 3 then s.updGroup g Group.clearLease else s).leaveQueue core g

def execMxfree (f : FmtS) (s : State) : Out :=
  mxFrame s [] [] false fun s i _ =>
    match s.commit i.wid i.lanes i.fall (cmdG (.mxfree f) i.lanes []) with
    | .error e => .error e
    | .ok t => .ok ((if t.isTwin i.wid.g then t else t.mxfree i.core i.wid.g).fallThrough i)

def execMxcfg (f : FmtS) (s : State) : Out :=
  mxFrame s [] [] true fun s i w =>
    mxTail s i w false (cmdG (.mxcfg f) i.lanes []) fun t => t.updGroup i.wid.g fun g => { g with chk := bitsAt f.imm 0 2 }

/-! ### MXW (R325) -/

/-- The first poisoned word of a list of words at an address. -/
def firstPsn (va : Nat) : List (Nat × Bool) → Option Nat
  | [] => none
  | (_, p) :: r => if p then some va else firstPsn (va + 4) r

/-- The first poison-marked word among n bytes of a buffer. -/
def markedIn (m : Mem) (a n : Nat) : Option Nat :=
  ((List.range ((a % 4 + n + 3) / 4)).find? fun j => (m.mark (a / 4 + j)).isSome).map fun j => 4 * (a / 4 + j)

/-- The check mode of a tile (R319, R332). -/
def tileChk (desc : List Byte) (own : BitVec 2) : BitVec 2 :=
  let c := desc.getD 1 0
  if c.getLsbD 2 then bitsAt c 0 2 else own

/-- A value and the multiple it misses: the lowest of those that offend (R387). -/
def lowestOff : List (Nat × Nat) → Option (Nat × Nat)
  | [] => none
  | e :: r => some (r.foldl (fun m x => if x.1 < m.1 then x else m) e)

def execMxw (f : FmtS) (s : State) : Out :=
  mxFrame s [f.sa.toNat, f.sb.toNat] [] true fun s i w =>
    let a := (w.gv f.sa).toNat
    let b := (w.gv f.sb).toNat
    match lowestOff ((if a % 64 ≠ 0 then [(a, 64)] else []) ++ (if b % 128 ≠ 0 then [(b, 128)] else [])) with
    | some (x, n) => stopFault s .misaligned allLanes x n
    | none =>
      match readChecks s i w 64 (i.onePlace a) with
      | .error e => .error e
      | .ok _ =>
        let words := s.readWords i w a 16
        let desc := leBytes (wordsNat words) 64
        let size := tileSize desc
        let wb := ((s.group? i.wid.g).map Group.wb).getD Mem.empty
        match firstPsn a words with
        | some va => stopFault s .poison allLanes va 0
        | none =>
          if !s.covers i .wb b size then stopFault s .permission allLanes (s.firstOutside i .wb b size) 1
          else
            match markedIn wb b size with
            | some o => stopFault s .poison allLanes o 0
            | none =>
              mxTail (s.fillRead i a) i w false (cmdG (.mxw f) i.lanes [w.gv f.sa, w.gv f.sb]) fun t =>
                let r : MxwRec := ⟨b, desc, tileChk desc (((t.group? i.wid.g).map Group.chk).getD 0)⟩
                (t.updGroup i.wid.g fun g => { g with lastMxw := some r, weights := true }).issueOp i (.w r)

/-! ### MXA (R326) -/

structure MxaOpds where
  arow : Nat
  stride : Nat
  afmt : Nat
  m : Nat
  cdst : Nat

def mxaOpds (w : Warp) (f : FmtS) : MxaOpds :=
  let a := (w.greg f.sa.toNat).v.toNat
  let b := (w.greg (f.sa.toNat + 1)).v.toNat
  ⟨fld a 0 32, fld a 32 32, fld b 0 32, fld b 32 8 + 1, fld (w.gv f.sb).toNat 0 32⟩

/-- The misaligned address and its multiple (R326). -/
def MxaOpds.misaligned (o : MxaOpds) : Option (Nat × Nat) :=
  match lowestOff ((if o.arow % 32 ≠ 0 then [(o.arow, 32)] else []) ++ (if o.cdst % 512 ≠ 0 then [(o.cdst, 512)] else [])) with
  | some x => some x
  | none => if o.stride % 32 ≠ 0 then some (o.arow + o.stride, 32) else none

/-- Format and address of row m of the activations. -/
def MxaOpds.row (o : MxaOpds) (ab : Mem) (m : Nat) : Nat × Nat := (fld (ab.byte (o.afmt + m)).toNat 0 2, o.arow + m * o.stride)

/-- Addresses outside AB (R) or CB (W), as checks of R321 and R326. -/
def MxaOpds.outside (o : MxaOpds) (s : State) (i : Iss) (ab : Mem) : List (Nat × Nat) :=
  ((List.range o.m).map fun m =>
    if !s.covers i .ab (o.afmt + m) 1 then [(o.afmt + m, 1)]
    else
      let r := o.row ab m
      if s.covers i .ab r.2 (recordSize r.1) then [] else [(s.firstOutside i .ab r.2 (recordSize r.1), 1)]).flatten ++
  (if s.covers i .cb o.cdst (512 * o.m) then [] else [(s.firstOutside i .cb o.cdst (512 * o.m), 2)])

/-- The poison-marked words among the operands. -/
def MxaOpds.marked (o : MxaOpds) (ab cb : Mem) : List Nat :=
  ((List.range o.m).map fun m =>
    let r := o.row ab m
    (markedIn ab (o.afmt + m) 1).toList ++ (markedIn ab r.2 (recordSize r.1)).toList).flatten ++
  (markedIn cb o.cdst (512 * o.m)).toList

/-- The quantum counts the MXA, and a waiting group makes the lease expire (R316). -/
def State.countMxa (s : State) (core : Nat) : State :=
  let e := s.engine core
  let q := e.qleft - 1
  s.setEngine core { e with qleft := q, st := if e.st = .granted ∧ q = 0 ∧ e.queue ≠ [] then .expiring else e.st }

/-- MXA, R326; its pair enters the signature register by register (notes/assumptions/97). -/
def execMxa (f : FmtS) (s : State) : Out :=
  mxFrame s [f.sa.toNat, f.sa.toNat + 1, f.sb.toNat] [] true fun s i w =>
    let o := mxaOpds w f
    match o.misaligned with
    | some (x, n) => stopFault s .misaligned allLanes x n
    | none =>
      let ab := ((s.group? i.wid.g).map Group.ab).getD Mem.empty
      let cb := ((s.group? i.wid.g).map Group.cb).getD Mem.empty
      match lowestOff (o.outside s i ab) with
      | some (x, n) => stopFault s .permission allLanes x n
      | none =>
        match o.marked ab cb with
        | x :: r => stopFault s .poison allLanes (least (x :: r)) 0
        | [] =>
          mxTail s i w true (cmdG (.mxa f) i.lanes [w.gv f.sa, w.gv (f.sa + 1), w.gv f.sb]) fun t =>
            (t.countMxa i.core).issueOp i (.a o.arow o.stride o.afmt o.m o.cdst)

/-! ### MXRD and MXWR (R328, R329) -/

def specMxrd : VSpec := { specF noRm [.f32] .gk .none with a := .v 1 false }

/-- Offset of a lane: (G(SB)[31:0] + V(SA, L)) mod 2^32. -/
def Vx.cbOff (x : Vx) (L : Nat) : Nat := ((x.b.read x.w L).1.toNat + (x.a.read x.w L).1.toNat) % 2 ^ 32

/-- The checks of MXRD and MXWR on the 32 offsets. -/
def cbChecks (s : State) (i : Iss) (x : Vx) (need : Nat) : Except Stop Unit :=
  let offs := (List.range 32).map fun L => (L, x.cbOff L)
  let mis := offs.filter fun e => decide (e.2 % 4 ≠ 0)
  let out := offs.filter fun e => !s.covers i .cb e.2 4
  let stop := fun (c : FaultCode) (l : List (Nat × Nat)) (d : Nat) =>
    (stopFault s c (maskOfList (l.map Prod.fst)) (least (l.map Prod.snd)) d : Except Stop Unit)
  if !mis.isEmpty then stop .misaligned mis 4 else if !out.isEmpty then stop .permission out need else .ok ()

/-- The frame of MXRD and MXWR: the operands of format V with the poison of their offsets (R67 step 5). -/
def mxvFrame (s : State) (f : FmtV) (ends : Bool) (run : State → Iss → Vx → Except Stop State) : Out :=
  issue s (unitSize f.pfx) ends fun s i =>
    match s.warp? i.wid with
    | none => .ok s
    | some w =>
      match vecPrep s i w false true specMxrd f with
      | .error e => .error e
      | .ok x =>
        let bad := maskOf fun L => (x.a.read w L).2 || (x.b.read w L).2
        if bad ≠ 0 then stopFault s .poison bad 0 0 else run s i x

/-- The operations that an MXRD of a warp waits for: those its copy of the group has issued (R315, R337). -/
def State.mxBefore (s : State) (w : WarpId) : List Nat :=
  let p := s.primaryOf w.g
  ((s.engine (s.coreOf ⟨p, w.w⟩)).ops.filter fun o =>
    decide (o.wid.g = p) && (decide (p = w.g) ||
      decide (o.commit ≤ ((s.warp? ⟨w.g, o.wid.w⟩).map Warp.commits).getD 0))).map MxOp.id

/-- Whether a twin stands at an MXRD that its primary has not passed: it might take an engine fault there (R337). -/
def State.mxrdEarly (s : State) (w : WarpId) (x : Warp) : Bool :=
  s.isTwin w.g &&
  match s.warp? (s.primaryWarp w) with
  | none => false
  | some y => decide (y.commits = x.commits) && decide (y.mxrds ≤ x.mxrds) && decide (y.meet = .none) && !y.retired &&
      decide (y.handler.isSome = x.handler.isSome)

def execMxrd (f : FmtV) (s : State) : Out :=
  mxvFrame s f false fun s i x =>
    match mxPending s i x.w with
    | .error e => .error e
    | .ok _ =>
      if s.mxrdEarly i.wid x.w then .error (.hold s 10) else
      match cbChecks s i x 1 with
      | .error e => .error e
      | .ok _ =>
        let d := (x.d.regs).headD 0
        .ok ((s.updWarp i.wid fun w => { w with mxrds := w.mxrds + 1 }).startLoad i.wid (.cb (s.mxBefore i.wid)) x.d.regs 0 ((List.range 32).map fun L =>
          { lane := L, reg := d, addr := x.cbOff L, va := 0, n := 4, fwd := [], fwdP := none }))

def execMxwr (f : FmtV) (s : State) : Out :=
  mxvFrame s f true fun s i x =>
    match mxGate s i x.w with
    | .error e => .error e
    | .ok _ =>
      match cbChecks s i x 2 with
      | .error e => .error e
      | .ok _ =>
        let vals := [fun L => (x.d.read x.w L).1, fun L => (x.a.read x.w L).1, fun L => (x.b.read x.w L).1]
        mxTail s i x.w false (cmdOf (.mxwr f) i.lanes vals) fun t =>
          t.issueOp i (.wr ((List.range 32).map fun L =>
            (x.cbOff L, ⟨((x.d.read x.w L).1.setWidth 32), (x.d.read x.w L).2⟩)))

/-! ### MXZ (R330) -/

def execMxz (f : FmtS) (s : State) : Out :=
  mxFrame s [f.sa.toNat] [] true fun s i w =>
    let a := (w.gv f.sa).toNat
    let cdst := fld a 0 32
    let m := fld a 32 8 + 1
    if cdst % 512 ≠ 0 then stopFault s .misaligned allLanes cdst 512
    else if !s.covers i .cb cdst (512 * m) then stopFault s .permission allLanes (s.firstOutside i .cb cdst (512 * m)) 2
    else mxTail s i w false (cmdG (.mxz f) i.lanes [w.gv f.sa]) fun t => t.issueOp i (.z cdst m)

/-! ### The engine (R314, R315, R326, R327) -/

/-- Writes CB words in both copies of the group (R337). -/
def State.writeCb (s : State) (g : Nat) (l : List (Nat × Lane)) : State :=
  (s.bothCopies g).foldl (fun t n => t.updGroup n fun x =>
    { x with cb := l.foldl (fun m e => m.write e.1 (leBytes e.2.v.toNat 4) e.2.p) x.cb }) s

/-- One row of an MXA: the columns' new accumulators and the flags; `fp` is the poison of its format byte's word. -/
def mxaRow (t : Tile) (ab cb : Mem) (fp : Bool) (a fm dst : Nat) : List (Nat × Lane) × Flags :=
  let cols := if (t.r.desc.getD 2 0).getLsbD 0 then 64 else 128
  let acts := (List.range 256).map (actElem ab a fm)
  let ap := fp || acts.any Elem.p || ab.anyMark a (recordSize fm)
  let res := (List.range cols).map fun n =>
    let ws := (List.range 256).map fun k => t.elem k n
    let r := accumulate (cb.nat (dst + 4 * n) 4) (ws.map Elem.v) (acts.map Elem.v)
    ((dst + 4 * n, (⟨BitVec.ofNat 32 r.1, cb.anyMark (dst + 4 * n) 4 || ap || ws.any Elem.p⟩ : Lane)), r.2)
  (res.map Prod.fst, (res.map Prod.snd).foldl (· ||| ·) 0)

/-- The rows of an MXA; the rows do not interact (R42). -/
def mxaRows (t : Tile) (ab cb : Mem) (arow stride afmt m cdst : Nat) : List (Nat × Lane) × Flags :=
  let rows := (List.range m).map fun i =>
    mxaRow t ab cb (ab.anyMark (afmt + i) 1) (arow + i * stride) (fld (ab.byte (afmt + i)).toNat 0 2) (cdst + 512 * i)
  ((rows.map Prod.fst).flatten, (rows.map Prod.snd).foldl (· ||| ·) 0)

/-- FSTAT flags go to the issuing warp, in both copies (R327). -/
def State.orFlags (s : State) (w : WarpId) (fl : Flags) : State :=
  (s.bothCopies w.g).foldl (fun t n => t.updWarp ⟨n, w.w⟩ fun x => x.orFstat fl) s

/-- The effect of an operation of the engine on a core. -/
def State.runOp (s : State) (core : Nat) (o : MxOp) : State :=
  match s.group? o.wid.g with
  | none => s
  | some g =>
    match o.kind with
    | .w r => s.setEngine core { s.engine core with tile := some ⟨r, racedMem true o.old g.wb s.tick⟩ }
    | .a arow stride afmt m cdst =>
      (match (s.engine core).tile with
        | none => s
        | some t =>
          let r := mxaRows t (racedMem false o.old g.ab s.tick) g.cb arow stride afmt m cdst
          (s.writeCb o.wid.g r.1).orFlags o.wid r.2)
    | .wr items => s.writeCb o.wid.g items
    | .z cdst m => s.writeCb o.wid.g ((List.range (128 * m)).map fun j => (cdst + 4 * j, Lane.zero))

/-- Whether a load or copy that reads CB, issued before an operation, has not read yet, or the twin has not reached the
operation's commit (R315, R337). -/
def State.opWaits (s : State) (o : MxOp) : Bool :=
  ((s.bothCopies o.wid.g).any fun n => (((s.group? n).map Group.warps).getD []).any fun w => w.loads.any fun l =>
    match l.kind with
    | .cb _ => decide (l.id < o.id)
    | _ => false) ||
  (s.copies.any fun c => decide (c.ssp = .cb) && decide (c.wid.g = o.wid.g) && decide (c.id < o.id)) ||
  match s.twinOf o.wid.g with
  | none => false
  | some t => decide (((s.warp? ⟨t, o.wid.w⟩).map Warp.commits).getD o.commit < o.commit)

/-- After operations of a core's engine have ended. -/
def State.opsEnded (s : State) (core : Nat) (gs : List Nat) : State := ((s.unexpire core).settleLease core).groupsCheck gs

/-- MX_OPERATION_COMPLETE: the oldest operation of the engine runs (R315). -/
def execMxOperationComplete (core : Nat) (s : State) : Out :=
  let e := s.engine core
  match e.ops with
  | [] => event s
  | o :: r =>
    if e.st = .reset ∨ s.opWaits o then event (s.addDue (.mxOperationComplete core))
    else
      let t := s.runOp core o
      -- after a loss the array is empty once the operations before it have run (R333)
      let tile := if r.isEmpty && !t.hasWeights o.wid.g then none else (t.engine core).tile
      event ((t.setEngine core { t.engine core with ops := r, tile := tile }).opsEnded core [o.wid.g])

/-- LEASE_EXPIRY: another group waits, and the quantum is used up or the holder has been idle (R316). -/
def execLeaseExpiry (core : Nat) (s : State) : Out :=
  let e := s.engine core
  if e.st = .granted ∧ e.queue ≠ [] then event ((s.setEngine core { e with st := .expiring }).settleLease core) else event s

/-! ### Losses (R332, R333) -/

/-- The CB words of a lost operation (R333). -/
def MxOp.cbWords (o : MxOp) : List Nat :=
  match o.kind with
  | .w _ => []
  | .a _ _ _ m cdst => (List.range (128 * m)).map fun j => cdst + 4 * j
  | .wr items => items.map Prod.fst
  | .z cdst m => (List.range (128 * m)).map fun j => cdst + 4 * j

/-- A loss leaves its fault pending (R333, R334): the latest takes the place of one that no instruction has taken, while a twin
keeps what its primary has taken before it (R337). -/
def Group.pend (g : Group) (f : EngFault) : Group := { g with pending := g.pending.filter (fun e => e.after.isSome) ++ [f] }

/-- Operations are lost: their CB words are poison-marked in both copies, the array is empty, the holder has a pending fault,
and a Lantern record names the first of them (R333, R337). Where no lost operation has a CB row, the spec states no
offset (notes/assumptions/23). -/
def State.loseOps (s : State) (core : Nat) (keep lost : List MxOp) (reset : Bool) : State :=
  match lost with
  | [] => s
  | o :: _ =>
    let words := (lost.map MxOp.cbWords).flatten
    let addr := match words with
      | [] => (Config.freeWord s.tick core).toNat
      | a :: r => least (a :: r)
    let f : EngFault := ⟨reset, addr, o.pc.setWidth 32, none⟩
    let s1 := (s.bothCopies o.wid.g).foldl (fun t n => t.updGroup n fun g =>
      { g.pend f with cb := words.foldl (fun m a => m.setMark (a / 4) (some .plain)) g.cb, weights := false }) s
    (s1.setEngine core { s1.engine core with ops := keep, tile := if keep.isEmpty then none else (s1.engine core).tile }).lanternWarp o.wid 2 2 (if reset then 22 else 21)
      [o.pc.toNat, addr]

/-- The check mode under which an operation runs: its own for an MXW, that of the tile in use for an MXA (R332). -/
def checkMode (tile : Option MxwRec) (ops : List MxOp) (n : Nat) : BitVec 2 × Bool × Bool :=
  let r := (ops.take n).foldl (fun t o => match o.kind with
    | .w r => some r
    | _ => t) tile
  let half := fun (r : MxwRec) => (r.desc.getD 2 0).getLsbD 0
  match (nth? ops n).map MxOp.kind with
  | some (.w r) => (r.chk, half r, false)
  | some (.a _ _ _ _ _) => ((r.map MxwRec.chk).getD 0, (r.map half).getD false, true)
  | _ => (0, false, false)

/-- CHECK_FAILURE: a comparison of R332 fails in operation `op` of those in flight; it and every later one are lost. -/
def execCheckFailure (core op : Nat) (s : State) : Out :=
  let e := s.engine core
  let (c, half, mxa) := checkMode (e.tile.map Tile.r) e.ops op
  if c.getLsbD 0 || (mxa && half && c.getLsbD 1) then
    event ((s.loseOps core (e.ops.take op) (e.ops.drop op) false).opsEnded core (e.ops.map fun o => o.wid.g))
  else event s

/-- WATCHDOG: an operation makes no progress; the engine goes to Reset and every operation of the holder is lost. -/
def execWatchdog (core : Nat) (s : State) : Out :=
  let e := s.engine core
  if (e.st = .granted ∨ e.st = .expiring) ∧ e.ops ≠ [] then
    let t := s.loseOps core [] e.ops true
    event ((t.setEngine core { t.engine core with st := .reset }).groupsCheck (e.ops.map fun o => o.wid.g))
  else event s

/-- ENGINE_RESET_COMPLETE (R316): the recorded event takes effect, or the holder keeps the lease with an empty array. -/
def execEngineResetComplete (core : Nat) (s : State) : Out :=
  let e := s.engine core
  match e.st, e.holder with
  | .reset, some g =>
    match e.ending with
    | some why =>
      -- a request that came behind a recorded MXFREE keeps its place in the queue
      let s1 := if why = .free then s.updGroup g Group.clearLease else s
      event ((s1.setEngine core { e with st := .granted }).settleLease core)
    | none =>
      let q := e.queue.filter (· ≠ g)
      event ((s.setEngine core { e with st := if e.qleft = 0 ∧ q ≠ [] then .expiring else .granted, queue := q, tile := none }).settleLease core)
  | _, _ => event s

end Sys2Proof.Machine
end

