-- ==== Sys2Proof/Machine/Put.lean ====
section
/-! DEFINITION. PUT with its admission and landing, RECONF and the rounds it runs (21_link R373-R381). -/

namespace Sys2Proof.Machine

/-- A number that the spec does not state for a fault record (notes/assumptions/23). -/
def State.unstated (s : State) (k : Nat) : Nat := (Config.freeWord s.tick k).toNat

/-! ### PUT (R378, R379) -/

structure PutOpds where
  d : Nat
  src : Nat
  b : Nat
  inc : Word
  c : Nat
  e : Word
  ssp : Space
  id : Nat

def putOpds (w : Warp) (f : FmtS) : PutOpds :=
  let g := fun (k : Nat) => (w.greg (f.sa.toNat + k)).v
  { d := (g 0).toNat, src := (g 1).toNat, b := fld (g 2).toNat 0 32, inc := bitsAt (g 2) 32 32, c := (g 3).toNat,
    e := bitsAt (w.gv f.sb) 0 32, ssp := spaceOf (bitsAt f.imm 9 3), id := fld f.imm.toNat 0 6 }

/-- The lowest misaligned address with its multiple; BYTES alone names no address. -/
def PutOpds.misaligned (o : PutOpds) (s : State) : Option (Nat × Nat) :=
  match lowestOff ((if o.d % 128 ≠ 0 then [(o.d, 128)] else []) ++ (if o.src % 128 ≠ 0 then [(o.src, 128)] else []) ++
      (if o.c % 8 ≠ 0 then [(o.c, 8)] else [])) with
  | some x => some x
  | none => if o.b % 128 ≠ 0 then some (s.unstated 0, 128) else none

/-- Virtual addresses of the lines from an address. -/
def lineVas (a b : Nat) : List Nat := (List.range (b / 128)).map fun j => a + 128 * j

/-- Every lane of the bundle at each of some addresses. -/
def Iss.places (i : Iss) (l : List Nat) : List (Nat × Nat) := (l.map fun a => i.onePlace a).flatten

def PutOpds.targets (o : PutOpds) : List Nat := lineVas o.d o.b ++ if o.c = 0 then [] else [o.c]

/-- Translation of the targets and of the source. -/
def PutOpds.check (o : PutOpds) (s : State) (i : Iss) (w : Warp) : Except Stop Unit :=
  if !isGen o.ssp && !s.covers i o.ssp o.src o.b then stopFault s .permission i.lanes (s.firstOutside i o.ssp o.src o.b) 1
  else
    match genChecks s i w .put none false 8 (i.places o.targets) with
    | .error e => .error e
    | .ok _ => if isGen o.ssp then readChecks s i w 4 (i.places (lineVas o.src o.b)) else .ok ()

/-- The packages or the host where the targets are homed. -/
def PutOpds.homes (o : PutOpds) (s : State) (i : Iss) : List Nat :=
  distinct (o.targets.map fun a => s.homeOf (s.paOf i a .put))

/-- The destination package: one, or none where the targets have several homes or lie in host memory. -/
def PutOpds.dest (o : PutOpds) (s : State) (i : Iss) : Option Nat :=
  match o.homes s i with
  | [] => some s.pkg
  | [h] => if isHost h then none else some h
  | _ => none

/-- Bytes of the core's send buffer in use, and its copies and PUTs in flight. -/
def State.sendLoad (s : State) (core : Nat) : Nat :=
  ((s.puts.filter fun p => decide (s.coreOf p.wid = core)).map Put.bytes).sum
def State.engineLoad (s : State) (core : Nat) : Nat :=
  (s.copies.filter fun c => decide (c.core = core)).length + (s.puts.filter fun p => decide (s.coreOf p.wid = core)).length

/-- An absent source line waits, a failed one raises TAG_FAIL. -/
def PutOpds.present (o : PutOpds) (s : State) (i : Iss) : Except Stop Unit :=
  let l : Chks := (i.places (lineVas o.src o.b)).map fun e => (e.1, s.scrChk i o.ssp e.2 false)
  match faultIf s l [.tagFail] with
  | .error e => .error e
  | .ok _ => if l.any fun e => match e.2 with
      | .absent _ _ => true
      | _ => false then .error (.hold s 10) else .ok ()

/-- A line of the source as the send buffer reads it: what the warp had committed, under the span buffer (R266). -/
def State.sendLine (s : State) (i : Iss) (w : Warp) (sp : Space) (a : Nat) : LineImg :=
  let (g, o) := s.spanKey i sp a
  let base : LineImg :=
    if isGen sp then s.forkImg i.wid s.serial (lineOf (s.paOf i a .rd))
    else
      let (m, k) := s.localMem i sp a
      ⟨m.bytesAt k 128, (List.range 32).map fun j => m.mark (k / 4 + j)⟩
  ⟨(List.range 128).map fun j => (w.spanByte sp g (o + j)).getD (base.data.getD j 0),
   (List.range 32).map fun j => match w.spanPsn sp g (o + 4 * j) 4 with
     | none => base.psn.getD j none
     | some p => if p then some .plain else none⟩

def LineImg.poisoned (g : LineImg) : Bool := g.psn.any Option.isSome

/-- The admission request of a presented PUT and what has been answered. -/
def State.admitOf (s : State) (w : WarpId) : Option (Nat × Admit) := s.admits.find? fun e => decide (e.2.wid = w)
/-- Admission at the destination package: at once where it is this one, else a request that PUT_ADMISSION answers. -/
def State.admitPut (s : State) (i : Iss) (o : PutOpds) (dest : Nat) : Except Stop State :=
  let d := o.d
  if dest = s.pkg then .ok s
  else
    match s.admitOf i.wid with
    | none =>
      let (id, t) := s.fresh
      .error (.hold ({ t with admits := sset t.admits id ⟨i.wid, dest, none⟩ }.transmit dest i.ctx o.e (.askAdmission id (o.targets.map fun a =>
        s.paOf i a .put))) 10)
    | some (_, a) =>
      match a.reply with
      | none => .error (.hold s 10)
      | some .admitted => .ok s
      | some (.staleGen g) => stopFault s .staleGen i.lanes 0 (g.toNat + 2 ^ 32)
      | some .firewall => stopFault s .firewall i.lanes d s.cell
      | some .peerLost => stopFault s .peerLost i.lanes d ((s.cellOfPkg dest).getD 0)
      | some .txnTimeout => stopFault s .txnTimeout i.lanes d dest

/-- Lines of a PUT that lie one after the other in memory, as packets of at most four (R368): the first physical line, and
the images. -/
def putPackets : List (Nat × Nat × LineImg) → List (Nat × List LineImg)
  | [] => []
  | (_, pl, g) :: r =>
    match putPackets r with
    | (q, gs) :: t => if q = pl + 1 ∧ gs.length < 4 then (pl, g :: gs) :: t else (pl, [g]) :: (q, gs) :: t
    | [] => [(pl, [g])]

/-- A data packet of a PUT: 512 bytes at most, with the poison of their words (R368, R380). -/
def putPacket (id : Nat) (e : Nat × List LineImg) : PacketKind :=
  .putLine id (128 * e.1) (e.2.map LineImg.data).flatten
    (BitVec.ofNat 128 (((e.2.map LineImg.psn).flatten.zipIdx.map fun p => if p.1.isSome then 2 ^ p.2 else 0).sum))

/-- The data packets of a PUT to another package leave, under the program's expected generation (R373, R380). -/
def State.sendData (s : State) (p : Put) (ctx : Nat) : State :=
  if p.dest = s.pkg then s else (putPackets p.lines).foldl (fun t e => t.transmit p.dest ctx p.gen (putPacket p.name e)) s

/-- The source's tier pages abandon their eviction (R345). -/
def State.readSource (s : State) (i : Iss) (o : PutOpds) : State :=
  s.touchAll i o.ssp .rd (if isGen o.ssp then i.places (lineVas o.src o.b) else [])

/-- The send is issued: the snapshot leaves, and the ID is pending; a PUT that names nothing ends at once. -/
def State.sendPut (s : State) (i : Iss) (w : Warp) (o : PutOpds) (dest : Nat) : State :=
  let t := (s.tieL2w i.wid o.ssp).readSource i o
  if o.b = 0 ∧ o.c = 0 then t.setId i.wid.g o.id 0
  else
    let (id, t1) := t.fresh
    let lines := (List.range (o.b / 128)).map fun j =>
      (o.d / 128 + j, lineOf (s.paOf i (o.d + 128 * j) .put), s.sendLine i w o.ssp (o.src + 128 * j))
    let p : Put := { id, name := ((s.admitOf i.wid).map Prod.fst).getD id, wid := i.wid, cid := o.id, dest, lines, src := o.src, ssp := o.ssp,
                     ctr := if o.c = 0 then none else some (o.c, s.paOf i o.c .put), inc := o.inc, bytes := o.b, gen := o.e }
    (({ t1 with puts := t1.puts ++ [p], admits := t1.admits.filter fun e => decide (e.2.wid ≠ i.wid) }.sendData p i.ctx).setId i.wid.g o.id 1).addDue (.putLanding id .ok)

/-- A PUT that goes on waiting keeps its admission; one that faults or parks gives it up, and asks again when it is presented
again whole (R379). -/
def keepsAdmission (w : WarpId) (r : Except Stop State) : Except Stop State :=
  match r with
  | .ok t => .ok t
  | .error e => .error (e.unadmitted w)

/-- The checks of PUT that do not wait, and the destination package. -/
def PutOpds.route (o : PutOpds) (s : State) (i : Iss) (w : Warp) : Except Stop Nat :=
  match o.misaligned s with
  | some (a, n) => stopFault s .misaligned i.lanes a n
  | none =>
    if 65536 < o.b then stopFault s .permission i.lanes (s.unstated 0) 2
    else if !(decide (o.ssp = .gen) || decide (o.ssp = .scr) || decide (o.ssp = .gscr) || decide (o.ssp = .l2w)) then
      stopFault s .permission i.lanes o.src 1
    -- an admitted PUT is one of those that the drain waits for (R374)
    else if s.roundFor i.wid then .error (.hold s 10)
    else if o.e ≠ s.tgen then stopFault s .staleGen i.lanes 0 s.tgen.toNat
    else
      match o.check s i w with
      | .error e => .error e
      | .ok _ =>
        match o.dest s i with
        | none => stopFault s .permission i.lanes (s.unstated 0) 2
        | some h => .ok h

/-- PUT, R379; its control registers enter the signature one by one (notes/assumptions/97). -/
def execPut (f : FmtS) (s : State) : Out :=
  issue s 8 true fun s i => keepsAdmission i.wid <|
    match s.warp? i.wid with
    | none => .ok s
    | some w =>
      match checkWhole s i w i.lanes with
      | .error e => .error e
      | .ok _ =>
        match sysRegs s i w (fourOf f.sa ++ [f.sb.toNat]) [] with
        | .error e => .error e
        | .ok _ =>
          let o := putOpds w f
          let cmd := cmdG (.put f) i.lanes ((fourOf f.sa ++ [f.sb.toNat]).map fun r => (w.greg r).v)
          let ready : Except Stop (State × Nat) :=
            if followed s i w then .ok (s, s.pkg)
            else
              match o.route s i w with
              | .error e => .error e
              | .ok h =>
                if s.isTwin i.wid.g then .ok (s, h)
                else if s.sealedFor i [o.ssp] then .error (.hold s 10)
                else if s.idBusy i.wid.g o.id || decide (64 ≤ s.engineLoad i.core) || decide (524288 < s.sendLoad i.core + o.b) then
                  .error (.hold s 10)
                else
                  match o.present s i with
                  | .error e => .error e
                  | .ok _ =>
                    match (lineVas o.src o.b).find? fun a => decide (h ≠ s.pkg) && (s.sendLine i w o.ssp a).poisoned with
                    | some a => stopFault s .poison i.lanes a 0
                    | none =>
                      match s.admitPut i o h with
                      | .error e => .error e
                      | .ok t => .ok (t, h)
          match ready with
          | .error e => .error e
          | .ok (t, h) =>
            match t.commit i.wid i.lanes i.fall cmd with
            | .error e => .error e
            | .ok u => .ok ((if u.isTwin i.wid.g then u else u.sendPut i w o h).fallThrough i)

/-- Whether the timers of transactions with a cell's packages are held (R363). -/
def State.timerHeld (s : State) (home : Nat) : Bool :=
  match (s.cellOfPkg home).bind fun c => (sget? s.cells c).map Cell.st with
  | some .suspect | some .recovering => true
  | _ => false

/-- PUT_ADMISSION: the destination package answers a request (R379), or its timer expires, unless it is held (R363). -/
def execPutAdmission (id : Nat) (reply : Admission) (s : State) : Out :=
  match sget? s.admits id with
  | none => event s
  | some a =>
    event (if a.reply.isNone && !(decide (reply = .txnTimeout) && s.timerHeld a.dest) then
        { s with admits := sset s.admits id { a with reply := some reply } }
      else s)

/-! ### Landing (R380) -/

/-- The status with which a line stops a PUT, if it does: what the fabric reports, a lost home, a grant removed. -/
def State.landStop (s : State) (how : Landing) (vline pa : Nat) : Option Nat :=
  let told := match how with
    | .ok => none
    | .peerLost l => if l = vline then some 9 else none
    | .txnTimeout l => if l = vline then some 10 else none
    | .firewall l => if l = vline then some 8 else none
  if ((s.cellOfPkg (s.homeOf pa)).map s.cellLost).getD false then some 9
  else
    match told with
    | some c => some c
    | none => if s.fwWrite pa then none else some 8

/-- The words of a line that a failed tag marked keep that cause where the line lands (R235 step 5, R380). -/
def Mem.markCauses (m : Mem) (pl : Nat) (psn : List (Option Mark)) : Mem :=
  (List.range 32).foldl (fun x j => if psn.getD j none = some .tagFail then x.setMark (32 * pl + j) (some .tagFail) else x) m

/-- A full line lands, with the poison of each word. -/
def State.landLine (s : State) (cores : List Nat) (pl : Nat) (g : LineImg) : State :=
  let t := (if s.otherCell (128 * pl) then s.holdLine pl else s).engineWrite cores pl (cellsOf (128 * pl) g.data)
    ((List.range 32).map fun j => (32 * pl + j, (g.psn.getD j none).isSome))
  { t with mem := t.mem.markCauses pl g.psn }

/-- The data lines in order: the state, and where it stopped. -/
def landLines (cores : List Nat) (how : Landing) : List (Nat × Nat × LineImg) → State → State × Option (Nat × Nat)
  | [], s => (s, none)
  | (vl, pl, g) :: r, s =>
    match s.landStop how vl (128 * pl) with
    | some c => (s, some (c, vl))
    | none => landLines cores how r (s.landLine cores pl g)

/-- What a warp committed before an engine operation reaches every observer (R269). -/
def State.releaseWarp (s : State) (w : WarpId) (id : Nat) : State :=
  (s.wts.filter fun t => decide (t.wid = w) && decide (t.id < id)).foldl (fun u t => u.flushLine t.core t.line) s

/-- A 64-bit word is increased at the coherent level. -/
def State.bumpWord (s : State) (cores : List Nat) (pa : Nat) (n : DWord) : State :=
  let t := cores.foldl (fun t c => t.flushLine c (lineOf pa)) s
  let (m, p) := t.readWord pa 8
  t.engineWrite cores (lineOf pa) (cellsOf pa (leBytes (m + n).toNat 8)) (psnEffect pa 8 p)

/-- A PUT lands: the data lines, then the counter is increased, then the status is written; a failing line stops it. -/
def State.landPut (s : State) (p : Put) (how : Landing) : State :=
  let cores := s.coresFor p.wid
  let fin := fun (t : State) (v : DWord) =>
    let u := if p.dest = t.pkg then t else t.transmit p.dest (t.ctxNo p.wid) p.gen (.putDone p.name)
    ({ u with puts := u.puts.filter fun q => decide (q.id ≠ p.id) }.setId p.wid.g p.cid v).groupCheck p.wid.g
  match landLines cores how p.lines s with
  | (t, some (c, vl)) => fin t (statusWord c (128 * vl) true)
  | (t, none) =>
    match p.ctr with
    | none => fin t 0
    | some (va, pa) =>
      match t.landStop how (va / 128) pa with
      | some c => fin t (statusWord c va true)
      | none =>
        let u := t.releaseWarp p.wid p.id
        let v := if p.dest = u.pkg then u
          else u.transmit p.dest (u.ctxNo p.wid) p.gen (.putCounter p.name (putPackets p.lines).length pa p.inc.toNat)
        fin (v.bumpWord cores pa (p.inc.setWidth 64)) 0

/-- An earlier PUT of the same warp to the same package, which lands first (R380). -/
def State.putBehind (s : State) (p : Put) : Bool :=
  s.puts.any fun q => decide (q.wid = p.wid) && decide (q.dest = p.dest) && decide (q.id < p.id)

/-- The lines of a PUT that other packages hold in E, O or M: their recall comes before the landing (R354, R356). -/
def State.putRecalls (s : State) (p : Put) : List Nat :=
  match s.dir with
  | [] => []
  | _ => (p.lines.map (fun l => l.2.1) ++ (p.ctr.map fun c => lineOf c.2).toList).filter fun n =>
      decide (s.homeOf (128 * n) = s.pkg) && s.recallWaits n

/-- A PUT lands when its turn comes, its destination can be reached and its lines are home; a timer that is held does not expire
(R363). -/
def State.tryLand (s : State) (p : Put) (how : Landing) : State :=
  let how := match how, s.timerHeld p.dest with
    | .txnTimeout _, true => .ok
    | h, _ => h
  if s.putBehind p || decide (s.gateHome p.dest = .hold) then s.addDue (.putLanding p.id how)
  else
    match s.putRecalls p with
    | [] => s.landPut p how
    | l => (l.foldl State.askRecall s).addDue (.putLanding p.id how)

/-- PUT_LANDING. -/
def execPutLanding (id : Nat) (how : Landing) (s : State) : Out :=
  match s.puts.find? fun p => decide (p.id = id) with
  | none => event s
  | some p => event (s.tryLand p how)

/-! ### Rounds (R374-R376) -/

/-- The topology group: the packages of the cells held as Member, the own cell included. -/
def State.topoGroup (s : State) : List Nat :=
  addOnce s.pkg (distinct ((s.cells.filter fun e => decide (e.1 = s.cell) || decide (e.2.st = .member)).map fun e =>
    e.2.members).flatten)

/-- The coordinator that this package names: the lowest-numbered package of the group (R374). -/
def State.coordinator (s : State) : Nat := s.topoGroup.foldl Nat.min s.pkg

/-- This package's join or withdrawal goes to the coordinator over the management channel, unless it is the coordinator
itself (R374, R376). -/
def State.tellCoordinator (s : State) (slot : Nat) (gen : Word) (joins : Bool) : State :=
  if s.coordinator = s.pkg then s else s.say (.round s.coordinator slot gen joins)

/-- What is left of a gathering round without some of its joins; one with none left is abandoned (R376). -/
def State.keepRound (s : State) (r : Round) (joins : List Nat) (warps : List WarpId) : State :=
  { s with round := if joins.isEmpty then none else some { r with warps, joins } }

/-- The commit point: every package of the group has joined alike (R374). -/
def State.roundCheck (s : State) : State :=
  match s.round with
  | none => s
  | some r =>
    if r.phase = .gather ∧ s.topoGroup.all fun p => decide (p ∈ r.joins) then
      { s with round := some { r with phase := .drain, mark := s.serial } }.addDue .drainComplete
    else s

/-- A RECONF of this package joins a round; the package joins with its first. -/
def State.joinRound (s : State) (r : Round) (w : WarpId) : State :=
  let t := { s with round := some { r with joins := addOnce s.pkg r.joins, warps := r.warps ++ [w] } }
  (if s.pkg ∈ r.joins then t else t.tellCoordinator r.slot r.gen true).roundCheck

/-- Mail key of a RECONF's result. -/
def roundMail : Nat := 2 ^ 41

/-- Mail key that says that the slot of a presented RECONF was found VALID (R375). -/
def roundValid : Nat := roundMail + 1

def reconfWord (status : Nat) (gen : Word) : DWord := BitVec.ofNat 64 (status * 2 ^ 32 + gen.toNat)

/-- A RECONF after its commit: its result, or a hold (R375). -/
def State.reconf (s : State) (w : WarpId) (slot : Nat) (e : Word) : Except Stop (DWord × State) :=
  let mail := ((s.warp? w).map Warp.mail).getD []
  -- VALID is tested once, before a wait for a round past its commit point
  let refused := (sget? mail roundValid).isNone && !(vget s.slots slot TopoSlot.reset).valid
  let over_ := s.updWarp w fun x => { x with mail := sdel (sdel x.mail roundMail) roundValid }
  let waits := s.updWarp w fun x => { x with mail := sset x.mail roundValid (.g 0) }
  match sget? mail roundMail with
  | some m => .ok (m.gVal, over_)
  | none =>
    if (s.round.map fun r => decide (w ∈ r.warps)).getD false then .error (.hold s 10)
    else if refused then .ok (reconfWord 1 s.tgen, over_)
    else if s.roundOn then .error (.hold waits 10)
    else if e ≠ s.tgen then .ok (reconfWord 2 s.tgen, over_)
    else
      match s.round with
      | some r => if r.slot ≠ slot ∨ r.gen ≠ e then .ok (reconfWord 1 s.tgen, over_) else .error (.hold (waits.joinRound r w) 10)
      | none => .error (.hold (waits.joinRound ⟨slot, e, [], [], .gather, 0⟩ w) 10)

/-- Whether a context holds fabric control (R377). -/
def State.fabricControl (s : State) (c : Nat) : Bool := (s.ctxOf c).fabric && decide (c ∈ s.grants)

/-- The commit of RECONF, made at its first presentation; it stays held from then on until its result stands. -/
def State.reconfCommit (s : State) (i : Iss) (w : Warp) (f : FmtS) : Except Stop State :=
  if w.releasing then .ok s
  else
    match s.commit i.wid i.lanes i.fall (cmdG (.reconf f) i.lanes [w.gv f.sa, w.gv f.sb]) with
    | .error e => .error e
    | .ok t => .ok (t.updWarp i.wid fun x => { x with releasing := true })

def execReconf (f : FmtS) (s : State) : Out :=
  sysFrame s true [f.sa.toNat, f.sb.toNat] [f.d.toNat] fun s i w =>
    if !w.releasing && !s.fabricControl i.ctx then stopFault s .permission i.lanes (s.unstated 0) (s.unstated 1)
    else
      match s.reconfCommit i w f with
      | .error e => .error e
      | .ok t =>
        if t.isTwin i.wid.g then
          match t.takeMail i.wid with
          | .error e => .error e
          | .ok (m, u) => .ok ((u.putG i.wid f.d.toNat m.gVal).fallThrough i)
        else
          match t.reconf i.wid (fld f.imm.toNat 0 3) (bitsAt (w.gv f.sa) 0 32) with
          | .error e => .error e
          | .ok (v, u) => .ok (((u.mailTwin i.wid (.g v)).putG i.wid f.d.toNat v).fallThrough i)

/-- What a RECONF held in the round is given as its result. -/
def State.giveRound (s : State) (v : DWord) (w : WarpId) : State :=
  s.updWarp w fun x => { x with mail := sset x.mail roundMail (.g v) }

/-- The coordinator refuses this package's join, the views being apart: every RECONF of it is REFUSED (R374). -/
def State.refuseJoin (s : State) (slot : Nat) (gen : Word) : State :=
  match s.round with
  | none => s
  | some r =>
    if r.phase = .gather ∧ r.slot = slot ∧ r.gen = gen ∧ s.coordinator ≠ s.pkg then
      r.warps.foldl (fun t w => t.giveRound (reconfWord 1 s.tgen) w) (s.keepRound r (r.joins.filter (· ≠ s.pkg)) [])
    else s

/-- JOIN: a package joins the gathering round, or opens one; a package outside the group, or another slot or generation, is
refused (R374). At a package that is not the coordinator it tells what the coordinator has done with the join
(notes/assumptions/82). -/
def execJoin (pkg slot : Nat) (gen : Word) (s : State) : Out :=
  if pkg = s.pkg then event (s.refuseJoin slot gen)
  else if !decide (pkg ∈ s.topoGroup) || decide (gen ≠ s.tgen) || s.roundOn then event (s.say (.refused pkg))
  else
    match s.round with
    | none => event ({ s with round := some ⟨slot, gen, [pkg], [], .gather, 0⟩ }.roundCheck)
    | some r =>
      if r.slot = slot ∧ r.gen = gen then event ({ s with round := some { r with joins := addOnce pkg r.joins } }.roundCheck)
      else event (s.say (.refused pkg))

/-- GATHER_TIMEOUT: a joined RECONF withdraws before the commit point (R375, R376). -/
def execGatherTimeout (w : WarpId) (s : State) : Out :=
  match s.round with
  | none => event s
  | some r =>
    if r.phase = .gather ∧ w ∈ r.warps then
      let ws := r.warps.filter (· ≠ w)
      let t := if ws.isEmpty then (s.keepRound r (r.joins.filter (· ≠ s.pkg)) ws).tellCoordinator r.slot r.gen false
        else s.keepRound r r.joins ws
      event (t.giveRound (reconfWord 3 s.tgen) w)
    else event s

/-- Another package withdraws its join before the commit point (R376); a later withdrawal changes nothing. -/
def State.withdrawJoin (s : State) (pkg : Nat) : State :=
  match s.round with
  | none => s
  | some r => if r.phase = .gather ∧ pkg ≠ s.pkg then s.keepRound r (r.joins.filter (· ≠ pkg)) r.warps else s

/-- Physical addresses that an engine operation's VA range reaches, one per 4 KiB page. -/
def State.rangePas (s : State) (ctx a n : Nat) : List Nat :=
  (List.range ((a % 4096 + n + 4095) / 4096)).filterMap fun j =>
    match s.translate hubCore ctx (a / 4096 * 4096 + 4096 * j) 0 with
    | .ok x => some x.pa
    | _ => none

/-- Whether a copy that was issued before the commit point still reaches another package (R374). -/
def State.copyOut (s : State) (mark : Nat) (c : Copy) : Bool :=
  decide (c.id < mark) && c.err.isNone && !c.todo.isEmpty && ((c.ranges.filter fun e => isGen e.1).map Prod.snd).any fun r => (s.rangePas c.ctx r.1 r.2).any s.remote

/-- No fabric transaction issued before the commit point is outstanding: PUTs and admitted PUTs, those of other packages too (R379),
write-throughs and requests of presented instructions to other packages, copies, and packets that wait for a path (R374). -/
def State.drained (s : State) (mark : Nat) : Bool :=
  s.puts.isEmpty && (s.admits.all fun e => decide (e.2.reply ≠ some .admitted)) && s.admitted.isEmpty && s.stuck.isEmpty &&
    (s.wts.all fun t => !s.remote (128 * t.line)) && !(s.copies.any (s.copyOut mark)) &&
    s.allWarps.all fun w => (((s.warp? w).map Warp.asked).getD []).all fun n => !s.remote (128 * n)

def execDrainComplete (s : State) : Out :=
  match s.round with
  | none => event s
  | some r =>
    if r.phase ≠ .drain then event s
    else if s.drained r.mark then event ({ s.clearSent with round := some { r with phase := .switch } }.addDue .switch)
    else event (s.addDue .drainComplete)

/-! ### Links: transitions (R366) -/

/-- The port's peer in a topology: package and port, 0xFF for unused (R372). -/
def TopoSlot.peerOf (t : TopoSlot) (n : Nat) : Nat × Nat :=
  let w := (t.ports.getD n 0).toNat
  (fld w 0 8, fld w 8 8)

/-- The switch step drives a port whose peer changes (R366, R374). -/
def State.drivePort (s : State) (t : TopoSlot) (n : Nat) : State :=
  let p := s.port n
  let q := t.peerOf n
  if (p.peer, p.peerPort) = q then s
  else
    let u := match p.st with
      | .up => s.linkTo n p .retraining
      | .degraded => s.linkTo n p .retraining
      | .down => s.linkTo n p .training
      | _ => s
    u.setPort n { u.port n with peer := q.1, peerPort := q.2 }

/-- The circuit setting of a port (R372). -/
def TopoSlot.circuitOf (t : TopoSlot) (n : Nat) : BitVec 16 := BitVec.ofNat 16 (fld (t.ports.getD n 0).toNat 16 16)

/-- SWITCH: the slot is snapshotted as the active topology, and its circuit settings go to the external switch controller
(R372, R373, R374). -/
def execSwitch (s : State) : Out :=
  match s.round with
  | none => event s
  | some r =>
    if r.phase ≠ .switch then event s
    else
      let t := vget s.slots r.slot TopoSlot.reset
      let u := (List.range 16).foldl (fun u n => (u.drivePort t n).say (.circuit n (t.circuitOf n))) { s with active := some t }
      event ({ u with round := some { r with phase := .retrain } }.addDue .commitStep)

end Sys2Proof.Machine
end

