-- ==== Sys2Proof/Machine/Link.lean ====
section
/-! DEFINITION. Links: training, faults and repairs (21_link R365-R368); packets that arrive and what they ask (R369, R371, R379,
R380; 20_cell R354-R357, R360); the writes of topology slots (R372), tree shapes (15_atomic R284) and the removal of a
fabric-control grant (R377). -/

namespace Sys2Proof.Machine

/-! ### Link states (R365-R367) -/

/-- Full width with no spare in use, of wavelengths or of lasers (R366). -/
def Port.whole (p : Port) : Bool :=
  decide (p.fibres = 0xFFF) && p.maps.all (fun m => decide (m = 0xFFFFFF)) && p.spares.isEmpty && decide (p.lasers = 0)

/-- The fibres of a summary as its reader numbers them: what the peer transmits is received here (notes/assumptions/78). -/
def crossed (w : BitVec 12) : BitVec 12 := bitsAt w 0 6 ++ bitsAt w 6 6
def crossedMaps (l : List (BitVec 25)) : List (BitVec 25) := l.drop 6 ++ l.take 6

/-- Whether both ends received an intact summary, and they describe the same width, maps and rate (R367). -/
def Port.agrees (p : Port) (q : LinkSummary) : Bool :=
  q.intact && q.heard && decide (crossed q.width = p.fibres) && decide (crossedMaps q.maps = p.maps) && decide (q.rate = p.rate)

/-- A change of a port number that exists. -/
def onPort (s : State) (n : Nat) (f : Port → State) : Out := if n < 16 then event (f (s.port n)) else event s

/-- Firmware enables the port (R366). -/
def execEnablesThePort (port : Nat) (s : State) : Out :=
  onPort s port fun p => if p.st = .down then s.linkTo port p .training else s

/-- Summaries disagree, or none came: Down and at once Training again, or Failed at the third mismatch (R366). -/
def State.mismatch (s : State) (n : Nat) (p : Port) : State :=
  if p.mc < 2 then s.linkTo n { p with mc := p.mc + 1 } .training else s.linkTo n p .failed

/-- SUMMARY: the peer's summary arrives (R366, R367). A Retraining link that agrees comes up as a Training one does
(notes/assumptions/40). -/
def execSummary (port : Nat) (peer : LinkSummary) (s : State) : Out :=
  onPort s port fun p =>
    if p.st.trains then
      if p.agrees peer then s.linkTo port { p with mc := 0, replays := 0 } (if p.whole then .up else .degraded)
      else s.mismatch port p
    else s

/-- TRAINING_TIMEOUT: no summary within 8,000 cycles (R366). -/
def execTrainingTimeout (port : Nat) (s : State) : Out := onPort s port fun p => if p.st.trains then s.mismatch port p else s

/-- A fault repaired by a spare: Degraded with a blackout (R365, R366). -/
def State.repaired (s : State) (n : Nat) (p : Port) : State := s.linkTo n { p with blackout := true } .degraded

/-- A fault with no spare left: the link retrains without the wavelength (R365, R366). -/
def State.narrowed (s : State) (n : Nat) (p : Port) : State := s.linkTo n { p with blackout := false, replays := 0 } .retraining

def Port.mapAt (p : Port) (f : Nat) : BitVec 25 := p.maps.getD f 0
def waveBit (w : Nat) : BitVec 25 := BitVec.ofNat 25 (2 ^ w)

/-- The port without a wavelength of a fibre; a fibre with none left leaves the width. -/
def Port.without (p : Port) (f w : Nat) : Port :=
  let m := p.mapAt f &&& ~~~(waveBit w)
  { p with maps := setNth p.maps f m, fibres := if m = 0 then p.fibres &&& ~~~(BitVec.ofNat 12 (2 ^ f)) else p.fibres }

/-- The spare wavelength of a fibre, bit 24 of its map, takes the place of another. -/
def Port.spareIn (p : Port) (f w : Nat) : Port :=
  { p with maps := setNth p.maps f (p.mapAt f &&& ~~~(waveBit w) ||| waveBit 24), spares := sset p.spares f 1 }

/-- A wavelength in service of an Up or Degraded link fails: no row of R366 matches in another state (R6). -/
def onWave (s : State) (port fibre wave : Nat) (f : Port → State) : Out :=
  onPort s port fun p => if p.st.carries && (p.mapAt fibre).getLsbD wave then f p else s

/-- A wavelength of a fibre fails (R365). -/
def execWavelengthFailure (port fibre wave : Nat) (s : State) : Out :=
  onWave s port fibre wave fun p =>
    if sgetD p.spares fibre 0 = 0 then s.repaired port (p.spareIn fibre wave) else s.narrowed port (p.without fibre wave)

/-- Spare lasers of a port: one for every twelve in service, one in service for each of 144 wavelengths
(notes/assumptions/41). -/
def spareLasers : Nat := 12

/-- A laser fails (R365). -/
def execLaserFailure (port fibre wave : Nat) (s : State) : Out :=
  onWave s port fibre wave fun p =>
    if p.lasers < spareLasers then s.repaired port { p with lasers := p.lasers + 1 } else s.narrowed port (p.without fibre wave)

/-- BLACKOUT_END (R365). -/
def execBlackoutEnd (port : Nat) (s : State) : Out := onPort s port fun p => s.setPort port { p with blackout := false }

/-- A flit fails its CRC and is replayed; 16 failed replays of one flit in a row, after its first failure, retrain the link
(R366, R368). -/
def execFlitCrcFailure (port : Nat) (same : Bool) (s : State) : Out :=
  onPort s port fun p =>
    if !p.st.carries then s
    else
      let n := if same then p.replays + 1 else 1
      if n ≤ 16 then s.setPort port { p with replays := n } else s.narrowed port p

/-- Firmware resets a Failed port (R366). -/
def execResetsThePort (port : Nat) (s : State) : Out :=
  onPort s port fun p => if p.st = .failed then s.linkTo port { p with mc := 0 } .down else s

/-! ### Requests of other packages (R354-R357, R371, R379, R380) -/

/-- A package whose cell this one holds as Recovering or Fenced: its packets are dropped (R353, R360). -/
def State.refusesFrom (s : State) (src : Nat) : Bool := ((s.cellOfPkg src).map s.cellLost).getD false

/-- A line homed here that no core owns any more, the entries of lost cells settled; what other packages hold has come home by
then (R354, R356, R362). -/
def State.recallAll (s : State) (line : Nat) : State :=
  let t := s.recallDir line
  { t with owned := sdel t.owned line }

/-- Whether a line must be recalled from another package before a request can be served; `keep` is a cell whose own write leaves
the line M in it (R354, R356). -/
def State.heldIn (s : State) (keep : Option Nat) (line : Nat) : Bool :=
  s.recallWaits line && decide (keep = none ∨ keep ≠ (sget? s.dir line).map DirEntry.owner)

/-- The lines of this package that a packet's request concerns, and the cell that may keep them: the owner's own commit, and a
later PUT of another cell that holds the line since an earlier one (R356). -/
def State.askedLines (s : State) (k : PacketKind) (c : Nat) : Option Nat × List Nat :=
  let keep := if c = s.cell then none else some c
  match k with
  | .read pa => (none, [lineOf pa])
  | .atom _ _ pa _ _ _ => (none, [lineOf pa])
  | .own pa => (none, [lineOf pa])
  | .commit line _ _ => (some c, [line])
  | .putLine _ pa d _ => (keep, (List.range (d.length / 128)).map fun j => lineOf pa + j)
  | .putCounter _ _ pa _ => (keep, [lineOf pa])
  | _ => (none, [])

/-- Whether the cell of a packet's source may make its request (R347, R356, R357). -/
def State.mayAsk (s : State) (c : Nat) (k : PacketKind) : Bool :=
  (s.askedLines k c).2.all fun n =>
    match k with
    | .read _ => s.fwReadBy c (128 * n)
    | .own _ | .commit _ _ _ => decide (c = s.cell)
    | _ => s.fwWriteBy c (128 * n)

/-- The copies of a line in other packages are given up, its data being home. -/
def State.takeBack (s : State) (line : Nat) : State :=
  let t := s.dropEntry line
  { t with owned := sdel t.owned line }

/-- As `takeBack`, but a line that cell c owns stays with it (R356): only the clean copies of other cells are dropped. -/
def State.keepBack (s : State) (c line : Nat) : State :=
  match sget? s.dir line with
  | none => s.takeBack line
  | some e =>
    if e.st = .s ∨ e.owner ≠ c then s.takeBack line
    else
      let clean := s.holders { e with st := .s, vec := e.vec &&& ~~~(BitVec.ofNat 32 (2 ^ c)) }
      let t := clean.foldl (fun t p => t.transmit p 0xFFFF t.tgen (.invalidate (128 * line) [] 0)) (s.dirDel line)
      { t with owned := sdel t.owned line }

/-- The poison of the 32 words of a line as a reader at the coherent level finds it. -/
def State.psnBits (s : State) (line : Nat) : BitVec 32 :=
  (List.range 32).foldl (fun v j => if (s.cohMark (32 * line + j)).isSome then v ||| BitVec.ofNat 32 (2 ^ j) else v) 0

/-- A package reads a line, whose data are home: its cell holds an S copy; of a P line no copy exists (R355, R357). -/
def State.serveRead (s : State) (h : PacketHdr) (c pa : Nat) : State :=
  let n := lineOf pa
  let t := ({ s with owned := sdel s.owned n }).touchTier pa
  let u := t.say (.reply h.src h.seq (t.mem.bytesAt (128 * n) 128) (t.psnBits n))
  if n ∈ u.pline then u
  else u.dirPut n ⟨.s, ((sget? u.dir n).map DirEntry.vec).getD 0 ||| BitVec.ofNat 32 (2 ^ c), 0⟩

/-- An atomic of another package, performed at the home agent (R271, R357), behind those queued at a hot line. -/
def State.serveAtom (s : State) (h : PacketHdr) (q : AtomReq) : State :=
  let n := lineOf q.addr
  if q.addr % atomBytes q.ty ≠ 0 then s.say (.answer h.src h.seq .unknown)
  else
    let (r, v) := ((s.takeBack n).flushHot n).perform q
    v.say (.reply h.src h.seq (leBytes r.1.toNat (atomBytes q.ty)) (if r.2 then 3 else 0))

/-- A package of the own cell takes a line in exclusive ownership (R271, R356, R358); a hot line and a P line are granted to
nobody (R273, R355). -/
def State.serveOwn (s : State) (h : PacketHdr) (pa : Nat) : State :=
  let n := lineOf pa
  let t := (((s.countPass n (pkgOwner h.src)).takeBack n).flushHot n).touchTier pa
  let u := t.say (.reply h.src h.seq (t.mem.bytesAt (128 * n) 128) (t.psnBits n))
  if u.isHot n ∨ n ∈ u.pline then u else u.dirPut n ⟨.e, 0, s.cell⟩

/-- A committed write of a package of the own cell: its line is M there (R250, R355). -/
def State.serveCommit (s : State) (h : PacketHdr) (line : Nat) (data : List (Nat × Byte)) (psn : List (Nat × Bool)) : State :=
  let d := (data.filter fun e => decide (lineOf e.1 = line)).foldl (fun m e => sset m e.1 e.2) ([] : SMap Byte)
  let p := (psn.filter fun e => decide (e.1 / 32 = line)).foldl (fun m e => sset m e.1 e.2) ([] : SMap Bool)
  let t := (((s.countPass line (pkgOwner h.src)).keepBack s.cell line).flushHot line)
  let u := t.cohWriteLine line d p
  if u.isHot line ∨ line ∈ u.pline then u else u.dirPut line ⟨.m, 0, s.cell⟩

/-- One line of a PUT's data lands as a full-line write; from another cell the line is then M in that cell, or stays so (R356,
R380). -/
def State.serveLine (s : State) (c n : Nat) (data : List Byte) (psn : Nat) : State :=
  let t := ((if c = s.cell then s.takeBack n else (s.countPass n (cellOwner c)).keepBack c n)).flushHot n
  let u := t.cohWriteLine n (cellsOf (128 * n) data) ((List.range 32).map fun j => (32 * n + j, Nat.testBit psn j))
  if c = s.cell ∨ u.isHot n then u else u.dirPut n ⟨.m, 0, c⟩

/-- Name of a PUT of a package in `landed`. -/
def putKey (src put : Nat) : Nat := put * 128 + src

/-- A PUT's data packet of 128 to 512 bytes lands line by line (R368, R380). -/
def State.servePut (s : State) (h : PacketHdr) (c put pa : Nat) (data : List Byte) (psn : BitVec 128) : State :=
  if data.length % 128 ≠ 0 ∨ data.length = 0 ∨ 512 < data.length ∨ pa % 128 ≠ 0 then s.say (.answer h.src h.seq .unknown)
  else
    let t := (List.range (data.length / 128)).foldl (fun t j =>
      t.serveLine c (lineOf pa + j) ((data.drop (128 * j)).take 128) (psn.toNat / 2 ^ (32 * j))) s
    { t with landed := sset t.landed (putKey h.src put) (sgetD t.landed (putKey h.src put) 0 + 1) }

/-- A PUT's counter is increased once every data packet has landed (R371, R380). Where one was dropped nothing happens: its sender
learns of that by its timer alone (R368). -/
def State.serveCounter (s : State) (h : PacketHdr) (c put packets pa inc : Nat) : State :=
  if pa % 8 ≠ 0 then s.say (.answer h.src h.seq .unknown)
  else if sgetD s.landed (putKey h.src put) 0 ≠ packets then s
  else
    let n := lineOf pa
    let t := ((if c = s.cell then s.takeBack n else s.keepBack c n)).flushHot n
    let (m, p) := t.readWord pa 8
    let u := t.cohWrite pa (leBytes (m + BitVec.ofNat 64 inc).toNat 8) p
    -- a line that the cell holds since an earlier PUT stays with it
    if (s.heldIn none n) && c ≠ s.cell then u.dirPut n ⟨.m, 0, c⟩ else u

/-- Admission of a PUT of another package: the generation, and every page's grant (R379). -/
def State.serveAdmit (s : State) (h : PacketHdr) (c put : Nat) (pas : List Nat) : State :=
  let r : Admission := if h.gen ≠ s.tgen then .staleGen s.tgen
    else if pas.all fun a => decide (s.homeOf a = s.pkg) && s.fwWriteBy c a then .admitted else .firewall
  let t := if r = .admitted then { s with admitted := addOnce (h.src, put) s.admitted } else s
  t.say (.admission h.src put r)

/-- A PUT of another package is over. -/
def State.servePutDone (s : State) (h : PacketHdr) (put : Nat) : State :=
  { s with admitted := s.admitted.filter (fun e => decide (e ≠ (h.src, put))), landed := sdel s.landed (putKey h.src put) }

/-- Data of a line from another package, with the poison of its words; a mark that stands keeps its cause. -/
def State.takeData (s : State) (line : Nat) (cells : SMap Byte) (psn : BitVec 32) : State :=
  let marks := ((List.range 32).map fun j => (32 * line + j, psn.getLsbD j)).filter fun e => decide ((s.mem.mark e.1).isSome ≠ e.2)
  { s with mem := (s.mem.setCells cells).setPsn marks }

/-- The owner writes a line back (R356): the data return home, seen by the Belfry, and the entry becomes I, or S where copies
remain. -/
def State.serveWriteBack (s : State) (c pa : Nat) (data : List Byte) (psn : BitVec 32) : State :=
  let n := lineOf pa
  match sget? s.dir n with
  | none => s
  | some e =>
    if e.owner ≠ c ∨ e.st = .s ∨ data.length ≠ 128 then s
    else
      let t := (s.takeData n (cellsOf (128 * n) data) psn).dirDel n
      (if e.vec = 0 then t else { t with dir := sset t.dir n { e with st := .s, owner := 0 } }).noteWrite n

/-- The home of a line drops this package's copies, and may have taken a write of another package: a line held here is written
back, and the line's sampled entries are looked at (R298, R354, R356). -/
def State.serveInvalidate (s : State) (h : PacketHdr) (pa : Nat) (data : List Byte) (psn : BitVec 32) : State :=
  let n := lineOf pa
  if s.homeOf pa ≠ h.src then s
  else
    let t := if (sget? s.owned n).isSome || s.putLines.contains n then
        { s with owned := sdel s.owned n, putLines := s.putLines.filter (· ≠ n) }.writeBack n h.src
      else s
    let u := (t.cores.map Prod.fst).foldl (fun u c => u.dropLine c n) t
    if data.isEmpty then u else (u.takeData n (cellsOf pa (data.take (128 - pa % 128))) psn).noteWrite n

/-- The effect of a request whose lines are all home. -/
def State.effectOf (s : State) (h : PacketHdr) (c : Nat) : State :=
  match h.kind with
  | .other => s
  | .read pa => s.serveRead h c pa
  | .atom fn ty pa o o2 po =>
    s.serveAtom h { wid := ⟨0, 0⟩, id := 0, lane := 0, fn := fn, ty := ty, addr := pa, o := o, o2 := o2, po := po }
  | .own pa => s.serveOwn h pa
  | .commit line d p => s.serveCommit h line d p
  | .putLine put pa d p => s.servePut h c put pa d p
  | .putCounter put k pa inc => s.serveCounter h c put k pa inc
  | .askAdmission put pas => s.serveAdmit h c put pas
  | .putDone put => s.servePutDone h put
  | .writeBack pa d p => s.serveWriteBack c pa d p
  | .invalidate pa d p => s.serveInvalidate h pa d p

/-- A request waits. -/
def State.keepAsk (s : State) (h : PacketHdr) : State := { s with asks := s.asks ++ [h] }

/-- An answer to this package, which no request of its source holds up. -/
def isAnswer (h : PacketHdr) : Bool :=
  match h.kind with
  | .other | .writeBack _ _ _ | .invalidate _ _ _ => true
  | _ => false

/-- An admission request, which waits for the end of a round and holds up no other packet of its source (R381). -/
def asksAdmission (h : PacketHdr) : Bool :=
  match h.kind with
  | .askAdmission _ _ => true
  | _ => false

/-- Directory entries for n more lines: a full directory gives up entries, freely chosen, and where one names an owner its line is
recalled first, for which the request waits (R354, notes/assumptions/80). Whether the room is there. -/
def State.dirRoom (s : State) (n : Nat) : Nat → Bool × State
  | 0 => (decide (s.dir.length + n ≤ dirLines), s)
  | fuel + 1 =>
    if s.dir.length + n ≤ dirLines then (true, s)
    else
      let v := (s.dir.map Prod.fst).getD (Config.dirVictim s.tick % s.dir.length) 0
      if s.recallWaits v then (false, s.askRecall v) else (s.dropEntry v).dirRoom n fuel

/-- A packet is delivered: refused, kept until its lines have been recalled or filled and its source's earlier requests served
(R371), or served. The entries of lost cells are settled first (R362). -/
def State.serve (s : State) (h : PacketHdr) : State :=
  match s.cellOfPkg h.src with
  | none => s.say (.answer h.src h.seq .unknown)
  | some c =>
    let (keep, lines) := s.askedLines h.kind c
    if !isAnswer h && s.asks.any fun q => decide (q.src = h.src) && !asksAdmission q then s.keepAsk h
    else if asksAdmission h && s.roundOn && decide (h.gen = s.tgen) then s.keepAsk h
    else if lines.any fun n => decide (s.homeOf (128 * n) ≠ s.pkg) then s.say (.answer h.src h.seq .unknown)
    else if !s.mayAsk c h.kind then s.say (.answer h.src h.seq .firewall)
    else
      let t := lines.foldl State.settleLost s
      match lines.filter (t.heldIn keep) with
      | [] =>
        if lines.any fun n => t.isCold (128 * n) then (t.startFills (distinct (lines.map fun n => n / 512))).keepAsk h
        else
          let new := (lines.filter fun n => (sget? t.dir n).isNone).length
          match t.dirRoom new new with
          | (true, u) => u.effectOf h c
          | (false, u) => u.keepAsk h
      | l => (l.foldl State.askRecall t).keepAsk h

/-- Requests that waited are looked at again, oldest first. -/
def State.retryAsks (s : State) : State := s.asks.foldl (fun t h => t.serve h) { s with asks := [] }

/-- COMMIT_STEP: TGEN moves on, held requests are released, those of other packages too (R381), and every joined RECONF has its
result (R374). -/
def execCommitStep (s : State) : Out :=
  match s.round with
  | none => event s
  | some r =>
    if r.phase ≠ .retrain then event s
    else
      let g := s.tgen + 1
      event (r.warps.foldl (fun (t : State) w => t.giveRound (reconfWord 0 g) w) { s with tgen := g, round := none }).retryAsks

/-! ### Firewall updates (R348) -/

/-- The view of a cell is Suspect. -/
def State.isSuspect (s : State) (c : Nat) : Bool := decide ((sget? s.cells c).map Cell.st = some .suspect)

/-- Whether a cell holds a copy of a line. -/
def DirEntry.holds (e : DirEntry) (c : Nat) : Bool := e.vec.getLsbD c || (decide (e.st ≠ .s) && decide (c = e.owner))

/-- A grant is taken from cells: a line that one of them owns is recalled, and their clean copies are dropped, those of a Suspect
cell once it can be reached (R348, R353, R354). -/
def State.revokeLine (s : State) (lost : BitVec 32) (line : Nat) : State :=
  let t := s.settleLost line
  match sget? t.dir line with
  | none => t
  | some e =>
    if e.st ≠ .s ∧ lost.getLsbD e.owner then t.askRecall line
    else
      let gone : BitVec 32 := maskOf fun c => lost.getLsbD c && e.vec.getLsbD c && !t.isSuspect c
      if gone = 0 then t
      else
        let u := (t.holders ⟨.s, gone, 0⟩).foldl (fun u p => u.transmit p 0xFFFF u.tgen (.invalidate (128 * line) [] 0)) t
        let d : DirEntry := { e with vec := e.vec &&& ~~~gone }
        if d.st = .s ∧ d.vec = 0 then u.dirDel line else { u with dir := sset u.dir line d }

/-- Lines of a firewall page that the directory lists. -/
def State.pageLines (s : State) (page : Nat) : List Nat := (s.dir.filter fun e => decide (e.1 / 16384 = page)).map Prod.fst

/-- One open update goes on: complete once no cell that lost a grant holds a copy (R348). -/
def State.closeUpdate (s : State) (u : Nat × BitVec 32) : State :=
  let t := (s.pageLines u.1).foldl (fun t n => t.revokeLine u.2 n) s
  if (t.pageLines u.1).any fun n => ((sget? t.dir n).map fun e => (List.range 32).any fun c => u.2.getLsbD c && e.holds c).getD false then
    { t with fwOpen := t.fwOpen ++ [u] }
  else t.say (.firewallDone u.1)

def State.closeUpdates (s : State) : State := s.fwOpen.foldl State.closeUpdate { s with fwOpen := [] }

/-- What waits for recalls is looked at again: cores' requests, firewall updates, requests of other packages. -/
def State.afterRecall (s : State) : State := s.grantOwn.closeUpdates.retryAsks

/-! ### Arrival (R368, R369, R371) -/

/-- Packets of a source that came early and whose turn it is. -/
def State.deliverEarly (s : State) (src : Nat) : Nat → State
  | 0 => s
  | fuel + 1 =>
    let n := sgetD s.seqs src 0
    match s.early.find? fun h => decide (h.src = src) && decide (h.seq = n) with
    | none => s
    | some h =>
      (({ s with seqs := sset s.seqs src (n + 1), early := s.early.filter fun x => decide (x ≠ h) }).serve h).deliverEarly src fuel

/-- Delivery in the order of the source's sequence numbers (R371); one that has passed is a replay. -/
def State.deliver (s : State) (h : PacketHdr) : State :=
  let n := sgetD s.seqs h.src 0
  if h.seq < n then s
  else if h.seq = n then (({ s with seqs := sset s.seqs h.src (n + 1) }).serve h).deliverEarly h.src s.early.length
  else { s with early := addOnce h s.early }

/-- PACKET_ARRIVAL: a packet that fails its check, or comes from a lost cell, is dropped and counted against the link; one
for another package goes on through the direct port for it (R369); the others are delivered in order. The number of a dropped
packet is passed over (notes/assumptions/42). -/
def execPacketArrival (h : PacketHdr) (s : State) : Out :=
  onPort s h.port fun p =>
    if !p.st.carries then s
    else if !h.checkOk || s.refusesFrom h.src then
      let t := s.setPort h.port { p with drops := p.drops + 1 }
      if h.dst = s.pkg then t.deliver { h with kind := .other } else t
    else if h.dst ≠ s.pkg then s.forward h
    else if s.asks.isEmpty && s.ownAsks.isEmpty && s.fwOpen.isEmpty then s.deliver h
    else (s.deliver h).afterRecall

/-! ### Topology slots (R372) -/

/-- A 32-bit word of a block. -/
def blockWord (b : List Byte) (a : Nat) : BitVec 32 := BitVec.ofNat 32 (leNat ((b.drop a).take 4))

def allZero (b : List Byte) (a n : Nat) : Bool := ((b.drop a).take n).all fun x => decide (x = 0)

def blockPorts (b : List Byte) : List (BitVec 32) := (List.range 16).map fun i => blockWord b (32 + 4 * i)
def blockRoutes (b : List Byte) : List (BitVec 32) := (List.range 81).map fun p => blockWord b (96 + 4 * p)

/-- A PORT entry: its peer exists or is unused, and its peer port is 0 to 15. -/
def portOk (w : BitVec 32) : Bool :=
  (decide (fld w.toNat 0 8 ≤ 80) || decide (fld w.toNat 0 8 = 0xFF)) && decide (fld w.toNat 8 8 ≤ 15)

def portPeer (ports : List (BitVec 32)) (i : Nat) : Nat := fld (ports.getD i 0xFF).toNat 0 8

/-- The ports of IND. -/
def indPorts (r : BitVec 32) : List Nat := (List.range 16).filter fun i => r.getLsbD i

/-- A ROUTE entry for a destination. -/
def routeOk (pkg : Nat) (ports : List (BitVec 32)) (p : Nat) (r : BitVec 32) : Bool :=
  let dv := r.getLsbD 20
  let d := fld r.toNat 16 4
  let ind := indPorts r
  decide (r.toNat / 2 ^ 21 = 0) && (decide (p ≠ pkg) || decide (r = 0)) &&
    (!dv || decide (portPeer ports d = p) && !(decide (d ∈ ind))) &&
    ind.all (fun i => decide (portPeer ports i ≠ 0xFF) && decide (portPeer ports i ≠ p) && decide (portPeer ports i ≠ pkg)) &&
    decide (ind.length + (if dv then 1 else 0) ≤ 15)

/-- The rules on the routes of a package. -/
def routesOk (pkg : Nat) (ports routes : List (BitVec 32)) : Bool := routes.zipIdx.all fun e => routeOk pkg ports e.2 e.1

/-- The rules on a slot's block. -/
def blockOk (pkg : Nat) (b : List Byte) : Bool :=
  let ports := blockPorts b
  decide (b.length = 512) && ((b.take 8).all fun x => decide (x.toNat < 128)) && decide ((b.getD 8 0).toNat ≤ 1) &&
    allZero b 9 23 && allZero b 420 92 && ports.all portOk &&
    routesOk pkg ports (blockRoutes b)

/-- The packages that a block may be for: this one, or any while firmware has not numbered it (R12, R372). -/
def State.blockPkgs (s : State) : List Nat := if s.numbered then [s.pkg] else List.range 81

/-- Firmware writes a slot; a block that breaks a rule is refused and the slot keeps its contents (R372). A package that has no
number yet judges its own entry when it has one (notes/assumptions/90). -/
def execSlotWrite (slot : Nat) (block : List Byte) (s : State) : Out :=
  if slot < 8 ∧ s.blockPkgs.any fun p => blockOk p block then
    let t : TopoSlot := ⟨block.take 8, decide ((block.getD 8 0).toNat = 1), blockPorts block, blockRoutes block⟩
    event { s with slots := vset s.slots slot t }
  else event (s.say (.refused slot))

/-- Firmware takes a context number off the grant list (R377). -/
def execGrantListRemoval (ctx : Nat) (s : State) : Out := event { s with grants := s.grants.filter (· ≠ ctx) }

/-! ### Tree shapes (R284) -/

/-- Nodes reached from a node, itself included. -/
def treeSize (l r : List Byte) : Nat → Nat → Nat
  | 0, _ => 0
  | fuel + 1, i =>
    let c := fun (x : Byte) => if 0x11 ≤ x.toNat ∧ x.toNat ≤ 0x1E then treeSize l r fuel (x.toNat - 16) else 0
    1 + c (l.getD i 0xFF) + c (r.getD i 0xFF)

/-- A shape's codes: legal, none named twice, every leaf of LEAVES named, every node below node 0. -/
def Shape.legal (x : Shape) : Bool :=
  let used := ((x.left ++ x.right).map BitVec.toNat).filter (· ≠ 0xFF)
  used.all (fun c => decide (c < 16) || decide (0x11 ≤ c) && decide (c ≤ 0x1E)) && decide ((distinct used).length = used.length) &&
    decide (x.leaves ≠ 0) && (List.range 16).all (fun n => !x.leaves.getLsbD n || decide (n ∈ used)) &&
    decide (treeSize x.left x.right 16 0 = 15)

/-- The 32 bytes of a shape: LEFT and RIGHT of 15 nodes, then LEAVES. -/
def shapeOf (v : BitVec 256) : Shape :=
  let byte := fun (i : Nat) => bitsAt v (8 * i) 8
  ⟨(List.range 15).map fun i => byte (2 * i), (List.range 15).map fun i => byte (2 * i + 1), bitsAt v 240 16⟩

/-- Firmware writes a shape of a sector; one that is no tree is refused and the slot keeps its shape (R284). -/
def execShapeWrite (sector slot : Nat) (shape : BitVec 256) (s : State) : Out :=
  if sector < 12 ∧ slot < 8 ∧ (shapeOf shape).legal then
    event { s with shapes := sset s.shapes (sector * 8 + slot) (shapeOf shape) }
  else event (s.say (.refused slot))

end Sys2Proof.Machine
end

