-- ==== Sys2Proof/Machine/Cell.lean ====
section
/-! DEFINITION. The space: its formation, the views of other cells, recovery and readmission (20_cell R352-R364). -/

namespace Sys2Proof.Machine

def CellSt.num : CellSt → Nat
  | .forming => 0
  | .member => 1
  | .suspect => 2
  | .recovering => 3
  | .fenced => 4
  | .rejoining => 5

def State.setCell (s : State) (c : Nat) (x : Cell) : State := { s with cells := sset s.cells c x }

/-- A change of the view of another cell; a package never changes its view of its own (R352, R353). -/
def onCell (s : State) (c : Nat) (f : Cell → State) : Out :=
  if c = s.cell then event s
  else
    match sget? s.cells c with
    | none => event s
    | some x => event (f x)

/-- Cells of the space other than the own one, with their packages (R353). -/
def formedCells (cell : Nat) (members : List (Nat × Nat)) : SMap Cell :=
  let packages := fun (c : Nat) => (members.filter fun m => decide (m.2 = c)).map Prod.fst
  members.foldl (fun t m => sset t m.2 ⟨if m.2 = cell then .member else .forming, packages m.2, []⟩) []

/-- Whether a membership is one of R12 and R16: packages 0 to 80, each once, in cells 0 to 31 of one to eight. -/
def membersOk (l : List (Nat × Nat)) : Bool :=
  l.all (fun m => decide (m.1 ≤ 80) && decide (m.2 ≤ 31)) && decide ((distinct (l.map Prod.fst)).length = l.length) &&
    (List.range 32).all fun c => decide ((l.filter fun m => decide (m.2 = c)).length ≤ 8)

/-- A valid slot becomes the active topology, under a generation (R373). -/
def State.activate (s : State) (slot : Nat) (gen : Word) : State :=
  let t := vget s.slots slot TopoSlot.reset
  let ports := (List.range 16).foldl (fun ps n =>
    vset ps n { vget ps n Port.reset with peer := (t.peerOf n).1, peerPort := (t.peerOf n).2 }) s.ports
  ({ s with active := some t, tgen := gen, ports := ports }).resend.watchCells

/-- Step 6 of bring-up: the ports that the topology connects are enabled (R410, R366). -/
def State.enablePorts (s : State) : State :=
  (List.range 16).foldl (fun t n =>
    let p := t.port n
    if p.st = .down ∧ p.peer ≠ 0xFF then t.linkTo n p .training else t) s

def State.validSlot (s : State) (slot : Nat) : Bool := decide (slot < 8) && (vget s.slots slot TopoSlot.reset).valid

/-- The slots whose routes are another package's are reset once this one has its number (R372, notes/assumptions/90). -/
def ownSlots (pkg : Nat) (slots : Vector TopoSlot 8) : Vector TopoSlot 8 :=
  slots.map fun (t : TopoSlot) => if routesOk pkg t.ports t.routes then t else TopoSlot.reset

/-- Firmware forms the space: numbers and membership recorded, a valid slot activated, TGEN 1 (R12, R353, R373); in bring-up this
is step 6, with the ports enabled, and step 7 follows (R410). A number once
assigned stays while the package is powered (R12); a space that is formed is not formed again (R6). Numbers or a membership
that break R12 or R16 form no space, and nothing is told of it (notes/assumptions/34). -/
def execFormsTheSpace (pkg cell : Nat) (members : List (Nat × Nat)) (slot : Nat) (s : State) : Out :=
  let all := if (pkg, cell) ∈ members then members else (pkg, cell) :: members
  let t := { s with pkg := pkg, cell := cell, numbered := true, cells := formedCells cell all, slots := ownSlots pkg s.slots }
  if s.active.isSome || !t.validSlot slot || !membersOk all || (s.numbered && decide ((pkg, cell) ≠ (s.pkg, s.cell))) ||
      !t.homesFit then event s
  else
    let u := t.activate slot 1
    event (if s.bringUp = 5 then { u.enablePorts with bringUp := 7 } else u)

/-- Firmware admits a cell whose packages are all reachable (R353). -/
def execAdmitsTheCell (cell : Nat) (s : State) : Out :=
  onCell s cell fun x => if x.st = .forming ∧ s.cellReached cell then s.setCell cell { x with st := .member } else s

/-- The record of a transition into Recovering or Fenced: cell, states, cause 0 timer, 1 firmware (R353, R394). -/
def State.cellRecord (s : State) (c : Nat) (frm onto : CellSt) (cause : Nat) : State :=
  s.lanternHub 6 0 [c, frm.num, onto.num, cause]

/-! ### Recovery (R360-R362) -/

/-- A wait with an entry on a line homed in a lost cell ends PEER_LOST (R306, R360 step 4). -/
def State.endLostWait (s : State) (c id : Nat) : State :=
  match sget? s.waits id with
  | none => s
  | some x =>
    let lost := fun (line : Nat) => !isL2w (128 * line) && s.otherCell (128 * line) && decide (s.cellOfPkg (s.homeOf (128 * line)) = some c)
    if x.entries.any fun e => lost e.line then
      s.endWait id x 2 (maskOfList ((x.lanes.filter fun l => !l.latched && lost (lineOf l.addr)).map WaitLane.lane)) 0 0 false
    else s

/-- Admission requests to the packages of a lost cell are answered PEER_LOST (R360). -/
def State.loseAdmits (s : State) (c : Nat) : State :=
  { s with admits := s.admits.map fun e =>
      if e.2.reply.isNone && decide (s.cellOfPkg e.2.dest = some c) then (e.1, { e.2 with reply := some .peerLost }) else e }

/-- What a lost cell had asked or been admitted to ends; lines of it held here are dropped (R360 steps 1 and 3). -/
def State.dropAsks (s : State) (c : Nat) : State :=
  let from_ := fun (p : Nat) => decide (s.cellOfPkg p = some c)
  { s with asks := s.asks.filter fun h => !from_ h.src, admitted := s.admitted.filter fun e => !from_ e.1,
           putLines := s.putLines.filter fun n => !from_ (s.homeOf (128 * n)), stuck := s.stuck.filter fun h => !from_ h.dst,
           early := s.early.filter fun h => !from_ h.src }

/-- The view of a cell enters Recovering (R360): read copies dropped, waits and requests ended, the scan begun; requests that
waited for the cell's recall are served, step 2 applied to their lines first (R361, R362). -/
def State.recover (s : State) (c : Nat) (x : Cell) (cause : Nat) : State :=
  let t := (s.setCell c { x with st := .recovering, reset := [] }).cellRecord c x.st .recovering cause
  let u := { t with cores := [] }
  let v := (u.waits.map Prod.fst).foldl (fun v id => v.endLostWait c id) u
  ((v.loseAdmits c).dropAsks c).roundCheck.afterRecall.addDue (.scanComplete c)

/-- One directory entry under step 2 of R360: what is kept of it. -/
def scanEntry (c : Nat) (e : DirEntry) : Option DirEntry :=
  let v := e.vec &&& ~~~(BitVec.ofNat 32 (2 ^ c))
  match e.st with
  | .s => if v = 0 then none else some { e with vec := v }
  | _ => if e.owner = c then none else some { e with vec := v }

/-- Lines whose dirty copy a cell owned. -/
def State.dirtyIn (s : State) (c : Nat) : List Nat :=
  (s.dir.filter fun (e : Nat × DirEntry) => decide (e.2.owner = c) && (decide (e.2.st = .m) || decide (e.2.st = .o))).map Prod.fst

/-- Lines whose copies in other cells are invalidated because a lost cell held them dirty (R360 step 2). -/
def State.recallDirty (s : State) (c : Nat) : State := (s.dirtyIn c).foldl State.dropEntry s

/-- SCAN_COMPLETE: every entry that names the cell is settled, and the view becomes Fenced (R360 steps 2 and 6). -/
def execScanComplete (cell : Nat) (s : State) : Out :=
  onCell s cell fun x =>
    if x.st ≠ .recovering then s
    else
      let r := s.recallDirty cell
      let t := { r with dir := r.dir.filterMap fun (e : Nat × DirEntry) => (scanEntry cell e.2).map fun d => (e.1, d) }
      (t.setCell cell { x with st := .fenced }).cellRecord cell .recovering .fenced (s.unstated 0)

/-! ### Views (R353) -/

/-- Some package of a cell has no working path left (R353, R370). A readmission is then abandoned. -/
def execPathLoss (cell : Nat) (s : State) : Out :=
  onCell s cell fun x =>
    if s.cellReached cell then s
    else
      match x.st with
      | .member => s.setCell cell { x with st := .suspect }
      | .rejoining => s.setCell cell { x with st := .fenced }
      | _ => s

/-- A Suspect cell is reachable again; while Recovering or Fenced this changes nothing. -/
def execPathRestored (cell : Nat) (s : State) : Out :=
  onCell s cell fun x =>
    if x.st = .suspect ∧ s.cellReached cell then (s.setCell cell { x with st := .member }).afterRecall else s

/-- The Suspect timer reaches 40,000 cycles. -/
def execSuspectTimeout (cell : Nat) (s : State) : Out :=
  onCell s cell fun x => if x.st = .suspect then s.recover cell x 0 else s

def execDeclaresTheCellDead (cell : Nat) (s : State) : Out :=
  onCell s cell fun x =>
    match x.st with
    | .member | .suspect => s.recover cell x 1
    | .rejoining => s.setCell cell { x with st := .fenced }
    | _ => s

/-- Firmware readmits a Fenced cell whose packages have all been reset (R364); their packets are numbered afresh
(notes/assumptions/42). -/
def execReadmitsTheCell (cell : Nat) (s : State) : Out :=
  onCell s cell fun x =>
    if x.st = .fenced ∧ x.members.all fun p => decide (p ∈ x.reset) then
      let t := { s with seqs := s.seqs.filter (fun e => !(decide (e.1 ∈ x.members))),
                        outSeq := s.outSeq.filter (fun e => !(decide (e.1 ∈ x.members))),
                        early := s.early.filter fun h => !(decide (h.src ∈ x.members)) }
      t.setCell cell { x with st := .rejoining }
    else s

/-- Every surviving package has readmitted the cell. -/
def execRejoinComplete (cell : Nat) (s : State) : Out :=
  onCell s cell fun x => if x.st = .rejoining then s.setCell cell { x with st := .member } else s

/-- A package of the own cell has been unreachable for 40,000 cycles: the package stops (R352). -/
def execPackageStop (lastPath : Nat) (s : State) : Out :=
  if s.stopped = .running ∧ !s.cellReached s.cell then event ({ s with stopped := .lost }.lanternHub 11 2 [s.cell, lastPath]) else event s

end Sys2Proof.Machine
end

