-- ==== Sys2Proof/Machine/Context.lean ====
section
/-! DEFINITION. Context commands and the life of a context (05_context R81-R91), DEBUGGO (23 R402), context errors, and what a
stop of a context does to its queues, kernels and groups (R94, R109, R121). -/

namespace Sys2Proof.Machine

/-! ### Commands (R83) -/

/-- n bytes of a command from byte a, as a number. -/
def cmdNat (cmd : BitVec 512) (a n : Nat) : Nat := cmd.toNat / 2 ^ (8 * a) % 2 ^ (8 * n)

def cmdCode (cmd : BitVec 512) : Nat := cmdNat cmd 0 1
def cmdFlags (cmd : BitVec 512) : Nat := cmdNat cmd 1 1
def cmdCtx (cmd : BitVec 512) : Nat := cmdNat cmd 2 2

/-- Whether every byte that the command does not name is zero, and every flag bit that it does not have
(notes/assumptions/67). -/
def cmdClean (cmd : BitVec 512) (flags : Nat) (named : List (Nat × Nat)) : Bool :=
  let keep := ((0, 1) :: (2, 2) :: (8, 8) :: named).foldl (fun m (r : Nat × Nat) => m + (2 ^ (8 * r.2) - 1) * 2 ^ (8 * r.1)) (flags * 256)
  decide (cmd &&& ~~~(BitVec.ofNat 512 keep) = 0)

/-- The completion word: the status in bits 7:0 of the 8 bytes at the address of bytes 8-15. -/
def State.finish (s : State) (cmd : BitVec 512) (status : Nat) : State := s.cohWriteLong (cmdNat cmd 8 8) (leBytes status 8) 3

/-- A command of a context: operands that are bad in themselves give 2, a state that no row matches gives 1, an
authorisation that is missing gives 3, in that order (notes/assumptions/43); else its effect, and 0. Before step 7 of bring-up
every command gives 1 (R410). -/
def ctxCmd (s : State) (cmd : BitVec 512) (code flags : Nat) (named : List (Nat × Nat)) (bad : Ctx → Bool)
    (states : List CtxSt) (denied : Ctx → Bool) (run : Nat → Ctx → State) : State :=
  let c := cmdCtx cmd
  let x := s.ctxOf c
  if s.bringUp < 7 then s.finish cmd 1
  else if cmdCode cmd ≠ code ∧ 1 ≤ cmdCode cmd ∧ cmdCode cmd ≤ 0x0D then s
  else if cmdCode cmd ≠ code ∨ 256 ≤ c ∨ !cmdClean cmd flags named ∨ bad x then s.finish cmd 2
  else if x.st ∉ states then s.finish cmd 1
  else if denied x then s.finish cmd 3
  else (run c x).finish cmd 0

/-- The commands of a context are processed in arrival order: one that comes while an INVAL is not done waits behind it (R83). -/
def ctxTurn (cmd : BitVec 512) (onIde : Bool) (s : State) (run : State → State) : Out :=
  let x := s.ctxOf (cmdCtx cmd)
  if x.cmds.isEmpty then event (run s) else event (s.setCtx (cmdCtx cmd) { x with cmds := x.cmds ++ [.cmd cmd onIde] })

/-- TLBs and walk caches hold no entry of a context (R84, R89). -/
def State.dropTlb (s : State) (c : Nat) : State :=
  { s with tlb := s.tlb.filter (fun e => decide (e.ctx ≠ c)), sectorTlb := s.sectorTlb.filter (fun e => decide (e.ctx ≠ c)),
           walks := s.walks.filter fun e => decide (e.ctx ≠ c) }

/-- L2W ways that an earlier context of a number filled read zero for the next (R89, R232). -/
def State.zeroL2w (s : State) (c : Nat) : State :=
  { s with l2w := (s.l2w.map fun (e : Nat × L2w) => (if e.1 / 16 = c then (e.1, { e.2 with mem := Mem.empty }) else e)).filter (fun e => decide (e.2 ≠ L2w.none)) }

/-- What an earlier tenant of a context number left in the package goes: L2W data, the tags of its trees, its page requests
(R9, R89). -/
def State.newTenant (s : State) (c : Nat) : State :=
  { s.zeroL2w c with
    lastTag := s.lastTag.filter (fun (e : Nat × Nat) => decide (e.1 / 128 ≠ c)),
    pageReqs := s.pageReqs.filter fun q => decide (q.ctx ≠ c) }

/-- CREATE's areas: stage-2 root, save, spill, wake, bind, sample. -/
def createAreas (cmd : BitVec 512) : List Nat := (List.range 6).map fun i => cmdNat cmd (16 + 8 * i) 8

/-- Whether n bytes from an address, page by page, lie in this package's memory (R90). -/
def State.homedHere (s : State) (a n : Nat) : Bool :=
  (List.range (n / 4096)).all fun j => decide (s.homeOf (a + 4096 * j) = s.pkg)

/-- Whether an address can be a confidential context's area in package memory: an area is at least its first page, the bind
area 1 MiB (R260); its stage-2 image is looked at when it is written (R86). The addresses are the command's own, judged as they
stand (notes/assumptions/87). -/
def State.areasHere (s : State) (areas : List Nat) : Bool :=
  areas.zipIdx.all fun e => s.homedHere e.1 (if e.2 = 4 then 2 ^ 20 else 4096)

/-- CREATE: nothing of an earlier tenant is left (R9, R83, R84, R90, R377, R408). -/
def ctxCreate (cmd : BitVec 512) (s : State) : State :=
  let a := createAreas cmd
  let conf := Nat.testBit (cmdFlags cmd) 0
  let fab := Nat.testBit (cmdFlags cmd) 1
  let area := fun (i : Nat) => BitVec.ofNat 64 (a.getD i 0)
  ctxCmd s cmd 1 3 [(16, 48)] (fun _ => a.any (fun v => decide (v % 4096 ≠ 0)) || conf && !s.areasHere a)
    [.free] (fun _ => fab && !decide (cmdCtx cmd ∈ s.grants) || conf && s.identity.isNone)
    fun c x => (s.newTenant c).setCtx c { Ctx.free with
      st := .created, conf := conf, fabric := fab, s2 := area 0, save := area 1, spill := area 2, wake := area 3,
      bind := area 4, sample := area 5, tdi := x.tdi, allot := x.allot }

def execCreate (cmd : BitVec 512) (s : State) : Out := ctxTurn cmd false s (ctxCreate cmd)

/-- Whether a confidential context's bindings are frozen. -/
def Ctx.frozen (x : Ctx) : Bool := x.conf && decide (x.tdi = .configLocked)

/-- BIND: the stage-1 root, frozen while a confidential context's TDI is locked (R84, R90). -/
def ctxBind (cmd : BitVec 512) (s : State) : State :=
  ctxCmd s cmd 2 0 [(16, 8)] (fun _ => decide (cmdNat cmd 16 8 % 4096 ≠ 0)) [.created] Ctx.frozen
    fun c x => (s.setCtx c { x with st := .bound, s1 := BitVec.ofNat 64 (cmdNat cmd 16 8) }).dropTlb c

def execCtxBind (cmd : BitVec 512) (s : State) : Out := ctxTurn cmd false s (ctxBind cmd)

/-- START: a confidential context needs its TDI in RUN, else status 1 (R84, R90). -/
def ctxStart (cmd : BitVec 512) (s : State) : State :=
  let x := s.ctxOf (cmdCtx cmd)
  ctxCmd s cmd 3 0 [] (fun _ => false) (if x.conf && decide (x.tdi ≠ .run) then [] else [.bound]) (fun _ => false)
    fun c x => s.setCtx c { x with st := .runnable }

def execStart (cmd : BitVec 512) (s : State) : Out := ctxTurn cmd false s (ctxStart cmd)

/-! ### Stopping a context -/

/-- An AQI whose kernels have all ended leaves Draining or Revoked (R94); the rest of its status block keeps its values until
the next ASSIGN zeroes it (notes/assumptions/71). -/
def State.aqiSettle (s : State) (n : Nat) : State :=
  let a := s.aqiOf n
  if s.kernels.any fun (e : Nat × Kernel) => decide (e.2.aqi = n) && !(e.2.ended && !e.2.closing) then s
  else
    match a.st with
    | .draining => s.setAqi n { a with st := .assigned }
    | .revoked =>
      { s.setAqi n { a with st := .unassigned, pasid := 0 } with
        remap := sput s.remap n { sgetD s.remap n Remap.reset with v := false } Remap.reset }
    | _ => s

/-- The AQIs of a context. -/
def State.aqisOf (s : State) (c : Nat) : List Nat :=
  (s.aqi.filter fun (e : Nat × Aqi) => decide (e.2.st ≠ .unassigned) && decide (e.2.ctx = c)).map Prod.fst

/-- Enabled AQIs of a context go to Draining (R94). -/
def State.drainAqis (s : State) (c : Nat) : State :=
  (s.aqisOf c).foldl (fun t n =>
    let a := t.aqiOf n
    if a.st = .enabled then (t.setAqi n { a with st := .draining }).aqiSettle n else t) s

/-- Groups of a kernel that satisfy a test. -/
def State.kernelGroups (s : State) (k : Nat) (p : Group → Bool) : List Nat :=
  (s.groups.filter fun (e : Nat × Group) => decide (e.2.kernel = k) && p e.2).map Prod.fst

/-- A kernel that may have groups gets no further gang and takes ERR (R109). -/
def State.stopKernel (s : State) (n : Nat) (e : KStatus) : State :=
  s.updKernel n fun k => { k.setErr e 0 with st := if k.st = .dispatching then .running else k.st, noMore := true }

/-- QUIESCE or a context error reaches a kernel: before Dispatching it ends; else its saved groups, and with `all` its
resident ones, abort (R109, R121). A saved group that is discarded gives its kernel ERR (notes/assumptions/43). -/
def State.stopOne (s : State) (e : KStatus) (all : Bool) (n : Nat) : State :=
  match s.kernel? n with
  | none => s
  | some k =>
    match k.st with
    | .posted | .pending | .ready => s.abortKernel n e
    | .dispatching | .running =>
      let saved := s.kernelGroups n fun g => decide (g.st = .saved)
      let t := if all || decide (k.st = .dispatching) || !saved.isEmpty then s.stopKernel n e else s
      let gs := if all then t.kernelGroups n (fun g => !g.over) else saved
      (gs.foldl (fun u g => u.abortGroup g 0 e) t).kernelCheck n
    | _ => s

def State.ctxKernels (s : State) (c : Nat) : List Nat :=
  (s.kernels.filter fun (e : Nat × Kernel) => decide (e.2.ctx = c)).map Prod.fst

/-- Queues drain and every kernel of the context is stopped. -/
def State.stopCtx (s : State) (c : Nat) (e : KStatus) (all : Bool) : State :=
  ((s.drainAqis c).ctxKernels c).foldl (fun t n => t.stopOne e all n) (s.drainAqis c)

/-- QUIESCE: flag bit 0 aborts the running groups (R84). -/
def ctxQuiesce (cmd : BitVec 512) (s : State) : State :=
  ctxCmd s cmd 4 1 [] (fun _ => false) [.runnable, .running, .swapped] (fun _ => false)
    fun c x => ((s.setCtx c { x with st := .quiescing }).stopCtx c .quiesced (Nat.testBit (cmdFlags cmd) 0)).ctxCheck c false

def execQuiesce (cmd : BitVec 512) (s : State) : Out := ctxTurn cmd false s (ctxQuiesce cmd)

/-- Waits of a context go, with no wake record (R84, R89). -/
def State.dropWaits (s : State) (c : Nat) : State := { s with waits := s.waits.filter fun e => decide (e.2.ctx ≠ c) }

/-- QUIESCE_COMPLETE: no group is resident and no engine operation in flight (R84). -/
def execQuiesceComplete (ctx : Nat) (s : State) : Out :=
  let x := s.ctxOf ctx
  if x.st = .quiescing ∧ (s.ctxGroups ctx Group.live).isEmpty ∧ s.ctxIdle ctx then
    event ((s.setCtx ctx { x with st := .bound, wakes := [] }).dropWaits ctx)
  else event s

/-- Key slots zeroized. -/
def Ctx.clearKeys (x : Ctx) : Ctx := { x with keys := Vector.replicate 8 KeySlot.empty }

/-- A context error (R84, R86). -/
def execContextError (ctx : Nat) (cause : CtxErrCause) (s : State) : Out :=
  let _ := cause
  let x := s.ctxOf ctx
  if x.st = .free ∨ x.st = .destroyed then event s
  else event ((((s.setCtx ctx { x with st := .faulted }).stopCtx ctx .contextError true)).faultInterrupt ctx)

/-- DESTROY (R84). -/
def ctxDestroy (cmd : BitVec 512) (s : State) : State :=
  ctxCmd s cmd 5 0 [] (fun _ => false) [.created, .bound, .faulted] (fun _ => false)
    fun c x => (s.setCtx c { x with st := .destroyed }).addDue (.scrubComplete c)

def execDestroy (cmd : BitVec 512) (s : State) : Out := ctxTurn cmd false s (ctxDestroy cmd)

/-- REVOKE and the scrub: kernels not yet Dispatching end Aborted with REVOKED (R94). -/
def State.revokeAqi (s : State) (n : Nat) : State :=
  let a := s.aqiOf n
  let early := fun (k : Kernel) => decide (k.st = .posted) || decide (k.st = .pending) || decide (k.st = .ready)
  let ks := (s.kernels.filter fun (e : Nat × Kernel) => decide (e.2.aqi = n) && early e.2).map Prod.fst
  (ks.foldl (fun t k => t.abortKernel k .revoked) (s.setAqi n { a with st := .revoked })).aqiSettle n

/-- An interrupt remap entry is freed. -/
def State.freeRemap (s : State) (n : Nat) : State :=
  { s with remap := sput s.remap n { sgetD s.remap n Remap.reset with v := false } Remap.reset }

/-- SCRUB_COMPLETE (R89): once the context's kernels have ended and its engine operations are over
(notes/assumptions/44). -/
def execScrubComplete (ctx : Nat) (s : State) : Out :=
  let x := s.ctxOf ctx
  if x.st ≠ .destroyed then event s
  else if !(s.ctxKernels ctx).isEmpty || !s.ctxIdle ctx then event (s.addDue (.scrubComplete ctx))
  else
    let t := (s.aqisOf ctx).foldl (fun t n => (t.revokeAqi n).freeRemap n) s
    event (((((t.freeRemap (1024 + ctx)).dropWaits ctx).dropTlb ctx).newTenant ctx).setCtx ctx { Ctx.free with tdi := x.tdi, allot := x.allot, cmds := x.cmds })

/-! ### Keys (R88, R90) -/

/-- KEYSET: for a confidential context only with its TDI past CONFIG_UNLOCKED and over its IDE stream; ERROR, for which R90 names
no rule of KEYSET, counts as past it (notes/assumptions/68). -/
def ctxKeyset (cmd : BitVec 512) (onIde : Bool) (s : State) : State :=
  ctxCmd s cmd 6 0 [(16, 1), (20, 4), (32, 32)] (fun _ => decide (8 ≤ cmdNat cmd 16 1))
    [.created, .bound, .runnable, .running, .swapped] (fun x => x.conf && (decide (x.tdi = .configUnlocked) || !onIde))
    fun c x => s.setCtx c { x with
      keys := vset x.keys (cmdNat cmd 16 1) ⟨true, BitVec.ofNat 256 (cmdNat cmd 32 32), BitVec.ofNat 32 (cmdNat cmd 20 4), 0⟩ }

def execKeyset (cmd : BitVec 512) (onIde : Bool) (s : State) : Out := ctxTurn cmd onIde s (ctxKeyset cmd onIde)

/-- The states of KEYCLR and INVAL (R85). -/
def notFree : List CtxSt := [.created, .bound, .runnable, .running, .swapped, .quiescing, .faulted]

def ctxKeyclr (cmd : BitVec 512) (s : State) : State :=
  ctxCmd s cmd 7 0 [(16, 1)] (fun _ => decide (8 ≤ cmdNat cmd 16 1)) notFree (fun _ => false)
    fun c x => s.setCtx c { x with keys := vset x.keys (cmdNat cmd 16 1) KeySlot.empty }

def execKeyclr (cmd : BitVec 512) (s : State) : Out := ctxTurn cmd false s (ctxKeyclr cmd)

/-! ### DEBUGGO (R402) -/

/-- Stopped kernels of the context with an AQI and a sequence number. -/
def State.stoppedAt (s : State) (c aqi seq : Nat) : List Nat :=
  (s.kernels.filter fun (e : Nat × Kernel) => e.2.stopped && decide (e.2.st = .ready) && decide (e.2.ctx = c) &&
    decide (e.2.aqi = aqi) && decide (e.2.seq.toNat = seq)).map Prod.fst

/-- DEBUGGO releases the oldest match. -/
def ctxDebuggo (cmd : BitVec 512) (s : State) : State :=
  let ks := s.stoppedAt (cmdCtx cmd) (cmdNat cmd 16 2) (cmdNat cmd 20 4)
  let ok := decide ((s.ctxOf (cmdCtx cmd)).st ∈ [CtxSt.runnable, .running, .swapped])
  ctxCmd s cmd 0x0D 0 [(16, 2), (20, 4)] (fun _ => ok && ks.isEmpty) [.runnable, .running, .swapped] (fun _ => false)
    fun _ _ =>
      match ks with
      | [] => s
      | k :: _ => s.updKernel k fun x => { x with stopped := false }

def execDebuggo (cmd : BitVec 512) (s : State) : Out := ctxTurn cmd false s (ctxDebuggo cmd)

/-! ### TDIs (R90) -/

/-- A TDI changes state; ERROR zeroizes a confidential context's keys at once and is a context error. -/
def execTdiTransition (ctx : Nat) (onto : TdiState) (s : State) : Out :=
  let x := s.ctxOf ctx
  if 256 ≤ ctx then event s
  else if x.conf && decide (onto = .error) then
    event ((s.setCtx ctx { x.clearKeys with tdi := onto }).raiseCtxErr ctx .tdiError)
  else event (s.setCtx ctx { x with tdi := onto })

end Sys2Proof.Machine
end

