-- ==== Sys2Proof/Machine/Control.lean ====
section
/-! DEFINITION. Branches, calls, EXIT, convergence registers, PARTSET, special registers and SETX (09_warp R149-R159). -/

namespace Sys2Proof.Machine

/-! ### Plain instructions (R152, R154) -/

def execNop (f : FmtS) (s : State) : Out := let _ := f; issue s 8 false fun s _ => .ok s
def execLpad (f : FmtS) (s : State) : Out := let _ := f; issue s 8 false fun s _ => .ok s

/-- YIELD: ready age 0, and 8 slots of the quadrant in which its other ready warps go first. -/
def execYield (f : FmtS) (s : State) : Out :=
  let _ := f
  issue s 8 false fun s i => .ok (s.updWarp i.wid fun w => { w with age := 0, yield := 8 })

/-- The detail of SOFT_TRAP (R387). -/
def softDetail (imm : BitVec 18) (brk : Bool) : Nat := imm.toNat + bitAt 31 brk

def execBrk (f : FmtS) (s : State) : Out :=
  issue s 8 false fun s i =>
    match s.warp? i.wid with
    | none => .ok s
    | some w =>
      let p := predOf w i.lanes none f.k f.kn
      match predPoison s p with
      | .error e => .error e
      | .ok _ =>
        if ((s.descOf i.wid).map Desc.brken).getD false && decide (p.act ≠ 0) then
          stopFault s .softTrap p.act 0 (softDetail f.imm true)
        else .ok s

/-! ### Branches (R149-R151) -/

/-- Lanes that take the branch (R150): CM joins the lanes; in handler mode CM 00 acts as CM 01 (R384). -/
def takeMask (cm : Cm) (handler : Bool) (lanes act : LaneMask) : LaneMask :=
  match cm with
  | .each => if handler then (if act ≠ 0 then lanes else 0) else act
  | .any => if act ≠ 0 then lanes else 0
  | .all => if act = lanes then lanes else 0

/-- What a transfer target is: a header, with its LPAD label if LP = 1, or why it cannot be entered. -/
inductive Tgt where
  | ok (label : Option Nat)
  | bad
  | stop (f : Fetched)
deriving DecidableEq, Repr

/-- A header at the target, and the label of the LPAD behind it (R66, R150 steps 6 and 7). -/
def State.target (s : State) (i : Iss) (w : Warp) (t : Nat) : Tgt :=
  match s.fetchHeader i.core i.ctx t (w.refused i.lanes) with
  | .no _ => .bad
  | .stop (.fault _ _) => .bad
  | .stop f => .stop f
  | .ok h _ =>
    if !hdrLp h then .ok none
    else
      match s.fetchParcel i.core i.ctx (t + 8) (w.refused i.lanes) with
      | .ok p _ =>
        (match s.fetchParcel i.core i.ctx (t + 12) (w.refused i.lanes) with
          | .ok q _ => .ok (if bitsAt p 24 8 = 0x02#8 ∧ bitsAt p 18 6 = 1#6 then some (bitsAt q 0 16).toNat else none)
          | .fault _ _ => .ok none
          | f => .stop f)
      | .fault _ _ => .ok none
      | f => .stop f

def Tgt.chk (t : Nat) : Tgt → Chk
  | .ok _ => .ok
  | .bad => .fault .illegal t 8
  | .stop .page => .page (t / 4096) 0b100#3
  | .stop (.cold x) => .cold x
  | .stop .ctxErr => .ctxErr
  | .stop _ => .hold

/-- Step 6 of R150: a target that is no header, then a park of some lane. -/
def headerChecks (s : State) (l : Chks) : Except Stop Unit :=
  match faultIf s l [.illegal] with
  | .error e => .error e
  | .ok _ => parkIf s l

/-- Steps 6 and 7 of R150 over the lanes that leave. -/
def targetChecks (s : State) (i : Iss) (w : Warp) (take : LaneMask) (T : Nat → DWord) (label : Option Nat) : Except Stop Unit :=
  let ts := (lanesOf take).map fun L => (L, (T L).toNat, s.target i w (T L).toNat)
  let l : Chks := ts.map fun e => (e.1, e.2.2.chk e.2.1)
  match ctxErrIf s l with
  | .error e => .error e
  | .ok _ =>
    match headerChecks s l with
    | .error e => .error e
    | .ok _ =>
      match waitIf s l with
      | .error e => .error e
      | .ok _ =>
        match label with
        | none => .ok ()
        | some n =>
          let bad : Chks := ts.map fun e => (e.1, if e.2.2 = .ok (some n) then .ok else .fault .jtLabel e.2.1 n)
          faultIf s bad [.jtLabel]

/-- SPILLN of CSTK (R151). -/
def spillN (cstk : DWord) : Nat := fld cstk.toNat 0 8

/-- Where entry j of lane L lies (R151). -/
def spillAddr (cstk : DWord) (L j : Nat) : Nat :=
  (fld cstk.toNat 12 45 * 4096 + L * spillN cstk * 128 + 8 * j) % 2 ^ 64

/-- Members go to their targets, the others fall through; the bundle ends (R150). -/
def State.leave (s : State) (i : Iss) (take : LaneMask) (T : Nat → DWord) : State :=
  s.endBundle i fun L => if inMask take L then ⟨T L, T L⟩ else i.fall

/-- A thread after a push of the fall-through address: 16 entries stay in hardware (R151). -/
def Thread.push (t : Thread) (fall : DWord) : Thread := { t with stack := (fall :: t.stack).take 16, depth := t.depth + 1 }

/-- A thread after a pop; `fill` is the entry read back from the spill area. -/
def Thread.pop (t : Thread) (fill : Option DWord) : Thread :=
  { t with stack := t.stack.tail ++ fill.toList, depth := t.depth - 1 }

/-- CALL_DEPTH for the lanes that fail a test, step 4 of R150. -/
def depthCheck (s : State) (w : Warp) (take : LaneMask) (bad : Thread → Bool) (detail : Nat) : Except Stop Unit :=
  let m := take &&& w.lanesWhere bad
  if m ≠ 0 then stopFault s .callDepth m 0 detail else .ok ()

/-- The common end of CALL and CALLJ: steps 4 to 7 of R150, then spills (with a forced commit where the buffer is full,
R163), pushes and the transfer. -/
def callTo (s : State) (i : Iss) (w : Warp) (take : LaneMask) (T : Nat → DWord) (label : Option Nat) : Except Stop State :=
  match depthCheck s w take (fun t => decide (16 + 16 * spillN w.cstk ≤ t.depth)) 0 with
  | .error e => .error e
  | .ok _ =>
    let deep := lanesOf (take &&& w.lanesWhere fun t => decide (16 ≤ t.depth))
    let pl := deep.map fun L => (L, spillAddr w.cstk L ((w.thread L).depth - 16))
    match genChecks s i w .wr none false 8 pl with
    | .error e => .error e
    | .ok _ =>
      match targetChecks s i w take T label with
      | .error e => .error e
      | .ok _ =>
        match s.makeRoom i.wid w i.lanes i.at_ (s.newLines i w .gen pl) with
        | .error e => .error e
        | .ok t =>
          let u := (t.touchAll i .gen .wr pl).updWarp i.wid fun x =>
            let y := pl.foldl (fun y e =>
              y.spanPut .gen 0 e.2 (s.storeLine i .gen e.2) (leBytes (((w.thread e.1).stack.getLastD 0).toNat) 8) false) x
            y.updThreads take fun _ h => h.push i.fall.pc
          .ok (u.leave i take T)

/-- The frame of the branch family: forbidden forms in handler mode (R384), bounds, full registers and poison (R67, R150). -/
def branchFrame (s : State) (k : BitVec 3) (kn : Bool) (cm : Cm) (banned : Bool) (sa : Except Nat Rs) (gs : List Nat)
    (run : State → Iss → Warp → LaneMask → Rs → Except Stop State) : Out :=
  issue s 8 true fun s i =>
    match s.warp? i.wid with
    | none => .ok s
    | some w =>
      match (if banned then notInHandler s i else .ok ()) with
      | .error e => .error e
      | .ok _ =>
        let p := predOf w i.lanes none k kn
        let take := takeMask cm i.handler i.lanes p.act
        match sa with
        | .error r => stopFault s .vregBound p.act 0 r
        | .ok r =>
          match waitFull s w p.act ((r, false) :: gs.map fun g => (.g g true, false)) with
          | .error e => .error e
          | .ok _ =>
            let gp := gs.any fun g => (w.greg g).p
            let bad := p.psn ||| maskOf fun L => inMask take L && ((r.read w L).2 || gp)
            if bad ≠ 0 then stopFault s .poison bad 0 0 else run s i w take r

/-- The direct target of BRA and CALL (R150). -/
def directTarget (i : Iss) (off : BitVec 32) : DWord := i.at_.pc + 4 * off.signExtend 64

def execBra (f : FmtB) (s : State) : Out :=
  branchFrame s f.k f.kn f.cm false (.ok .none) [] fun s i w take _ =>
    let T := fun (_ : Nat) => directTarget i f.off
    match targetChecks s i w take T none with
    | .error e => .error e
    | .ok _ => .ok (s.leave i take T)

/-- JTB, R150: the table entry at gT + 4 × index is added to gT+1. -/
def execJtb (f : FmtB) (s : State) : Out :=
  let t := (bitsAt f.off 10 6).toNat
  let bound := (bitsAt f.off 0 10).toNat
  let allot := (s.cur.map s.allotOf).getD 0
  branchFrame s f.k f.kn f.cm true ((regV allot 1 false f.sa.toNat none).map fun r => .v r 1) [t, t + 1] fun s i w take r =>
    let ix := fun (L : Nat) => (r.read w L).1.toNat
    let past := maskOf fun L => inMask take L && decide (bound ≤ ix L)
    let base := (w.greg t).v
    if past ≠ 0 then stopFault s .jtBound past 0 bound
    else if take ≠ 0 ∧ base.toNat % 4 ≠ 0 then stopFault s .misaligned take base.toNat 4
    else
      let pl := (lanesOf take).map fun L => (L, (base + BitVec.ofNat 64 (4 * ix L)).toNat)
      match readChecks s i w 4 pl with
      | .error e => .error e
      | .ok _ =>
        let words := pl.map fun e => (e.1, e.2, s.readWords i w e.2 1)
        let bad : Chks := words.map fun e => (e.1, if e.2.2.any Prod.snd then .fault .poison e.2.1 0 else .ok)
        match faultIf s bad [.poison] with
        | .error e => .error e
        | .ok _ =>
          let T := fun (L : Nat) => (w.greg (t + 1)).v +
            BitVec.ofNat 64 (((words.find? fun e => decide (e.1 = L)).map fun e => wordsNat e.2.2).getD 0)
          match targetChecks s i w take T (some (bitsAt f.off 16 16).toNat) with
          | .error e => .error e
          | .ok _ => .ok ((pl.foldl (fun u e => u.fillRead i e.2) s).leave i take T)

def execCall (f : FmtB) (s : State) : Out :=
  branchFrame s f.k f.kn f.cm true (.ok .none) [] fun s i w take _ =>
    callTo s i w take (fun _ => directTarget i f.off) none

def execCallj (f : FmtB) (s : State) : Out :=
  let allot := (s.cur.map s.allotOf).getD 0
  branchFrame s f.k f.kn f.cm true ((regV allot 2 true f.sa.toNat none).map fun r => .v r 2) [] fun s i w take r =>
    callTo s i w take (fun L => (r.read w L).1) (some (bitsAt f.off 0 16).toNat)

/-- RET, R150 and R151. -/
def execRet (f : FmtS) (s : State) : Out :=
  branchFrame s f.k f.kn .each true (.ok .none) [] fun s i w take _ =>
    match depthCheck s w take (fun t => decide (t.depth = 0)) 1 with
    | .error e => .error e
    | .ok _ =>
      let deep := lanesOf (take &&& w.lanesWhere fun t => decide (16 < t.depth))
      let pl := deep.map fun L => (L, spillAddr w.cstk L ((w.thread L).depth - 17))
      match readChecks s i w 8 pl with
      | .error e => .error e
      | .ok _ =>
        let fills := pl.map fun e => (e.1, e.2, s.readWords i w e.2 2)
        let bad : Chks := fills.map fun e => (e.1, if e.2.2.any Prod.snd then .fault .poison e.2.1 0 else .ok)
        match faultIf s bad [.poison] with
        | .error e => .error e
        | .ok _ =>
          let T := fun (L : Nat) => (w.thread L).stack.headD 0
          match targetChecks s i w take T none with
          | .error e => .error e
          | .ok _ =>
            let back := fun (L : Nat) => (fills.find? fun e => decide (e.1 = L)).map fun e => BitVec.ofNat 64 (wordsNat e.2.2)
            let t := (pl.foldl (fun u e => u.fillRead i e.2) s).updWarp i.wid fun x =>
              x.updThreads take fun L h => h.pop (back L)
            .ok (t.leave i take T)

/-- EXIT, R153. -/
def execExit (f : FmtS) (s : State) : Out :=
  issue s 8 true fun s i =>
    match s.warp? i.wid with
    | none => .ok s
    | some w =>
      match notInHandler s i with
      | .error e => .error e
      | .ok _ =>
        let p := predOf w i.lanes none f.k f.kn
        match predPoison s p with
        | .error e => .error e
        | .ok _ =>
          match s.commit i.wid i.lanes i.fall [] with
          | .error e => .error e
          | .ok t => .ok (((t.paySlot i.wid i.at_.pc).fallThrough i).finishThreads i.wid p.act)

/-! ### CDECL, CSIGN and PARTSET (R145, R155) -/

/-- CDECL: D is replaced, threads signed outside it are released, then the release check. -/
def Warp.declare (w : Warp) (n : Nat) (d : LaneMask) : Warp :=
  let c := vget w.c n ⟨0, 0⟩
  let out := c.s &&& ~~~d
  let w := w.updThreads out fun _ t => if t.st = .conv n then { t with st := .active } else t
  Warp.convCheck { w with c := vset w.c n ⟨d, c.s &&& d⟩ } n

def execCdecl (f : FmtS) (s : State) : Out :=
  issue s 8 false fun s i =>
    match s.warp? i.wid with
    | none => .ok s
    | some w =>
      match notInHandler s i with
      | .error e => .error e
      | .ok _ =>
        let k := w.kreg f.sa.toNat
        if k.p &&& i.lanes ≠ 0 then stopFault s .poison (k.p &&& i.lanes) 0 0
        else .ok (s.setWarp i.wid (w.declare f.d.toNat (k.m &&& ~~~k.p &&& ~~~w.finished)))

/-- CSIGN: declared lanes whose predicate is true sign and park behind the instruction; the rest go on (R136, R145). -/
def Warp.sign (w : Warp) (n : Nat) (m : LaneMask) (onto : Place) : Warp :=
  let c := vget w.c n ⟨0, 0⟩
  let w := { w with c := vset w.c n { c with s := c.s ||| m } }
  let w := w.updThreads m fun _ t => { t with st := .conv n, at_ := onto }
  let b := w.bundle.bind fun b => if b.mask &&& ~~~m = 0 then none else some { b with mask := b.mask &&& ~~~m }
  Warp.convCheck { w with bundle := b } n

def execCsign (f : FmtS) (s : State) : Out :=
  issue s 8 false fun s i =>
    match s.warp? i.wid with
    | none => .ok s
    | some w =>
      match notInHandler s i with
      | .error e => .error e
      | .ok _ =>
        let p := predOf w i.lanes none f.k f.kn
        match predPoison s p with
        | .error e => .error e
        | .ok _ => .ok (s.setWarp i.wid (w.sign f.d.toNat (p.act &&& (vget w.c f.d.toNat ⟨0, 0⟩).d) i.after))

def execPartset (f : FmtS) (s : State) : Out :=
  issue s 8 false fun s i =>
    match s.warp? i.wid with
    | none => .ok s
    | some w =>
      match notInHandler s i with
      | .error e => .error e
      | .ok _ =>
        if (~~~w.finished) &&& ~~~i.lanes ≠ 0 then stopFault s .segmentDiverged i.lanes 0 0
        else .ok (s.setWarp i.wid { w with part := bitsAt f.imm 0 6 })

/-! ### Special registers (R156-R158) -/

/-- The value of a special register in a lane (R157). -/
def State.special (s : State) (i : Iss) (w : Warp) (n L : Nat) : DWord :=
  let g := s.group? i.wid.g
  let k := s.kernelOf i.wid
  match n with
  | 0 => BitVec.ofNat 64 L
  | 1 => BitVec.ofNat 64 i.wid.w
  | 2 => BitVec.ofNat 64 ((g.map Group.idx).getD 0)
  | 3 => BitVec.ofNat 64 (((g.bind fun x => s.gang? x.gang).map Gang.idx).getD 0)
  | 4 => BitVec.ofNat 64 i.core
  | 5 => BitVec.ofNat 64 (sectorOf i.core)
  | 6 => BitVec.ofNat 64 (dieOf (sectorOf i.core))
  | 7 => BitVec.ofNat 64 s.pkg
  | 8 => BitVec.ofNat 64 s.cell
  | 9 => BitVec.ofNat 64 i.ctx
  | 10 => BitVec.ofNat 64 ((k.map Kernel.aqi).getD 0)
  | 11 => w.part.setWidth 64
  | 12 => w.fstat.setWidth 64
  | 13 => w.srseed
  | 14 => (vget w.amax 0 0).setWidth 64
  | 15 => (vget w.amax 1 0).setWidth 64
  | 16 => (vget w.amax 2 0).setWidth 64
  | 17 => (vget w.amax 3 0).setWidth 64
  | 18 => w.amaxnan.setWidth 64
  | 19 => s.tgen.setWidth 64
  | 20 => Config.cycle s.tick i.core
  | 21 => w.cstk
  | 22 => BitVec.ofNat 64 (s.leaseWord i.wid.g)
  | 23 => (w.thread L).restart.pc
  | _ => 0

/-- FSTAT waits for the special functions in flight, which update it (R158). -/
def srWaits (s : State) (i : Iss) (w : Warp) (n : Nat) : Bool :=
  decide (n = 12) && (!w.sfus.isEmpty || (s.engine (s.coreOf (s.primaryWarp i.wid))).ops.any fun o =>
    decide (o.wid = s.primaryWarp i.wid) && match o.kind with
      | .a _ _ _ _ _ => true
      | _ => false)

/-- MOVSR gD. -/
def execMovsr (f : FmtS) (s : State) : Out :=
  sysFrame s false [] [f.d.toNat] fun s i w =>
    if srWaits s i w (srNum f.imm) then .error (.hold s 10)
    else .ok (s.putG i.wid f.d.toNat (s.special i w (srNum f.imm) 0))

/-- MOVSR vD ?k. -/
def execMovsrVector (f : FmtS) (s : State) : Out :=
  issue s 8 false fun s i =>
    match s.warp? i.wid with
    | none => .ok s
    | some w =>
      let n := srNum f.imm
      let p := predOf w i.lanes none f.k f.kn
      let cnt := if srWide n then 2 else 1
      match regV (s.allotOf i.wid) cnt (srWide n) f.d.toNat none with
      | .error r => stopFault s .vregBound p.act 0 r
      | .ok r =>
        match waitFull s w p.act [(.v r cnt, false)] with
        | .error e => .error e
        | .ok _ =>
          match predPoison s p with
          | .error e => .error e
          | .ok _ =>
            if srWaits s i w n then .error (.hold s 10)
            else
              let x : Vx := { w := w, lanes := i.lanes, act := p.act, z := false, rm := .rne, ty := .b32, d := .v r cnt,
                              a := .none, b := .none, c := .none }
              .ok (s.setWarp i.wid (x.write fun L => (s.special i w n L, false)))

/-- MOVTS, R157; a write of CSTK while a thread's stack reaches into the spill area raises CALL_DEPTH (R151), one of a register that is
not RW ILLEGAL (R156). -/
def execMovts (f : FmtS) (s : State) : Out :=
  sysFrame s false [f.sa.toNat] [] fun s i w =>
    let n := srNum f.imm
    let v := w.gv f.sa
    if srWaits s i w n then .error (.hold s 10)
    else
      match n with
      | 12 => .ok (s.setWarp i.wid { w with fstat := bitsAt v 0 6 })
      | 13 => .ok (s.setWarp i.wid { w with srseed := v })
      | 14 => .ok (s.setWarp i.wid (w.setAmax 0 (loWord v)))
      | 15 => .ok (s.setWarp i.wid (w.setAmax 1 (loWord v)))
      | 16 => .ok (s.setWarp i.wid (w.setAmax 2 (loWord v)))
      | 17 => .ok (s.setWarp i.wid (w.setAmax 3 (loWord v)))
      | 18 => .ok (s.setWarp i.wid { w with amaxnan := bitsAt v 0 4 })
      | 21 =>
        if (lanesOf allLanes).any fun L => decide (16 < (w.thread L).depth) then stopFault s .callDepth i.lanes 0 2
        else .ok (s.setWarp i.wid { w with cstk := v &&& 0x01FFFFFFFFFFF0FF#64 })
      | _ => illegal s i 3

/-- SETX, R159. -/
def execSetx (f : FmtI) (s : State) : Out :=
  sysFrame s false [f.sa.toNat] [] fun s i w =>
    .ok (s.setWarp i.wid { w with x := vset w.x f.d.toNat ((w.gv f.sa + f.imm.signExtend 64).setWidth 11) })

end Sys2Proof.Machine
end

