-- ==== Sys2Proof/Machine/Fetch.lean ====
section
/-! DEFINITION. Presenting an instruction: fetching a unit of the current block with the checks of R43 to R45, R65 and R66;
the choice of what happens next and the issue slot (R139, R15); a program placed for a first step. -/

namespace Sys2Proof.Machine

/-! ### Fetching a unit -/

/-- How a parcel that could not be fetched stops the bundle. -/
def fetchStop {α : Type} (s : State) (lanes : LaneMask) (va : Nat) (f : Fetched) : Except Stop α :=
  match f with
  | .fault c d => stopFault s c lanes va d
  | .page => .error (.park s (.page [va / 4096]) [(va / 4096, 0b100#3)] [])
  | .cold t => .error (.park s (.page [2 ^ 60 + t]) [] [t])
  | .ctxErr => .error (.ctxErr s)
  | _ => .error (.hold s 2)

/-- Fetches `n` parcels from an address; a poisoned one raises POISON at the unit (R389). -/
def State.fetchUnit (s : State) (w : WarpId) (x : Warp) (lanes : LaneMask) (unit : Nat) : Nat → Nat → Except Stop (List Parcel × State)
  | _, 0 => .ok ([], s)
  | va, n + 1 =>
    match s.fetchBar w x (s.coreOf w) (s.ctxNo w) va with
    | some (some k) => stopFault s .txnTimeout lanes va (s.homeOf (128 * k))
    | some none => .error (.hold s 2)
    | none =>
    match s.fetchParcel (s.coreOf w) (s.ctxNo w) va (x.refused lanes) with
    | .ok p psn =>
      if psn then stopFault s .poison lanes unit 0
      else
        match (s.keepCode (s.coreOf w) (s.ctxNo w) va p psn).fetchUnit w x lanes unit (va + 4) n with
        | .ok (ps, t) => .ok (p :: ps, t)
        | .error e => .error e
    | f => fetchStop (if f = .hold then s.recallWarp w (s.awayLines (s.coreOf w) (s.ctxNo w) va) else s) lanes va f

/-- What a parcel behind the unit says, which cannot be fetched: the unit waits for it where it may still come
(notes/assumptions/85). -/
def lookStop (s : State) (lanes : LaneMask) (va : Nat) (f : Fetched) : Except Stop Bool :=
  match f with
  | .page | .cold _ | .hold => fetchStop s lanes va f
  | _ => .ok false

/-- Whether the parcel after the unit, inside the block, is a header (R66, case 6). -/
def State.headerNext (s : State) (w : WarpId) (x : Warp) (lanes : LaneMask) (va : Nat) : Except Stop Bool :=
  match s.fetchParcel (s.coreOf w) (s.ctxNo w) va (x.refused lanes) with
  | .ok p _ => .ok (decide (parcelKind p = .header))
  | f => lookStop s lanes va f

/-- Whether the address holds no header (R66, case 14). -/
def State.noHeader (s : State) (w : WarpId) (x : Warp) (lanes : LaneMask) (va : Nat) : Except Stop Bool :=
  match s.fetchHeader (s.coreOf w) (s.ctxNo w) va (x.refused lanes) with
  | .no _ => .ok true
  | .ok _ _ => .ok false
  | .stop f => lookStop s lanes va f

/-- Whether some member continues at the fall-through header after a last instruction (R66, case 14). -/
def fallsThrough (i : Instr) (x : Warp) (lanes : LaneMask) : Bool :=
  let some_ := fun (k : BitVec 3) (kn : Bool) =>
    let p := predOf x lanes none k kn
    decide (p.psn = 0) && decide (p.act ≠ lanes)
  match i with
  | .bra f =>
    let p := predOf x lanes none f.k f.kn
    decide (p.psn = 0) &&
      (match f.cm with
        | .each => if x.handler.isSome then decide (p.act = 0) else decide (p.act ≠ lanes)
        | .any => decide (p.act = 0)
        | .all => decide (p.act ≠ lanes))
  | .jtb f => some_ f.k f.kn
  | .call f => some_ f.k f.kn
  | .callj f => some_ f.k f.kn
  | .ret f => some_ f.k f.kn
  | .exit f => some_ f.k f.kn
  | .trap f => let p := predOf x lanes none f.k f.kn; decide (p.psn = 0) && decide (p.act = 0)
  | .resumeF _ | .resumeS _ | .resumeN _ | .abortg _ => false
  | _ => true

def isLpad : Instr → Bool
  | .lpad _ => true
  | _ => false

/-- Whether a unit of so many bytes is the last of its block. -/
def Bundle.lastUnit (b : Bundle) (size : Nat) : Bool := decide (b.at_.pc.toNat + size = (blockEnd b.at_.hdr b.len).toNat)

/-- Details that the unit's place in its block decides (R45, R65): LEN and LPAD. -/
def blockDetails (b : Bundle) (i : Instr) (size : Nat) : List (Nat × Bool) :=
  let first := decide (b.at_.pc = b.at_.hdr + 8)
  [(7, i.blockEnding && !b.lastUnit size), (11, isLpad i && !(first && b.lp)), (11, first && b.lp && !isLpad i)]

/-- Whether detail 6 may be the lowest that applies. -/
def atLeastSix : Option Nat → Bool
  | none => true
  | some d => decide (6 ≤ d)

/-- Case 6, of a header behind a unit that is not the last of its block (R66). -/
def State.headerBehind (s : State) (w : WarpId) (x : Warp) (b : Bundle) (size : Nat) : Except Stop Bool :=
  if b.lastUnit size then .ok false else s.headerNext w x b.mask (b.at_.pc.toNat + size)

/-- Case 14, of a last unit that a member falls through to no header (R66). -/
def State.noFall (s : State) (w : WarpId) (x : Warp) (b : Bundle) (i : Instr) (size : Nat) : Except Stop Bool :=
  if b.lastUnit size && fallsThrough i x b.mask then s.noHeader w x b.mask (fallOf b.at_.hdr b.len).toNat else .ok false

/-- The detail of ILLEGAL that a decoded unit earns where it stands, the lowest that applies (R65): `own` are the details of the
unit alone. A parcel behind the unit is read only where it can decide. -/
def State.unitDetail (s : State) (w : WarpId) (x : Warp) (b : Bundle) (i : Instr) (size : Nat) (own : Option Nat) :
    Except Stop (Option Nat) :=
  if atLeastSix own then
    match s.headerBehind w x b size with
    | .error e => .error e
    | .ok true => .ok (some 6)
    | .ok false =>
      match own with
      | some d => .ok (some d)
      | none =>
        match s.noFall w x b i size with
        | .error e => .error e
        | .ok true => .ok (some 14)
        | .ok false => .ok none
  else .ok own

/-- Parcels of the unit whose first parcel is given (R43). -/
def unitLen (p : Parcel) : Nat := if parcelKind p = .pre then 3 else 2

/-- A prefix that no base word follows raises ILLEGAL before a parcel behind the unit is fetched (R43, R60, R67): detail 1 before
a reserved parcel, else 5. -/
def State.checkPrefix (s : State) (w : WarpId) (x : Warp) (b : Bundle) (unit : Nat) : Except Stop Unit :=
  match s.fetchUnit w x b.mask unit unit 2 with
  | .error e => .error e
  | .ok (ps, _) =>
    match parcelKind (ps.getD 1 0) with
    | .base => .ok ()
    | .reserved => stopFault s .illegal b.mask unit 1
    | _ => stopFault s .illegal b.mask unit 5

/-- Presents the unit at the bundle's place: decoded, or stopped (R66, R67 step 1). -/
def present (s : State) (w : WarpId) (x : Warp) (b : Bundle) : Except Stop (Instr × State) :=
  let pc := b.at_.pc.toNat
  let room := ((blockEnd b.at_.hdr b.len).toNat - pc) / 4
  let ill := fun {α : Type} (t : State) (d : Nat) => (stopFault t .illegal b.mask pc d : Except Stop α)
  match s.fetchUnit w x b.mask pc pc 1 with
  | .error e => .error e
  | .ok (ps, _) =>
    let p := ps.headD 0
    match parcelKind p with
    | .header => ill s 6
    | .reserved => ill s 1
    | _ =>
      let n := unitLen p
      -- a prefix that is the last parcel of its block (R60), or a unit that crosses LEN
      if decide (n = 3) && decide (room < 2) then ill s 5
      else
        match (if n = 3 then s.checkPrefix w x b pc else .ok ()) with
        | .error e => .error e
        | .ok _ =>
        match s.fetchUnit w x b.mask pc pc (Nat.min n room) with
        | .error e => .error e
        | .ok (ps, s2) =>
          match takeUnit ps with
          | .error d => ill s2 d
          | .ok u =>
            match buildUnit u with
            | .error d => ill s2 d
            | .ok i =>
              match s.unitDetail w x b i (4 * n) (lowestDetail (rawDetails u i.info ++ i.info.details ++ blockDetails b i (4 * n))) with
              | .error e => .error e
              | .ok (some d) => ill s2 d
              | .ok none => .ok (i, s2)

/-- Bytes of the unit at the bundle's place, for the next PC of a fault that `present` raises: a prefix and the parcel
after it are one unit, a reserved parcel stands alone (R43, R60, notes/assumptions/49); a block-ending instruction counts to
the end of its block (R386, g63). -/
def presentSize (s : State) (w : WarpId) (x : Warp) (b : Bundle) : Nat :=
  let pc := b.at_.pc.toNat
  let room := ((blockEnd b.at_.hdr b.len).toNat - pc) / 4
  let kind := fun (va : Nat) =>
    match s.fetchParcel (s.coreOf w) (s.ctxNo w) va (x.refused b.mask) with
    | .ok p _ => parcelKind p
    | _ => .base
  let n := match kind pc with
    | .header => 2
    | .reserved => 1
    | .base => 2
    | .pre => if kind (pc + 4) = .base then 3 else 2
  let ends := match s.fetchUnit w x b.mask pc pc (Nat.min n room) with
    | .error _ => false
    | .ok (ps, _) =>
      match takeUnit ps with
      | .error _ => false
      | .ok u =>
        match buildUnit u with
        | .error _ => false
        | .ok i => i.blockEnding
  if ends then 4 * room else 4 * Nat.min n room

/-- The fall-through header of a header's block (R44); for LEN = 0 the header's address plus 8 (R386, g63). -/
def headerFall (hdr : DWord) (len : Nat) : DWord := if len = 0 then hdr + 8 else fallOf hdr len

/-- The issue record of a fault raised at a header: the next PC is the fall-through header of its block (R386). -/
def headerIss (s : State) (w : WarpId) (x : Warp) (m : LaneMask) (p : Place) (hdr : DWord) (len : Nat) : Iss :=
  let f := headerFall hdr len
  { wid := w, lanes := m, at_ := p, size := 8, fall := ⟨f, f⟩, last := true, handler := x.handler.isSome,
    core := s.coreOf w, ctx := s.ctxNo w }

/-- The issue record of a fault that `present` raises: at a header found inside the block, that header's (R66, R386). -/
def presentIss (s : State) (w : WarpId) (x : Warp) (b : Bundle) : Iss :=
  match s.fetchParcel (s.coreOf w) (s.ctxNo w) b.at_.pc.toNat (x.refused b.mask) with
  | .ok p false =>
    if parcelKind p = .header then headerIss s w x b.mask b.at_ b.at_.pc (bitsAt p 14 10).toNat
    else mkIss s w x b (presentSize s w x b)
  | _ => mkIss s w x b (presentSize s w x b)

/-- The issue record of a bundle that forms: at a header, the header's; inside a block, that of the unit there (R386). Where the
block's header cannot be read its LEN bounds nothing. -/
def entryIss (s : State) (w : WarpId) (x : Warp) (m : LaneMask) (p : Place) : Iss :=
  let h := match s.fetchHeader (s.coreOf w) (s.ctxNo w) p.hdr.toNat (x.refused m) with
    | .ok h _ => some h
    | _ => none
  if p.pc = p.hdr then headerIss s w x m p p.hdr ((h.map hdrLen).getD 0)
  else
    let b : Bundle := ⟨m, p, (h.map hdrLen).getD 1023, false⟩
    mkIss s w x b (presentSize s w x b)

/-- Forms a bundle and moves its members' PCs into the block; the slot is one of fetch (R397). -/
def State.formBundle (s : State) (w : WarpId) (x : Warp) (m : LaneMask) (p : Place) : State :=
  match s.enter w x m p with
  | .error e => stopWith 2 (entryIss s w x m p) e
  | .ok t =>
    let u := match (t.warp? w).bind (·.bundle) with
      | none => t
      | some b => if x.handler.isSome then t else t.updWarp w fun y => y.updThreads m fun _ h => { h with at_ := b.at_ }
    u.charge w p.pc 2

/-! ### What happens next -/

/-- A commit step begun that has not ended (R166, R171). -/
def Warp.committing (x : Warp) : Bool :=
  x.releasing || match x.meet with
    | .matched _ => true
    | _ => false

/-- Whether a warp may be given an issue slot: the package runs, its group is Resident, and it has a bundle or a head. -/
def State.canIssue (s : State) (w : WarpId) : Bool :=
  decide (s.stopped = .running) &&
    match s.group? w.g, s.warp? w with
    | some g, some x =>
      -- a commit step already begun ends before a pre-emption (R122, R166)
      (decide (g.st = .resident) || decide (g.st = .discarding) && x.committing) && (x.bundle.isSome || x.nextHead.isSome) &&
        -- in handler mode a park holds issue until what it waits for is over (R384)
        x.asks.all s.pageOver &&
        -- the cap loop withholds the slots of a die above its cap (R404)
        !(vget s.throttled (dieOf (sectorOf g.core)) false)
    | _, _ => false

/-- The order of R139: a warp ready for 256 slots, then the class, then the age. -/
def State.rank (s : State) (w : WarpId) : Nat × Nat × Nat :=
  let age := ((s.warp? w).map Warp.age).getD 0
  (if 256 ≤ age then 1 else 0, ((s.kernelOf w).map Kernel.cls).getD 0, age)

def rankLt (a b : Nat × Nat × Nat) : Bool :=
  if a.1 ≠ b.1 then decide (a.1 < b.1)
  else if a.1 = 1 then decide (a.2.2 < b.2.2)
  else if a.2.1 ≠ b.2.1 then decide (a.2.1 < b.2.1) else decide (a.2.2 < b.2.2)

/-- The first of the highest rank. -/
def State.best (s : State) : List WarpId → Option WarpId
  | [] => none
  | w :: r =>
    match s.best r with
    | none => some w
    | some v => if rankLt (s.rank w) (s.rank v) then some v else some w

/-- Warps in the order of R139. -/
def State.ranked (s : State) : Nat → List WarpId → List WarpId
  | 0, _ => []
  | n + 1, l =>
    match s.best l with
    | none => []
    | some w => w :: s.ranked n (l.filter (· ≠ w))

/-- The order in which the warps of a quadrant are tried: those that yield come last (R139, R154, notes/assumptions/4). -/
def State.order (s : State) (l : List WarpId) : List WarpId :=
  let waits := fun (w : WarpId) => decide (((s.warp? w).map Warp.yield).getD 0 ≠ 0)
  s.ranked l.length (l.filter fun w => !waits w) ++ s.ranked l.length (l.filter waits)

/-- The issue slot of a warp: its core's and quadrant's (R15). -/
def State.slotOf (s : State) (w : WarpId) : Nat := 4 * s.coreOf w + ((s.warp? w).map Warp.quadrant).getD 0

/-- Whether a warp is resident with a thread that is not Finished (R397). -/
def State.live (s : State) (w : WarpId) : Bool :=
  s.canIssue w || decide ((s.group? w.g).map Group.st = some .resident) &&
    ((s.warp? w).map fun x => decide (x.lanesWhere (fun t => decide (t.st ≠ .finished)) ≠ 0)).getD false

/-- The issue slot of the quadrant whose turn it is, among those with a live warp. -/
def State.slotNow (s : State) : Nat :=
  let q := distinct ((s.allWarps.filter s.live).map s.slotOf)
  q.getD (s.slotTurn % q.length) 0

/-- The warps that may have a slot of a quadrant, in order. -/
def State.slotWarps (s : State) (slot : Nat) : List WarpId :=
  s.order ((s.allWarps.filter s.canIssue).filter fun w => decide (s.slotOf w = slot))

/-- The oldest due event, when it is the engines' turn or no warp can issue: engines and warps alternate
(notes/assumptions/2). -/
def State.pickDue (s : State) : Option (Instr × State) :=
  match s.due with
  | [] => none
  | i :: r => if s.turn || !(s.allWarps.any s.canIssue) then some (i, { s with due := r, turn := false }) else none

/-- Whether an event still reaches the package: a tripped one, whose clocks stand still, only loses its power (R405); one
that is stopped otherwise has reset and power, and firmware's own interface where firmware runs (R352, R407). -/
def State.reaches (s : State) (i : Instr) : Bool :=
  match s.stopped, i with
  | .running, _ => true
  | .trip, .powerLoss _ => true
  | .trip, _ => false
  | _, .packageReset _ | _, .powerLoss _ => true
  -- a failed check leaves the boot ROM alone, and no power leaves nothing: firmware does not run (R407)
  | .lost, .registerWrite _ | .lost, .spdmMeasurementRequest _ _ | .imageFail, .spdmMeasurementRequest _ _ => true
  | _, _ => false

/-! ### The issue slot (R15, R139, R397) -/

def ThSt.waits : ThSt → Bool
  | .waiting _ => true
  | _ => false

/-- The first entry of a warp's PC table that is not Finished: its PC and its state (R135). -/
def Warp.first (x : Warp) : Option (DWord × ThSt) :=
  (List.range 32).foldl (fun m L =>
    let t := x.thread L
    if t.st = .finished then m
    else
      match m with
      | none => some (t.at_.pc, t.st)
      | some e => if t.at_.pc.toNat < e.1.toNat then some (t.at_.pc, t.st) else some e) none

/-- The leaf of a warp that has nothing to issue, in the order of R397; a withheld slot is Memory (R404). -/
def Warp.restLeaf (x : Warp) (first : ThSt) (withheld : Bool) : Nat :=
  if withheld then 10
  else if !x.asks.isEmpty then (if x.asks.any (fun p => decide (2 ^ 60 ≤ p)) then 9 else 10)
  else
    match first with
    | .spm _ _ => 4
    | .bar _ _ _ => 5
    | .conv _ => 6
    | st =>
      if x.lanesWhere (fun t => t.st.waits) ≠ 0 then 7
      else
        match st with
        | .page ps => if ps.any (fun p => decide (2 ^ 60 ≤ p)) then 9 else 10
        | _ => 10

/-- The warp of a slot that R139 would select if every resident warp of its quadrant were ready, where it is one that has nothing
to issue, with its head's PC and its leaf (R397). -/
def State.resting (s : State) (slot : Nat) : Option (WarpId × DWord × Nat) :=
  match s.order (s.allWarps.filter fun w => s.live w && decide (s.slotOf w = slot)) with
  | [] => none
  | w :: _ =>
    if s.canIssue w then none
    else
      (s.warp? w).bind fun x => x.first.map fun e =>
        (w, e.1, x.restLeaf e.2 (vget s.throttled (dieOf (sectorOf (s.coreOf w))) false))

/-- A slot is over in which nothing issued: it is charged to the warp that R139 would have selected, one that rests, else the first
that was found blocked (R397). -/
def State.endSlot (s : State) (rest : Option (WarpId × DWord × Nat)) : State :=
  match rest.or s.blocked with
  | none => { s with blocked := none }
  | some (w, pc, leaf) => ({ s with blocked := none } : State).charge w pc leaf

def endSlot (rest : Option (WarpId × DWord × Nat)) : Out → Out
  | .next t => .next (t.endSlot rest)
  | o => o

/-- A warp that was found blocked is not ready: its age starts anew (R139). -/
def State.unready (s : State) (w : WarpId) : State := ({ s with blocked := none } : State).updWarp w fun x => { x with age := 0 }

/-- Gives the slot to the first warp of a list that can use it; `run` presents a warp's next instruction. What a blocked
warp has done, a request sent or a wait begun, stands. The warp that issued, if any. -/
def tryWarps (run : State → WarpId → Out) : List WarpId → State → Out × Option WarpId
  | [], s => (.next s, none)
  | w :: r, s =>
    match run s w with
    | .next t =>
      if t.blocked.isSome then
        match tryWarps run r (t.unready w) with
        | (.next u, none) => (.next { u with blocked := t.blocked }, none)
        | o => o
      else (.next t, some w)
    | o => (o, some w)

/-- The instruction that a warp presents next. -/
def State.upNext (s : State) (w : WarpId) : Option Instr :=
  match s.warp? w with
  | none => none
  | some x =>
    match x.bundle with
    | none => none
    | some b =>
      match present s w x b with
      | .ok (i, _) => some i
      | .error _ => none

/-- An instruction of the address stream (R49). -/
def inAddrStream (i : Instr) : Bool := ((encodeUnit i).map fun u => rawA u.base).getD false

/-- An FP32 fused multiply-add (R15). -/
def isFma32 : Instr → Bool
  | .ffma f | .ffms f | .fnma f => decide (f.ty = .f32)
  | _ => false

/-- The first warp of a list that can ride in the slot. -/
def ride (run : State → WarpId → Out) : List WarpId → State → Option (WarpId × State)
  | [], _ => none
  | w :: r, s =>
    match run s w with
    | .next t => if t.blocked.isSome then ride run r s else some (w, t)
    | _ => ride run r s

/-- Whether the instruction that a warp issued last can still be discarded: it has not committed, nor its group ended (R398). -/
def State.discardable (s : State) (w : WarpId) : Bool :=
  ((s.group? w.g).map Group.live).getD false && !((s.warp? w).map Warp.ended).getD true

/-- A slot that carried instructions of two warps is charged to the first, and discarded only with both (R397, R398). -/
def State.pairUp (s : State) (w v : WarpId) : State :=
  if decide (v = w) || !s.discardable w then s
  else
    let t := s.updWarp w fun x => { x with slots := x.slots - 1 }
    if s.discardable v then { t with pairs := s.pairs ++ [⟨w, [w, v]⟩] } else t

/-- The second instruction of a slot whose first, `i`, warp w has issued (R15, R139): an instruction of the address stream of
any warp of the quadrant, else an FP32 fused multiply-add of another warp behind one. Which pairs form is free
(notes/assumptions/3). -/
def pairSlot (run : State → WarpId → Out) (w : WarpId) (i : Option Instr) (t : State) : State :=
  let c := t.slotWarps (t.slotOf w)
  let addr := c.filter fun v => ((t.upNext v).map inAddrStream).getD false
  let fma := c.filter fun v => decide (v ≠ w) && ((t.upNext v).map isFma32).getD false
  if addr.isEmpty && fma.isEmpty then t
  else
    match i with
    | none => t
    | some i =>
      if inAddrStream i || !(Config.paired t.tick) then t
      else
        match ride run (addr ++ if isFma32 i then fma else []) { t with shares := true } with
        | none => t
        | some (v, u) => { u with shares := false }.pairUp w v

/-- Whether the cap loop withholds the slots of a warp's quadrant (R404). -/
def State.withheld (s : State) (w : WarpId) : Bool := vget s.throttled (dieOf (sectorOf (s.coreOf w))) false

/-- What a slot of its quadrant is to a warp before one issues: one more for which it stands back (YIELD, R154); a warp that has
nothing to issue is not ready, and a withheld slot does not count (R139). -/
def Warp.slotPassed (x : Warp) (counts : Bool) : Warp :=
  { x with yield := x.yield - 1, age := if counts then 0 else x.age }

/-- The warps of a quadrant see a slot pass. -/
def State.passSlot (s : State) (slot : Nat) : State :=
  (s.allWarps.filter fun w => decide (s.slotOf w = slot)).foldl
    (fun t w => t.updWarp w fun x => x.slotPassed (!s.canIssue w && !s.withheld w)) s

/-- Whether a warp's next instruction could issue in a slot (R139). -/
def readyIn (run : State → WarpId → Out) (s : State) (w : WarpId) : Bool :=
  match run s w with
  | .next t => t.blocked.isNone
  | _ => false

/-- Warps behind the one that issued in the slot: those that were ready for it, too, are older (R139). -/
def ageRest (run : State → WarpId → Out) (s t : State) (rest : List WarpId) : State :=
  rest.foldl (fun t v => let r := readyIn run s v; t.updWarp v fun x => { x with age := if r then x.age + 1 else 0 }) t

/-- One issue slot of a quadrant (R15, R139, R397). -/
def issueSlot (run : State → WarpId → Out) (s : State) (slot : Nat) : Out :=
  let u := s.passSlot slot
  match s.slotWarps slot with
  | [] => .next (u.endSlot (s.resting slot)).ticked
  | l =>
    match tryWarps run l u with
    | (.next t, some w) => .next (pairSlot run w (s.upNext w) (ageRest run u t (l.dropWhile (· ≠ w)).tail))
    | (o, _) => endSlot (s.resting slot) o

/-! ### A program placed for a first step -/

/-- A five-level table walk that maps the first GiB onto itself (R340): stage 2 at 0x10000, stage 1 at 0x20000. -/
def placedTables : Mem :=
  let e := fun (m : Mem) (a v : Nat) => m.setBytes a (leBytes v 8)
  e (e (e (e (e (e Mem.empty 0x10000 0x11003) 0x11000 0x12003) 0x12000 0x1D) 0x20000 0x21003) 0x21000 0x22003) 0x22000 0x1D

/-- Where the placed block's header lies. -/
def placedAt : Nat := 0x40000

def placedHeader (len : Nat) (lp : Bool) : DWord := BitVec.ofNat 64 (0x7F * 2 ^ 56 + len * 2 ^ 46 + if lp then 2 ^ 15 else 0)

/-- Writes a 64-bit unit as two parcels, high word first (R43). -/
def putUnit (m : Mem) (a : Nat) (w : DWord) : Mem :=
  (m.setBytes a (leBytes (bitsAt w 32 32).toNat 4)).setBytes (a + 4) (leBytes (bitsAt w 0 32).toNat 4)

/-- Writes `n` parcels of a number whose bit 0 is the least significant bit of the first parcel. -/
def putParcels (m : Mem) (w : Nat) : Nat → Nat → Mem
  | _, 0 => m
  | a, n + 1 => putParcels (m.setBytes a (leBytes (w % 2 ^ 32) 4)) (w / 2 ^ 32) (a + 4) n

/-- LP of the placed block. -/
def placedLp (v : Nat) : Bool :=
  match decodeTableWord 96 v with
  | some i => isLpad i
  | none => false

/-- The block: header, the unit, and a block of one NOP at the fall-through header. -/
def placedMem (v : Nat) : Mem :=
  let p := tableParcel v 0
  let n := unitLen p
  let m := putParcels (putUnit placedTables placedAt (placedHeader n (placedLp v))) v (placedAt + 8) n
  putUnit m (fallOf (BitVec.ofNat 64 placedAt) n).toNat (placedHeader 2 false)

def placedDesc : Desc :=
  { entry := BitVec.ofNat 64 placedAt, handler := 0, groups := 1, warps := 1, allot := 256, scr := 0, wb := 0, ab := 0, cb := 0,
    redundant := false, quantum := 0, brken := false, stopl := false, trace := false, sample := false }

def placedKernel : Kernel :=
  { ctx := 0, aqi := 0, subq := 0, cls := 0, seq := 0, signal := false, irq := false, ord := false, prev := none,
    descVA := 0, arg := 0, gangs := 1, inc := 0, sigVA := 0, deps := [], st := .running, err := .ok, fcode := 0,
    desc := some placedDesc, depsLeft := 0, retry := [], pend := [], pageFail := [], nextGang := 1, stopped := false, closing := false, noMore := false }

/-- A thread at a place, as at the start of its kernel (R108). -/
def Thread.start (p : Place) : Thread := ⟨p, .active, [], 0, p⟩

/-- A warp as it starts: registers zero and full, PART 32, the control record of R147 (R108). -/
def Warp.start (p : Place) (q : Nat) : Warp :=
  { th := Vector.replicate 32 (Thread.start p), bundle := none, v := [], vEmpty := [], g := [], gEmpty := [],
    x := Vector.replicate 8 0, k := Vector.replicate 16 ⟨0, 0⟩, c := Vector.replicate 8 ⟨0, 0⟩, part := 32, fstat := 0,
    srseed := 0, amax := Vector.replicate 4 0, amaxnan := 0, cstk := 0, span := [], formed := 0,
    ctl := ⟨Vector.replicate 32 ⟨.active, [], 0⟩, Vector.replicate 8 ⟨0, 0⟩, 32⟩, pipeErr := false, pipeFault := 0,
    redErr := false, sig := 0, commits := 0, mxrds := 0, meet := .none, handler := none, loads := [], sfus := [], atoms := [], mail := [],
    barLimit := [], broken := [], asked := [], txnLost := [], pageFail := [], asks := [], yield := 0, age := 0, quadrant := q, slots := 0, ended := false, unit := none,
    releasing := false, sealing := false, relPa := 0, launch := 0 }

/-- A group as it starts: scratchpad and buffers zero (R121). -/
def Group.start (kernel gang idx core : Nat) (warps : List Warp) : Group :=
  { kernel, gang, idx, core, other := none, isTwin := false, st := .resident, freed := false, warps, scr := Mem.empty,
    wb := Mem.empty, ab := Mem.empty, cb := Mem.empty, absent := [], extents := [], ids := [],
    bars := Vector.replicate 16 Bar.reset, chk := 0, lastMxw := none, pending := [], revoked := false, hadLease := false,
    weights := false, slot := none, fcode := 0, wakes := [] }

def placedBundle (v : Nat) : Bundle :=
  let p := tableParcel v 0
  ⟨allLanes, ⟨BitVec.ofNat 64 (placedAt + 8), BitVec.ofNat 64 placedAt⟩, unitLen p, placedLp v⟩

def placedWarp (v : Nat) : Warp :=
  let p : Place := ⟨BitVec.ofNat 64 (placedAt + 8), BitVec.ofNat 64 placedAt⟩
  { Warp.start ⟨p.hdr, p.hdr⟩ 0 with th := Vector.replicate 32 ⟨p, .active, [], 0, ⟨p.hdr, p.hdr⟩⟩, bundle := some (placedBundle v) }

/-- One Running context with one warp whose current bundle stands before the unit of bits v. -/
def State.loadUnit (s : State) (v : Nat) : State :=
  { s with
    stopped := .running, throttled := Vector.replicate 4 false, agenda := [.issue ⟨0, 0⟩], due := [], turn := false, shares := false, paid := false, mem := placedMem v, pline := [], dir := [], homes := [],
    tlb := [], sectorTlb := [], walks := [], tier := [], cores := sdel s.cores 0,
    ctx := sset s.ctx 0 { Ctx.free with st := .running, s1 := 0x20000, s2 := 0x10000, allot := [0] },
    aqi := sset s.aqi 0 { Aqi.reset with st := .enabled, ctx := 0, limit := 1 },
    kernels := sset s.kernels 0 placedKernel,
    gangs := sset s.gangs 0 { kernel := 0, idx := 0, sector := 0, st := .resident, groups := [0], twins := [],
                              gb := Vector.replicate 4 Bar.reset, gbTwin := Vector.replicate 4 Bar.reset,
                              l2w := false },
    groups := sset s.groups 0 (Group.start 0 0 0 0 [placedWarp v]) }

end Sys2Proof.Machine
end

