-- ==== Sys2Proof/Machine/Queue.lean ====
section
/-! DEFINITION. Queue interfaces: AQI commands, notify writes, status blocks, interrupt remapping (06_queue R92-R105), and
LAUNCH (07_kernel R116, R117). -/

namespace Sys2Proof.Machine

/-! ### AQI commands (R93, R94) -/

def cmdAqi (cmd : BitVec 512) : Nat := cmdNat cmd 16 2

/-- Frame of an AQI command: as `ctxCmd`, over the AQI's own states. -/
def aqiCmd (s : State) (cmd : BitVec 512) (code : Nat) (named : List (Nat × Nat)) (bad : Aqi → Bool) (ok : Ctx → Aqi → Bool)
    (denied : Ctx → Bool) (run : Nat → Aqi → State) : State :=
  let n := cmdAqi cmd
  let a := s.aqiOf n
  ctxCmd s cmd code 0 ((16, 2) :: named) (fun _ => decide (1024 ≤ n) || bad a)
    (if ok (s.ctxOf (cmdCtx cmd)) a then [(s.ctxOf (cmdCtx cmd)).st] else []) denied fun _ _ => run n a

/-- Whether a context does not own an AQI. -/
def Aqi.foreign (a : Aqi) (c : Nat) : Bool := decide (a.st = .unassigned) || decide (a.ctx ≠ c)

/-- A PASID bound to an AQI of another context on the same link. -/
def State.pasidTaken (s : State) (c link pasid : Nat) : Bool :=
  s.aqi.any fun (e : Nat × Aqi) => decide (e.2.st ≠ .unassigned) && decide (e.2.ctx ≠ c) && decide (e.2.link = link) &&
    decide (e.2.pasid.toNat = pasid)

def aqiAssign (cmd : BitVec 512) (s : State) : State :=
  let pasid := cmdNat cmd 20 4
  let limit := cmdNat cmd 24 1
  let link := cmdNat cmd 25 1
  let c := cmdCtx cmd
  aqiCmd s cmd 8 [(20, 6)]
    (fun _ => decide (2 ^ 20 ≤ pasid) || decide (15 < limit) || decide (1 < link) || s.pasidTaken c link pasid)
    (fun x a => decide (a.st = .unassigned) && decide (x.st ∈ [CtxSt.created, .bound, .runnable, .running, .swapped]))
    Ctx.frozen
    fun n _ => s.setAqi n { Aqi.reset with st := .assigned, ctx := c, pasid := BitVec.ofNat 20 pasid, limit := limit, link := link }

def execAssign (cmd : BitVec 512) (s : State) : Out := ctxTurn cmd false s (aqiAssign cmd)

def aqiEnable (cmd : BitVec 512) (s : State) : State :=
  aqiCmd s cmd 9 [] (fun a => a.foreign (cmdCtx cmd))
    (fun x a => decide (a.st = .assigned) && decide (x.st ∈ [CtxSt.runnable, .running, .swapped])) (fun _ => false)
    fun n a => s.setAqi n { a with st := .enabled }

def execEnable (cmd : BitVec 512) (s : State) : Out := ctxTurn cmd false s (aqiEnable cmd)

def aqiDrain (cmd : BitVec 512) (s : State) : State :=
  aqiCmd s cmd 0x0A [] (fun a => a.foreign (cmdCtx cmd)) (fun _ a => decide (a.st = .enabled)) (fun _ => false)
    fun n a => (s.setAqi n { a with st := .draining }).aqiSettle n

def execDrain (cmd : BitVec 512) (s : State) : Out := ctxTurn cmd false s (aqiDrain cmd)

def aqiRevoke (cmd : BitVec 512) (s : State) : State :=
  aqiCmd s cmd 0x0B [] (fun a => a.foreign (cmdCtx cmd))
    (fun _ a => decide (a.st = .assigned) || decide (a.st = .enabled) || decide (a.st = .draining)) Ctx.frozen
    fun n _ => s.revokeAqi n

def execRevoke (cmd : BitVec 512) (s : State) : Out := ctxTurn cmd false s (aqiRevoke cmd)

/-! ### Launch packets (R97, R98) -/

/-- A launch packet, little-endian. -/
structure Packet where
  type : Nat
  flags : Nat
  cls : Nat
  b3 : Nat
  seq : Nat
  desc : Nat
  arg : Nat
  gangs : Nat
  inc : Nat
  sig : Nat
  va0 : Nat
  v0 : Nat
  v1 : Nat
  va1 : Nat

def packetOf (d : BitVec 512) : Packet :=
  { type := cmdNat d 0 1, flags := cmdNat d 1 1, cls := cmdNat d 2 1, b3 := cmdNat d 3 1, seq := cmdNat d 4 4,
    desc := cmdNat d 8 8, arg := cmdNat d 16 8, gangs := cmdNat d 24 4, inc := cmdNat d 28 4, sig := cmdNat d 32 8,
    va0 := cmdNat d 40 8, v0 := cmdNat d 48 4, v1 := cmdNat d 52 4, va1 := cmdNat d 56 8 }

def Packet.count (p : Packet) : Nat := fld p.cls 4 2
def Packet.class_ (p : Packet) : Nat := fld p.cls 0 4
def Packet.isSignal (p : Packet) : Bool := decide (p.type = 2)

/-- A reserved bit, or a field that the type or the dependence count leaves unused, is not zero. -/
def Packet.resv (p : Packet) : Bool :=
  decide (4 ≤ p.flags) || decide (64 ≤ p.cls) || decide (p.b3 ≠ 0) ||
    p.isSignal && (decide (p.desc ≠ 0) || decide (p.arg ≠ 0) || decide (p.gangs ≠ 0)) ||
    decide (p.count = 0) && (decide (p.va0 ≠ 0) || decide (p.v0 ≠ 0)) ||
    decide (p.count ≤ 1) && (decide (p.va1 ≠ 0) || decide (p.v1 ≠ 0))

/-- A used dependence VA that is zero or misaligned, or a count of 3. -/
def Packet.badDeps (p : Packet) : Bool :=
  let bad := fun (v : Nat) => decide (v = 0) || decide (v % 8 ≠ 0)
  decide (p.count = 3) || decide (1 ≤ p.count) && bad p.va0 || decide (p.count = 2) && bad p.va1

def Packet.badShape (p : Packet) : Bool :=
  !p.isSignal && decide (p.gangs = 0) || decide (p.desc % 128 ≠ 0) || decide (p.arg % 8 ≠ 0) || decide (p.sig % 8 ≠ 0)

/-- Packets of an AQI that count toward FULL: until the last completion action (R115 step 5). -/
def State.held (s : State) (n : Nat) : Nat := (s.kernels.filter fun (e : Nat × Kernel) => decide (e.2.aqi = n)).length

/-- Reasons 4 to 9 of R98, or 0. -/
def State.packetReason (s : State) (n slot : Nat) (a : Aqi) (p : Packet) : Nat :=
  if p.type ≠ 1 ∧ p.type ≠ 2 then 4
  else if p.resv then 5
  else if p.class_ / 4 ≠ slot / 16 ∨ a.limit < p.class_ then 6
  else if p.badDeps then 7
  else if p.badShape then 8
  else if 256 ≤ s.held n ∨ 32768 ≤ s.kernels.length then 9
  else 0

/-- The packet before in the sub-queue, ended or not. -/
def State.lastIn (s : State) (n subq : Nat) : Option Nat := sget? s.lastPacket (16 * n + subq)

/-- The dependences that the count uses. -/
def Packet.deps (p : Packet) : List (DWord × Word) :=
  ([(p.va0, p.v0), (p.va1, p.v1)].take p.count).map fun e => (BitVec.ofNat 64 e.1, BitVec.ofNat 32 e.2)

/-- An accepted packet: its kernel is Posted and the AQI counts it (R97, R109). -/
def State.accept (s : State) (n slot : Nat) (a : Aqi) (p : Packet) : State :=
  let (id, t) := s.fresh
  let k : Kernel :=
    { ctx := a.ctx, aqi := n, subq := slot % 16, cls := p.class_, seq := BitVec.ofNat 32 p.seq, signal := p.isSignal,
      irq := Nat.testBit p.flags 0, ord := Nat.testBit p.flags 1, prev := s.lastIn n (slot % 16),
      descVA := BitVec.ofNat 64 p.desc, arg := BitVec.ofNat 64 p.arg, gangs := p.gangs, inc := BitVec.ofNat 32 p.inc,
      sigVA := BitVec.ofNat 64 p.sig, deps := p.deps, st := .posted, err := .ok, fcode := 0, desc := none,
      depsLeft := p.count, retry := [], pend := [], pageFail := [], nextGang := 0, stopped := false, closing := false, noMore := false }
  { ((t.setKernel id k).setAqi n { a with accepted := a.accepted + 1 }).addDue (.descriptorRead id) with
    lastPacket := sset t.lastPacket (16 * n + slot % 16) id }

/-! ### Notify writes (R95-R98, R104, R105) -/

/-- Reasons 1 to 3: the state (STATE before step 7 of bring-up, R410) and link, the PASID and its stream, the size. -/
def State.notifyReason (s : State) (a : Aqi) (off link : Nat) (pasid : Option (BitVec 20)) (onIde : Bool) (size : Nat) : Nat :=
  if s.bringUp < 7 ∨ a.st ≠ .enabled ∨ link ≠ a.link then 1
  else if pasid ≠ some a.pasid ∨ (s.ctxOf a.ctx).conf && !onIde then 2
  else if size ≠ 64 ∨ off % 64 ≠ 0 then 3
  else 0

/-- A refusal is recorded; the first since the last read sends vector 0. -/
def State.refuseWrite (s : State) (n slot link reason : Nat) (a : Aqi) (pasid : Option (BitVec 20)) (seq : Word) : State :=
  let t := s.setAqi n { a with
    count := Nat.min (a.count + 1) 0xFFFF, reason := reason, slot := slot, pv := pasid.isSome, refPasid := pasid.getD 0, refSeq := seq }
  if a.count = 0 then t.say (.vector0 link) else t

/-- The AQI of a notify page, by an offset in BAR 2 (R92). -/
def notifyAqi (adr : Nat) : Option Nat := if adr < 0x400000 then some (adr / 0x1000) else none

/-- A write of a notify page, judged and carried out. -/
def State.notifyRun (s : State) (adr link : Nat) (pasid : Option (BitVec 20)) (onIde : Bool) (size : Nat) (data : BitVec 512) : State :=
  match notifyAqi adr with
  | none => s
  | some aqi =>
    let off := adr % 0x1000
    let a := s.aqiOf aqi
    let slot := off / 64 % 64
    let p := packetOf data
    let r := match s.notifyReason a off link pasid onIde size with
      | 0 => s.packetReason aqi slot a p
      | r => r
    if r = 0 then s.accept aqi slot a p
    else s.refuseWrite aqi slot link r a pasid (if size < 8 then 0 else BitVec.ofNat 32 p.seq)

/-- Whether a waiting write targets an AQI: one of its commands, or a write of its notify page (R95). -/
def HubWrite.targets (n : Nat) : HubWrite → Bool
  | .cmd c _ => decide (8 ≤ cmdCode c) && decide (cmdCode c ≤ 0x0B) && decide (cmdAqi c = n)
  | .notify adr _ _ _ _ _ => decide (notifyAqi adr = some n)

/-- The context in whose line a write of a notify page waits: one where a write to the same AQI waits already (R95). -/
def State.lineOfAqi (s : State) (adr : Nat) : Option Nat :=
  (notifyAqi adr).bind fun n => (s.ctx.find? fun (e : Nat × Ctx) => e.2.cmds.any (HubWrite.targets n)).map Prod.fst

/-- NOTIFY_WRITE: a write of a requester; `data` holds its bytes, `adr` the offset in the BAR where it starts. Only BAR 2 holds
notify pages (R92). It takes effect in the order of arrival at its AQI: behind a command that waits there (R95). -/
def execNotifyWrite (bar adr link : Nat) (pasid : Option (BitVec 20)) (onIde : Bool) (size : Nat) (data : BitVec 512) (s : State) : Out :=
  if bar ≠ 2 then event s
  else
    match s.lineOfAqi adr with
    | none => event (s.notifyRun adr link pasid onIde size data)
    | some c => event (s.setCtx c { s.ctxOf c with cmds := (s.ctxOf c).cmds ++ [.notify adr link pasid onIde size data] })

/-! ### Registers (R102-R105) -/

/-- REFREC as a read returns it. -/
def Aqi.refrec (a : Aqi) : DWord :=
  BitVec.ofNat 64 (a.refPasid.toNat * 2 ^ 36 + bitAt 35 a.pv + a.slot % 64 * 2 ^ 29 + a.reason % 16 * 2 ^ 20 + a.count % 65536)

/-- STATE of a status block (R104). -/
def State.aqiState (s : State) (n : Nat) : Word :=
  let a := s.aqiOf n
  let st := match a.st with
    | .unassigned => 0
    | .assigned => 1
    | .enabled => 2
    | .draining => 3
    | .revoked => 4
  BitVec.ofNat 32 (s.held n % 512 * 2 ^ 20 + a.ctx % 256 * 2 ^ 12 + a.limit % 16 * 2 ^ 8 + st)

/-- A remap entry as a read returns it, 16 bytes (R102). -/
def Remap.word (e : Remap) : BitVec 128 :=
  e.addr ++ 0#2 ++ e.data ++ BitVec.ofNat 32 (bitAt 31 e.v + bitAt 30 e.mask + bitAt 29 e.pend)

/-- Registers of BAR 0 (R92): an AQI's status block with an offset in it, a remap entry with the half read, none of them. -/
inductive Bar0 where
  | status (aqi off : Nat)
  | remap (entry : Nat) (high : Bool)
  | other
deriving DecidableEq, Repr

def bar0 (adr : Nat) : Bar0 :=
  if 0x10000 ≤ adr ∧ adr < 0x20000 then .status ((adr - 0x10000) / 64) ((adr - 0x10000) % 64)
  else if 0x20000 ≤ adr ∧ adr < 0x20000 + 16 * 1280 then .remap ((adr - 0x20000) / 16) (decide (8 ≤ adr % 16))
  else .other

/-- What a read at an offset of a status block returns (R104). -/
def State.statusRead (s : State) (n off : Nat) : DWord :=
  let a := s.aqiOf n
  match off with
  | 0 => (s.aqiState n).setWidth 64
  | 8 => a.refrec
  | 0x10 => a.refSeq.setWidth 64
  | 0x18 => a.accepted
  | _ => 0

/-- A register that the spec does not lay out: what was last written to it, 0 before, its reserved bits zero (R5;
notes/assumptions/19). -/
def State.regRead (s : State) (addr : Nat) : DWord :=
  sgetD s.regs addr 0 &&& Config.regMask addr

/-- REFREC_READ: a host read of BAR 0 or of BAR 2. One of REFREC clears COUNT; a notify page reads zero (R96, R104). What the
command page, or an offset past the table of R92, returns is not stated (notes/assumptions/23). -/
def execRefrecRead (read : BarRead) (s : State) : Out :=
  let link := read.link
  if read.bar = 2 then event (if read.adr < 0x400000 then s.say (.hostRead link 0) else s)
  else if read.bar ≠ 0 then event s
  else
    match bar0 read.adr with
    | .status n off =>
      let t := s.say (if off = 8 then .refrec n (s.statusRead n off) else .hostRead link (s.statusRead n off))
      event (if off = 8 then t.setAqi n { s.aqiOf n with count := 0 } else t)
    | .remap n high =>
      let v := (sgetD s.remap n Remap.reset).word
      event (s.say (.hostRead link (if high then bitsAt v 64 64 else bitsAt v 0 64)))
    | .other => event (s.say (.hostRead link (s.regRead read.adr)))

/-- The context whose remap entry a number is: its AQI's, or its fault vector's (R92). -/
def State.remapCtx (s : State) (n : Nat) : Option Nat :=
  if n < 1024 then
    let a := s.aqiOf n
    if a.st = .unassigned then none else some a.ctx
  else some (n - 1024)

/-- The link on which an entry's message leaves. -/
def State.remapLink (s : State) (n : Nat) : Nat := if n < 1024 then (s.aqiOf n).link else s.linkOfCtx (n - 1024)

/-- REMAP_ENTRY_WRITE: a 16-byte write of BAR 0. One into a status block is ignored (R104). An entry is frozen while the
context's TDI is locked; clearing MASK sends the message held (R102, R103). The spec gives no size and no alignment of an access
to an entry: the model takes a whole write at the entry's base and ignores any other, and a read answers with the 64-bit half that
holds its offset, DESIGN CHOICE (notes/assumptions/88). -/
def execRemapEntryWrite (adr : Nat) (data : BitVec 128) (s : State) : Out :=
  match bar0 adr with
  | .status _ _ | .other | .remap _ true => event s
  | .remap entry false =>
  if adr % 16 ≠ 0 then event s
  else if ((s.remapCtx entry).map fun c => (s.ctxOf c).frozen).getD false then event s
  else
    let old := sgetD s.remap entry Remap.reset
    let new : Remap := { addr := bitsAt data 66 62, data := bitsAt data 32 32, v := data.getLsbD 31, mask := data.getLsbD 30,
                         pend := old.pend }
    let send := old.pend && !new.mask
    let t := { s with remap := sput s.remap entry (if send then { new with pend := false } else new) Remap.reset }
    event (if send then t.interrupt entry (s.remapLink entry) else t)

/-! ### LAUNCH (R116, R117) -/

/-- Submit: the status that LAUNCH returns, and the state after it; a refusal leaves no record. -/
def State.submit (s : State) (ctx n slot : Nat) (d : BitVec 512) : Nat × State :=
  if 1024 ≤ n then (1, s)
  else
    let a := s.aqiOf n
    if a.st ≠ .enabled then (1, s)
    else if a.ctx ≠ ctx then (2, s)
    else
      match s.packetReason n slot a (packetOf d) with
      | 0 => (0, s.accept n slot a (packetOf d))
      | r => (r, s)

/-- The packet a LAUNCH submits: the one that it read when it was first presented. -/
def Warp.packet (w : Warp) (ws : List (Nat × Bool)) : BitVec 512 :=
  if w.releasing then w.launch else BitVec.ofNat 512 (wordsNat ws)

def State.keepPacket (s : State) (w : WarpId) (d : BitVec 512) : State := s.updWarp w fun x => { x with launch := d }

/-- What the signature takes in of a LAUNCH: its g operands, then the packet's words (R170). -/
def launchCmd (f : FmtS) (m : LaneMask) (w : Warp) (d : BitVec 512) : List DWord :=
  cmdG (.launch f) m [w.gv f.sa, w.gv f.sb] ++ (List.range 8).map fun j => bitsAt d (64 * j) 64

/-- LAUNCH: the packet is read as a load reads it, the warp commits and releases at SYS scope, and the packet is submitted. -/
def execLaunch (f : FmtS) (s : State) : Out :=
  sysFrame s true [f.sa.toNat, f.sb.toNat] [f.d.toNat] fun s i w =>
    let a := (w.gv f.sa).toNat
    let n := (w.gv f.sb).toNat
    if a % 64 ≠ 0 then stopFault s .misaligned i.lanes a 64
    else
      match (if w.releasing then .ok () else readChecks s i w 64 (i.onePlace a)) with
      | .error e => .error e
      | .ok _ =>
        let ws := s.readWords i w a 16
        if !w.releasing && ws.any Prod.snd then
          stopFault s .poison i.lanes (a + 4 * ws.findIdx Prod.snd) 0
        else
          let d := w.packet ws
          match ((if w.releasing then s else s.fillRead i a).keepPacket i.wid d).commitRelease i w (launchCmd f i.lanes w d) 5 with
          | .error e => .error e
          | .ok t =>
            if t.isTwin i.wid.g then
              match t.takeMail i.wid with
              | .error e => .error e
              | .ok (m, u) => .ok ((u.putG i.wid f.d.toNat m.gVal).fallThrough i)
            else
              let (r, u) := t.submit i.ctx n (fld f.imm.toNat 0 6) d
              let v : DWord := BitVec.ofNat 64 r
              .ok (((u.mailTwin i.wid (.g v)).putG i.wid f.d.toNat v).fallThrough i)

end Sys2Proof.Machine
end

