-- ==== Sys2Proof/Machine/System.lean ====
section
/-! DEFINITION. SPAN, TRAP, RESUME and ABORTG (10_span R160, 22_faults R391-R392), ALLOC and FREEB (08_group R123-R126). -/

namespace Sys2Proof.Machine

/-- SPAN: the warp commits and the next header begins a span (R160). -/
def execSpan (f : FmtS) (s : State) : Out :=
  let _ := f
  issue s 8 true fun s i =>
    match s.commit i.wid i.lanes i.fall [] with
    | .error e => .error e
    | .ok t => .ok (t.fallThrough i)

/-- TRAP, R392. -/
def execTrap (f : FmtS) (s : State) : Out :=
  issue s 8 true fun s i =>
    match s.warp? i.wid with
    | none => .ok s
    | some w =>
      let p := predOf w i.lanes none f.k f.kn
      match predPoison s p with
      | .error e => .error e
      | .ok _ =>
        match s.commit i.wid i.lanes i.fall [] with
        | .error e => .error e
        | .ok t =>
          if p.act = 0 then .ok (t.fallThrough i) else stopFault t .softTrap p.act 0 (softDetail f.imm false)

/-- RESUME in a form whose bit of g56 is `bit`: outside handler mode, or in a form hardware did not permit, ILLEGAL. -/
def resume (s : State) (bit : Nat) (run : State → Iss → Handler → State) : Out :=
  issue s 8 true fun s i =>
    match (s.warp? i.wid).bind (·.handler) with
    | none => illegal s i 3
    | some h => if h.forms.getLsbD bit then .ok (run s i h) else illegal s i 3

def execResumeF (f : FmtS) (s : State) : Out :=
  let _ := f
  resume s 0 fun s i h => s.resumeAt i.wid h.lanes h.pc
def execResumeS (f : FmtS) (s : State) : Out :=
  let _ := f
  resume s 1 fun s i _ => (s.leaveHandler i.wid).discard i.wid
def execResumeN (f : FmtS) (s : State) : Out :=
  let _ := f
  resume s 2 fun s i h => s.resumeAt i.wid h.lanes (nextPlace h)

/-- ABORTG: the group aborts, with the code of the fault being handled (R114, R392). -/
def execAbortg (f : FmtS) (s : State) : Out :=
  let _ := f
  issue s 8 true fun s i =>
    let code := (((s.warp? i.wid).bind (·.handler)).map Handler.code).getD 0
    .ok ((s.paySlot i.wid i.at_.pc).abortWith i.wid code i.at_.pc.toNat 0 0 i.lanes false)

/-! ### ALLOC and FREEB -/

/-- Bytes of a space that a core has (R13), which is also a group's window. -/
def spaceSize : Space → Nat
  | .scr | .gscr | .ab => 2 ^ 19
  | .wb | .cb => 2 ^ 20
  | _ => 0

/-- Bytes of a space that a group holds on its core: a retired group keeps its scratchpad until its gang is over (R132), on the
core it had (notes/assumptions/74). -/
def State.heldBy (s : State) (g : Group) (sp : Space) : Nat :=
  let own := ((s.kernel? g.kernel).bind (·.desc)).map (fun d => d.res sp) |>.getD 0
  let all := own + ((g.extents.filter fun e => decide (e.sp = sp)).map Extent.size).sum
  if g.st = .saved then 0
  else if sp = .scr then
    if g.freed && decide (((s.gang? g.gang).map Gang.st) = some .done) then 0 else all
  else if g.freed then 0 else all

/-- Free bytes of a space on a core. -/
def State.coreFree (s : State) (core : Nat) (sp : Space) : Nat :=
  spaceSize sp - ((s.groups.filter fun e => decide (e.2.core = core)).map fun e => s.heldBy e.2 sp).sum

/-- Candidate bases for an extent: the reservation's end and the ends of the live extents, rounded up (R124). -/
def bases (res : Nat) (es : List Extent) : List Nat :=
  (res + 127) / 128 * 128 :: es.map fun e => e.base + e.size

/-- The lowest base where n bytes fit. -/
def lowestBase (res win n : Nat) (es : List Extent) : Option Nat :=
  let ok := (bases res es).filter fun b =>
    decide (res ≤ b) && decide (b + n ≤ win) && !(es.any fun e => overlaps b n e.base e.size)
  match ok with
  | [] => none
  | b :: r => some (r.foldl Nat.min b)

/-- SPC of R123. -/
def spcOf (imm : BitVec 18) : Space := spaceOf (bitsAt imm 15 3)

def liveExtents (g : Group) (sp : Space) : List Extent := g.extents.filter fun e => decide (e.sp = sp)

/-- The status of ALLOC, or the base of the extent to bind (R124). -/
def State.allocStatus (s : State) (g : Group) (res n : Nat) (sp : Space) : DWord × Option Nat :=
  if n = 0 ∨ n % 128 ≠ 0 ∨ spaceSize sp < n then (0x8000000000000002, none)
  else if (liveExtents g sp).length = 16 then (0x8000000000000003, none)
  else
    match lowestBase res (spaceSize sp) n (liveExtents g sp) with
    | none => (0x8000000000000001, none)
    | some b => if s.coreFree g.core sp < n then (0x8000000000000001, none) else (BitVec.ofNat 64 b, some b)

/-- Binds a zeroed extent, present and uncommitted (R124). -/
def Group.bindExtent (g : Group) (w : Nat) (sp : Space) (b n : Nat) : Group :=
  let g1 := g.setBuf sp ((g.buf sp).clear b n)
  let g2 := { g1 with extents := g1.extents ++ [⟨sp, b, n, some w, none, none⟩] }
  if sp = .scr then { g2 with absent := g2.absent.filter fun e => decide (128 * e.1 < b) || decide (b + n ≤ 128 * e.1) } else g2

def execAlloc (f : FmtS) (s : State) : Out :=
  sysFrame s false [f.sa.toNat] [f.d.toNat] fun s i w =>
    let sp := spcOf f.imm
    let n := (w.gv f.sa).toNat
    match s.group? i.wid.g with
    | none => .ok s
    | some g =>
      let (st, b) := s.allocStatus g (((s.descOf i.wid).map fun d => d.res sp).getD 0) n sp
      let t := match b with
        | none => s
        | some b => s.setGroup i.wid.g (g.bindExtent i.wid.w sp b n)
      .ok (t.putG i.wid f.d.toNat st)

/-- Whether an extent is the one that FREEB names and not yet marked (R125). -/
def Extent.freeable (e : Extent) (sp : Space) (b : Nat) : Bool :=
  decide (e.sp = sp) && decide (e.base = b) && e.markBy.isNone && e.ret.isNone

def execFreeb (f : FmtS) (s : State) : Out :=
  sysFrame s false [f.sa.toNat] [f.d.toNat] fun s i w =>
    let sp := spcOf f.imm
    let b := (w.gv f.sa).toNat
    match s.group? i.wid.g with
    | none => .ok s
    | some g =>
      if g.extents.any fun e => e.freeable sp b then
        .ok ((s.setGroup i.wid.g { g with
          extents := g.extents.map fun e => if e.freeable sp b then { e with markBy := some i.wid.w } else e }).putG
            i.wid f.d.toNat 0)
      else .ok (s.putG i.wid f.d.toNat 1)

end Sys2Proof.Machine
end

