-- ==== Sys2Proof/Machine/Place.lean ====
section
/-! DEFINITION. Placing gangs: what fits (08_group R118, R119, 10_span R169), the scheduler's order (07_kernel R111, R112),
binding a gang's groups, and kernels leaving Ready (R107-R109). -/

namespace Sys2Proof.Machine

/-! ### What a core has left (R119) -/

/-- What one group needs: warps, registers a warp, bytes by space, a pool of its own, the engine. -/
structure Need where
  warps : Nat
  allot : Nat
  bytes : Space → Nat
  pool : Bool
  lease : Bool

def Desc.need (d : Desc) : Need := ⟨d.warps, d.allot, d.res, d.redundant, false⟩

/-- The need of a saved group: its reservations and live extents, and the engine if it held the lease (R119). -/
def Group.need (g : Group) (d : Desc) : Need :=
  ⟨g.warps.length, d.allot, fun sp => d.res sp + ((liveExtents g sp).map Extent.size).sum, d.redundant, g.hadLease⟩

def State.savedNeed (s : State) (n : Nat) : Need :=
  match s.group? n with
  | none => ⟨0, 8, fun _ => 0, false, false⟩
  | some g => (((s.kernel? g.kernel).bind (·.desc)).map g.need).getD ⟨0, 8, fun _ => 0, false, false⟩

/-- Groups that hold warp slots and registers on a core. -/
def State.onCore (s : State) (core : Nat) : List (Nat × Group) :=
  s.groups.filter fun (e : Nat × Group) => decide (e.2.core = core) && decide (e.2.st ≠ .saved) && !e.2.freed

def State.allotKernel (s : State) (k : Nat) : Nat := (((s.kernel? k).bind (·.desc)).map Desc.allot).getD 0

/-- Warps of a quadrant, each by its allotment. -/
def State.quadrant (s : State) (core q : Nat) : List Nat :=
  ((s.onCore core).map fun e => (e.2.warps.filter fun w => decide (w.quadrant = q)).map fun _ => s.allotKernel e.2.kernel).flatten

/-- How many more warps of an allotment a quadrant takes: 16 warps, 2,048 registers. -/
def State.roomIn (s : State) (core q allot : Nat) : Nat :=
  let l := s.quadrant core q
  Nat.min (16 - l.length) ((2048 - l.sum) / Nat.max 1 allot)

def State.rooms (s : State) (core allot : Nat) : List Nat := (List.range 4).map fun q => s.roomIn core q allot

/-- Quadrants for warps w, w+1, …: w mod 4 where that has room, else the first that has. -/
def spread : Nat → Nat → List Nat → List Nat
  | 0, _, _ => []
  | n + 1, w, rooms =>
    let q := if 0 < rooms.getD (w % 4) 0 then w % 4 else ((List.range 4).find? fun q => decide (0 < rooms.getD q 0)).getD 0
    q :: spread n (w + 1) (rooms.set q (rooms.getD q 0 - 1))

/-- Whether a group fits on a core (R119, R169). -/
def State.fits (s : State) (core : Nat) (n : Need) : Bool :=
  decide (n.warps ≤ (s.rooms core n.allot).sum) &&
    [Space.scr, .wb, .ab, .cb].all (fun sp => decide (n.bytes sp ≤ s.coreFree core sp)) &&
    (!n.pool || decide (s.poolUsed core + 32 * n.warps ≤ 512)) &&
    (!n.lease || decide ((s.engine core).st = .idle))

/-- Whether a group could fit on an empty core (R107, R119, R169). -/
def Desc.placeable (d : Desc) (sectors : List Nat) : Bool :=
  decide (d.warps ≤ 4 * Nat.min 16 (2048 / d.allot)) &&
    (!d.redundant || (decide (32 * d.warps ≤ 512) && decide (2 ≤ (distinct sectors).length)))

def coresOf (sector : Nat) : List Nat := (List.range 16).map fun i => 16 * sector + i

/-! ### The order of R111, reservations (R112) -/

/-- A gang that waits for a place: its kernel, its index, and its name if it is saved. -/
structure Candidate where
  kernel : Nat
  idx : Nat
  saved : Option Nat
deriving DecidableEq, Repr

/-- Whether a context's gangs may be placed. -/
def State.places (s : State) (k : Kernel) : Bool := decide ((s.ctxOf k.ctx).st ∈ [CtxSt.runnable, .running])

/-- Whether a kernel's next gang waits for a place. -/
def State.waiting (s : State) (k : Kernel) : Bool :=
  (decide (k.st = .ready) || decide (k.st = .dispatching)) && !k.stopped && !k.noMore && decide (k.nextGang < k.gangs) && s.places k

def Thread.idle (t : Thread) : Bool :=
  match t.st with
  | .waiting _ => true
  | .finished => true
  | _ => false

/-- Whether every thread of a gang is Waiting or Finished. -/
def State.gangIdle (s : State) (n : Nat) : Bool :=
  (s.gangGroups n).all fun g => ((s.group? g).map fun x => x.warps.all fun w => w.th.toList.all Thread.idle).getD true

/-- Whether a saved gang has something to run: a thread that is neither Waiting nor Finished, or a wait that ended (R121). -/
def State.restorable (s : State) (n : Nat) : Bool :=
  !s.gangIdle n || (s.gangGroups n).any fun g => ((s.group? g).map fun x => !x.wakes.isEmpty).getD false

/-- Groups of a gang that are saved. -/
def State.savedOf (s : State) (l : List Nat) : List Nat := l.filter fun n => ((s.group? n).map fun x => decide (x.st = .saved)).getD false

/-- The gangs of a kernel that wait for a place, in index order: its saved gangs that have something to run, its next gang. -/
def State.candidatesOf (s : State) (kn : Nat) (k : Kernel) : List Candidate :=
  let saved := s.gangs.filter fun (e : Nat × Gang) =>
    decide (e.2.kernel = kn) && decide (e.2.st = .saved) && s.places k && s.restorable e.1
  (saved.map fun e => ⟨kn, e.2.idx, some e.1⟩) ++ if s.waiting k then [⟨kn, k.nextGang, none⟩] else []

/-- Gangs that wait for a place, by class, then by the acceptance of their kernels (R111, R121). -/
def State.candidates (s : State) : List Candidate :=
  ((List.range 16).reverse.map fun c =>
    ((s.kernels.filter fun (e : Nat × Kernel) => decide (e.2.cls = c)).map fun e => s.candidatesOf e.1 e.2).flatten).flatten

/-- A sector that another gang's reservation bars to a gang of a class (R112). -/
def State.barred (s : State) (gang : Nat × Nat) (cls sector : Nat) : Bool :=
  s.reserve.any fun r =>
    match s.kernel? r.1 with
    | none => false
    | some q => decide (r ≠ gang) && decide (cls ≤ q.cls) && decide (sector ∈ (s.ctxOf q.ctx).allot)

/-- Sectors of a kernel's context that are open to a gang of it. -/
def State.openSectors (s : State) (kn idx : Nat) (k : Kernel) : List Nat :=
  (distinct (s.ctxOf k.ctx).allot).filter fun x => decide (x < 12) && !s.barred (kn, idx) k.cls x

/-- Sectors where the groups of a kernel's next gang fit, each on a core of its own. -/
def State.roomySectors (s : State) (kn : Nat) (k : Kernel) (d : Desc) : List Nat :=
  (s.openSectors kn k.nextGang k).filter fun x => decide (d.groups ≤ ((coresOf x).filter fun c => s.fits c d.need).length)

/-- Whether a kernel's next gang fits somewhere: a redundant one with its twins in another sector (R112, R169). -/
def State.nextFits (s : State) (kn : Nat) (k : Kernel) : Bool :=
  match k.desc with
  | none => false
  | some d => decide ((if d.redundant then 2 else 1) ≤ (s.roomySectors kn k d).length)

def subsets : List Nat → List (List Nat)
  | [] => [[]]
  | n :: r => subsets r ++ (subsets r).map (n :: ·)

/-- Whether saved groups fit in a sector, each on a core of its own: any of them find at least as many cores among them. -/
def State.seats (s : State) (sector : Nat) (groups : List Nat) : Bool :=
  (subsets groups).all fun l => decide (l.length ≤ ((coresOf sector).filter fun c => l.any fun n => s.fits c (s.savedNeed n)).length)

/-- Whether a saved gang fits somewhere: back in its sector if it touched L2W, its twins in another (R119, R233). -/
def State.savedFits (s : State) (kn : Nat) (k : Kernel) (g : Gang) : Bool :=
  let ps := s.savedOf g.groups
  let ts := s.savedOf g.twins
  let l := s.openSectors kn g.idx k
  l.any fun x => (!g.l2w || decide (x = g.sector)) && s.seats x ps &&
    (ts.isEmpty || l.any fun y => decide (y ≠ x) && s.seats y ts)

def State.candidateFits (s : State) (c : Candidate) : Bool :=
  match s.kernel? c.kernel with
  | none => false
  | some k =>
    match c.saved with
    | none => s.nextFits c.kernel k
    | some n => ((s.gang? n).map fun g => s.savedFits c.kernel k g).getD false

/-- The gang that the scheduler takes next: the first in order that fits (R111, R121). -/
def State.firstFit (s : State) : Option Candidate := s.candidates.find? fun c => s.candidateFits c

/-! ### Binding (R108, R118, R120) -/

/-- A warp at the start of its kernel. -/
def startWarp (d : Desc) (arg : DWord) (q : Nat) : Warp := (Warp.start ⟨d.entry, d.entry⟩ q).setG 1 ⟨arg, false⟩

/-- Before a group's first instruction its core acquires at SYS and drops the context's copies of code, and every CONST copy,
which may be older than the kernel (R100, R227, R421). -/
def State.freshCore (s : State) (core ctx : Nat) : State :=
  let c := s.core core
  s.setCore core { c with copies := [], code := c.code.filter fun e => decide (e.1 / 2 ^ 57 ≠ ctx) }

/-- Binds group `idx` of a gang to a core. -/
def State.bindGroup (s : State) (kn gang idx core : Nat) (d : Desc) (k : Kernel) : Nat × State :=
  let (id, t) := s.fresh
  let qs := spread d.warps 0 (s.rooms core d.allot)
  let g := Group.start kn gang idx core (qs.map fun q => startWarp d k.arg q)
  (id, (t.setGroup id g).freshCore core k.ctx)

/-- Binds groups to cores, in index order. -/
def State.bindAll (s : State) (kn gang : Nat) (d : Desc) (k : Kernel) : List Nat → Nat → List Nat × State
  | [], _ => ([], s)
  | c :: r, idx =>
    let (id, t) := s.bindGroup kn gang idx c d k
    let (ids, u) := t.bindAll kn gang d k r (idx + 1)
    (id :: ids, u)

/-- Primaries and twins know each other (R169). -/
def State.pair (s : State) : List (Nat × Nat) → State
  | [] => s
  | (p, t) :: r =>
    ((s.updGroup p fun g => { g with other := some t }).updGroup t fun g => { g with other := some p, isTwin := true }).pair r

/-- The next gang of a kernel is placed: its groups are Resident, the kernel counts it, the context runs. -/
def State.placeGang (s : State) (kn : Nat) (k : Kernel) (d : Desc) (sector : Nat) (cores : List Nat) : State :=
  let (gid, s1) := s.fresh
  let (ps, s2) := s1.bindAll kn gid d k (cores.take d.groups) 0
  let (ts, s3) := s2.bindAll kn gid d k (cores.drop d.groups) 0
  let gang : Gang := { kernel := kn, idx := k.nextGang, sector := sector, st := .resident, groups := ps, twins := ts,
                       gb := Vector.replicate 4 Bar.reset, gbTwin := Vector.replicate 4 Bar.reset, l2w := false }
  let n := k.nextGang + 1
  let s4 := ((s3.setGang gid gang).pair (ps.zip ts)).setKernel kn { k with
    nextGang := n, st := if n < k.gangs then .dispatching else .running }
  let x := s4.ctxOf k.ctx
  let s5 := if x.st = .runnable then s4.setCtx k.ctx { x with st := .running } else s4
  { s5.trace kn (cores.headD 0) 1 k.nextGang with reserve := s5.reserve.filter (· ≠ (kn, k.nextGang)) }

/-- Whether cores are distinct cores of one sector where a group with that need fits. -/
def State.coresFit (s : State) (sector : Nat) (cores : List Nat) (n : Need) : Bool :=
  decide ((distinct cores).length = cores.length) && cores.all fun c => decide (sectorOf c = sector) && s.fits c n

/-- SCHEDULER_SELECT: the scheduler places the next gang of a kernel, the first in order that fits, on cores it chooses; for
a redundant kernel the twins' cores follow the primaries' (R111, R112, R118). -/
def execSchedulerSelect (kernel sector : Nat) (cores : List Nat) (s : State) : Out :=
  match s.kernel? kernel with
  | none => event s
  | some k =>
    match k.desc with
    | none => event s
    | some d =>
      let a := cores.take d.groups
      let b := cores.drop d.groups
      let twins := sectorOf (b.headD 0)
      let ok := decide (s.firstFit = some ⟨kernel, k.nextGang, none⟩) && decide (cores.length = if d.redundant then 2 * d.groups else d.groups) &&
        decide (sector ∈ s.openSectors kernel k.nextGang k) && s.coresFit sector a d.need &&
        (!d.redundant || (decide (twins ≠ sector) && decide (twins ∈ s.openSectors kernel k.nextGang k) && s.coresFit twins b d.need))
      if ok then event (s.placeGang kernel k d sector cores) else event s

/-- RESERVATION_TIMEOUT: a gang that has not fitted for 65,536 cycles, its kernel's next or a saved one, reserves its kernel's
sectors; one that a standing reservation bars from them all reserves nothing (R112, R233, notes/assumptions/45). -/
def execReservationTimeout (gang : Nat × Nat) (s : State) : Out :=
  let (kernel, idx) := gang
  match s.kernel? kernel with
  | none => event s
  | some k =>
    let starving := (s.candidatesOf kernel k).any fun c => decide (c.idx = idx) && !s.candidateFits c
    if starving && !(s.openSectors kernel idx k).isEmpty then event { s with reserve := addOnce gang s.reserve } else event s

/-! ### Leaving Posted (R106, R107) -/

/-- A field of the descriptor. -/
def dNat (v a n : Nat) : Nat := v / 2 ^ (8 * a) % 2 ^ (8 * n)

def descOfBytes (v : Nat) : Desc :=
  { entry := BitVec.ofNat 64 (dNat v 0 8), handler := BitVec.ofNat 64 (dNat v 8 8), groups := dNat v 16 1, warps := dNat v 17 1,
    allot := dNat v 18 2, scr := dNat v 20 4, wb := dNat v 24 4, ab := dNat v 28 4, cb := dNat v 32 4,
    redundant := Nat.testBit (dNat v 37 1) 0, quantum := dNat v 40 4, brken := Nat.testBit (dNat v 44 4) 0,
    stopl := Nat.testBit (dNat v 48 4) 0, trace := Nat.testBit (dNat v 48 4) 1, sample := Nat.testBit (dNat v 48 4) 2 }

/-- The rules of R106. -/
def descOk (v : Nat) : Bool :=
  let d := descOfBytes v
  let sized := fun (x most : Nat) => decide (x % 128 = 0) && decide (x ≤ most)
  decide (dNat v 0 8 % 8 = 0) && decide (dNat v 8 8 % 8 = 0) && decide (1 ≤ d.groups) && decide (d.groups ≤ 16) &&
    decide (1 ≤ d.warps) && decide (d.warps ≤ 32) && decide (d.allot % 8 = 0) && decide (8 ≤ d.allot) && decide (d.allot ≤ 2048) &&
    sized d.scr (2 ^ 19) && sized d.wb (2 ^ 20) && sized d.ab (2 ^ 19) && sized d.cb (2 ^ 20) &&
    decide (dNat v 36 1 < 16) && decide (dNat v 37 1 < 2) && decide (dNat v 38 2 = 0) && decide (d.quantum ≤ 1048576) &&
    decide (dNat v 44 4 < 2) && decide (dNat v 48 4 < 8) && decide (dNat v 52 76 = 0)

/-- What the hub's accesses to addresses of a packet find: all may proceed, a wait, or a failure. -/
def State.hubAll (s : State) (k : Kernel) (a : Acc) : List Nat → Got (List Nat)
  | [] => .ok []
  | va :: r =>
    match s.hubFind k va a with
    | .wait t l => .wait t l
    | .err t c x => .err t c x
    | .ok x =>
      match s.hubAll k a r with
      | .ok l => .ok (x.pa :: l)
      | g => g

/-- The page of the argument VA, which the hub translates and does not read (R107). -/
def State.argPage (s : State) (k : Kernel) : Got Unit :=
  let va := k.arg.toNat
  if va = 0 then .ok ()
  else
    match s.translate hubCore k.ctx va 0 with
    | .ok x => if s.isCold x.pa then .wait (s.startFill (x.pa / 65536)) [] else .ok ()
    | .cold t => .wait (s.startFill t) []
    | .hold => .wait s []
    | .lost _ => .err s 9 va
    | .poison => .err (s.raiseCtxErr k.ctx .walkPoison) 6 va
    | .replay _ _ =>
      if va / 4096 ∈ k.pageFail then .err s 6 va
      else let (id, t) := s.requestPage (sectorOf hubCore) k.aqi k.ctx (va / 4096) Acc.rd.need; .wait t [id]
    | _ => .err s 6 va

/-- The physical addresses of the descriptor (none for a SIGNAL packet) and of the dependences, once every page of a packet
has been found (R107). -/
def State.packetPages (s : State) (k : Kernel) : Got (Nat × List Nat) :=
  let deps := fun (t : State) (pa : Nat) =>
    match t.hubAll k .wait (k.deps.map fun d => d.1.toNat) with
    | .ok l => (.ok (pa, l) : Got (Nat × List Nat))
    | .wait t l => .wait t l
    | .err t c x => .err t c x
  if k.signal then deps s 0
  else
    match s.hubFind k k.descVA.toNat .rd with
    | .wait t l => .wait t l
    | .err t c x => .err t c x
    | .ok d =>
      match s.argPage k with
      | .wait t l => .wait t l
      | .err t c x => .err t c x
      | .ok _ => deps s d.pa

/-- Each dependence is installed, while the kernel is still Pending (R109). -/
def State.installDeps (s : State) (kn : Nat) : List (Nat × Nat × Nat) → State
  | [] => s
  | (i, pa, v) :: r =>
    match (s.kernel? kn).map Kernel.st with
    | some .pending => (s.installDep kn i pa v).installDeps kn r
    | _ => s

/-- The kernel is Pending, with its dependences installed; one that has none leaves at once. -/
def State.toPending (s : State) (kn : Nat) (k : Kernel) (d : Option Desc) (pas : List Nat) : State :=
  let t := s.setKernel kn { k with st := .pending, desc := d }
  (t.installDeps kn (pas.zipIdx.map fun e => (e.2, e.1, ((k.deps.getD e.2 (0, 0)).2).toNat))).tryLeavePending kn

/-- DESCRIPTOR_READ: the kernel leaves Posted, or waits for a page (R107); the reads abandon an eviction of their tier pages
(R345). Where several cases of R107 hold at once, the order in which they are judged is the model's choice
(notes/assumptions/94). -/
def execDescriptorRead (kernel : Nat) (s : State) : Out :=
  match s.kernel? kernel with
  | none => event s
  | some k =>
    if k.st ≠ .posted then event s
    else
      match s.packetPages k with
      | .wait t l => event ((t.updKernel kernel fun k => { k with pend := l }).addDue (.descriptorRead kernel))
      | .err t c _ => event (t.abortKernel kernel (hubErr c))
      | .ok (pa, pas) =>
        let k := { k with pend := [], pageFail := [] }
        if k.signal then event (s.toPending kernel k none pas)
        else
          let t := (s.recallAll (lineOf pa)).touchTier pa
          let v := t.mem.nat pa 128
          if (List.range 32).any fun j => (t.cohMark (pa / 4 + j)).isSome then event (t.abortKernel kernel .xlate)
          else if !descOk v then event (t.abortKernel kernel .descriptor)
          else
            let allot := (t.ctxOf k.ctx).allot
            if !allot.isEmpty && !(descOfBytes v).placeable allot then
              event ((t.updKernel kernel fun k => { k with desc := some (descOfBytes v) }).abortKernel kernel .nofit)
            else event (t.toPending kernel k (some (descOfBytes v)) pas)

/-- Sectors are allotted to a context: kernels of it that could never fit end NOFIT (R107); the model judges them at every
change of the allotment (notes/assumptions/73). -/
def State.judgeFit (s : State) (c : Nat) : State :=
  let allot := (s.ctxOf c).allot
  if allot.isEmpty then s
  else
    (s.ctxKernels c).foldl (fun t n =>
      match t.kernel? n with
      | none => t
      | some k =>
        match k.desc with
        | none => t
        | some d =>
          if (decide (k.st = .pending) || decide (k.st = .ready)) && !d.placeable allot then t.abortKernel n .nofit else t) s

/-! ### Completion (R114, R115) -/

def KStatus.num : KStatus → Nat
  | .ok => 0 | .fault => 1 | .depAborted => 2 | .xlate => 3 | .descriptor => 4 | .nofit => 5 | .quiesced => 6
  | .contextError => 7 | .revoked => 8 | .peerLost => 9

/-- The status word of R114. -/
def Kernel.status (k : Kernel) : DWord :=
  BitVec.ofNat 64 (k.seq.toNat * 2 ^ 32 + (if k.err = .fault then k.fcode % 256 * 256 else 0) + k.err.num)

/-- Whether a store of the kernel has not reached its place: written through, or queued at a hot line. -/
def State.storesLeft (s : State) (kn : Nat) : Bool :=
  (s.wts.any fun t => decide (t.kernel = kn)) ||
    s.hot.any fun (e : Nat × List AtomReq) => e.2.any fun q => decide ((s.group? q.wid.g).map Group.kernel = some kn)

/-- The record: the status word, then the increment with bit 63 on Aborted; none when a word is poisoned. -/
def State.writeRecord (s : State) (k : Kernel) (sig st : Nat) : Option State :=
  let t := (s.recallAll (lineOf sig)).recallAll (lineOf st)
  let (v, p) := t.readWord sig 8
  if p || (t.readWord st 8).2 then none
  else
    let new := v + k.inc.setWidth 64 ||| (if k.st = .aborted then 0x8000000000000000 else 0)
    some ((t.cohWrite st (leBytes k.status.toNat 8) false).cohWrite sig (leBytes new.toNat 8) false)

/-- The record could not be written: a Lantern record and the context's fault interrupt. -/
def State.recordLost (s : State) (k : Kernel) : State :=
  (s.lanternAdd { stamp := Config.cycle s.tick 0, kind := 8, sev := 1, unit := 0x4000, ctx := k.ctx, aqi := k.aqi, cseq := k.seq,
                  engine := 5, code := 0, payload := [k.sigVA.toNat] }).faultInterrupt k.ctx

/-- Step 5: the kernel is gone, with its gangs and groups. -/
def State.removeKernel (s : State) (kn : Nat) (k : Kernel) : State :=
  let t := { s with
    kernels := sdel s.kernels kn, reserve := s.reserve.filter (fun r => decide (r.1 ≠ kn)),
    groups := s.groups.filter fun (e : Nat × Group) => decide (e.2.kernel ≠ kn),
    gangs := s.gangs.filter fun (e : Nat × Gang) => decide (e.2.kernel ≠ kn) }
  (t.aqiSettle k.aqi).ctxCheck k.ctx false

/-- The record of a kernel with a signal VA: written, lost, or waiting. -/
def State.signalRecord (s : State) (k : Kernel) : Got State :=
  if k.sigVA = 0 then .ok s
  else
    match s.hubAll k .put [k.sigVA.toNat, k.sigVA.toNat + 8] with
    | .wait t l => .wait t l
    | .err t _ _ => .ok (t.recordLost k)
    | .ok pas =>
      match s.writeRecord k (pas.getD 0 0) (pas.getD 1 0) with
      | none => .ok (s.recordLost k)
      | some t => .ok t

/-- COMPLETION_ACTIONS (R115); the interrupt follows a record that failed, too (notes/assumptions/72). -/
def execCompletionActions (kernel : Nat) (s : State) : Out :=
  match s.kernel? kernel with
  | none => event s
  | some k =>
    if !k.closing then event s
    else if s.storesLeft kernel then event (s.addDue (.completionActions kernel))
    else
      match s.signalRecord k with
      | .wait t l => event ((t.updKernel kernel fun k => { k with pend := l }).addDue (.completionActions kernel))
      | .err t _ _ => event (t.addDue (.completionActions kernel))
      | .ok t =>
        let u := if k.irq then t.interrupt k.aqi (t.aqiOf k.aqi).link else t
        event ((u.trace kernel (s.unstated 0 % 192) 6 k.status.toNat).removeKernel kernel k)

end Sys2Proof.Machine
end

