-- ==== Sys2Proof/Machine/Preempt.lean ====
section
/-! DEFINITION. Pre-emption, saving and restoring gangs (08_group R121, R127-R131, 07_kernel R112, R113, 17 R309); forming
bundles (R136); pipeline errors and the comparison of redundant copies (10_span R168, R171). -/

namespace Sys2Proof.Machine

/-! ### Pre-emption (R112, R113, R121, R127) -/

/-- Save slots that host software gave the context (R131). -/
def State.slotCount (s : State) (c : Nat) : Nat :=
  match s.areaPA c (s.ctxOf c).save.toNat with
  | none => 0
  | some pa => (s.readWord pa 8).1.toNat

/-- Groups of a context that have a save slot, or will have one when their discard is over. -/
def State.slotted (s : State) (c : Nat) : List (Nat × Group) :=
  s.groups.filter fun (e : Nat × Group) =>
    decide (e.2.st ∈ [GroupSt.discarding, .saved, .restoring]) && decide (((s.kernel? e.2.kernel).map Kernel.ctx) = some c)

/-- Whether a gang that waits for a place and finds none is of a higher class than a kernel, or of the same context. -/
def State.makesRoom (s : State) (k : Kernel) (idle : Bool) : Bool :=
  s.candidates.any fun c => !s.candidateFits c && (match s.kernel? c.kernel with
    | none => false
    | some q => decide (k.cls < q.cls) || idle && decide (q.ctx = k.ctx))

/-- Whether the scheduler may pre-empt a gang: to make room for a higher class (R112), or as R113 gives; no group of it has
aborted, and the context has save slots for its groups (R131). -/
def State.mayPreempt (s : State) (n : Nat) (g : Gang) (k : Kernel) : Bool :=
  let live := (s.gangGroups n).filter fun m => ((s.group? m).map fun x => decide (x.st = .resident)).getD false
  decide (g.st = .resident) && (s.gangGroups n).all (fun m => ((s.group? m).map fun x => decide (x.st ≠ .aborted)).getD true) &&
    !live.isEmpty && decide ((s.slotted k.ctx).length + live.length ≤ s.slotCount k.ctx) && s.makesRoom k (s.gangIdle n)

/-- PREEMPTION: the gang is Discarding; its groups leave the engines (R121, R127, R316). -/
def execPreemption (gang : Nat) (s : State) : Out :=
  match s.gang? gang with
  | none => event s
  | some g =>
    match s.kernel? g.kernel with
    | none => event s
    | some k =>
      if !s.mayPreempt gang g k then event s
      else
        let live := (s.gangGroups gang).filter fun m => ((s.group? m).map fun x => decide (x.st = .resident)).getD false
        let t := live.foldl (fun t m =>
          let c := ((t.group? m).map Group.core).getD 0
          (t.updGroup m fun x => { x with st := .discarding }).endLease c m .discard) (s.setGang gang { g with st := .discarding })
        event (t.addDue (.saveComplete gang))

/-- Whether a group still has something to finish before it is saved: an engine operation, an atomic, a commit step, a special
function that no replay issues again (R128), a write-through (notes/assumptions/89). -/
def State.saveBusy (s : State) (n : Nat) (x : Group) : Bool :=
  !(s.groupOps n).isEmpty || x.warps.any (fun w => w.committing || !w.atoms.isEmpty || w.sfus.any fun f => decide (f.commit ≠ w.commits)) ||
    s.wts.any (fun t => decide (t.wid.g = n)) || s.hot.any fun (e : Nat × List AtomReq) => e.2.any fun q => decide (q.wid.g = n)

/-- The live count of a header (R47): registers that a save keeps. -/
def liveCount (allot : Nat) (h : DWord) : Nat := if hdrLive h = 2047 then allot else Nat.min (hdrLive h) allot

/-- L of R128: the largest live count at the restart places; the whole allotment where one lies inside a block, in handler
mode, or where a header cannot be read. -/
def State.keptRegs (s : State) (id : WarpId) (w : Warp) : Nat :=
  let allot := s.allotOf id
  let one := fun (t : Thread) =>
    if t.st = .finished then 0
    else if t.restart.pc ≠ t.restart.hdr then allot
    else
      match s.fetchHeader (s.coreOf id) (s.ctxNo id) t.restart.pc.toNat [] with
      | .ok h _ => liveCount allot h
      | _ => allot
  if w.handler.isSome then allot else w.th.toList.foldl (fun m t => Nat.max m (one t)) 0

/-- Registers that the save leaves out hold unspecified values afterwards (R47; Config.excludedLane). -/
def State.dropRegs (s : State) (id : WarpId) (w : Warp) : Warp :=
  let k := s.keptRegs id w
  if w.retired then w
  else
    (List.range (s.allotOf id - k)).foldl (fun x j =>
      let r := k + j
      x.setV r (mkLanes fun L => let v := Config.excludedLane s.tick ((id.g * 32 + id.w) * 2048 + r) L; ⟨v.1, v.2⟩)) w

/-- The lowest save slot not in use. -/
def State.freeSlot (s : State) (c : Nat) : Nat :=
  let used := (s.slotted c).filterMap fun e => e.2.slot
  ((List.range (used.length + 1)).find? fun i => decide (i ∉ used)).getD 0

/-- Whether a 4 KiB page holds a poisoned word. -/
def State.pagePoison (s : State) (pa : Nat) : Bool :=
  (s.mem.marks.any fun e => decide (e.1 / 1024 = pa / 4096)) || (s.pline.any fun n => decide (n / 32 = pa / 4096)) ||
    s.dir.any fun (e : Nat × DirEntry) => decide (e.1 / 32 = pa / 4096) && s.lostDirty e.1

/-- Whether every page of a context's save slot translates and holds no poison (R86, R121). -/
def State.slotGood (s : State) (c slot : Nat) : Bool :=
  (List.range 1040).all fun j =>
    match s.areaPA c (slotAddr (s.ctxOf c).save.toNat slot + 4096 * j) with
    | none => false
    | some pa => !s.pagePoison pa

/-- Saves one group: its warps are discarded, its slot is written (R127, R128); what the core cached goes (R129). -/
def State.saveGroup (s : State) (c n : Nat) : State :=
  match s.group? n with
  | none => s
  | some x =>
    if x.st ≠ .discarding then s
    else
      let t := (groupWarps n x).foldl (fun t w => t.discard w) s
      let u := (groupWarps n x).foldl (fun u w => u.updWarp w fun y => u.dropRegs w y) t
      let slot := u.freeSlot c
      let v := u.updGroup n fun y => { y with st := .saved, slot := some slot }
      let v := ((v.setCore x.core Core.empty).trace x.kernel x.core 2 (groupValue (((v.gang? x.gang).map Gang.idx).getD 0) x.idx 0)).leaveCore
        x.core x.kernel
      { if u.slotGood c slot then v else v.raiseCtxErr c .areaWrite with tlb := v.tlb.filter fun e => decide (e.core ≠ x.core) }

/-- A Swapped context with a kernel that has a gang to place becomes Runnable at once: its kernel is Ready, and the promise of
R113 is that a child is placed whose parent was saved to make room for it (notes/assumptions/46). -/
def State.rouse (s : State) (c : Nat) : State :=
  let work := s.kernels.any fun (e : Nat × Kernel) => decide (e.2.ctx = c) && (decide (e.2.st = .ready) || decide (e.2.st = .dispatching))
  if decide ((s.ctxOf c).st = .swapped) && work then s.unswap c else s

/-- SAVE_COMPLETE: engine operations have run to completion and every group is written; in a Quiescing context the saved
state is discarded (R84, R121, R127). -/
def execSaveComplete (gang : Nat) (s : State) : Out :=
  match s.gang? gang with
  | none => event s
  | some g =>
    if g.st ≠ .discarding then event s
    else
      let c := ((s.kernel? g.kernel).map Kernel.ctx).getD 0
      let busy := (s.gangGroups gang).any fun n => ((s.group? n).map fun x => decide (x.st = .discarding) && s.saveBusy n x).getD false
      if busy then event (s.addDue (.saveComplete gang))
      else
        let t := (s.gangGroups gang).foldl (fun t n => t.saveGroup c n) (s.setGang gang { g with st := .saved })
        if (t.ctxOf c).st = .quiescing then event ((t.stopOne .quiesced false g.kernel).ctxCheck c false)
        else event ((t.ctxCheck c true).rouse c)

/-! ### Restoring (R121, R130, R309) -/

/-- Whether each saved group fits on its core, the cores being distinct cores of a sector. -/
def State.restoreFits (s : State) (sector : Nat) (l : List (Nat × Nat)) : Bool :=
  decide ((distinct (l.map Prod.snd)).length = l.length) && l.all fun e => decide (sectorOf e.2 = sector) && s.fits e.2 (s.savedNeed e.1)

/-- Binds a saved group to a core: quadrants, and the engine if it held the lease (R119, R130). -/
def State.rebind (s : State) (n core : Nat) : State :=
  match s.group? n with
  | none => s
  | some g =>
    let qs := spread g.warps.length 0 (s.rooms core (s.allotKernel g.kernel))
    let t := s.setGroup n { g with
      st := .restoring, core := core, warps := g.warps.zipIdx.map fun e => { e.1 with quadrant := qs.getD e.2 0, age := 0 } }
    let c := ((s.kernel? g.kernel).map Kernel.ctx).getD 0
    (if g.hadLease then t.grantLease core n else t).freshCore core c

/-- RESTORE: the scheduler readmits a saved gang, the first in order that fits, on cores it chooses, the twins' after the
primaries'; a gang that touched L2W goes back to its sector (R111, R121, R130, R233). -/
def execRestore (gang sector : Nat) (cores : List Nat) (s : State) : Out :=
  match s.gang? gang with
  | none => event s
  | some g =>
    match s.kernel? g.kernel with
    | none => event s
    | some k =>
      let ps := s.savedOf g.groups
      let ts := s.savedOf g.twins
      let a := ps.zip (cores.take ps.length)
      let b := ts.zip (cores.drop ps.length)
      let twins := sectorOf ((cores.drop ps.length).headD 0)
      let ok := decide (s.firstFit = some ⟨g.kernel, g.idx, some gang⟩) &&
        decide (cores.length = ps.length + ts.length) && decide (sector ∈ s.openSectors g.kernel g.idx k) && s.restoreFits sector a &&
        (!g.l2w || decide (sector = g.sector)) &&
        (ts.isEmpty || (decide (twins ≠ sector) && decide (twins ∈ s.openSectors g.kernel g.idx k) && s.restoreFits twins b))
      if !ok then event s
      else
        let t := (a ++ b).foldl (fun t e => t.rebind e.1 e.2) (s.setGang gang { g with st := .restoring, sector := sector })
        let x := t.ctxOf k.ctx
        event ({ t.setCtx k.ctx { x with st := .running } with reserve := t.reserve.filter (· ≠ (g.kernel, g.idx)) }.addDue (.restoreComplete gang))

/-- The warp of a group whose threads wait on a wait. -/
def waiterOf (n : Nat) (g : Group) (id : Nat) : Option WarpId :=
  (groupWarps n g).find? fun w => ((nth? g.warps w.w).map fun x => decide (x.lanesWhere (fun t => decide (t.st = .waiting id)) ≠ 0)).getD false

/-- The ends of waits that came while a group was away are delivered (R309). -/
def State.deliverWakes (s : State) (n : Nat) : List Held → State
  | [] => s
  | .wait id st v p d sc :: r =>
    match (s.group? n).bind fun g => waiterOf n g id with
    | none => s.deliverWakes n r
    | some w => (s.giveWait w id st v p d sc).deliverWakes n r
  | .bar _ _ _ :: r => s.deliverWakes n r

/-- One group is Resident again: its slot is free, its wake record is gone. The group comes back as it was saved, whatever host
software wrote to the slot in use, for which R131 leaves its state unspecified: DESIGN CHOICE (notes/assumptions/35). -/
def State.loadGroup (s : State) (c n : Nat) : State :=
  match s.group? n with
  | none => s
  | some g =>
    if g.st ≠ .restoring then s
    else
      let x := s.ctxOf c
      let t := (s.setCtx c { x with wakes := x.wakes.filter fun i => decide (some i ≠ g.slot) }).setGroup n
        { g with st := .resident, slot := none, wakes := [] }
      (t.deliverWakes n g.wakes).trace g.kernel g.core 3 (groupValue (((t.gang? g.gang).map Gang.idx).getD 0) g.idx 0)

/-- RESTORE_COMPLETE: every group's slot has been read; a slot that fails translation or holds poison is a context error
(R121, R130). -/
def execRestoreComplete (gang : Nat) (s : State) : Out :=
  match s.gang? gang with
  | none => event s
  | some g =>
    if g.st ≠ .restoring then event s
    else
      let c := ((s.kernel? g.kernel).map Kernel.ctx).getD 0
      let bad := (s.gangGroups gang).any fun n =>
        match (s.group? n).bind fun x => if x.st = .restoring then x.slot else none with
        | none => false
        | some i => !s.slotGood c i
      if bad then event (s.raiseCtxErr c .areaWrite)
      else event ((s.gangGroups gang).foldl (fun t n => t.loadGroup c n) (s.setGang gang { g with st := .resident }))

/-! ### Bundles (R136) -/

/-- BUNDLE_FORMATION: a warp with no bundle forms one from its head. -/
def execBundleFormation (w : WarpId) (s : State) : Out :=
  match s.group? w.g, s.warp? w with
  | some g, some x =>
    if g.st ≠ .resident ∨ x.bundle.isSome then event s
    else
      match x.nextHead with
      | none => event s
      | some (m, p) => event (s.formBundle w x m p)
  | _, _ => event s

/-! ### Errors in a core, redundant copies -/

/-- The PC a record names: the bundle's, or the head's. -/
def Warp.here (w : Warp) : DWord :=
  match w.bundle with
  | some b => b.at_.pc
  | none => (w.nextHead.map fun h => h.2.pc).getD 0

/-- PIPELINE_ERROR: in control state the warp is killed (R133); in a value a span consumes, the warp is discarded once, and
a second time before a commit the consuming instruction raises POISON (R168). A commit step in progress ends first. -/
def execPipelineError (w : WarpId) (lanes : LaneMask) (control : Bool) (s : State) : Out :=
  match s.group? w.g, s.warp? w with
  | some g, some x =>
    if g.st ≠ .resident ∨ x.retired then event s
    else if x.committing then event (s.addDue (.pipelineError w lanes control))
    else if control then event (s.abortWith w FaultCode.poison.num x.here.toNat 0 0 lanes false)
    else if !x.pipeErr then event ((s.discard w).updWarp w fun y => { y with pipeErr := true })
    else event ((s.lanternWarp w 4 0 0 [x.here.toNat, lanes.toNat]).updWarp w fun y => { y with pipeFault := y.pipeFault ||| lanes })
  | _, _ => event s

/-- Both copies of a warp are discarded and marked as retried. -/
def State.retryBoth (s : State) (w v : WarpId) : State :=
  let mark := fun (y : Warp) => { y with redErr := true }
  (((s.discard w).discard v).updWarp w mark).updWarp v mark

/-- REDUNDANCY_COMPARE: two copies at the same commit (R171). -/
def execRedundancyCompare (w : WarpId) (s : State) : Out :=
  match s.twinOf w.g with
  | none => event s
  | some g =>
    let v : WarpId := ⟨g, w.w⟩
    match s.warp? w, s.warp? v with
    | some x, some y =>
      (match x.meet, y.meet with
        | .waiting a, .waiting b =>
          if x.commits ≠ y.commits then event s
          else if a = b then
            event ((s.updWarp w fun z => { z with meet := .matched a }).updWarp v fun z => { z with meet := .matched a })
          else if x.redErr && y.redErr then
            let t := s.lanternWarp w 3 0 FaultCode.redundancy.num [x.here.toNat, a.toNat, b.toNat, s.coreOf w, s.coreOf v]
            event ((t.updWarp w fun z => { z with meet := .failed b }).updWarp v fun z => { z with meet := .failed a })
          else event (s.retryBoth w v)
        | _, _ => event s)
    | _, _ => event s

end Sys2Proof.Machine
end

