-- ==== Sys2Proof/Machine/Tier.lean ====
section
/-! DEFINITION. Page requests, tier pages, firewall entries (19_page R344-R348), transaction timers (20 R359), write-throughs
(14 R250) and soft errors (22 R390). -/

namespace Sys2Proof.Machine

/-! ### Page requests (R344) -/

/-- Whether a thread waits for a page request. -/
def ThSt.asks (t : ThSt) (id : Nat) : Bool :=
  match t with
  | .page ps => decide (id ∈ ps)
  | _ => false

/-- A warp is told that a request of its presented bundle was refused: the lanes that wait for it, and a
handler that does (R384). -/
def Warp.refusedPage (x : Warp) (id page : Nat) : Warp :=
  let m := x.lanesWhere fun h => h.st.asks id
  let y := if m = 0 then x else { x with pageFail := addOnce ⟨page, m, false⟩ x.pageFail }
  if id ∈ y.asks then { y with pageFail := addOnce ⟨page, allLanes, true⟩ y.pageFail } else y

/-- Whatever waits for a request is told that it was refused. -/
def State.pageRefused (s : State) (id page : Nat) : State :=
  let t := { s with
    copies := s.copies.map fun (c : Copy) => if id ∈ c.pend then { c with pageFail := addOnce page c.pageFail } else c,
    kernels := s.kernels.map fun (e : Nat × Kernel) => if id ∈ e.2.pend then (e.1, { e.2 with pageFail := addOnce page e.2.pageFail }) else e,
    trees := s.trees.map fun (e : Nat × Tree) => if id ∈ e.2.pend then (e.1, { e.2 with pageFail := addOnce page e.2.pageFail }) else e }
  t.allWarps.foldl (fun u w => u.updWarp w fun x => x.refusedPage id page) t

/-- PAGE_REQUEST_RESPONSE, which names the request and its page: on success what waited walks again, on a refusal it takes XLATE. -/
def execPageRequestResponse (id page : Nat) (ok : Bool) (s : State) : Out :=
  match s.pageReqs.find? fun q => decide (q.id = id) && decide (q.page = page) with
  | none => event s
  | some _ =>
    let t := { s with pageReqs := s.pageReqs.filter fun (q : PageReq) => decide (q.id ≠ id) }
    event ((if ok then t else t.pageRefused id page).wakeParked)

/-! ### Tier pages (R2, R345, R346) -/

/-- Whether an access or an engine operation to a tier page is in flight. -/
def State.tierBusy (s : State) (t : Nat) : Bool :=
  let hit := fun (pa : Nat) => decide (pa / 65536 = t)
  let touches := fun (ctx a n : Nat) => (s.rangePas ctx a n).any hit
  let warps := s.allWarps.filterMap fun w => s.warp? w
  (s.wts.any fun w => decide (w.line / 512 = t)) ||
    (warps.any fun x => x.span.any (fun l => decide (l.sp = .gen) && decide (l.pa / 512 = t)) || x.loads.any fun l =>
      match l.kind with
      | .mem sp _ _ _ => isGen sp && l.items.any fun it => hit it.addr
      | _ => false) ||
    (s.copies.any fun c => ((c.ranges.filter fun e => isGen e.1).map Prod.snd).any fun r => touches c.ctx r.1 r.2) ||
    (s.puts.any fun p => (p.lines.any fun l => decide (l.2.1 / 512 = t)) || ((p.ctr.map fun q => hit q.2).getD false) ||
      isGen p.ssp && touches (s.ctxNo p.wid) p.src p.bytes) ||
    ((s.contribs ++ (s.trees.map fun e => e.2.got).flatten).any fun c =>
      touches c.ctx c.result 128 || touches c.ctx c.status 8 || touches c.ctx c.counter 8)

/-- Tier pages of a CZH9-M: 32 TiB of 64 KiB (R1). -/
def tierPages : Nat := 2 ^ 29

/-- Whether a tier page may be evicted: Resident, of this package, with no monitor entry, hot line or access on it, while the
tier has a page left for it. -/
def State.evictable (s : State) (t : Nat) : Bool :=
  decide (s.form = .m) && decide (s.tier.length < tierPages) && (sget? s.tier t).isNone && decide (s.homeOf (65536 * t) = s.pkg) &&
    !(s.pline.any fun n => decide (n / 512 = t)) && !(s.hot.any fun e => decide (e.1 / 512 = t)) &&
    !(s.waits.any fun e => e.2.entries.any fun n => decide (n.line / 512 = t)) && !s.tierBusy t

/-- Lines of a tier page that other packages hold in E, O or M: the copy-out waits for their data (R345, R354). -/
def State.tierHeld (s : State) (t : Nat) : List Nat :=
  (s.dir.filter fun e => decide (e.1 / 512 = t) && s.recallWaits e.1).map Prod.fst

/-- Every cached copy of a tier page's lines is recalled. -/
def State.recallTier (s : State) (t : Nat) : State :=
  let u := (s.dir.filter fun e => decide (e.1 / 512 = t)).foldl
    (fun u e => if u.recallWaits e.1 then u.askRecall e.1 else u.dropEntry e.1) s
  { u with owned := u.owned.filter (fun e => decide (e.1 / 512 ≠ t)),
           cores := (u.cores.map fun (e : Nat × Core) =>
             (e.1, { e.2 with copies := e.2.copies.filter fun c => decide (c.1 / 2 / 512 ≠ t) })).filter fun e => decide (e.2 ≠ Core.empty) }

/-- EVICTION_SELECT; a CZH9-P refuses it (R2). -/
def execEvictionSelect (tier : Nat) (s : State) : Out :=
  if s.form = .p then event (s.say (.tierAbsent tier))
  else if s.evictable tier then
    let t := s.recallTier tier
    event ({ t with tier := sset t.tier tier .evicting }.addDue (.copyOutComplete tier))
  else event s

/-- COPY_OUT_COMPLETE: an eviction that no access has abandoned ends Cold, once every copy has been recalled. -/
def execCopyOutComplete (tier : Nat) (s : State) : Out :=
  if sget? s.tier tier = some .evicting then
    match s.tierHeld tier with
    | [] => event { s with tier := sset s.tier tier .cold }
    | l => event ((l.foldl State.askRecall s).addDue (.copyOutComplete tier))
  else event s

/-- FILL_COMPLETE: the page holds what it held at eviction, and parked bundles are presented again. -/
def execFillComplete (tier : Nat) (s : State) : Out :=
  if sget? s.tier tier = some .filling then event ({ s with tier := sdel s.tier tier }.wakeParked.retryAsks) else event s

/-- FILL_FLASH_ERROR: every line of the page enters P. -/
def execFillFlashError (tier : Nat) (s : State) : Out :=
  if sget? s.tier tier = some .filling then
    let lines := (List.range 512).map fun j => 512 * tier + j
    let t := { s with tier := sdel s.tier tier, pline := (s.pline.filter fun n => decide (n / 512 ≠ tier)) ++ lines }
    event (((t.lanternHub 8 1 [65536 * tier]).wakeParked).retryAsks)
  else event s

/-- TIER_REQUEST: a tier operation that host software or firmware asks for; a CZH9-P refuses it (R2). -/
def execTierRequest (tier : Nat) (s : State) : Out := if s.form = .p then event (s.say (.tierAbsent tier)) else event s

/-! ### Firewall entries (R347, R348) -/

/-- The cells, the home cell apart, that a new entry takes a grant from (R348). -/
def lostGrants (home : Nat) (old new : DWord) : BitVec 32 :=
  maskOf fun c => decide (c ≠ home) && ((old.getLsbD c && !new.getLsbD c) || (old.getLsbD (32 + c) && !new.getLsbD (32 + c)))

/-- FIREWALL_UPDATE of a 2 MiB page. At its home the new entry holds at once, and the update completes with every copy of a lost
grant recalled, which a Suspect holder keeps waiting (R348, R354); of a page homed elsewhere it tells what its home agent
grants. -/
def execFirewallUpdate (page : Nat) (wmask rmask : Word) (s : State) : Out :=
  let new := wmask ++ rmask
  let t := { s with firewall := sset s.firewall page new }
  if s.homeOf (page * 0x200000) ≠ s.pkg then event t
  else
    let lost := lostGrants s.cell (s.fwEntry (page * 0x200000)) new
    event ({ t with fwOpen := t.fwOpen ++ [(page, lost)] }.closeUpdates.retryAsks)

/-! ### Transaction timers (R359) -/

/-- Whether a transaction with a package can time out. -/
def State.timesOut (s : State) (home : Nat) : Bool := decide (home ≠ s.pkg) && !isHost home && !s.timerHeld home

/-- Whether a virtual line of a copy is homed in a package whose transactions can time out. -/
def State.copyTimesOut (s : State) (c : Copy) (line : Nat) : Bool :=
  match s.translate c.core c.ctx (128 * line) 0 with
  | .ok x => s.timesOut (s.homeOf x.pa) && !s.roundHolds c.id x.pa
  | _ => false

/-- A recall times out: the requests that wait for the line are refused, those of this package's own instructions at the instruction,
its entry stays, and the home agent records it. -/
def State.recallTimesOut (s : State) (line : Nat) : State :=
  let waits := fun (h : PacketHdr) => (s.askedLines h.kind ((s.cellOfPkg h.src).getD s.cell)).2.contains line
  let s0 := { s with recalls := s.recalls.filter (· ≠ line), ownAsks := s.ownAsks.filter (fun e => decide (e.2 ≠ line)),
                     asks := s.asks.filter fun h => !waits h }
  let t := (s.asks.filter waits).foldl (fun t h => t.say (.answer h.src h.seq .txnTimeout)) s0
  let u := t.allWarps.foldl (fun u w => u.updWarp w fun x => if line ∈ x.asked then { x with txnLost := addOnce line x.txnLost } else x) t
  (u.lanternAdd { stamp := Config.cycle s.tick 0, kind := 8, sev := 1, unit := 0x2000 + Config.homeAgent line % 16, ctx := 0xFFFF,
                  aqi := 0xFFFF, cseq := 0, engine := 0xFF, code := 0, payload := [128 * line] }).retryAsks

/-- TXN_TIMEOUT: the request of a presented instruction, a copy, a PUT, a recall or a closing write ends so; a held timer does
not expire (R363). A request of the hub, for which no end is stated, is sent again (notes/assumptions/79). -/
def execTxnTimeout (t : TxnTarget) (s : State) : Out :=
  match t with
  | .warp w line =>
    event (if s.timesOut (s.homeOf (128 * line)) then
        s.updWarp w fun x => if line ∈ x.asked then { x with txnLost := addOnce line x.txnLost } else x
      else s)
  | .copy id line dst =>
    (match s.copies.find? fun c => decide (c.id = id) with
      | none => event s
      | some c => if c.err.isSome || !s.copyTimesOut c line then event s else event (s.failCopy c 10 (128 * line) dst))
  | .put id line =>
    (match s.puts.find? fun p => decide (p.id = id) with
      | none => event s
      | some p =>
        if !s.timesOut p.dest then event s else event (s.tryLand p (.txnTimeout line)))
  | .recall line =>
    (match sget? s.dir line with
      | none => event s
      | some e => event (if line ∉ s.recalls ∨ s.timerHeld ((((sget? s.cells e.owner).map Cell.members).getD []).headD s.pkg) then s
          else s.recallTimesOut line))
  | .fetch w line =>
    event (if s.timesOut (s.homeOf (128 * line)) then s.updWarp w fun x => { x with txnLost := addOnce line x.txnLost } else s)
  | .kernel _ => event s
  | .tree inst =>
    let held := ((sget? s.trees inst).map fun x => x.got.any fun c => [c.result, c.status, c.counter].any fun va =>
      match s.translate c.core c.ctx va 0 with
      | .ok x => s.timerHeld (s.homeOf x.pa)
      | _ => false).getD false
    event (if held then s else { s with trees := supd s.trees inst fun x => { x with lost := true } })

/-! ### Write-throughs (R250, R251) -/

/-- WRITE_THROUGH_ARRIVAL: the write, and the core's earlier writes of the line, reach the coherent level; they wait for the
recall of a line that a Suspect cell holds (R354), and for the host's grant of a line of its own, which acknowledges them
(R417). -/
def execWriteThroughArrival (id : Nat) (s : State) : Out :=
  match s.wts.find? fun w => decide (w.id = id) with
  | none => event s
  | some x =>
    if s.recallWaits x.line then event ((s.askRecall x.line).addDue (.writeThroughArrival id))
    else if s.cxlLine x.line ∧ x.line ∉ s.granted then
      event ((s.obtain x.line).addDue (.writeThroughArrival id))
    else
      event ((s.recallOwned x.core x.line).land fun w =>
        (s.ownWt x.core w || decide (w.wid = x.wid)) && decide (w.line = x.line) && decide (w.id ≤ id))

/-! ### Soft errors (R390) -/

def Mem.poison (m : Mem) (words : List Nat) : Mem := words.foldl (fun x w => x.setMark w (some .plain)) m

/-- A KIND 7 record: the first affected address, and the syndrome. -/
def State.softRecord (s : State) (unit : Nat) (addr : Nat) (syndrome : Word) : State :=
  s.lanternAdd { stamp := Config.cycle s.tick 0, kind := 7, sev := 1, unit := unit, ctx := 0xFFFF, aqi := 0xFFFF, cseq := 0,
                 engine := 0xFF, code := 0, payload := [addr, syndrome.toNat] }

/-- The space of a buffer by number: scratchpad, WB, AB, CB. -/
def bufferSpace (n : Nat) : Space :=
  match n with
  | 0 => .scr
  | 1 => .wb
  | 2 => .ab
  | _ => .cb

/-- SOFT_ERROR: corrected and counted; a clean copy dropped; the only copy poison-marked and recorded. A directory entry that is
lost takes its whole line with it (notes/assumptions/93). -/
def execSoftError (e : SoftErr) (s : State) : Out :=
  match e with
  | .corrected u => event { s with softErrors := sset s.softErrors u (sgetD s.softErrors u 0 + 1) }
  | .cleanCopy core line => event (s.dropLine core line)
  | .onlyCopy words syn =>
    if words.isEmpty then event s
    else event ({ s with mem := s.mem.poison words }.softRecord (s.unstated 0 % 65536) (4 * words.headD 0) syn)
  | .buffer g sp words syn =>
    if words.isEmpty || (s.group? g).isNone then event s
    else
      let core := ((s.group? g).map Group.core).getD 0
      event ((s.updGroup g fun x => x.setBuf (bufferSpace sp) ((x.buf (bufferSpace sp)).poison words)).softRecord core
        (4 * words.headD 0) syn)
  | .scratch ctx sector words syn =>
    let k := l2wKey ctx sector
    if words.isEmpty || (sget? s.l2w k).isNone then event s
    else
      let x := s.l2wOf k
      event ((s.setL2w k { x with mem := x.mem.poison words }).softRecord (0x1000 + s.unstated 0 % 4096) (4 * words.headD 0) syn)
  | .directory line syn =>
    if (sget? s.dir line).isNone then event s
    else
      event (({ s with mem := s.mem.poison ((List.range 32).map fun j => 32 * line + j) }.dirDel line).softRecord
        (0x2000 + Config.homeAgent line % 16) (128 * line) syn)

end Sys2Proof.Machine
end

