-- ==== Sys2Proof/Machine/Firm.lean ====
section
/-! DEFINITION. The package as firmware and host see it (24_package R403-R410): registers, telemetry, connectors,
attestation, reset and power; the host's snoops and its accesses over CXL (17 R312). -/

namespace Sys2Proof.Machine

/-! ### Registers (R5, R231, R248, R377, R390, R393, R404-R406) -/

/-- The cap in force on a die: the lesser of its allocation and the boiling-limit entry (R404). -/
def State.capOf (s : State) (die : Nat) : Nat := Nat.min (vget s.caps die 780) (vget s.boiling die 780)

/-- A change of a cap in force is recorded: die and value (R405). -/
def State.recordCap (s : State) (t : State) (die : Nat) : State :=
  if t.capOf die = s.capOf die then t else t.lanternHub 10 0 [die, t.capOf die]

/-- Whether posted masks keep R231: disjoint, and no scratch way of another context in the sector. -/
def State.waysOk (s : State) (ctx sector : Nat) (cache scratch : BitVec 16) : Bool :=
  decide (cache &&& scratch = 0) && decide (ctx < 256) && decide (sector < 12) && s.l2w.all fun (e : Nat × L2w) =>
    decide (e.1 = l2wKey ctx sector) || decide (e.1 % 16 ≠ sector) ||
      decide (e.2.scratch &&& scratch = 0) && ((e.2.posted.map fun m => decide (m.2 &&& scratch = 0)).getD true)

/-- Whether a range can be homed somewhere: in the physical space, 1 TiB of a package at most (R16). -/
def homeRangeOk (base size home : Nat) : Bool :=
  decide (home ≤ 82) && decide (base + size ≤ 2 ^ 52) && (isHost home || decide (size ≤ 2 ^ 40))

/-- The trip limits of a regulator: firmware's, or the regulator's own (R405). -/
def State.tripOf (s : State) (reg : Nat) : Nat × Nat := (sget? s.trips reg).getD (Config.tripLimit reg)

/-- A regulator whose last report is beyond its trip limit stops the package's clocks at once; recorded with the die it serves and
the reading (R394, R405). -/
def State.judgeTrip (s : State) (reg : Nat) : State :=
  match sget? s.lastReport reg with
  | none => s
  | some (_, current, temp) =>
    let l := s.tripOf reg
    if l.1 < current ∨ l.2 < temp then
      { s with stopped := .trip }.lanternHub 10 2 [Config.regulatorDie reg, if l.1 < current then current else temp]
    else s

/-- The thresholds of a connector's readings, and whether one of them is past its fault threshold (R406). -/
def State.thresholdsOf (s : State) (c : Connector) : SMap (Nat × Nat) := (sget? s.thresholds c.key).getD []
def State.pastFault (s : State) (c : Connector) : Bool :=
  (sgetD s.readings c.key []).zipIdx.any fun e => ((sget? (s.thresholdsOf c) e.2).map fun t => decide (t.2 < e.1)).getD false

/-- A register's value with its reserved bits zero (R5). -/
def maskedReg (addr : Nat) (v : DWord) : DWord := v &&& Config.regMask addr

/-- REGISTER_WRITE. -/
def execRegisterWrite (w : RegWrite) (s : State) : Out :=
  match w with
  | .wayMask ctx sector cache scratch =>
    if s.waysOk ctx sector cache scratch then
      event (s.setL2w (l2wKey ctx sector) { s.l2wOf (l2wKey ctx sector) with posted := some (cache, scratch) })
    else event (s.say (.refused ctx))
  | .allot ctx sectors =>
    if ctx < 256 ∧ sectors.all fun x => decide (x < 12) then
      event ((s.setCtx ctx { s.ctxOf ctx with allot := distinct sectors }).judgeFit ctx)
    else event (s.say (.refused ctx))
  | .cap die watts =>
    if die < 4 ∧ watts ≤ 780 then event (s.recordCap { s with caps := vset s.caps die watts } die) else event (s.say (.refused die))
  | .boiling die watts =>
    if die < 4 then event (s.recordCap { s with boiling := vset s.boiling die watts } die) else event (s.say (.refused die))
  | .trip reg current temp =>
    let l := s.tripOf reg
    if current ≤ l.1 ∧ temp ≤ l.2 then event ({ s with trips := sset s.trips reg (current, temp) }.judgeTrip reg)
    else event (s.say (.refused reg))
  | .threshold conn reading warn fault =>
    if warn < fault then
      event { s with thresholds := sset s.thresholds conn.key (sset (s.thresholdsOf conn) reading (warn, fault)) }
    else event (s.say (.refused conn.key))
  | .portDown port =>
    if port < 16 ∧ s.pastFault (.optical port) then event (s.linkTo port (s.port port) .down) else event (s.say (.refused port))
  | .unsampledRead core => event (if core < 192 then s.say (.unsampled core (sgetD s.unsampled core 0)) else s)
  | .clearFrozen => event { s with lantern := { s.lantern with frozen := none } }
  | .grant ctx => if ctx < 256 then event { s with grants := addOnce ctx s.grants } else event (s.say (.refused ctx))
  | .home base size home =>
    let t : State := { s with homes := ⟨base, size, home⟩ :: s.homes }
    if homeRangeOk base size home && (!s.numbered || t.homesFit) then event t else event (s.say (.refused home))
  | .scrub rate => event { s with scrub := rate }
  | .peerReset pkg =>
    event { s with cells := s.cells.map fun (e : Nat × Cell) =>
      if pkg ∈ e.2.members ∧ (e.2.st = .recovering ∨ e.2.st = .fenced) then (e.1, { e.2 with reset := addOnce pkg e.2.reset }) else e }
  | .topology slot gen =>
    if s.active.isNone && s.validSlot slot then event (s.activate slot gen) else event (s.say (.refused slot))
  | .withdraws pkg => event (s.withdrawJoin pkg)
  | .lanternRead slot => event (if slot < 1024 then s.say (.lantern slot (s.lantern.slot slot)) else s)
  | .other addr value => event { s with regs := sset s.regs addr (maskedReg addr value) }

/-! ### Telemetry (R403-R406) -/

/-- The cap loop at a report (R404): a die above its cap is withheld until its power is below it. -/
def State.capLoop (s : State) (die : Fin 4) : Bool :=
  decide (s.capOf die.val < s.power[die]) || s.throttled[die] && decide (s.capOf die.val ≤ s.power[die])

/-- TELEMETRY_REPORT: the readings are kept, each die's power is computed from them; a report beyond a trip limit stops the package,
and each die's cap loop judges its power (R403-R405). -/
def execTelemetryReport (regs : List RegulatorReport) (trim : List Nat) (s : State) : Out :=
  let last := regs.foldl (fun m (r : RegulatorReport) => sset m r.reg (r.voltage, r.current, r.temp)) s.lastReport
  let t := { s with lastReport := last, power := Vector.ofFn fun (i : Fin 4) => Config.diePower i.val last trim }
  let u := { t with throttled := Vector.ofFn t.capLoop }
  event (regs.foldl (fun (x : State) r => if x.stopped = .trip then x else x.judgeTrip r.reg) u)

/-- CONNECTOR_REPORT (CZH9-M): each reading above its warning threshold is reported to host software (R406). -/
def execConnectorReport (conn : Connector) (readings : List Nat) (s : State) : Out :=
  if s.form = .p then event s
  else
    let l := s.thresholdsOf conn
    event (readings.zipIdx.foldl (fun u e =>
      match sget? l e.2 with
      | some (warn, _) => if warn < e.1 then u.say (.connector conn e.2 e.1) else u
      | none => u) { s with readings := sset s.readings conn.key readings })

/-! ### Attestation (R408, R409) -/

/-- The measurement log: the image's digest and security version, the blob's digest, the nonce. -/
def State.measurementLog (s : State) (nonce : BitVec 256) : List Byte :=
  s.imageDigest ++ leBytes s.imageVersion.toNat 4 ++ s.blobDigest ++ leBytes nonce.toNat 32

/-- SPDM_MEASUREMENT_REQUEST: the log, signed with the identity key; without one the package refuses. -/
def execSpdmMeasurementRequest (link : Nat) (nonce : BitVec 256) (s : State) : Out :=
  match s.identity with
  | some key =>
    let l := s.measurementLog nonce
    event (if link < 2 then s.say (.spdm link l nonce (Config.ed448Sign key l)) else s.say (.refused link))
  | none => event (s.say (.refused link))

/-! ### Reset and power (R393, R405, R407, R408, R410) -/

/-- What a reset leaves: the Lantern, the package's form and numbers, the limits that firmware cannot raise, and the model's
own counters; memory and every other register as after power-on (notes/assumptions/47). The packages of the space keep their
numbers, and every other cell is Forming (R12, R364). -/
def State.cleared (s : State) : State :=
  { State.reset with
    tick := s.tick, serial := s.serial, agenda := s.agenda, turn := s.turn, msgs := s.msgs, pkg := s.pkg, cell := s.cell, numbered := s.numbered,
    form := s.form, lantern := s.lantern, trips := s.trips, minVersion := s.minVersion,
    cells := s.cells.map fun (e : Nat × Cell) => (e.1, { e.2 with st := if e.1 = s.cell then CellSt.member else .forming, reset := [] }) }

/-- The check of R407: the signature over the SHAKE256 digest, under the key of the boot ROM. -/
def signedWell (data sig : List Byte) : Bool := Config.ed448Verify Config.publicKey (digest data) sig

/-- Whether the checks of R407 pass: image, blob, and the blob's minimum version. -/
def imageGood (b : BringUp) : Bool :=
  signedWell b.image b.imageSig && signedWell b.blob b.blobSig && (b.minVersion.map fun v => v.ule b.imageVersion).getD true

/-- Nothing loaded, no identity key: bring-up stands in a step (R407, R410). -/
def State.heldAt (s : State) (step : Nat) (why : Stopped) : State :=
  { s with bringUp := step, stopped := why, identity := none, imageDigest := [], blobDigest := [] }

/-- PACKAGE_RESET: bring-up from step 1 (R410): power, the checks, the PUF response, the scrub, the host links; firmware then forms
the space (steps 6 and 7). A tripped package stays in reset until it has been power-cycled. -/
def execPackageReset (b : BringUp) (s : State) : Out :=
  if s.stopped = .trip then event s
  else
    let t := { s.cleared with lantern := { s.lantern with resets := s.lantern.resets + 1 } }
    let u := t.lanternHub 9 0 [b.cause]
    if !b.power then event (u.heldAt 0 .noPower)
    else if !imageGood b then event (u.heldAt 2 .imageFail)
    else event { u with imageVersion := b.imageVersion, minVersion := b.minVersion.getD u.minVersion,
                        imageDigest := digest b.image, blobDigest := digest b.blob,
                        identity := (Config.pufResponse b.sram b.helper).map identityKey, scrub := b.scrub }

/-- POWER_LOSS: the package stops; the Lantern is lost only with standby power, and firmware may number the package anew (R12). -/
def execPowerLoss (standby : Bool) (s : State) : Out :=
  let t := { s.cleared.heldAt 0 .noPower with numbered := false }
  event (if standby then { t with lantern := { Lantern.empty with resets := 0 } } else t)

/-! ### The host over CXL (R312) -/

/-- The ownership of a line of the host ends (R312, R417). -/
def State.yieldLine (s : State) (n : Nat) : State :=
  { s with owned := sdel s.owned n, granted := s.granted.filter (· ≠ n) }

/-- A line of the host is no longer held at all (R312). -/
def State.loseLine (s : State) (n : Nat) : State := { s.yieldLine n with hostShared := s.hostShared.filter (· ≠ n) }

/-- HOST_SNOOP of a line of host memory that the package holds: an invalidation, with what the host then writes, makes its
monitor entries evaluate; a downgrade leaves a shared copy of a line that was owned (R418). -/
def execHostSnoop (sn : Snoop) (s : State) : Out :=
  match sn with
  | .invalidate pa data =>
    if !isHost (s.homeOf pa) then event s
    else
      let t := s.loseLine (lineOf pa)
      event ((if data.isEmpty then t.noteWrite (lineOf pa) else t.cohWrite pa (data.take (128 - pa % 128)) false).loseLine (lineOf pa))
  | .downgrade pa =>
    if !isHost (s.homeOf pa) then event s
    else if lineOf pa ∈ s.granted then event ((s.yieldLine (lineOf pa)).shareHost (lineOf pa))
    else event (s.yieldLine (lineOf pa))

/-- Lines of a range. -/
def rangeLines (pa n : Nat) : List Nat := (List.range ((pa % 128 + n + 127) / 128)).map fun j => pa / 128 + j

/-- Lines recalled for the host; an eviction of their tier pages is abandoned (R345). -/
def State.recallRange (s : State) (lines : List Nat) : State := lines.foldl (fun t n => (t.recallAll n).touchTier (128 * n)) s

/-- A host access to lines of this package: a Cold page is filled first, and a line that another package holds is recalled, for
which the access waits at the host (R345, R354, notes/assumptions/33). -/
def State.hostAccess (s : State) (lines : List Nat) (f : State → State) : Out :=
  if lines.any fun n => decide (s.homeOf (128 * n) ≠ s.pkg) then event s
  else
    match lines.filter s.recallWaits, lines.filter fun n => s.isCold (128 * n) with
    | [], [] => event (f (s.recallRange lines))
    | [], l => event (s.startFills (distinct (l.map fun n => n / 512)))
    | r, _ => event (r.foldl State.askRecall s)

/-- CXL_MEM_REQUEST: the host reads or writes package memory. -/
def execCxlMemRequest (a : CxlAccess) (s : State) : Out :=
  match a with
  | .read pa n => s.hostAccess (rangeLines pa n) fun t => t.say (.cxlRead (t.mem.bytesAt pa n))
  | .write pa data => s.hostAccess (rangeLines pa data.length) fun t => t.cohWriteLong pa data (data.length / 128 + 2)

end Sys2Proof.Machine
end

