-- ==== Sys2Proof/Machine/Float.lean ====
section
/-! DEFINITION. Floating-point and conversion instructions (12_float). -/

namespace Sys2Proof.Machine

/-! ### Lane functions with flags -/

/-- A lane function with flags on each element of a packed type (R203). -/
def fElems (ty : Ty) (g : FFmt → Nat → Nat → Nat → Nat × Flags) (a b c : DWord) : DWord × Flags :=
  let w := tyWidth ty
  let rs := (List.range (tyCount ty)).map fun i => g (fmtOf ty) (elemN w a i) (elemN w b i) (elemN w c i)
  (BitVec.ofNat 64 (packElems w (rs.map Prod.fst)), (rs.map Prod.snd).foldl (· ||| ·) 0)

/-- Writes lane results and ORs the flags of unpoisoned active lanes into FSTAT (R37, R203). -/
def Vx.writeF (x : Vx) (fn : Nat → DWord × Bool × Flags) : Warp :=
  let res := mkLanes fn
  let at_ := fun L => res.toList.getD L (0, false, 0)
  (x.write fun L => ((at_ L).1, (at_ L).2.1)).orFstat (laneFlags x.act (fun L => (at_ L).2.1) fun L => (at_ L).2.2)

/-- A float instruction on three sources (R203, R205). -/
def falu (s : State) (f : FmtV) (q : VSpec) (fn : Rnd → DWord → DWord → DWord → DWord × Flags) : Out :=
  vecFrame s f q false fun _ _ x => .ok (x.writeF fun L =>
    let (a, b, c, p) := x.srcs L
    let r := fn x.rm a b c
    (r.1, p, r.2))

/-- A float instruction that works element by element. -/
def faluE (s : State) (f : FmtV) (q : VSpec) (g : Rnd → FFmt → Nat → Nat → Nat → Nat × Flags) : Out :=
  falu s f q fun mode => fElems f.ty (g mode)

/-! ### 0x30, 0x31 (R205-R207) -/

def spec30 (rms : List Rnd) : VSpec := specF rms tFloat op1 .none
def spec30u : VSpec := specF noRm tFloat .none .none
def spec31 : VSpec := specF allRm tFloat op1 (.v 1 false)

def execFadd (f : FmtV) (s : State) : Out := faluE s f (spec30 allRm) fun m t a b _ => fAdd t m a b
def execFsub (f : FmtV) (s : State) : Out := faluE s f (spec30 allRm) fun m t a b _ => fSub t m a b
def execFmul (f : FmtV) (s : State) : Out := faluE s f (spec30 allRm) fun m t a b _ => fMul t m a b
def execFmin (f : FmtV) (s : State) : Out := faluE s f (spec30 noRm) fun _ t a b _ => fMinMax t false false a b
def execFmax (f : FmtV) (s : State) : Out := faluE s f (spec30 noRm) fun _ t a b _ => fMinMax t true false a b
def execFminm (f : FmtV) (s : State) : Out := faluE s f (spec30 noRm) fun _ t a b _ => fMinMax t false true a b
def execFmaxm (f : FmtV) (s : State) : Out := faluE s f (spec30 noRm) fun _ t a b _ => fMinMax t true true a b
def execFabs (f : FmtV) (s : State) : Out := faluE s f spec30u fun _ t a _ _ => (fSetSign t a false, 0)
def execFneg (f : FmtV) (s : State) : Out :=
  faluE s f spec30u fun _ t a _ _ => (fSetSign t a !(Nat.testBit a (t.width - 1)), 0)
def execFcopysign (f : FmtV) (s : State) : Out :=
  faluE s f (spec30 noRm) fun _ t a b _ => (fSetSign t a (Nat.testBit b (t.width - 1)), 0)
def execFfma (f : FmtV) (s : State) : Out := faluE s f spec31 fun m t a b c => fFma t m false false a b c
def execFfms (f : FmtV) (s : State) : Out := faluE s f spec31 fun m t a b c => fFma t m false true a b c
def execFnma (f : FmtV) (s : State) : Out := faluE s f spec31 fun m t a b c => fFma t m true false a b c

/-! ### 0x32 (R208, R209) -/

def specFcmp : VSpec := { specF noRm [.f32] op1 .none with d := .k }
def specF32u (rms : List Rnd) : VSpec := specF rms [.f32] .none .none

def execFcmp (cc : FCmp) (f : FmtV) (s : State) : Out :=
  vecFrame s f specFcmp false fun _ _ x =>
    let r := fun L => let (a, b, _, p) := x.srcs L; (fcmpEval cc (elemN 32 a 0) (elemN 32 b 0), p)
    .ok ((x.writeK fun L => ((r L).1.1, (r L).2)).orFstat (laneFlags x.act (fun L => (r L).2) fun L => (r L).1.2))

def execFclass (f : FmtV) (s : State) : Out :=
  falu s f (specF32u noRm) fun _ a _ _ => (BitVec.ofNat 64 (fClass (elemN 32 a 0)), 0)

/-! ### 0x33: special functions (R210, R211) -/

/-- Issue of a special function: D becomes empty; results and flags wait for the write-back (R210). -/
def sfu (s : State) (f : FmtV) (q : VSpec) (fn : Rnd → Nat → Nat × Flags) : Out :=
  issue s (unitSize f.pfx) false fun s i =>
    match s.warp? i.wid with
    | none => .ok s
    | some w =>
      match vecPrep s i w false false q f with
      | .error e => .error e
      | .ok x =>
        match x.d with
        | .v r _ =>
          let res := mkLanes fun L => let a := x.a.read x.w L; (fn x.rm (elemN 32 a.1 0), a.2)
          let at_ := fun L => res.toList.getD L ((0, 0), false)
          let val := mkLanes fun L =>
            if inMask x.act L then (⟨BitVec.ofNat 32 (at_ L).1.1, (at_ L).2⟩ : Lane) else Lane.zero
          let mask := if x.z then x.lanes else x.act
          let rec_ : Sfu := ⟨r, mask, val, laneFlags x.act (fun L => (at_ L).2) (fun L => (at_ L).1.2), x.w.commits⟩
          .ok ((s.setWarp i.wid { x.w.emptyV r with sfus := x.w.sfus ++ [rec_] }).addDue (.specialFunctionWriteback i.wid r))
        | _ => .ok s

def execFrcp (f : FmtV) (s : State) : Out := sfu s f (specF32u allRm) frcpEval
def execFrsq (f : FmtV) (s : State) : Out := sfu s f (specF32u noRm) fun _ => frsqEval
def execFsqrt (f : FmtV) (s : State) : Out := sfu s f (specF32u allRm) fsqrtEval
def execFexp2 (f : FmtV) (s : State) : Out := sfu s f (specF32u noRm) fun _ => fexp2Eval
def execFlog2 (f : FmtV) (s : State) : Out := sfu s f (specF32u noRm) fun _ => flog2Eval
def execFsin (f : FmtV) (s : State) : Out := sfu s f (specF32u noRm) fun _ => ftrigEval false
def execFcos (f : FmtV) (s : State) : Out := sfu s f (specF32u noRm) fun _ => ftrigEval true
def execFtanh (f : FmtV) (s : State) : Out := sfu s f (specF32u noRm) fun _ => ftanhEval

/-- The write-back: lanes written, D full, flags into FSTAT (R210). -/
def execSpecialFunctionWriteback (w : WarpId) (reg : Nat) (s : State) : Out :=
  event (s.updWarp w fun x =>
    match x.sfus.find? fun e => decide (e.reg = reg) with
    | none => x
    | some e =>
      let old := x.vreg reg
      let new : Lanes Lane := Vector.ofFn fun L => if inMask e.mask L.val then e.val[L] else old[L]
      (({ x with sfus := x.sfus.filter fun u => decide (u.reg ≠ reg) }.setV reg new).fillV reg).orFstat e.flags)

/-! ### 0x34 (R212) -/

def specFdot2 : VSpec := specF allRm [.bf16x2] op1 (.v 1 false)

def execFdot2 (f : FmtV) (s : State) : Out :=
  falu s f specFdot2 fun mode a b c =>
    let r := fDot2 mode (bf16.val (elemN 16 a 0)) (bf16.val (elemN 16 b 0)) (bf16.val (elemN 16 a 1))
      (bf16.val (elemN 16 b 1)) (fp32.val (elemN 32 c 0))
    (BitVec.ofNat 64 r.1, r.2)

/-! ### Conversions (R213-R217) -/

/-- Element j of the source run of a lane, with its unit's poison (R213). -/
def Vx.convSrc (x : Vx) (src : Ty) (L j : Nat) : Nat × Bool :=
  let ns := convElems src
  let u := x.a.unit x.w (tyPair src) (j / ns) L
  (elemN (tyWidth src) u.1 (j % ns), u.2)

/-- Writes the units of a destination run: unit t of lane L (R213). -/
def Vx.writeUnits (x : Vx) (pair : Bool) (f : Nat → Nat → DWord × Bool) : Nat → Warp
  | 0 => x.w
  | t + 1 =>
    let w := x.writeUnits pair f t
    match x.d with
    | .v r _ =>
      let res := mkLanes (f t)
      if pair then (w.setV (r + 2 * t) (x.reg (r + 2 * t) res loWord)).setV (r + 2 * t + 1) (x.reg (r + 2 * t + 1) res hiWord)
      else w.setV (r + t) (x.reg (r + t) res loWord)
    | _ => w

/-- Elements converted by one instruction: N of R213. -/
def convN (src dst : Ty) : Nat := Nat.max (convElems src) (convElems dst)

/-- ConvBody of R213: results, poison and flags. -/
def Vx.conv (x : Vx) (src dst : Ty) (g : Nat → Nat → Nat → Nat × Flags) : Warp :=
  let n := convN src dst
  let nd := convElems dst
  let res := fun L => (List.range n).map fun j => let e := x.convSrc src L j; (g L j e.1, e.2)
  let all := mkLanes res
  let at_ := fun L => all.toList.getD L []
  let unit := fun (t L : Nat) =>
    let es := ((at_ L).drop (t * nd)).take nd
    (BitVec.ofNat 64 (packElems (tyWidth dst) (es.map fun e => e.1.1)), es.any fun e => e.2)
  let fl := fun L => (at_ L).foldl (fun acc e => if e.2 then acc else acc ||| e.1.2) (0 : Flags)
  (x.writeUnits (tyPair dst) unit (n / nd)).orFstat (laneFlags x.act (fun _ => false) fl)

def convFrame (s : State) (f : FmtV) (q : VSpec) (run : State → Iss → Vx → Except Stop Warp) : Out :=
  vecFrame s f q false run

def specCvtfi (src ty : Ty) : VSpec := { specConv src ty with tys := tWide }
def specCvtif (src ty : Ty) : VSpec := { specConv src ty with tys := tFloat }

def execCvtfi (src : Ty) (f : FmtV) (s : State) : Out :=
  convFrame s f (specCvtfi src f.ty) fun _ _ x => .ok (x.conv src f.ty fun _ _ v =>
    let r := fToInt x.rm (tySgn f.ty) (tyWidth f.ty) ((fmtOf src).val v)
    (wrapTo (tyWidth f.ty) r.1, r.2))

def execCvtif (src : Ty) (f : FmtV) (s : State) : Out :=
  convFrame s f (specCvtif src f.ty) fun _ _ x => .ok (x.conv src f.ty fun _ _ v =>
    intToF (fmtOf f.ty) x.rm (if tySgn src then toSigned (tyWidth src) v else v))

/-- The stochastic bits of an element under a rounding control word (R34, R217). -/
def srOf (w : Warp) (cw : DWord) (L j : Nat) : Nat :=
  srBits w.srseed (cw.toNat % 2 ^ 16) (cw.toNat / 2 ^ 16 % 2 ^ 24) (8 * L + j)

/-- An element as an FP32 encoding: exact for every format of CVTFF and PACKF4 (R38). -/
def toFp32 (f : FFmt) (v : Nat) : Nat := (roundFV fp32 .rne false 0 (f.val v)).1

/-- One element of CVTFF (R216). -/
def cvtElem (src dst : FFmt) (mode : Rnd) (sat : Bool) (rnd : Nat) (v : Nat) : Nat × Flags :=
  let x := src.val v
  let r := roundFV dst mode sat rnd x
  (r.1, r.2 ||| sigFlag x)

def execCvtff (src : Ty) (sat amax : Bool) (f : FmtV) (s : State) : Out :=
  convFrame s f (specCvtff src amax f) fun s _ x =>
    let cw := x.b.read x.w 0
    if cw.2 && decide (x.act ≠ 0) then stopFault s .poison x.act 0 0
    else
      let w := x.conv src f.ty fun L j v => cvtElem (fmtOf src) (fmtOf f.ty) x.rm sat (srOf x.w cw.1 L j) v
      if amax then
        let ins := ((lanesOf x.act).map fun L => (List.range (convN src f.ty)).map fun j => x.convSrc src L j).flatten
        .ok (w.updAmax (f.sc.toNat % 4) ((ins.filter fun e => !e.2).map fun e => toFp32 (fmtOf src) e.1))
      else .ok w

/-! ### FRND, SCALEB (R218, R219) -/

def execFrnd (f : FmtV) (s : State) : Out :=
  falu s f (specF32u allRm) fun mode a _ _ => let r := fRnd mode (elemN 32 a 0); (BitVec.ofNat 64 r.1, r.2)

def execScaleb (f : FmtV) (s : State) : Out :=
  faluE s f (spec30 allRm) fun mode t a b _ => fScale t mode a (toSigned t.width b)

/-! ### PACKF4, UNPACKF4 (R220, R221) -/

def specPackf4 : VSpec := { specF srRm [.f4x8] .gk (.v 1 false) with d := .v 2 true, a := .vg 8 false }
def specUnpackf4 : VSpec := { specF noRm [.f4x8] op1 (.v 1 false) with d := .v 8 false }

/-- The eight elements of a lane with their poison. -/
def Vx.eight (x : Vx) (L : Nat) : List (Nat × Bool) :=
  (List.range 8).map fun j => let u := x.a.unit x.w false j L; (elemN 32 u.1 0, u.2)

def execPackf4 (f : FmtV) (s : State) : Out :=
  vecFrame s f specPackf4 false fun s _ x =>
    let cw := x.b.read x.w 0
    if cw.2 && decide (x.act ≠ 0) then stopFault s .poison x.act 0 0
    else
      let psn := fun L => (x.eight L).any Prod.snd || (x.c.read x.w L).2
      let w := x.writeF fun L =>
        let (e, sc, fl) := packF4 x.rm ((x.eight L).map Prod.fst) (elemN 16 (x.c.read x.w L).1 0) (srOf x.w cw.1 L)
        (BitVec.ofNat 64 (e + sc * 2 ^ 32), psn L, fl)
      let ins := ((lanesOf x.act).filter fun L => !psn L).map fun L => (x.eight L).map Prod.fst
      .ok (w.updAmax (cw.1.toNat / 2 ^ 40 % 4) ins.flatten)

/-- The eight results of UNPACKF4: FP32 encodings with poison and flags (R29, R221). -/
def Vx.unpack (x : Vx) (L j : Nat) : DWord × Bool × Flags :=
  let (a, b, c, p) := x.srcs L
  match f4Value (elemN 4 a j) (elemN 8 b 0) (elemN 16 c 0) with
  | none => (0, true, 0)
  | some v => let r := roundFV fp32 .rne false 0 v; (BitVec.ofNat 64 r.1, p, if p then 0 else r.2)

def execUnpackf4 (f : FmtV) (s : State) : Out :=
  vecFrame s f specUnpackf4 false fun _ _ x =>
    let fl := fun L => (List.range 8).foldl (fun acc j => acc ||| (x.unpack L j).2.2) (0 : Flags)
    .ok ((x.writeUnits false (fun t L => ((x.unpack L t).1, (x.unpack L t).2.1)) 8).orFstat
      (laneFlags x.act (fun _ => false) fl))

end Sys2Proof.Machine
end

