-- ==== Sys2Proof/Machine/Integer.lean ====
section
/-! DEFINITION. Integer, logic, mask and cross-lane instructions (11_integer). -/

namespace Sys2Proof.Machine

/-! ### Element and bit functions -/

def iMin (a b : Int) : Int := if a ≤ b then a else b
def iMax (a b : Int) : Int := if a ≤ b then b else a

/-- IDIV and IREM (R182); the most negative value by -1 wraps to itself in the reduction. -/
def divElem (ty : Ty) (a b : Int) : Int := if b = 0 then (if tySgn ty then -1 else (2 ^ tyWidth ty : Nat) - 1) else a.tdiv b
def remElem (a b : Int) : Int := if b = 0 then a else a.tmod b

def cmpEval (cc : Cmp) (a b : Int) : Bool :=
  match cc with
  | .eq => decide (a = b)
  | .ne => decide (a ≠ b)
  | .lt => decide (a < b)
  | .le => decide (a ≤ b)
  | .gt => decide (b < a)
  | .ge => decide (b ≤ a)

/-- The amount for element i of a shift (R186): the count sub-element of packed types, bits 7:0. -/
def shiftAmt (ty : Ty) (b : DWord) (i : Nat) : Nat :=
  if tyWidth ty < 32 then elemN (tyWidth ty) b i % 256 else b.toNat % 256

inductive ShiftFn where
  | shl | shr | sar | rol | ror
deriving DecidableEq, Repr

/-- One element of width w shifted by n (R186). -/
def shiftElem (fn : ShiftFn) (w x n : Nat) : Nat :=
  match fn with
  | .shl => if w ≤ n then 0 else x * 2 ^ n % 2 ^ w
  | .shr => if w ≤ n then 0 else x / 2 ^ n
  | .sar => wrapTo w (toSigned w x / (2 ^ Nat.min n w : Nat))
  | .rol => x * 2 ^ (n % w) % 2 ^ w + x / 2 ^ (w - n % w)
  | .ror => x / 2 ^ (n % w) + x * 2 ^ (w - n % w) % 2 ^ w

/-- A shift of every element, the amounts given by `amt`. -/
def shiftAll (fn : ShiftFn) (ty : Ty) (amt : Nat → Nat) (a : DWord) : DWord :=
  let w := tyWidth ty
  BitVec.ofNat 64 (packElems w ((List.range (tyCount ty)).map fun i => shiftElem fn w (elemN w a i) (amt i)))

def shiftFn (fn : ShiftFn) (ty : Ty) (a b _c : DWord) : DWord := shiftAll fn ty (shiftAmt ty b) a

/-- The funnel word a × 2^32 + b (R187). -/
def funnel (a b : DWord) : Nat := elemN 32 a 0 * 2 ^ 32 + elemN 32 b 0
def fshlFn (a b c : DWord) : DWord := BitVec.ofNat 64 (funnel a b * 2 ^ (c.toNat % 256) % 2 ^ 64 / 2 ^ 32)
def fshrFn (a b c : DWord) : DWord := BitVec.ofNat 64 (funnel a b / 2 ^ (c.toNat % 256) % 2 ^ 32)

/-- Position and length of a control word (R188). -/
def fieldPos (c : DWord) : Nat := c.toNat % 256
def fieldLen (c : DWord) : Nat := Nat.min (c.toNat / 256 % 256) 32

/-- BEXT (R188). -/
def bextFn (ty : Ty) (a b _c : DWord) : DWord :=
  let p := fieldPos b
  let l := fieldLen b
  let x := wrapTo l (ext32 ty a / (2 ^ p : Nat))
  if l = 0 then 0 else if tySgn ty then BitVec.ofInt 64 (toSigned l x) else BitVec.ofNat 64 x

/-- BINS (R188). -/
def binsFn (a b c : DWord) : DWord :=
  let p := fieldPos c
  let m : DWord := BitVec.ofNat 64 ((2 ^ fieldLen c - 1) * 2 ^ p % 2 ^ 32)
  (a &&& ~~~m) ||| (BitVec.ofNat 64 (elemN 32 b 0 * 2 ^ p) &&& m)

/-- Bits of a value of width w, lowest first. -/
def bitsOf (w x : Nat) : List Bool := (List.range w).map fun i => Nat.testBit x i
def popcNat (w x : Nat) : Nat := (bitsOf w x).foldl (fun n b => if b then n + 1 else n) 0
/-- Index of the lowest 1 bit, or w. -/
def ctzNat (w x : Nat) : Nat := ((List.range w).find? fun i => Nat.testBit x i).getD w
/-- Zeros above the highest 1 bit, or w. -/
def clzNat (w x : Nat) : Nat := ((List.range w).find? fun i => Nat.testBit x (w - 1 - i)).getD w
def brevNat (w x : Nat) : Nat := (List.range w).foldl (fun n i => if Nat.testBit x i then n + 2 ^ (w - 1 - i) else n) 0
def bswapNat (w x : Nat) : Nat := (List.range (w / 8)).foldl (fun n j => n + x / 2 ^ (8 * j) % 256 * 2 ^ (w - 8 - 8 * j)) 0

/-- A count or reversal of the whole value (R189). -/
def countFn (ty : Ty) (f : Nat → Nat → Nat) (a _b _c : DWord) : DWord :=
  BitVec.ofNat 64 (f (tyWidth ty) (elemN (tyWidth ty) a 0))

/-- The carry-less product (R190). -/
def clProduct (a b : DWord) : Nat :=
  (List.range 32).foldl (fun y i => if Nat.testBit b.toNat i then y ^^^ (elemN 32 a 0 * 2 ^ i) else y) 0
def clmulFn (a b _c : DWord) : DWord := BitVec.ofNat 64 (clProduct a b % 2 ^ 32)
def clmulhFn (a b _c : DWord) : DWord := BitVec.ofNat 64 (clProduct a b / 2 ^ 32)

/-- LEA (R191). -/
def leaFn (sc : BitVec 8) (a b _c : DWord) : DWord := a + (b.setWidth 32).signExtend 64 * BitVec.ofNat 64 (2 ^ sc.toNat)

/-- IMULH (R181): the product read by the type, high 32 bits. -/
def mulhFn (ty : Ty) (a b _c : DWord) : DWord := BitVec.ofNat 64 (wrapTo 32 (ext32 ty a * ext32 ty b / (2 ^ 32 : Nat)))
/-- IMADW (R181). -/
def madwFn (ty : Ty) (a b c : DWord) : DWord := BitVec.ofInt 64 (ext32 ty a * ext32 ty b + c.toNat)

/-! ### 0x10 (R179, R180) -/

def execIadd (f : FmtV) (s : State) : Out := alu s f (spec2 tInt f.ty) (elems f.ty fun a b _ => a + b)
def execIsub (f : FmtV) (s : State) : Out := alu s f (spec2 tInt f.ty) (elems f.ty fun a b _ => a - b)
def execImin (f : FmtV) (s : State) : Out := alu s f (spec2 tInt f.ty) (elems f.ty fun a b _ => iMin a b)
def execImax (f : FmtV) (s : State) : Out := alu s f (spec2 tInt f.ty) (elems f.ty fun a b _ => iMax a b)
def execIneg (f : FmtV) (s : State) : Out := alu s f (spec1 tSigned f.ty) (elems f.ty fun a _ _ => -a)
def execIabs (f : FmtV) (s : State) : Out := alu s f (spec1 tSigned f.ty) (elems f.ty fun a _ _ => a.natAbs)
def execIaddc (f : FmtV) (s : State) : Out := alu s f specCarry (addCarry f.ty)
def execIsubc (f : FmtV) (s : State) : Out := alu s f specCarry (subBorrow f.ty)
def execIadds (f : FmtV) (s : State) : Out := alu s f (spec2 tSat f.ty) (elems f.ty fun a b _ => clampTy f.ty (a + b))
def execIsubs (f : FmtV) (s : State) : Out := alu s f (spec2 tSat f.ty) (elems f.ty fun a b _ => clampTy f.ty (a - b))

def execIaddUniform (f : FmtV) (s : State) : Out := aluUni s f (spec2 tInt f.ty) (elems f.ty fun a b _ => a + b)
def execIsubUniform (f : FmtV) (s : State) : Out := aluUni s f (spec2 tInt f.ty) (elems f.ty fun a b _ => a - b)
def execIminUniform (f : FmtV) (s : State) : Out := aluUni s f (spec2 tInt f.ty) (elems f.ty fun a b _ => iMin a b)
def execImaxUniform (f : FmtV) (s : State) : Out := aluUni s f (spec2 tInt f.ty) (elems f.ty fun a b _ => iMax a b)
def execInegUniform (f : FmtV) (s : State) : Out := aluUni s f (spec1 tSigned f.ty) (elems f.ty fun a _ _ => -a)
def execIabsUniform (f : FmtV) (s : State) : Out := aluUni s f (spec1 tSigned f.ty) (elems f.ty fun a _ _ => a.natAbs)
def execIaddcUniform (f : FmtV) (s : State) : Out := aluUni s f specCarry (addCarry f.ty)
def execIsubcUniform (f : FmtV) (s : State) : Out := aluUni s f specCarry (subBorrow f.ty)
def execIaddsUniform (f : FmtV) (s : State) : Out :=
  aluUni s f (spec2 tSat f.ty) (elems f.ty fun a b _ => clampTy f.ty (a + b))
def execIsubsUniform (f : FmtV) (s : State) : Out :=
  aluUni s f (spec2 tSat f.ty) (elems f.ty fun a b _ => clampTy f.ty (a - b))

/-! ### 0x11, 0x12 (R181, R182) -/

def specMadw : VSpec := vInt t32 (.v 2 true) op1 op1 (.v 2 true)

def execImul (f : FmtV) (s : State) : Out := alu s f (spec2 tInt f.ty) (elems f.ty fun a b _ => a * b)
def execImad (f : FmtV) (s : State) : Out := alu s f (spec3 tInt f.ty) (elems f.ty fun a b c => a * b + c)
def execImulh (f : FmtV) (s : State) : Out := alu s f (spec2 t32 f.ty) (mulhFn f.ty)
def execImadw (f : FmtV) (s : State) : Out := alu s f specMadw (madwFn f.ty)
def execIdiv (f : FmtV) (s : State) : Out := alu s f (spec2 tWide f.ty) (elems f.ty fun a b _ => divElem f.ty a b)
def execIrem (f : FmtV) (s : State) : Out := alu s f (spec2 tWide f.ty) (elems f.ty fun a b _ => remElem a b)

def execImulUniform (f : FmtV) (s : State) : Out := aluUni s f (spec2 tInt f.ty) (elems f.ty fun a b _ => a * b)
def execImadUniform (f : FmtV) (s : State) : Out := aluUni s f (spec3 tInt f.ty) (elems f.ty fun a b c => a * b + c)
def execImulhUniform (f : FmtV) (s : State) : Out := aluUni s f (spec2 t32 f.ty) (mulhFn f.ty)
def execImadwUniform (f : FmtV) (s : State) : Out := aluUni s f specMadw (madwFn f.ty)
def execIdivUniform (f : FmtV) (s : State) : Out := aluUni s f (spec2 tWide f.ty) (elems f.ty fun a b _ => divElem f.ty a b)
def execIremUniform (f : FmtV) (s : State) : Out := aluUni s f (spec2 tWide f.ty) (elems f.ty fun a b _ => remElem a b)

/-! ### 0x13 (R183, R184) -/

/-- ICMP writes only the bits of its bundle's lanes (R183). -/
def execIcmp (cc : Cmp) (f : FmtV) (s : State) : Out :=
  vecFrame s f (specIcmp f.ty) false fun _ _ x => .ok (x.writeK fun L =>
    let (a, b, _, p) := x.srcs L
    (cmpEval cc (elemI f.ty a 0) (elemI f.ty b 0), p))

def specIsel (ty : Ty) : VSpec := vInt tBits (dT ty) (opT ty) (opT ty) .k

/-- Active lanes whose bit of a k operand is poisoned. -/
def Vx.kPoison (x : Vx) (r : Rs) : LaneMask := maskOf fun L => inMask x.act L && (r.read x.w L).2

/-- ISEL carries only the poison of the source it selected (R184). -/
def execIsel (f : FmtV) (s : State) : Out :=
  vecFrame s f (specIsel f.ty) false fun s _ x =>
    if x.kPoison x.c ≠ 0 then stopFault s .poison (x.kPoison x.c) 0 0
    else .ok (x.write fun L => if (x.c.read x.w L).1 = 1 then x.a.read x.w L else x.b.read x.w L)

/-! ### 0x14 (R185) -/

def execAnd (f : FmtV) (s : State) : Out := alu s f (spec2 tBits f.ty) fun a b _ => a &&& b
def execOr (f : FmtV) (s : State) : Out := alu s f (spec2 tBits f.ty) fun a b _ => a ||| b
def execXor (f : FmtV) (s : State) : Out := alu s f (spec2 tBits f.ty) fun a b _ => a ^^^ b
def execAndn (f : FmtV) (s : State) : Out := alu s f (spec2 tBits f.ty) fun a b _ => a &&& ~~~b
def execOrn (f : FmtV) (s : State) : Out := alu s f (spec2 tBits f.ty) fun a b _ => a ||| ~~~b
def execXnor (f : FmtV) (s : State) : Out := alu s f (spec2 tBits f.ty) fun a b _ => ~~~(a ^^^ b)
def execNot (f : FmtV) (s : State) : Out := alu s f (spec1 tBits f.ty) fun a _ _ => ~~~a

def execAndUniform (f : FmtV) (s : State) : Out := aluUni s f (spec2 tBits f.ty) fun a b _ => a &&& b
def execOrUniform (f : FmtV) (s : State) : Out := aluUni s f (spec2 tBits f.ty) fun a b _ => a ||| b
def execXorUniform (f : FmtV) (s : State) : Out := aluUni s f (spec2 tBits f.ty) fun a b _ => a ^^^ b
def execAndnUniform (f : FmtV) (s : State) : Out := aluUni s f (spec2 tBits f.ty) fun a b _ => a &&& ~~~b
def execOrnUniform (f : FmtV) (s : State) : Out := aluUni s f (spec2 tBits f.ty) fun a b _ => a ||| ~~~b
def execXnorUniform (f : FmtV) (s : State) : Out := aluUni s f (spec2 tBits f.ty) fun a b _ => ~~~(a ^^^ b)
def execNotUniform (f : FmtV) (s : State) : Out := aluUni s f (spec1 tBits f.ty) fun a _ _ => ~~~a

/-! ### 0x15 (R186, R187) -/

def execShl (f : FmtV) (s : State) : Out := alu s f (specShift tShift f.ty) (shiftFn .shl f.ty)
def execShr (f : FmtV) (s : State) : Out := alu s f (specShift tShift f.ty) (shiftFn .shr f.ty)
def execSar (f : FmtV) (s : State) : Out := alu s f (specShift tSigned f.ty) (shiftFn .sar f.ty)
def execRol (f : FmtV) (s : State) : Out := alu s f (specShift tShift f.ty) (shiftFn .rol f.ty)
def execRor (f : FmtV) (s : State) : Out := alu s f (specShift tShift f.ty) (shiftFn .ror f.ty)
def execFshl (f : FmtV) (s : State) : Out := alu s f (spec3 [.b32] f.ty) fshlFn
def execFshr (f : FmtV) (s : State) : Out := alu s f (spec3 [.b32] f.ty) fshrFn

def execShlUniform (f : FmtV) (s : State) : Out := aluUni s f (specShift tShift f.ty) (shiftFn .shl f.ty)
def execShrUniform (f : FmtV) (s : State) : Out := aluUni s f (specShift tShift f.ty) (shiftFn .shr f.ty)
def execSarUniform (f : FmtV) (s : State) : Out := aluUni s f (specShift tSigned f.ty) (shiftFn .sar f.ty)
def execRolUniform (f : FmtV) (s : State) : Out := aluUni s f (specShift tShift f.ty) (shiftFn .rol f.ty)
def execRorUniform (f : FmtV) (s : State) : Out := aluUni s f (specShift tShift f.ty) (shiftFn .ror f.ty)
def execFshlUniform (f : FmtV) (s : State) : Out := aluUni s f (spec3 [.b32] f.ty) fshlFn
def execFshrUniform (f : FmtV) (s : State) : Out := aluUni s f (spec3 [.b32] f.ty) fshrFn

/-! ### 0x16, 0x17 (R188, R189, R190) -/

def execBext (f : FmtV) (s : State) : Out := alu s f (spec2 t32 f.ty) (bextFn f.ty)
def execBins (f : FmtV) (s : State) : Out := alu s f (spec3 [.b32] f.ty) binsFn
def execPopc (f : FmtV) (s : State) : Out := alu s f (spec1 tBits f.ty) (countFn f.ty popcNat)
def execClz (f : FmtV) (s : State) : Out := alu s f (spec1 tBits f.ty) (countFn f.ty clzNat)
def execCtz (f : FmtV) (s : State) : Out := alu s f (spec1 tBits f.ty) (countFn f.ty ctzNat)
def execBrev (f : FmtV) (s : State) : Out := alu s f (spec1 tBits f.ty) (countFn f.ty brevNat)
def execBswap (f : FmtV) (s : State) : Out := alu s f (spec1 tBits f.ty) (countFn f.ty bswapNat)
def execClmul (f : FmtV) (s : State) : Out := alu s f (spec2 [.b32] f.ty) clmulFn
def execClmulh (f : FmtV) (s : State) : Out := alu s f (spec2 [.b32] f.ty) clmulhFn

def execBextUniform (f : FmtV) (s : State) : Out := aluUni s f (spec2 t32 f.ty) (bextFn f.ty)
def execBinsUniform (f : FmtV) (s : State) : Out := aluUni s f (spec3 [.b32] f.ty) binsFn
def execPopcUniform (f : FmtV) (s : State) : Out := aluUni s f (spec1 tBits f.ty) (countFn f.ty popcNat)
def execClzUniform (f : FmtV) (s : State) : Out := aluUni s f (spec1 tBits f.ty) (countFn f.ty clzNat)
def execCtzUniform (f : FmtV) (s : State) : Out := aluUni s f (spec1 tBits f.ty) (countFn f.ty ctzNat)
def execBrevUniform (f : FmtV) (s : State) : Out := aluUni s f (spec1 tBits f.ty) (countFn f.ty brevNat)
def execBswapUniform (f : FmtV) (s : State) : Out := aluUni s f (spec1 tBits f.ty) (countFn f.ty bswapNat)
def execClmulUniform (f : FmtV) (s : State) : Out := aluUni s f (spec2 [.b32] f.ty) clmulFn
def execClmulhUniform (f : FmtV) (s : State) : Out := aluUni s f (spec2 [.b32] f.ty) clmulhFn

/-! ### 0x18 (R191, R192) -/

def execLea (f : FmtV) (s : State) : Out := alu s f (specLea f.sc) (leaFn f.sc)
def execLeaUniform (f : FmtV) (s : State) : Out := aluUni s f (specLea f.sc) (leaFn f.sc)
def execMov (f : FmtV) (s : State) : Out := alu s f (spec1 tBits f.ty) fun a _ _ => a
def execMovUniform (f : FmtV) (s : State) : Out := aluUni s f (spec1 tBits f.ty) fun a _ _ => a

/-- The lane MOVG and GMOV name: the lowest active one, or SC[4:0] if it is active (R192). -/
def movLane (act : LaneMask) (sc : BitVec 8) : Option Nat :=
  if sc.getLsbD 5 then (lanesOf act).head?
  else if inMask act (sc.toNat % 32) then some (sc.toNat % 32) else none

def execMovg (f : FmtV) (s : State) : Out :=
  vecFrame s f (specMovg f.ty f.sc) false fun _ _ x =>
    match movLane x.act f.sc with
    | none => .ok (x.w.setG f.d.toNat ⟨0, false⟩)
    | some L => .ok (x.w.setG f.d.toNat ⟨(x.a.read x.w L).1, (x.a.read x.w L).2⟩)

def execGmov (f : FmtV) (s : State) : Out :=
  vecFrame s f (specGmov f.ty f.sc) false fun _ _ x =>
    match movLane x.act f.sc with
    | none => .ok x.w
    | some L => .ok (({ x with act := bitMask L, z := false } : Vx).write fun _ => x.a.read x.w L)

/-! ### 0x19, 0x1A (R193, R194) -/

def specMovi : VSpec := vInt [.b32, .i32, .n32] (.v 1 false) .none .none .none

def execMovi (f : FmtL) (s : State) : Out := alu s (lToV f) specMovi fun _ _ _ => f.imm.setWidth 64
def execMoviUniform (f : FmtL) (s : State) : Out := aluUni s (lToV f) specMovi fun _ _ _ => f.imm.setWidth 64

def immS (imm : BitVec 26) : DWord := imm.signExtend 64
def immZ (imm : BitVec 26) : DWord := imm.setWidth 64
def immAmt (imm : BitVec 26) (_ : Nat) : Nat := imm.toNat % 256

def execIaddi (f : FmtI) (s : State) : Out := alu s (iToV f) (specImm tWide f.ty) fun a _ _ => a + immS f.imm
def execAndi (f : FmtI) (s : State) : Out := alu s (iToV f) (specImm tBits f.ty) fun a _ _ => a &&& immZ f.imm
def execOri (f : FmtI) (s : State) : Out := alu s (iToV f) (specImm tBits f.ty) fun a _ _ => a ||| immZ f.imm
def execXori (f : FmtI) (s : State) : Out := alu s (iToV f) (specImm tBits f.ty) fun a _ _ => a ^^^ immZ f.imm
def execShli (f : FmtI) (s : State) : Out :=
  alu s (iToV f) (specShiftImm tShift f.ty f.imm) fun a _ _ => shiftAll .shl f.ty (immAmt f.imm) a
def execShri (f : FmtI) (s : State) : Out :=
  alu s (iToV f) (specShiftImm tShift f.ty f.imm) fun a _ _ => shiftAll .shr f.ty (immAmt f.imm) a
def execSari (f : FmtI) (s : State) : Out :=
  alu s (iToV f) (specShiftImm tSigned f.ty f.imm) fun a _ _ => shiftAll .sar f.ty (immAmt f.imm) a

def execIaddiUniform (f : FmtI) (s : State) : Out := aluUni s (iToV f) (specImm tWide f.ty) fun a _ _ => a + immS f.imm
def execAndiUniform (f : FmtI) (s : State) : Out := aluUni s (iToV f) (specImm tBits f.ty) fun a _ _ => a &&& immZ f.imm
def execOriUniform (f : FmtI) (s : State) : Out := aluUni s (iToV f) (specImm tBits f.ty) fun a _ _ => a ||| immZ f.imm
def execXoriUniform (f : FmtI) (s : State) : Out := aluUni s (iToV f) (specImm tBits f.ty) fun a _ _ => a ^^^ immZ f.imm
def execShliUniform (f : FmtI) (s : State) : Out :=
  aluUni s (iToV f) (specShiftImm tShift f.ty f.imm) fun a _ _ => shiftAll .shl f.ty (immAmt f.imm) a
def execShriUniform (f : FmtI) (s : State) : Out :=
  aluUni s (iToV f) (specShiftImm tShift f.ty f.imm) fun a _ _ => shiftAll .shr f.ty (immAmt f.imm) a
def execSariUniform (f : FmtI) (s : State) : Out :=
  aluUni s (iToV f) (specShiftImm tSigned f.ty f.imm) fun a _ _ => shiftAll .sar f.ty (immAmt f.imm) a

/-! ### 0x1B: masks (R195, R196) -/

/-- A mask operation on all 32 bits and their poison. -/
def maskOp (s : State) (f : FmtV) (q : VSpec) (run : KReg → KReg → KReg) : Out :=
  vecFrame s f q false fun _ _ x => .ok (x.w.setK f.d.toNat (run (x.w.kreg f.sa.toNat) (x.w.kreg f.sb.toNat)))

/-- KPOPC and KFIRST: a g register, poisoned by any poisoned bit. -/
def maskToG (s : State) (f : FmtV) (run : Nat → Nat) : Out :=
  vecFrame s f (specMask .g .k .none) false fun _ _ x =>
    let a := x.w.kreg f.sa.toNat
    .ok (x.w.setG f.d.toNat ⟨BitVec.ofNat 64 (run a.m.toNat), decide (a.p ≠ 0)⟩)

def execKand (f : FmtV) (s : State) : Out := maskOp s f (specMask .k .k .k) fun a b => ⟨a.m &&& b.m, a.p ||| b.p⟩
def execKor (f : FmtV) (s : State) : Out := maskOp s f (specMask .k .k .k) fun a b => ⟨a.m ||| b.m, a.p ||| b.p⟩
def execKxor (f : FmtV) (s : State) : Out := maskOp s f (specMask .k .k .k) fun a b => ⟨a.m ^^^ b.m, a.p ||| b.p⟩
def execKnot (f : FmtV) (s : State) : Out := maskOp s f (specMask .k .k .none) fun a _ => ⟨~~~a.m, a.p⟩
def execKmov (f : FmtV) (s : State) : Out := maskOp s f (specMask .k .k .none) fun a _ => a
def execKpopc (f : FmtV) (s : State) : Out := maskToG s f (popcNat 32)
def execKfirst (f : FmtV) (s : State) : Out := maskToG s f (ctzNat 32)

/-! ### Cross-lane (R197-R202) -/

/-- PART at issue; 32 in handler mode (R384). -/
def partOf (i : Iss) (w : Warp) : Nat := if i.handler then 32 else w.part.toNat

/-- P(L): the active lanes of L's segment, ascending (R197). -/
def segLanes (part : Nat) (act : LaneMask) (L : Nat) : List Nat :=
  (lanesOf act).filter fun j => decide (j / part = L / part)

def specShfl (ty : Ty) : VSpec := vInt tBits (dT ty) (opT ty) op1 .none

/-- The source lane of SHFL before the participation check (R198); none outside the segment. -/
def shflSrc (mode : ShflMode) (part L j : Nat) : Option Nat :=
  let base := L / part * part
  let s : Option Nat := match mode with
    | .idx => some (base + j % part)
    | .up => if j ≤ L then some (L - j) else none
    | .down => some (L + j)
    | .xor => some (L ^^^ j)
  s.bind fun n => if base ≤ n && decide (n < base + part) then some n else none

def execShfl (mode : ShflMode) (f : FmtV) (s : State) : Out :=
  vecFrame s f (specShfl f.ty) false fun _ i x => .ok (x.write fun L =>
    let d := x.b.read x.w L
    if d.2 then (0, true)
    else
      match shflSrc mode (partOf i x.w) L (d.1.toNat % 32) with
      | none => x.a.read x.w L
      | some n => if inMask x.act n then x.a.read x.w n else x.a.read x.w L)

def specVote (d : Opd) : VSpec := vInt [.b32] d .none .none .k

/-- The frame of VOTE: a poisoned input bit of an active lane raises POISON (R199). -/
def voteFrame (s : State) (f : FmtV) (d : Opd) (run : Iss → Vx → Warp) : Out :=
  vecFrame s f (specVote d) false fun s i x =>
    if x.kPoison x.c ≠ 0 then stopFault s .poison (x.kPoison x.c) 0 0 else .ok (run i x)

def execVoteAny (f : FmtV) (s : State) : Out :=
  voteFrame s f .k fun i x => x.writeK fun L =>
    ((segLanes (partOf i x.w) x.act L).any fun j => decide ((x.c.read x.w j).1 = 1), false)
def execVoteAll (f : FmtV) (s : State) : Out :=
  voteFrame s f .k fun i x => x.writeK fun L =>
    ((segLanes (partOf i x.w) x.act L).all fun j => decide ((x.c.read x.w j).1 = 1), false)
def execVoteBallot (f : FmtV) (s : State) : Out :=
  voteFrame s f (.v 1 false) fun i x => x.write fun L =>
    ((maskOfList ((segLanes (partOf i x.w) x.act L).filter fun j => decide ((x.c.read x.w j).1 = 1))).setWidth 64, false)

/-! ### REDL and SCANL (R200, R201) -/

/-- One combining step: the value, whether an operand is poisoned, and the flags so far. -/
structure Acc1 where
  v : DWord
  p : Bool
  fl : Flags
deriving DecidableEq, Repr

def redOp (fn : RedFn) (ty : Ty) (mode : Rnd) (x y : DWord) : DWord × Flags :=
  let i := fun (g : Int → Int → Int) => (elems ty (fun a b _ => g a b) x y 0, (0 : Flags))
  let fl := fun (r : Nat × Flags) => (BitVec.ofNat 64 r.1, r.2)
  match fn with
  | .add => i (· + ·)
  | .min => i iMin
  | .max => i iMax
  | .and => (x &&& y, 0)
  | .or => (x ||| y, 0)
  | .xor => (x ^^^ y, 0)
  | .fadd => fl (fAdd fp32 mode (elemN 32 x 0) (elemN 32 y 0))
  | .fmin => fl (fMinMax fp32 false false (elemN 32 x 0) (elemN 32 y 0))
  | .fmax => fl (fMinMax fp32 true false (elemN 32 x 0) (elemN 32 y 0))

/-- Identities of R200. -/
def redIdentity (fn : RedFn) (ty : Ty) : DWord :=
  let w := tyWidth ty
  match fn with
  | .add | .or | .xor => 0
  | .min => BitVec.ofNat 64 (if tySgn ty then 2 ^ (w - 1) - 1 else 2 ^ w - 1)
  | .max => BitVec.ofNat 64 (if tySgn ty then 2 ^ (w - 1) else 0)
  | .and => BitVec.ofNat 64 (2 ^ w - 1)
  | .fadd => 0x80000000
  | .fmin => 0x7F800000
  | .fmax => 0xFF800000

/-- Combine of R201: flags arise only from a step whose operands are both unpoisoned. -/
def combine (fn : RedFn) (ty : Ty) (mode : Rnd) (x y : Option Acc1) : Option Acc1 :=
  match x, y with
  | x, none => x
  | none, y => y
  | some a, some b =>
    let r := redOp fn ty mode a.v b.v
    some ⟨r.1, a.p || b.p, a.fl ||| b.fl ||| (if a.p || b.p then 0 else r.2)⟩

/-- One level of the tree: neighbours combine. -/
def treeLevel (fn : RedFn) (ty : Ty) (mode : Rnd) : List (Option Acc1) → List (Option Acc1)
  | x :: y :: r => combine fn ty mode x y :: treeLevel fn ty mode r
  | l => l

/-- The binary tree of R201 over `levels` levels. -/
def treeReduce (fn : RedFn) (ty : Ty) (mode : Rnd) : Nat → List (Option Acc1) → Option Acc1
  | 0, l => l.headD none
  | k + 1, l => treeReduce fn ty mode k (treeLevel fn ty mode l)

/-- The input of a lane. -/
def Vx.leaf (x : Vx) (L : Nat) : Acc1 := let a := x.a.read x.w L; ⟨a.1, a.2, 0⟩

/-- REDL: the combination over P(L), by the tree of positions in the segment (R200, R201). -/
def Vx.redl (x : Vx) (fn : RedFn) (part L : Nat) : Acc1 :=
  let base := L / part * part
  let nodes := (List.range part).map fun j => if inMask x.act (base + j) then some (x.leaf (base + j)) else none
  (treeReduce fn x.ty x.rm 5 nodes).getD ⟨0, false, 0⟩

/-- SCANL: the left chain over the contributing lanes (R200, R201). -/
def Vx.scanl (x : Vx) (fn : RedFn) (excl : Bool) (part L : Nat) : Acc1 :=
  let ls := (segLanes part x.act L).filter fun j => if excl then decide (j < L) else decide (j ≤ L)
  let start : Option Acc1 := if excl then some ⟨redIdentity fn x.ty, false, 0⟩ else none
  (ls.foldl (fun acc j => combine fn x.ty x.rm acc (some (x.leaf j))) start).getD ⟨0, false, 0⟩

/-- Writes lane results and ORs their flags (R37). -/
def Vx.writeAcc (x : Vx) (f : Nat → Acc1) : Warp :=
  let res := mkLanes f
  let at_ := fun L => res.toList.getD L ⟨0, false, 0⟩
  (x.write fun L => ((at_ L).v, (at_ L).p)).orFstat (laneFlags x.act (fun _ => false) fun L => (at_ L).fl)

def execRedl (fn : RedFn) (f : FmtV) (s : State) : Out :=
  vecFrame s f (specRed fn f.ty) false fun _ i x => .ok (x.writeAcc fun L => x.redl fn (partOf i x.w) L)
def execScanl (fn : RedFn) (excl : Bool) (f : FmtV) (s : State) : Out :=
  vecFrame s f (specRed fn f.ty) false fun _ i x => .ok (x.writeAcc fun L => x.scanl fn excl (partOf i x.w) L)

/-! ### MATCH (R202) -/

def specMatch (ty : Ty) : VSpec := vInt tBits (.v 1 false) (opT ty) .none .none

def execMatchLanes (mode : MatchMode) (f : FmtV) (s : State) : Out :=
  vecFrame s f (specMatch f.ty) false fun _ i x => .ok (x.write fun L =>
    let seg := segLanes (partOf i x.w) x.act L
    let p := seg.any fun j => (x.a.read x.w j).2
    let same := fun (j : Nat) => decide ((x.a.read x.w j).1 = (x.a.read x.w L).1)
    let m := match mode with
      | .any => maskOfList (seg.filter same)
      | .all => if seg.all same then maskOfList seg else 0
    (m.setWidth 64, p))

end Sys2Proof.Machine
end

