-- ==== Sys2Proof/Machine/Inval.lean ====
section
/-! DEFINITION. INVAL (19_page R343), and the commands that wait behind it (05_context R83). -/

namespace Sys2Proof.Machine

/-- The addresses an INVAL covers: VAs, or with `s2` IPAs; `whole` names the whole space (R343). -/
structure InvRange where
  whole : Bool
  s2 : Bool
  base : Nat
  len : Nat

def invRange (cmd : BitVec 512) : InvRange :=
  ⟨Nat.testBit (cmdFlags cmd) 0, Nat.testBit (cmdFlags cmd) 1, cmdNat cmd 16 8, cmdNat cmd 24 8⟩

def InvRange.meets (r : InvRange) (a n : Nat) : Bool := r.whole || decide (a < r.base + r.len) && decide (r.base < a + n)

/-- Whether n bytes at a VA may lie in the range; with `s2` any may, since the IPA that an operation in flight used is not kept: the
package waits for it (notes/assumptions/91). -/
def InvRange.has (r : InvRange) (a n : Nat) : Bool := r.s2 || r.meets a n

/-- Whether a line of the span buffer lies in the range, with `s2` by the IPA that its store used. -/
def InvRange.hasLine (r : InvRange) (l : SpanLine) : Bool :=
  if r.s2 then r.meets (l.ipa / 4096 * 4096) 4096 else r.meets (128 * l.addr) 128

/-- A cached translation in the range. -/
def InvRange.drops (r : InvRange) (e : TlbEntry) : Bool := r.meets (if r.s2 then e.ipa else e.va) e.size

/-- A cached table pointer in the range; IPAs a table may be reached through are not told apart. -/
def InvRange.dropsWalk (r : InvRange) (e : WalkEntry) : Bool := r.s2 || r.meets e.va e.size

/-- Step 1 of R343. -/
def State.dropRangeTlb (s : State) (c : Nat) (r : InvRange) : State :=
  { s with tlb := s.tlb.filter (fun e => !(decide (e.ctx = c) && r.drops e)),
           sectorTlb := s.sectorTlb.filter (fun e => !(decide (e.ctx = c) && r.drops e)),
           walks := s.walks.filter fun e => !(decide (e.ctx = c) && r.dropsWalk e) }

def genRanges (l : List (Space × Nat × Nat)) : List (Nat × Nat) := (l.filter fun e => isGen e.1).map Prod.snd

/-- Whether a load or an engine operation of the context in the range is in flight. -/
def State.invBusy (s : State) (c : Nat) (r : InvRange) : Bool :=
  let mine := fun (w : WarpId) => decide (s.ctxNo w = c)
  let loads := s.allWarps.any fun w => mine w && (((s.warp? w).map Warp.loads).getD []).any fun l =>
    match l.kind with
    | .mem sp _ _ _ => isGen sp && l.items.any fun it => r.has it.va it.n
    | _ => false
  loads || (s.copies.any fun p => decide (p.ctx = c) && (genRanges p.ranges).any fun e => r.has e.1 e.2) ||
    (s.puts.any fun p =>
      mine p.wid && (p.lines.any (fun l => r.has (128 * l.1) 128) || isGen p.ssp && r.has p.src p.bytes || ((p.ctr.map fun q => r.has q.1 8).getD false))) ||
    (s.contribs.any fun p =>
      decide (p.ctx = c) && (r.has p.result 128 || r.has p.status 8 || r.has p.counter 8))

/-- Warps of the context with a span-buffer line in the range. -/
def State.invWarps (s : State) (c : Nat) (r : InvRange) : List WarpId :=
  s.allWarps.filter fun w => decide (s.ctxNo w = c) &&
    (((s.warp? w).map Warp.span).getD []).any fun l => isGen l.sp && r.hasLine l

/-- The commit that INVAL forces on a warp between two instructions: every thread's restart place is its present one. -/
def State.forceCommit (s : State) (w : WarpId) : State :=
  let rp := (((s.warp? w).bind (·.handler)).map Handler.at_).getD Place.zero
  let at_ := (((s.warp? w).bind (·.bundle)).map Bundle.at_).getD rp
  match s.commit w 0 at_ [] with
  | .ok t => t
  | .error (.hold t _) => t
  | .error _ => s

/-- Whether an INVAL is one that R343 accepts. -/
def State.invOk (s : State) (cmd : BitVec 512) : Bool :=
  let r := invRange cmd
  decide (7 ≤ s.bringUp) && decide (cmdCode cmd = 0x0C) && decide (cmdCtx cmd < 256) && decide ((s.ctxOf (cmdCtx cmd)).st ∈ notFree) &&
    cmdClean cmd 3 [(16, 16)] && decide (r.base % 4096 = 0) && decide (r.len % 4096 = 0) && decide (r.len ≠ 0)

/-- Steps 1 and 3 of R343: the entries are dropped and the commits forced. -/
def State.invBegin (s : State) (cmd : BitVec 512) : State :=
  let c := cmdCtx cmd
  (s.invWarps c (invRange cmd)).foldl State.forceCommit (s.dropRangeTlb c (invRange cmd))

/-- Whether something in flight still uses a dropped entry, or a span line in the range is left. -/
def State.invWaits (s : State) (cmd : BitVec 512) : Bool :=
  s.invBusy (cmdCtx cmd) (invRange cmd) || !(s.invWarps (cmdCtx cmd) (invRange cmd)).isEmpty

/-- INVAL once nothing is left to wait for: its completion word, or its refusal. -/
def ctxInval (cmd : BitVec 512) (s : State) : State :=
  let r := invRange cmd
  ctxCmd s cmd 0x0C 3 [(16, 16)] (fun _ => decide (r.base % 4096 ≠ 0) || decide (r.len % 4096 ≠ 0) || decide (r.len = 0)) notFree
    (fun _ => false) fun _ _ => s.invBegin cmd

/-- A command of a context by its code (R83). -/
def ctxRun (cmd : BitVec 512) (onIde : Bool) (s : State) : State :=
  match cmdCode cmd with
  | 1 => ctxCreate cmd s
  | 2 => ctxBind cmd s
  | 3 => ctxStart cmd s
  | 4 => ctxQuiesce cmd s
  | 5 => ctxDestroy cmd s
  | 6 => ctxKeyset cmd onIde s
  | 7 => ctxKeyclr cmd s
  | 8 => aqiAssign cmd s
  | 9 => aqiEnable cmd s
  | 0x0A => aqiDrain cmd s
  | 0x0B => aqiRevoke cmd s
  | 0x0C => ctxInval cmd s
  | _ => ctxDebuggo cmd s

def State.setCmds (s : State) (c : Nat) (l : List HubWrite) : State := s.setCtx c { s.ctxOf c with cmds := l }

/-- The writes behind a context's INVAL are processed in order, up to an INVAL that waits in its turn (R83, R95). -/
def State.runCmds (s : State) (c : Nat) : List HubWrite → State
  | [] => s.setCmds c []
  | .cmd cmd ide :: r =>
    if s.invOk cmd && (s.invBegin cmd).invWaits cmd then ((s.invBegin cmd).setCmds c (.cmd cmd ide :: r)).addDue (.inval cmd)
    else (ctxRun cmd ide s).runCmds c r
  | .notify adr link pasid ide size data :: r => (s.notifyRun adr link pasid ide size data).runCmds c r

/-- Whether an INVAL is the waiting one at the head of its context's line, looked at again: while its look is due, the same bytes
are another command that arrives (R83). -/
def State.isRetry (s : State) (cmd : BitVec 512) : Bool :=
  decide ((s.ctxOf (cmdCtx cmd)).cmds.head? = some (.cmd cmd false)) && !decide (Instr.inval cmd ∈ s.due)

/-- INVAL: an accepted one is done once nothing in flight used a dropped entry and no span line in its range is left; the
commands that came behind it follow (R83, R343). -/
def execInval (cmd : BitVec 512) (s : State) : Out :=
  let c := cmdCtx cmd
  let cmds := (s.ctxOf c).cmds
  if cmds.isEmpty || s.isRetry cmd then
    (if s.invOk cmd && (s.invBegin cmd).invWaits cmd then
      event (((s.invBegin cmd).setCmds c (.cmd cmd false :: cmds.drop 1)).addDue (.inval cmd))
    else if cmds.isEmpty then event (ctxInval cmd s)
    else event ((ctxInval cmd s).runCmds c (cmds.drop 1)))
  else event (s.setCmds c (cmds ++ [.cmd cmd false]))

end Sys2Proof.Machine
end

