-- ==== Sys2Proof/Machine/Ordering.lean ====
section
/-! DEFINITION. FENCE, ACQ, REL, BIND and UNBIND (14_ordering R257-R265). -/

namespace Sys2Proof.Machine

/-- Whether every earlier LD, LDT and ACQ has written its destination. -/
def Warp.loadsDone (w : Warp) : Bool :=
  w.loads.all fun l => match l.kind with
    | .mem _ _ _ _ => false
    | _ => true

/-- Whether every earlier ATOM, RED and CAS of a warp has been performed: none is queued at a hot line. -/
def State.atomsDone (s : State) (w : WarpId) : Bool := s.hot.all fun e => e.2.all fun r => decide (r.wid ≠ w)

/-- Whether every engine operation the warp issued has updated its completion object (R258, R172). -/
def State.enginesDone (s : State) (w : WarpId) : Bool :=
  let v := s.primaryWarp w
  (s.engineOps fun x => decide (x = v)).isEmpty

/-- FENCE, R258: with ST in PRED it commits, releases and ends its block. -/
def execFence (f : FmtS) (s : State) : Out :=
  let st := f.imm.getLsbD 1
  issue s 8 st fun s i =>
    match s.warp? i.wid with
    | none => .ok s
    | some w =>
      let first := if st then s.commitRelease i w [] (immScope f.imm) else .ok s
      match first with
      | .error e => .error e
      | .ok t =>
        match t.warp? i.wid with
        | none => .ok t
        | some x =>
          if f.imm.getLsbD 0 && !x.loadsDone || f.imm.getLsbD 2 && !(t.atomsDone i.wid) || f.imm.getLsbD 3 && !(t.enginesDone i.wid) then
            .error (.hold t 10)
          else
            let u := if f.imm.getLsbD 4 then t.acquire i.core i.ctx (immScope f.imm) none else t
            .ok (if st then u.fallThrough i else u)

/-- The ranges that limit an acquire on an object, if it is bound (R260). -/
def State.boundRanges (s : State) (ctx a : Nat) : Option (List (Nat × Nat)) := sget? (s.ctxOf ctx).binds a

/-- The state after ACQ's read of an object, and what it read: from GANG up at the coherent level, below as a load. -/
def State.acqRead (s : State) (i : Iss) (w : Warp) (va scope : Nat) : GReg × State :=
  let pa := s.paOf i va .rd
  let s0 := s.recallOwned i.core (lineOf pa)
  let (g, t) :=
    if 2 ≤ scope then
      let u := (s0.flushLine i.core (lineOf pa)).shareHost (lineOf pa)
      (u.cohImg (lineOf pa), u)
    else (s0.viewImg i.core (lineOf pa) false (lineTag i.ctx va), s0.fillCopy i.core (lineOf pa) false false (lineTag i.ctx va))
  let lo := spanWord w g va pa
  let hi := spanWord w g (va + 4) (pa + 4)
  (⟨BitVec.ofNat 64 (lo.1 + hi.1 * 2 ^ 32), lo.2 || hi.2⟩, t)

/-- The checks of ACQ's read; from GANG up its home is asked even where the core holds a copy of the line (R264). -/
def State.acqChecks (s : State) (i : Iss) (w : Warp) (va scope : Nat) : Except Stop Unit :=
  match readChecks s i w 8 (i.onePlace va) with
  | .error e => .error e
  | .ok _ => if 2 ≤ scope then s.askRemote i.wid (fun n => .read (128 * n)) [lineOf (s.paOf i va .rd)] else .ok ()

/-- ACQ, R264. -/
def execAcq (f : FmtS) (s : State) : Out :=
  sysFrame s false [f.sa.toNat] [f.d.toNat] fun s i w =>
    let a := (w.gv f.sa).toNat
    if a % 8 ≠ 0 then stopFault s .misaligned i.lanes a 8
    else
      match s.acqChecks i w a (immScope f.imm) with
      | .error e => .error e
      | .ok _ =>
        let (v, t) := s.acqRead i w a (immScope f.imm)
        let u := (t.touch i.core i.ctx a .rd).acquire i.core i.ctx (immScope f.imm) (s.boundRanges i.ctx a)
        .ok (u.updWarp i.wid fun x => (x.setG f.d.toNat v).fillG f.d.toNat)

/-- REL's translation and its request for a line that another package holds or is the home of, before the commit; the commit, the
release and the write are one step, for which the address stands (R265, R358). -/
def relChecks (s : State) (i : Iss) (w : Warp) (a : Nat) : Except Stop State :=
  if w.releasing then .ok s
  else
    match genChecks s i w .wr none true 8 (i.onePlace a) with
    | .error e => .error e
    | .ok _ =>
      let pa := s.paOf i a .wr
      match (if s.isTwin i.wid.g then .ok () else s.askOwn i.wid [lineOf pa]) with
      | .error e => .error e
      | .ok _ => .ok ((s.touch i.core i.ctx a .wr).updWarp i.wid fun x => { x with relPa := pa })

/-- REL, R265. -/
def execRel (f : FmtS) (s : State) : Out :=
  -- SB is waited for, and its poison goes into the object
  sysFrame s true [f.sa.toNat] [f.sb.toNat] fun s i w =>
    let a := (w.gv f.sa).toNat
    if a % 8 ≠ 0 then stopFault s .misaligned i.lanes a 8
    else
      match relChecks s i w a with
      | .error e => .error e
      | .ok u =>
        match u.commitRelease i w [] (immScope f.imm) with
        | .error e => .error e
        | .ok t =>
          let pa := ((t.warp? i.wid).map Warp.relPa).getD 0
          .ok ((t.writeThrough i.wid a pa (leBytes (w.gv f.sb).toNat 8) (w.greg f.sb.toNat).p).fallThrough i)

/-- The status of BIND (R261) and the table after it. -/
def bindStatus (t : SMap (List (Nat × Nat))) (a b n : Nat) : Nat × SMap (List (Nat × Nat)) :=
  if a % 8 ≠ 0 then (4, t)
  else if b % 128 ≠ 0 ∨ n % 128 ≠ 0 ∨ n = 0 ∨ 2 ^ 57 < b + n then (3, t)
  else
    match sget? t a with
    | some rs => if (b, n) ∈ rs then (0, t) else if rs.length = 8 then (2, t) else (0, sset t a (rs ++ [(b, n)]))
    | none => if t.length = 4096 then (1, t) else (0, sset t a [(b, n)])

/-- A new bind table: the object's entry, one of 4,096 in 1 MiB, is written, which a failing area turns into a context error
(R86, R260). -/
def State.setBinds (s : State) (ctx a : Nat) (t : SMap (List (Nat × Nat))) : State :=
  let c := s.ctxOf ctx
  if t = c.binds then s
  else
    let s1 := s.setCtx ctx { c with binds := t }
    if s.areaWrites ctx (c.bind.toNat + 256 * (Config.bindEntry a % 4096)) 256 then s1 else s1.raiseCtxErr ctx .areaWrite

/-- BIND, R261. -/
def execBind (f : FmtS) (s : State) : Out :=
  sysFrame s false [f.sa.toNat, f.sb.toNat, f.sb.toNat + 1] [f.d.toNat] fun s i w =>
    let r := bindStatus (s.ctxOf i.ctx).binds (w.gv f.sa).toNat (w.gv f.sb).toNat (w.gv (f.sb + 1)).toNat
    .ok ((s.setBinds i.ctx (w.gv f.sa).toNat r.2).putG i.wid f.d.toNat (BitVec.ofNat 64 r.1))

/-- UNBIND, R262. -/
def execUnbind (f : FmtS) (s : State) : Out :=
  sysFrame s false [f.sa.toNat] [] fun s i w =>
    .ok (s.setBinds i.ctx (w.gv f.sa).toNat (sdel (s.ctxOf i.ctx).binds (w.gv f.sa).toNat))

end Sys2Proof.Machine
end

