-- ==== Sys2Proof/Machine/Dispatch.lean ====
section
/-! DEFINITION. One arm per step of spec/opcode_table.json: a direct call of its meaning. -/

namespace Sys2Proof.Machine

def exec (i : Instr) (s : State) : Host.Outcome State Fault Refusal :=
  match i with
  | .nop f => Sys2Proof.Machine.execNop f s
  | .yield f => Sys2Proof.Machine.execYield f s
  | .brk f => Sys2Proof.Machine.execBrk f s
  | .bra f => Sys2Proof.Machine.execBra f s
  | .jtb f => Sys2Proof.Machine.execJtb f s
  | .lpad f => Sys2Proof.Machine.execLpad f s
  | .call f => Sys2Proof.Machine.execCall f s
  | .callj f => Sys2Proof.Machine.execCallj f s
  | .ret f => Sys2Proof.Machine.execRet f s
  | .exit f => Sys2Proof.Machine.execExit f s
  | .cdecl f => Sys2Proof.Machine.execCdecl f s
  | .csign f => Sys2Proof.Machine.execCsign f s
  | .partset f => Sys2Proof.Machine.execPartset f s
  | .movsr f => Sys2Proof.Machine.execMovsr f s
  | .movsrVector f => Sys2Proof.Machine.execMovsrVector f s
  | .movts f => Sys2Proof.Machine.execMovts f s
  | .setx f => Sys2Proof.Machine.execSetx f s
  | .span f => Sys2Proof.Machine.execSpan f s
  | .trap f => Sys2Proof.Machine.execTrap f s
  | .resumeF f => Sys2Proof.Machine.execResumeF f s
  | .resumeS f => Sys2Proof.Machine.execResumeS f s
  | .resumeN f => Sys2Proof.Machine.execResumeN f s
  | .abortg f => Sys2Proof.Machine.execAbortg f s
  | .launch f => Sys2Proof.Machine.execLaunch f s
  | .alloc f => Sys2Proof.Machine.execAlloc f s
  | .freeb f => Sys2Proof.Machine.execFreeb f s
  | .iadd f => Sys2Proof.Machine.execIadd f s
  | .isub f => Sys2Proof.Machine.execIsub f s
  | .imin f => Sys2Proof.Machine.execImin f s
  | .imax f => Sys2Proof.Machine.execImax f s
  | .ineg f => Sys2Proof.Machine.execIneg f s
  | .iabs f => Sys2Proof.Machine.execIabs f s
  | .iaddc f => Sys2Proof.Machine.execIaddc f s
  | .isubc f => Sys2Proof.Machine.execIsubc f s
  | .iadds f => Sys2Proof.Machine.execIadds f s
  | .isubs f => Sys2Proof.Machine.execIsubs f s
  | .imul f => Sys2Proof.Machine.execImul f s
  | .imad f => Sys2Proof.Machine.execImad f s
  | .imulh f => Sys2Proof.Machine.execImulh f s
  | .imadw f => Sys2Proof.Machine.execImadw f s
  | .idiv f => Sys2Proof.Machine.execIdiv f s
  | .irem f => Sys2Proof.Machine.execIrem f s
  | .iaddUniform f => Sys2Proof.Machine.execIaddUniform f s
  | .isubUniform f => Sys2Proof.Machine.execIsubUniform f s
  | .iminUniform f => Sys2Proof.Machine.execIminUniform f s
  | .imaxUniform f => Sys2Proof.Machine.execImaxUniform f s
  | .inegUniform f => Sys2Proof.Machine.execInegUniform f s
  | .iabsUniform f => Sys2Proof.Machine.execIabsUniform f s
  | .iaddcUniform f => Sys2Proof.Machine.execIaddcUniform f s
  | .isubcUniform f => Sys2Proof.Machine.execIsubcUniform f s
  | .iaddsUniform f => Sys2Proof.Machine.execIaddsUniform f s
  | .isubsUniform f => Sys2Proof.Machine.execIsubsUniform f s
  | .imulUniform f => Sys2Proof.Machine.execImulUniform f s
  | .imadUniform f => Sys2Proof.Machine.execImadUniform f s
  | .imulhUniform f => Sys2Proof.Machine.execImulhUniform f s
  | .imadwUniform f => Sys2Proof.Machine.execImadwUniform f s
  | .idivUniform f => Sys2Proof.Machine.execIdivUniform f s
  | .iremUniform f => Sys2Proof.Machine.execIremUniform f s
  | .icmp cc f => Sys2Proof.Machine.execIcmp cc f s
  | .isel f => Sys2Proof.Machine.execIsel f s
  | .and f => Sys2Proof.Machine.execAnd f s
  | .or f => Sys2Proof.Machine.execOr f s
  | .xor f => Sys2Proof.Machine.execXor f s
  | .andn f => Sys2Proof.Machine.execAndn f s
  | .orn f => Sys2Proof.Machine.execOrn f s
  | .xnor f => Sys2Proof.Machine.execXnor f s
  | .not f => Sys2Proof.Machine.execNot f s
  | .andUniform f => Sys2Proof.Machine.execAndUniform f s
  | .orUniform f => Sys2Proof.Machine.execOrUniform f s
  | .xorUniform f => Sys2Proof.Machine.execXorUniform f s
  | .andnUniform f => Sys2Proof.Machine.execAndnUniform f s
  | .ornUniform f => Sys2Proof.Machine.execOrnUniform f s
  | .xnorUniform f => Sys2Proof.Machine.execXnorUniform f s
  | .notUniform f => Sys2Proof.Machine.execNotUniform f s
  | .shl f => Sys2Proof.Machine.execShl f s
  | .shr f => Sys2Proof.Machine.execShr f s
  | .sar f => Sys2Proof.Machine.execSar f s
  | .rol f => Sys2Proof.Machine.execRol f s
  | .ror f => Sys2Proof.Machine.execRor f s
  | .fshl f => Sys2Proof.Machine.execFshl f s
  | .fshr f => Sys2Proof.Machine.execFshr f s
  | .shlUniform f => Sys2Proof.Machine.execShlUniform f s
  | .shrUniform f => Sys2Proof.Machine.execShrUniform f s
  | .sarUniform f => Sys2Proof.Machine.execSarUniform f s
  | .rolUniform f => Sys2Proof.Machine.execRolUniform f s
  | .rorUniform f => Sys2Proof.Machine.execRorUniform f s
  | .fshlUniform f => Sys2Proof.Machine.execFshlUniform f s
  | .fshrUniform f => Sys2Proof.Machine.execFshrUniform f s
  | .bext f => Sys2Proof.Machine.execBext f s
  | .bins f => Sys2Proof.Machine.execBins f s
  | .popc f => Sys2Proof.Machine.execPopc f s
  | .clz f => Sys2Proof.Machine.execClz f s
  | .ctz f => Sys2Proof.Machine.execCtz f s
  | .brev f => Sys2Proof.Machine.execBrev f s
  | .bswap f => Sys2Proof.Machine.execBswap f s
  | .bextUniform f => Sys2Proof.Machine.execBextUniform f s
  | .binsUniform f => Sys2Proof.Machine.execBinsUniform f s
  | .popcUniform f => Sys2Proof.Machine.execPopcUniform f s
  | .clzUniform f => Sys2Proof.Machine.execClzUniform f s
  | .ctzUniform f => Sys2Proof.Machine.execCtzUniform f s
  | .brevUniform f => Sys2Proof.Machine.execBrevUniform f s
  | .bswapUniform f => Sys2Proof.Machine.execBswapUniform f s
  | .clmul f => Sys2Proof.Machine.execClmul f s
  | .clmulh f => Sys2Proof.Machine.execClmulh f s
  | .clmulUniform f => Sys2Proof.Machine.execClmulUniform f s
  | .clmulhUniform f => Sys2Proof.Machine.execClmulhUniform f s
  | .lea f => Sys2Proof.Machine.execLea f s
  | .leaUniform f => Sys2Proof.Machine.execLeaUniform f s
  | .mov f => Sys2Proof.Machine.execMov f s
  | .movUniform f => Sys2Proof.Machine.execMovUniform f s
  | .movg f => Sys2Proof.Machine.execMovg f s
  | .gmov f => Sys2Proof.Machine.execGmov f s
  | .movi f => Sys2Proof.Machine.execMovi f s
  | .moviUniform f => Sys2Proof.Machine.execMoviUniform f s
  | .iaddi f => Sys2Proof.Machine.execIaddi f s
  | .andi f => Sys2Proof.Machine.execAndi f s
  | .ori f => Sys2Proof.Machine.execOri f s
  | .xori f => Sys2Proof.Machine.execXori f s
  | .shli f => Sys2Proof.Machine.execShli f s
  | .shri f => Sys2Proof.Machine.execShri f s
  | .sari f => Sys2Proof.Machine.execSari f s
  | .iaddiUniform f => Sys2Proof.Machine.execIaddiUniform f s
  | .andiUniform f => Sys2Proof.Machine.execAndiUniform f s
  | .oriUniform f => Sys2Proof.Machine.execOriUniform f s
  | .xoriUniform f => Sys2Proof.Machine.execXoriUniform f s
  | .shliUniform f => Sys2Proof.Machine.execShliUniform f s
  | .shriUniform f => Sys2Proof.Machine.execShriUniform f s
  | .sariUniform f => Sys2Proof.Machine.execSariUniform f s
  | .kand f => Sys2Proof.Machine.execKand f s
  | .kor f => Sys2Proof.Machine.execKor f s
  | .kxor f => Sys2Proof.Machine.execKxor f s
  | .knot f => Sys2Proof.Machine.execKnot f s
  | .kmov f => Sys2Proof.Machine.execKmov f s
  | .kpopc f => Sys2Proof.Machine.execKpopc f s
  | .kfirst f => Sys2Proof.Machine.execKfirst f s
  | .shfl mode f => Sys2Proof.Machine.execShfl mode f s
  | .voteAny f => Sys2Proof.Machine.execVoteAny f s
  | .voteAll f => Sys2Proof.Machine.execVoteAll f s
  | .voteBallot f => Sys2Proof.Machine.execVoteBallot f s
  | .redl fn f => Sys2Proof.Machine.execRedl fn f s
  | .scanl fn excl f => Sys2Proof.Machine.execScanl fn excl f s
  | .matchLanes mode f => Sys2Proof.Machine.execMatchLanes mode f s
  | .fadd f => Sys2Proof.Machine.execFadd f s
  | .fsub f => Sys2Proof.Machine.execFsub f s
  | .fmul f => Sys2Proof.Machine.execFmul f s
  | .fmin f => Sys2Proof.Machine.execFmin f s
  | .fmax f => Sys2Proof.Machine.execFmax f s
  | .fminm f => Sys2Proof.Machine.execFminm f s
  | .fmaxm f => Sys2Proof.Machine.execFmaxm f s
  | .fabs f => Sys2Proof.Machine.execFabs f s
  | .fneg f => Sys2Proof.Machine.execFneg f s
  | .fcopysign f => Sys2Proof.Machine.execFcopysign f s
  | .ffma f => Sys2Proof.Machine.execFfma f s
  | .ffms f => Sys2Proof.Machine.execFfms f s
  | .fnma f => Sys2Proof.Machine.execFnma f s
  | .fcmp cc f => Sys2Proof.Machine.execFcmp cc f s
  | .fclass f => Sys2Proof.Machine.execFclass f s
  | .frcp f => Sys2Proof.Machine.execFrcp f s
  | .frsq f => Sys2Proof.Machine.execFrsq f s
  | .fsqrt f => Sys2Proof.Machine.execFsqrt f s
  | .fexp2 f => Sys2Proof.Machine.execFexp2 f s
  | .flog2 f => Sys2Proof.Machine.execFlog2 f s
  | .fsin f => Sys2Proof.Machine.execFsin f s
  | .fcos f => Sys2Proof.Machine.execFcos f s
  | .ftanh f => Sys2Proof.Machine.execFtanh f s
  | .fdot2 f => Sys2Proof.Machine.execFdot2 f s
  | .cvtfi src f => Sys2Proof.Machine.execCvtfi src f s
  | .cvtif src f => Sys2Proof.Machine.execCvtif src f s
  | .cvtff src sat amax f => Sys2Proof.Machine.execCvtff src sat amax f s
  | .frnd f => Sys2Proof.Machine.execFrnd f s
  | .scaleb f => Sys2Proof.Machine.execScaleb f s
  | .packf4 f => Sys2Proof.Machine.execPackf4 f s
  | .unpackf4 f => Sys2Proof.Machine.execUnpackf4 f s
  | .ld wd f => Sys2Proof.Machine.execLd wd f s
  | .st wd f => Sys2Proof.Machine.execSt wd f s
  | .ldt f => Sys2Proof.Machine.execLdt f s
  | .prf f => Sys2Proof.Machine.execPrf f s
  | .cpa f => Sys2Proof.Machine.execCpa f s
  | .cpaGcm f => Sys2Proof.Machine.execCpaGcm f s
  | .cpwait f => Sys2Proof.Machine.execCpwait f s
  | .cpwaitId f => Sys2Proof.Machine.execCpwaitId f s
  | .cppoll f => Sys2Proof.Machine.execCppoll f s
  | .cctlInv f => Sys2Proof.Machine.execCctlInv f s
  | .cctlInvr f => Sys2Proof.Machine.execCctlInvr f s
  | .cctlWayset f => Sys2Proof.Machine.execCctlWayset f s
  | .pgq f => Sys2Proof.Machine.execPgq f s
  | .atom fn f => Sys2Proof.Machine.execAtom fn f s
  | .red fn f => Sys2Proof.Machine.execRed fn f s
  | .cas f => Sys2Proof.Machine.execCas f s
  | .rtree ty f => Sys2Proof.Machine.execRtree ty f s
  | .fence f => Sys2Proof.Machine.execFence f s
  | .acq f => Sys2Proof.Machine.execAcq f s
  | .rel f => Sys2Proof.Machine.execRel f s
  | .bind f => Sys2Proof.Machine.execBind f s
  | .unbind f => Sys2Proof.Machine.execUnbind f s
  | .barset f => Sys2Proof.Machine.execBarset f s
  | .bararv f => Sys2Proof.Machine.execBararv f s
  | .barwt f => Sys2Proof.Machine.execBarwt f s
  | .barsync f => Sys2Proof.Machine.execBarsync f s
  | .barq f => Sys2Proof.Machine.execBarq f s
  | .waitu cc f => Sys2Proof.Machine.execWaitu cc f s
  | .mxlease f => Sys2Proof.Machine.execMxlease f s
  | .mxfree f => Sys2Proof.Machine.execMxfree f s
  | .mxcfg f => Sys2Proof.Machine.execMxcfg f s
  | .mxw f => Sys2Proof.Machine.execMxw f s
  | .mxa f => Sys2Proof.Machine.execMxa f s
  | .mxrd f => Sys2Proof.Machine.execMxrd f s
  | .mxwr f => Sys2Proof.Machine.execMxwr f s
  | .mxz f => Sys2Proof.Machine.execMxz f s
  | .put f => Sys2Proof.Machine.execPut f s
  | .reconf f => Sys2Proof.Machine.execReconf f s
  | .specialFunctionWriteback w reg => Sys2Proof.Machine.execSpecialFunctionWriteback w reg s
  | .loadWriteback w id => Sys2Proof.Machine.execLoadWriteback w id s
  | .copyLineWrite copy line => Sys2Proof.Machine.execCopyLineWrite copy line s
  | .tagVerify copy => Sys2Proof.Machine.execTagVerify copy s
  | .copyEnd copy => Sys2Proof.Machine.execCopyEnd copy s
  | .atomicWriteback w id => Sys2Proof.Machine.execAtomicWriteback w id s
  | .contribution id => Sys2Proof.Machine.execContribution id s
  | .sampledEvaluation wait line => Sys2Proof.Machine.execSampledEvaluation wait line s
  | .spillScan line => Sys2Proof.Machine.execSpillScan line s
  | .dependenceRetry kernel dep => Sys2Proof.Machine.execDependenceRetry kernel dep s
  | .mxOperationComplete core => Sys2Proof.Machine.execMxOperationComplete core s
  | .pipelineError w lanes control => Sys2Proof.Machine.execPipelineError w lanes control s
  | .putLanding id how => Sys2Proof.Machine.execPutLanding id how s
  | .drainComplete => Sys2Proof.Machine.execDrainComplete s
  | .switch => Sys2Proof.Machine.execSwitch s
  | .commitStep => Sys2Proof.Machine.execCommitStep s
  | .quiesceComplete ctx => Sys2Proof.Machine.execQuiesceComplete ctx s
  | .scrubComplete ctx => Sys2Proof.Machine.execScrubComplete ctx s
  | .descriptorRead kernel => Sys2Proof.Machine.execDescriptorRead kernel s
  | .contextError ctx cause => Sys2Proof.Machine.execContextError ctx cause s
  | .saveComplete gang => Sys2Proof.Machine.execSaveComplete gang s
  | .restoreComplete gang => Sys2Proof.Machine.execRestoreComplete gang s
  | .completionActions kernel => Sys2Proof.Machine.execCompletionActions kernel s
  | .bundleFormation w => Sys2Proof.Machine.execBundleFormation w s
  | .redundancyCompare w => Sys2Proof.Machine.execRedundancyCompare w s
  | .hotQueueRetire line => Sys2Proof.Machine.execHotQueueRetire line s
  | .inval cmd => Sys2Proof.Machine.execInval cmd s
  | .copyOutComplete tier => Sys2Proof.Machine.execCopyOutComplete tier s
  | .fillComplete tier => Sys2Proof.Machine.execFillComplete tier s
  | .scanComplete cell => Sys2Proof.Machine.execScanComplete cell s
  | .writeThroughArrival id => Sys2Proof.Machine.execWriteThroughArrival id s
  | .pathLoss cell => Sys2Proof.Machine.execPathLoss cell s
  | .pathRestored cell => Sys2Proof.Machine.execPathRestored cell s
  | .ownershipRequest core line => Sys2Proof.Machine.execOwnershipRequest core line s
  | .putAdmission id reply => Sys2Proof.Machine.execPutAdmission id reply s
  | .packageStop lastPath => Sys2Proof.Machine.execPackageStop lastPath s
  | .restore gang sector cores => Sys2Proof.Machine.execRestore gang sector cores s
  | .schedulerSelect kernel sector cores => Sys2Proof.Machine.execSchedulerSelect kernel sector cores s
  | .rtreeTimeout inst => Sys2Proof.Machine.execRtreeTimeout inst s
  | .barwtLimit w pc => Sys2Proof.Machine.execBarwtLimit w pc s
  | .waitTimeout wait => Sys2Proof.Machine.execWaitTimeout wait s
  | .lineMigration line slice => Sys2Proof.Machine.execLineMigration line slice s
  | .leaseExpiry core => Sys2Proof.Machine.execLeaseExpiry core s
  | .checkFailure core op => Sys2Proof.Machine.execCheckFailure core op s
  | .watchdog core => Sys2Proof.Machine.execWatchdog core s
  | .engineResetComplete core => Sys2Proof.Machine.execEngineResetComplete core s
  | .join pkg slot gen => Sys2Proof.Machine.execJoin pkg slot gen s
  | .gatherTimeout w => Sys2Proof.Machine.execGatherTimeout w s
  | .create cmd => Sys2Proof.Machine.execCreate cmd s
  | .ctxBind cmd => Sys2Proof.Machine.execCtxBind cmd s
  | .start cmd => Sys2Proof.Machine.execStart cmd s
  | .quiesce cmd => Sys2Proof.Machine.execQuiesce cmd s
  | .destroy cmd => Sys2Proof.Machine.execDestroy cmd s
  | .keyset cmd onIde => Sys2Proof.Machine.execKeyset cmd onIde s
  | .keyclr cmd => Sys2Proof.Machine.execKeyclr cmd s
  | .debuggo cmd => Sys2Proof.Machine.execDebuggo cmd s
  | .preemption gang => Sys2Proof.Machine.execPreemption gang s
  | .tdiTransition ctx onto => Sys2Proof.Machine.execTdiTransition ctx onto s
  | .assign cmd => Sys2Proof.Machine.execAssign cmd s
  | .enable cmd => Sys2Proof.Machine.execEnable cmd s
  | .drain cmd => Sys2Proof.Machine.execDrain cmd s
  | .revoke cmd => Sys2Proof.Machine.execRevoke cmd s
  | .notifyWrite bar adr link pasid onIde size data => Sys2Proof.Machine.execNotifyWrite bar adr link pasid onIde size data s
  | .refrecRead read => Sys2Proof.Machine.execRefrecRead read s
  | .remapEntryWrite adr data => Sys2Proof.Machine.execRemapEntryWrite adr data s
  | .reservationTimeout gang => Sys2Proof.Machine.execReservationTimeout gang s
  | .softError e => Sys2Proof.Machine.execSoftError e s
  | .hotModeExpiry line => Sys2Proof.Machine.execHotModeExpiry line s
  | .pageRequestResponse id page ok => Sys2Proof.Machine.execPageRequestResponse id page ok s
  | .evictionSelect tier => Sys2Proof.Machine.execEvictionSelect tier s
  | .fillFlashError tier => Sys2Proof.Machine.execFillFlashError tier s
  | .tierRequest tier => Sys2Proof.Machine.execTierRequest tier s
  | .firewallUpdate page wmask rmask => Sys2Proof.Machine.execFirewallUpdate page wmask rmask s
  | .txnTimeout t => Sys2Proof.Machine.execTxnTimeout t s
  | .formsTheSpace pkg cell members slot => Sys2Proof.Machine.execFormsTheSpace pkg cell members slot s
  | .admitsTheCell cell => Sys2Proof.Machine.execAdmitsTheCell cell s
  | .suspectTimeout cell => Sys2Proof.Machine.execSuspectTimeout cell s
  | .declaresTheCellDead cell => Sys2Proof.Machine.execDeclaresTheCellDead cell s
  | .readmitsTheCell cell => Sys2Proof.Machine.execReadmitsTheCell cell s
  | .rejoinComplete cell => Sys2Proof.Machine.execRejoinComplete cell s
  | .enablesThePort port => Sys2Proof.Machine.execEnablesThePort port s
  | .summary port peer => Sys2Proof.Machine.execSummary port peer s
  | .trainingTimeout port => Sys2Proof.Machine.execTrainingTimeout port s
  | .wavelengthFailure port fibre wave => Sys2Proof.Machine.execWavelengthFailure port fibre wave s
  | .laserFailure port fibre wave => Sys2Proof.Machine.execLaserFailure port fibre wave s
  | .blackoutEnd port => Sys2Proof.Machine.execBlackoutEnd port s
  | .flitCrcFailure port same => Sys2Proof.Machine.execFlitCrcFailure port same s
  | .resetsThePort port => Sys2Proof.Machine.execResetsThePort port s
  | .packetArrival h => Sys2Proof.Machine.execPacketArrival h s
  | .slotWrite slot block => Sys2Proof.Machine.execSlotWrite slot block s
  | .shapeWrite sector slot shape => Sys2Proof.Machine.execShapeWrite sector slot shape s
  | .grantListRemoval ctx => Sys2Proof.Machine.execGrantListRemoval ctx s
  | .registerWrite w => Sys2Proof.Machine.execRegisterWrite w s
  | .telemetryReport regs diePower => Sys2Proof.Machine.execTelemetryReport regs diePower s
  | .connectorReport conn readings => Sys2Proof.Machine.execConnectorReport conn readings s
  | .spdmMeasurementRequest link nonce => Sys2Proof.Machine.execSpdmMeasurementRequest link nonce s
  | .packageReset b => Sys2Proof.Machine.execPackageReset b s
  | .powerLoss standby => Sys2Proof.Machine.execPowerLoss standby s
  | .hostSnoop sn => Sys2Proof.Machine.execHostSnoop sn s
  | .cxlMemRequest a => Sys2Proof.Machine.execCxlMemRequest a s

end Sys2Proof.Machine
end

