-- ==== Sys2Proof/WellFormed.lean ====
section
/-! DEFINITION. Well-formed instructions: a coded step whose fields earn no detail of R65 (03_encoding). -/

namespace Sys2Proof

/-- A coded step, as opposed to an event of an agent. -/
def Instr.coded (i : Instr) : Bool :=
  match i.info with
  | .event => false
  | _ => true

/-- An instruction the encoder may write: coded, and refused under no detail of R65. -/
def wellFormed (i : Instr) : Bool := i.coded && (lowestDetail i.info.details).isNone

end Sys2Proof
end

