-- ==== Sys2Proof/Machine/Step.lean ====
section
/-! DEFINITION. One step of the package: the environment's move if one is chosen, else an event that the package's own
engines owe, else one issue slot (R139). -/

namespace Sys2Proof.Machine

/-- An event of the agenda; a coded instruction is no event. -/
def stepEvent (s : State) (i : Instr) : Out :=
  if i.coded || !s.reaches i then .next s.ticked else exec i s

/-- The unit that a commit step already begun goes on with (R166). -/
def Warp.goesOn (x : Warp) : Option Instr := if x.committing then x.unit else none

/-- A warp forms its bundle, or presents the next unit of it. -/
def stepWarp (s : State) (w : WarpId) : Out :=
  let s := { s with cur := some w, blocked := none }
  match s.warp? w with
  | none => .next s.ticked
  | some x =>
    match x.bundle with
    | none => exec (.bundleFormation w) s
    | some b =>
      match x.goesOn with
      | some i => exec i s
      | none =>
        match present s w x b with
        | .error e => .next (finishStop (presentIss s w x b) e).ticked
        | .ok (i, t) => exec i (t.updWarp w fun y => { y with unit := some i })

/-- One step. -/
def step (s : State) : Host.Outcome State Fault Refusal :=
  match s.agenda with
  | .event i :: r => stepEvent { s with agenda := r } i
  | .issue w :: r =>
    let t := { s with agenda := r }
    if s.canIssue w then issueSlot stepWarp t (s.slotOf w) else .next t.ticked
  | [] =>
    if s.stopped ≠ .running then .next s.ticked else
    match s.pickDue with
    | some (i, t) => exec i t
    | none => issueSlot stepWarp { s with turn := true, slotTurn := s.slotTurn + 1 } s.slotNow

/-- s with the unit of bits w, numbered as the opcode table numbers them, as the next thing its one warp issues
(notes/assumptions/21). -/
def State.withFetchWord (s : State) (nbits w : Nat) : State := s.loadUnit (tableWord nbits w)

end Sys2Proof.Machine
end

