-- ==== Sys2Proof/Safety.lean ====
section
/-! DEFINITION. The terms claims are stated in: a warp about to issue, operands that are ready, what the issue frame adds
after an instruction's own effect, and the invariants of a state. -/

namespace Sys2Proof.Machine

/-! ### An issuing warp -/

/-- Warp `w`, whose record is `x`, issues next from its bundle `b`, and no latched pipeline error goes first (R168). -/
abbrev Issuing (s : State) (w : WarpId) (x : Warp) (b : Bundle) : Prop :=
  s.cur = some w ∧ s.warp? w = some x ∧ x.bundle = some b ∧ x.pipeFault = 0

/-- The state in which an instruction of warp `w` takes its effect: the warp's ready age starts anew (R139). -/
def State.issued (s : State) (w : WarpId) : State := s.updWarp w Warp.presented

/-- What follows an instruction's own effect: unless the instruction has placed the members itself (`ends`), the bundle
moves on (R136); what stood of the presented instruction is over (R166, R344, R359). -/
def State.moveOn (s : State) (ends : Bool) (i : Iss) : State :=
  (if ends then s else s.advance i).settleWarp i

/-- The slot is then counted (R397) and the step ends. -/
def State.retire (s : State) (ends : Bool) (i : Iss) : State := ((s.moveOn ends i).charge i.wid i.at_.pc 0).ticked

/-- Warp record `y` is `x` further on in its code: the bundle, the places of its threads or of its handler, and what stood of
the presented instruction (refused pages, requests that are out, a commit step) may differ, and nothing else does. -/
def Warp.Moved (x y : Warp) : Prop :=
  y = { x with th := y.th, bundle := y.bundle, handler := y.handler, pageFail := y.pageFail, asked := y.asked, txnLost := y.txnLost, asks := y.asks, releasing := y.releasing, sealing := y.sealing } ∧
  (∀ L < 32, ∃ p, y.thread L = { x.thread L with at_ := p }) ∧
  ∃ p, y.handler = x.handler.map fun (h : Handler) => { h with at_ := p }

/-- The kernel of the warp is not sampled (R106): charging a slot then counts, and writes no record (R399). -/
def State.unsampledWarp (s : State) (w : WarpId) : Prop := ((s.descOf w).map Desc.sample).getD false = false

/-! ### Operands that are ready (R67 steps 2 to 5) -/

/-- The operands of a vector instruction as the issuing warp holds them. -/
def vecOperands (s : State) (w : WarpId) (x : Warp) (b : Bundle) (uni : Bool) (q : VSpec) (f : FmtV) : Vx :=
  let ops := vecOpds (s.allotOf w) x.presented uni q f
  { w := x.presented, lanes := b.mask, act := (predOf x b.mask f.pfx f.k f.kn).act, z := pfxZ f.pfx, rm := pfxRm f.pfx,
    ty := f.ty, d := okRs ((ops.getD 0 (false, .ok .none)).2), a := okRs ((ops.getD 1 (false, .ok .none)).2),
    b := okRs ((ops.getD 2 (false, .ok .none)).2), c := okRs ((ops.getD 3 (false, .ok .none)).2) }

/-- Every register named lies in the allotment, the four operands are full, and no predicate bit of the bundle is
poisoned. -/
abbrev VecReady (s : State) (w : WarpId) (x : Warp) (b : Bundle) (uni : Bool) (q : VSpec) (f : FmtV) : Prop :=
  let v := vecOperands s w x b uni q f
  boundError (vecOpds (s.allotOf w) x uni q f) = none ∧ v.a.empty? x = none ∧ v.b.empty? x = none ∧
    v.c.empty? x = none ∧ v.d.empty? x = none ∧ (predOf x b.mask f.pfx f.k f.kn).psn = 0

/-- The g registers of a system instruction are full, and its sources are not poisoned. -/
abbrev SysReady (x : Warp) (srcs dsts : List Nat) : Prop :=
  (∀ r ∈ srcs ++ dsts, x.gFull r = true) ∧ ∀ r ∈ srcs, (x.greg r).p = false

/-- The operands of a memory instruction as the issuing warp holds them. -/
def memOperands (s : State) (w : WarpId) (x : Warp) (b : Bundle) (q : MSpec) (f : FmtM) : Mx :=
  let ops := memOpds (s.allotOf w) x.presented q f
  { w := x.presented, lanes := b.mask, act := (predOf x b.mask f.pfx f.k f.kn).act, z := pfxZ f.pfx,
    d := okRs ((ops.getD 0 (false, .ok .none)).2), base := okRs ((ops.getD 1 (false, .ok .none)).2),
    ofs := okRs ((ops.getD 2 (false, .ok .none)).2), sd := okRs ((ops.getD 3 (false, .ok .none)).2),
    off := f.off.signExtend 64 }

/-- Every register named lies in the allotment, the operands are full, and no predicate bit of the bundle is poisoned. -/
abbrev MemFull (s : State) (w : WarpId) (x : Warp) (b : Bundle) (q : MSpec) (f : FmtM) : Prop :=
  let m := memOperands s w x b q f
  boundError (memOpds (s.allotOf w) x q f) = none ∧ m.base.empty? x = none ∧ m.ofs.empty? x = none ∧
    m.sd.empty? x = none ∧ m.d.empty? x = none ∧ (∀ e ∈ dPair q f, e.1.empty? x = none) ∧
    (predOf x b.mask f.pfx f.k f.kn).psn = 0

/-- As `MemFull`, and the address of no active lane is poisoned. -/
abbrev MemReady (s : State) (w : WarpId) (x : Warp) (b : Bundle) (q : MSpec) (f : FmtM) : Prop :=
  MemFull s w x b q f ∧ (memOperands s w x b q f).addrPsnMask = 0

/-! ### Accesses and commits that go through -/

/-- Every lane's address is aligned, in a space the instruction may use, and in its valid range (R235 steps 1 and 2); no
CCTL.WAYSET of another warp waits over the L2W window (R248). -/
abbrev SpaceFree (s : State) (i : Iss) (sp : Space) (use : Bool) (align n : Nat) (pl : List (Nat × Nat)) : Prop :=
  (∀ e ∈ pl, e.2 % align = 0 ∧ use = true ∧ s.inSpace i sp e.2 n = true) ∧ (sp = .l2w → s.l2wSealed i = false)

/-- Every lane's GEN or CONST address translates with the permission it needs, and no mark of TAG_FAIL, lost request, queued
atomic or round of the fabric stands in its way (R235 steps 3 and 5, R359, R374). -/
abbrev GenFree (s : State) (i : Iss) (w : Warp) (a : Acc) (tag : Option Bool) (txn : Bool) (n : Nat) (pl : List (Nat × Nat)) : Prop :=
  ∀ e ∈ pl, (∃ x, s.find i.core i.ctx e.2 a (w.refused i.lanes) = .ok x) ∧
    (∀ c, tag = some c → s.genTagFail i w c e.2 (s.paOf i e.2 a) n = false) ∧
    (txn = true → w.txnOf (s.lineAt i.core i.ctx e.2) = none) ∧ s.hotPending i.wid (lineOf (s.paOf i e.2 a)) = false ∧
    w.txnOf (s.walkLines i.core i.ctx e.2) = none ∧ s.roundBars i.wid w (s.walkLines i.core i.ctx e.2) = false

/-- A load of GEN or CONST may proceed in every lane, and its requests to other packages are out (R359). -/
abbrev LoadFree (s : State) (i : Iss) (w : Warp) (const : Bool) (n : Nat) (pl : List (Nat × Nat)) : Prop :=
  GenFree s i w .rd (some const) true n pl ∧ s.askReads i const pl = .ok ()

/-- The same of a read that an instruction makes for itself. -/
abbrev ReadFree (s : State) (i : Iss) (w : Warp) (n : Nat) (pl : List (Nat × Nat)) : Prop :=
  GenFree s i w .rd none true n pl ∧ s.askReads i false pl = .ok ()

/-- Every lane's access may proceed at its place: in GEN and CONST as above, elsewhere at a present line (R229), for a load of
L2W without the mark of TAG_FAIL (R88). -/
abbrev PlaceFree (s : State) (i : Iss) (w : Warp) (sp : Space) (a : Acc) (n : Nat) (pl : List (Nat × Nat)) : Prop :=
  if isGen sp then (if a = .rd then LoadFree s i w (decide (sp = .const)) n pl else GenFree s i w a none false n pl)
  else ∀ e ∈ pl, s.scrChk i sp e.2 (decide (a = .wr)) = .ok ∧ (sp = .l2w ∧ a = .rd → s.l2wTagFail i w e.2 n = false)

/-- Every lane that takes a transfer finds a header at its target, and the label where one is asked (R150). -/
abbrev TargetsFree (s : State) (i : Iss) (w : Warp) (take : LaneMask) (T : Nat → DWord) (label : Option Nat) : Prop :=
  ∀ L ∈ lanesOf take, ∃ l, s.target i w (T L).toNat = .ok l ∧ ∀ n, label = some n → l = some n

/-- A commit at which a redundant copy's signature has matched keeps that signature (R170, R171). -/
def State.met (s : State) (w : WarpId) (g : Group) (x : Warp) : State :=
  match g.other, x.meet with
  | some _, .matched sig => s.updWarp w fun y => { y with sig := sig }
  | _, _ => s

/-- Nothing keeps the warp from committing (R164): no load in flight, the ownership of lines homed in other packages taken
(R358), and in a redundant copy matched signatures, the twin behind its primary (R171, R172). -/
abbrev CommitReady (s : State) (w : WarpId) (g : Group) (x : Warp) : Prop :=
  s.group? w.g = some g ∧ s.warp? w = some x ∧ x.loads = [] ∧ (s.met w g x).ownRemote w g x 0 = .ok () ∧
    (g.other = none ∨ (∃ sig, x.meet = .matched sig) ∧
      (g.isTwin = true → ∀ o y, g.other = some o → s.warp? ⟨o, w.w⟩ = some y → x.commits < y.commits))

/-- The warp after its commit. -/
def State.committed (s : State) (w : WarpId) (g : Group) (x : Warp) (m : LaneMask) (rp : Place) : State :=
  (s.met w g x).commitNow w m rp

/-- Room for the lines of a store or a spill: where the span buffer or the pool has none free the warp commits first (R163). -/
abbrev RoomFor (s : State) (i : Iss) (y : Warp) (lines : Nat) (u : State) : Prop :=
  if s.spanFull i.wid y lines then
    (y.span.isEmpty && y.restartsAt i.lanes i.at_) = false ∧
      (∃ g, CommitReady s i.wid g y ∧ u = s.committed i.wid g y i.lanes i.at_) ∧ u.poolShort i.wid lines = false
  else u = s

/-- The commit of an instruction that also performs a release action (R166): already made by an earlier presentation, or
made now; the action of the scope is done (R254). -/
abbrev ReleaseReady (s : State) (i : Iss) (y : Warp) (scope : Nat) (u : State) : Prop :=
  u.released i.wid scope = true ∧
    if y.releasing then u = s
    else ∃ g z, CommitReady s i.wid g z ∧
      u = (s.committed i.wid g z i.lanes i.fall).updWarp i.wid fun z => { z with releasing := true }

/-- Instruction `i` of the issuing warp completes with state `t`, to which the issue frame adds its own. -/
abbrev Completes (i : Instr) (s : State) (w : WarpId) (x : Warp) (b : Bundle) (size : Nat) (ends : Bool) (t : State) : Prop :=
  exec i s = .next (t.retire ends (mkIss s w x b size))

/-- Instruction `ins` of the issuing warp completes and changes registers alone: of the whole state the record of the issuing warp
changes, in it the registers of D, the FSTAT bits that a float instruction sets, the maxima of an instruction that takes them,
and how far the warp has come. The count of the issue slot that follows touches counters alone where the kernel is not sampled. -/
abbrev RegistersOnly (ins : Instr) (s : State) (w : WarpId) (x : Warp) (b : Bundle) (d : Rs) (flags amax : Bool) : Prop :=
  ∃ (u : State) (y : Warp), exec ins s = .next ((u.charge w b.at_.pc 0).ticked) ∧ u.warp? w = some y ∧
    u = { s with groups := u.groups } ∧ (∀ a, u.mem.byte a = s.mem.byte a) ∧
    (∀ n g, s.group? n = some g → ∃ ws, u.group? n = some { g with warps := ws }) ∧
    (∀ p, p ≠ w → u.warp? p = s.warp? p) ∧
    (∃ z : Warp, z = { x with
        v := z.v, g := z.g, k := z.k, fstat := z.fstat, amax := z.amax, amaxnan := z.amaxnan, age := 0,
        ended := x.releasing && x.ended } ∧ z.Moved y) ∧
    (∀ n, n ∉ d.regs → y.vreg n = x.vreg n) ∧ (∀ n, (∀ wide, d ≠ .g n wide) → y.greg n = x.greg n) ∧
    (∀ n, d ≠ .k n → y.kreg n = x.kreg n) ∧
    (flags = false → y.fstat = x.fstat) ∧ y.fstat &&& x.fstat = x.fstat ∧
    (amax = false → y.amax = x.amax ∧ y.amaxnan = x.amaxnan) ∧
    (s.unsampledWarp w → ∃ t m l p, (t = u ∨ t = u.updWarp w Warp.slotUsed) ∧
      u.charge w b.at_.pc 0 = { t with unsampled := m, leaves := l, paid := p })

/-- The event `i` has its own effect: the state becomes `t`, and the step ends. -/
abbrev Happens (i : Instr) (s t : State) : Prop := exec i s = .next t.ticked

/-- A command of a context that its row takes: bring-up has reached step 7, the code is the command's, every byte it does
not name is zero, its operands are in order, the context is in one of the row's states and authorised (R83, R84). -/
abbrev CommandReady (s : State) (cmd : BitVec 512) (code flags : Nat) (named : List (Nat × Nat)) (states : List CtxSt) : Prop :=
  7 ≤ s.bringUp ∧ cmdCode cmd = code ∧ cmdCtx cmd < 256 ∧ cmdClean cmd flags named = true ∧
    (s.ctxOf (cmdCtx cmd)).st ∈ states

/-! ### Instructions of one shape, as tables: constructor, description, lane function -/

/-- A row: the constructor over its format, the description of its operands, its lane function. -/
structure AluRow (F : Type) where
  op : F → Instr
  spec : F → VSpec
  fn : F → DWord → DWord → DWord → DWord

/-- Vector arithmetic on integers (R179 to R182). -/
def arithRows : List (AluRow FmtV) :=
  [⟨.iadd, fun f => spec2 tInt f.ty, fun f => elems f.ty fun a b _ => a + b⟩,
   ⟨.isub, fun f => spec2 tInt f.ty, fun f => elems f.ty fun a b _ => a - b⟩,
   ⟨.imin, fun f => spec2 tInt f.ty, fun f => elems f.ty fun a b _ => iMin a b⟩,
   ⟨.imax, fun f => spec2 tInt f.ty, fun f => elems f.ty fun a b _ => iMax a b⟩,
   ⟨.ineg, fun f => spec1 tSigned f.ty, fun f => elems f.ty fun a _ _ => -a⟩,
   ⟨.iabs, fun f => spec1 tSigned f.ty, fun f => elems f.ty fun a _ _ => a.natAbs⟩,
   ⟨.iaddc, fun _ => specCarry, fun f => addCarry f.ty⟩,
   ⟨.isubc, fun _ => specCarry, fun f => subBorrow f.ty⟩,
   ⟨.iadds, fun f => spec2 tSat f.ty, fun f => elems f.ty fun a b _ => clampTy f.ty (a + b)⟩,
   ⟨.isubs, fun f => spec2 tSat f.ty, fun f => elems f.ty fun a b _ => clampTy f.ty (a - b)⟩,
   ⟨.imul, fun f => spec2 tInt f.ty, fun f => elems f.ty fun a b _ => a * b⟩,
   ⟨.imad, fun f => spec3 tInt f.ty, fun f => elems f.ty fun a b c => a * b + c⟩,
   ⟨.imulh, fun f => spec2 t32 f.ty, fun f => mulhFn f.ty⟩,
   ⟨.imadw, fun _ => specMadw, fun f => madwFn f.ty⟩,
   ⟨.idiv, fun f => spec2 tWide f.ty, fun f => elems f.ty fun a b _ => divElem f.ty a b⟩,
   ⟨.irem, fun f => spec2 tWide f.ty, fun f => elems f.ty fun a b _ => remElem a b⟩]

/-- Vector logic, shifts, fields, counts, carry-less products, LEA and MOV (R185 to R192). -/
def bitRows : List (AluRow FmtV) :=
  [⟨.and, fun f => spec2 tBits f.ty, fun _ => fun a b _ => a &&& b⟩,
   ⟨.or, fun f => spec2 tBits f.ty, fun _ => fun a b _ => a ||| b⟩,
   ⟨.xor, fun f => spec2 tBits f.ty, fun _ => fun a b _ => a ^^^ b⟩,
   ⟨.andn, fun f => spec2 tBits f.ty, fun _ => fun a b _ => a &&& ~~~b⟩,
   ⟨.orn, fun f => spec2 tBits f.ty, fun _ => fun a b _ => a ||| ~~~b⟩,
   ⟨.xnor, fun f => spec2 tBits f.ty, fun _ => fun a b _ => ~~~(a ^^^ b)⟩,
   ⟨.not, fun f => spec1 tBits f.ty, fun _ => fun a _ _ => ~~~a⟩,
   ⟨.shl, fun f => specShift tShift f.ty, fun f => shiftFn .shl f.ty⟩,
   ⟨.shr, fun f => specShift tShift f.ty, fun f => shiftFn .shr f.ty⟩,
   ⟨.sar, fun f => specShift tSigned f.ty, fun f => shiftFn .sar f.ty⟩,
   ⟨.rol, fun f => specShift tShift f.ty, fun f => shiftFn .rol f.ty⟩,
   ⟨.ror, fun f => specShift tShift f.ty, fun f => shiftFn .ror f.ty⟩,
   ⟨.fshl, fun f => spec3 [.b32] f.ty, fun _ => fshlFn⟩,
   ⟨.fshr, fun f => spec3 [.b32] f.ty, fun _ => fshrFn⟩,
   ⟨.bext, fun f => spec2 t32 f.ty, fun f => bextFn f.ty⟩,
   ⟨.bins, fun f => spec3 [.b32] f.ty, fun _ => binsFn⟩,
   ⟨.popc, fun f => spec1 tBits f.ty, fun f => countFn f.ty popcNat⟩,
   ⟨.clz, fun f => spec1 tBits f.ty, fun f => countFn f.ty clzNat⟩,
   ⟨.ctz, fun f => spec1 tBits f.ty, fun f => countFn f.ty ctzNat⟩,
   ⟨.brev, fun f => spec1 tBits f.ty, fun f => countFn f.ty brevNat⟩,
   ⟨.bswap, fun f => spec1 tBits f.ty, fun f => countFn f.ty bswapNat⟩,
   ⟨.clmul, fun f => spec2 [.b32] f.ty, fun _ => clmulFn⟩,
   ⟨.clmulh, fun f => spec2 [.b32] f.ty, fun _ => clmulhFn⟩,
   ⟨.lea, fun f => specLea f.sc, fun f => leaFn f.sc⟩,
   ⟨.mov, fun f => spec1 tBits f.ty, fun _ => fun a _ _ => a⟩]

/-- The uniform forms (R58, R178). -/
def uniRows : List (AluRow FmtV) :=
  [⟨.iaddUniform, fun f => spec2 tInt f.ty, fun f => elems f.ty fun a b _ => a + b⟩,
   ⟨.isubUniform, fun f => spec2 tInt f.ty, fun f => elems f.ty fun a b _ => a - b⟩,
   ⟨.iminUniform, fun f => spec2 tInt f.ty, fun f => elems f.ty fun a b _ => iMin a b⟩,
   ⟨.imaxUniform, fun f => spec2 tInt f.ty, fun f => elems f.ty fun a b _ => iMax a b⟩,
   ⟨.inegUniform, fun f => spec1 tSigned f.ty, fun f => elems f.ty fun a _ _ => -a⟩,
   ⟨.iabsUniform, fun f => spec1 tSigned f.ty, fun f => elems f.ty fun a _ _ => a.natAbs⟩,
   ⟨.iaddcUniform, fun _ => specCarry, fun f => addCarry f.ty⟩,
   ⟨.isubcUniform, fun _ => specCarry, fun f => subBorrow f.ty⟩,
   ⟨.iaddsUniform, fun f => spec2 tSat f.ty, fun f => elems f.ty fun a b _ => clampTy f.ty (a + b)⟩,
   ⟨.isubsUniform, fun f => spec2 tSat f.ty, fun f => elems f.ty fun a b _ => clampTy f.ty (a - b)⟩,
   ⟨.imulUniform, fun f => spec2 tInt f.ty, fun f => elems f.ty fun a b _ => a * b⟩,
   ⟨.imadUniform, fun f => spec3 tInt f.ty, fun f => elems f.ty fun a b c => a * b + c⟩,
   ⟨.imulhUniform, fun f => spec2 t32 f.ty, fun f => mulhFn f.ty⟩,
   ⟨.imadwUniform, fun _ => specMadw, fun f => madwFn f.ty⟩,
   ⟨.idivUniform, fun f => spec2 tWide f.ty, fun f => elems f.ty fun a b _ => divElem f.ty a b⟩,
   ⟨.iremUniform, fun f => spec2 tWide f.ty, fun f => elems f.ty fun a b _ => remElem a b⟩,
   ⟨.andUniform, fun f => spec2 tBits f.ty, fun _ => fun a b _ => a &&& b⟩,
   ⟨.orUniform, fun f => spec2 tBits f.ty, fun _ => fun a b _ => a ||| b⟩,
   ⟨.xorUniform, fun f => spec2 tBits f.ty, fun _ => fun a b _ => a ^^^ b⟩,
   ⟨.andnUniform, fun f => spec2 tBits f.ty, fun _ => fun a b _ => a &&& ~~~b⟩,
   ⟨.ornUniform, fun f => spec2 tBits f.ty, fun _ => fun a b _ => a ||| ~~~b⟩,
   ⟨.xnorUniform, fun f => spec2 tBits f.ty, fun _ => fun a b _ => ~~~(a ^^^ b)⟩,
   ⟨.notUniform, fun f => spec1 tBits f.ty, fun _ => fun a _ _ => ~~~a⟩,
   ⟨.shlUniform, fun f => specShift tShift f.ty, fun f => shiftFn .shl f.ty⟩,
   ⟨.shrUniform, fun f => specShift tShift f.ty, fun f => shiftFn .shr f.ty⟩,
   ⟨.sarUniform, fun f => specShift tSigned f.ty, fun f => shiftFn .sar f.ty⟩,
   ⟨.rolUniform, fun f => specShift tShift f.ty, fun f => shiftFn .rol f.ty⟩,
   ⟨.rorUniform, fun f => specShift tShift f.ty, fun f => shiftFn .ror f.ty⟩,
   ⟨.fshlUniform, fun f => spec3 [.b32] f.ty, fun _ => fshlFn⟩,
   ⟨.fshrUniform, fun f => spec3 [.b32] f.ty, fun _ => fshrFn⟩,
   ⟨.bextUniform, fun f => spec2 t32 f.ty, fun f => bextFn f.ty⟩,
   ⟨.binsUniform, fun f => spec3 [.b32] f.ty, fun _ => binsFn⟩,
   ⟨.popcUniform, fun f => spec1 tBits f.ty, fun f => countFn f.ty popcNat⟩,
   ⟨.clzUniform, fun f => spec1 tBits f.ty, fun f => countFn f.ty clzNat⟩,
   ⟨.ctzUniform, fun f => spec1 tBits f.ty, fun f => countFn f.ty ctzNat⟩,
   ⟨.brevUniform, fun f => spec1 tBits f.ty, fun f => countFn f.ty brevNat⟩,
   ⟨.bswapUniform, fun f => spec1 tBits f.ty, fun f => countFn f.ty bswapNat⟩,
   ⟨.clmulUniform, fun f => spec2 [.b32] f.ty, fun _ => clmulFn⟩,
   ⟨.clmulhUniform, fun f => spec2 [.b32] f.ty, fun _ => clmulhFn⟩,
   ⟨.leaUniform, fun f => specLea f.sc, fun f => leaFn f.sc⟩,
   ⟨.movUniform, fun f => spec1 tBits f.ty, fun _ => fun a _ _ => a⟩]

/-- Vector instructions with a 26-bit immediate (R194). -/
def immRows : List (AluRow FmtI) :=
  [⟨.iaddi, fun f => specImm tWide f.ty, fun f => fun a _ _ => a + immS f.imm⟩,
   ⟨.andi, fun f => specImm tBits f.ty, fun f => fun a _ _ => a &&& immZ f.imm⟩,
   ⟨.ori, fun f => specImm tBits f.ty, fun f => fun a _ _ => a ||| immZ f.imm⟩,
   ⟨.xori, fun f => specImm tBits f.ty, fun f => fun a _ _ => a ^^^ immZ f.imm⟩,
   ⟨.shli, fun f => specShiftImm tShift f.ty f.imm, fun f => fun a _ _ => shiftAll .shl f.ty (immAmt f.imm) a⟩,
   ⟨.shri, fun f => specShiftImm tShift f.ty f.imm, fun f => fun a _ _ => shiftAll .shr f.ty (immAmt f.imm) a⟩,
   ⟨.sari, fun f => specShiftImm tSigned f.ty f.imm, fun f => fun a _ _ => shiftAll .sar f.ty (immAmt f.imm) a⟩]

/-- Their uniform forms. -/
def immUniRows : List (AluRow FmtI) :=
  [⟨.iaddiUniform, fun f => specImm tWide f.ty, fun f => fun a _ _ => a + immS f.imm⟩,
   ⟨.andiUniform, fun f => specImm tBits f.ty, fun f => fun a _ _ => a &&& immZ f.imm⟩,
   ⟨.oriUniform, fun f => specImm tBits f.ty, fun f => fun a _ _ => a ||| immZ f.imm⟩,
   ⟨.xoriUniform, fun f => specImm tBits f.ty, fun f => fun a _ _ => a ^^^ immZ f.imm⟩,
   ⟨.shliUniform, fun f => specShiftImm tShift f.ty f.imm, fun f => fun a _ _ => shiftAll .shl f.ty (immAmt f.imm) a⟩,
   ⟨.shriUniform, fun f => specShiftImm tShift f.ty f.imm, fun f => fun a _ _ => shiftAll .shr f.ty (immAmt f.imm) a⟩,
   ⟨.sariUniform, fun f => specShiftImm tSigned f.ty f.imm, fun f => fun a _ _ => shiftAll .sar f.ty (immAmt f.imm) a⟩]

/-- MOVI (R193). -/
def moviRows : List (AluRow FmtL) :=
  [⟨.movi, fun _ => specMovi, fun f => fun _ _ _ => f.imm.setWidth 64⟩]

/-- Its uniform form. -/
def moviUniRows : List (AluRow FmtL) :=
  [⟨.moviUniform, fun _ => specMovi, fun f => fun _ _ _ => f.imm.setWidth 64⟩]

/-- A float instruction on three sources (R203): as a row of an integer instruction, with the rounding mode and flags. -/
structure FloatRow where
  op : FmtV → Instr
  spec : VSpec
  fn : FmtV → Rnd → DWord → DWord → DWord → DWord × Flags

/-- Element by element over the float type. -/
def byElem (g : Rnd → FFmt → Nat → Nat → Nat → Nat × Flags) (f : FmtV) (m : Rnd) : DWord → DWord → DWord → DWord × Flags :=
  fElems f.ty (g m)

/-- Float arithmetic, classification, dot products, rounding and scaling (R205 to R209, R212, R218, R219). -/
def floatRows : List FloatRow :=
  [⟨.fadd, spec30 allRm, byElem fun m t a b _ => fAdd t m a b⟩,
   ⟨.fsub, spec30 allRm, byElem fun m t a b _ => fSub t m a b⟩,
   ⟨.fmul, spec30 allRm, byElem fun m t a b _ => fMul t m a b⟩,
   ⟨.fmin, spec30 noRm, byElem fun _ t a b _ => fMinMax t false false a b⟩,
   ⟨.fmax, spec30 noRm, byElem fun _ t a b _ => fMinMax t true false a b⟩,
   ⟨.fminm, spec30 noRm, byElem fun _ t a b _ => fMinMax t false true a b⟩,
   ⟨.fmaxm, spec30 noRm, byElem fun _ t a b _ => fMinMax t true true a b⟩,
   ⟨.fabs, spec30u, byElem fun _ t a _ _ => (fSetSign t a false, 0)⟩,
   ⟨.fneg, spec30u, byElem fun _ t a _ _ => (fSetSign t a !(Nat.testBit a (t.width - 1)), 0)⟩,
   ⟨.fcopysign, spec30 noRm, byElem fun _ t a b _ => (fSetSign t a (Nat.testBit b (t.width - 1)), 0)⟩,
   ⟨.ffma, spec31, byElem fun m t a b c => fFma t m false false a b c⟩,
   ⟨.ffms, spec31, byElem fun m t a b c => fFma t m false true a b c⟩,
   ⟨.fnma, spec31, byElem fun m t a b c => fFma t m true false a b c⟩,
   ⟨.fclass, specF32u noRm, fun _ _ a _ _ => (BitVec.ofNat 64 (fClass (elemN 32 a 0)), 0)⟩,
   ⟨.fdot2, specFdot2, fun _ mode a b c =>
      let r := fDot2 mode (bf16.val (elemN 16 a 0)) (bf16.val (elemN 16 b 0)) (bf16.val (elemN 16 a 1))
        (bf16.val (elemN 16 b 1)) (fp32.val (elemN 32 c 0))
      (BitVec.ofNat 64 r.1, r.2)⟩,
   ⟨.frnd, specF32u allRm, fun _ mode a _ _ => let r := fRnd mode (elemN 32 a 0); (BitVec.ofNat 64 r.1, r.2)⟩,
   ⟨.scaleb, spec30 allRm, byElem fun mode t a b _ => fScale t mode a (toSigned t.width b)⟩]

/-- A special function (R210): its description and its function on an FP32 encoding. -/
structure SfuRow where
  op : FmtV → Instr
  spec : VSpec
  fn : Rnd → Nat → Nat × Flags

/-- The special functions (R211). -/
def sfuRows : List SfuRow :=
  [⟨.frcp, specF32u allRm, frcpEval⟩, ⟨.frsq, specF32u noRm, fun _ => frsqEval⟩, ⟨.fsqrt, specF32u allRm, fsqrtEval⟩,
   ⟨.fexp2, specF32u noRm, fun _ => fexp2Eval⟩, ⟨.flog2, specF32u noRm, fun _ => flog2Eval⟩,
   ⟨.fsin, specF32u noRm, fun _ => ftrigEval false⟩, ⟨.fcos, specF32u noRm, fun _ => ftrigEval true⟩,
   ⟨.ftanh, specF32u noRm, fun _ => ftanhEval⟩]

/-- The record that a special function leaves in flight (R210): each active lane's result, the other lanes of the bundle
cleared under Z, and the flags of the unpoisoned lanes. -/
def Vx.sfuOf (v : Vx) (r commit : Nat) (fn : Rnd → Nat → Nat × Flags) : Sfu :=
  let res := mkLanes fun L => let a := v.a.read v.w L; (fn v.rm (elemN 32 a.1 0), a.2)
  let at_ := fun L => res.toList.getD L ((0, 0), false)
  ⟨r, if v.z then v.lanes else v.act,
    mkLanes fun L => if inMask v.act L then ⟨BitVec.ofNat 32 (at_ L).1.1, (at_ L).2⟩ else Lane.zero,
    laneFlags v.act (fun L => (at_ L).2) fun L => (at_ L).1.2, commit⟩

/-- A lane function over the three sources, with the OR of their poison (R175), written to the lanes of D (R70). -/
def Vx.apply (v : Vx) (fn : DWord → DWord → DWord → DWord) : Warp :=
  v.write fun L => let (a, b, c, p) := v.srcs L; (fn a b c, p)

/-! ### Results of the longer instructions -/

/-- The common end of CALL and CALLJ (R150, R151): the oldest entry of a full hardware stack goes to the spill area, the
fall-through address is pushed, the lanes that take the call go to their targets. -/
def State.called (t : State) (i : Iss) (take : LaneMask) (pl : List (Nat × Nat)) (y : Warp) (T : Nat → DWord) (u : State) :
    State :=
  ((u.touchAll i .gen .wr pl).updWarp i.wid fun z =>
    (pl.foldl (fun v e => v.spanPut .gen 0 e.2 (t.storeLine i .gen e.2)
      (leBytes (((y.thread e.1).stack.getLastD 0).toNat) 8) false) z).updThreads take fun _ h => h.push i.fall.pc).leave
        i take T

end Sys2Proof.Machine
end

