-- ==== Sys2Proof/Certificates/Slice0/Obligations.lean ====
section
/-! DEFINITION. The statements for the provers: that every instruction and every event completes and what it leaves, what the
step runs, that words decode and encoded instructions decode back, results and frames, and taking a fault. -/

open Sys2Proof Sys2Proof.Machine

/-- Every vector integer instruction with ready operands completes with its lane function written to the lanes of D. -/
def Obligations.VectorArithmeticCompletes : Prop :=
  ∀ r ∈ arithRows, ∀ (s : State) (w : WarpId) (x : Warp) (b : Bundle) (f : FmtV), Issuing s w x b →
    VecReady s w x b false (r.spec f) f →
    Completes (r.op f) s w x b (unitSize f.pfx) false
      ((s.issued w).setWarp w ((vecOperands s w x b false (r.spec f) f).apply (r.fn f)))

/-- So do vector logic, shifts, fields, counts, carry-less products, LEA and MOV. -/
def Obligations.VectorLogicCompletes : Prop :=
  ∀ r ∈ bitRows, ∀ (s : State) (w : WarpId) (x : Warp) (b : Bundle) (f : FmtV), Issuing s w x b →
    VecReady s w x b false (r.spec f) f →
    Completes (r.op f) s w x b (unitSize f.pfx) false
      ((s.issued w).setWarp w ((vecOperands s w x b false (r.spec f) f).apply (r.fn f)))

/-- The uniform forms complete with the function of lane 0 in a g register. -/
def Obligations.UniformCompletes : Prop :=
  ∀ r ∈ uniRows, ∀ (s : State) (w : WarpId) (x : Warp) (b : Bundle) (f : FmtV), Issuing s w x b →
    VecReady s w x b true (r.spec f) f →
    Completes (r.op f) s w x b (unitSize f.pfx) false
      ((s.issued w).setWarp w ((vecOperands s w x b true (r.spec f) f).apply (r.fn f)))

/-- The instructions with an immediate complete, vector and uniform. -/
def Obligations.ImmediateCompletes : Prop :=
  ∀ (s : State) (w : WarpId) (x : Warp) (b : Bundle), Issuing s w x b →
    (∀ r ∈ immRows, ∀ f : FmtI, VecReady s w x b false (r.spec f) (iToV f) →
      Completes (r.op f) s w x b (unitSize f.pfx) false
        ((s.issued w).setWarp w ((vecOperands s w x b false (r.spec f) (iToV f)).apply (r.fn f)))) ∧
    (∀ r ∈ immUniRows, ∀ f : FmtI, VecReady s w x b true (r.spec f) (iToV f) →
      Completes (r.op f) s w x b (unitSize f.pfx) false
        ((s.issued w).setWarp w ((vecOperands s w x b true (r.spec f) (iToV f)).apply (r.fn f)))) ∧
    (∀ r ∈ moviRows, ∀ f : FmtL, VecReady s w x b false (r.spec f) (lToV f) →
      Completes (r.op f) s w x b (unitSize f.pfx) false
        ((s.issued w).setWarp w ((vecOperands s w x b false (r.spec f) (lToV f)).apply (r.fn f)))) ∧
    (∀ r ∈ moviUniRows, ∀ f : FmtL, VecReady s w x b true (r.spec f) (lToV f) →
      Completes (r.op f) s w x b (unitSize f.pfx) false
        ((s.issued w).setWarp w ((vecOperands s w x b true (r.spec f) (lToV f)).apply (r.fn f))))

/-- Compares, selects, moves between lanes and g registers, and mask instructions complete with the registers they write. -/
def Obligations.MaskAndMoveCompletes : Prop :=
  ∀ (s : State) (w : WarpId) (x : Warp) (b : Bundle) (f : FmtV), Issuing s w x b →
    let done := fun (i : Instr) (y : Warp) => Completes i s w x b (unitSize f.pfx) false ((s.issued w).setWarp w y)
    let y := x.presented
    (∀ cc, VecReady s w x b false (specIcmp f.ty) f →
      let v := vecOperands s w x b false (specIcmp f.ty) f
      done (.icmp cc f) (v.writeK fun L =>
        let (p, q, _, psn) := v.srcs L
        (cmpEval cc (elemI f.ty p 0) (elemI f.ty q 0), psn))) ∧
    (VecReady s w x b false (specIsel f.ty) f →
      let v := vecOperands s w x b false (specIsel f.ty) f
      v.kPoison v.c = 0 →
      done (.isel f) (v.write fun L => if (v.c.read v.w L).1 = 1 then v.a.read v.w L else v.b.read v.w L)) ∧
    (VecReady s w x b false (specMovg f.ty f.sc) f →
      let v := vecOperands s w x b false (specMovg f.ty f.sc) f
      done (.movg f) (match movLane v.act f.sc with
        | none => y.setG f.d.toNat ⟨0, false⟩
        | some L => y.setG f.d.toNat ⟨(v.a.read y L).1, (v.a.read y L).2⟩)) ∧
    (VecReady s w x b false (specGmov f.ty f.sc) f →
      let v := vecOperands s w x b false (specGmov f.ty f.sc) f
      done (.gmov f) (match movLane v.act f.sc with
        | none => y
        | some L => ({ v with act := bitMask L, z := false } : Vx).write fun _ => v.a.read y L)) ∧
    (VecReady s w x b false (specMask .k .k .k) f →
      let p := y.kreg f.sa.toNat
      let q := y.kreg f.sb.toNat
      done (.kand f) (y.setK f.d.toNat ⟨p.m &&& q.m, p.p ||| q.p⟩) ∧
      done (.kor f) (y.setK f.d.toNat ⟨p.m ||| q.m, p.p ||| q.p⟩) ∧
      done (.kxor f) (y.setK f.d.toNat ⟨p.m ^^^ q.m, p.p ||| q.p⟩)) ∧
    (VecReady s w x b false (specMask .k .k .none) f →
      let p := y.kreg f.sa.toNat
      done (.knot f) (y.setK f.d.toNat ⟨~~~p.m, p.p⟩) ∧ done (.kmov f) (y.setK f.d.toNat p)) ∧
    (VecReady s w x b false (specMask .g .k .none) f →
      let p := y.kreg f.sa.toNat
      done (.kpopc f) (y.setG f.d.toNat ⟨BitVec.ofNat 64 (popcNat 32 p.m.toNat), decide (p.p ≠ 0)⟩) ∧
      done (.kfirst f) (y.setG f.d.toNat ⟨BitVec.ofNat 64 (ctzNat 32 p.m.toNat), decide (p.p ≠ 0)⟩))

/-- The cross-lane instructions complete; every lane takes its result from the active lanes of its own segment. -/
def Obligations.CrossLaneCompletes : Prop :=
  ∀ (s : State) (w : WarpId) (x : Warp) (b : Bundle) (f : FmtV), Issuing s w x b →
    let done := fun (i : Instr) (y : Warp) => Completes i s w x b (unitSize f.pfx) false ((s.issued w).setWarp w y)
    let part := if x.handler.isSome then 32 else x.part.toNat
    (∀ mode, VecReady s w x b false (specShfl f.ty) f →
      let v := vecOperands s w x b false (specShfl f.ty) f
      done (.shfl mode f) (v.write fun L =>
        let d := v.b.read v.w L
        if d.2 then (0, true)
        else match shflSrc mode part L (d.1.toNat % 32) with
          | none => v.a.read v.w L
          | some n => if inMask v.act n then v.a.read v.w n else v.a.read v.w L)) ∧
    (∀ d, VecReady s w x b false (specVote d) f →
      let v := vecOperands s w x b false (specVote d) f
      let holds := fun (j : Nat) => decide ((v.c.read v.w j).1 = 1)
      v.kPoison v.c = 0 →
      (d = .k → done (.voteAny f) (v.writeK fun L => ((segLanes part v.act L).any holds, false)) ∧
        done (.voteAll f) (v.writeK fun L => ((segLanes part v.act L).all holds, false))) ∧
      (d = .v 1 false → done (.voteBallot f)
        (v.write fun L => ((maskOfList ((segLanes part v.act L).filter holds)).setWidth 64, false)))) ∧
    (∀ fn, VecReady s w x b false (specRed fn f.ty) f →
      let v := vecOperands s w x b false (specRed fn f.ty) f
      done (.redl fn f) (v.writeAcc fun L => v.redl fn part L) ∧
      ∀ excl, done (.scanl fn excl f) (v.writeAcc fun L => v.scanl fn excl part L)) ∧
    (∀ mode, VecReady s w x b false (specMatch f.ty) f →
      let v := vecOperands s w x b false (specMatch f.ty) f
      done (.matchLanes mode f) (v.write fun L =>
        let seg := segLanes part v.act L
        let same := fun (j : Nat) => decide ((v.a.read v.w j).1 = (v.a.read v.w L).1)
        let m := match mode with
          | .any => maskOfList (seg.filter same)
          | .all => if seg.all same then maskOfList seg else 0
        (m.setWidth 64, seg.any fun j => (v.a.read v.w j).2)))

/-- Float instructions complete: lane results in D, the flags of the unpoisoned active lanes in FSTAT; the special functions
leave their result in flight and D empty. NV beside a signalling input, and the last bit of the special functions, are the
model's readings (notes/assumptions/48 and 15). -/
def Obligations.FloatCompletes : Prop :=
  ∀ (s : State) (w : WarpId) (x : Warp) (b : Bundle) (f : FmtV), Issuing s w x b →
    let done := fun (i : Instr) (y : Warp) => Completes i s w x b (unitSize f.pfx) false ((s.issued w).setWarp w y)
    (∀ r ∈ floatRows, VecReady s w x b false r.spec f →
      let v := vecOperands s w x b false r.spec f
      done (r.op f) (v.writeF fun L =>
        let (p, q, c, psn) := v.srcs L
        let res := r.fn f v.rm p q c
        (res.1, psn, res.2))) ∧
    (∀ cc, VecReady s w x b false specFcmp f →
      let v := vecOperands s w x b false specFcmp f
      let r := fun L => let (p, q, _, psn) := v.srcs L; (fcmpEval cc (elemN 32 p 0) (elemN 32 q 0), psn)
      done (.fcmp cc f) ((v.writeK fun L => ((r L).1.1, (r L).2)).orFstat
        (laneFlags v.act (fun L => (r L).2) fun L => (r L).1.2))) ∧
    (∀ r ∈ sfuRows, VecReady s w x b false r.spec f → ∀ d, f.d.toNat + (ixOf x f.pfx .d).getD 0 = d →
      let v := vecOperands s w x b false r.spec f
      Completes (r.op f) s w x b (unitSize f.pfx) false
        (((s.issued w).setWarp w { v.w.emptyV d with sfus := x.sfus ++ [v.sfuOf d x.commits r.fn] }).addDue
          (.specialFunctionWriteback w d)))

/-- Conversions and the packing of 4-bit floats complete. NV beside a signalling input is the model's reading
(notes/assumptions/48). -/
def Obligations.ConversionCompletes : Prop :=
  ∀ (s : State) (w : WarpId) (x : Warp) (b : Bundle) (f : FmtV), Issuing s w x b →
    let done := fun (i : Instr) (y : Warp) => Completes i s w x b (unitSize f.pfx) false ((s.issued w).setWarp w y)
    (∀ src, VecReady s w x b false (specCvtfi src f.ty) f →
      let v := vecOperands s w x b false (specCvtfi src f.ty) f
      done (.cvtfi src f) (v.conv src f.ty fun _ _ n =>
        let r := fToInt v.rm (tySgn f.ty) (tyWidth f.ty) ((fmtOf src).val n)
        (wrapTo (tyWidth f.ty) r.1, r.2))) ∧
    (∀ src, VecReady s w x b false (specCvtif src f.ty) f →
      let v := vecOperands s w x b false (specCvtif src f.ty) f
      done (.cvtif src f) (v.conv src f.ty fun _ _ n =>
        intToF (fmtOf f.ty) v.rm (if tySgn src then toSigned (tyWidth src) n else n))) ∧
    (∀ src sat amax, VecReady s w x b false (specCvtff src amax f) f →
      let v := vecOperands s w x b false (specCvtff src amax f) f
      let cw := v.b.read v.w 0
      let y := v.conv src f.ty fun L j n => cvtElem (fmtOf src) (fmtOf f.ty) v.rm sat (srOf v.w cw.1 L j) n
      let ins := ((lanesOf v.act).map fun L => (List.range (convN src f.ty)).map fun j => v.convSrc src L j).flatten
      (cw.2 = false ∨ v.act = 0) →
      done (.cvtff src sat amax f) (if amax then
        y.updAmax (f.sc.toNat % 4) ((ins.filter fun e => !e.2).map fun e => toFp32 (fmtOf src) e.1) else y)) ∧
    (VecReady s w x b false specPackf4 f →
      let v := vecOperands s w x b false specPackf4 f
      let cw := v.b.read v.w 0
      let psn := fun L => (v.eight L).any Prod.snd || (v.c.read v.w L).2
      (cw.2 = false ∨ v.act = 0) →
      done (.packf4 f) ((v.writeF fun L =>
        let (e, sc, fl) := packF4 v.rm ((v.eight L).map Prod.fst) (elemN 16 (v.c.read v.w L).1 0) (srOf v.w cw.1 L)
        (BitVec.ofNat 64 (e + sc * 2 ^ 32), psn L, fl)).updAmax (cw.1.toNat / 2 ^ 40 % 4)
          (((lanesOf v.act).filter fun L => !psn L).map fun L => (v.eight L).map Prod.fst).flatten)) ∧
    (VecReady s w x b false specUnpackf4 f →
      let v := vecOperands s w x b false specUnpackf4 f
      let fl := fun L => (List.range 8).foldl (fun acc j => acc ||| (v.unpack L j).2.2) (0 : Flags)
      done (.unpackf4 f) ((v.writeUnits false (fun t L => ((v.unpack L t).1, (v.unpack L t).2.1)) 8).orFstat
        (laneFlags v.act (fun _ => false) fl)))

/-- The instructions that need nothing of the state complete: NOP and LPAD change nothing, YIELD starts a new ready age and
stands back for eight cycles, BRK does nothing where breakpoints are off or no predicate holds and else enters SOFT_TRAP. The
eight cycles of YIELD, counted in the slots of its quadrant, are the model's reading (notes/assumptions/60). -/
def Obligations.PlainInstructionsComplete : Prop :=
  ∀ (s : State) (w : WarpId) (x : Warp) (b : Bundle) (f : FmtS), Issuing s w x b →
    let t := s.issued w
    let i := mkIss s w x b 8
    let p := predOf x b.mask none f.k f.kn
    Completes (.nop f) s w x b 8 false t ∧ Completes (.lpad f) s w x b 8 false t ∧
    Completes (.yield f) s w x b 8 false (t.updWarp w fun y => { y with age := 0, yield := 8 }) ∧
    (p.psn = 0 → (((s.descOf w).map Desc.brken).getD false = false ∨ p.act = 0) → Completes (.brk f) s w x b 8 false t) ∧
    (p.psn = 0 → ((s.descOf w).map Desc.brken).getD false = true → p.act ≠ 0 →
      exec (.brk f) s = .next ((t.charge w b.at_.pc 0).enterFault w b.at_ i.next i.last b.mask
        ⟨.softTrap, p.act, 0, f.imm.toNat + 2 ^ 31, false⟩).ticked)

/-- EXIT, CDECL, CSIGN and PARTSET complete outside handler mode; the slot of EXIT is counted before its threads finish, with the
records of a group that then ends (R399). -/
def Obligations.ThreadControlCompletes : Prop :=
  ∀ (s : State) (w : WarpId) (x : Warp) (b : Bundle) (f : FmtS), Issuing s w x b → x.handler = none →
    let t := s.issued w
    let y := x.presented
    let i := mkIss s w x b 8
    let p := predOf x b.mask none f.k f.kn
    (p.psn = 0 → ∀ g, CommitReady t w g y →
      Completes (.exit f) s w x b 8 true ((((t.committed w g y b.mask i.fall).paySlot w b.at_.pc).fallThrough i).finishThreads w p.act)) ∧
    (let k := x.kreg f.sa.toNat;
      k.p &&& b.mask = 0 →
      Completes (.cdecl f) s w x b 8 false (t.setWarp w (y.declare f.d.toNat (k.m &&& ~~~k.p &&& ~~~x.finished)))) ∧
    (p.psn = 0 → Completes (.csign f) s w x b 8 false
      (t.setWarp w (y.sign f.d.toNat (p.act &&& (vget x.c f.d.toNat ⟨0, 0⟩).d) i.after))) ∧
    ((~~~x.finished) &&& ~~~b.mask = 0 →
      Completes (.partset f) s w x b 8 false (t.setWarp w { y with part := bitsAt f.imm 0 6 }))

/-- The special registers (R156, R157): MOVSR reads one that exists into a g register, or into the active lanes of a vector
register, MOVTS writes one that is RW, SETX adds an immediate to an offset register (R159). -/
def Obligations.SpecialRegistersComplete : Prop :=
  ∀ (s : State) (w : WarpId) (x : Warp) (b : Bundle), Issuing s w x b →
    let t := s.issued w
    let y := x.presented
    let i := mkIss s w x b 8
    (∀ f : FmtS, srExists (srNum f.imm) = true → srPerLane (srNum f.imm) = false → SysReady x [] [f.d.toNat] →
      srWaits t i y (srNum f.imm) = false →
      Completes (.movsr f) s w x b 8 false (t.putG w f.d.toNat (t.special i y (srNum f.imm) 0))) ∧
    (∀ (f : FmtS) (r : Nat), let n := srNum f.imm
      let p := predOf x b.mask none f.k f.kn
      let cnt := if srWide n then 2 else 1
      srExists n = true → regV (s.allotOf w) cnt (srWide n) f.d.toNat none = .ok r → (∀ j < cnt, x.vFull (r + j) = true) →
      p.psn = 0 → srWaits t i y n = false →
      Completes (.movsrVector f) s w x b 8 false (t.setWarp w
        ({ w := y, lanes := b.mask, act := p.act, z := false, rm := .rne, ty := .b32, d := .v r cnt, a := .none,
           b := .none, c := .none : Vx }.write fun L => (t.special i y n L, false)))) ∧
    (∀ f : FmtS, let n := srNum f.imm
      let v := x.gv f.sa
      srWritable n = true → SysReady x [f.sa.toNat] [] → srWaits t i y n = false →
      (n = 21 → ∀ L < 32, (x.thread L).depth ≤ 16) →
      ∃ z, Completes (.movts f) s w x b 8 false (t.setWarp w z) ∧
        (n = 12 → z = { y with fstat := bitsAt v 0 6 }) ∧ (n = 13 → z = { y with srseed := v }) ∧
        (14 ≤ n ∧ n ≤ 17 → z = y.setAmax (n - 14) (loWord v)) ∧ (n = 18 → z = { y with amaxnan := bitsAt v 0 4 }) ∧
        (n = 21 → z = { y with cstk := v &&& 0x01FFFFFFFFFFF0FF#64 })) ∧
    (∀ f : FmtI, SysReady x [f.sa.toNat] [] →
      Completes (.setx f) s w x b 8 false (t.setWarp w
        { y with x := vset x.x f.d.toNat ((x.gv f.sa + f.imm.signExtend 64).setWidth 11) }))

/-- BRA and JTB complete where every target is a header that may be entered: the lanes that take the branch go to their
targets, the others to the fall-through header. -/
def Obligations.BranchesComplete : Prop :=
  ∀ (s : State) (w : WarpId) (x : Warp) (b : Bundle) (f : FmtB), Issuing s w x b →
    let t := s.issued w
    let y := x.presented
    let i := mkIss s w x b 8
    let p := predOf x b.mask none f.k f.kn
    let take := takeMask f.cm x.handler.isSome b.mask p.act
    p.psn = 0 →
    (TargetsFree t i y take (fun _ => directTarget i f.off) none →
      Completes (.bra f) s w x b 8 true (t.leave i take fun _ => directTarget i f.off)) ∧
    (let tab := (bitsAt f.off 10 6).toNat
      let r := f.sa.toNat
      let ix := fun (L : Nat) => (x.lane r L).v.toNat
      let pl := (lanesOf take).map fun L => (L, ((x.greg tab).v + BitVec.ofNat 64 (4 * ix L)).toNat)
      let word := fun (L : Nat) => wordsNat (t.readWords i y ((x.greg tab).v + BitVec.ofNat 64 (4 * ix L)).toNat 1)
      let T := fun (L : Nat) => (x.greg (tab + 1)).v + BitVec.ofNat 64 (word L)
      x.handler = none → r < s.allotOf w → x.vFull r = true → (∀ g ∈ [tab, tab + 1], x.gFull g = true) →
      (x.greg tab).p = false → (x.greg (tab + 1)).p = false →
      (∀ L ∈ lanesOf take, (x.lane r L).p = false ∧ ix L < (bitsAt f.off 0 10).toNat) →
      (x.greg tab).v.toNat % 4 = 0 → ReadFree t i y 4 pl →
      (∀ e ∈ pl, ∀ v ∈ t.readWords i y e.2 1, v.2 = false) →
      TargetsFree t i y take T (some (bitsAt f.off 16 16).toNat) →
      Completes (.jtb f) s w x b 8 true ((pl.foldl (fun u e => u.fillRead i e.2) t).leave i take T))

/-- CALL, CALLJ and RET complete outside handler mode. -/
def Obligations.CallsComplete : Prop :=
  ∀ (s : State) (w : WarpId) (x : Warp) (b : Bundle), Issuing s w x b → x.handler = none →
    let t := s.issued w
    let y := x.presented
    let i := mkIss s w x b 8
    (∀ (f : FmtB) (label : Option Nat) (T : Nat → DWord),
      let p := predOf x b.mask none f.k f.kn
      let take := takeMask f.cm false b.mask p.act
      let pl := (lanesOf (take &&& x.lanesWhere fun h => decide (16 ≤ h.depth))).map fun L =>
        (L, spillAddr x.cstk L ((x.thread L).depth - 16))
      p.psn = 0 → (take &&& x.lanesWhere fun h => decide (16 + 16 * spillN x.cstk ≤ h.depth)) = 0 →
      GenFree t i y .wr none false 8 pl → TargetsFree t i y take T label →
      ∀ u, RoomFor t i y (t.newLines i y .gen pl) u →
      (label = none → T = (fun _ => directTarget i f.off) →
        Completes (.call f) s w x b 8 true (t.called i take pl y T u)) ∧
      (label = some (bitsAt f.off 0 16).toNat → f.sa.toNat % 2 = 0 → f.sa.toNat + 2 ≤ s.allotOf w →
        x.vFull f.sa.toNat = true → x.vFull (f.sa.toNat + 1) = true →
        (∀ L ∈ lanesOf take, (x.lane f.sa.toNat L).p = false ∧ (x.lane (f.sa.toNat + 1) L).p = false) →
        T = (fun L => (x.lane (f.sa.toNat + 1) L).v ++ (x.lane f.sa.toNat L).v) →
        Completes (.callj f) s w x b 8 true (t.called i take pl y T u))) ∧
    (∀ f : FmtS,
      let p := predOf x b.mask none f.k f.kn
      let pl := (lanesOf (p.act &&& x.lanesWhere fun h => decide (16 < h.depth))).map fun L =>
        (L, spillAddr x.cstk L ((x.thread L).depth - 17))
      let T := fun (L : Nat) => (x.thread L).stack.headD 0
      p.psn = 0 → (p.act &&& x.lanesWhere fun h => decide (h.depth = 0)) = 0 → ReadFree t i y 8 pl →
      (∀ e ∈ pl, ∀ v ∈ t.readWords i y e.2 2, v.2 = false) → TargetsFree t i y p.act T none →
      let fills := pl.map fun e => (e.1, e.2, t.readWords i y e.2 2)
      Completes (.ret f) s w x b 8 true (((pl.foldl (fun u e => u.fillRead i e.2) t).updWarp w fun z =>
        z.updThreads p.act fun L h => h.pop
          ((fills.find? fun e => decide (e.1 = L)).map fun e => BitVec.ofNat 64 (wordsNat e.2.2))).leave i p.act T))

/-- SPAN commits; TRAP commits and enters SOFT_TRAP for its active lanes; RESUME in a form that hardware permits leaves the
handler; ABORTG aborts the group. -/
def Obligations.FaultControlCompletes : Prop :=
  ∀ (s : State) (w : WarpId) (x : Warp) (b : Bundle) (f : FmtS), Issuing s w x b →
    let t := s.issued w
    let y := x.presented
    let i := mkIss s w x b 8
    let p := predOf x b.mask none f.k f.kn
    (∀ g, CommitReady t w g y →
      let c := t.committed w g y b.mask i.fall
      Completes (.span f) s w x b 8 true (c.fallThrough i) ∧
      (p.psn = 0 → p.act = 0 → Completes (.trap f) s w x b 8 true (c.fallThrough i)) ∧
      (p.psn = 0 → p.act ≠ 0 → exec (.trap f) s =
        .next ((c.charge w b.at_.pc 0).enterFault w b.at_ i.next i.last b.mask ⟨.softTrap, p.act, 0, f.imm.toNat, false⟩).ticked)) ∧
    (∀ h, x.handler = some h →
      (h.forms.getLsbD 0 = true → Completes (.resumeF f) s w x b 8 true (t.resumeAt w h.lanes h.pc)) ∧
      (h.forms.getLsbD 1 = true → Completes (.resumeS f) s w x b 8 true ((t.leaveHandler w).discard w)) ∧
      (h.forms.getLsbD 2 = true → Completes (.resumeN f) s w x b 8 true (t.resumeAt w h.lanes (nextPlace h)))) ∧
    Completes (.abortg f) s w x b 8 true
      ((t.paySlot w b.at_.pc).abortWith w ((x.handler.map Handler.code).getD 0) b.at_.pc.toNat 0 0 b.mask false)

/-- ALLOC answers a status or binds the lowest fitting extent, FREEB marks one. -/
def Obligations.ExtentsComplete : Prop :=
  ∀ (s : State) (w : WarpId) (x : Warp) (b : Bundle) (f : FmtS) (g : Group), Issuing s w x b →
    SysReady x [f.sa.toNat] [f.d.toNat] → (s.issued w).group? w.g = some g →
    let t := s.issued w
    let sp := spcOf f.imm
    let n := (x.gv f.sa).toNat
    let a := t.allocStatus g (((s.descOf w).map fun d => d.res sp).getD 0) n sp
    Completes (.alloc f) s w x b 8 false ((match a.2 with
      | none => t
      | some base => t.setGroup w.g (g.bindExtent w.w sp base n)).putG w f.d.toNat a.1) ∧
    ((g.extents.any fun e => e.freeable sp n) = true → Completes (.freeb f) s w x b 8 false ((t.setGroup w.g { g with
      extents := g.extents.map fun e => if e.freeable sp n then { e with markBy := some w.w } else e }).putG w f.d.toNat 0)) ∧
    ((g.extents.any fun e => e.freeable sp n) = false → Completes (.freeb f) s w x b 8 false (t.putG w f.d.toNat 1))

/-- Loads complete: LD and LDT leave a load in flight and their registers empty, PRF brings lines closer, PGQ answers its
query words at once. Which space is read at issue and which at write-back is the model's choice (notes/assumptions/56). -/
def Obligations.LoadsComplete : Prop :=
  ∀ (s : State) (w : WarpId) (x : Warp) (b : Bundle) (f : FmtM), Issuing s w x b →
    let t := s.issued w
    let y := x.presented
    let i := mkIss s w x b (unitSize f.pfx)
    let done := fun (ins : Instr) (u : State) => Completes ins s w x b (unitSize f.pfx) false u
    (∀ wd, MemReady s w x b (specLd wd f.ty) f →
      let m := memOperands s w x b (specLd wd f.ty) f
      let n := memWidth wd f.ty
      let d := m.d.regs
      SpaceFree t i f.sp (mayLoad f.sp) n n m.places → PlaceFree t i y f.sp .rd n m.places →
      done (.ld wd f) (((t.touchAll i f.sp .rd m.places).tieL2w w f.sp).startLoad w
        (.mem f.sp 0 (decide (f.cp = .noalloc)) (decide (f.ty = .i32))) d m.zeroMask
        ((m.places.map fun e => (List.range d.length).map fun j =>
          t.loadItem i y f.sp e.1 (d.getD j 0) (e.2 + 4 * j) (memBytes wd)).flatten))) ∧
    (MemReady s w x b specLdt f →
      let m := memOperands s w x b specLdt f
      let d := m.d.regs
      let pl := (List.range 32).map fun L => (L, m.row (L % 16))
      wholeWarp i y m.act = true → m.rowOffenders = [] → SpaceFree t i f.sp (mayLoad f.sp) 1 16 pl →
      PlaceFree t i y f.sp .rd 16 pl →
      done (.ldt f) (((t.touchAll i f.sp .rd pl).tieL2w w f.sp).startLoad w (.mem f.sp 0 (decide (f.cp = .noalloc)) false) d 0
        ((List.range 2).map fun j => (List.range 32).map fun L =>
          t.loadItem i y f.sp L (d.getD j 0) ((m.row (L % 16) + 4 * (2 * j + L / 16)) % 2 ^ 64) 4).flatten)) ∧
    (MemReady s w x b (mPlain [.b32] .none) f →
      let m := memOperands s w x b (mPlain [.b32] .none) f
      SpaceFree t i f.sp (isGen f.sp) 1 1 m.places →
      done (.prf f) (m.places.foldl (fun u e =>
        u.prefetch i (decide (f.sp = .const)) (decide (f.cp = .noalloc)) e.2) t)) ∧
    (MemReady s w x b { mPlain [.b32] (.v 1 1) with noPolicy := true } f →
      let m := memOperands s w x b { mPlain [.b32] (.v 1 1) with noPolicy := true } f
      SpaceFree t i f.sp (isGen f.sp) 1 1 m.places →
      ∀ vals, t.queries i y m.places = .ok vals →
      done (.pgq f) (t.setWarp w (m.d.regs.foldl (fun z r => z.deliver r m.zeroMask vals) y)))

/-- ST completes: every active lane's bytes enter the span buffer at the lane's effective address, and memory itself
waits for the commit. -/
def Obligations.StoresComplete : Prop :=
  ∀ (s : State) (w : WarpId) (x : Warp) (b : Bundle) (f : FmtM) (wd : MemWidth), Issuing s w x b →
    MemReady s w x b (specSt wd f.ty) f →
    let t := s.issued w
    let y := x.presented
    let i := mkIss s w x b (unitSize f.pfx)
    let m := memOperands s w x b (specSt wd f.ty) f
    let n := memWidth wd f.ty
    SpaceFree t i f.sp (mayStore f.sp) n n m.places → PlaceFree t i y f.sp .wr n m.places →
    ∀ u, RoomFor t i y (t.newLines i y f.sp m.places) u →
    Completes (.st wd f) s w x b (unitSize f.pfx) false
      (((u.touchAll i f.sp .wr m.places).tieL2w w f.sp).updWarp w fun z =>
        m.places.foldl (fun v e =>
          let k := t.spanKey i f.sp e.2
          v.storeLane f.sp k.1 k.2 (t.storeLine i f.sp e.2) m.d n e.1) z)

/-- ATOM, RED and CAS complete: once the requests for lines homed in other packages are out, the warp commits and every
active lane is performed or queued, in ascending order. That a lane is performed in the instruction's own step where its line
is not hot, and that a remote request is held for one presentation, are the model's choices (notes/assumptions/59 and 77). -/
def Obligations.AtomicsComplete : Prop :=
  ∀ (s : State) (w : WarpId) (x : Warp) (b : Bundle) (f : FmtM) (q : MSpec) (fn : Option AtomFn) (red : Bool) (ins : Instr),
    (∃ k, ins = .atom k f ∧ fn = some k ∧ red = false ∧ q = mPlain (atomTys k) (mdT f.ty)) ∨
    (∃ k, ins = .red k f ∧ fn = some k ∧ red = true ∧ q = { mPlain (atomTys k) (mdT f.ty) with zOk := false }) ∨
    (ins = .cas f ∧ fn = none ∧ red = false ∧
      q = mPlain tBits (.v (2 * regs (tyPair f.ty)) (2 * regs (tyPair f.ty)))) →
    Issuing s w x b → MemReady s w x b q f →
    let t := s.issued w
    let y := x.presented
    let i := mkIss s w x b (unitSize f.pfx)
    let m := memOperands s w x b q f
    let n := atomBytes f.ty
    let opd := m.atomOperand fn.isNone f.ty
    SpaceFree t i f.sp (mayAtom f.sp) n n m.places → atomChecks t i y f.sp n m.places = .ok () →
    (∀ e ∈ m.places, (opd e.1).2.2 = true → (isGen f.sp && decide (t.homeOf (t.atomPa i e.2) ≠ t.pkg)) = false) →
    (isGen f.sp = true → t.askAtoms i m fn f.ty = .ok ()) →
    ∀ g, CommitReady t w g y →
    let c := t.committed w g y b.mask i.fall
    ∀ u, c.sendAtoms i m f.sp fn red f.ty = .ok u → Completes ins s w x b (unitSize f.pfx) true u

/-- RTREE completes: the warp commits and its contribution is sent. -/
def Obligations.ReductionTreeCompletes : Prop :=
  ∀ (s : State) (w : WarpId) (x : Warp) (b : Bundle) (f : FmtS) (ty : Ty), Issuing s w x b →
    let t := s.issued w
    let y := x.presented
    let i := mkIss s w x b 8
    let o := treeOpds y f
    f.sa.toNat < s.allotOf w → wholeWarp i y b.mask = true → x.vFull f.sa.toNat = true →
    (∀ L < 32, (x.lane f.sa.toNat L).p = false) → SysReady x (fourOf f.sb) [f.d.toNat] → o.offenders = [] →
    GenFree t i y .wr none false 8 (i.onePlace o.result ++ i.onePlace o.status ++ i.onePlace o.counter) →
    ∀ g, CommitReady t w g y →
    let c := t.committed w g y b.mask i.fall
    Completes (.rtree ty f) s w x b 8 true ((c.sendLeaf i y f ty f.d.toNat o).fallThrough i)

/-- The copies complete: CPA and CPA.GCM commit and start the copy, the joins answer the first bad status of completed IDs,
CPPOLL leaves its read of a status word in flight. Which bytes of an overlap are free is the model's reading
(notes/assumptions/16 and 58). -/
def Obligations.CopiesComplete : Prop :=
  ∀ (s : State) (w : WarpId) (x : Warp) (b : Bundle) (f : FmtS), Issuing s w x b →
    let t := s.issued w
    let y := x.presented
    let i := mkIss s w x b 8
    (∀ (gcm : Bool) (ins : Instr), (gcm = false ∧ ins = .cpa f ∨ gcm = true ∧ ins = .cpaGcm f) →
      let srcs := fourOf f.sa ++ if gcm then [f.sb.toNat, f.sb.toNat + 1] else []
      let o := copyOpds y f gcm
      SysReady x srcs [] → wholeWarp i y b.mask = true → o.offenders = [] → mayCopyDst o.dsp = true →
      mayCopySrc o.ssp = true → o.outside t i = none → o.gcmCheck t i y = .ok () → t.sealedFor i [o.dsp, o.ssp] = false →
      (t.isTwin w.g = false → t.idBusy w.g o.id = false ∧ (t.copies.filter fun c => decide (c.core = i.core)).length < 64) →
      ∀ g, CommitReady t w g y →
      let c := t.committed w g y b.mask i.fall
      Completes ins s w x b 8 true ((if t.isTwin w.g then c else c.startCopy i o).fallThrough i)) ∧
    (∀ (ins : Instr) (ids : List Nat),
      (ins = .cpwait f ∧ SysReady x [f.sa.toNat] [f.d.toNat] ∧ ids = (List.range 64).filter fun n => (x.gv f.sa).getLsbD n) ∨
      (ins = .cpwaitId f ∧ SysReady x [] [f.d.toNat] ∧ ids = [fld f.imm.toNat 0 6]) →
      (∀ n ∈ ids, t.idBusy w.g n = false) →
      let st := fun n => ((t.group? w.g).map fun g => sgetD g.ids n 2).getD (2 : DWord)
      let bad := ids.find? fun n => decide ((st n).toNat % 32 ≠ 0) && decide ((st n).toNat % 32 ≠ 2)
      Completes ins s w x b 8 false (t.putG w f.d.toNat ((bad.map st).getD 0))) ∧
    (SysReady x [] [f.d.toNat] →
      Completes (.cppoll f) s w x b 8 false
        ((t.startLoad w (.poll (fld f.imm.toNat 0 6) f.d.toNat) [] 0 []).updWarp w fun z => z.emptyG f.d.toNat))

/-- CCTL completes: INV empties the core's copies, INVR drops those of a range, WAYSET installs posted masks. The ways of
WAYSET stand in the model's own form (notes/assumptions/60). -/
def Obligations.CacheControlCompletes : Prop :=
  ∀ (s : State) (w : WarpId) (x : Warp) (b : Bundle) (f : FmtS), Issuing s w x b →
    let t := s.issued w
    let i := mkIss s w x b 8
    let key := l2wKey i.ctx (sectorOf i.core)
    Completes (.cctlInv f) s w x b 8 false (t.setCore i.core Core.empty) ∧
    (SysReady x [f.sa.toNat, f.sb.toNat] [] →
      Completes (.cctlInvr f) s w x b 8 false (t.dropRange i.core i.ctx (x.gv f.sa).toNat (x.gv f.sb).toNat)) ∧
    (SysReady x [] [f.d.toNat] → (t.l2wOf key).posted = none →
      Completes (.cctlWayset f) s w x b 8 false (t.putG w f.d.toNat 1)) ∧
    (∀ m, SysReady x [] [f.d.toNat] → (t.l2wOf key).posted = some m → t.l2wBusy key = false →
      Completes (.cctlWayset f) s w x b 8 false ((t.installWays key m).putG w f.d.toNat 0))

/-- The ordering instructions complete: FENCE, ACQ, REL, BIND and UNBIND. That the commit and the release are two parts of
one presented instruction is the model's choice (notes/assumptions/57). -/
def Obligations.OrderingCompletes : Prop :=
  ∀ (s : State) (w : WarpId) (x : Warp) (b : Bundle) (f : FmtS), Issuing s w x b →
    let t := s.issued w
    let y := x.presented
    let i := mkIss s w x b 8
    let scope := immScope f.imm
    (∀ u z, (if f.imm.getLsbD 1 then ReleaseReady t i y scope u else u = t) → u.warp? w = some z →
      (f.imm.getLsbD 0 = true → z.loadsDone = true) → (f.imm.getLsbD 2 = true → u.atomsDone w = true) →
      (f.imm.getLsbD 3 = true → u.enginesDone w = true) →
      let v := if f.imm.getLsbD 4 then u.acquire i.core i.ctx scope none else u
      Completes (.fence f) s w x b 8 (f.imm.getLsbD 1) (if f.imm.getLsbD 1 then v.fallThrough i else v)) ∧
    (let a := (x.gv f.sa).toNat;
      SysReady x [f.sa.toNat] [f.d.toNat] → a % 8 = 0 → ReadFree t i y 8 (i.onePlace a) →
      (2 ≤ scope → t.askRemote w (fun n => .read (128 * n)) [lineOf (t.paOf i a .rd)] = .ok ()) →
      let r := t.acqRead i y a scope
      Completes (.acq f) s w x b 8 false
        (((r.2.touch i.core i.ctx a .rd).acquire i.core i.ctx scope (t.boundRanges i.ctx a)).updWarp w fun z =>
          (z.setG f.d.toNat r.1).fillG f.d.toNat)) ∧
    (∀ u, let a := (x.gv f.sa).toNat;
      SysReady x [f.sa.toNat] [f.sb.toNat] → a % 8 = 0 →
      (x.releasing = false → GenFree t i y .wr none true 8 (i.onePlace a) ∧
        (t.isTwin w.g = false → t.askOwn w [lineOf (t.paOf i a .wr)] = .ok ())) →
      let held := if x.releasing then t else
        (t.touch i.core i.ctx a .wr).updWarp w fun z => { z with relPa := t.paOf i a .wr }
      ReleaseReady held i y scope u →
      Completes (.rel f) s w x b 8 true ((u.writeThrough w a (((u.warp? w).map Warp.relPa).getD 0) (leBytes (x.gv f.sb).toNat 8)
        (x.greg f.sb.toNat).p).fallThrough i)) ∧
    (SysReady x [f.sa.toNat, f.sb.toNat, f.sb.toNat + 1] [f.d.toNat] →
      let r := bindStatus (t.ctxOf i.ctx).binds (x.gv f.sa).toNat (x.gv f.sb).toNat (x.gv (f.sb + 1)).toNat
      Completes (.bind f) s w x b 8 false ((t.setBinds i.ctx (x.gv f.sa).toNat r.2).putG w f.d.toNat (BitVec.ofNat 64 r.1))) ∧
    (SysReady x [f.sa.toNat] [] →
      Completes (.unbind f) s w x b 8 false (t.setBinds i.ctx (x.gv f.sa).toNat (sdel (t.ctxOf i.ctx).binds (x.gv f.sa).toNat)))

/-- The barrier instructions complete: BARSET and BARQ at once, BARARV and BARSYNC for threads that have not yet arrived in
this phase, BARWT where the phase it names is over, broken under a limit, or its limit has passed. That the limit of a BARWT
is kept for its PC, and how a thread that parks presents its barrier again, are the model's readings (notes/assumptions/24
and 50). -/
def Obligations.BarriersComplete : Prop :=
  ∀ (s : State) (w : WarpId) (x : Warp) (b : Bundle) (f : FmtS), Issuing s w x b →
    let t := s.issued w
    let y := x.presented
    let i := mkIss s w x b 8
    let g := barGang f.imm
    let n := barNum f.imm
    let bar := t.barOf i f
    (SysReady x [] [f.d.toNat] →
      let r := barsetResult bar (fld f.imm.toNat 7 10) (t.barCapacity i f) (t.participants w g)
      Completes (.barset f) s w x b 8 false ((t.setBar w g n r.2).putG w f.d.toNat (BitVec.ofNat 64 r.1)) ∧
      Completes (.barq f) s w x b 8 false (t.putG w f.d.toNat bar.word)) ∧
    (x.handler = none → t.barBroken i y f = false → sgetD bar.marks (t.barKey w g) 0 &&& b.mask = 0 →
      (∀ gr, SysReady x [] [f.d.toNat] → CommitReady t w gr y →
        let c := t.committed w gr y b.mask i.fall
        Completes (.bararv f) s w x b 8 true
          (((c.barArrive w g n b.mask).putG w f.d.toNat (if (c.barOf i f).gen then 1 else 0)).fallThrough i)) ∧
      (∀ u, ReleaseReady t i y (if g then 2 else 1) u →
        Completes (.barsync f) s w x b 8 true
          (((u.fallThrough i).updWarp w fun z => z.syncAt g n b.mask b.at_).barArrive w g n b.mask))) ∧
    (x.handler = none → SysReady x ([f.sa.toNat] ++ if f.sb = 0 then [] else [f.sb.toNat]) [f.d.toNat] →
      let back := fun (v : DWord) =>
        (t.updWarp w fun z => (z.mendBar f b.mask).dropLimit b.at_.pc.toNat b.mask).putG w f.d.toNat v
      let hurt := g = true ∧ sgetD x.broken n 0 &&& b.mask ≠ 0
      (bar.gen ≠ (x.gv f.sa).getLsbD 0 → ¬hurt → Completes (.barwt f) s w x b 8 false (back 0)) ∧
      ((bar.gen = (x.gv f.sa).getLsbD 0 ∨ hurt) → f.sb ≠ 0 → t.barBroken i y f = true → Completes (.barwt f) s w x b 8 false (back 2)) ∧
      (bar.gen = (x.gv f.sa).getLsbD 0 → f.sb ≠ 0 → t.barBroken i y f = false →
        y.limitPassed b.at_.pc.toNat (fld (x.gv f.sb).toNat 0 32) = true → Completes (.barwt f) s w x b 8 false (back 1)))

/-- The engine's instructions complete (R323 to R330): with the lease, whole-warp operands and a commit, MXCFG sets the check
mode and MXW, MXA and MXZ enter their operation in the engine's queue; in the twin of a redundant pair the primary's
operation stands for both. Words that raced with a write, and the details of an engine fault, are the model's choices
(notes/assumptions/52, 53 and 54). -/
def Obligations.EngineOperationsComplete : Prop :=
  ∀ (s : State) (w : WarpId) (x : Warp) (b : Bundle) (f : FmtS), Issuing s w x b →
    let t := s.issued w
    let y := x.presented
    let i := mkIss s w x b 8
    let ab := ((t.group? w.g).map Group.ab).getD Mem.empty
    let cb := ((t.group? w.g).map Group.cb).getD Mem.empty
    let wb := ((t.group? w.g).map Group.wb).getD Mem.empty
    let enters := fun (ins : Instr) (run : State → State) (t0 u : State) =>
      ∀ g z, CommitReady u w g z → wholeWarp i y b.mask = true → mxGate t i y = .ok () → mxHold t0 i y = .ok u →
        let c := u.committed w g z b.mask i.fall
        Completes ins s w x b 8 true ((if c.isTwin w.g then c else run c).fallThrough i)
    (∀ u, enters (.mxcfg f)
      (fun v => v.updGroup w.g fun g => { g with chk := bitsAt f.imm 0 2 }) t u) ∧
    (let d := (x.gv f.sa).toNat
      let a := (x.gv f.sb).toNat
      let words := t.readWords i y d 16
      let desc := leBytes (wordsNat words) 64;
      SysReady x [f.sa.toNat, f.sb.toNat] [] → d % 64 = 0 → a % 128 = 0 →
      ReadFree t i y 64 (i.onePlace d) → (∀ e ∈ words, e.2 = false) → t.covers i .wb a (tileSize desc) = true →
      markedIn wb a (tileSize desc) = none →
      ∀ u, enters (.mxw f)
        (fun v =>
          let r : MxwRec := ⟨a, desc, tileChk desc (((v.group? w.g).map Group.chk).getD 0)⟩
          (v.updGroup w.g fun g => { g with lastMxw := some r, weights := true }).issueOp i (.w r)) (t.fillRead i d) u) ∧
    (let o := mxaOpds y f;
      SysReady x [f.sa.toNat, f.sa.toNat + 1, f.sb.toNat] [] → o.misaligned = none → o.outside t i ab = [] →
      o.marked ab cb = [] →
      ∀ u, (followed t i y = true ∨ u.hasWeights w.g = true) →
        enters (.mxa f)
          (fun v => (v.countMxa i.core).issueOp i (.a o.arow o.stride o.afmt o.m o.cdst)) t u) ∧
    (let a := (x.gv f.sa).toNat
      let cdst := fld a 0 32
      let m := fld a 32 8 + 1;
      SysReady x [f.sa.toNat] [] → cdst % 512 = 0 → t.covers i .cb cdst (512 * m) = true →
      ∀ u, enters (.mxz f) (fun v => v.issueOp i (.z cdst m)) t u)

/-- MXRD leaves a read of CB in flight that waits for the operations already issued; MXWR enters its 32 words as an operation
(R328, R329). The bytes of a lost operation are the model's choice (notes/assumptions/54). -/
def Obligations.EngineTransfersComplete : Prop :=
  ∀ (s : State) (w : WarpId) (x : Warp) (b : Bundle) (f : FmtV), Issuing s w x b → VecReady s w x b false specMxrd f →
    let t := s.issued w
    let y := x.presented
    let i := mkIss s w x b (unitSize f.pfx)
    let v := vecOperands s w x b false specMxrd f
    let open_ := fun L => v.cbOff L % 4 = 0 ∧ t.covers i .cb (v.cbOff L) 4 = true
    wholeWarp i y v.act = true → (∀ L < 32, (v.a.read y L).2 = false ∧ (v.b.read y L).2 = false ∧ open_ L) →
    (mxPending t i y = .ok () → t.mxrdEarly w y = false →
      Completes (.mxrd f) s w x b (unitSize f.pfx) false ((t.updWarp w fun z => { z with mxrds := z.mxrds + 1 }).startLoad w (.cb (t.mxBefore w)) v.d.regs 0 ((List.range 32).map
        fun L => { lane := L, reg := (v.d.regs).headD 0, addr := v.cbOff L, va := 0, n := 4, fwd := [], fwdP := none }))) ∧
    (∀ u g z, mxGate t i y = .ok () → mxHold t i y = .ok u → CommitReady u w g z →
      let c := u.committed w g z b.mask i.fall
      Completes (.mxwr f) s w x b (unitSize f.pfx) true ((if c.isTwin w.g then c else c.issueOp i (.wr ((List.range 32).map
        fun L => (v.cbOff L, ⟨((v.d.read y L).1.setWidth 32), (v.d.read y L).2⟩)))).fallThrough i))

/-- MXLEASE answers 0 to the holder, 1 to a TRY that finds the engine taken, and 0 when the engine is granted at once; MXFREE
gives the lease up (R324). The answers while the engine is Expiring or in Reset are the model's reading
(notes/assumptions/51). -/
def Obligations.LeasesComplete : Prop :=
  ∀ (s : State) (w : WarpId) (x : Warp) (b : Bundle) (f : FmtS), Issuing s w x b →
    let t := s.issued w
    let y := x.presented
    let i := mkIss s w x b 8
    wholeWarp i y b.mask = true → mxPending t i y = .ok () →
    (SysReady x [] [f.d.toNat] → t.isTwin w.g = false → ∀ (v : DWord) (u : State),
      (t.leaseView w.g = 1 ∨ t.leaseView w.g = 2) ∧ v = 0 ∧ u = t ∨
      (t.leaseView w.g = 0 ∨ 3 ≤ t.leaseView w.g) ∧ f.imm.getLsbD 0 = true ∧ (t.engine i.core).st ≠ .idle ∧ v = 1 ∧ u = t ∨
      t.leaseView w.g ≠ 1 ∧ t.leaseView w.g ≠ 2 ∧ t.leaseView w.g ≠ 4 ∧
        ¬(f.imm.getLsbD 0 = true ∧ (t.engine i.core).st ≠ .idle) ∧ v = 0 ∧ u = t.askLease i.core w.g ∧ u.leaseView w.g = 1 →
      ∀ g z, CommitReady u w g z →
        let c := u.committed w g z b.mask i.fall
        Completes (.mxlease f) s w x b 8 true (((c.mailTwin w (.g v)).putG w f.d.toNat v).fallThrough i)) ∧
    (∀ g, CommitReady t w g y →
      let c := t.committed w g y b.mask i.fall
      Completes (.mxfree f) s w x b 8 true ((if c.isTwin w.g then c else c.mxfree i.core w.g).fallThrough i))

/-- WAITU completes: after the commit every thread of the bundle waits at the following header with gD and gD+1 empty, and
the wait it names is evaluated on its lines (R303). That every entry is installed in the instruction's own step is the
model's choice (notes/assumptions/39). -/
def Obligations.WaitsComplete : Prop :=
  ∀ (s : State) (w : WarpId) (x : Warp) (b : Bundle) (f : FmtM) (cc : WaitCc), Issuing s w x b → x.handler = none →
    MemFull s w x b (specWaitu cc f.ty) f →
    let t := s.issued w
    let y := x.presented
    let i := mkIss s w x b (unitSize f.pfx)
    let m := memOperands s w x b (specWaitu cc f.ty) f
    let d := f.d.toNat
    let ctl := x.greg d
    let n := waitBytes f.ty
    ctl.p = false → (∀ L < 32, inMask m.act L = true → m.addrPsn L = false ∧ (m.waitOperand cc L).2 = false) →
    SpaceFree t i f.sp (decide (f.sp = .gen) || decide (f.sp = .l2w)) n n m.places →
    waitReady t i y f.sp m.places = .ok () → ∀ g, CommitReady t w g y →
    let c := t.committed w g y b.mask i.fall
    c.isTwin w.g = false →
    (isGen f.sp = true → ∀ e ∈ m.places, t.txnChk i y e.2 = .ok) →
    let id := c.fresh.1
    let wait : Wait :=
      { ctx := i.ctx, who := .bundle w b.mask d, sp := f.sp, cc, ty := f.ty, any := ctl.v.getLsbD 32,
        acq := if ctl.v.getLsbD 33 then some (fld ctl.v.toNat 34 3) else none,
        lanes := m.places.map fun e => ⟨e.1, t.watchAt i f.sp e.2, (m.waitOperand cc e.1).1, none, false⟩, entries := [] }
    let lost := maskOfList ((m.places.filter fun e => isGen f.sp && (match t.gate (t.atomPa i e.2) with
      | .lost _ => true
      | _ => false)).map Prod.fst)
    let u := ((c.fresh.2.mailTwin w (.g (BitVec.ofNat 64 id))).touchAll i f.sp .wait m.places).tieL2w w f.sp
    Completes (.waitu cc f) s w x b (unitSize f.pfx) true
      ((u.parkWait i d id).openWait i id wait lost 0 (ctl.v.getLsbD 33 && decide (5 < fld ctl.v.toNat 34 3))).1

/-- LAUNCH completes: the packet is read, the warp commits and releases at SYS scope, and gD is 0 for an accepted packet or
the reason it is refused (R98, R117). When the packet's words enter the signature of a redundant warp is the model's reading
(notes/assumptions/27). -/
def Obligations.LaunchCompletes : Prop :=
  ∀ (s : State) (w : WarpId) (x : Warp) (b : Bundle) (f : FmtS), Issuing s w x b →
    SysReady x [f.sa.toNat, f.sb.toNat] [f.d.toNat] →
    let t := s.issued w
    let y := x.presented
    let i := mkIss s w x b 8
    let a := (x.gv f.sa).toNat
    let ws := t.readWords i y a 16
    a % 64 = 0 →
    (x.releasing = false → ReadFree t i y 64 (i.onePlace a) ∧ ∀ e ∈ ws, e.2 = false) →
    let d := y.packet ws
    ∀ u, ReleaseReady ((if x.releasing then t else t.fillRead i a).keepPacket w d) i y 5 u →
    u.isTwin w.g = false →
    let r := u.submit i.ctx (x.gv f.sb).toNat (fld f.imm.toNat 0 6) d
    let v : DWord := BitVec.ofNat 64 r.1
    Completes (.launch f) s w x b 8 true (((r.2.mailTwin w (.g v)).putG w f.d.toNat v).fallThrough i)

/-- PUT completes: checked, admitted and committed, it leaves its send in flight with its ID pending (R378, R379). That a PUT
to the package itself is admitted at once is the model's choice (notes/assumptions/55). -/
def Obligations.PutCompletes : Prop :=
  ∀ (s : State) (w : WarpId) (x : Warp) (b : Bundle) (f : FmtS), Issuing s w x b →
    SysReady x (fourOf f.sa ++ [f.sb.toNat]) [] →
    let t := s.issued w
    let y := x.presented
    let i := mkIss s w x b 8
    let o := putOpds y f
    wholeWarp i y b.mask = true → t.isTwin w.g = false → ∀ h, o.route t i y = .ok h → t.idBusy w.g o.id = false →
    t.engineLoad i.core < 64 → t.sendLoad i.core + o.b ≤ 524288 → o.present t i = .ok () →
    t.sealedFor i [o.ssp] = false →
    (h = t.pkg ∨ ∀ a ∈ lineVas o.src o.b, (t.sendLine i y o.ssp a).poisoned = false) → t.admitPut i o h = .ok t →
    ∀ g, CommitReady t w g y →
    let c := t.committed w g y b.mask i.fall
    c.isTwin w.g = false → Completes (.put f) s w x b 8 true ((c.sendPut i y o h).fallThrough i)

/-- RECONF completes where its result stands: a slot that was invalid when it was tested gives 1, a generation that is not
TGEN gives 2, another slot or generation than the gathering round's gives 1, and a round that it has joined leaves the result it
brought about (R375). How the instruction waits for its round is the model's choice (notes/assumptions/55). -/
def Obligations.ReconfCompletes : Prop :=
  ∀ (s : State) (w : WarpId) (x : Warp) (b : Bundle) (f : FmtS), Issuing s w x b →
    SysReady x [f.sa.toNat, f.sb.toNat] [f.d.toNat] →
    let t := s.issued w
    let y := x.presented
    let i := mkIss s w x b 8
    (x.releasing = true ∨ t.fabricControl i.ctx = true) →
    ∀ u, (if x.releasing then u = t else ∃ g, CommitReady t w g y ∧
      u = (t.committed w g y b.mask i.fall).updWarp w fun z =>
        { z with releasing := true }) →
    u.isTwin w.g = false →
    let slot := fld f.imm.toNat 0 3
    let e := bitsAt (x.gv f.sa) 0 32
    let back := fun (r : DWord) =>
      let v := u.updWarp w fun z => { z with mail := sdel (sdel z.mail roundMail) roundValid }
      Completes (.reconf f) s w x b 8 true (((v.mailTwin w (.g r)).putG w f.d.toNat r).fallThrough i)
    let mail := ((u.warp? w).map Warp.mail).getD []
    let refused := sget? mail roundValid = none ∧ (vget u.slots slot TopoSlot.reset).valid = false
    (∀ m, sget? mail roundMail = some m → back m.gVal) ∧
    (sget? mail roundMail = none → (∀ r, u.round = some r → w ∉ r.warps) →
      (refused → back (reconfWord 1 u.tgen)) ∧
      (¬ refused → (∀ r, u.round = some r → r.phase = .gather) →
        (e ≠ u.tgen → back (reconfWord 2 u.tgen)) ∧
        (e = u.tgen → ∀ r, u.round = some r → r.slot ≠ slot ∨ r.gen ≠ e → back (reconfWord 1 u.tgen))))

/-- In the twin of a redundant pair the instructions whose answer the hardware gives once take the primary's answer: MXLEASE,
LAUNCH and RECONF from the mail their primary left (R172). That the answer waits in a mail of the primary's is the model's
form (notes/assumptions/54). -/
def Obligations.TwinsFollow : Prop :=
  ∀ (s : State) (w : WarpId) (x : Warp) (b : Bundle) (f : FmtS), Issuing s w x b →
    let t := s.issued w
    let y := x.presented
    let i := mkIss s w x b 8
    let got := fun (ins : Instr) (u : State) => u.isTwin w.g = true → ∀ m v, u.takeMail w = .ok (m, v) →
      Completes ins s w x b 8 true ((v.putG w f.d.toNat m.gVal).fallThrough i)
    (SysReady x [] [f.d.toNat] → wholeWarp i y b.mask = true → mxPending t i y = .ok () → t.isTwin w.g = true →
      ∀ g, CommitReady t w g y → got (.mxlease f) (t.committed w g y b.mask i.fall)) ∧
    (SysReady x [f.sa.toNat, f.sb.toNat] [f.d.toNat] →
      (x.releasing = true ∨ t.fabricControl i.ctx = true) →
      ∀ u, (if x.releasing then u = t else ∃ g, CommitReady t w g y ∧
        u = (t.committed w g y b.mask i.fall).updWarp w fun z =>
          { z with releasing := true }) → got (.reconf f) u) ∧
    (SysReady x [f.sa.toNat, f.sb.toNat] [f.d.toNat] →
      let a := (x.gv f.sa).toNat
      let ws := t.readWords i y a 16;
      a % 64 = 0 → (x.releasing = false → ReadFree t i y 64 (i.onePlace a) ∧ ∀ e ∈ ws, e.2 = false) →
      let d := y.packet ws
      ∀ u, ReleaseReady ((if x.releasing then t else t.fillRead i a).keepPacket w d) i y 5 u →
        got (.launch f) u)

/-- Results in flight arrive: a special function, a load and an atomic are delivered to their registers; a read of CB waits
for the engine operations before it; a queued atomic is performed with the other lanes of its instruction, a hot line goes
cold, a line changes owner once no other package holds it, a barrier limit passes. The limit of a BARWT (notes/assumptions/24),
when a flying load takes its bytes (56), and the queues of hot lines with the passing of ownership (59) are the model's
choices. -/
def Obligations.WritebacksHappen : Prop :=
  ∀ (s : State) (w : WarpId) (x : Warp), s.warp? w = some x →
    (∀ reg e, x.sfus.find? (fun u => decide (u.reg = reg)) = some e →
      Happens (.specialFunctionWriteback w reg) s (s.updWarp w fun x =>
        match x.sfus.find? fun e => decide (e.reg = reg) with
        | none => x
        | some e =>
          (({ x with sfus := x.sfus.filter fun u => decide (u.reg ≠ reg) }.setV reg (Vector.ofFn fun L =>
            if inMask e.mask L.val then e.val[L] else (x.vreg reg)[L])).fillV reg).orFstat e.flags)) ∧
    (∀ id l, x.loads.find? (fun k => decide (k.id = id)) = some l →
      (∀ sp z c f, l.kind = .mem sp z c f → s.loadAway w l ≠ [] →
        Happens (.loadWriteback w id) s (((s.loadAway w l).foldl State.askRecall s).addDue (.loadWriteback w id))) ∧
      (∀ sp z c f, l.kind = .mem sp z c f → s.loadAway w l = [] →
        Happens (.loadWriteback w id) s ((s.fillCopies w l).updWarp w fun x =>
          { x with loads := x.loads.filter fun k => decide (k.id ≠ id) }.deliverAll l.regs l.zero (s.loadVals w l))) ∧
      (∀ after, l.kind = .cb after →
        (s.mxLive (s.coreOf (s.primaryWarp w)) after = false →
          Happens (.loadWriteback w id) s ((s.fillCopies w l).updWarp w fun x =>
            { x with loads := x.loads.filter fun k => decide (k.id ≠ id) }.deliverAll l.regs l.zero (s.loadVals w l))) ∧
        (s.mxLive (s.coreOf (s.primaryWarp w)) after = true →
          Happens (.loadWriteback w id) s (s.addDue (.loadWriteback w id)))) ∧
      (∀ cid d, l.kind = .poll cid d →
        Happens (.loadWriteback w id) s ((s.fillCopies w l).updWarp w fun x =>
          ({ x with loads := x.loads.filter fun k => decide (k.id ≠ id) }.setG d
            ⟨((s.group? w.g).map fun (g : Group) => sgetD g.ids cid 2).getD 2, false⟩).fillG d))) ∧
    (∀ id a, x.atoms.find? (fun b => decide (b.id = id)) = some a → s.isTwin w.g = false → a.left = 0 →
      s.twinOf w.g = none →
      Happens (.atomicWriteback w id) s (s.updWarp w fun x =>
        { x with atoms := x.atoms.filter fun b => decide (b.id ≠ id) }.deliverAll a.regs a.zero a.res)) ∧
    (∀ pc g, s.group? w.g = some g → g.st = .resident → sget? x.barLimit pc = some false →
      Happens (.barwtLimit w pc) s ((s.setWarp w { x with barLimit := sset x.barLimit pc true }).wakeWarp w)) ∧
    (∀ line q r, sget? s.hot line = some (q :: r) →
      let own := r.takeWhile fun p => decide (p.wid = q.wid) && decide (p.id = q.id)
      Happens (.hotQueueRetire line) s (({ s with hot := sset s.hot line (r.drop own.length) }).performAll (q :: own))) ∧
    (∀ line, sget? s.hot line = some [] → Happens (.hotModeExpiry line) s { s with hot := sdel s.hot line }) ∧
    (∀ core line, s.recallWaits line = false → Happens (.ownershipRequest core line) s (s.takeOwnership core line)) ∧
    (∀ core line, s.recallWaits line = true → Happens (.ownershipRequest core line) s
      { s.askRecall line with ownAsks := addOnce (core, line) (s.askRecall line).ownAsks })

/-- A contribution reaches its sector's tree (R286): without a legal shape it is dropped with status 5, with the tag just
closed with 3; it opens an instance, joins one with its tag and its fields, or is dropped with 4 or 2; a timeout closes an
open instance, and a closed one writes its results once its targets can be reached. When the last leaf and
a timeout decide, and what the closing waits for, are the model's reading (notes/assumptions/38). -/
def Obligations.TreesHappen : Prop :=
  ∀ (s : State),
    (∀ id c, s.contribs.find? (fun c => decide (c.id = id)) = some c →
      let key := treeKey c.ctx c.sector c.shape
      let arrives := fun (t : State) => Happens (.contribution id) s t
      (sget? s.trees key = none → s.shapeAt c.sector c.shape = none → arrives (s.dropLeaf c 5)) ∧
      (∀ sh, sget? s.trees key = none → s.shapeAt c.sector c.shape = some sh →
        (sh.leaves.getLsbD c.leaf = false → arrives (s.dropLeaf c 5)) ∧
        (sh.leaves.getLsbD c.leaf = true → sget? s.lastTag key = some c.tag → arrives (s.dropLeaf c 3)) ∧
        (sh.leaves.getLsbD c.leaf = true → sget? s.lastTag key ≠ some c.tag →
          arrives (s.recordLeaf key ⟨sh, [], false, none, [], []⟩ c))) ∧
      (∀ t o r, sget? s.trees key = some t → t.got = o :: r →
        let same := o.ty = c.ty ∧ o.result = c.result ∧ o.status = c.status ∧ o.counter = c.counter ∧
          ∀ x ∈ t.got, x.leaf ≠ c.leaf
        (o.tag ≠ c.tag → arrives (s.dropLeaf c 4)) ∧ (o.tag = c.tag → ¬same → arrives (s.dropLeaf c 2)) ∧
        (o.tag = c.tag → same → arrives (s.recordLeaf key t c)))) ∧
    (∀ inst t, sget? s.trees inst = some t → t.closing = none → Happens (.rtreeTimeout inst) s (s.beginClose inst t 1)) ∧
    (∀ id name t c r, s.contribs.find? (fun c => decide (c.id = id)) = none →
      s.trees.find? (fun e => e.2.closing.isSome && decide ((e.2.got.head?.map Contrib.id) = some id)) = some (name, t) →
      t.got = c :: r →
      let timeout := decide (t.closing = some 1)
      closeWait s t c ((if timeout then [] else [c.result]) ++ [c.status, c.counter]) = none →
      Happens (.contribution id) s (closeTree { s with trees := sdel s.trees name } t c timeout))

/-- A copy goes forward (R243, R245, R247): a line's share is written at once, a GCM copy's only after its tag; the tag
releases the plain text or fails the copy with status 5; at the end the ID holds the status. -/
def Obligations.CopiesProgress : Prop :=
  ∀ (s : State) (id : Nat) (c : Copy), s.copies.find? (fun c => decide (c.id = id)) = some c →
    (∀ line gs onto, c.err = none → line ∈ c.todo → (c.gcm = none ∨ c.verified = true) →
      gather ((List.range 8).filterMap fun j => (c.granule s (128 * line + 16 * j)).map fun g => (128 * line + 16 * j, g)) =
        .ok gs → c.place s line = .ok onto →
      let m := movedTo onto (granuleCells gs) (granulePsn gs)
      let u := c.keepTier s gs
      let t := if isGen c.dsp then u.engineStore c.ctx (u.coresFor c.wid) onto m.1 m.2
          else u.localWrite c.iss c.dsp line (granuleCells gs) (granulePsn gs)
      Happens (.copyLineWrite id line) s (((t.scrUpd c.wid c.dsp line fun g k => g.landed k id).updCopy id fun x =>
        { x with todo := x.todo.filter (· ≠ line) }).wakeParked)) ∧
    (∀ key stream ctr gs, c.gcm = some (key, stream, ctr) → c.verified = false → c.err = none →
      gather (((List.range (c.bytes / 16)).map fun j => (c.src + 16 * j, c.read s (c.src + 16 * j))) ++
        [(c.src + c.bytes, c.readTag s)]) = .ok gs →
      let v := c.keepSources s (gs.map Prod.fst)
      let body := gs.take (c.bytes / 16)
      let cipher := (body.map fun e => e.2.data).flatten
      let tag := ((gs.drop (c.bytes / 16)).map fun e => e.2.data).flatten
      let psn := (body.map fun e => (List.range 16).map fun j => e.2.psn.getD (j / 4) false).flatten
      let plain := Config.gcmPlain key stream ctr cipher
      ((Config.gcmTag key stream ctr cipher).toList = tag → Happens (.tagVerify id) s (v.updCopy id fun x =>
        { x with verified := true, plain := psn.zipIdx.map fun e => (plain e.2, e.1) })) ∧
      ((Config.gcmTag key stream ctr cipher).toList ≠ tag → c.waiting v = none → Happens (.tagVerify id) s
        ((c.todo.foldl (fun t n => t.markTagFail c n) v).failCopy c 5 (128 * least c.todo) true))) ∧
    (c.err.isSome = true ∨ c.todo = [] →
      let v := c.err.getD 0
      let t := (s.endAbsent c (decide (v.toNat % 128 = 69))).setId c.wid.g c.cid v
      Happens (.copyEnd id) s
        (({ t with copies := t.copies.filter fun x => decide (x.id ≠ id) }.wakeParked).groupCheck c.wid.g))

/-- Monitor entries go forward (R298, R306 to R311): a sampled line and the spilled entries of a line are evaluated again, a
timeout that is not held ends its wait with status 1, a dependence is installed again, a line moves with its exact
entries. -/
def Obligations.MonitorsHappen : Prop :=
  ∀ (s : State),
    (∀ wait line, wait ∈ s.waitsOn line (fun e => !e.exact && !e.spilled) →
      Happens (.sampledEvaluation wait line) s (s.evalWait wait line)) ∧
    (∀ line, Happens (.spillScan line) s ((s.waitsOn line Entry.spilled).foldl (fun t w => t.evalWait w line) s)) ∧
    (∀ wait x w m d, sget? s.waits wait = some x → x.who = .bundle w m d → s.waitHeld x = false →
      Happens (.waitTimeout wait) s (s.endWait wait x 1 (latchedMask x.lanes) 0 0 false)) ∧
    (∀ kernel dep k va v y, s.kernel? kernel = some k → k.st = .pending → dep ∈ k.retry → nth? k.deps dep = some (va, v) →
      s.hubFind k va.toNat .wait = .ok y →
      Happens (.dependenceRetry kernel dep) s (s.installDep kernel dep y.pa v.toNat)) ∧
    (∀ line slice t, isL2w (128 * line) = false → s.homeOf (128 * line) = s.pkg → slice < 192 →
      s.moveEntries line slice (s.waitsOn line fun e => e.exact && !e.spilled) = .ok t →
      Happens (.lineMigration line slice) s { t with migrated := sset t.migrated line slice })

/-- The engine's events (R315, R316, R332, R333): its oldest operation completes, a lease expires when another group waits, a
failed comparison loses its operation and every later one, a watchdog resets the engine, and the reset completes. What an
engine reset leaves in the buffers is the model's choice (notes/assumptions/53 and 54). -/
def Obligations.EngineEventsHappen : Prop :=
  ∀ (s : State) (core : Nat), let e := s.engine core
    (∀ o r, e.ops = o :: r → e.st ≠ .reset → s.opWaits o = false →
      Happens (.mxOperationComplete core) s
        (let t := s.runOp core o
        let tile := if r.isEmpty && !t.hasWeights o.wid.g then none else (t.engine core).tile
        (t.setEngine core { t.engine core with ops := r, tile := tile }).opsEnded core [o.wid.g])) ∧
    (e.st = .granted → e.queue ≠ [] →
      Happens (.leaseExpiry core) s ((s.setEngine core { e with st := .expiring }).settleLease core)) ∧
    (∀ op, let m := checkMode (e.tile.map Tile.r) e.ops op
      (m.1.getLsbD 0 || (m.2.2 && m.2.1 && m.1.getLsbD 1)) = true →
      Happens (.checkFailure core op) s
        ((s.loseOps core (e.ops.take op) (e.ops.drop op) false).opsEnded core (e.ops.map fun o => o.wid.g))) ∧
    (e.st = .granted ∨ e.st = .expiring → e.ops ≠ [] →
      Happens (.watchdog core) s (let t := s.loseOps core [] e.ops true
        (t.setEngine core { t.engine core with st := .reset }).groupsCheck (e.ops.map fun o => o.wid.g))) ∧
    (∀ g, e.st = .reset → e.holder = some g →
      let q := e.queue.filter (· ≠ g)
      (e.ending = none → Happens (.engineResetComplete core) s
        ((s.setEngine core { e with st := if e.qleft = 0 ∧ q ≠ [] then .expiring else .granted, queue := q, tile := none }).settleLease
          core)) ∧
      (∀ why, e.ending = some why → Happens (.engineResetComplete core) s
        (((if why = .free then s.updGroup g Group.clearLease else s).setEngine core { e with st := .granted }).settleLease core)))

/-- The fabric's events (R374 to R376, R379, R380): an admission is answered, a PUT lands behind the earlier ones of its warp,
packages join and withdraw from a round, a coordinator refuses a join, and the round drains, switches and commits. How a
coordinator's refusal and another package's withdrawal reach this package is the model's choice (notes/assumptions/82). -/
def Obligations.FabricEventsHappen : Prop :=
  ∀ (s : State),
    (∀ id reply a, sget? s.admits id = some a → a.reply = none → (reply ≠ .txnTimeout ∨ s.timerHeld a.dest = false) →
      Happens (.putAdmission id reply) s { s with admits := sset s.admits id { a with reply := some reply } }) ∧
    (∀ id how p, s.puts.find? (fun p => decide (p.id = id)) = some p →
      (s.putBehind p = false → s.gateHome p.dest ≠ .hold → s.timerHeld p.dest = false →
        (s.putRecalls p = [] → Happens (.putLanding id how) s (s.landPut p how)) ∧
        (s.putRecalls p ≠ [] → Happens (.putLanding id how) s
          (((s.putRecalls p).foldl State.askRecall s).addDue (.putLanding id how)))) ∧
      (s.putBehind p = true ∨ s.gateHome p.dest = .hold → s.timerHeld p.dest = false →
        Happens (.putLanding id how) s (s.addDue (.putLanding id how)))) ∧
    (∀ pkg slot gen, pkg ≠ s.pkg → pkg ∈ s.topoGroup → gen = s.tgen → s.roundOn = false →
      (s.round = none →
        Happens (.join pkg slot gen) s ({ s with round := some ⟨slot, gen, [pkg], [], .gather, 0⟩ }.roundCheck)) ∧
      (∀ r, s.round = some r → r.slot = slot → r.gen = gen →
        Happens (.join pkg slot gen) s ({ s with round := some { r with joins := addOnce pkg r.joins } }.roundCheck)) ∧
      (∀ r, s.round = some r → ¬(r.slot = slot ∧ r.gen = gen) → Happens (.join pkg slot gen) s (s.say (.refused pkg)))) ∧
    (∀ w r, s.round = some r → r.phase = .gather → w ∈ r.warps →
      let ws := r.warps.filter (· ≠ w)
      let js := if ws.isEmpty then r.joins.filter (· ≠ s.pkg) else r.joins
      let t := { s with round := if js.isEmpty then none else some { r with warps := ws, joins := js } }
      Happens (.gatherTimeout w) s ((if ws.isEmpty then t.tellCoordinator r.slot r.gen false else t).updWarp w fun x =>
        { x with mail := sset x.mail roundMail (.g (reconfWord 3 s.tgen)) })) ∧
    (∀ r, s.round = some r → r.phase = .gather →
      let left := fun (p : Nat) (ws : List WarpId) =>
        let js := r.joins.filter (· ≠ p)
        ({ s with round := if js.isEmpty then none else some { r with warps := ws, joins := js } } : State)
      (s.coordinator ≠ s.pkg → Happens (.join s.pkg r.slot r.gen) s (r.warps.foldl (fun t w => t.updWarp w fun x =>
        { x with mail := sset x.mail roundMail (.g (reconfWord 1 s.tgen)) }) (left s.pkg []))) ∧
      ∀ pkg, pkg ≠ s.pkg → Happens (.registerWrite (.withdraws pkg)) s (left pkg r.warps)) ∧
    (∀ r, s.round = some r →
      (r.phase = .drain → s.drained r.mark = true →
        Happens .drainComplete s ({ s.clearSent with round := some { r with phase := .switch } }.addDue .switch)) ∧
      (r.phase = .switch →
        let t := vget s.slots r.slot TopoSlot.reset
        Happens .switch s ({ (List.range 16).foldl (fun (u : State) n => (u.drivePort t n).say (.circuit n (t.circuitOf n)))
          { s with active := some t } with
          round := some { r with phase := .retrain } }.addDue .commitStep)) ∧
      (r.phase = .retrain → Happens .commitStep s (r.warps.foldl (fun (t : State) w => t.updWarp w fun x =>
        { x with mail := sset x.mail roundMail (.g (reconfWord 0 (s.tgen + 1))) }) { s with tgen := s.tgen + 1, round := none }).retryAsks))

/-- The links' events (R365 to R368, R371, R372): a port trains, comes up at the width its summaries agree on, fails at the
third mismatch, repairs a fault with a spare or narrows while it carries packets, replays a flit; a packet is delivered,
forwarded or dropped; firmware writes slots, shapes and grants. How a retraining link comes up, the count of lasers and spares, and the numbering
after a dropped packet are the model's choices (notes/assumptions/40, 41 and 42). -/
def Obligations.LinkEventsHappen : Prop :=
  ∀ (s : State) (n : Nat), n < 16 →
    let p := s.port n
    (p.st = .down → Happens (.enablesThePort n) s (s.linkTo n p .training)) ∧
    (∀ q, p.st = .training ∨ p.st = .retraining →
      (p.agrees q = true → Happens (.summary n q) s (s.linkTo n { p with mc := 0, replays := 0 }
        (if p.whole then .up else .degraded))) ∧
      (p.agrees q = false → Happens (.summary n q) s
        (if p.mc < 2 then s.linkTo n { p with mc := p.mc + 1 } .training else s.linkTo n p .failed)) ∧
      Happens (.trainingTimeout n) s
        (if p.mc < 2 then s.linkTo n { p with mc := p.mc + 1 } .training else s.linkTo n p .failed)) ∧
    (∀ f v, p.st.carries = true → (p.mapAt f).getLsbD v = true →
      (sgetD p.spares f 0 = 0 → Happens (.wavelengthFailure n f v) s (s.repaired n (p.spareIn f v))) ∧
      (sgetD p.spares f 0 ≠ 0 → Happens (.wavelengthFailure n f v) s (s.narrowed n (p.without f v))) ∧
      (p.lasers < spareLasers → Happens (.laserFailure n f v) s (s.repaired n { p with lasers := p.lasers + 1 })) ∧
      (spareLasers ≤ p.lasers → Happens (.laserFailure n f v) s (s.narrowed n (p.without f v)))) ∧
    Happens (.blackoutEnd n) s (s.setPort n { p with blackout := false }) ∧
    (∀ same, p.st.carries = true →
      let k := if same then p.replays + 1 else 1
      (k ≤ 16 → Happens (.flitCrcFailure n same) s (s.setPort n { p with replays := k })) ∧
      (16 < k → Happens (.flitCrcFailure n same) s (s.narrowed n p))) ∧
    (p.st = .failed → Happens (.resetsThePort n) s (s.linkTo n { p with mc := 0 } .down)) ∧
    (∀ h, h.port = n → p.st.carries = true →
      (h.checkOk = true → s.refusesFrom h.src = false → h.dst = s.pkg → s.asks = [] ∧ s.ownAsks = [] ∧ s.fwOpen = [] →
        Happens (.packetArrival h) s (s.deliver h)) ∧
      (h.checkOk = true → s.refusesFrom h.src = false → h.dst = s.pkg → ¬(s.asks = [] ∧ s.ownAsks = [] ∧ s.fwOpen = []) →
        Happens (.packetArrival h) s (s.deliver h).afterRecall) ∧
      (h.checkOk = true → s.refusesFrom h.src = false → h.dst ≠ s.pkg → Happens (.packetArrival h) s (s.forward h)) ∧
      (h.checkOk = false ∨ s.refusesFrom h.src = true →
        let t := s.setPort n { p with drops := p.drops + 1 }
        Happens (.packetArrival h) s (if h.dst = s.pkg then t.deliver { h with kind := .other } else t))) ∧
    (∀ slot block, slot < 8 → (∃ p ∈ s.blockPkgs, blockOk p block = true) →
      let t : TopoSlot := ⟨block.take 8, decide ((block.getD 8 0).toNat = 1), blockPorts block, blockRoutes block⟩
      Happens (.slotWrite slot block) s { s with slots := vset s.slots slot t }) ∧
    (∀ sector slot v, sector < 12 → slot < 8 → (shapeOf v).legal = true →
      Happens (.shapeWrite sector slot v) s { s with shapes := sset s.shapes (sector * 8 + slot) (shapeOf v) }) ∧
    (∀ c, Happens (.grantListRemoval c) s { s with grants := s.grants.filter (· ≠ c) })

/-- The space's events (R352, R353, R360 to R364): firmware forms it once, at step 6 of bring-up with the ports enabled after it,
a view of another cell moves only as the table of states gives, and a package that has lost a package of its own cell stops.
That readmission forgets the sequence numbers of the cell's packages (notes/assumptions/42), and which slots count as valid
once the package has its number (90), are the model's choices. -/
def Obligations.CellEventsHappen : Prop :=
  ∀ (s : State),
    (∀ pkg cell members slot,
      let all := if (pkg, cell) ∈ members then members else (pkg, cell) :: members
      let u := { s with pkg := pkg, cell := cell, numbered := true, cells := formedCells cell all, slots := ownSlots pkg s.slots }
      let t := vget u.slots slot TopoSlot.reset
      s.active = none → t.valid = true → slot < 8 → membersOk all = true → (s.numbered = false ∨ (pkg, cell) = (s.pkg, s.cell)) →
      u.homesFit = true →
      let v := ({ u with active := some t, tgen := 1, ports := (List.range 16).foldl (fun ps n =>
        vset ps n { vget ps n Port.reset with peer := (t.peerOf n).1, peerPort := (t.peerOf n).2 }) s.ports } : State).resend.watchCells
      Happens (.formsTheSpace pkg cell members slot) s (if s.bringUp = 5 then { v.enablePorts with bringUp := 7 } else v)) ∧
    (∀ c x, c ≠ s.cell → sget? s.cells c = some x →
      let onto := fun (q : CellSt) => s.setCell c { x with st := q }
      (x.st = .forming → s.cellReached c = true → Happens (.admitsTheCell c) s (onto .member)) ∧
      (x.st = .member → s.cellReached c = false → Happens (.pathLoss c) s (onto .suspect)) ∧
      (x.st = .rejoining → s.cellReached c = false → Happens (.pathLoss c) s (onto .fenced)) ∧
      (x.st = .suspect → s.cellReached c = true → Happens (.pathRestored c) s (onto .member).afterRecall) ∧
      (x.st = .suspect → Happens (.suspectTimeout c) s (s.recover c x 0)) ∧
      (x.st = .member ∨ x.st = .suspect → Happens (.declaresTheCellDead c) s (s.recover c x 1)) ∧
      (x.st = .rejoining → Happens (.declaresTheCellDead c) s (onto .fenced)) ∧
      (x.st = .recovering → Happens (.scanComplete c) s (({ s.recallDirty c with
        dir := (s.recallDirty c).dir.filterMap fun (e : Nat × DirEntry) => (scanEntry c e.2).map fun d => (e.1, d) }.setCell c
          { x with st := .fenced }).cellRecord c .recovering .fenced (s.unstated 0))) ∧
      (x.st = .fenced → (∀ p ∈ x.members, p ∈ x.reset) → Happens (.readmitsTheCell c) s ({ s with
        seqs := s.seqs.filter (fun e => !(decide (e.1 ∈ x.members))),
        outSeq := s.outSeq.filter (fun e => !(decide (e.1 ∈ x.members))),
        early := s.early.filter fun h => !(decide (h.src ∈ x.members)) }.setCell c { x with st := .rejoining })) ∧
      (x.st = .rejoining → Happens (.rejoinComplete c) s (onto .member))) ∧
    (∀ lastPath, s.stopped = .running → s.cellReached s.cell = false →
      Happens (.packageStop lastPath) s ({ s with stopped := .lost }.lanternHub 11 2 [s.cell, lastPath]))

/-- Context commands complete with status 0 and the effect of their row (R83 to R91, R343, R377, R402), where no command of the
context waits; INVAL waits for what is in flight in its range, and the commands that come meanwhile wait behind it. The order
in which a row's failures are told apart and what QUIESCE leaves of saved gangs (notes/assumptions/43), where an INVAL waits
(31), KEYSET where the TDI is in ERROR (68), and which areas CREATE takes as homed here (87) are the model's choices. -/
def Obligations.ContextCommandsComplete : Prop :=
  ∀ (s : State) (cmd : BitVec 512), let c := cmdCtx cmd
    let x := s.ctxOf c
    let back := fun (i : Instr) (t : State) => Happens i s (t.finish cmd 0)
    let notConf := fun (p : Prop) => x.conf = true → p
    (x.cmds = [] →
    (let a := createAreas cmd
      let conf := Nat.testBit (cmdFlags cmd) 0
      let fab := Nat.testBit (cmdFlags cmd) 1
      let area := fun (i : Nat) => BitVec.ofNat 64 (a.getD i 0)
      CommandReady s cmd 1 3 [(16, 48)] [.free] → (∀ v ∈ a, v % 4096 = 0) → (conf = true → s.areasHere a = true) →
      (fab = true → c ∈ s.grants) → (conf = true → s.identity.isSome = true) →
      back (.create cmd) ((s.newTenant c).setCtx c { Ctx.free with
        st := .created, conf := conf, fabric := fab, s2 := area 0, save := area 1, spill := area 2, wake := area 3,
        bind := area 4, sample := area 5, tdi := x.tdi, allot := x.allot })) ∧
    (CommandReady s cmd 2 0 [(16, 8)] [.created] → cmdNat cmd 16 8 % 4096 = 0 → notConf (x.tdi ≠ .configLocked) →
      back (.ctxBind cmd) ((s.setCtx c { x with st := .bound, s1 := BitVec.ofNat 64 (cmdNat cmd 16 8) }).dropTlb c)) ∧
    (CommandReady s cmd 3 0 [] [.bound] → notConf (x.tdi = .run) →
      back (.start cmd) (s.setCtx c { x with st := .runnable })) ∧
    (CommandReady s cmd 4 1 [] [.runnable, .running, .swapped] →
      back (.quiesce cmd) (((s.setCtx c { x with st := .quiescing }).stopCtx c .quiesced
        (Nat.testBit (cmdFlags cmd) 0)).ctxCheck c false)) ∧
    (CommandReady s cmd 5 0 [] [.created, .bound, .faulted] →
      back (.destroy cmd) ((s.setCtx c { x with st := .destroyed }).addDue (.scrubComplete c))) ∧
    (∀ onIde, CommandReady s cmd 6 0 [(16, 1), (20, 4), (32, 32)] [.created, .bound, .runnable, .running, .swapped] →
      cmdNat cmd 16 1 < 8 → notConf (x.tdi ≠ .configUnlocked ∧ onIde = true) →
      let key : KeySlot := ⟨true, BitVec.ofNat 256 (cmdNat cmd 32 32), BitVec.ofNat 32 (cmdNat cmd 20 4), 0⟩
      back (.keyset cmd onIde) (s.setCtx c { x with keys := vset x.keys (cmdNat cmd 16 1) key })) ∧
    (CommandReady s cmd 7 0 [(16, 1)] notFree → cmdNat cmd 16 1 < 8 →
      back (.keyclr cmd) (s.setCtx c { x with keys := vset x.keys (cmdNat cmd 16 1) KeySlot.empty })) ∧
    (∀ k r, CommandReady s cmd 0x0D 0 [(16, 2), (20, 4)] [.runnable, .running, .swapped] →
      s.stoppedAt c (cmdNat cmd 16 2) (cmdNat cmd 20 4) = k :: r →
      back (.debuggo cmd) (s.updKernel k fun y => { y with stopped := false })) ∧
    (let r := invRange cmd;
      CommandReady s cmd 0x0C 3 [(16, 16)] notFree → r.base % 4096 = 0 → r.len % 4096 = 0 → r.len ≠ 0 →
      ((s.invBegin cmd).invWaits cmd = false → back (.inval cmd) (s.invBegin cmd)) ∧
      ((s.invBegin cmd).invWaits cmd = true →
        Happens (.inval cmd) s (((s.invBegin cmd).setCmds c [.cmd cmd false]).addDue (.inval cmd))))) ∧
    (x.cmds ≠ [] →
      (∀ i ∈ [Instr.create cmd, .ctxBind cmd, .start cmd, .quiesce cmd, .destroy cmd, .keyclr cmd, .debuggo cmd, .assign cmd,
        .enable cmd, .drain cmd, .revoke cmd], Happens i s (s.setCmds c (x.cmds ++ [.cmd cmd false]))) ∧
      (∀ onIde, Happens (.keyset cmd onIde) s (s.setCmds c (x.cmds ++ [.cmd cmd onIde]))) ∧
      (s.isRetry cmd = false → Happens (.inval cmd) s (s.setCmds c (x.cmds ++ [.cmd cmd false]))) ∧
      (∀ r, x.cmds = .cmd cmd false :: r → s.isRetry cmd = true → (s.invBegin cmd).invWaits cmd = false →
        Happens (.inval cmd) s ((ctxInval cmd s).runCmds c r)))

/-- AQI commands complete with status 0 (R93, R94): ASSIGN, ENABLE, DRAIN and REVOKE move an AQI of the context along its
states, where no command of the context waits. That an AQI leaves Draining only after its kernels' completion actions
(notes/assumptions/26), and what ASSIGN zeroes of a queue used before (71), are the model's choices. -/
def Obligations.QueueCommandsComplete : Prop :=
  ∀ (s : State) (cmd : BitVec 512), let c := cmdCtx cmd
    let x := s.ctxOf c
    let n := cmdAqi cmd
    let a := s.aqiOf n
    let ready := fun (code : Nat) (named : List (Nat × Nat)) => x.cmds = [] ∧ n < 1024 ∧ CommandReady s cmd code 0 ((16, 2) :: named) [x.st]
    let back := fun (i : Instr) (t : State) => Happens i s (t.finish cmd 0)
    let pasid := cmdNat cmd 20 4
    let limit := cmdNat cmd 24 1
    let link := cmdNat cmd 25 1
    let live : List CtxSt := [.runnable, .running, .swapped]
    (ready 8 [(20, 6)] → pasid < 2 ^ 20 → limit ≤ 15 → link ≤ 1 → s.pasidTaken c link pasid = false → a.st = .unassigned →
      x.st ∈ [.created, .bound] ++ live → x.frozen = false →
      back (.assign cmd) (s.setAqi n { Aqi.reset with
        st := .assigned, ctx := c, pasid := BitVec.ofNat 20 pasid, limit := limit, link := link })) ∧
    (ready 9 [] → a.st = .assigned → a.ctx = c → x.st ∈ live → back (.enable cmd) (s.setAqi n { a with st := .enabled })) ∧
    (ready 0x0A [] → a.st = .enabled → a.ctx = c →
      back (.drain cmd) ((s.setAqi n { a with st := .draining }).aqiSettle n)) ∧
    (ready 0x0B [] → a.st = .assigned ∨ a.st = .enabled ∨ a.st = .draining → a.ctx = c → x.frozen = false →
      back (.revoke cmd) (s.revokeAqi n))

/-- The events of contexts and queues (R84, R86, R89, R90, R95 to R105): quiescing ends, a destroyed context is scrubbed, a
context error faults it, a TDI moves; a write of BAR 2 into a notify page waits behind a queued command of its AQI, is accepted, or has its refusal recorded, a read of a
notify page gives zero, a read of BAR 0 gives a status block's field, that of REFREC clearing its count, and a write of BAR 0
sets a remap entry unless it is frozen. That a scrub waits for the context's gangs and saves is the model's choice
(notes/assumptions/44), so are the fate of an AQI that leaves Draining (26), the link that a queue's or a context's interrupt goes out on (28, 70), a
write that clears MASK where V is 0 (69), what a queue's block keeps (71), and the accesses a remap entry takes (88). -/
def Obligations.ContextEventsHappen : Prop :=
  ∀ (s : State),
    (∀ c, let x := s.ctxOf c
      (x.st = .quiescing → (s.ctxGroups c Group.live).isEmpty = true → s.ctxIdle c = true →
        Happens (.quiesceComplete c) s ((s.setCtx c { x with st := .bound, wakes := [] }).dropWaits c)) ∧
      (x.st = .destroyed → s.ctxKernels c = [] → s.ctxIdle c = true →
        let t := (s.aqisOf c).foldl (fun (t : State) n => (t.revokeAqi n).freeRemap n) s
        Happens (.scrubComplete c) s
          (((((t.freeRemap (1024 + c)).dropWaits c).dropTlb c).newTenant c).setCtx c { Ctx.free with tdi := x.tdi, allot := x.allot, cmds := x.cmds })) ∧
      (∀ cause, x.st ≠ .free → x.st ≠ .destroyed →
        Happens (.contextError c cause) s
          (((s.setCtx c { x with st := .faulted }).stopCtx c .contextError true).faultInterrupt c)) ∧
      (∀ onto, c < 256 →
        (x.conf = false ∨ onto ≠ .error → Happens (.tdiTransition c onto) s (s.setCtx c { x with tdi := onto })) ∧
        (x.conf = true → onto = .error → Happens (.tdiTransition c onto) s
          ((s.setCtx c { x.clearKeys with tdi := onto }).raiseCtxErr c .tdiError)))) ∧
    (∀ adr link pasid onIde size data aqi, notifyAqi adr = some aqi →
      let off := adr % 0x1000
      let a := s.aqiOf aqi
      let slot := off / 64 % 64
      let p := packetOf data
      let r := match s.notifyReason a off link pasid onIde size with
        | 0 => s.packetReason aqi slot a p
        | r => r
      let i : Instr := .notifyWrite 2 adr link pasid onIde size data
      (∀ c, s.lineOfAqi adr = some c → Happens i s
        (s.setCmds c ((s.ctxOf c).cmds ++ [.notify adr link pasid onIde size data]))) ∧
      (s.lineOfAqi adr = none → r = 0 → Happens i s (s.accept aqi slot a p)) ∧
      (s.lineOfAqi adr = none → r ≠ 0 → Happens i s (s.refuseWrite aqi slot link r a pasid (if size < 8 then 0 else BitVec.ofNat 32 p.seq))) ∧
      Happens (.refrecRead ⟨2, adr, link⟩) s (s.say (.hostRead link 0))) ∧
    (∀ adr link n off, bar0 adr = .status n off →
      (off = 8 → Happens (.refrecRead ⟨0, adr, link⟩) s
        ((s.say (.refrec n (s.aqiOf n).refrec)).setAqi n { s.aqiOf n with count := 0 })) ∧
      (off ≠ 8 → Happens (.refrecRead ⟨0, adr, link⟩) s (s.say (.hostRead link (s.statusRead n off)))) ∧
      ∀ data, Happens (.remapEntryWrite adr data) s s) ∧
    (∀ adr entry data, bar0 adr = .remap entry false → adr % 16 = 0 →
      (∀ c, s.remapCtx entry = some c → (s.ctxOf c).frozen = false) →
      let old := sgetD s.remap entry Remap.reset
      let new : Remap := { addr := bitsAt data 66 62, data := bitsAt data 32 32, v := data.getLsbD 31,
                           mask := data.getLsbD 30, pend := old.pend }
      let put := fun (r : Remap) => { s with remap := sput s.remap entry r Remap.reset }
      (old.pend = false ∨ new.mask = true → Happens (.remapEntryWrite adr data) s (put new)) ∧
      (old.pend = true → new.mask = false →
        Happens (.remapEntryWrite adr data) s ((put { new with pend := false }).interrupt entry (s.remapLink entry))) ∧
      ∀ link, Happens (.refrecRead ⟨0, adr, link⟩) s (s.say (.hostRead link (bitsAt old.word 0 64))))

/-- Kernels and gangs go forward (R107 to R112, R115): a Posted kernel's descriptor is read, the scheduler places its next
gang, a gang that finds no place reserves, and a kernel that has ended writes its record and goes. Which sectors a starving
gang reserves (notes/assumptions/45), that the interrupt is sent whether or not the record is written (72), when a record fails
as a whole (29), the core that a trace record names (23), and which of several causes ends a kernel (94, 95) are the model's
choices. -/
def Obligations.KernelEventsHappen : Prop :=
  ∀ (s : State) (n : Nat) (k : Kernel), s.kernel? n = some k →
    (k.st = .posted →
      ∀ pa pas, s.packetPages k = .ok (pa, pas) →
      let k := { k with pend := [], pageFail := [] }
      (k.signal = true → Happens (.descriptorRead n) s (s.toPending n k none pas)) ∧
      (k.signal = false →
        let t := (s.recallAll (lineOf pa)).touchTier pa
        let v := t.mem.nat pa 128
        (∀ j < 32, t.cohMark (pa / 4 + j) = none) →
        (descOk v = false → Happens (.descriptorRead n) s (t.abortKernel n .descriptor)) ∧
        (descOk v = true → (t.ctxOf k.ctx).allot = [] ∨ (descOfBytes v).placeable (t.ctxOf k.ctx).allot = true →
          Happens (.descriptorRead n) s (t.toPending n k (some (descOfBytes v)) pas)) ∧
        (descOk v = true → (t.ctxOf k.ctx).allot ≠ [] → (descOfBytes v).placeable (t.ctxOf k.ctx).allot = false →
          Happens (.descriptorRead n) s
            ((t.updKernel n fun k => { k with desc := some (descOfBytes v) }).abortKernel n .nofit)))) ∧
    (∀ d sector cores, k.desc = some d →
      let a := cores.take d.groups
      let b := cores.drop d.groups
      let twins := sectorOf (b.headD 0)
      s.firstFit = some ⟨n, k.nextGang, none⟩ → cores.length = (if d.redundant then 2 * d.groups else d.groups) → sector ∈ s.openSectors n k.nextGang k →
      s.coresFit sector a d.need = true →
      (d.redundant = true → twins ≠ sector ∧ twins ∈ s.openSectors n k.nextGang k ∧ s.coresFit twins b d.need = true) →
      Happens (.schedulerSelect n sector cores) s (s.placeGang n k d sector cores)) ∧
    (∀ c ∈ s.candidatesOf n k, s.candidateFits c = false → s.openSectors n c.idx k ≠ [] →
      Happens (.reservationTimeout (n, c.idx)) s { s with reserve := addOnce (n, c.idx) s.reserve }) ∧
    (k.closing = true → s.storesLeft n = false → ∀ t, s.signalRecord k = .ok t →
      Happens (.completionActions n) s
        (((if k.irq then t.interrupt k.aqi (t.aqiOf k.aqi).link else t).trace n (s.unstated 0 % 192) 6 k.status.toNat).removeKernel
          n k))

/-- Gangs leave and come back (R121, R127 to R130): a pre-empted gang is Discarding, its save leaves every group Saved, a
restore binds its groups to cores and the end of the restore makes them Resident. That a Swapped context becomes Runnable at
once, and what a save writes in the part's own format, are the model's choices (notes/assumptions/46 and 35). -/
def Obligations.GangEventsHappen : Prop :=
  ∀ (s : State) (n : Nat) (g : Gang), s.gang? n = some g → ∀ k, s.kernel? g.kernel = some k →
    (s.mayPreempt n g k = true →
      Happens (.preemption n) s ((((s.gangGroups n).filter fun m => ((s.group? m).map fun (x : Group) =>
          decide (x.st = .resident)).getD false).foldl (fun (t : State) m =>
        (t.updGroup m fun x => { x with st := .discarding }).endLease (((t.group? m).map Group.core).getD 0) m .discard)
        (s.setGang n { g with st := .discarding })).addDue (.saveComplete n))) ∧
    (g.st = .discarding →
      ((s.gangGroups n).any fun m => ((s.group? m).map fun (x : Group) =>
        decide (x.st = .discarding) && s.saveBusy m x).getD false) = false →
      let t := (s.gangGroups n).foldl (fun (t : State) m => t.saveGroup k.ctx m) (s.setGang n { g with st := .saved })
      ((t.ctxOf k.ctx).st ≠ .quiescing → Happens (.saveComplete n) s ((t.ctxCheck k.ctx true).rouse k.ctx)) ∧
      ((t.ctxOf k.ctx).st = .quiescing →
        Happens (.saveComplete n) s ((t.stopOne .quiesced false g.kernel).ctxCheck k.ctx false))) ∧
    (∀ sector cores,
      let ps := s.savedOf g.groups
      let ts := s.savedOf g.twins
      let a := ps.zip (cores.take ps.length)
      let b := ts.zip (cores.drop ps.length)
      let twins := sectorOf ((cores.drop ps.length).headD 0)
      s.firstFit = some ⟨g.kernel, g.idx, some n⟩ →
      cores.length = ps.length + ts.length → sector ∈ s.openSectors g.kernel g.idx k → s.restoreFits sector a = true →
      (g.l2w = true → sector = g.sector) →
      (ts = [] ∨ twins ≠ sector ∧ twins ∈ s.openSectors g.kernel g.idx k ∧ s.restoreFits twins b = true) →
      let t := (a ++ b).foldl (fun (t : State) e => t.rebind e.1 e.2) (s.setGang n { g with st := .restoring, sector := sector })
      Happens (.restore n sector cores) s ({ t.setCtx k.ctx { t.ctxOf k.ctx with st := .running } with
        reserve := t.reserve.filter (· ≠ (g.kernel, g.idx)) }.addDue (.restoreComplete n))) ∧
    (g.st = .restoring →
      (∀ m ∈ s.gangGroups n, ∀ x, s.group? m = some x → x.st = .restoring → ∀ i, x.slot = some i →
        s.slotGood k.ctx i = true) →
      Happens (.restoreComplete n) s
        ((s.gangGroups n).foldl (fun (t : State) m => t.loadGroup k.ctx m) (s.setGang n { g with st := .resident })))

/-- Warps form bundles and meet errors (R133, R136, R168, R171): a warp with no bundle forms one from its head; an error in
control state kills it, one in a value discards it once and is then latched, and both wait for the end of a commit step; two
redundant copies at one commit match, are both discarded once, or fail. -/
def Obligations.WarpEventsHappen : Prop :=
  ∀ (s : State) (w : WarpId) (g : Group) (x : Warp), s.group? w.g = some g → s.warp? w = some x →
    (∀ m p, g.st = .resident → x.bundle = none → x.nextHead = some (m, p) →
      Happens (.bundleFormation w) s (s.formBundle w x m p)) ∧
    (∀ lanes, g.st = .resident → x.retired = false →
      (x.committing = true → ∀ control,
        Happens (.pipelineError w lanes control) s (s.addDue (.pipelineError w lanes control))) ∧
      (x.committing = false →
        Happens (.pipelineError w lanes true) s (s.abortWith w FaultCode.poison.num x.here.toNat 0 0 lanes false)) ∧
      (x.committing = false → x.pipeErr = false →
        Happens (.pipelineError w lanes false) s ((s.discard w).updWarp w fun y => { y with pipeErr := true })) ∧
      (x.committing = false → x.pipeErr = true → Happens (.pipelineError w lanes false) s
        ((s.lanternWarp w 4 0 0 [x.here.toNat, lanes.toNat]).updWarp w fun y => { y with pipeFault := y.pipeFault ||| lanes }))) ∧
    (∀ h y a b, s.twinOf w.g = some h → s.warp? ⟨h, w.w⟩ = some y → x.meet = .waiting a → y.meet = .waiting b →
      x.commits = y.commits →
      let both := fun (t : State) (p q : Meet) =>
        (t.updWarp w fun z => { z with meet := p }).updWarp ⟨h, w.w⟩ fun z => { z with meet := q }
      (a = b → Happens (.redundancyCompare w) s (both s (.matched a) (.matched a))) ∧
      (a ≠ b → (x.redErr && y.redErr) = false → Happens (.redundancyCompare w) s (s.retryBoth w ⟨h, w.w⟩)) ∧
      (a ≠ b → (x.redErr && y.redErr) = true → Happens (.redundancyCompare w) s
        (both (s.lanternWarp w 3 0 FaultCode.redundancy.num [x.here.toNat, a.toNat, b.toNat, s.coreOf w, s.coreOf ⟨h, w.w⟩])
          (.failed b) (.failed a))))

/-- Pages, tiers and write-throughs (R2, R250, R344 to R348, R359, R390): a page request is answered, a tier page is evicted,
copied out, filled or lost, the firewall changes and what it no longer allows is recalled, a request times out, a write
reaches the coherent level, and a soft error is corrected, dropped or marked. That the environment, not a count of cycles,
ends a time limit (notes/assumptions/10), how a line is obtained from the host for a write (84, beside R417), which accesses
one page request serves (81), and what a soft error in a directory entry loses (93) are the model's choices. -/
def Obligations.MemoryEventsHappen : Prop :=
  ∀ (s : State),
    (∀ id page ok, (s.pageReqs.find? fun q => decide (q.id = id) && decide (q.page = page)).isSome = true →
      let t := { s with pageReqs := s.pageReqs.filter fun (q : PageReq) => decide (q.id ≠ id) }
      Happens (.pageRequestResponse id page ok) s ((if ok then t else t.pageRefused id page).wakeParked)) ∧
    (∀ tier,
      (s.form = .m → s.evictable tier = true → Happens (.evictionSelect tier) s ({ s.recallTier tier with
        tier := sset (s.recallTier tier).tier tier .evicting }.addDue (.copyOutComplete tier))) ∧
      (sget? s.tier tier = some .evicting → s.tierHeld tier = [] →
        Happens (.copyOutComplete tier) s { s with tier := sset s.tier tier .cold }) ∧
      (sget? s.tier tier = some .evicting → s.tierHeld tier ≠ [] → Happens (.copyOutComplete tier) s
        (((s.tierHeld tier).foldl State.askRecall s).addDue (.copyOutComplete tier))) ∧
      (sget? s.tier tier = some .filling →
        Happens (.fillComplete tier) s ({ s with tier := sdel s.tier tier }.wakeParked.retryAsks) ∧
        Happens (.fillFlashError tier) s (({ s with
          tier := sdel s.tier tier,
          pline := (s.pline.filter fun n => decide (n / 512 ≠ tier)) ++ (List.range 512).map fun j => 512 * tier + j }.lanternHub 8 1
            [65536 * tier]).wakeParked.retryAsks)) ∧
      (s.form = .p → Happens (.tierRequest tier) s (s.say (.tierAbsent tier)) ∧
        Happens (.evictionSelect tier) s (s.say (.tierAbsent tier)))) ∧
    (∀ page wm rm, let t := { s with firewall := sset s.firewall page (wm ++ rm) }
      let lost := lostGrants s.cell (s.fwEntry (page * 0x200000)) (wm ++ rm)
      (s.homeOf (page * 0x200000) ≠ s.pkg → Happens (.firewallUpdate page wm rm) s t) ∧
      (s.homeOf (page * 0x200000) = s.pkg → Happens (.firewallUpdate page wm rm) s
        ({ t with fwOpen := t.fwOpen ++ [(page, lost)] }.closeUpdates.retryAsks)) ∧
      (s.homeOf (page * 0x200000) = s.pkg → s.fwOpen = [] → s.pageLines page = [] →
        Happens (.firewallUpdate page wm rm) s (t.say (.firewallDone page)).retryAsks)) ∧
    (∀ w line, s.timesOut (s.homeOf (128 * line)) = true →
      Happens (.txnTimeout (.warp w line)) s
        (s.updWarp w fun x => if line ∈ x.asked then { x with txnLost := addOnce line x.txnLost } else x)) ∧
    (∀ id line dst c, s.copies.find? (fun c => decide (c.id = id)) = some c → c.err = none →
      s.copyTimesOut c line = true →
      Happens (.txnTimeout (.copy id line dst)) s (s.failCopy c 10 (128 * line) dst)) ∧
    (∀ id line p, s.puts.find? (fun p => decide (p.id = id)) = some p → s.timesOut p.dest = true →
      s.putBehind p = false → s.gateHome p.dest ≠ .hold → s.putRecalls p = [] →
      Happens (.txnTimeout (.put id line)) s (s.landPut p (.txnTimeout line))) ∧
    (∀ line e, sget? s.dir line = some e → line ∈ s.recalls →
      s.timerHeld ((((sget? s.cells e.owner).map Cell.members).getD []).headD s.pkg) = false →
      Happens (.txnTimeout (.recall line)) s (s.recallTimesOut line)) ∧
    (∀ inst x, sget? s.trees inst = some x → (∀ c ∈ x.got, ∀ va ∈ [c.result, c.status, c.counter], ∀ p,
        s.translate c.core c.ctx va 0 = .ok p → s.timerHeld (s.homeOf p.pa) = false) →
      Happens (.txnTimeout (.tree inst)) s { s with trees := supd s.trees inst fun x => { x with lost := true } }) ∧
    (∀ id x, s.wts.find? (fun w => decide (w.id = id)) = some x →
      (s.recallWaits x.line = false → (s.cxlLine x.line = true → x.line ∈ s.granted) →
        Happens (.writeThroughArrival id) s ((s.recallOwned x.core x.line).land fun w =>
          (s.ownWt x.core w || decide (w.wid = x.wid)) && decide (w.line = x.line) && decide (w.id ≤ id))) ∧
      (s.recallWaits x.line = false → s.cxlLine x.line = true → x.line ∉ s.granted →
        Happens (.writeThroughArrival id) s ((s.obtain x.line).addDue (.writeThroughArrival id))) ∧
      (s.recallWaits x.line = true → Happens (.writeThroughArrival id) s
        ((s.askRecall x.line).addDue (.writeThroughArrival id)))) ∧
    (∀ u, Happens (.softError (.corrected u)) s { s with softErrors := sset s.softErrors u (sgetD s.softErrors u 0 + 1) }) ∧
    (∀ core line, Happens (.softError (.cleanCopy core line)) s (s.dropLine core line)) ∧
    (∀ a r syn, Happens (.softError (.onlyCopy (a :: r) syn)) s
      ({ s with mem := s.mem.poison (a :: r) }.softRecord (s.unstated 0 % 65536) (4 * a) syn)) ∧
    (∀ g x sp a r syn, s.group? g = some x → Happens (.softError (.buffer g sp (a :: r) syn)) s
      ((s.updGroup g fun x => x.setBuf (bufferSpace sp) ((x.buf (bufferSpace sp)).poison (a :: r))).softRecord x.core (4 * a) syn)) ∧
    (∀ ctx sector a r syn, (sget? s.l2w (l2wKey ctx sector)).isSome = true →
      let x := s.l2wOf (l2wKey ctx sector)
      Happens (.softError (.scratch ctx sector (a :: r) syn)) s
        ((s.setL2w (l2wKey ctx sector) { x with mem := x.mem.poison (a :: r) }).softRecord (0x1000 + s.unstated 0 % 4096) (4 * a) syn)) ∧
    (∀ line e syn, sget? s.dir line = some e → Happens (.softError (.directory line syn)) s
      ((State.dirDel { s with mem := s.mem.poison ((List.range 32).map fun j => 32 * line + j) } line).softRecord
        (0x2000 + Config.homeAgent line % 16) (128 * line) syn))

/-- The package's own events (R312, R390, R393, R403 to R410): registers, reports, attestation, reset, the loss of power, and
the host's snoops and accesses over CXL. What a package reset keeps (notes/assumptions/47), where physical addresses are homed
(7), what becomes of an access over CXL.mem to a cold page (33), what a snoop leaves (84), the function that gives a die's power,
the limits that firmware starts from, and the functions of the signatures (92) are the model's choices. -/
def Obligations.PackageEventsHappen : Prop :=
  ∀ (s : State),
    (∀ ctx sector cache scratch, s.waysOk ctx sector cache scratch = true →
      Happens (.registerWrite (.wayMask ctx sector cache scratch)) s
        (s.setL2w (l2wKey ctx sector) { s.l2wOf (l2wKey ctx sector) with posted := some (cache, scratch) })) ∧
    (∀ ctx sectors, ctx < 256 → (∀ x ∈ sectors, x < 12) → Happens (.registerWrite (.allot ctx sectors)) s
      ((s.setCtx ctx { s.ctxOf ctx with allot := distinct sectors }).judgeFit ctx)) ∧
    (∀ die watts, die < 4 →
      (watts ≤ 780 → Happens (.registerWrite (.cap die watts)) s
        (s.recordCap { s with caps := vset s.caps die watts } die)) ∧
      Happens (.registerWrite (.boiling die watts)) s (s.recordCap { s with boiling := vset s.boiling die watts } die)) ∧
    (∀ conn reading warn fault, warn < fault → Happens (.registerWrite (.threshold conn reading warn fault)) s
      { s with thresholds := sset s.thresholds conn.key (sset (s.thresholdsOf conn) reading (warn, fault)) }) ∧
    (∀ port, port < 16 → s.pastFault (.optical port) = true →
      Happens (.registerWrite (.portDown port)) s (s.linkTo port (s.port port) .down)) ∧
    (∀ core, core < 192 → Happens (.registerWrite (.unsampledRead core)) s
      (s.say (.unsampled core (sgetD s.unsampled core 0)))) ∧
    (∀ ctx, ctx < 256 → Happens (.registerWrite (.grant ctx)) s { s with grants := addOnce ctx s.grants }) ∧
    (∀ reg current temp, current ≤ (s.tripOf reg).1 → temp ≤ (s.tripOf reg).2 →
      let t := { s with trips := sset s.trips reg (current, temp) }
      let sets := fun (u : State) => Happens (.registerWrite (.trip reg current temp)) s u
      (sget? s.lastReport reg = none → sets t) ∧
      (∀ v i h, sget? s.lastReport reg = some (v, i, h) →
        (i ≤ current → h ≤ temp → sets t) ∧
        (current < i ∨ temp < h →
          sets ({ t with stopped := .trip }.lanternHub 10 2 [Config.regulatorDie reg, if current < i then i else h])))) ∧
    (∀ rate, Happens (.registerWrite (.scrub rate)) s { s with scrub := rate }) ∧
    (∀ addr value, Happens (.registerWrite (.other addr value)) s
      { s with regs := sset s.regs addr (maskedReg addr value) }) ∧
    (∀ base size home, homeRangeOk base size home = true →
      let t : State := { s with homes := ⟨base, size, home⟩ :: s.homes }
      (s.numbered = false ∨ t.homesFit = true → Happens (.registerWrite (.home base size home)) s t) ∧
      (s.numbered = true → t.homesFit = false → Happens (.registerWrite (.home base size home)) s (s.say (.refused home)))) ∧
    (∀ slot gen, s.active = none → s.validSlot slot = true →
      Happens (.registerWrite (.topology slot gen)) s (s.activate slot gen)) ∧
    Happens (.registerWrite .clearFrozen) s { s with lantern := { s.lantern with frozen := none } } ∧
    (∀ pkg, Happens (.registerWrite (.peerReset pkg)) s { s with cells := s.cells.map fun (e : Nat × Cell) =>
      if pkg ∈ e.2.members ∧ (e.2.st = .recovering ∨ e.2.st = .fenced) then (e.1, { e.2 with reset := addOnce pkg e.2.reset })
      else e }) ∧
    (∀ regs trim,
      let last := regs.foldl (fun m (r : RegulatorReport) => sset m r.reg (r.voltage, r.current, r.temp)) s.lastReport
      let t := { s with lastReport := last, power := Vector.ofFn fun (i : Fin 4) => Config.diePower i.val last trim }
      let hot := fun (i : Fin 4) => decide (t.capOf i.val < t.power[i]) || s.throttled[i] && decide (t.capOf i.val ≤ t.power[i])
      let u := { t with throttled := Vector.ofFn hot }
      let within := fun (r : RegulatorReport) => r.current ≤ (s.tripOf r.reg).1 ∧ r.temp ≤ (s.tripOf r.reg).2
      ((∀ r ∈ regs, within r) → Happens (.telemetryReport regs trim) s u) ∧
      (∀ r rest, regs = r :: rest → (∀ q ∈ rest, q.reg ≠ r.reg) → ¬ within r → s.stopped ≠ .trip →
        Happens (.telemetryReport regs trim) s
        ({ u with stopped := .trip }.lanternHub 10 2
          [Config.regulatorDie r.reg, if (s.tripOf r.reg).1 < r.current then r.current else r.temp]))) ∧
    (∀ conn readings, s.form ≠ .p → Happens (.connectorReport conn readings) s (readings.zipIdx.foldl (fun (u : State) e =>
      match sget? (s.thresholdsOf conn) e.2 with
      | some (warn, _) => if warn < e.1 then u.say (.connector conn e.2 e.1) else u
      | none => u) { s with readings := sset s.readings conn.key readings })) ∧
    (∀ link nonce key, s.identity = some key → link < 2 → let l := s.measurementLog nonce
      Happens (.spdmMeasurementRequest link nonce) s (s.say (.spdm link l nonce (Config.ed448Sign key l)))) ∧
    (∀ b, s.stopped ≠ .trip →
      let u := { s.cleared with lantern := { s.lantern with resets := s.lantern.resets + 1 } }.lanternHub 9 0 [b.cause]
      let held := fun (step : Nat) (why : Stopped) =>
        ({ u with bringUp := step, stopped := why, identity := none, imageDigest := [], blobDigest := [] } : State)
      (b.power = true → imageGood b = true → Happens (.packageReset b) s { u with
        imageVersion := b.imageVersion, minVersion := b.minVersion.getD u.minVersion,
        imageDigest := digest b.image, blobDigest := digest b.blob,
        identity := (Config.pufResponse b.sram b.helper).map identityKey, scrub := b.scrub }) ∧
      (b.power = true → imageGood b = false → Happens (.packageReset b) s (held 2 .imageFail)) ∧
      (b.power = false → Happens (.packageReset b) s (held 0 .noPower))) ∧
    (∀ standby, let t := { s.cleared with
        bringUp := 0, stopped := .noPower, identity := none, imageDigest := [], blobDigest := [], numbered := false }
      Happens (.powerLoss standby) s
        (if standby then { t with lantern := { Lantern.empty with resets := 0 } } else t)) ∧
    (∀ pa data, isHost (s.homeOf pa) = true → let n := lineOf pa
      let gives := fun (t : State) => ({ t with owned := sdel t.owned n, granted := t.granted.filter (· ≠ n) } : State)
      let loses := fun (t : State) => ({ gives t with hostShared := t.hostShared.filter (· ≠ n) } : State)
      let t := loses s
      Happens (.hostSnoop (.invalidate pa data)) s
        (loses (if data.isEmpty then t.noteWrite n else t.cohWrite pa (data.take (128 - pa % 128)) false)) ∧
      (n ∈ s.granted → Happens (.hostSnoop (.downgrade pa)) s ((gives s).shareHost n)) ∧
      (n ∉ s.granted → Happens (.hostSnoop (.downgrade pa)) s (gives s))) ∧
    (∀ pa n, let lines := rangeLines pa n
      (∀ l ∈ lines, s.homeOf (128 * l) = s.pkg) →
      ((∀ l ∈ lines, s.recallWaits l = false) →
        ((∀ l ∈ lines, s.isCold (128 * l) = false) → let t := s.recallRange lines
          Happens (.cxlMemRequest (.read pa n)) s (t.say (.cxlRead (t.mem.bytesAt pa n))) ∧
          ∀ data, data.length = n → Happens (.cxlMemRequest (.write pa data)) s (t.cohWriteLong pa data (n / 128 + 2))) ∧
        (∀ l r, lines.filter (fun l => s.isCold (128 * l)) = l :: r →
          Happens (.cxlMemRequest (.read pa n)) s (s.startFills (distinct ((l :: r).map fun l => l / 512))))) ∧
      (∀ l r, lines.filter s.recallWaits = l :: r →
        Happens (.cxlMemRequest (.read pa n)) s ((l :: r).foldl State.askRecall s)))

/-- A step runs the instruction decoded at the program counter. The issue slot is that of the quadrant whose warp the environment
picks, or where it makes no move and no event of the engines goes first, that of the quadrant whose turn it is; of the warps that
may issue there the first in the order of R139 presents its unit, or goes on with the unit of a commit step already begun (R15,
R66, R139, R166). A warp that finds itself blocked leaves the slot to the next in order, and one that issues may be followed by a
second in the same slot. That engines and warps alternate, which of several warps of one rank goes first, which pairs issue
together, and how a step already begun goes on are the model's choices (notes/assumptions/2, 3, 4 and 85). -/
def Obligations.StepRunsTheDecodedInstruction : Prop :=
  ∀ (s q : State) (slot : Nat) (w : WarpId) (l : List WarpId) (x : Warp) (b : Bundle) (i : Instr),
    (∃ a r, s.agenda = .issue a :: r ∧ s.canIssue a = true ∧ q = { s with agenda := r } ∧ slot = s.slotOf a) ∨
      (s.agenda = [] ∧ s.stopped = .running ∧ s.pickDue = none ∧ q = { s with turn := true, slotTurn := s.slotTurn + 1 } ∧
        slot = s.slotNow) →
    q.slotWarps slot = w :: l →
    let u := q.passSlot slot
    let t := { u with cur := some w, blocked := none }
    t.warp? w = some x → x.bundle = some b →
    let over_ := fun (w' : WarpId) (z : State) =>
      pairSlot stepWarp w' (q.upNext w') (ageRest stepWarp u z (((w :: l).dropWhile (· ≠ w')).tail))
    let runs := fun (o : Out) => ∀ y, o = .next y →
      (y.blocked = none → step s = .next (over_ w y)) ∧
      (y.blocked.isSome = true → ∀ z,
        (∀ w', tryWarps stepWarp l (y.unready w) = (.next z, some w') → step s = .next (over_ w' z)) ∧
        (tryWarps stepWarp l (y.unready w) = (.next z, none) →
          step s = .next ({ z with blocked := y.blocked }.endSlot (q.resting slot))))
    (x.goesOn = some i → runs (exec i t)) ∧
    (∀ p ps v v', x.goesOn = none →
      t.fetchUnit w x b.mask b.at_.pc.toNat b.at_.pc.toNat 1 = .ok ([p], v') → parcelKind p = .base ∨ parcelKind p = .pre →
      unitLen p ≤ ((blockEnd b.at_.hdr b.len).toNat - b.at_.pc.toNat) / 4 →
      (unitLen p = 3 → t.checkPrefix w x b b.at_.pc.toNat = .ok ()) →
      t.fetchUnit w x b.mask b.at_.pc.toNat b.at_.pc.toNat (unitLen p) = .ok (ps, v) → decodeParcels ps = .ok i →
      t.unitDetail w x b i (4 * unitLen p) (lowestDetail (blockDetails b i (4 * unitLen p))) = .ok none →
      runs (exec i (v.updWarp w fun z => { z with unit := some i })))

/-- Events: the environment's, when it reaches the package and is no instruction of code, and the engines', run as they are; a
move that does not reach it only counts the step, and a slot in which no warp can issue passes, charged to a warp that rests
there. That order is the model's choice (notes/assumptions/2). -/
def Obligations.StepRunsEvents : Prop :=
  ∀ (s : State) (i : Instr),
    (∀ r, s.agenda = .event i :: r → i.coded = false → s.reaches i = true → step s = exec i { s with agenda := r }) ∧
    (∀ r, s.agenda = .event i :: r → i.coded = true ∨ s.reaches i = false →
      step s = .next ({ s with agenda := r } : State).ticked) ∧
    (∀ w r, s.agenda = .issue w :: r → s.canIssue w = false → step s = .next ({ s with agenda := r } : State).ticked) ∧
    (∀ t, s.agenda = [] → s.stopped = .running → s.pickDue = some (i, t) → step s = exec i t) ∧
    (let q := { s with turn := true, slotTurn := s.slotTurn + 1 };
      s.agenda = [] → s.stopped = .running → s.pickDue = none → q.slotWarps s.slotNow = [] →
      step s = .next ((q.passSlot s.slotNow).endSlot (q.resting s.slotNow)).ticked) ∧
    (s.agenda = [] → s.stopped ≠ .running → step s = .next s.ticked)

/-- Fourteen words that the spec writes out decode to the instructions it names (the fields of a format stand in the order of its
bits, after the prefix and the A marker). -/
def Obligations.DecodesTheWordsOfTheSpec : Prop :=
  let reads := fun (ps : List Parcel) (i : Instr) => (decodeParcels ps).toOption = some i
  -- IADD.i32 v3, v1, v2 ?k2
  reads [0x1000500C, 0x04080000] (.iadd ⟨none, false, .i32, 2, false, 3, 1, 2, 0, false, false⟩) ∧
  -- FFMA.f32.RUP v4, v5, v6, v7 ?k9
  reads [0x7E920000, 0x31020010, 0x14181C00]
    (.ffma ⟨some ⟨9, false, .rup, 0, .none, 0, 0⟩, false, .f32, 0, false, 4, 5, 6, 7, false, false⟩) ∧
  -- BRA -7 ?k3
  reads [0x01001800, 0xFFFFFFF9] (.bra ⟨3, false, 0, .each, 0xFFFFFFF9⟩) ∧
  -- SETX x1, g4, #-3
  reads [0x06080004, 0x13FFFFFD] (.setx ⟨none, false, .b32, 0, false, 1, 4, 0x3FFFFFD⟩) ∧
  -- SHLI.i8x4 v2, v3, #9
  reads [0x1A114008, 0x0C000009] (.shli ⟨none, false, .i8x4, 0, false, 2, 3, 9⟩) ∧
  -- LD.i64.GEN v8:v9, [v4:v5 + v1 - 8]
  reads [0x50818020, 0x10041FF8] (.ld .elem ⟨none, false, true, false, .i64, 0, false, 8, 4, 1, .gen, .normal, 0x1FF8⟩) ∧
  -- RED.FADD.f32.GEN [g2 + 16], v6
  reads [0x61660018, 0x08000010] (.red .fadd ⟨none, false, false, true, .f32, 0, false, 6, 2, 0, .gen, .normal, 16⟩) ∧
  -- CPA.GCM.SCR.GEN g8, #3, g12
  reads [0x54040000, 0x20300043] (.cpaGcm ⟨0, false, 0, 8, 12, 0x43⟩) ∧
  -- FENCE.SYS LD+ST+AT+EN, LD+ST+AT+EN
  reads [0x68000000, 0x000005FF] (.fence ⟨0, false, 0, 0, 0, 0x5FF⟩) ∧
  -- BARWT g5, gb1, g4, g6
  reads [0x6A080014, 0x101A0001] (.barwt ⟨0, false, 5, 4, 6, 0x20001⟩) ∧
  -- WAITU.EQ.i64.GEN g4:g5, [g2 + 0], v6 ?k3
  reads [0x7E300600, 0x6B418010, 0x08000000]
    (.waitu .eq ⟨some ⟨3, false, .rne, 6, .none, 0, 0⟩, false, false, true, .i64, 0, false, 4, 2, 0, .gen, .normal, 0⟩) ∧
  -- MXA g8, g10
  reads [0x72000000, 0x20280000] (.mxa ⟨0, false, 0, 8, 10, 0⟩) ∧
  -- PUT.SCR g8, g5, #2
  reads [0x78000000, 0x20140202] (.put ⟨0, false, 0, 8, 5, 0x202⟩) ∧
  -- RESUME.N
  reads [0x08040000, 0x00000002] (.resumeN ⟨0, false, 0, 0, 0, 2⟩)

/-- Every well-formed instruction, with every operand its encoding holds, is read back from the words that encode it,
whatever follows them: no field of an encoding is dropped or moved. -/
def Obligations.EncodedInstructionsDecode : Prop :=
  ∀ (i : Instr) (rest : List Parcel), wellFormed i = true → decodeParcels (encode i ++ rest) = .ok i

/-- R70 for the vector instructions on integers and bits, their immediate forms and MOVI: an active lane of D takes the function
of its sources and the OR of their poison, the other lanes of the bundle are cleared under Z and kept otherwise, lanes outside
the bundle are kept; a pair takes the low word in its first register and the high word in its second. -/
def Obligations.VectorResultLanes : Prop :=
  ∀ (s : State) (w : WarpId) (x : Warp) (b : Bundle) (ins : Instr) (q : VSpec) (f : FmtV) (fn : DWord → DWord → DWord → DWord),
    (∃ r ∈ arithRows ++ bitRows, ins = r.op f ∧ q = r.spec f ∧ fn = r.fn f) ∨
      (∃ r ∈ immRows, ∃ g, f = iToV g ∧ ins = r.op g ∧ q = r.spec g ∧ fn = r.fn g) ∨
      (∃ r ∈ moviRows, ∃ g, f = lToV g ∧ ins = r.op g ∧ q = r.spec g ∧ fn = r.fn g) →
    Issuing s w x b → VecReady s w x b false q f →
    let v := vecOperands s w x b false q f
    ∃ (u : State) (y : Warp), exec ins s = .next ((u.charge w b.at_.pc 0).ticked) ∧ u.warp? w = some y ∧
      ∀ reg n, v.d = .v reg n → ∀ L < 32,
        let a := v.srcs L
        let res := fn a.1 a.2.1 a.2.2.1
        let lane := fun (old : Lane) (part : Word) =>
          if inMask v.act L then ⟨part, a.2.2.2⟩ else if v.z && inMask b.mask L then Lane.zero else old
        y.lane reg L = lane (x.lane reg L) (res.setWidth 32) ∧
        (n ≠ 1 → y.lane (reg + 1) L = lane (x.lane (reg + 1) L) ((res >>> 32).setWidth 32))

/-- The frame of the instructions on registers alone, vector and uniform arithmetic and logic, immediates, floats, compares,
selects, moves between lanes and g registers, mask instructions, cross-lane instructions and conversions: of the whole state only
the issuing warp changes; in it the registers of D, FSTAT for the instructions that set it, the maxima of a conversion that
takes them, and how far the warp has come; every byte of memory stays. What follows is the count of its issue slot. A special
function leaves its result in flight and D empty, and changes nothing else. That one slot is counted, and where, is the model's
reading (notes/assumptions/20). -/
def Obligations.RegisterInstructionsKeepTheRest : Prop :=
  ∀ (s : State) (w : WarpId) (x : Warp) (b : Bundle) (f : FmtV), Issuing s w x b →
    let keeps := fun (uni : Bool) (ins : Instr) (q : VSpec) (g : FmtV) (flags amax : Bool) =>
      RegistersOnly ins s w x b (vecOperands s w x b uni q g).d flags amax
    let ready := fun (uni : Bool) (q : VSpec) (g : FmtV) => VecReady s w x b uni q g
    let plain := fun (ins : Instr) (q : VSpec) (flags : Bool) => ready false q f → keeps false ins q f flags false
    (∀ r ∈ arithRows ++ bitRows, plain (r.op f) (r.spec f) false) ∧
    (∀ r ∈ uniRows, ready true (r.spec f) f → keeps true (r.op f) (r.spec f) f false false) ∧
    (∀ r ∈ immRows, ∀ g, ready false (r.spec g) (iToV g) → keeps false (r.op g) (r.spec g) (iToV g) false false) ∧
    (∀ r ∈ immUniRows, ∀ g, ready true (r.spec g) (iToV g) → keeps true (r.op g) (r.spec g) (iToV g) false false) ∧
    (∀ r ∈ moviRows, ∀ g, ready false (r.spec g) (lToV g) → keeps false (r.op g) (r.spec g) (lToV g) false false) ∧
    (∀ r ∈ moviUniRows, ∀ g, ready true (r.spec g) (lToV g) → keeps true (r.op g) (r.spec g) (lToV g) false false) ∧
    (∀ r ∈ floatRows, plain (r.op f) r.spec true) ∧
    (∀ cc, plain (.icmp cc f) (specIcmp f.ty) false) ∧ (∀ cc, plain (.fcmp cc f) specFcmp true) ∧
    (let q := specIsel f.ty
      let v := vecOperands s w x b false q f;
      v.kPoison v.c = 0 → plain (.isel f) q false) ∧
    plain (.movg f) (specMovg f.ty f.sc) false ∧ plain (.gmov f) (specGmov f.ty f.sc) false ∧
    (∀ op ∈ [Instr.kand, .kor, .kxor], plain (op f) (specMask .k .k .k) false) ∧
    (∀ op ∈ [Instr.knot, .kmov], plain (op f) (specMask .k .k .none) false) ∧
    (∀ op ∈ [Instr.kpopc, .kfirst], plain (op f) (specMask .g .k .none) false) ∧
    (∀ mode, plain (.shfl mode f) (specShfl f.ty) false) ∧
    (∀ d op, (d, op) ∈ [(Opd.k, Instr.voteAny), (.k, .voteAll), (.v 1 false, .voteBallot)] →
      let v := vecOperands s w x b false (specVote d) f;
      v.kPoison v.c = 0 → plain (op f) (specVote d) false) ∧
    (∀ fn, plain (.redl fn f) (specRed fn f.ty) true ∧ ∀ excl, plain (.scanl fn excl f) (specRed fn f.ty) true) ∧
    (∀ mode, plain (.matchLanes mode f) (specMatch f.ty) false) ∧
    (∀ src, plain (.cvtfi src f) (specCvtfi src f.ty) true ∧ plain (.cvtif src f) (specCvtif src f.ty) true) ∧
    (∀ src sat amax, let q := specCvtff src amax f
      let v := vecOperands s w x b false q f;
      (v.b.read v.w 0).2 = false ∨ v.act = 0 → ready false q f → keeps false (.cvtff src sat amax f) q f true amax) ∧
    (let v := vecOperands s w x b false specPackf4 f;
      (v.b.read v.w 0).2 = false ∨ v.act = 0 → ready false specPackf4 f → keeps false (.packf4 f) specPackf4 f true true) ∧
    plain (.unpackf4 f) specUnpackf4 true ∧
    (∀ r ∈ sfuRows, ready false r.spec f → ∃ (u : State) (y : Warp) (d : Nat) (e : Sfu),
      exec (r.op f) s = .next ((u.charge w b.at_.pc 0).ticked) ∧ u.warp? w = some y ∧
      u = { s with groups := u.groups, due := s.due ++ [.specialFunctionWriteback w d] } ∧
      (∀ a, u.mem.byte a = s.mem.byte a) ∧ (∀ n g, s.group? n = some g → ∃ ws, u.group? n = some { g with warps := ws }) ∧
      (∀ p, p ≠ w → u.warp? p = s.warp? p) ∧ e.reg = d ∧ (vecOperands s w x b false r.spec f).d.regs = [d] ∧
      ∃ z : Warp, z = { x.emptyV d with sfus := x.sfus ++ [e], age := 0, ended := x.releasing && x.ended } ∧ z.Moved y)

/-- R185: the bitwise operations are major 0x14, FN 0 to 6, on TY 0 and 7 alone, of the form D, A, B (NOT: D, A), and the
operation applies to every bit of the sources. -/
def Obligations.BitwiseResults : Prop :=
  ∀ r ∈ ([(.and, 0, fun p q => p && q), (.or, 1, fun p q => p || q), (.xor, 2, fun p q => p ^^ q),
      (.andn, 3, fun p q => p && !q), (.orn, 4, fun p q => p || !q), (.xnor, 5, fun p q => !(p ^^ q)),
      (.not, 6, fun p _ => !p)] : List ((FmtV → Instr) × BitVec 6 × (Bool → Bool → Bool))),
    ∀ f : FmtV,
      let q := if r.2.1 = 6 then spec1 tBits f.ty else spec2 tBits f.ty
      (r.1 f).info = .v 0x14 r.2.1 q f ∧
      (wellFormed (r.1 f) = true → f.ty = .b32 ∨ f.ty = .n64) ∧
      (∀ ty, ty = .b32 ∨ ty = .n64 → ∃ g : FmtV, g.ty = ty ∧ wellFormed (r.1 g) = true) ∧
      ∀ (s : State) (w : WarpId) (x : Warp) (b : Bundle), Issuing s w x b → VecReady s w x b false q f →
        let v := vecOperands s w x b false q f
        ∃ (u : State) (y : Warp), exec (r.1 f) s = .next ((u.charge w b.at_.pc 0).ticked) ∧ u.warp? w = some y ∧
          ∀ reg n, v.d = .v reg n → ∀ L < 32, inMask v.act L = true → ∀ i < 32,
            (y.lane reg L).v.getLsbD i = r.2.2 ((v.a.read v.w L).1.getLsbD i) ((v.b.read v.w L).1.getLsbD i) ∧
            (f.ty = .n64 → (y.lane (reg + 1) L).v.getLsbD i =
              r.2.2 ((v.a.read v.w L).1.getLsbD (i + 32)) ((v.b.read v.w L).1.getLsbD (i + 32)))

/-- R182: the divisions are major 0x12, FN 0 and 1, on TY 1, 2, 6 and 7 alone, of the form D, A, B, and give its table's
quotient and remainder: for a divisor of 0, for the one quotient that does not fit, and otherwise truncated toward zero with
a remainder of the dividend's sign or zero. -/
def Obligations.DivisionResults : Prop :=
  ∀ r ∈ ([(.idiv, 0, false), (.irem, 1, true)] : List ((FmtV → Instr) × BitVec 6 × Bool)), ∀ f : FmtV,
    (r.1 f).info = .v 0x12 r.2.1 (spec2 tWide f.ty) f ∧
    (wellFormed (r.1 f) = true → f.ty ∈ [Ty.i32, .n32, .i64, .n64]) ∧
    (∀ ty ∈ [Ty.i32, .n32, .i64, .n64], ∃ g : FmtV, g.ty = ty ∧ wellFormed (r.1 g) = true) ∧
    (wellFormed (r.1 f) = true → ∀ (s : State) (w : WarpId) (x : Warp) (b : Bundle), Issuing s w x b →
      VecReady s w x b false (spec2 tWide f.ty) f →
      let v := vecOperands s w x b false (spec2 tWide f.ty) f
      ∃ (u : State) (y : Warp), exec (r.1 f) s = .next ((u.charge w b.at_.pc 0).ticked) ∧ u.warp? w = some y ∧
        ∀ reg n, v.d = .v reg n → ∀ L < 32, inMask v.act L = true →
          let sgn := f.ty = .i32 ∨ f.ty = .i64
          let width : Nat := if f.ty = .i32 ∨ f.ty = .n32 then 32 else 64
          let val : DWord → Int := fun z => if sgn then (z.setWidth width).toInt else ((z.setWidth width).toNat : Int)
          let p := val (v.a.read v.w L).1
          let q := val (v.b.read v.w L).1
          let least : Int := -(2 ^ (width - 1) : Nat)
          let quot : Int := if q = 0 then (if sgn then -1 else (2 ^ width : Nat) - 1)
            else if sgn ∧ p = least ∧ q = -1 then least else p.tdiv q
          let rest : Int := if q = 0 then p else if sgn ∧ p = least ∧ q = -1 then 0 else p - q * p.tdiv q
          let res := if r.2.2 then rest else quot
          (width = 32 → (y.lane reg L).v = BitVec.ofInt 32 res) ∧
          (width = 64 → (y.lane (reg + 1) L).v ++ (y.lane reg L).v = BitVec.ofInt 64 res) ∧
          (q ≠ 0 → ¬(sgn ∧ p = least ∧ q = -1) → rest = 0 ∨ rest.sign = p.sign))

/-- What a store writes and what it leaves (R162, R236): after ST every byte of the span buffer outside the bytes of the
active lanes' stores is as before; a stored byte is that of the last lane, in ascending order, that stores there; memory
itself, the registers, the flags, the group buffers (SCR, WB, AB and CB) with all else a group holds beside its warps, and every other warp stay as they
were, and wait for the commit. `u` is the state before,
or after the commit that a full buffer forces first (R163). -/
def Obligations.StoreFrame : Prop :=
  ∀ (s : State) (w : WarpId) (x : Warp) (b : Bundle) (f : FmtM) (wd : MemWidth), wellFormed (.st wd f) = true →
    Issuing s w x b → MemReady s w x b (specSt wd f.ty) f →
    let t := s.issued w
    let i := mkIss s w x b (unitSize f.pfx)
    let m := memOperands s w x b (specSt wd f.ty) f
    let n := memWidth wd f.ty
    let at_ := fun (e : Nat × Nat) => t.spanKey i f.sp e.2
    let covers := fun (e : Nat × Nat) (g a : Nat) => (at_ e).1 = g ∧ (at_ e).2 ≤ a ∧ a < (at_ e).2 + n
    SpaceFree t i f.sp (mayStore f.sp) n n m.places → PlaceFree t i x.presented f.sp .wr n m.places →
    ∀ u, RoomFor t i x.presented (t.newLines i x.presented f.sp m.places) u → ∀ z, u.warp? w = some z →
      z.bundle = some b →
      ∃ (v : State) (y : Warp), exec (.st wd f) s = .next ((v.charge w b.at_.pc 0).ticked) ∧ v.warp? w = some y ∧
        (∀ a, v.mem.byte a = u.mem.byte a) ∧ (∀ a, v.mem.mark a = u.mem.mark a) ∧
        (∀ p, p ≠ w → v.warp? p = u.warp? p) ∧
        (∀ k g, u.group? k = some g → ∃ ws, v.group? k = some { g with warps := ws }) ∧ y.v = z.v ∧ y.g = z.g ∧ y.k = z.k ∧ y.fstat = z.fstat ∧
        (∀ sp g a, (∀ e ∈ m.places, ¬(sp = f.sp ∧ covers e g a)) → y.spanByte sp g a = z.spanByte sp g a) ∧
        (∀ pre L a post, m.places = pre ++ (L, a) :: post → ∀ reg k, m.d = .v reg k → ∀ j < n,
          (∀ e ∈ post, ¬covers e (at_ (L, a)).1 ((at_ (L, a)).2 + j)) →
          y.spanByte f.sp (at_ (L, a)).1 ((at_ (L, a)).2 + j) =
            some (((z.lane (reg + j / 4) L).v >>> (8 * (j % 4))).setWidth 8))

/-- A write-through reaches the coherent level (R250), with those of the line that the core, or its warp, made before it: where
no recall of the line is waited for, no atomic is queued at it (R273), a line of the host is granted (R417) and no wait watches
it, memory holds the last of their bytes where they have any, every other byte is as before, and the warps are as before. -/
def Obligations.WriteThroughFrame : Prop :=
  ∀ (s : State) (id : Nat) (wt : WriteThrough), s.wts.find? (fun k => decide (k.id = id)) = some wt →
    s.recallWaits wt.line = false → (s.cxlLine wt.line = true → wt.line ∈ s.granted) → s.waitsOn wt.line (fun _ => true) = [] →
    (∀ q r, sget? s.hot wt.line ≠ some (q :: r)) →
    let now := fun (w : WriteThrough) =>
      (s.ownWt wt.core w || decide (w.wid = wt.wid)) && decide (w.line = wt.line) && decide (w.id ≤ id)
    let cells := ((s.wts.filter now).map fun w => w.data).flatten
    ∃ u : State, exec (.writeThroughArrival id) s = .next u ∧ u.groups = s.groups ∧
      u.wts = s.wts.filter (fun w => !now w) ∧
      (∀ a, (∀ e ∈ cells, e.1 ≠ a) → u.mem.byte a = s.mem.byte a) ∧
      (∀ pre a v post, cells = pre ++ (a, v) :: post → (∀ e ∈ post, e.1 ≠ a) → u.mem.byte a = v)

/-- Taking a fault (R383, R385, R386), for an instruction on vector integers or bits whose predicate is poisoned on lanes of
the bundle (R67 step 5, R176): the slot is charged (R397), which leaves the state `c` with the warp `z`, its registers as they
were where the kernel is not sampled; then g56 to g63 go to the shadow, the record is written, full and unpoisoned, and the
warp goes on at its kernel's handler header; its span buffer, its loads, its other registers and everything outside the warp
stay as the charge left them. The mask and the address of a fault of several lanes are the model's reading
(notes/assumptions/22). -/
def Obligations.FaultEntry : Prop :=
  ∀ r ∈ arithRows ++ bitRows, ∀ (s : State) (w : WarpId) (x z : Warp) (b : Bundle) (f : FmtV) (k : Kernel) (d : Desc),
    let c := (s.issued w).charge w b.at_.pc 0
    Issuing s w x b → c.warp? w = some z → z.handler = none → c.kernelOf w = some k → k.desc = some d → d.handler ≠ 0 →
    let v := vecOperands s w x b false (r.spec f) f
    boundError (vecOpds (s.allotOf w) x false (r.spec f) f) = none → v.a.empty? x = none → v.b.empty? x = none →
    v.c.empty? x = none → v.d.empty? x = none → (predOf x b.mask f.pfx f.k f.kn).psn ≠ 0 →
    (s.unsampledWarp w → z.v = x.v ∧ z.g = x.g ∧ z.k = x.k ∧ ∀ p, p ≠ w → c.warp? p = s.warp? p) ∧
    ∃ (u : State) (y : Warp) (h : Handler), exec (r.op f) s = .next u.ticked ∧
      u = { c with groups := u.groups } ∧ (∀ p, p ≠ w → u.warp? p = c.warp? p) ∧ u.warp? w = some y ∧
      y.handler = some h ∧ y.bundle = none ∧ h.at_ = ⟨d.handler, d.handler⟩ ∧ h.restart = ⟨d.handler, d.handler⟩ ∧
      (∀ n < 8, h.shadow.getD n GReg.zero = z.greg (56 + n)) ∧ (∀ n < 8, y.gFull (56 + n) = true) ∧
      y.greg 56 = ⟨BitVec.ofNat 64 (13 + 7 * 2 ^ 16), false⟩ ∧ y.greg 57 = ⟨b.at_.pc, false⟩ ∧
      y.greg 58 = ⟨((predOf x b.mask f.pfx f.k f.kn).psn).setWidth 64, false⟩ ∧ y.greg 59 = ⟨0, false⟩ ∧
      y.greg 60 = ⟨0, false⟩ ∧ y.greg 61 = ⟨b.mask.setWidth 64, false⟩ ∧
      y.greg 62 = ⟨BitVec.ofNat 64 (k.seq.toNat + k.aqi * 2 ^ 32), false⟩ ∧
      y.greg 63 = ⟨(mkIss s w x b (unitSize f.pfx)).next, false⟩ ∧
      (∀ n < 56, y.greg n = z.greg n) ∧ (∀ n, y.vreg n = z.vreg n) ∧ (∀ n, y.kreg n = z.kreg n) ∧ y.th = z.th ∧
      y.span = z.span ∧ y.loads = z.loads ∧ y.fstat = z.fstat

/-- A tripped package is held in reset until 54 V are removed (R405): while the environment has no loss of power in store,
every step keeps it tripped, and nothing but the count of steps and the environment's own list changes. That its clocks do
not run for any other event is the model's reading (notes/assumptions/25). -/
def Obligations.TrippedPackageStays : Prop :=
  let held := fun (s : State) => s.stopped = .trip ∧ ∀ c, Move.event (.powerLoss c) ∉ s.agenda
  ∀ s : State, held s → ∃ t : State, step s = .next t ∧ held t ∧ t = { s with tick := t.tick, agenda := t.agenda } ∧
    t.tick = s.tick + 1 ∧ t.agenda = s.agenda.tail

/-- The state of the model at its first step. The spec leaves every context Free, every queue Unassigned and every engine
Idle, and no kernel, group, wait, copy or write exists before one is made. The model's own choices (notes/assumptions/2, 6
and 19): nothing is due and the environment has nothing in store, bring-up stands at its step 5, no link is up, no topology table is selected, the Lantern is
empty, every byte of memory reads 0 and no word is poison-marked. -/
def Obligations.ResetState : Prop :=
  let s := State.reset
  (∀ n, s.kernel? n = none) ∧ (∀ n, s.gang? n = none) ∧ (∀ n, s.group? n = none) ∧ (∀ w, s.warp? w = none) ∧
  s.due = [] ∧ s.waits = [] ∧ s.wts = [] ∧ s.copies = [] ∧ s.puts = [] ∧ s.trees = [] ∧ s.agenda = [] ∧
  (∀ c, s.engine c = Engine.idle) ∧ (∀ c, s.ctxOf c = Ctx.free) ∧ (∀ n, (s.aqiOf n).st = .unassigned) ∧
  (∀ n < 16, (vget s.ports n Port.reset).st = .down) ∧ s.active = none ∧ s.tgen = 1 ∧ s.stopped = .running ∧
  s.lantern = Lantern.empty ∧ s.throttled = Vector.replicate 4 false ∧
  (∀ a, s.mem.byte a = 0) ∧ (∀ a, s.mem.mark a = none) ∧ s.mem.wf = true ∧ s.bringUp = 5
end

