-- ==== Sys2Proof/Laws/Map.lean ====
section
/-! SUPPORT. Sparse stores: reads after writes, and that every operation keeps the canonical form. -/

namespace Sys2Proof.Machine

variable {β : Type}

@[simp] theorem sget?_sset_same (m : SMap β) (a : Nat) (x : β) : sget? (sset m a x) a = some x := by
  induction m with
  | nil => simp [sset, sget?]
  | cons e r ih =>
    obtain ⟨k, v⟩ := e
    unfold sset
    split
    · simp [sget?]
    · split
      · simp [sget?]
      · rename_i h1 h2
        have h3 : ¬ k = a := fun h => h2 h.symm
        simp [sget?, h3, ih]

theorem sget?_sset_ne (m : SMap β) {a b : Nat} (x : β) (h : b ≠ a) : sget? (sset m a x) b = sget? m b := by
  induction m with
  | nil => simp [sset, sget?, Ne.symm h]
  | cons e r ih =>
    obtain ⟨k, v⟩ := e
    unfold sset
    split
    · simp [sget?, Ne.symm h]
    · split
      · subst_vars; simp [sget?, Ne.symm h]
      · simp only [sget?, ih]

theorem sget?_supd_same (m : SMap β) (a : Nat) (f : β → β) : sget? (supd m a f) a = (sget? m a).map f := by
  unfold supd
  split <;> simp_all

theorem sget?_supd_ne (m : SMap β) {a b : Nat} (f : β → β) (h : b ≠ a) : sget? (supd m a f) b = sget? m b := by
  unfold supd
  split
  · rfl
  · exact sget?_sset_ne _ _ h

/-! ### Keys strictly rising -/

/-- Every key of a store lies above a bound. -/
def keysAbove (b : Nat) (m : SMap β) : Prop := ∀ e ∈ m, b < e.1

theorem sortedKeys_cons (e : Nat × β) (r : SMap β) :
    sortedKeys (e :: r) = true ↔ keysAbove e.1 r ∧ sortedKeys r = true := by
  induction r generalizing e with
  | nil => simp [sortedKeys, keysAbove]
  | cons f r ih =>
    obtain ⟨a, x⟩ := e
    obtain ⟨b, y⟩ := f
    have hs : sortedKeys ((a, x) :: (b, y) :: r) = (decide (a < b) && sortedKeys ((b, y) :: r)) := rfl
    rw [hs]
    simp only [Bool.and_eq_true, decide_eq_true_eq]
    constructor
    · rintro ⟨h1, h2⟩
      refine ⟨?_, h2⟩
      intro e he
      rcases List.mem_cons.1 he with rfl | he
      · exact h1
      · exact Nat.lt_trans h1 (((ih (b, y)).1 h2).1 e he)
    · rintro ⟨h1, h2⟩
      exact ⟨h1 (b, y) (by simp), h2⟩

theorem mem_sset {m : SMap β} {a : Nat} {x : β} {e : Nat × β} (h : e ∈ sset m a x) : e = (a, x) ∨ e ∈ m := by
  induction m with
  | nil => simpa [sset] using h
  | cons f r ih =>
    unfold sset at h
    split at h
    · simpa using h
    · split at h
      · rcases List.mem_cons.1 h with h | h
        · exact .inl h
        · exact .inr (by simp [h])
      · rcases List.mem_cons.1 h with h | h
        · exact .inr (by simp [h])
        · rcases ih h with h | h
          · exact .inl h
          · exact .inr (by simp [h])

theorem mem_sdel {m : SMap β} {a : Nat} {e : Nat × β} (h : e ∈ sdel m a) : e ∈ m := by
  induction m with
  | nil => simp [sdel] at h
  | cons f r ih =>
    unfold sdel at h
    split at h
    · exact List.mem_cons_of_mem _ (ih h)
    · rcases List.mem_cons.1 h with h | h
      · simp [h]
      · exact List.mem_cons_of_mem _ (ih h)

theorem sortedKeys_sset {m : SMap β} (h : sortedKeys m = true) (a : Nat) (x : β) : sortedKeys (sset m a x) = true := by
  induction m with
  | nil => simp [sset, sortedKeys]
  | cons f r ih =>
    obtain ⟨k, v⟩ := f
    have hc := (sortedKeys_cons (k, v) r).1 h
    unfold sset
    split
    · rename_i hlt
      refine (sortedKeys_cons _ _).2 ⟨?_, h⟩
      intro e he
      rcases List.mem_cons.1 he with rfl | he
      · exact hlt
      · exact Nat.lt_trans hlt (hc.1 e he)
    · split
      · subst_vars
        exact (sortedKeys_cons _ _).2 hc
      · refine (sortedKeys_cons _ _).2 ⟨?_, ih hc.2⟩
        intro e he
        rcases mem_sset he with rfl | he
        · show k < a; omega
        · exact hc.1 e he

theorem sortedKeys_sdel {m : SMap β} (h : sortedKeys m = true) (a : Nat) : sortedKeys (sdel m a) = true := by
  induction m with
  | nil => simp [sdel, sortedKeys]
  | cons f r ih =>
    obtain ⟨k, v⟩ := f
    have hc := (sortedKeys_cons (k, v) r).1 h
    unfold sdel
    split
    · exact ih hc.2
    · exact (sortedKeys_cons _ _).2 ⟨fun e he => hc.1 e (mem_sdel he), ih hc.2⟩

theorem sortedKeys_filter {m : SMap β} (h : sortedKeys m = true) (p : Nat × β → Bool) : sortedKeys (m.filter p) = true := by
  induction m with
  | nil => simp [sortedKeys]
  | cons f r ih =>
    have hc := (sortedKeys_cons f r).1 h
    rw [List.filter_cons]
    split
    · exact (sortedKeys_cons _ _).2 ⟨fun e he => hc.1 e (List.mem_filter.1 he).1, ih hc.2⟩
    · exact ih hc.2

theorem sget?_sdel_same (m : SMap β) (a : Nat) : sget? (sdel m a) a = none := by
  induction m with
  | nil => rfl
  | cons f r ih =>
    obtain ⟨k, v⟩ := f
    unfold sdel
    split
    · exact ih
    · rename_i h; simp [sget?, h, ih]

theorem sget?_sdel_ne (m : SMap β) {a b : Nat} (hb : b ≠ a) : sget? (sdel m a) b = sget? m b := by
  induction m with
  | nil => rfl
  | cons f r ih =>
    obtain ⟨k, v⟩ := f
    unfold sdel
    split
    · subst_vars; simp [sget?, Ne.symm hb, ih]
    · simp only [sget?, ih]

/-! ### Stores with an unlisted default -/

variable [DecidableEq β]

@[simp] theorem sgetD_sput_same (m : SMap β) (a : Nat) (x d : β) : sgetD (sput m a x d) a d = x := by
  unfold sgetD sput
  split
  · rename_i hx; rw [sget?_sdel_same, hx]; rfl
  · simp

theorem sgetD_sput_ne (m : SMap β) {a b : Nat} (x d : β) (hb : b ≠ a) : sgetD (sput m a x d) b d = sgetD m b d := by
  unfold sgetD sput
  split
  · rw [sget?_sdel_ne _ hb]
  · rw [sget?_sset_ne _ _ hb]

theorem sortedKeys_sput {m : SMap β} (h : sortedKeys m = true) (a : Nat) (x d : β) : sortedKeys (sput m a x d) = true := by
  unfold sput
  split
  · exact sortedKeys_sdel h a
  · exact sortedKeys_sset h a x

theorem noDefault_sput {m : SMap β} {d : β} (h : noDefault d m = true) (a : Nat) (x : β) : noDefault d (sput m a x d) = true := by
  simp only [noDefault, List.all_eq_true, decide_eq_true_eq] at h ⊢
  intro e he
  unfold sput at he
  split at he
  · exact h e (mem_sdel he)
  · rename_i hx
    rcases mem_sset he with rfl | he
    · exact hx
    · exact h e he

end Sys2Proof.Machine
end

