-- ==== Sys2Proof/Laws/Issue.lean ====
section
/-! SUPPORT. The frame of a coded instruction: what `issue` answers when the body gives a state, and the frames of the
formats when their operands are ready. -/

namespace Sys2Proof.Machine

/-! ### Warps and groups after a change -/

theorem State.group?_updGroup_same (s : State) (n : Nat) (f : Group → Group) :
    (s.updGroup n f).group? n = (s.group? n).map f := sget?_supd_same _ _ _

theorem State.group?_updGroup_ne (s : State) {n m : Nat} (f : Group → Group) (h : m ≠ n) :
    (s.updGroup n f).group? m = s.group? m := sget?_supd_ne _ _ h

theorem Group.updWarp_at (g : Group) (i : Nat) (f : Warp → Warp) :
    nth? (g.updWarp i f).warps i = (nth? g.warps i).map f := by
  unfold Group.updWarp
  split
  · rename_i h; rw [h]; rfl
  · rename_i w h
    have hi : i < g.warps.length := (List.getElem?_eq_some_iff.1 h).1
    rw [h]
    simp [nth?, setNth, List.getElem?_set_self hi]

theorem Group.updWarp_at_ne (g : Group) {i j : Nat} (f : Warp → Warp) (h : j ≠ i) :
    nth? (g.updWarp i f).warps j = nth? g.warps j := by
  unfold Group.updWarp
  split
  · rfl
  · simp [nth?, setNth, List.getElem?_set_ne (Ne.symm h)]

@[simp] theorem Group.updWarp_kernel (g : Group) (i : Nat) (f : Warp → Warp) : (g.updWarp i f).kernel = g.kernel := by
  unfold Group.updWarp; split <;> rfl
@[simp] theorem Group.updWarp_core (g : Group) (i : Nat) (f : Warp → Warp) : (g.updWarp i f).core = g.core := by
  unfold Group.updWarp; split <;> rfl
@[simp] theorem Group.updWarp_other (g : Group) (i : Nat) (f : Warp → Warp) : (g.updWarp i f).other = g.other := by
  unfold Group.updWarp; split <;> rfl
@[simp] theorem Group.updWarp_isTwin (g : Group) (i : Nat) (f : Warp → Warp) : (g.updWarp i f).isTwin = g.isTwin := by
  unfold Group.updWarp; split <;> rfl

theorem State.warp?_updWarp_same (s : State) (w : WarpId) (f : Warp → Warp) :
    (s.updWarp w f).warp? w = (s.warp? w).map f := by
  unfold State.warp? State.updWarp
  rw [State.group?_updGroup_same]
  cases h : s.group? w.g with
  | none => rfl
  | some g => exact Group.updWarp_at g w.w f

theorem State.warp?_updWarp_ne (s : State) {v w : WarpId} (f : Warp → Warp) (h : v ≠ w) :
    (s.updWarp w f).warp? v = s.warp? v := by
  unfold State.warp? State.updWarp
  by_cases hg : v.g = w.g
  · rw [hg, State.group?_updGroup_same]
    cases h2 : s.group? w.g with
    | none => rfl
    | some g =>
      refine Group.updWarp_at_ne g f ?_
      intro hw
      cases v; cases w; simp_all
  · rw [State.group?_updGroup_ne _ _ hg]

@[simp] theorem State.kernelOf_updWarp (s : State) (w v : WarpId) (f : Warp → Warp) :
    (s.updWarp w f).kernelOf v = s.kernelOf v := by
  unfold State.kernelOf State.updWarp
  by_cases hg : v.g = w.g
  · rw [hg, State.group?_updGroup_same]
    cases s.group? w.g with
    | none => rfl
    | some g => simp only [Option.map_some, Option.bind_some, Group.updWarp_kernel]; rfl
  · rw [State.group?_updGroup_ne _ _ hg]; rfl

@[simp] theorem State.descOf_updWarp (s : State) (w v : WarpId) (f : Warp → Warp) :
    (s.updWarp w f).descOf v = s.descOf v := by simp [State.descOf]
@[simp] theorem State.allotOf_updWarp (s : State) (w v : WarpId) (f : Warp → Warp) :
    (s.updWarp w f).allotOf v = s.allotOf v := by simp [State.allotOf]
@[simp] theorem State.ctxNo_updWarp (s : State) (w v : WarpId) (f : Warp → Warp) :
    (s.updWarp w f).ctxNo v = s.ctxNo v := by simp [State.ctxNo]

@[simp] theorem State.coreOf_updWarp (s : State) (w v : WarpId) (f : Warp → Warp) :
    (s.updWarp w f).coreOf v = s.coreOf v := by
  unfold State.coreOf State.updWarp
  by_cases hg : v.g = w.g
  · rw [hg, State.group?_updGroup_same]
    cases s.group? w.g with
    | none => rfl
    | some g => simp
  · rw [State.group?_updGroup_ne _ _ hg]

@[simp] theorem State.allotOf_issued (s : State) (w v : WarpId) : (s.issued w).allotOf v = s.allotOf v := by
  simp [State.issued]

theorem State.warp?_issued {s : State} {w : WarpId} {x : Warp} (h : s.warp? w = some x) :
    (s.issued w).warp? w = some x.presented := by
  simp [State.issued, State.warp?_updWarp_same, h]

/-! ### The frame of an instruction -/

/-- An instruction whose body gives a state completes with that state, its slot counted. -/
theorem issue_ok {s : State} {w : WarpId} {x : Warp} {b : Bundle} (h : Issuing s w x b) {size : Nat} {ends : Bool}
    {body : State → Iss → Except Stop State} {t : State} (hb : body (s.issued w) (mkIss s w x b size) = .ok t) :
    issue s size ends body = .next (t.retire ends (mkIss s w x b size)) := by
  obtain ⟨h1, h2, h3, h4⟩ := h
  have hb' : body (s.updWarp w Warp.presented) (mkIss s w x b size) = .ok t := hb
  simp only [issue, h1, h2, h3, h4, ne_eq, not_true_eq_false, if_false, hb']
  rfl

/-- An instruction whose body stops short ends its step in what that stop calls for. -/
theorem issue_stop {s : State} {w : WarpId} {x : Warp} {b : Bundle} (h : Issuing s w x b) {size : Nat} {ends : Bool}
    {body : State → Iss → Except Stop State} {e : Stop} (hb : body (s.issued w) (mkIss s w x b size) = .error e) :
    issue s size ends body = .next (finishStop (mkIss s w x b size) e).ticked := by
  obtain ⟨h1, h2, h3, h4⟩ := h
  have hb' : body (s.updWarp w Warp.presented) (mkIss s w x b size) = .error e := hb
  simp only [issue, h1, h2, h3, h4, ne_eq, not_true_eq_false, if_false, hb']

/-- A fault whose walk was not refused touches no table (R345). -/
theorem State.touchRefused_other (s : State) (core ctx : Nat) (f : FaultInfo) (h1 : f.code ≠ .xlate) (h2 : f.code ≠ .firewall)
    (h3 : f.code ≠ .permission) : s.touchRefused core ctx f = s := by
  unfold State.touchRefused
  split <;> first | rfl | contradiction

/-- An instruction that faults is charged its slot and enters the fault (R383, R397). -/
theorem issue_fault {s : State} {w : WarpId} {x : Warp} {b : Bundle} (h : Issuing s w x b) {size : Nat} {ends : Bool}
    {body : State → Iss → Except Stop State} {t : State} {f : FaultInfo}
    (hb : body (s.issued w) (mkIss s w x b size) = .error (.fault t f)) (h1 : f.code ≠ .xlate) (h2 : f.code ≠ .firewall)
    (h3 : f.code ≠ .permission) : let i := mkIss s w x b size
    issue s size ends body = .next ((t.charge w b.at_.pc 0).enterFault w b.at_ i.next i.last b.mask f).ticked := by
  have e : finishStop (mkIss s w x b size) (.fault t f) = (((t.touchRefused (mkIss s w x b size).core (mkIss s w x b size).ctx f).charge
      w b.at_.pc 0).enterFault w b.at_ (mkIss s w x b size).next (mkIss s w x b size).last b.mask f) := rfl
  rw [issue_stop h hb, e, State.touchRefused_other _ _ _ _ h1 h2 h3]

@[simp] theorem mkIss_wid (s : State) (w : WarpId) (x : Warp) (b : Bundle) (n : Nat) : (mkIss s w x b n).wid = w := rfl
@[simp] theorem mkIss_lanes (s : State) (w : WarpId) (x : Warp) (b : Bundle) (n : Nat) :
    (mkIss s w x b n).lanes = b.mask := rfl
@[simp] theorem mkIss_handler (s : State) (w : WarpId) (x : Warp) (b : Bundle) (n : Nat) :
    (mkIss s w x b n).handler = x.handler.isSome := rfl
@[simp] theorem mkIss_ctx (s : State) (w : WarpId) (x : Warp) (b : Bundle) (n : Nat) :
    (mkIss s w x b n).ctx = s.ctxNo w := rfl
@[simp] theorem mkIss_core (s : State) (w : WarpId) (x : Warp) (b : Bundle) (n : Nat) :
    (mkIss s w x b n).core = s.coreOf w := rfl
@[simp] theorem mkIss_at (s : State) (w : WarpId) (x : Warp) (b : Bundle) (n : Nat) :
    (mkIss s w x b n).at_ = b.at_ := rfl

/-! ### Ready operands -/

/-- The reads of a warp's registers do not see its ready age. -/
@[simp] theorem Rs.empty?_issued (x : Warp) (r : Rs) : r.empty? x.presented = r.empty? x := by
  cases r <;> rfl

@[simp] theorem Warp.gv_issued (x : Warp) (r : BitVec 8) : x.presented.gv r = x.gv r := rfl
theorem Warp.greg_issued (x : Warp) (r : Nat) : x.presented.greg r = x.greg r := rfl
theorem Warp.gFull_issued (x : Warp) (r : Nat) : x.presented.gFull r = x.gFull r := rfl
@[simp] theorem Warp.vFull_issued (x : Warp) (r : Nat) : x.presented.vFull r = x.vFull r := rfl
@[simp] theorem Warp.kreg_issued (x : Warp) (r : Nat) : x.presented.kreg r = x.kreg r := rfl
@[simp] theorem Warp.lane_issued (x : Warp) (r L : Nat) : x.presented.lane r L = x.lane r L := rfl
@[simp] theorem Warp.thread_issued (x : Warp) (L : Nat) : x.presented.thread L = x.thread L := rfl
@[simp] theorem Warp.finished_issued (x : Warp) : x.presented.finished = x.finished := rfl
@[simp] theorem Warp.handler_issued (x : Warp) : x.presented.handler = x.handler := rfl
@[simp] theorem Warp.cstk_issued (x : Warp) : x.presented.cstk = x.cstk := rfl
@[simp] theorem predOf_issued (x : Warp) (m : LaneMask) (p : Option Prefix) (k : BitVec 3) (kn : Bool) :
    predOf x.presented m p k kn = predOf x m p k kn := rfl

theorem vecPrep_ready {s : State} {w : WarpId} {x : Warp} {b : Bundle} {uni : Bool} {q : VSpec} {f : FmtV} {n : Nat}
    (h : VecReady s w x b uni q f) :
    vecPrep (s.issued w) (mkIss s w x b n) x.presented uni false q f = .ok (vecOperands s w x b uni q f) := by
  obtain ⟨h1, h2, h3, h4, h5, h6⟩ := h
  have e1 : vecOpds (s.allotOf w) x.presented uni q f = vecOpds (s.allotOf w) x uni q f := rfl
  have e2 : predOf x.presented b.mask f.pfx f.k f.kn = predOf x b.mask f.pfx f.k f.kn := rfl
  simp only [vecOperands, e1] at h2 h3 h4 h5
  simp only [vecPrep, vecOperands, mkIss_wid, mkIss_lanes, State.allotOf_issued, e1, e2, h1, waitFull,
    Rs.empty?_issued, h2, h3, h4, h5, predPoison, h6, ne_eq, not_true_eq_false, if_false, Bool.false_eq_true]

/-- A vector or uniform instruction with ready operands completes with the warp its lane function gives. -/
theorem vecFrame_ready {s : State} {w : WarpId} {x : Warp} {b : Bundle} {uni : Bool} {q : VSpec} {f : FmtV}
    (hi : Issuing s w x b) (h : VecReady s w x b uni q f) {run : State → Iss → Vx → Except Stop Warp} {y : Warp}
    (hr : run (s.issued w) (mkIss s w x b (unitSize f.pfx)) (vecOperands s w x b uni q f) = .ok y) :
    vecFrame s f q uni run =
      .next (((s.issued w).setWarp w y).retire false (mkIss s w x b (unitSize f.pfx))) := by
  refine issue_ok hi ?_
  simp only [mkIss_wid, State.warp?_issued hi.2.1, vecPrep_ready h, hr]

/-- The instructions on three sources, vector and uniform, and the float ones. -/
theorem alu_ready {s : State} {w : WarpId} {x : Warp} {b : Bundle} {q : VSpec} {f : FmtV}
    {fn : DWord → DWord → DWord → DWord} (hi : Issuing s w x b) (h : VecReady s w x b false q f) :
    alu s f q fn = .next (((s.issued w).setWarp w ((vecOperands s w x b false q f).apply fn)).retire false
      (mkIss s w x b (unitSize f.pfx))) := vecFrame_ready hi h rfl

theorem aluUni_ready {s : State} {w : WarpId} {x : Warp} {b : Bundle} {q : VSpec} {f : FmtV}
    {fn : DWord → DWord → DWord → DWord} (hi : Issuing s w x b) (h : VecReady s w x b true q f) :
    aluUni s f q fn = .next (((s.issued w).setWarp w ((vecOperands s w x b true q f).apply fn)).retire false
      (mkIss s w x b (unitSize f.pfx))) := vecFrame_ready hi h rfl

theorem falu_ready {s : State} {w : WarpId} {x : Warp} {b : Bundle} {q : VSpec} {f : FmtV}
    {fn : Rnd → DWord → DWord → DWord → DWord × Flags} (hi : Issuing s w x b) (h : VecReady s w x b false q f) :
    falu s f q fn = .next (((s.issued w).setWarp w ((vecOperands s w x b false q f).writeF fun L =>
      let (p, q', c, psn) := (vecOperands s w x b false q f).srcs L
      let r := fn (vecOperands s w x b false q f).rm p q' c
      (r.1, psn, r.2))).retire false (mkIss s w x b (unitSize f.pfx))) := vecFrame_ready hi h rfl

theorem sysRegs_ready {s : State} {i : Iss} {x : Warp} {srcs dsts : List Nat} (h : SysReady x srcs dsts) :
    sysRegs s i x.presented srcs dsts = .ok () := by
  have h1 : ((srcs ++ dsts).any fun r => !x.presented.gFull r) = false := by
    simp only [List.any_eq_false, Bool.not_eq_true, Bool.not_eq_false']
    exact fun r hr => h.1 r hr
  have h2 : (srcs.any fun r => (x.presented.greg r).p) = false := by
    simp only [List.any_eq_false, Bool.not_eq_true]
    exact fun r hr => h.2 r hr
  simp [sysRegs, h1, h2]

/-- A system instruction with ready registers completes with what its run gives. -/
theorem sysFrame_ready {s : State} {w : WarpId} {x : Warp} {b : Bundle} {ends : Bool} {srcs dsts : List Nat}
    (hi : Issuing s w x b) (h : SysReady x srcs dsts) {run : State → Iss → Warp → Except Stop State} {t : State}
    (hr : run (s.issued w) (mkIss s w x b 8) x.presented = .ok t) :
    sysFrame s ends srcs dsts run = .next (t.retire ends (mkIss s w x b 8)) := by
  refine issue_ok hi ?_
  simp only [mkIss_wid, State.warp?_issued hi.2.1, sysRegs_ready h, hr]

/-- The same outside handler mode, for an instruction that handler mode forbids (R384). -/
theorem sysFrameOut_ready {s : State} {w : WarpId} {x : Warp} {b : Bundle} {ends : Bool} {srcs dsts : List Nat}
    (hi : Issuing s w x b) (hh : x.handler = none) (h : SysReady x srcs dsts)
    {run : State → Iss → Warp → Except Stop State} {t : State}
    (hr : run (s.issued w) (mkIss s w x b 8) x.presented = .ok t) :
    sysFrameOut s ends srcs dsts run = .next (t.retire ends (mkIss s w x b 8)) := by
  refine issue_ok hi ?_
  simp only [notInHandler, mkIss_handler, hh, Option.isSome_none, Bool.false_eq_true, if_false, mkIss_wid,
    State.warp?_issued hi.2.1, sysRegs_ready h, hr]

/-- Full operands do not hold an instruction. -/
theorem waitFull_ok {s : State} {w : Warp} {act : LaneMask} {l : List (Rs × Bool)} (h : ∀ e ∈ l, e.1.empty? w = none) :
    waitFull s w act l = .ok () := by
  induction l with
  | nil => rfl
  | cons e r ih =>
    simp only [waitFull, h e List.mem_cons_self]
    exact ih fun a ha => h a (List.mem_cons_of_mem _ ha)

/-- The operands of a memory instruction that are full are found; `whole` asks for the whole warp (R144). -/
theorem memOps_ready {s : State} {w : WarpId} {x : Warp} {b : Bundle} {q : MSpec} {f : FmtM} {n : Nat} (h : MemFull s w x b q f)
    {whole : Bool} (hw : whole = true → wholeWarp (mkIss s w x b n) x.presented (memOperands s w x b q f).act = true) :
    memOps (s.issued w) (mkIss s w x b n) x.presented whole q f = .ok (memOperands s w x b q f) := by
  obtain ⟨h1, h2, h3, h4, h5, h6, h7⟩ := h
  have e1 : memOpds (s.allotOf w) x.presented q f = memOpds (s.allotOf w) x q f := rfl
  have e2 : predOf x.presented b.mask f.pfx f.k f.kn = predOf x b.mask f.pfx f.k f.kn := rfl
  have hc : (if whole = true then checkWhole (s.issued w) (mkIss s w x b n) x.presented (predOf x b.mask f.pfx f.k f.kn).act
      else .ok ()) = .ok () := by
    split
    · rename_i hwh; exact if_pos (hw hwh)
    · rfl
  simp only [memOperands, e1] at h2 h3 h4 h5
  have hf : ∀ act e, waitFull (s.issued w) x.presented act ([((memOperands s w x b q f).base, eBit f.pfx 2),
      ((memOperands s w x b q f).ofs, eBit f.pfx 1), ((memOperands s w x b q f).sd, e), ((memOperands s w x b q f).d, e)] ++
      dPair q f) = .ok () := fun act e => waitFull_ok (by
    intro r hr
    simp only [List.cons_append, List.nil_append, List.mem_cons] at hr
    simp only [Rs.empty?_issued]
    rcases hr with rfl | rfl | rfl | rfl | hr
    · exact h2
    · exact h3
    · exact h4
    · exact h5
    · exact h6 r hr)
  simp only [memOperands, e1] at hf
  simp only [memOps, memOperands, mkIss_wid, mkIss_lanes, State.allotOf_issued, e1, e2, h1, hc, hf, predPoison, h7, ne_eq,
    not_true_eq_false, if_false]

theorem memPrep_ready {s : State} {w : WarpId} {x : Warp} {b : Bundle} {q : MSpec} {f : FmtM} {n : Nat} (h : MemReady s w x b q f)
    {whole : Bool} (hw : whole = true → wholeWarp (mkIss s w x b n) x.presented (memOperands s w x b q f).act = true) :
    memPrep (s.issued w) (mkIss s w x b n) x.presented whole q f = .ok (memOperands s w x b q f) := by
  simp only [memPrep, memOps_ready h.1 hw, h.2, ne_eq, not_true_eq_false, if_false]

/-- A memory instruction with ready operands does what its run does. -/
theorem memFrame_ready {s : State} {w : WarpId} {x : Warp} {b : Bundle} {ends : Bool} {q : MSpec} {f : FmtM}
    (hi : Issuing s w x b) (h : MemReady s w x b q f) {run : State → Iss → Mx → Except Stop State} {t : State}
    (hr : run (s.issued w) (mkIss s w x b (unitSize f.pfx)) (memOperands s w x b q f) = .ok t) :
    memFrame s f q false ends run = .next (t.retire ends (mkIss s w x b (unitSize f.pfx))) := by
  refine issue_ok hi ?_
  simp only [mkIss_wid, State.warp?_issued hi.2.1, memPrep_ready (whole := false) h (fun h => absurd h Bool.false_ne_true), hr]

/-! ### Whole-warp issue (R144) -/

/-- The same where the instruction issues only as a whole warp. -/
theorem vecPrep_whole {s : State} {w : WarpId} {x : Warp} {b : Bundle} {uni : Bool} {q : VSpec} {f : FmtV} {n : Nat}
    (h : VecReady s w x b uni q f)
    (hw : wholeWarp (mkIss s w x b n) x.presented (vecOperands s w x b uni q f).act = true) :
    vecPrep (s.issued w) (mkIss s w x b n) x.presented uni true q f = .ok (vecOperands s w x b uni q f) := by
  obtain ⟨h1, h2, h3, h4, h5, h6⟩ := h
  have e1 : vecOpds (s.allotOf w) x.presented uni q f = vecOpds (s.allotOf w) x uni q f := rfl
  have e2 : predOf x.presented b.mask f.pfx f.k f.kn = predOf x b.mask f.pfx f.k f.kn := rfl
  have hw' : checkWhole (s.issued w) (mkIss s w x b n) x.presented (predOf x b.mask f.pfx f.k f.kn).act = .ok () :=
    if_pos hw
  simp only [vecOperands, e1] at h2 h3 h4 h5
  simp only [vecPrep, vecOperands, mkIss_wid, mkIss_lanes, State.allotOf_issued, e1, e2, h1, waitFull,
    Rs.empty?_issued, h2, h3, h4, h5, predPoison, h6, ne_eq, not_true_eq_false, if_false, if_true, hw']

theorem memFrame_whole {s : State} {w : WarpId} {x : Warp} {b : Bundle} {ends : Bool} {q : MSpec} {f : FmtM}
    (hi : Issuing s w x b) (h : MemReady s w x b q f)
    (hw : wholeWarp (mkIss s w x b (unitSize f.pfx)) x.presented (memOperands s w x b q f).act = true)
    {run : State → Iss → Mx → Except Stop State} {t : State}
    (hr : run (s.issued w) (mkIss s w x b (unitSize f.pfx)) (memOperands s w x b q f) = .ok t) :
    memFrame s f q true ends run = .next (t.retire ends (mkIss s w x b (unitSize f.pfx))) := by
  refine issue_ok hi ?_
  simp only [mkIss_wid, State.warp?_issued hi.2.1, memPrep_ready h fun _ => hw, hr]

end Sys2Proof.Machine
end

