-- ==== Sys2Proof/Laws/Check.lean ====
section
/-! SUPPORT. Checks that pass: the answers of the access checks, the target checks and the commit under the conditions
that Sys2Proof/Safety.lean names. -/

namespace Sys2Proof.Machine

/-- No lane fails. -/
theorem failing_nil {c : FaultCode} {l : Chks} (h : ∀ e ∈ l, ∀ a d, e.2 ≠ .fault c a d) : failing c l = [] := by
  induction l with
  | nil => rfl
  | cons e l ih =>
    have h1 := h e (List.mem_cons_self ..)
    have h2 := ih fun e' he => h e' (List.mem_cons_of_mem _ he)
    unfold failing at h2 ⊢
    simp only [List.filterMap_cons, h2]
    cases he : e.2 with
    | fault k a d =>
      have : k ≠ c := fun hk => h1 a d (hk ▸ he)
      simp [this]
    | _ => rfl

/-- A check list without a fault reports none. -/
theorem faultIf_free {s : State} {l : Chks} {cs : List FaultCode} (h : ∀ e ∈ l, ∀ c ∈ cs, ∀ a d, e.2 ≠ .fault c a d) :
    faultIf s l cs = .ok () := by
  have : firstFault l cs = none := by
    induction cs with
    | nil => rfl
    | cons c cs ih =>
      rw [firstFault, failing_nil fun e he => h e he c (List.mem_cons_self ..)]
      exact ih fun e he c' hc => h e he c' (List.mem_cons_of_mem _ hc)
  simp [faultIf, this]

theorem faultIf_ok {s : State} {l : Chks} {cs : List FaultCode} (h : ∀ e ∈ l, e.2 = .ok) : faultIf s l cs = .ok () :=
  faultIf_free fun e he _ _ _ _ => by simp [h e he]

theorem parkIf_ok {s : State} {l : Chks} (h : ∀ e ∈ l, e.2 = .ok) : parkIf s l = .ok () := by
  have h1 : parkPages l = [] := congrArg distinct (List.filterMap_eq_nil_iff.2 fun e he => by simp [h e he])
  have h2 : parkTiers l = [] := congrArg distinct (List.filterMap_eq_nil_iff.2 fun e he => by simp [h e he])
  simp [parkIf, h1, h2]

theorem waitIf_ok {s : State} {l : Chks} (h : ∀ e ∈ l, e.2 = .ok) : waitIf s l = .ok () := by
  have h2 : (l.any fun e => decide (e.2 = .hold)) = false := by
    rw [List.any_eq_false]; intro e he; simp [h e he]
  simp [waitIf, h2]

theorem waitFor_ok {s : State} {i : Iss} {l : Chks} {vas : List Nat} (h : ∀ e ∈ l, e.2 = .ok) : waitFor s i l vas = .ok () := by
  have h2 : (l.any fun e => decide (e.2 = .hold)) = false := by
    rw [List.any_eq_false]; intro e he; simp [h e he]
  simp [waitFor, h2]

theorem ctxErrIf_ok {s : State} {l : Chks} (h : ∀ e ∈ l, e.2 = .ok) : ctxErrIf s l = .ok () := by
  have h1 : (l.any fun e => decide (e.2 = .ctxErr)) = false := by
    rw [List.any_eq_false]; intro e he; simp [h e he]
  simp [ctxErrIf, h1]

theorem findChecks_ok {s : State} {l : Chks} (h : ∀ e ∈ l, e.2 = .ok) : findChecks s l = .ok () := by
  simp [findChecks, ctxErrIf_ok h, faultIf_ok h, parkIf_ok h]

theorem absentIf_ok {s : State} {l : Chks} (h : ∀ e ∈ l, e.2 = .ok) : absentIf s l = .ok () := by
  unfold absentIf
  split
  · rename_i g n hf
    obtain ⟨e, he, h2⟩ := List.exists_of_findSome?_eq_some hf
    simp [h e he] at h2
  · rfl

theorem spaceChecks_free {s : State} {i : Iss} {sp : Space} {use : Bool} {need : BitVec 3} {align n : Nat}
    {pl : List (Nat × Nat)} (h : SpaceFree s i sp use align n pl) : spaceChecks s i sp use need align n pl = .ok () := by
  have h1 : faultIf s (pl.map fun e => (e.1, if e.2 % align ≠ 0 then Chk.fault .misaligned e.2 align else .ok))
      [.misaligned] = .ok () := by
    refine faultIf_ok fun e he => ?_
    obtain ⟨e', he', rfl⟩ := List.mem_map.1 he
    simp [(h.1 e' he').1]
  have h2 : faultIf s (pl.map fun e =>
      (e.1, if !use || !s.inSpace i sp e.2 n then Chk.fault .permission e.2 need.toNat else .ok)) [.permission] = .ok () := by
    refine faultIf_ok fun e he => ?_
    obtain ⟨e', he', rfl⟩ := List.mem_map.1 he
    simp [(h.1 e' he').2.1, (h.1 e' he').2.2]
  have h3 : (decide (sp = .l2w) && s.l2wSealed i) = false := by
    cases hd : decide (sp = .l2w) with
    | false => rfl
    | true => exact h.2 (of_decide_eq_true hd)
  simp only [spaceChecks, h1, h2, h3, Bool.false_eq_true, if_false]

theorem genChecks_free {s : State} {i : Iss} {w : Warp} {a : Acc} {tag : Option Bool} {txn : Bool} {n : Nat} {pl : List (Nat × Nat)}
    (h : GenFree s i w a tag txn n pl) : genChecks s i w a tag txn n pl = .ok () := by
  have hg : ∀ e ∈ pl, s.genChk i w e.2 a = .ok := by
    intro e he
    obtain ⟨x, hx⟩ := (h e he).1
    simp [State.genChk, hx, (h e he).2.2.2.2]
  have hl : ∀ e ∈ pl.map fun e => (e.1, s.genChk i w e.2 a), e.2 = Chk.ok := by
    intro e he
    obtain ⟨e', he', rfl⟩ := List.mem_map.1 he
    exact hg e' he'
  have hu : ∀ e ∈ (if txn then pl.map fun e => (e.1, s.txnChk i w e.2) else []), e.2 = Chk.ok := by
    intro e he
    cases txn with
    | false => simp at he
    | true =>
      obtain ⟨e', he', rfl⟩ := List.mem_map.1 he
      have := (h e' he').2.2.1 rfl
      simp only [State.txnChk, this]
  have hh : (pl.any fun e => s.hotPending i.wid (lineOf (s.paOf i e.2 a))) = false := by
    rw [List.any_eq_false]; intro e he; simp [(h e he).2.2.2.1]
  have e2 : ∀ t : Chks, (∀ e ∈ t, e.2 = Chk.ok) → faultIf s (t ++ (if txn then pl.map fun e =>
      (e.1, s.txnChk i w e.2) else []) ++ pl.map fun e => (e.1, s.genChk i w e.2 a))
      [.tagFail, .txnTimeout, .peerLost] = .ok () := fun t ht => faultIf_ok fun e he => by
    rcases List.mem_append.1 he with h' | h'
    · rcases List.mem_append.1 h' with h'' | h''
      · exact ht e h''
      · exact hu e h''
    · exact hl e h'
  cases tag with
  | none => simp only [genChecks, findChecks_ok hl, e2 [] (by simp), hh, Bool.false_eq_true, if_false, waitFor_ok hl]
  | some c =>
    have ht : ∀ e ∈ pl.map fun e => (e.1, if s.genTagFail i w c e.2 (s.paOf i e.2 a) n then Chk.fault .tagFail e.2 0 else .ok),
        e.2 = Chk.ok := fun e he => by
      obtain ⟨e', he', rfl⟩ := List.mem_map.1 he
      simp [(h e' he').2.1 c rfl]
    simp only [genChecks, findChecks_ok hl, e2 _ ht, hh, Bool.false_eq_true, if_false, waitFor_ok hl]

/-- A load whose lanes may proceed and whose requests are out passes. -/
theorem loadChecks_free {s : State} {i : Iss} {w : Warp} {c : Bool} {n : Nat} {pl : List (Nat × Nat)}
    (h : LoadFree s i w c n pl) : loadChecks s i w c n pl = .ok () := by
  simp only [loadChecks, genChecks_free h.1, h.2]

theorem readChecks_free {s : State} {i : Iss} {w : Warp} {n : Nat} {pl : List (Nat × Nat)}
    (h : ReadFree s i w n pl) : readChecks s i w n pl = .ok () := by
  simp only [readChecks, genChecks_free h.1, h.2]

theorem placeChecks_free {s : State} {i : Iss} {w : Warp} {sp : Space} {a : Acc} {n : Nat} {pl : List (Nat × Nat)}
    (h : PlaceFree s i w sp a n pl) : placeChecks s i w sp a n pl = .ok () := by
  unfold PlaceFree at h
  unfold placeChecks
  split
  · rename_i hg
    rw [if_pos hg] at h
    split
    · rename_i ha
      rw [if_pos ha] at h
      exact loadChecks_free h
    · rename_i ha
      rw [if_neg ha] at h
      exact genChecks_free h
  · rename_i hg
    rw [if_neg hg] at h
    have hl : ∀ e ∈ pl.map fun e => (e.1, s.scrChk i sp e.2 (decide (a = .wr))), e.2 = Chk.ok := by
      intro e he
      obtain ⟨e', he', rfl⟩ := List.mem_map.1 he
      exact (h e' he').1
    have e2 := faultIf_ok (s := s) (cs := [.spmAbsentStore, .tagFail]) (l := (pl.map fun e => (e.1, s.scrChk i sp e.2 (decide (a = .wr)))) ++
        (if sp = .l2w ∧ a = .rd then pl.map fun e => (e.1, if s.l2wTagFail i w e.2 n then Chk.fault .tagFail e.2 0 else .ok)
         else [])) fun e he => by
      rcases List.mem_append.1 he with h' | h'
      · exact hl e h'
      · split at h'
        · rename_i hc
          obtain ⟨e', he', rfl⟩ := List.mem_map.1 h'
          simp [(h e' he').2 hc]
        · simp at h'
    simp only [e2, absentIf_ok hl]

theorem targetChecks_free {s : State} {i : Iss} {w : Warp} {take : LaneMask} {T : Nat → DWord} {label : Option Nat}
    (h : TargetsFree s i w take T label) : targetChecks s i w take T label = .ok () := by
  have hl : ∀ e ∈ ((lanesOf take).map fun L => (L, (T L).toNat, s.target i w (T L).toNat)).map
      fun e => (e.1, e.2.2.chk e.2.1), e.2 = Chk.ok := by
    intro e he
    obtain ⟨e', he', rfl⟩ := List.mem_map.1 he
    obtain ⟨L, hL, rfl⟩ := List.mem_map.1 he'
    obtain ⟨l, h1, -⟩ := h L hL
    simp [h1, Tgt.chk]
  simp only [targetChecks, ctxErrIf_ok hl, headerChecks, faultIf_ok hl, parkIf_ok hl, waitIf_ok hl]
  cases label with
  | none => rfl
  | some n =>
    refine faultIf_ok fun e he => ?_
    obtain ⟨e', he', rfl⟩ := List.mem_map.1 he
    obtain ⟨L, hL, rfl⟩ := List.mem_map.1 he'
    obtain ⟨l, h1, h2⟩ := h L hL
    simp [h1, h2 n rfl]

/-- Requests that are out hold nothing, for whichever members. -/
theorem ownRemote_ok {s : State} {w : WarpId} {g : Group} {x : Warp} (h : s.ownRemote w g x 0 = .ok ()) (m : LaneMask) :
    s.ownRemote w g x m = .ok () := by
  unfold State.ownRemote at h ⊢
  cases ht : g.isTwin with
  | true => rfl
  | false =>
    simp only [ht, Bool.false_eq_true, if_false] at h ⊢
    cases hf : (x.span.filter fun l => decide (l.sp = .gen)).find? fun l => decide (l.pa ∈ x.txnLost) with
    | some l => simp [hf] at h
    | none => simpa only [hf] using h

theorem commit_ready {s : State} {w : WarpId} {g : Group} {x : Warp} (h : CommitReady s w g x) {m : LaneMask}
    {rp : Place} {cmd : List DWord} : s.commit w m rp cmd = .ok (s.committed w g x m rp) := by
  obtain ⟨h1, h2, h3, h4, h5⟩ := h
  have hm : s.meet w g x cmd = .ok (s.met w g x) := by
    unfold State.meet State.met
    rcases h5 with h5 | ⟨⟨sig, h5⟩, h6⟩
    · simp only [h5]
    · cases ho : g.other with
      | none => rfl
      | some o =>
        simp only [h5]
        cases ht : g.isTwin with
        | false => simp
        | true =>
          cases hy : s.warp? ⟨o, w.w⟩ with
          | none => simp
          | some y => simp [h6 ht o y ho hy]
  unfold State.commit State.committed
  simp only [h1, h2, h3, hm, ownRemote_ok h4, List.isEmpty_nil, Bool.not_true, Bool.false_eq_true, if_false]

/-- A store or spill with room finds it. -/
theorem makeRoom_ready {s : State} {i : Iss} {y : Warp} {n : Nat} {u : State} (h : RoomFor s i y n u) :
    s.makeRoom i.wid y i.lanes i.at_ n = .ok u := by
  unfold RoomFor at h
  unfold State.makeRoom
  split at h
  · rename_i hs
    obtain ⟨h1, ⟨g, hg, rfl⟩, h2⟩ := h
    simp only [hs, h1, commit_ready hg, h2, Bool.false_eq_true, if_true, if_false]
  · rename_i hs
    rw [if_neg hs, h]

theorem commitRelease_ready {s : State} {i : Iss} {y : Warp} {cmd : List DWord} {scope : Nat} {u : State}
    (h : ReleaseReady s i y scope u) : s.commitRelease i y cmd scope = .ok u := by
  obtain ⟨h1, h2⟩ := h
  unfold State.commitRelease
  split at h2
  · rename_i hr
    subst h2
    simp only [hr, h1, if_true]
  · rename_i hr
    obtain ⟨g, z, hg, rfl⟩ := h2
    simp only [hr, Bool.false_eq_true, if_false, commit_ready hg, h1, if_true]

end Sys2Proof.Machine
end

