-- ==== Sys2Proof/Laws/Mem.lean ====
section
/-! SUPPORT. One memory: a read after a write, bytes a write leaves alone, and that every operation keeps the canonical
form. -/

namespace Sys2Proof.Machine

theorem Mem.wf_iff (m : Mem) :
    m.wf = true ↔ sortedKeys m.bytes = true ∧ noDefault 0 m.bytes = true ∧ sortedKeys m.marks = true := by
  simp [Mem.wf, and_assoc]

theorem Mem.empty_wf : Mem.empty.wf = true := rfl

/-! ### The canonical form is kept -/

theorem Mem.setByte_wf {m : Mem} (h : m.wf = true) (a : Nat) (b : Byte) : (m.setByte a b).wf = true := by
  rw [Mem.wf_iff] at *
  exact ⟨sortedKeys_sput h.1 a b 0, noDefault_sput h.2.1 a b, h.2.2⟩

theorem Mem.setMark_wf {m : Mem} (h : m.wf = true) (w : Nat) (k : Option Mark) : (m.setMark w k).wf = true := by
  rw [Mem.wf_iff] at *
  cases k with
  | none => exact ⟨h.1, h.2.1, sortedKeys_sdel h.2.2 w⟩
  | some k => exact ⟨h.1, h.2.1, sortedKeys_sset h.2.2 w k⟩

theorem Mem.setBytes_wf {m : Mem} (h : m.wf = true) (a : Nat) (d : List Byte) : (m.setBytes a d).wf = true := by
  induction d generalizing m a with
  | nil => exact h
  | cons b r ih => exact ih (Mem.setByte_wf h a b) (a + 1)

theorem Mem.setCells_wf {m : Mem} (h : m.wf = true) (d : List (Nat × Byte)) : (m.setCells d).wf = true := by
  induction d generalizing m with
  | nil => exact h
  | cons e r ih => exact ih (Mem.setByte_wf h e.1 e.2)

theorem Mem.setPsn_wf {m : Mem} (h : m.wf = true) (d : List (Nat × Bool)) : (m.setPsn d).wf = true := by
  induction d generalizing m with
  | nil => exact h
  | cons e r ih => exact ih (Mem.setMark_wf h e.1 _)

theorem Mem.write_wf {m : Mem} (h : m.wf = true) (a : Nat) (d : List Byte) (p : Bool) : (m.write a d p).wf = true :=
  Mem.setPsn_wf (Mem.setBytes_wf h a d) _

theorem Mem.clear_wf {m : Mem} (h : m.wf = true) (a n : Nat) : (m.clear a n).wf = true := by
  rw [Mem.wf_iff] at *
  refine ⟨sortedKeys_filter h.1 _, ?_, sortedKeys_filter h.2.2 _⟩
  simp only [noDefault, List.all_eq_true] at *
  exact fun e he => h.2.1 e (List.mem_filter.1 he).1

/-! ### Reads after writes -/

@[simp] theorem Mem.byte_setByte_same (m : Mem) (a : Nat) (b : Byte) : (m.setByte a b).byte a = b :=
  sgetD_sput_same m.bytes a b 0

theorem Mem.byte_setByte_ne (m : Mem) {a c : Nat} (b : Byte) (hc : c ≠ a) : (m.setByte a b).byte c = m.byte c :=
  sgetD_sput_ne m.bytes b 0 hc

@[simp] theorem Mem.byte_setMark (m : Mem) (w : Nat) (k : Option Mark) (a : Nat) : (m.setMark w k).byte a = m.byte a := by
  cases k <;> rfl

@[simp] theorem Mem.byte_setPsn (m : Mem) (d : List (Nat × Bool)) (a : Nat) : (m.setPsn d).byte a = m.byte a := by
  induction d generalizing m with
  | nil => rfl
  | cons e r ih => exact (ih _).trans (Mem.byte_setMark m e.1 _ a)

theorem Mem.byte_setBytes_out (m : Mem) (a : Nat) (d : List Byte) {c : Nat} (hc : c < a ∨ a + d.length ≤ c) :
    (m.setBytes a d).byte c = m.byte c := by
  induction d generalizing m a with
  | nil => rfl
  | cons b r ih =>
    simp only [List.length_cons] at hc
    show ((m.setByte a b).setBytes (a + 1) r).byte c = m.byte c
    rw [ih (m.setByte a b) (a + 1) (by omega), Mem.byte_setByte_ne m b (by omega)]

theorem Mem.byte_setBytes_in (m : Mem) (a : Nat) (d : List Byte) {i : Nat} (hi : i < d.length) :
    (m.setBytes a d).byte (a + i) = d[i] := by
  induction d generalizing m a i with
  | nil => simp at hi
  | cons b r ih =>
    show ((m.setByte a b).setBytes (a + 1) r).byte (a + i) = (b :: r)[i]
    cases i with
    | zero =>
      rw [Mem.byte_setBytes_out _ (a + 1) r (.inl (by omega))]
      exact Mem.byte_setByte_same m a b
    | succ i =>
      have := ih (m.setByte a b) (a + 1) (i := i) (by simpa using hi)
      simpa [Nat.add_assoc, Nat.add_comm 1 i] using this

/-- A write of bytes reads back, and every other byte stays. -/
theorem Mem.byte_write_in (m : Mem) (a : Nat) (d : List Byte) (p : Bool) {i : Nat} (hi : i < d.length) :
    (m.write a d p).byte (a + i) = d[i] := by
  simp [Mem.write, Mem.byte_setBytes_in m a d hi]

theorem Mem.byte_write_out (m : Mem) (a : Nat) (d : List Byte) (p : Bool) {c : Nat} (hc : c < a ∨ a + d.length ≤ c) :
    (m.write a d p).byte c = m.byte c := by
  simp [Mem.write, Mem.byte_setBytes_out m a d hc]

/-! ### Little-endian values -/

theorem leNat_leBytes (x n : Nat) : leNat (leBytes x n) = x % 256 ^ n := by
  induction n generalizing x with
  | zero => simp [leBytes, leNat, Nat.mod_one]
  | succ n ih =>
    have h : (BitVec.ofNat 8 x).toNat = x % 256 := by simp [BitVec.toNat_ofNat]
    rw [leBytes, leNat, ih, h, Nat.pow_succ', Nat.mod_mul]

@[simp] theorem leBytes_length (x n : Nat) : (leBytes x n).length = n := by
  induction n generalizing x with
  | zero => rfl
  | succ n ih => simp [leBytes, ih]

theorem Mem.bytesAt_setBytes (m : Mem) (a : Nat) (d : List Byte) : (m.setBytes a d).bytesAt a d.length = d := by
  induction d generalizing m a with
  | nil => rfl
  | cons b r ih =>
    show (m.setByte a b |>.setBytes (a + 1) r).byte a :: _ = b :: r
    rw [Mem.byte_setBytes_out _ (a + 1) r (.inl (by omega)), Mem.byte_setByte_same m a b]
    exact congrArg _ (ih (m.setByte a b) (a + 1))

/-- Bytes listed with their addresses: those not listed stay. -/
theorem Mem.byte_setCells_out (m : Mem) (d : List (Nat × Byte)) {c : Nat} (hc : ∀ e ∈ d, e.1 ≠ c) :
    (m.setCells d).byte c = m.byte c := by
  induction d generalizing m with
  | nil => rfl
  | cons e r ih =>
    show ((m.setByte e.1 e.2).setCells r).byte c = m.byte c
    rw [ih _ fun e' he' => hc e' (List.mem_cons_of_mem _ he'),
      Mem.byte_setByte_ne m e.2 (Ne.symm (hc e List.mem_cons_self))]

end Sys2Proof.Machine
end

