-- ==== Sys2Proof/Laws/Lanes.lean ====
section
/-! SUPPORT. Lane masks and values per lane: membership, the masks that are built from tests and lists, reading a value per
lane. -/

namespace Sys2Proof.Machine

theorem inMask_lt {m : LaneMask} {L : Nat} (h : inMask m L = true) : L < 32 := BitVec.lt_of_getLsbD h

theorem mem_lanesOf {m : LaneMask} {L : Nat} : L ∈ lanesOf m ↔ inMask m L = true := by
  simp only [lanesOf, List.mem_filter, List.mem_range]
  exact ⟨fun h => h.2, fun h => ⟨inMask_lt h, h⟩⟩

theorem inMask_bitMask {i L : Nat} (h : i < 32) : inMask (bitMask i) L = decide (L = i) := by
  unfold inMask bitMask
  rw [BitVec.getLsbD_ofNat, Nat.testBit_two_pow]
  by_cases hL : L = i
  · simp [hL, h]
  · have : ¬ i = L := fun e => hL e.symm
    simp [this, hL]

theorem inMask_or (a b : LaneMask) (L : Nat) : inMask (a ||| b) L = (inMask a L || inMask b L) := BitVec.getLsbD_or
theorem inMask_and (a b : LaneMask) (L : Nat) : inMask (a &&& b) L = (inMask a L && inMask b L) := BitVec.getLsbD_and
theorem inMask_zero (L : Nat) : inMask 0 L = false := BitVec.getLsbD_zero
theorem inMask_not (a : LaneMask) (L : Nat) : inMask (~~~a) L = (decide (L < 32) && !inMask a L) := BitVec.getLsbD_not

theorem inMask_maskOf {f : Nat → Bool} {L : Nat} (h : L < 32) : inMask (maskOf f) L = f L := by
  have key : ∀ (l : List Nat), (∀ i ∈ l, i < 32) → ∀ m0 : LaneMask,
      inMask (l.foldl (fun (m : LaneMask) i => if f i then m ||| bitMask i else m) m0) L =
        (inMask m0 L || (decide (L ∈ l) && f L)) := by
    intro l
    induction l with
    | nil => intro _ m0; simp
    | cons a l ih =>
      intro hl m0
      rw [List.foldl_cons, ih fun i hi => hl i (List.mem_cons_of_mem _ hi)]
      by_cases hf : f a = true
      · rw [if_pos hf, inMask_or, inMask_bitMask (hl a (List.mem_cons_self ..))]
        by_cases ha : L = a
        · subst ha; simp [hf]
        · simp [ha]
      · rw [if_neg hf]
        by_cases ha : L = a
        · subst ha; simp [hf]
        · simp [ha]
  have := key (List.range 32) (fun i hi => List.mem_range.1 hi) 0
  rw [inMask_zero, Bool.false_or] at this
  rw [maskOf, this]
  simp [List.mem_range.2 h]

theorem maskOf_eq_zero {f : Nat → Bool} (h : ∀ L < 32, f L = false) : maskOf f = 0 := by
  apply BitVec.eq_of_getLsbD_eq
  intro L hL
  have : inMask (maskOf f) L = inMask 0 L := by rw [inMask_maskOf hL, h L hL, inMask_zero]
  exact this

/-- A vector of lanes built by a function. -/
theorem mkLanes_get {α : Type} (f : Nat → α) {L : Nat} (h : L < 32) : (mkLanes f)[L] = f L := by
  simp [mkLanes]

theorem mkLanes_getD {α : Type} (f : Nat → α) (d : α) {L : Nat} (h : L < 32) : (mkLanes f).toList.getD L d = f L := by
  simp [mkLanes, List.getD, h]

end Sys2Proof.Machine
end

