-- ==== Sys2Proof/Laws/Reg.lean ====
section
/-! SUPPORT. Registers: a read after a write, for each class, and what a vector result leaves in its destination. -/

namespace Sys2Proof.Machine

@[simp] theorem Warp.vreg_setV_same (w : Warp) (n : Nat) (x : Lanes Lane) : (w.setV n x).vreg n = x :=
  sgetD_sput_same w.v n x zeroV

theorem Warp.vreg_setV_ne (w : Warp) {n m : Nat} (x : Lanes Lane) (h : m ≠ n) : (w.setV n x).vreg m = w.vreg m :=
  sgetD_sput_ne w.v x zeroV h

theorem Warp.greg_setG_same (w : Warp) {n : Nat} (x : GReg) (h : n ≠ 0) : (w.setG n x).greg n = x := by
  simp [Warp.greg, Warp.setG, h]

theorem Warp.greg_setG_ne (w : Warp) {n m : Nat} (x : GReg) (h : m ≠ n) : (w.setG n x).greg m = w.greg m := by
  unfold Warp.greg Warp.setG
  by_cases hn : n = 0
  · simp [hn]
  · simp only [hn, if_false]; rw [sgetD_sput_ne _ _ _ h]

/-- g0 reads 0, whatever was written to it (R56, R69). -/
@[simp] theorem Warp.greg_zero (w : Warp) : w.greg 0 = GReg.zero := rfl

/-- k0 reads all ones, whatever was written to it (R48, R56). -/
@[simp] theorem Warp.kreg_zero (w : Warp) : w.kreg 0 = ⟨allLanes, 0⟩ := rfl

@[simp] theorem Warp.vreg_setG (w : Warp) (n m : Nat) (x : GReg) : (w.setG n x).vreg m = w.vreg m := by
  unfold Warp.setG; split <;> rfl

/-- A write of a v register touches no other field of the warp. -/
@[simp] theorem Warp.greg_setV (w : Warp) (n m : Nat) (x : Lanes Lane) : (w.setV n x).greg m = w.greg m := rfl
@[simp] theorem Warp.bundle_setV (w : Warp) (n : Nat) (x : Lanes Lane) : (w.setV n x).bundle = w.bundle := rfl

@[simp] theorem Warp.bundle_setG (w : Warp) (n : Nat) (x : GReg) : (w.setG n x).bundle = w.bundle := by
  unfold Warp.setG; split <;> rfl

/-- The registers and nothing else differ. -/
def Warp.SameButRegs (w y : Warp) : Prop := ∃ vv g, y = { w with v := vv, g := g }

theorem Warp.SameButRegs.refl (w : Warp) : w.SameButRegs w := ⟨w.v, w.g, rfl⟩

theorem Warp.SameButRegs.setV {w y : Warp} (h : w.SameButRegs y) (n : Nat) (x : Lanes Lane) : w.SameButRegs (y.setV n x) := by
  obtain ⟨vv, g, e⟩ := h
  exact ⟨sput y.v n x zeroV, g, by subst e; rfl⟩

theorem Warp.SameButRegs.setG {w y : Warp} (h : w.SameButRegs y) (n : Nat) (x : GReg) : w.SameButRegs (y.setG n x) := by
  unfold Warp.setG
  split
  · exact h
  · obtain ⟨vv, g, e⟩ := h
    exact ⟨vv, sput y.g n x GReg.zero, by subst e; rfl⟩

/-- A vector or uniform result writes the registers its D names and no others. -/
theorem Vx.write_frame (v : Vx) (f : Nat → DWord × Bool) (hd : ∀ r n, v.d = .v r n → n = 1 ∨ n = 2) :
    v.w.SameButRegs (v.write f) ∧ (∀ n, n ∉ v.d.regs → (v.write f).vreg n = v.w.vreg n) ∧
      (∀ n, (∀ wide, v.d ≠ .g n wide) → (v.write f).greg n = v.w.greg n) := by
  unfold Vx.write
  split
  next r e =>
    refine ⟨(Warp.SameButRegs.refl _).setV _ _, fun n hn => Warp.vreg_setV_ne _ _ (fun h => hn ?_), fun n _ => Warp.greg_setV _ _ _ _⟩
    rw [e, h]; simp [Rs.regs]
  next r m hm e =>
    have : m = 2 := by rcases hd _ _ e with h | h; exact absurd h (by intro h; exact hm h); exact h
    subst this
    refine ⟨((Warp.SameButRegs.refl _).setV _ _).setV _ _, fun n hn => ?_, fun n _ =>
      (Warp.greg_setV _ _ _ _).trans (Warp.greg_setV _ _ _ _)⟩
    rw [e] at hn
    have h1 : n ≠ r := fun h => hn (by subst h; exact List.mem_map.2 ⟨0, by simp, rfl⟩)
    have h2 : n ≠ r + 1 := fun h => hn (by subst h; exact List.mem_map.2 ⟨1, by simp, rfl⟩)
    exact (Warp.vreg_setV_ne _ _ h2).trans (Warp.vreg_setV_ne _ _ h1)
  next r wide e =>
    refine ⟨(Warp.SameButRegs.refl _).setG _ _, fun n _ => Warp.vreg_setG _ _ _ _, fun n hn => ?_⟩
    exact Warp.greg_setG_ne _ _ (fun h => hn wide (by rw [e, h]))
  next => exact ⟨Warp.SameButRegs.refl _, fun n _ => Eq.refl _, fun n _ => Eq.refl _⟩

theorem Vx.write_bundle (v : Vx) (f : Nat → DWord × Bool) : (v.write f).bundle = v.w.bundle := by
  unfold Vx.write
  split <;> simp

/-- A lane of the register that a vector result is written to (R70). -/
theorem Vx.reg_lane (x : Vx) (n : Nat) (res : Lanes (DWord × Bool)) (part : DWord → Word) {L : Nat} (h : L < 32) :
    (x.reg n res part).toList.getD L Lane.zero =
      if inMask x.act L then ⟨part res[L].1, res[L].2⟩
      else if x.z && inMask x.lanes L then Lane.zero else x.w.lane n L := by
  have hl : (x.w.vreg n).toList.length = 32 := by simp
  simp [Vx.reg, List.getD, h, Warp.lane, hl]

end Sys2Proof.Machine
end

