-- ==== Sys2Proof/Laws/Span.lean ====
section
/-! SUPPORT. The span buffer: a byte read after a store (R162). -/

namespace Sys2Proof.Machine

theorem SpanLine.isAt_iff {l : SpanLine} {sp : Space} {g a : Nat} : l.isAt sp g a = true ↔ l.sp = sp ∧ l.grp = g ∧ l.addr = a := by
  simp [SpanLine.isAt, and_assoc]

theorem SpanLine.not_before_self {x l : SpanLine} (h : l.isAt x.sp x.grp x.addr = true) : x.before l = false := by
  obtain ⟨h1, h2, h3⟩ := SpanLine.isAt_iff.1 h
  simp [SpanLine.before, h1, h2, h3]

/-- A line put in the buffer is found at its place, and every other place keeps its line. -/
theorem findLine_insertLine (x : SpanLine) (ls : List SpanLine) (sp : Space) (g a : Nat) :
    findLine (insertLine x ls) sp g a = if x.isAt sp g (a / 128) then some x else findLine ls sp g a := by
  unfold findLine
  induction ls with
  | nil =>
    simp only [insertLine, List.find?_cons, List.find?_nil]
    cases x.isAt sp g (a / 128) <;> rfl
  | cons l r ih =>
    unfold insertLine
    split
    · simp only [List.find?_cons]
      cases x.isAt sp g (a / 128) <;> rfl
    · split
      · rename_i h
        obtain ⟨h1, h2, h3⟩ := SpanLine.isAt_iff.1 h
        have e : l.isAt sp g (a / 128) = x.isAt sp g (a / 128) := by simp only [SpanLine.isAt, h1, h2, h3]
        simp only [List.find?_cons, e]
        cases x.isAt sp g (a / 128) <;> rfl
      · rename_i h
        simp only [List.find?_cons, ih]
        cases hl : l.isAt sp g (a / 128) with
        | false => rfl
        | true =>
          have hx : x.isAt sp g (a / 128) = false := by
            cases hx : x.isAt sp g (a / 128) with
            | false => rfl
            | true =>
              exfalso
              obtain ⟨h1, h2, h3⟩ := SpanLine.isAt_iff.1 hl
              obtain ⟨h4, h5, h6⟩ := SpanLine.isAt_iff.1 hx
              exact h (SpanLine.isAt_iff.2 ⟨h1.trans h4.symm, h2.trans h5.symm, h3.trans h6.symm⟩)
          rw [hx]; rfl

theorem sget?_foldl_out {β : Type} (d : List (Nat × β)) (m : SMap β) {c : Nat} (h : ∀ e ∈ d, e.1 ≠ c) :
    sget? (d.foldl (fun m e => sset m e.1 e.2) m) c = sget? m c := by
  induction d generalizing m with
  | nil => rfl
  | cons e r ih =>
    rw [List.foldl_cons, ih _ fun e he => h e (List.mem_cons_of_mem _ he)]
    exact sget?_sset_ne _ _ (Ne.symm (h e (List.mem_cons_self ..)))

theorem mem_cellsOf {d : List Byte} {a : Nat} {e : Nat × Byte} (h : e ∈ cellsOf a d) : a ≤ e.1 ∧ e.1 < a + d.length := by
  induction d generalizing a with
  | nil => simp [cellsOf] at h
  | cons b r ih =>
    rcases List.mem_cons.1 h with rfl | h
    · simp
    · have := ih h
      simp only [List.length_cons]; omega

theorem sget?_cells_in (d : List Byte) (a : Nat) (m : SMap Byte) {i : Nat} (h : i < d.length) :
    sget? ((cellsOf a d).foldl (fun m e => sset m e.1 e.2) m) (a + i) = some d[i] := by
  induction d generalizing a m i with
  | nil => simp at h
  | cons b r ih =>
    show sget? ((cellsOf (a + 1) r).foldl _ (sset m a b)) (a + i) = _
    cases i with
    | zero =>
      rw [sget?_foldl_out _ _ fun e he => by have := mem_cellsOf he; omega]
      simp
    | succ i =>
      rw [show a + (i + 1) = a + 1 + i by omega, ih _ _ (by simpa using h)]
      simp

/-- A byte of the buffer outside a store's bytes stays. -/
theorem Warp.spanByte_spanPut_out (w : Warp) (sp : Space) (g a : Nat) (pa : Nat × Nat) (d : List Byte) (p : Bool) (sp' : Space)
    (g' c : Nat) (h : ¬(sp' = sp ∧ g' = g ∧ a ≤ c ∧ c < a + d.length)) :
    (w.spanPut sp g a pa d p).spanByte sp' g' c = w.spanByte sp' g' c := by
  unfold Warp.spanByte Warp.spanPut
  simp only [findLine_insertLine]
  have hk : ((findLine w.span sp g a).getD ⟨sp, a / 128, pa.1, g, [], [], pa.2⟩).isAt sp g (a / 128) = true := by
    cases hf : findLine w.span sp g a with
    | none => simp [SpanLine.isAt]
    | some l => simpa using List.find?_some hf
  obtain ⟨h1, h2, h3⟩ := SpanLine.isAt_iff.1 hk
  split
  · rename_i hx
    obtain ⟨e1, e2, e3⟩ := SpanLine.isAt_iff.1 hx
    simp only [h1, h2, h3] at e1 e2 e3
    subst e1 e2
    have hc : findLine w.span sp g c = findLine w.span sp g a := by unfold findLine; rw [e3]
    simp only [Option.bind_some, hc]
    rw [sget?_foldl_out _ _ fun e he => by
      have := mem_cellsOf he
      intro e'; apply h; subst e'; exact ⟨rfl, rfl, this.1, this.2⟩]
    cases findLine w.span sp g a with
    | none => rfl
    | some l => rfl
  · rfl

/-- A byte of a store inside one line is read back. -/
theorem Warp.spanByte_spanPut_in (w : Warp) (sp : Space) (g a : Nat) (pa : Nat × Nat) (d : List Byte) (p : Bool) {i : Nat}
    (hi : i < d.length) (hl : (a + i) / 128 = a / 128) :
    (w.spanPut sp g a pa d p).spanByte sp g (a + i) = some d[i] := by
  unfold Warp.spanByte Warp.spanPut
  simp only [findLine_insertLine, hl]
  have hk : ((findLine w.span sp g a).getD ⟨sp, a / 128, pa.1, g, [], [], pa.2⟩).isAt sp g (a / 128) = true := by
    cases hf : findLine w.span sp g a with
    | none => simp [SpanLine.isAt]
    | some l => simpa using List.find?_some hf
  have hk' : ({ (findLine w.span sp g a).getD ⟨sp, a / 128, pa.1, g, [], [], pa.2⟩ with
      data := (cellsOf a d).foldl (fun m e => sset m e.1 e.2) ((findLine w.span sp g a).getD ⟨sp, a / 128, pa.1, g, [], [], pa.2⟩).data,
      psn := (psnEffect a d.length p).foldl (fun m e => sset m e.1 e.2)
        ((findLine w.span sp g a).getD ⟨sp, a / 128, pa.1, g, [], [], pa.2⟩).psn } : SpanLine).isAt sp g (a / 128) = true := hk
  rw [hk']
  simp only [if_true, Option.bind_some]
  exact sget?_cells_in d a _ hi

/-! ### Stores of several lanes -/

theorem noteWrite_none {s : State} {line : Nat} (h : s.waitsOn line (fun _ => true) = []) : s.noteWrite line = s := by
  have sub : ∀ p, s.waitsOn line p = [] := by
    intro p
    unfold State.waitsOn at *
    rw [List.map_eq_nil_iff, List.filter_eq_nil_iff] at *
    intro e he hc
    apply h e he
    rw [List.any_eq_true] at hc ⊢
    obtain ⟨n, h1, h2⟩ := hc
    refine ⟨n, h1, ?_⟩
    simp only [Bool.and_eq_true] at h2 ⊢
    exact ⟨h2.1, trivial⟩
  unfold State.noteWrite
  simp only [sub, List.foldl_nil, List.isEmpty_nil, if_true]

theorem cohLine_byte (s : State) (line : Nat) (d : SMap Byte) (p : SMap Bool) (a : Nat) :
    (s.cohLine line d p).mem.byte a = (s.mem.setCells d).byte a := by
  unfold State.cohLine
  dsimp only
  split
  · rfl
  · exact Mem.byte_setPsn _ _ _

theorem leBytes_get (x n i : Nat) (h : i < (leBytes x n).length) : (leBytes x n)[i] = BitVec.ofNat 8 (x / 256 ^ i) := by
  induction n generalizing x i with
  | zero => simp [leBytes] at h
  | succ n ih =>
    cases i with
    | zero => simp [leBytes]
    | succ i =>
      simp only [leBytes, List.getElem_cons_succ]
      rw [ih, Nat.div_div_eq_div_mul, Nat.pow_succ, Nat.mul_comm]

/-- what a store leaves -/
structure StoreKeeps (w y : Warp) : Prop where
  hv : y.v = w.v
  hg : y.g = w.g
  hk : y.k = w.k
  hf : y.fstat = w.fstat
  hb : y.bundle = w.bundle

theorem sl_keeps (w : Warp) (sp g o) (line : Nat × Nat) (d n L) : StoreKeeps w (w.storeLane sp g o line d n L) := by
  unfold Warp.storeLane Warp.spanPut
  split <;> exact ⟨rfl, rfl, rfl, rfl, rfl⟩

theorem sl_out (w : Warp) (sp : Space) (g o : Nat) (line : Nat × Nat) (r k n L : Nat) (hk : (k = 2 ∧ n = 8) ∨ (k = 1 ∧ n ≤ 4)) (sp' g' a)
    (h : ¬(sp' = sp ∧ g = g' ∧ o ≤ a ∧ a < o + n)) : (w.storeLane sp g o line (.v r k) n L).spanByte sp' g' a = w.spanByte sp' g' a := by
  rcases hk with ⟨rfl, rfl⟩ | ⟨rfl, hn⟩
  · show (Warp.spanPut _ _ _ _ _ _ _).spanByte _ _ _ = _
    rw [Warp.spanByte_spanPut_out, Warp.spanByte_spanPut_out]
    · rintro ⟨rfl, rfl, h1, h2⟩; apply h; simp at h2; exact ⟨rfl, rfl, by omega, by omega⟩
    · rintro ⟨rfl, rfl, h1, h2⟩; apply h; simp at h2; exact ⟨rfl, rfl, by omega, by omega⟩
  · show (Warp.spanPut _ _ _ _ _ _ _).spanByte _ _ _ = _
    rw [Warp.spanByte_spanPut_out]
    · rintro ⟨rfl, rfl, h1, h2⟩; apply h; simp at h2; exact ⟨rfl, rfl, by omega, by omega⟩

theorem byte_eq (v : Word) (j : Nat) (_h : j < 4) : BitVec.ofNat 8 (v.toNat / 256 ^ j) = (v >>> (8 * j)).setWidth 8 := by
  apply BitVec.eq_of_toNat_eq
  simp only [BitVec.toNat_ofNat, BitVec.toNat_setWidth, BitVec.toNat_ushiftRight, Nat.shiftRight_eq_div_pow]
  rw [show (256 : Nat) = 2 ^ 8 by rfl, ← Nat.pow_mul]

theorem sl_in (w : Warp) (sp : Space) (g o : Nat) (line : Nat × Nat) (r k n L : Nat) (hk : (k = 2 ∧ n = 8) ∨ (k = 1 ∧ n ≤ 4)) (j : Nat) (hj : j < n)
    (hd : n ∣ 8) (ha : o % n = 0) : (w.storeLane sp g o line (.v r k) n L).spanByte sp g (o + j) =
      some (((w.lane (r + j / 4) L).v >>> (8 * (j % 4))).setWidth 8) := by
  have hline : (o + j) / 128 = o / 128 := by
    -- an element lies in one line, since its size divides that of a line
    obtain ⟨c, hc⟩ := hd
    have hl : 128 = n * (c * 16) := by rw [← Nat.mul_assoc, ← hc]
    have he : (o + j) / n = o / n := by
      rw [← Nat.div_add_mod o n, ha, Nat.add_zero, Nat.mul_add_div (Nat.zero_lt_of_lt hj), Nat.div_eq_of_lt hj, Nat.add_zero,
        Nat.mul_div_cancel_left _ (Nat.zero_lt_of_lt hj)]
    have hs : ∀ a, a / (n * (c * 16)) = a / n / (c * 16) := fun a => (Nat.div_div_eq_div_mul a n _).symm
    rw [hl, hs, hs, he]
  rcases hk with ⟨rfl, rfl⟩ | ⟨rfl, hn⟩
  · show (Warp.spanPut _ _ _ _ _ _ _).spanByte _ _ _ = _
    by_cases h4 : j < 4
    · rw [Warp.spanByte_spanPut_out, Warp.spanByte_spanPut_in _ _ _ _ _ _ _ (by simpa using h4) hline, leBytes_get, byte_eq _ _ h4]
      · rw [Nat.div_eq_of_lt h4, Nat.mod_eq_of_lt h4]; try rfl
      · rintro ⟨_, _, h1, h2⟩; omega
    · rw [show o + j = o + 4 + (j - 4) by omega, Warp.spanByte_spanPut_in _ _ _ _ _ _ _ (by simp; omega) (by omega), leBytes_get, byte_eq _ _ (by omega)]
      rw [show j / 4 = 1 by omega, show j % 4 = j - 4 by omega]
  · show (Warp.spanPut _ _ _ _ _ _ _).spanByte _ _ _ = _
    have h4 : j < 4 := by omega
    rw [Warp.spanByte_spanPut_in _ _ _ _ _ _ _ (by simpa using hj) hline, leBytes_get, byte_eq _ _ h4]
    rw [Nat.div_eq_of_lt h4, Nat.mod_eq_of_lt h4]; rfl

theorem fold_keeps (pl : List (Nat × Nat)) (F : Nat × Nat → Nat × Nat × Nat × Nat) (sp d n) (w : Warp) :
    StoreKeeps w (pl.foldl (fun y e => y.storeLane sp (F e).1 (F e).2.1 (F e).2.2 d n e.1) w) := by
  induction pl generalizing w with
  | nil => exact ⟨rfl, rfl, rfl, rfl, rfl⟩
  | cons e r ih =>
    have h1 := sl_keeps w sp (F e).1 (F e).2.1 (F e).2.2 d n e.1
    have h2 := ih (w.storeLane sp (F e).1 (F e).2.1 (F e).2.2 d n e.1)
    exact ⟨h2.hv.trans h1.hv, h2.hg.trans h1.hg, h2.hk.trans h1.hk, h2.hf.trans h1.hf, h2.hb.trans h1.hb⟩

theorem spanKey_mod (t : State) (i : Iss) (sp : Space) (a n : Nat) (hd : n ∣ 8) (h : a % n = 0) : (t.spanKey i sp a).2 % n = 0 := by
  unfold State.spanKey
  split
  · unfold State.scrPlace
    dsimp only
    split
    · simp
    · split
      · simp
      · cases nth? _ (a / 2 ^ 19) with
        | none => simp
        | some g =>
          simp only [Option.map_some, Option.getD_some]
          have : n ∣ 2 ^ 19 := Nat.dvd_trans hd (by decide)
          rw [Nat.mod_mod_of_dvd _ this, h]
  · exact h

/-- The caches of translations and tables hold no data. -/
theorem tlbAdd_mem (t : State) (core ctx va : Nat) (x : Xl) :
    (t.tlbAdd core ctx va x).mem = t.mem ∧ (t.tlbAdd core ctx va x).groups = t.groups := by
  have hw : ∀ sec, (t.walkAdd sec ctx va).mem = t.mem ∧ (t.walkAdd sec ctx va).groups = t.groups := fun sec => by
    unfold State.walkAdd
    split
    · exact ⟨rfl, rfl⟩
    · split <;> exact ⟨rfl, rfl⟩
  unfold State.tlbAdd
  dsimp only
  split
  · exact ⟨rfl, rfl⟩
  · cases t.tlbHit core ctx va with
    | none => exact hw _
    | some _ => exact ⟨rfl, rfl⟩

/-- The access itself changes only the state of the tier page. -/
theorem touchTier_mem (t : State) (pa : Nat) : (t.touchTier pa).mem = t.mem ∧ (t.touchTier pa).groups = t.groups := by
  unfold State.touchTier State.startFill
  split
  · exact ⟨rfl, rfl⟩
  · split <;> exact ⟨rfl, rfl⟩

/-- The walk's reads change the tier pages of its tables at most. -/
theorem touchWalk_mem (t : State) (core ctx va : Nat) : (t.touchWalk core ctx va).mem = t.mem ∧ (t.touchWalk core ctx va).groups = t.groups := by
  have key : ∀ (l : List Nat) (u : State), (l.foldl (fun v n => v.touchTier (128 * n)) u).mem = u.mem ∧
      (l.foldl (fun v n => v.touchTier (128 * n)) u).groups = u.groups := by
    intro l
    induction l with
    | nil => exact fun u => ⟨rfl, rfl⟩
    | cons n r ih =>
      intro u
      have h := touchTier_mem u (128 * n)
      have h2 := ih (u.touchTier (128 * n))
      exact ⟨h2.1.trans h.1, h2.2.trans h.2⟩
  unfold State.touchWalk
  split
  · exact ⟨rfl, rfl⟩
  · exact key _ t

theorem touched_mem (t : State) (core ctx va : Nat) (f : Found) :
    (t.touched core ctx va f).mem = t.mem ∧ (t.touched core ctx va f).groups = t.groups := by
  unfold State.touched
  split
  · rename_i x
    have h := touchTier_mem ((t.touchWalk core ctx va).tlbAdd core ctx va x) x.pa
    have h' := tlbAdd_mem (t.touchWalk core ctx va) core ctx va x
    have h2 := touchWalk_mem t core ctx va
    exact ⟨(h.1.trans h'.1).trans h2.1, (h.2.trans h'.2).trans h2.2⟩
  · exact ⟨rfl, rfl⟩
theorem touchAll_mem (t : State) (i : Iss) (sp : Space) (a : Acc) (pl : List (Nat × Nat)) : (t.touchAll i sp a pl).mem = t.mem ∧ (t.touchAll i sp a pl).groups = t.groups := by
  have key : ∀ (pl : List (Nat × Nat)) (u : State),
      let v := pl.foldl (fun v e => v.touched i.core i.ctx e.2 (t.find i.core i.ctx e.2 a [])) u
      v.mem = u.mem ∧ v.groups = u.groups := by
    intro pl
    induction pl with
    | nil => exact fun u => ⟨rfl, rfl⟩
    | cons e r ih =>
      intro u
      have h := touched_mem u i.core i.ctx e.2 (t.find i.core i.ctx e.2 a [])
      have h2 := ih (u.touched i.core i.ctx e.2 (t.find i.core i.ctx e.2 a []))
      exact ⟨h2.1.trans h.1, h2.2.trans h.2⟩
  unfold State.touchAll
  split
  · exact key pl t
  · exact ⟨rfl, rfl⟩
theorem tie_mem (t : State) (w sp) : (t.tieL2w w sp).mem = t.mem ∧ (t.tieL2w w sp).groups = t.groups := by
  unfold State.tieL2w
  split
  · split <;> exact ⟨rfl, rfl⟩
  · exact ⟨rfl, rfl⟩

theorem sl_out' (w : Warp) (sp : Space) (g o : Nat) (line : Nat × Nat) (d : Rs) (n L : Nat) (hk : ∀ r k, d = .v r k → (k = 2 ∧ n = 8) ∨ (k = 1 ∧ n ≤ 4)) (sp' g' a)
    (h : ¬(sp' = sp ∧ g = g' ∧ o ≤ a ∧ a < o + n)) : (w.storeLane sp g o line d n L).spanByte sp' g' a = w.spanByte sp' g' a := by
  cases d with
  | v r k => exact sl_out _ _ _ _ _ _ _ _ _ (hk r k rfl) _ _ _ h
  | none => rfl
  | g r w => rfl
  | k r => rfl

theorem fold_out' (pl : List (Nat × Nat)) (F : Nat × Nat → Nat × Nat × Nat × Nat) (sp : Space) (d : Rs) (n : Nat) (hk : ∀ r k, d = .v r k → (k = 2 ∧ n = 8) ∨ (k = 1 ∧ n ≤ 4)) (w : Warp) (sp' g' a)
    (h : ∀ e ∈ pl, ¬(sp' = sp ∧ (F e).1 = g' ∧ (F e).2.1 ≤ a ∧ a < (F e).2.1 + n)) :
    (pl.foldl (fun y e => y.storeLane sp (F e).1 (F e).2.1 (F e).2.2 d n e.1) w).spanByte sp' g' a = w.spanByte sp' g' a := by
  induction pl generalizing w with
  | nil => rfl
  | cons e l ih =>
    rw [List.foldl_cons, ih _ fun e he => h e (List.mem_cons_of_mem _ he)]
    exact sl_out' _ _ _ _ _ _ _ _ hk _ _ _ (h e (List.mem_cons_self ..))

end Sys2Proof.Machine
end

