-- ==== Sys2Proof/Laws/Coherence.lean ====
section
/-! SUPPORT. What recalls, packets and writes at the coherent level can change (14_ordering R250, 20_cell R354-R356, 21_link
R370): each lemma names every field that may differ, and says that no other does. -/

namespace Sys2Proof.Machine

/-- A packet that leaves changes the ports, the messages and the books of what is sent. -/
theorem transmit_shape (s : State) (dst ctx : Nat) (gen : Word) (k : PacketKind) : let u := s.transmit dst ctx gen k
    u = { s with ports := u.ports, msgs := u.msgs, stuck := u.stuck, outSeq := u.outSeq } := by
  unfold State.transmit State.send
  dsimp only
  split <;> rfl

theorem transmit_list_shape (l : List Nat) (f : State → Nat → PacketKind) : ∀ s : State,
    let u := l.foldl (fun t p => t.transmit p 0xFFFF t.tgen (f t p)) s
    u = { s with ports := u.ports, msgs := u.msgs, stuck := u.stuck, outSeq := u.outSeq } := by
  induction l with
  | nil => exact fun s => rfl
  | cons p r ih =>
    intro s
    simp only [List.foldl_cons]
    have h1 := transmit_shape s p 0xFFFF s.tgen (f s p)
    have h2 := ih (s.transmit p 0xFFFF s.tgen (f s p))
    dsimp only at h1 h2 ⊢
    generalize List.foldl (fun t p => t.transmit p 0xFFFF t.tgen (f t p)) (s.transmit p 0xFFFF s.tgen (f s p)) r = v at h2 ⊢
    rw [h1] at h2
    rw [h2]

/-- An entry that goes leaves packets, the directory, the recalls and the lines lost dirty (R354, R362). -/
theorem dropEntry_shape (s : State) (line : Nat) : let u := s.dropEntry line
    u = { s with dir := u.dir, recalls := u.recalls, pline := u.pline, ports := u.ports, msgs := u.msgs, stuck := u.stuck,
                 outSeq := u.outSeq } := by
  unfold State.dropEntry
  split
  · rfl
  · rename_i e he
    have h := transmit_list_shape (s.holders e) (fun _ _ => .invalidate (128 * line) [] 0) s
    unfold State.dirDel
    dsimp only at h ⊢
    generalize List.foldl (fun (t : State) p => t.transmit p 0xFFFF t.tgen (.invalidate (128 * line) [] 0)) s (s.holders e) = v at h ⊢
    rw [h]

/-- A recall that is asked for sends packets, once (R354). -/
theorem askRecall_shape (s : State) (line : Nat) : let u := s.askRecall line
    u = { s with recalls := u.recalls, ports := u.ports, msgs := u.msgs, stuck := u.stuck, outSeq := u.outSeq } := by
  unfold State.askRecall
  split
  · rfl
  · rename_i e he
    split
    · rfl
    · have h := transmit_list_shape (s.holders e) (fun _ _ => .invalidate (128 * line) [] 0) s
      dsimp only at h ⊢
      generalize List.foldl (fun (t : State) p => t.transmit p 0xFFFF t.tgen (.invalidate (128 * line) [] 0)) s (s.holders e) = v at h ⊢
      rw [h]

/-- An entry that names a lost cell is settled (R362). -/
theorem settleLost_shape (s : State) (line : Nat) : let u := s.settleLost line
    u = { s with dir := u.dir, recalls := u.recalls, pline := u.pline, ports := u.ports, msgs := u.msgs, stuck := u.stuck,
                 outSeq := u.outSeq } := by
  unfold State.settleLost
  split
  · rfl
  · split
    · exact dropEntry_shape s line
    · split
      · rfl
      · split <;> rfl

theorem recallDir_shape (s : State) (line : Nat) : let u := s.recallDir line
    u = { s with dir := u.dir, recalls := u.recalls, pline := u.pline, ports := u.ports, msgs := u.msgs, stuck := u.stuck,
                 outSeq := u.outSeq } := by
  have h1 := settleLost_shape s line
  have h2 := askRecall_shape (s.settleLost line) line
  unfold State.recallDir
  dsimp only at h1 h2 ⊢
  generalize State.askRecall (s.settleLost line) line = v at h2 ⊢
  rw [h1] at h2
  rw [h2]

theorem recallOwned_shape (s : State) (core line : Nat) : let u := s.recallOwned core line
    u = { s with dir := u.dir, recalls := u.recalls, pline := u.pline, ports := u.ports, msgs := u.msgs, stuck := u.stuck,
                 outSeq := u.outSeq, owned := u.owned } := by
  have h := recallDir_shape s line
  unfold State.recallOwned
  dsimp only at h ⊢
  generalize s.recallDir line = v at h ⊢
  rw [h]
  split
  · split <;> rfl
  · rfl

theorem writeBack_shape (s : State) (line home : Nat) : let u := s.writeBack line home
    u = { s with ports := u.ports, msgs := u.msgs, stuck := u.stuck, outSeq := u.outSeq } := by
  unfold State.writeBack
  dsimp only
  exact transmit_shape s home _ _ _

/-- A line of another package that is held here, and the oldest such line of full slices written back (R356). -/
theorem holdLine_shape (s : State) (line : Nat) : let u := s.holdLine line
    u = { s with putLines := u.putLines, ports := u.ports, msgs := u.msgs, stuck := u.stuck, outSeq := u.outSeq } := by
  unfold State.holdLine
  split
  · rfl
  · split
    · split
      · rfl
      · rename_i old r hp hl
        have h := writeBack_shape { s with putLines := r } old (s.homeOf (128 * old))
        dsimp only at h ⊢
        generalize State.writeBack { s with putLines := r } old (s.homeOf (128 * old)) = v at h ⊢
        rw [h]
    · rfl

/-- A write of a line homed in another package is sent there, and the line held (R250, R356). -/
theorem sendCommit_shape (s : State) (ctx line : Nat) (d : SMap Byte) (p : SMap Bool) : let u := s.sendCommit ctx line d p
    u = { s with putLines := u.putLines, ports := u.ports, msgs := u.msgs, stuck := u.stuck, outSeq := u.outSeq } := by
  unfold State.sendCommit
  split
  · have h1 := transmit_shape s (s.homeOf (128 * line)) ctx s.tgen (.commit line d p)
    have h2 := holdLine_shape (s.transmit (s.homeOf (128 * line)) ctx s.tgen (.commit line d p)) line
    dsimp only at h1 h2 ⊢
    generalize (s.transmit (s.homeOf (128 * line)) ctx s.tgen (.commit line d p)).holdLine line = v at h2 ⊢
    rw [h1] at h2
    rw [h2]
  · rfl

/-- An access to a tier page changes its state, and may start a fill (R345). -/
theorem touchTier_shape (s : State) (pa : Nat) : let u := s.touchTier pa
    u = { s with tier := u.tier, due := u.due } := by
  unfold State.touchTier State.startFill
  split
  · rfl
  · split <;> rfl

/-- A line of the host that is obtained is one more that the host has granted (R417). -/
theorem obtain_shape (s : State) (line : Nat) : let u := s.obtain line
    u = { s with granted := u.granted, hostShared := u.hostShared } := by
  unfold State.obtain
  split <;> rfl

/-- A line written at the coherent level: memory, the P lines, the directory, the tier page, and the recalls that go out. -/
theorem cohLine_shape (s : State) (line : Nat) (d : SMap Byte) (p : SMap Bool) : let u := s.cohLine line d p
    u = { s with mem := u.mem, dir := u.dir, recalls := u.recalls, pline := u.pline, ports := u.ports, msgs := u.msgs, stuck := u.stuck,
                 outSeq := u.outSeq, granted := u.granted, hostShared := u.hostShared, tier := u.tier, due := u.due } := by
  have h0 := dropEntry_shape s line
  have h1 := obtain_shape (s.dropEntry line) line
  have h2 := touchTier_shape ((s.dropEntry line).obtain line) (128 * line)
  unfold State.cohLine
  dsimp only at h0 h1 h2 ⊢
  generalize ((s.dropEntry line).obtain line).touchTier (128 * line) = v at h2 ⊢
  rw [h1, h0] at h2
  rw [h2]

theorem Mem.setCells_append (d d' : SMap Byte) : ∀ m : Mem, m.setCells (d ++ d') = (m.setCells d).setCells d' := by
  induction d with
  | nil => exact fun _ => rfl
  | cons e r ih => exact fun m => ih _

theorem Mem.setCells_congr (d : SMap Byte) : ∀ m m' : Mem, (∀ a, m.byte a = m'.byte a) →
    ∀ a, (m.setCells d).byte a = (m'.setCells d).byte a := by
  induction d with
  | nil => exact fun _ _ h => h
  | cons e r ih =>
    intro m m' hm
    refine ih _ _ fun a => ?_
    by_cases ha : a = e.1
    · subst ha; simp
    · rw [Mem.byte_setByte_ne _ _ ha, Mem.byte_setByte_ne _ _ ha, hm]

/-- No atomic is queued at a line (R273). -/
abbrev State.noQueue (s : State) (line : Nat) : Prop := ∀ q r, sget? s.hot line ≠ some (q :: r)

theorem flushHot_none {s : State} {line : Nat} (h : s.noQueue line) : s.flushHot line = s := by
  unfold State.flushHot
  split
  · rename_i q r hq; exact absurd hq (h q r)
  · rfl

/-- A write-through that lands on a line that no wait watches and no atomic queues at: memory takes its bytes, and groups,
write-throughs, waits and queues stay. -/
theorem landWt_spec {s : State} {w : WriteThrough} (h : s.waitsOn w.line (fun _ => true) = []) (hq : s.noQueue w.line) :
    let u := s.landWt w
    u.groups = s.groups ∧ u.wts = s.wts ∧ u.waits = s.waits ∧ u.hot = s.hot ∧ ∀ a, u.mem.byte a = (s.mem.setCells w.data).byte a := by
  have hs := sendCommit_shape s (((s.kernel? w.kernel).map Kernel.ctx).getD 0) w.line w.data w.psn
  unfold State.landWt
  dsimp only at hs ⊢
  generalize s.sendCommit (((s.kernel? w.kernel).map Kernel.ctx).getD 0) w.line w.data w.psn = t at hs ⊢
  have hq' : t.noQueue w.line := by rw [hs]; exact hq
  rw [flushHot_none hq']
  have hc := cohLine_shape t w.line w.data w.psn
  have hb := cohLine_byte t w.line w.data w.psn
  have ht : (t.cohLine w.line w.data w.psn).waitsOn w.line (fun _ => true) = [] := by
    unfold State.waitsOn at h ⊢
    dsimp only at hc
    rw [hc, hs]
    exact h
  unfold State.cohWriteLine
  rw [noteWrite_none ht]
  dsimp only at hc ⊢
  refine ⟨?_, ?_, ?_, ?_, fun a => ?_⟩
  · rw [hc, hs]
  · rw [hc, hs]
  · rw [hc, hs]
  · rw [hc, hs]
  · rw [hb, hs]

/-- Write-throughs of one line that no wait watches and no atomic queues at, in order: memory takes all their bytes. -/
theorem landList_spec {line : Nat} (l : List WriteThrough) (hl : ∀ w ∈ l, w.line = line) : ∀ s : State,
    s.waitsOn line (fun _ => true) = [] → s.noQueue line → let u := l.foldl State.landWt s
    u.groups = s.groups ∧ u.wts = s.wts ∧ ∀ a, u.mem.byte a = (s.mem.setCells ((l.map fun w => w.data).flatten)).byte a := by
  induction l with
  | nil => exact fun _ _ _ => ⟨rfl, rfl, fun _ => rfl⟩
  | cons w r ih =>
    intro s h hq
    have e := hl w (List.mem_cons_self ..)
    obtain ⟨a1, a2, a3, a4, a5⟩ := landWt_spec (s := s) (w := w) (by rw [e]; exact h) (by rw [e]; exact hq)
    have h' : (s.landWt w).waitsOn line (fun _ => true) = [] := by
      unfold State.waitsOn at h ⊢; rw [a3]; exact h
    have hq' : (s.landWt w).noQueue line := by intro q r; rw [a4]; exact hq q r
    obtain ⟨b1, b2, b3⟩ := ih (fun x hx => hl x (List.mem_cons_of_mem _ hx)) (s.landWt w) h' hq'
    simp only [List.foldl_cons, List.map_cons, List.flatten_cons]
    refine ⟨b1.trans a1, b2.trans a2, fun a => ?_⟩
    rw [b3, Mem.setCells_append]
    exact Mem.setCells_congr _ _ _ a5 a

end Sys2Proof.Machine
end

