-- ==== Sys2Proof/Laws/Encode.lean ====
section
/-! SUPPORT. The fields of a packed unit read back as they were written (R48 to R55, R59), format by format. -/

namespace Sys2Proof

/-! ### Codes -/

theorem tyOf_tyBits (t : Ty) : tyOf (tyBits t) = some t := by cases t <;> rfl
theorem spaceOf_spaceBits (x : Space) : spaceOf (spaceBits x) = x := by cases x <;> rfl
theorem policyOf_policyBits (x : Policy) : policyOf (policyBits x) = x := by cases x <;> rfl
theorem rndOf_rndBits (x : Rnd) : rndOf (rndBits x) = some x := by cases x <;> rfl
theorem ixsOf_ixsBits (x : Ixs) : ixsOf (ixsBits x) = x := by cases x <;> rfl
theorem cmOf_cmBits (x : Cm) : cmOf (cmBits x) = some x := by cases x <;> rfl

/-! ### The base word (R48) -/

theorem ofBool_lsb (b : Bool) (i : Nat) (h : i = 0) : (BitVec.ofBool b).getLsbD i = b := by
  subst h; cases b <;> rfl

@[simp] theorem rawA_pack (a : Bool) (maj : BitVec 7) (fn : BitVec 6) (ty : BitVec 4) (k : BitVec 3) (kn : Bool)
    (ops : BitVec 42) : rawA (packBase a maj fn ty k kn ops) = a := by
  simp only [rawA, packBase, BitVec.getLsbD_append]
  simp (disch := omega) only [if_neg]
  exact ofBool_lsb _ _ (by omega)

@[simp] theorem rawKn_pack (a : Bool) (maj : BitVec 7) (fn : BitVec 6) (ty : BitVec 4) (k : BitVec 3) (kn : Bool)
    (ops : BitVec 42) : rawKn (packBase a maj fn ty k kn ops) = kn := by
  simp only [rawKn, packBase, BitVec.getLsbD_append]
  simp (disch := omega) only [if_pos, if_neg]
  exact ofBool_lsb _ _ (by omega)

@[simp] theorem rawK_pack (a : Bool) (maj : BitVec 7) (fn : BitVec 6) (ty : BitVec 4) (k : BitVec 3) (kn : Bool)
    (ops : BitVec 42) :
    rawK (packBase a maj fn ty k kn ops) = k := by
  apply BitVec.eq_of_getLsbD_eq
  intro i hi
  simp only [rawK, packBase, bitsAt, BitVec.getLsbD_extractLsb', BitVec.getLsbD_append, hi, decide_true, Bool.true_and]
  simp (disch := omega) only [if_pos, if_neg]
  congr 1; omega

@[simp] theorem rawTy_pack (a : Bool) (maj : BitVec 7) (fn : BitVec 6) (ty : BitVec 4) (k : BitVec 3) (kn : Bool)
    (ops : BitVec 42) :
    rawTy (packBase a maj fn ty k kn ops) = ty := by
  apply BitVec.eq_of_getLsbD_eq
  intro i hi
  simp only [rawTy, packBase, bitsAt, BitVec.getLsbD_extractLsb', BitVec.getLsbD_append, hi, decide_true, Bool.true_and]
  simp (disch := omega) only [if_pos, if_neg]
  congr 1; omega

@[simp] theorem rawFn_pack (a : Bool) (maj : BitVec 7) (fn : BitVec 6) (ty : BitVec 4) (k : BitVec 3) (kn : Bool)
    (ops : BitVec 42) :
    rawFn (packBase a maj fn ty k kn ops) = fn := by
  apply BitVec.eq_of_getLsbD_eq
  intro i hi
  simp only [rawFn, packBase, bitsAt, BitVec.getLsbD_extractLsb', BitVec.getLsbD_append, hi, decide_true, Bool.true_and]
  simp (disch := omega) only [if_pos, if_neg]
  congr 1; omega

@[simp] theorem rawMaj_pack (a : Bool) (maj : BitVec 7) (fn : BitVec 6) (ty : BitVec 4) (k : BitVec 3) (kn : Bool)
    (ops : BitVec 42) :
    rawMaj (packBase a maj fn ty k kn ops) = maj := by
  apply BitVec.eq_of_getLsbD_eq
  intro i hi
  simp only [rawMaj, packBase, bitsAt, BitVec.getLsbD_extractLsb', BitVec.getLsbD_append, hi, decide_true, Bool.true_and]
  simp (disch := omega) only [if_pos, if_neg]
  congr 1; omega

/-- A field of the operands is the field of the packed word. -/
theorem bitsAt_pack (a : Bool) (maj : BitVec 7) (fn : BitVec 6) (ty : BitVec 4) (k : BitVec 3) (kn : Bool)
    (ops : BitVec 42) (lo len : Nat) (h : lo + len ≤ 42) :
    bitsAt (packBase a maj fn ty k kn ops) lo len = bitsAt ops lo len := by
  apply BitVec.eq_of_getLsbD_eq
  intro i hi
  simp only [packBase, bitsAt, BitVec.getLsbD_extractLsb', BitVec.getLsbD_append, hi, decide_true, Bool.true_and]
  simp (disch := omega) only [if_pos]

theorem getLsbD_pack (a : Bool) (maj : BitVec 7) (fn : BitVec 6) (ty : BitVec 4) (k : BitVec 3) (kn : Bool)
    (ops : BitVec 42) (i : Nat) (h : i < 42) :
    (packBase a maj fn ty k kn ops).getLsbD i = ops.getLsbD i := by
  simp only [packBase, BitVec.getLsbD_append]
  rw [if_pos h]

/-! ### Format V -/

theorem packV_sak (f : FmtV) : (packV f).getLsbD 8 = f.sak := by
  simp only [packV, BitVec.getLsbD_append]
  simp (disch := omega) only [if_pos, if_neg]
  exact ofBool_lsb _ _ (by omega)

theorem packV_sbk (f : FmtV) : (packV f).getLsbD 9 = f.sbk := by
  simp only [packV, BitVec.getLsbD_append]
  simp (disch := omega) only [if_pos, if_neg]
  exact ofBool_lsb _ _ (by omega)

theorem packV_sc (f : FmtV) : bitsAt (packV f) 10 8 = f.sc := by
  apply BitVec.eq_of_getLsbD_eq
  intro i hi
  simp only [packV, bitsAt, BitVec.getLsbD_extractLsb', BitVec.getLsbD_append, hi, decide_true, Bool.true_and]
  simp (disch := omega) only [if_pos, if_neg]
  congr 1; omega

theorem packV_sb (f : FmtV) : bitsAt (packV f) 18 8 = f.sb := by
  apply BitVec.eq_of_getLsbD_eq
  intro i hi
  simp only [packV, bitsAt, BitVec.getLsbD_extractLsb', BitVec.getLsbD_append, hi, decide_true, Bool.true_and]
  simp (disch := omega) only [if_pos, if_neg]
  congr 1; omega

theorem packV_sa (f : FmtV) : bitsAt (packV f) 26 8 = f.sa := by
  apply BitVec.eq_of_getLsbD_eq
  intro i hi
  simp only [packV, bitsAt, BitVec.getLsbD_extractLsb', BitVec.getLsbD_append, hi, decide_true, Bool.true_and]
  simp (disch := omega) only [if_pos, if_neg]
  congr 1; omega

theorem packV_d (f : FmtV) : bitsAt (packV f) 34 8 = f.d := by
  apply BitVec.eq_of_getLsbD_eq
  intro i hi
  simp only [packV, bitsAt, BitVec.getLsbD_extractLsb', BitVec.getLsbD_append, hi, decide_true, Bool.true_and]
  simp (disch := omega) only [if_neg]
  congr 1; omega

/-! ### Format I -/

theorem packI_imm (f : FmtI) : bitsAt (packI f) 0 26 = f.imm := by
  apply BitVec.eq_of_getLsbD_eq
  intro i hi
  simp only [packI, bitsAt, BitVec.getLsbD_extractLsb', BitVec.getLsbD_append, hi, decide_true, Bool.true_and]
  simp (disch := omega) only [if_pos]
  congr 1; omega

theorem packI_sa (f : FmtI) : bitsAt (packI f) 26 8 = f.sa := by
  apply BitVec.eq_of_getLsbD_eq
  intro i hi
  simp only [packI, bitsAt, BitVec.getLsbD_extractLsb', BitVec.getLsbD_append, hi, decide_true, Bool.true_and]
  simp (disch := omega) only [if_pos, if_neg]
  congr 1; omega

theorem packI_d (f : FmtI) : bitsAt (packI f) 34 8 = f.d := by
  apply BitVec.eq_of_getLsbD_eq
  intro i hi
  simp only [packI, bitsAt, BitVec.getLsbD_extractLsb', BitVec.getLsbD_append, hi, decide_true, Bool.true_and]
  simp (disch := omega) only [if_neg]
  congr 1; omega

/-! ### Format L -/

theorem packL_imm (f : FmtL) : bitsAt (packL f) 0 32 = f.imm := by
  apply BitVec.eq_of_getLsbD_eq
  intro i hi
  simp only [packL, bitsAt, BitVec.getLsbD_extractLsb', BitVec.getLsbD_append, hi, decide_true, Bool.true_and]
  simp (disch := omega) only [if_pos]
  congr 1; omega

theorem packL_d (f : FmtL) : bitsAt (packL f) 34 8 = f.d := by
  apply BitVec.eq_of_getLsbD_eq
  intro i hi
  simp only [packL, bitsAt, BitVec.getLsbD_extractLsb', BitVec.getLsbD_append, hi, decide_true, Bool.true_and]
  simp (disch := omega) only [if_neg]
  congr 1; omega

/-! ### Format M -/

theorem packM_off (f : FmtM) : bitsAt (packM f) 0 13 = f.off := by
  apply BitVec.eq_of_getLsbD_eq
  intro i hi
  simp only [packM, bitsAt, BitVec.getLsbD_extractLsb', BitVec.getLsbD_append, hi, decide_true, Bool.true_and]
  simp (disch := omega) only [if_pos]
  congr 1; omega

theorem packM_cp (f : FmtM) : bitsAt (packM f) 13 2 = policyBits f.cp := by
  apply BitVec.eq_of_getLsbD_eq
  intro i hi
  simp only [packM, bitsAt, BitVec.getLsbD_extractLsb', BitVec.getLsbD_append, hi, decide_true, Bool.true_and]
  simp (disch := omega) only [if_pos, if_neg]
  congr 1; omega

theorem packM_sp (f : FmtM) : bitsAt (packM f) 15 3 = spaceBits f.sp := by
  apply BitVec.eq_of_getLsbD_eq
  intro i hi
  simp only [packM, bitsAt, BitVec.getLsbD_extractLsb', BitVec.getLsbD_append, hi, decide_true, Bool.true_and]
  simp (disch := omega) only [if_pos, if_neg]
  congr 1; omega

theorem packM_sb (f : FmtM) : bitsAt (packM f) 18 8 = f.sb := by
  apply BitVec.eq_of_getLsbD_eq
  intro i hi
  simp only [packM, bitsAt, BitVec.getLsbD_extractLsb', BitVec.getLsbD_append, hi, decide_true, Bool.true_and]
  simp (disch := omega) only [if_pos, if_neg]
  congr 1; omega

theorem packM_sa (f : FmtM) : bitsAt (packM f) 26 8 = f.sa := by
  apply BitVec.eq_of_getLsbD_eq
  intro i hi
  simp only [packM, bitsAt, BitVec.getLsbD_extractLsb', BitVec.getLsbD_append, hi, decide_true, Bool.true_and]
  simp (disch := omega) only [if_pos, if_neg]
  congr 1; omega

theorem packM_d (f : FmtM) : bitsAt (packM f) 34 8 = f.d := by
  apply BitVec.eq_of_getLsbD_eq
  intro i hi
  simp only [packM, bitsAt, BitVec.getLsbD_extractLsb', BitVec.getLsbD_append, hi, decide_true, Bool.true_and]
  simp (disch := omega) only [if_neg]
  congr 1; omega

/-! ### Format B -/

theorem packB_off (f : FmtB) : bitsAt (packB f) 0 32 = f.off := by
  apply BitVec.eq_of_getLsbD_eq
  intro i hi
  simp only [packB, bitsAt, BitVec.getLsbD_extractLsb', BitVec.getLsbD_append, hi, decide_true, Bool.true_and]
  simp (disch := omega) only [if_pos]
  congr 1; omega

theorem packB_cm (f : FmtB) : bitsAt (packB f) 32 2 = cmBits f.cm := by
  apply BitVec.eq_of_getLsbD_eq
  intro i hi
  simp only [packB, bitsAt, BitVec.getLsbD_extractLsb', BitVec.getLsbD_append, hi, decide_true, Bool.true_and]
  simp (disch := omega) only [if_pos, if_neg]
  congr 1; omega

theorem packB_sa (f : FmtB) : bitsAt (packB f) 34 8 = f.sa := by
  apply BitVec.eq_of_getLsbD_eq
  intro i hi
  simp only [packB, bitsAt, BitVec.getLsbD_extractLsb', BitVec.getLsbD_append, hi, decide_true, Bool.true_and]
  simp (disch := omega) only [if_neg]
  congr 1; omega

/-! ### Format S -/

theorem packS_imm (f : FmtS) : bitsAt (packS f) 0 18 = f.imm := by
  apply BitVec.eq_of_getLsbD_eq
  intro i hi
  simp only [packS, bitsAt, BitVec.getLsbD_extractLsb', BitVec.getLsbD_append, hi, decide_true, Bool.true_and]
  simp (disch := omega) only [if_pos]
  congr 1; omega

theorem packS_sb (f : FmtS) : bitsAt (packS f) 18 8 = f.sb := by
  apply BitVec.eq_of_getLsbD_eq
  intro i hi
  simp only [packS, bitsAt, BitVec.getLsbD_extractLsb', BitVec.getLsbD_append, hi, decide_true, Bool.true_and]
  simp (disch := omega) only [if_pos, if_neg]
  congr 1; omega

theorem packS_sa (f : FmtS) : bitsAt (packS f) 26 8 = f.sa := by
  apply BitVec.eq_of_getLsbD_eq
  intro i hi
  simp only [packS, bitsAt, BitVec.getLsbD_extractLsb', BitVec.getLsbD_append, hi, decide_true, Bool.true_and]
  simp (disch := omega) only [if_pos, if_neg]
  congr 1; omega

theorem packS_d (f : FmtS) : bitsAt (packS f) 34 8 = f.d := by
  apply BitVec.eq_of_getLsbD_eq
  intro i hi
  simp only [packS, bitsAt, BitVec.getLsbD_extractLsb', BitVec.getLsbD_append, hi, decide_true, Bool.true_and]
  simp (disch := omega) only [if_neg]
  congr 1; omega

/-! ### The prefix (R59) -/

theorem prefixParcel_e (p : Prefix) : bitsAt (prefixParcel p) 0 3 = p.e := by
  apply BitVec.eq_of_getLsbD_eq
  intro i hi
  simp only [prefixParcel, bitsAt, BitVec.getLsbD_extractLsb', BitVec.getLsbD_append, hi, decide_true, Bool.true_and]
  simp (disch := omega) only [if_pos]
  congr 1; omega

theorem prefixParcel_ixr (p : Prefix) : bitsAt (prefixParcel p) 3 3 = p.ixr := by
  apply BitVec.eq_of_getLsbD_eq
  intro i hi
  simp only [prefixParcel, bitsAt, BitVec.getLsbD_extractLsb', BitVec.getLsbD_append, hi, decide_true, Bool.true_and]
  simp (disch := omega) only [if_pos, if_neg]
  congr 1; omega

theorem prefixParcel_ixs (p : Prefix) : bitsAt (prefixParcel p) 6 2 = ixsBits p.ixs := by
  apply BitVec.eq_of_getLsbD_eq
  intro i hi
  simp only [prefixParcel, bitsAt, BitVec.getLsbD_extractLsb', BitVec.getLsbD_append, hi, decide_true, Bool.true_and]
  simp (disch := omega) only [if_pos, if_neg]
  congr 1; omega

theorem prefixParcel_sd (p : Prefix) : bitsAt (prefixParcel p) 8 8 = p.sd := by
  apply BitVec.eq_of_getLsbD_eq
  intro i hi
  simp only [prefixParcel, bitsAt, BitVec.getLsbD_extractLsb', BitVec.getLsbD_append, hi, decide_true, Bool.true_and]
  simp (disch := omega) only [if_pos, if_neg]
  congr 1; omega

theorem prefixParcel_rm (p : Prefix) : bitsAt (prefixParcel p) 16 3 = rndBits p.rm := by
  apply BitVec.eq_of_getLsbD_eq
  intro i hi
  simp only [prefixParcel, bitsAt, BitVec.getLsbD_extractLsb', BitVec.getLsbD_append, hi, decide_true, Bool.true_and]
  simp (disch := omega) only [if_pos, if_neg]
  congr 1; omega

theorem prefixParcel_z (p : Prefix) : (prefixParcel p).getLsbD 19 = p.z := by
  simp only [prefixParcel, BitVec.getLsbD_append]
  simp (disch := omega) only [if_pos, if_neg]
  exact ofBool_lsb _ _ (by omega)

theorem prefixParcel_k4 (p : Prefix) : bitsAt (prefixParcel p) 20 4 = p.k4 := by
  apply BitVec.eq_of_getLsbD_eq
  intro i hi
  simp only [prefixParcel, bitsAt, BitVec.getLsbD_extractLsb', BitVec.getLsbD_append, hi, decide_true, Bool.true_and]
  simp (disch := omega) only [if_pos, if_neg]
  congr 1; omega

theorem prefixOf_prefixParcel (p : Prefix) : prefixOf (prefixParcel p) = some p := by
  simp only [prefixOf, prefixParcel_rm, rndOf_rndBits, Option.map_some, prefixParcel_k4, prefixParcel_z, prefixParcel_sd,
    prefixParcel_ixs, ixsOf_ixsBits, prefixParcel_ixr, prefixParcel_e]

theorem unitPrefix_map (p : Option Prefix) (w : DWord) : unitPrefix ⟨p.map prefixParcel, w⟩ = p := by
  cases p with
  | none => rfl
  | some p => simp only [unitPrefix, Option.map_some, prefixOf_prefixParcel, Option.getD_some]

/-! ### Every format reads back whole -/

theorem fmtV_pack (f : FmtV) (maj : BitVec 7) (fn : BitVec 6) :
    fmtV ⟨f.pfx.map prefixParcel, packBase f.a maj fn (tyBits f.ty) f.k f.kn (packV f)⟩ = f := by
  simp only [fmtV, unitPrefix_map, rawA_pack, rawTy_pack, tyOf_tyBits, Option.getD_some, rawK_pack, rawKn_pack]
  simp only [bitsAt_pack _ _ _ _ _ _ _ _ _ (by decide : 34 + 8 ≤ 42), bitsAt_pack _ _ _ _ _ _ _ _ _ (by decide : 26 + 8 ≤ 42),
    bitsAt_pack _ _ _ _ _ _ _ _ _ (by decide : 18 + 8 ≤ 42), bitsAt_pack _ _ _ _ _ _ _ _ _ (by decide : 10 + 8 ≤ 42),
    getLsbD_pack _ _ _ _ _ _ _ _ (by decide : 9 < 42), getLsbD_pack _ _ _ _ _ _ _ _ (by decide : 8 < 42),
    packV_d, packV_sa, packV_sb, packV_sc, packV_sbk, packV_sak]

theorem fmtI_pack (f : FmtI) (maj : BitVec 7) (fn : BitVec 6) :
    fmtI ⟨f.pfx.map prefixParcel, packBase f.a maj fn (tyBits f.ty) f.k f.kn (packI f)⟩ = f := by
  simp only [fmtI, unitPrefix_map, rawA_pack, rawTy_pack, tyOf_tyBits, Option.getD_some, rawK_pack, rawKn_pack]
  simp only [bitsAt_pack _ _ _ _ _ _ _ _ _ (by decide : 34 + 8 ≤ 42), bitsAt_pack _ _ _ _ _ _ _ _ _ (by decide : 26 + 8 ≤ 42),
    bitsAt_pack _ _ _ _ _ _ _ _ _ (by decide : 0 + 26 ≤ 42), packI_d, packI_sa, packI_imm]

theorem fmtL_pack (f : FmtL) (maj : BitVec 7) (fn : BitVec 6) :
    fmtL ⟨f.pfx.map prefixParcel, packBase f.a maj fn (tyBits f.ty) f.k f.kn (packL f)⟩ = f := by
  simp only [fmtL, unitPrefix_map, rawA_pack, rawTy_pack, tyOf_tyBits, Option.getD_some, rawK_pack, rawKn_pack]
  simp only [bitsAt_pack _ _ _ _ _ _ _ _ _ (by decide : 34 + 8 ≤ 42), bitsAt_pack _ _ _ _ _ _ _ _ _ (by decide : 0 + 32 ≤ 42),
    packL_d, packL_imm]

theorem packM_fn (f : FmtM) (fn : BitVec 4) :
    bitsAt (BitVec.ofBool f.sak ++ BitVec.ofBool f.nb ++ fn) 0 4 = fn := by
  apply BitVec.eq_of_getLsbD_eq
  intro i hi
  simp only [bitsAt, BitVec.getLsbD_extractLsb', BitVec.getLsbD_append, hi, decide_true, Bool.true_and]
  rw [if_pos (by omega)]; congr 1; omega

theorem fmtM_pack (f : FmtM) (maj : BitVec 7) (fn : BitVec 4) :
    fmtM ⟨f.pfx.map prefixParcel, packBase f.a maj (BitVec.ofBool f.sak ++ BitVec.ofBool f.nb ++ fn) (tyBits f.ty) f.k f.kn
      (packM f)⟩ = f := by
  simp only [fmtM, unitPrefix_map, rawA_pack, rawTy_pack, tyOf_tyBits, Option.getD_some, rawK_pack, rawKn_pack]
  have h1 : (packBase f.a maj (BitVec.ofBool f.sak ++ BitVec.ofBool f.nb ++ fn) (tyBits f.ty) f.k f.kn (packM f)).getLsbD 55 =
      f.sak := by
    simp only [packBase, BitVec.getLsbD_append]
    simp (disch := omega) only [if_neg]
    exact ofBool_lsb _ _ (by omega)
  have h2 : (packBase f.a maj (BitVec.ofBool f.sak ++ BitVec.ofBool f.nb ++ fn) (tyBits f.ty) f.k f.kn (packM f)).getLsbD 54 =
      f.nb := by
    simp only [packBase, BitVec.getLsbD_append]
    simp (disch := omega) only [if_neg]
    exact ofBool_lsb _ _ (by omega)
  simp only [h1, h2, bitsAt_pack _ _ _ _ _ _ _ _ _ (by decide : 34 + 8 ≤ 42),
    bitsAt_pack _ _ _ _ _ _ _ _ _ (by decide : 26 + 8 ≤ 42), bitsAt_pack _ _ _ _ _ _ _ _ _ (by decide : 18 + 8 ≤ 42),
    bitsAt_pack _ _ _ _ _ _ _ _ _ (by decide : 15 + 3 ≤ 42), bitsAt_pack _ _ _ _ _ _ _ _ _ (by decide : 13 + 2 ≤ 42),
    bitsAt_pack _ _ _ _ _ _ _ _ _ (by decide : 0 + 13 ≤ 42), packM_d, packM_sa, packM_sb, packM_sp, packM_cp, packM_off,
    spaceOf_spaceBits, policyOf_policyBits]

theorem fmtB_pack (f : FmtB) (maj : BitVec 7) (fn : BitVec 6) :
    fmtB ⟨none, packBase false maj fn 0 f.k f.kn (packB f)⟩ = f := by
  simp only [fmtB, rawK_pack, rawKn_pack]
  simp only [bitsAt_pack _ _ _ _ _ _ _ _ _ (by decide : 34 + 8 ≤ 42), bitsAt_pack _ _ _ _ _ _ _ _ _ (by decide : 32 + 2 ≤ 42),
    bitsAt_pack _ _ _ _ _ _ _ _ _ (by decide : 0 + 32 ≤ 42), packB_sa, packB_cm, packB_off, cmOf_cmBits, Option.getD_some]

theorem fmtS_pack (f : FmtS) (maj : BitVec 7) (fn : BitVec 6) (ty : BitVec 4) :
    fmtS ⟨none, packBase false maj fn ty f.k f.kn (packS f)⟩ = f := by
  simp only [fmtS, rawK_pack, rawKn_pack]
  simp only [bitsAt_pack _ _ _ _ _ _ _ _ _ (by decide : 34 + 8 ≤ 42), bitsAt_pack _ _ _ _ _ _ _ _ _ (by decide : 26 + 8 ≤ 42),
    bitsAt_pack _ _ _ _ _ _ _ _ _ (by decide : 18 + 8 ≤ 42), bitsAt_pack _ _ _ _ _ _ _ _ _ (by decide : 0 + 18 ≤ 42),
    packS_d, packS_sa, packS_sb, packS_imm]

end Sys2Proof
end

