-- ==== Sys2Proof/Laws/PerInstr.lean ====
section
/-! SUPPORT. Instruction by instruction: the unit an encoder writes for a well-formed instruction is built back into it
(R63). -/

namespace Sys2Proof

theorem lowestDetail_isNone_iff (l : List (Nat × Bool)) :
    (lowestDetail l).isNone = true ↔ ∀ p ∈ l, p.2 = false := by
  induction l with
  | nil => simp [lowestDetail]
  | cons a r ih =>
    obtain ⟨d, b⟩ := a
    cases b with
    | false => simpa [lowestDetail] using ih
    | true =>
      simp only [lowestDetail]
      split <;> simp

/-- A well-formed instruction earns none of its details. -/
theorem wellFormed_detail {i : Instr} (h : wellFormed i = true) (p : Nat × Bool) (hp : p ∈ i.info.details) :
    p.2 = false := by
  simp only [wellFormed, Bool.and_eq_true] at h
  exact (lowestDetail_isNone_iff _).1 h.2 p hp

theorem fmtS_imm {u : RawUnit} {f : FmtS} (h : fmtS u = f) : bitsAt u.base 0 18 = f.imm := by subst h; rfl

theorem fmtS_imm_bits {u : RawUnit} {f : FmtS} (h : fmtS u = f) (n : Nat) (hn : n ≤ 18) :
    bitsAt u.base 0 n = bitsAt f.imm 0 n := by
  rw [← fmtS_imm h]
  apply BitVec.eq_of_getLsbD_eq
  intro i hi
  simp only [bitsAt, BitVec.getLsbD_extractLsb', hi, decide_true, Bool.true_and]
  rw [decide_eq_true (by omega : 0 + i < 18), Bool.true_and]
  congr 1; omega

theorem fmtS_imm_bit {u : RawUnit} {f : FmtS} (h : fmtS u = f) (n : Nat) (hn : n < 18) :
    u.base.getLsbD n = f.imm.getLsbD n := by
  rw [← fmtS_imm h]
  simp only [bitsAt, BitVec.getLsbD_extractLsb']
  rw [decide_eq_true hn, Bool.true_and]
  congr 1; omega

/-- A bit of the immediate that the entry does not assign is 0 in a well-formed instruction. -/
theorem imm_bit_zero {x m : BitVec 18} (h : x &&& ~~~m = 0#18) (n : Nat) (hn : n < 18) (hm : m.getLsbD n = false) :
    x.getLsbD n = false := by
  have e : (x &&& ~~~m).getLsbD n = false := by rw [h]; simp
  rw [BitVec.getLsbD_and, BitVec.getLsbD_not, hm] at e
  simpa only [hn, decide_true, Bool.not_false, Bool.and_true] using e

theorem mask_bit {x m : BitVec 18} (h : x = m) {n : Nat} (hm : m.getLsbD n = false) : x.getLsbD n = false := h ▸ hm

theorem imm_zero {x m : BitVec 18} (h : x &&& ~~~m = 0#18) (hm : ~~~m = BitVec.allOnes 18 := by rfl) : x = 0#18 := by
  rw [hm, BitVec.and_allOnes] at h; exact h

theorem rawFn_bit (w : DWord) (i : Nat) (hi : i < 6) : w.getLsbD (50 + i) = (rawFn w).getLsbD i := by
  simp only [rawFn, bitsAt, BitVec.getLsbD_extractLsb', hi, decide_true, Bool.true_and]

namespace Laws.Builds

/-- The encoder writes a unit for the instruction, and its major and FN name the instruction again (R63). -/
def Statement (i : Instr) : Prop := wellFormed i = true → ∃ u, encodeUnit i = some u ∧ buildUnit u = .ok i

theorem of_v {i : Instr} {maj : BitVec 7} {fn : BitVec 6} {q : VSpec} {f : FmtV} (hi : i.info = .v maj fn q f)
    (h : ∀ u n, fmtV u = f → rawFn u.base = fn → buildAt maj.toNat fn.toNat n u = .ok i) : Statement i := by
  intro _
  refine ⟨⟨f.pfx.map prefixParcel, packBase f.a maj fn (tyBits f.ty) f.k f.kn (packV f)⟩, ?_, ?_⟩
  · simp only [encodeUnit, hi]
  · simp only [buildUnit, rawMaj_pack, rawFn_pack]
    exact h _ _ (fmtV_pack f maj fn) (rawFn_pack ..)

theorem of_i {i : Instr} {maj : BitVec 7} {fn : BitVec 6} {q : VSpec} {f : FmtI} (hi : i.info = .i maj fn q f)
    (h : ∀ u n, fmtI u = f → buildAt maj.toNat fn.toNat n u = .ok i) : Statement i := by
  intro _
  refine ⟨⟨f.pfx.map prefixParcel, packBase f.a maj fn (tyBits f.ty) f.k f.kn (packI f)⟩, ?_, ?_⟩
  · simp only [encodeUnit, hi]
  · simp only [buildUnit, rawMaj_pack, rawFn_pack]
    exact h _ _ (fmtI_pack f maj fn)

theorem of_l {i : Instr} {maj : BitVec 7} {fn : BitVec 6} {q : VSpec} {f : FmtL} (hi : i.info = .l maj fn q f)
    (h : ∀ u n, fmtL u = f → buildAt maj.toNat fn.toNat n u = .ok i) : Statement i := by
  intro _
  refine ⟨⟨f.pfx.map prefixParcel, packBase f.a maj fn (tyBits f.ty) f.k f.kn (packL f)⟩, ?_, ?_⟩
  · simp only [encodeUnit, hi]
  · simp only [buildUnit, rawMaj_pack, rawFn_pack]
    exact h _ _ (fmtL_pack f maj fn)

theorem fn4_append (a b : Bool) (fn : BitVec 4) : (BitVec.ofBool a ++ BitVec.ofBool b ++ fn).toNat % 16 = fn.toNat := by
  have h : ∀ (a b : Bool) (fn : BitVec 4), (BitVec.ofBool a ++ BitVec.ofBool b ++ fn).toNat % 16 = fn.toNat := by decide
  exact h a b fn

theorem of_m {i : Instr} {maj : BitVec 7} {fn : BitVec 4} {q : MSpec} {f : FmtM} (hi : i.info = .m maj fn q f)
    (h : ∀ u n, fmtM u = f → buildAt maj.toNat n fn.toNat u = .ok i) :
    Statement i := by
  intro _
  refine ⟨⟨f.pfx.map prefixParcel, packBase f.a maj (BitVec.ofBool f.sak ++ BitVec.ofBool f.nb ++ fn) (tyBits f.ty) f.k
    f.kn (packM f)⟩, ?_, ?_⟩
  · simp only [encodeUnit, hi]
  · simp only [buildUnit, rawMaj_pack, rawFn_pack, fn4_append]
    exact h _ _ (fmtM_pack f maj fn)

theorem of_b {i : Instr} {maj : BitVec 7} {fn : BitVec 6} {q : BSpec} {f : FmtB} (hi : i.info = .b maj fn q f)
    (h : ∀ u n, fmtB u = f → buildAt maj.toNat fn.toNat n u = .ok i) : Statement i := by
  intro _
  refine ⟨⟨none, packBase false maj fn 0 f.k f.kn (packB f)⟩, ?_, ?_⟩
  · simp only [encodeUnit, hi]
  · simp only [buildUnit, rawMaj_pack, rawFn_pack]
    exact h _ _ (fmtB_pack f maj fn)

theorem of_s {i : Instr} {maj : BitVec 7} {fn : BitVec 6} {ty : Ty} {q : SSpec} {f : FmtS}
    (hi : i.info = .s maj fn ty q f)
    (h : wellFormed i = true → ∀ u n, fmtS u = f → rawTy u.base = tyBits ty → buildAt maj.toNat fn.toNat n u = .ok i) : Statement i := by
  intro hw
  refine ⟨⟨none, packBase false maj fn (tyBits ty) f.k f.kn (packS f)⟩, ?_, ?_⟩
  · simp only [encodeUnit, hi]
  · simp only [buildUnit, rawMaj_pack, rawFn_pack]
    exact h hw _ _ (fmtS_pack f maj fn _) (rawTy_pack ..)

/-- The immediate of a well-formed format-S instruction stays inside the bits its entry assigns. -/
theorem imm_masked {i : Instr} {maj : BitVec 7} {fn : BitVec 6} {ty : Ty} {q : SSpec} {f : FmtS}
    (hi : i.info = .s maj fn ty q f) (h : wellFormed i = true) : f.imm &&& ~~~q.immMask = 0#18 := by
  have e := wellFormed_detail h (3, f.imm &&& ~~~q.immMask != 0#18) (by rw [hi]; simp [Info.details, detailsS])
  simpa using e

/-- A further check of a well-formed format-S instruction does not apply. -/
theorem extra_clear {i : Instr} {maj : BitVec 7} {fn : BitVec 6} {ty : Ty} {q : SSpec} {f : FmtS}
    (hi : i.info = .s maj fn ty q f) (h : wellFormed i = true) (p : Nat × Bool) (hp : p ∈ q.extra) : p.2 = false :=
  wellFormed_detail h p (by rw [hi]; simp [Info.details, detailsS, hp])

/-- An event is no instruction of code: nothing is well-formed. -/
theorem of_event {i : Instr} (hi : i.info = .event) : Statement i := by
  intro h
  simp [wellFormed, Instr.coded, hi] at h

theorem nop (f : FmtS) : Statement (.nop f) :=
  of_s rfl fun _ _ _ h _ => by subst h; rfl

theorem yield (f : FmtS) : Statement (.yield f) :=
  of_s rfl fun _ _ _ h _ => by subst h; rfl

theorem brk (f : FmtS) : Statement (.brk f) :=
  of_s rfl fun _ _ _ h _ => by subst h; rfl

theorem bra (f : FmtB) : Statement (.bra f) :=
  of_b rfl fun _ _ h => by subst h; rfl

theorem jtb (f : FmtB) : Statement (.jtb f) :=
  of_b rfl fun _ _ h => by subst h; rfl

theorem lpad (f : FmtS) : Statement (.lpad f) :=
  of_s rfl fun _ _ _ h _ => by subst h; rfl

theorem call (f : FmtB) : Statement (.call f) :=
  of_b rfl fun _ _ h => by subst h; rfl

theorem callj (f : FmtB) : Statement (.callj f) :=
  of_b rfl fun _ _ h => by subst h; rfl

theorem ret (f : FmtS) : Statement (.ret f) :=
  of_s rfl fun _ _ _ h _ => by subst h; rfl

theorem exit (f : FmtS) : Statement (.exit f) :=
  of_s rfl fun _ _ _ h _ => by subst h; rfl

theorem cdecl (f : FmtS) : Statement (.cdecl f) :=
  of_s rfl fun _ _ _ h _ => by subst h; rfl

theorem csign (f : FmtS) : Statement (.csign f) :=
  of_s rfl fun _ _ _ h _ => by subst h; rfl

theorem partset (f : FmtS) : Statement (.partset f) :=
  of_s rfl fun _ _ _ h _ => by subst h; rfl

theorem movsr (f : FmtS) : Statement (.movsr f) :=
  of_s rfl fun hw u _ h _ => by
    have e : f.imm.getLsbD 17 = false := by
      exact imm_bit_zero (imm_masked rfl hw) 17 (by decide) (mask_bit (m := 0x3F) rfl (by decide))
    rw [← fmtS_imm_bit h 17 (by decide)] at e
    subst h
    show (fun o : Option Instr => match o with | some i => (.ok i : Except Nat Instr) | none => .error 2) (if u.base.getLsbD 17 = true then _ else _) = _
    rw [e]; rfl

theorem movsrVector (f : FmtS) : Statement (.movsrVector f) :=
  of_s rfl fun hw u _ h _ => by
    have e : f.imm.getLsbD 17 = true := by
      simpa using extra_clear rfl hw (3, !f.imm.getLsbD 17) (by simp)
    rw [← fmtS_imm_bit h 17 (by decide)] at e
    subst h
    show (fun o : Option Instr => match o with | some i => (.ok i : Except Nat Instr) | none => .error 2) (if u.base.getLsbD 17 = true then _ else _) = _
    rw [e]; rfl

theorem movts (f : FmtS) : Statement (.movts f) :=
  of_s rfl fun _ _ _ h _ => by subst h; rfl

theorem setx (f : FmtI) : Statement (.setx f) :=
  of_i rfl fun _ _ h => by subst h; rfl

theorem span (f : FmtS) : Statement (.span f) :=
  of_s rfl fun _ _ _ h _ => by subst h; rfl

theorem trap (f : FmtS) : Statement (.trap f) :=
  of_s rfl fun _ _ _ h _ => by subst h; rfl

theorem resumeF (f : FmtS) : Statement (.resumeF f) :=
  of_s rfl fun hw u _ h _ => by
    have e : f.imm = 0#18 := by
      exact imm_zero (imm_masked rfl hw)
    have e2 := (fmtS_imm_bits h 2 (by decide)).trans (congrArg (bitsAt · 0 2) e)
    subst h
    show buildResume (bitsAt u.base 0 2).toNat (fmtS u) = _
    rw [e2]; rfl

theorem resumeS (f : FmtS) : Statement (.resumeS f) :=
  of_s rfl fun hw u _ h _ => by
    have e : f.imm = 1#18 := by
      simpa using extra_clear rfl hw (3, decide (f.imm ≠ 1#18)) (by simp)
    have e2 := (fmtS_imm_bits h 2 (by decide)).trans (congrArg (bitsAt · 0 2) e)
    subst h
    show buildResume (bitsAt u.base 0 2).toNat (fmtS u) = _
    rw [e2]; rfl

theorem resumeN (f : FmtS) : Statement (.resumeN f) :=
  of_s rfl fun hw u _ h _ => by
    have e : f.imm = 2#18 := by
      simpa using extra_clear rfl hw (3, decide (f.imm ≠ 2#18)) (by simp)
    have e2 := (fmtS_imm_bits h 2 (by decide)).trans (congrArg (bitsAt · 0 2) e)
    subst h
    show buildResume (bitsAt u.base 0 2).toNat (fmtS u) = _
    rw [e2]; rfl

theorem abortg (f : FmtS) : Statement (.abortg f) :=
  of_s rfl fun _ _ _ h _ => by subst h; rfl

theorem launch (f : FmtS) : Statement (.launch f) :=
  of_s rfl fun _ _ _ h _ => by subst h; rfl

theorem alloc (f : FmtS) : Statement (.alloc f) :=
  of_s rfl fun _ _ _ h _ => by subst h; rfl

theorem freeb (f : FmtS) : Statement (.freeb f) :=
  of_s rfl fun _ _ _ h _ => by subst h; rfl

theorem iadd (f : FmtV) : Statement (.iadd f) :=
  of_v rfl fun _ _ h _ => by subst h; rfl

theorem isub (f : FmtV) : Statement (.isub f) :=
  of_v rfl fun _ _ h _ => by subst h; rfl

theorem imin (f : FmtV) : Statement (.imin f) :=
  of_v rfl fun _ _ h _ => by subst h; rfl

theorem imax (f : FmtV) : Statement (.imax f) :=
  of_v rfl fun _ _ h _ => by subst h; rfl

theorem ineg (f : FmtV) : Statement (.ineg f) :=
  of_v rfl fun _ _ h _ => by subst h; rfl

theorem iabs (f : FmtV) : Statement (.iabs f) :=
  of_v rfl fun _ _ h _ => by subst h; rfl

theorem iaddc (f : FmtV) : Statement (.iaddc f) :=
  of_v rfl fun _ _ h _ => by subst h; rfl

theorem isubc (f : FmtV) : Statement (.isubc f) :=
  of_v rfl fun _ _ h _ => by subst h; rfl

theorem iadds (f : FmtV) : Statement (.iadds f) :=
  of_v rfl fun _ _ h _ => by subst h; rfl

theorem isubs (f : FmtV) : Statement (.isubs f) :=
  of_v rfl fun _ _ h _ => by subst h; rfl

theorem imul (f : FmtV) : Statement (.imul f) :=
  of_v rfl fun _ _ h _ => by subst h; rfl

theorem imad (f : FmtV) : Statement (.imad f) :=
  of_v rfl fun _ _ h _ => by subst h; rfl

theorem imulh (f : FmtV) : Statement (.imulh f) :=
  of_v rfl fun _ _ h _ => by subst h; rfl

theorem imadw (f : FmtV) : Statement (.imadw f) :=
  of_v rfl fun _ _ h _ => by subst h; rfl

theorem idiv (f : FmtV) : Statement (.idiv f) :=
  of_v rfl fun _ _ h _ => by subst h; rfl

theorem irem (f : FmtV) : Statement (.irem f) :=
  of_v rfl fun _ _ h _ => by subst h; rfl

theorem iaddUniform (f : FmtV) : Statement (.iaddUniform f) :=
  of_v rfl fun _ _ h _ => by subst h; rfl

theorem isubUniform (f : FmtV) : Statement (.isubUniform f) :=
  of_v rfl fun _ _ h _ => by subst h; rfl

theorem iminUniform (f : FmtV) : Statement (.iminUniform f) :=
  of_v rfl fun _ _ h _ => by subst h; rfl

theorem imaxUniform (f : FmtV) : Statement (.imaxUniform f) :=
  of_v rfl fun _ _ h _ => by subst h; rfl

theorem inegUniform (f : FmtV) : Statement (.inegUniform f) :=
  of_v rfl fun _ _ h _ => by subst h; rfl

theorem iabsUniform (f : FmtV) : Statement (.iabsUniform f) :=
  of_v rfl fun _ _ h _ => by subst h; rfl

theorem iaddcUniform (f : FmtV) : Statement (.iaddcUniform f) :=
  of_v rfl fun _ _ h _ => by subst h; rfl

theorem isubcUniform (f : FmtV) : Statement (.isubcUniform f) :=
  of_v rfl fun _ _ h _ => by subst h; rfl

theorem iaddsUniform (f : FmtV) : Statement (.iaddsUniform f) :=
  of_v rfl fun _ _ h _ => by subst h; rfl

theorem isubsUniform (f : FmtV) : Statement (.isubsUniform f) :=
  of_v rfl fun _ _ h _ => by subst h; rfl

theorem imulUniform (f : FmtV) : Statement (.imulUniform f) :=
  of_v rfl fun _ _ h _ => by subst h; rfl

theorem imadUniform (f : FmtV) : Statement (.imadUniform f) :=
  of_v rfl fun _ _ h _ => by subst h; rfl

theorem imulhUniform (f : FmtV) : Statement (.imulhUniform f) :=
  of_v rfl fun _ _ h _ => by subst h; rfl

theorem imadwUniform (f : FmtV) : Statement (.imadwUniform f) :=
  of_v rfl fun _ _ h _ => by subst h; rfl

theorem idivUniform (f : FmtV) : Statement (.idivUniform f) :=
  of_v rfl fun _ _ h _ => by subst h; rfl

theorem iremUniform (f : FmtV) : Statement (.iremUniform f) :=
  of_v rfl fun _ _ h _ => by subst h; rfl

theorem icmp (cc : Cmp) (f : FmtV) : Statement (.icmp cc f) :=
  of_v rfl fun _ _ h _ => by subst h; cases cc <;> rfl

theorem isel (f : FmtV) : Statement (.isel f) :=
  of_v rfl fun _ _ h _ => by subst h; rfl

theorem and (f : FmtV) : Statement (.and f) :=
  of_v rfl fun _ _ h _ => by subst h; rfl

theorem or (f : FmtV) : Statement (.or f) :=
  of_v rfl fun _ _ h _ => by subst h; rfl

theorem xor (f : FmtV) : Statement (.xor f) :=
  of_v rfl fun _ _ h _ => by subst h; rfl

theorem andn (f : FmtV) : Statement (.andn f) :=
  of_v rfl fun _ _ h _ => by subst h; rfl

theorem orn (f : FmtV) : Statement (.orn f) :=
  of_v rfl fun _ _ h _ => by subst h; rfl

theorem xnor (f : FmtV) : Statement (.xnor f) :=
  of_v rfl fun _ _ h _ => by subst h; rfl

theorem not (f : FmtV) : Statement (.not f) :=
  of_v rfl fun _ _ h _ => by subst h; rfl

theorem andUniform (f : FmtV) : Statement (.andUniform f) :=
  of_v rfl fun _ _ h _ => by subst h; rfl

theorem orUniform (f : FmtV) : Statement (.orUniform f) :=
  of_v rfl fun _ _ h _ => by subst h; rfl

theorem xorUniform (f : FmtV) : Statement (.xorUniform f) :=
  of_v rfl fun _ _ h _ => by subst h; rfl

theorem andnUniform (f : FmtV) : Statement (.andnUniform f) :=
  of_v rfl fun _ _ h _ => by subst h; rfl

theorem ornUniform (f : FmtV) : Statement (.ornUniform f) :=
  of_v rfl fun _ _ h _ => by subst h; rfl

theorem xnorUniform (f : FmtV) : Statement (.xnorUniform f) :=
  of_v rfl fun _ _ h _ => by subst h; rfl

theorem notUniform (f : FmtV) : Statement (.notUniform f) :=
  of_v rfl fun _ _ h _ => by subst h; rfl

theorem shl (f : FmtV) : Statement (.shl f) :=
  of_v rfl fun _ _ h _ => by subst h; rfl

theorem shr (f : FmtV) : Statement (.shr f) :=
  of_v rfl fun _ _ h _ => by subst h; rfl

theorem sar (f : FmtV) : Statement (.sar f) :=
  of_v rfl fun _ _ h _ => by subst h; rfl

theorem rol (f : FmtV) : Statement (.rol f) :=
  of_v rfl fun _ _ h _ => by subst h; rfl

theorem ror (f : FmtV) : Statement (.ror f) :=
  of_v rfl fun _ _ h _ => by subst h; rfl

theorem fshl (f : FmtV) : Statement (.fshl f) :=
  of_v rfl fun _ _ h _ => by subst h; rfl

theorem fshr (f : FmtV) : Statement (.fshr f) :=
  of_v rfl fun _ _ h _ => by subst h; rfl

theorem shlUniform (f : FmtV) : Statement (.shlUniform f) :=
  of_v rfl fun _ _ h _ => by subst h; rfl

theorem shrUniform (f : FmtV) : Statement (.shrUniform f) :=
  of_v rfl fun _ _ h _ => by subst h; rfl

theorem sarUniform (f : FmtV) : Statement (.sarUniform f) :=
  of_v rfl fun _ _ h _ => by subst h; rfl

theorem rolUniform (f : FmtV) : Statement (.rolUniform f) :=
  of_v rfl fun _ _ h _ => by subst h; rfl

theorem rorUniform (f : FmtV) : Statement (.rorUniform f) :=
  of_v rfl fun _ _ h _ => by subst h; rfl

theorem fshlUniform (f : FmtV) : Statement (.fshlUniform f) :=
  of_v rfl fun _ _ h _ => by subst h; rfl

theorem fshrUniform (f : FmtV) : Statement (.fshrUniform f) :=
  of_v rfl fun _ _ h _ => by subst h; rfl

theorem bext (f : FmtV) : Statement (.bext f) :=
  of_v rfl fun _ _ h _ => by subst h; rfl

theorem bins (f : FmtV) : Statement (.bins f) :=
  of_v rfl fun _ _ h _ => by subst h; rfl

theorem popc (f : FmtV) : Statement (.popc f) :=
  of_v rfl fun _ _ h _ => by subst h; rfl

theorem clz (f : FmtV) : Statement (.clz f) :=
  of_v rfl fun _ _ h _ => by subst h; rfl

theorem ctz (f : FmtV) : Statement (.ctz f) :=
  of_v rfl fun _ _ h _ => by subst h; rfl

theorem brev (f : FmtV) : Statement (.brev f) :=
  of_v rfl fun _ _ h _ => by subst h; rfl

theorem bswap (f : FmtV) : Statement (.bswap f) :=
  of_v rfl fun _ _ h _ => by subst h; rfl

theorem bextUniform (f : FmtV) : Statement (.bextUniform f) :=
  of_v rfl fun _ _ h _ => by subst h; rfl

theorem binsUniform (f : FmtV) : Statement (.binsUniform f) :=
  of_v rfl fun _ _ h _ => by subst h; rfl

theorem popcUniform (f : FmtV) : Statement (.popcUniform f) :=
  of_v rfl fun _ _ h _ => by subst h; rfl

theorem clzUniform (f : FmtV) : Statement (.clzUniform f) :=
  of_v rfl fun _ _ h _ => by subst h; rfl

theorem ctzUniform (f : FmtV) : Statement (.ctzUniform f) :=
  of_v rfl fun _ _ h _ => by subst h; rfl

theorem brevUniform (f : FmtV) : Statement (.brevUniform f) :=
  of_v rfl fun _ _ h _ => by subst h; rfl

theorem bswapUniform (f : FmtV) : Statement (.bswapUniform f) :=
  of_v rfl fun _ _ h _ => by subst h; rfl

theorem clmul (f : FmtV) : Statement (.clmul f) :=
  of_v rfl fun _ _ h _ => by subst h; rfl

theorem clmulh (f : FmtV) : Statement (.clmulh f) :=
  of_v rfl fun _ _ h _ => by subst h; rfl

theorem clmulUniform (f : FmtV) : Statement (.clmulUniform f) :=
  of_v rfl fun _ _ h _ => by subst h; rfl

theorem clmulhUniform (f : FmtV) : Statement (.clmulhUniform f) :=
  of_v rfl fun _ _ h _ => by subst h; rfl

theorem lea (f : FmtV) : Statement (.lea f) :=
  of_v rfl fun _ _ h _ => by subst h; rfl

theorem leaUniform (f : FmtV) : Statement (.leaUniform f) :=
  of_v rfl fun _ _ h _ => by subst h; rfl

theorem mov (f : FmtV) : Statement (.mov f) :=
  of_v rfl fun _ _ h _ => by subst h; rfl

theorem movUniform (f : FmtV) : Statement (.movUniform f) :=
  of_v rfl fun _ _ h _ => by subst h; rfl

theorem movg (f : FmtV) : Statement (.movg f) :=
  of_v rfl fun _ _ h _ => by subst h; rfl

theorem gmov (f : FmtV) : Statement (.gmov f) :=
  of_v rfl fun _ _ h _ => by subst h; rfl

theorem movi (f : FmtL) : Statement (.movi f) :=
  of_l rfl fun _ _ h => by subst h; rfl

theorem moviUniform (f : FmtL) : Statement (.moviUniform f) :=
  of_l rfl fun _ _ h => by subst h; rfl

theorem iaddi (f : FmtI) : Statement (.iaddi f) :=
  of_i rfl fun _ _ h => by subst h; rfl

theorem andi (f : FmtI) : Statement (.andi f) :=
  of_i rfl fun _ _ h => by subst h; rfl

theorem ori (f : FmtI) : Statement (.ori f) :=
  of_i rfl fun _ _ h => by subst h; rfl

theorem xori (f : FmtI) : Statement (.xori f) :=
  of_i rfl fun _ _ h => by subst h; rfl

theorem shli (f : FmtI) : Statement (.shli f) :=
  of_i rfl fun _ _ h => by subst h; rfl

theorem shri (f : FmtI) : Statement (.shri f) :=
  of_i rfl fun _ _ h => by subst h; rfl

theorem sari (f : FmtI) : Statement (.sari f) :=
  of_i rfl fun _ _ h => by subst h; rfl

theorem iaddiUniform (f : FmtI) : Statement (.iaddiUniform f) :=
  of_i rfl fun _ _ h => by subst h; rfl

theorem andiUniform (f : FmtI) : Statement (.andiUniform f) :=
  of_i rfl fun _ _ h => by subst h; rfl

theorem oriUniform (f : FmtI) : Statement (.oriUniform f) :=
  of_i rfl fun _ _ h => by subst h; rfl

theorem xoriUniform (f : FmtI) : Statement (.xoriUniform f) :=
  of_i rfl fun _ _ h => by subst h; rfl

theorem shliUniform (f : FmtI) : Statement (.shliUniform f) :=
  of_i rfl fun _ _ h => by subst h; rfl

theorem shriUniform (f : FmtI) : Statement (.shriUniform f) :=
  of_i rfl fun _ _ h => by subst h; rfl

theorem sariUniform (f : FmtI) : Statement (.sariUniform f) :=
  of_i rfl fun _ _ h => by subst h; rfl

theorem kand (f : FmtV) : Statement (.kand f) :=
  of_v rfl fun _ _ h _ => by subst h; rfl

theorem kor (f : FmtV) : Statement (.kor f) :=
  of_v rfl fun _ _ h _ => by subst h; rfl

theorem kxor (f : FmtV) : Statement (.kxor f) :=
  of_v rfl fun _ _ h _ => by subst h; rfl

theorem knot (f : FmtV) : Statement (.knot f) :=
  of_v rfl fun _ _ h _ => by subst h; rfl

theorem kmov (f : FmtV) : Statement (.kmov f) :=
  of_v rfl fun _ _ h _ => by subst h; rfl

theorem kpopc (f : FmtV) : Statement (.kpopc f) :=
  of_v rfl fun _ _ h _ => by subst h; rfl

theorem kfirst (f : FmtV) : Statement (.kfirst f) :=
  of_v rfl fun _ _ h _ => by subst h; rfl

theorem shfl (mode : ShflMode) (f : FmtV) : Statement (.shfl mode f) :=
  of_v rfl fun _ _ h _ => by subst h; cases mode <;> rfl

theorem voteAny (f : FmtV) : Statement (.voteAny f) :=
  of_v rfl fun _ _ h _ => by subst h; rfl

theorem voteAll (f : FmtV) : Statement (.voteAll f) :=
  of_v rfl fun _ _ h _ => by subst h; rfl

theorem voteBallot (f : FmtV) : Statement (.voteBallot f) :=
  of_v rfl fun _ _ h _ => by subst h; rfl

theorem redl (fn : RedFn) (f : FmtV) : Statement (.redl fn f) :=
  of_v rfl fun _ _ h _ => by subst h; cases fn <;> rfl

theorem scanl (fn : RedFn) (excl : Bool) (f : FmtV) : Statement (.scanl fn excl f) :=
  of_v rfl fun _ _ h _ => by subst h; cases fn <;> cases excl <;> rfl

theorem matchLanes (mode : MatchMode) (f : FmtV) : Statement (.matchLanes mode f) :=
  of_v rfl fun _ _ h _ => by subst h; cases mode <;> rfl

theorem fadd (f : FmtV) : Statement (.fadd f) :=
  of_v rfl fun _ _ h _ => by subst h; rfl

theorem fsub (f : FmtV) : Statement (.fsub f) :=
  of_v rfl fun _ _ h _ => by subst h; rfl

theorem fmul (f : FmtV) : Statement (.fmul f) :=
  of_v rfl fun _ _ h _ => by subst h; rfl

theorem fmin (f : FmtV) : Statement (.fmin f) :=
  of_v rfl fun _ _ h _ => by subst h; rfl

theorem fmax (f : FmtV) : Statement (.fmax f) :=
  of_v rfl fun _ _ h _ => by subst h; rfl

theorem fminm (f : FmtV) : Statement (.fminm f) :=
  of_v rfl fun _ _ h _ => by subst h; rfl

theorem fmaxm (f : FmtV) : Statement (.fmaxm f) :=
  of_v rfl fun _ _ h _ => by subst h; rfl

theorem fabs (f : FmtV) : Statement (.fabs f) :=
  of_v rfl fun _ _ h _ => by subst h; rfl

theorem fneg (f : FmtV) : Statement (.fneg f) :=
  of_v rfl fun _ _ h _ => by subst h; rfl

theorem fcopysign (f : FmtV) : Statement (.fcopysign f) :=
  of_v rfl fun _ _ h _ => by subst h; rfl

theorem ffma (f : FmtV) : Statement (.ffma f) :=
  of_v rfl fun _ _ h _ => by subst h; rfl

theorem ffms (f : FmtV) : Statement (.ffms f) :=
  of_v rfl fun _ _ h _ => by subst h; rfl

theorem fnma (f : FmtV) : Statement (.fnma f) :=
  of_v rfl fun _ _ h _ => by subst h; rfl

theorem fcmp (cc : FCmp) (f : FmtV) : Statement (.fcmp cc f) :=
  of_v rfl fun _ _ h _ => by subst h; cases cc <;> rfl

theorem fclass (f : FmtV) : Statement (.fclass f) :=
  of_v rfl fun _ _ h _ => by subst h; rfl

theorem frcp (f : FmtV) : Statement (.frcp f) :=
  of_v rfl fun _ _ h _ => by subst h; rfl

theorem frsq (f : FmtV) : Statement (.frsq f) :=
  of_v rfl fun _ _ h _ => by subst h; rfl

theorem fsqrt (f : FmtV) : Statement (.fsqrt f) :=
  of_v rfl fun _ _ h _ => by subst h; rfl

theorem fexp2 (f : FmtV) : Statement (.fexp2 f) :=
  of_v rfl fun _ _ h _ => by subst h; rfl

theorem flog2 (f : FmtV) : Statement (.flog2 f) :=
  of_v rfl fun _ _ h _ => by subst h; rfl

theorem fsin (f : FmtV) : Statement (.fsin f) :=
  of_v rfl fun _ _ h _ => by subst h; rfl

theorem fcos (f : FmtV) : Statement (.fcos f) :=
  of_v rfl fun _ _ h _ => by subst h; rfl

theorem ftanh (f : FmtV) : Statement (.ftanh f) :=
  of_v rfl fun _ _ h _ => by subst h; rfl

theorem fdot2 (f : FmtV) : Statement (.fdot2 f) :=
  of_v rfl fun _ _ h _ => by subst h; rfl

theorem cvtfi (src : Ty) (f : FmtV) : Statement (.cvtfi src f) :=
  of_v rfl fun _ _ h _ => by subst h; cases src <;> rfl

theorem cvtif (src : Ty) (f : FmtV) : Statement (.cvtif src f) :=
  of_v rfl fun _ _ h _ => by subst h; cases src <;> rfl

theorem cvtff (src : Ty) (sat amax : Bool) (f : FmtV) : Statement (.cvtff src sat amax f) :=
  of_v rfl fun u _ h h2 => by
    have e4 := rawFn_bit u.base 4 (by decide)
    have e5 := rawFn_bit u.base 5 (by decide)
    rw [h2] at e4 e5
    have hs : srcTy (BitVec.ofBool amax ++ BitVec.ofBool sat ++ tyBits src).toNat = some src := by
      cases src <;> cases sat <;> cases amax <;> rfl
    subst h
    show (fun o : Option Instr => match o with | some i => (.ok i : Except Nat Instr) | none => .error 2) ((srcTy _).map (Instr.cvtff · (u.base.getLsbD (50 + 4)) (u.base.getLsbD (50 + 5)) (fmtV u))) = _
    rw [hs, e4, e5]
    cases src <;> cases sat <;> cases amax <;> rfl

theorem frnd (f : FmtV) : Statement (.frnd f) :=
  of_v rfl fun _ _ h _ => by subst h; rfl

theorem scaleb (f : FmtV) : Statement (.scaleb f) :=
  of_v rfl fun _ _ h _ => by subst h; rfl

theorem packf4 (f : FmtV) : Statement (.packf4 f) :=
  of_v rfl fun _ _ h _ => by subst h; rfl

theorem unpackf4 (f : FmtV) : Statement (.unpackf4 f) :=
  of_v rfl fun _ _ h _ => by subst h; rfl

theorem ld (wd : MemWidth) (f : FmtM) : Statement (.ld wd f) :=
  of_m rfl fun _ _ h => by subst h; cases wd <;> rfl

theorem st (wd : MemWidth) (f : FmtM) : Statement (.st wd f) :=
  of_m rfl fun _ _ h => by subst h; cases wd <;> rfl

theorem ldt (f : FmtM) : Statement (.ldt f) :=
  of_m rfl fun _ _ h => by subst h; rfl

theorem prf (f : FmtM) : Statement (.prf f) :=
  of_m rfl fun _ _ h => by subst h; rfl

theorem cpa (f : FmtS) : Statement (.cpa f) :=
  of_s rfl fun _ _ _ h _ => by subst h; rfl

theorem cpaGcm (f : FmtS) : Statement (.cpaGcm f) :=
  of_s rfl fun _ _ _ h _ => by subst h; rfl

theorem cpwait (f : FmtS) : Statement (.cpwait f) :=
  of_s rfl fun hw u _ h _ => by
    have e : f.imm.getLsbD 17 = false := by
      exact imm_bit_zero (imm_masked rfl hw) 17 (by decide) (mask_bit (m := 0) rfl (by decide))
    rw [← fmtS_imm_bit h 17 (by decide)] at e
    subst h
    show (if u.base.getLsbD 17 = true then _ else _) = _
    rw [e]; rfl

theorem cpwaitId (f : FmtS) : Statement (.cpwaitId f) :=
  of_s rfl fun hw u _ h _ => by
    have e : f.imm.getLsbD 17 = true := by
      simpa using extra_clear rfl hw (3, !f.imm.getLsbD 17) (by simp)
    rw [← fmtS_imm_bit h 17 (by decide)] at e
    subst h
    show (if u.base.getLsbD 17 = true then _ else _) = _
    rw [e]; rfl

theorem cppoll (f : FmtS) : Statement (.cppoll f) :=
  of_s rfl fun _ _ _ h _ => by subst h; rfl

theorem cctlInv (f : FmtS) : Statement (.cctlInv f) :=
  of_s rfl fun hw u _ h _ => by
    have e : f.imm = 0#18 := by
      exact imm_zero (imm_masked rfl hw)
    have e2 := (fmtS_imm_bits h 3 (by decide)).trans (congrArg (bitsAt · 0 3) e)
    subst h
    show buildCctl (bitsAt u.base 0 3).toNat (fmtS u) = _
    rw [e2]; rfl

theorem cctlInvr (f : FmtS) : Statement (.cctlInvr f) :=
  of_s rfl fun hw u _ h _ => by
    have e : f.imm = 1#18 := by
      simpa using extra_clear rfl hw (3, decide (f.imm ≠ 1#18)) (by simp)
    have e2 := (fmtS_imm_bits h 3 (by decide)).trans (congrArg (bitsAt · 0 3) e)
    subst h
    show buildCctl (bitsAt u.base 0 3).toNat (fmtS u) = _
    rw [e2]; rfl

theorem cctlWayset (f : FmtS) : Statement (.cctlWayset f) :=
  of_s rfl fun hw u _ h _ => by
    have e : f.imm = 2#18 := by
      simpa using extra_clear rfl hw (3, decide (f.imm ≠ 2#18)) (by simp)
    have e2 := (fmtS_imm_bits h 3 (by decide)).trans (congrArg (bitsAt · 0 3) e)
    subst h
    show buildCctl (bitsAt u.base 0 3).toNat (fmtS u) = _
    rw [e2]; rfl

theorem pgq (f : FmtM) : Statement (.pgq f) :=
  of_m rfl fun _ _ h => by subst h; rfl

theorem atom (fn : AtomFn) (f : FmtM) : Statement (.atom fn f) :=
  of_m rfl fun _ _ h => by subst h; cases fn <;> rfl

theorem red (fn : AtomFn) (f : FmtM) : Statement (.red fn f) :=
  of_m rfl fun _ _ h => by subst h; cases fn <;> rfl

theorem cas (f : FmtM) : Statement (.cas f) :=
  of_m rfl fun _ _ h => by subst h; rfl

theorem rtree (ty : Ty) (f : FmtS) : Statement (.rtree ty f) :=
  of_s rfl fun _ u _ h h2 => by
    subst h
    show (Except.ok (Instr.rtree ((tyOf (rawTy u.base)).getD .b32) (fmtS u)) : Except Nat Instr) = _
    rw [h2, tyOf_tyBits]; rfl

theorem fence (f : FmtS) : Statement (.fence f) :=
  of_s rfl fun _ _ _ h _ => by subst h; rfl

theorem acq (f : FmtS) : Statement (.acq f) :=
  of_s rfl fun _ _ _ h _ => by subst h; rfl

theorem rel (f : FmtS) : Statement (.rel f) :=
  of_s rfl fun _ _ _ h _ => by subst h; rfl

theorem bind (f : FmtS) : Statement (.bind f) :=
  of_s rfl fun _ _ _ h _ => by subst h; rfl

theorem unbind (f : FmtS) : Statement (.unbind f) :=
  of_s rfl fun _ _ _ h _ => by subst h; rfl

theorem barset (f : FmtS) : Statement (.barset f) :=
  of_s rfl fun _ _ _ h _ => by subst h; rfl

theorem bararv (f : FmtS) : Statement (.bararv f) :=
  of_s rfl fun _ _ _ h _ => by subst h; rfl

theorem barwt (f : FmtS) : Statement (.barwt f) :=
  of_s rfl fun _ _ _ h _ => by subst h; rfl

theorem barsync (f : FmtS) : Statement (.barsync f) :=
  of_s rfl fun _ _ _ h _ => by subst h; rfl

theorem barq (f : FmtS) : Statement (.barq f) :=
  of_s rfl fun _ _ _ h _ => by subst h; rfl

theorem waitu (cc : WaitCc) (f : FmtM) : Statement (.waitu cc f) :=
  of_m rfl fun _ _ h => by subst h; cases cc <;> rfl

theorem mxlease (f : FmtS) : Statement (.mxlease f) :=
  of_s rfl fun _ _ _ h _ => by subst h; rfl

theorem mxfree (f : FmtS) : Statement (.mxfree f) :=
  of_s rfl fun _ _ _ h _ => by subst h; rfl

theorem mxcfg (f : FmtS) : Statement (.mxcfg f) :=
  of_s rfl fun _ _ _ h _ => by subst h; rfl

theorem mxw (f : FmtS) : Statement (.mxw f) :=
  of_s rfl fun _ _ _ h _ => by subst h; rfl

theorem mxa (f : FmtS) : Statement (.mxa f) :=
  of_s rfl fun _ _ _ h _ => by subst h; rfl

theorem mxrd (f : FmtV) : Statement (.mxrd f) :=
  of_v rfl fun _ _ h _ => by subst h; rfl

theorem mxwr (f : FmtV) : Statement (.mxwr f) :=
  of_v rfl fun _ _ h _ => by subst h; rfl

theorem mxz (f : FmtS) : Statement (.mxz f) :=
  of_s rfl fun _ _ _ h _ => by subst h; rfl

theorem put (f : FmtS) : Statement (.put f) :=
  of_s rfl fun _ _ _ h _ => by subst h; rfl

theorem reconf (f : FmtS) : Statement (.reconf f) :=
  of_s rfl fun _ _ _ h _ => by subst h; rfl

theorem specialFunctionWriteback (w : WarpId) (reg : Nat) : Statement (.specialFunctionWriteback w reg) :=
  of_event rfl

theorem loadWriteback (w : WarpId) (id : Nat) : Statement (.loadWriteback w id) :=
  of_event rfl

theorem copyLineWrite (copy line : Nat) : Statement (.copyLineWrite copy line) :=
  of_event rfl

theorem tagVerify (copy : Nat) : Statement (.tagVerify copy) :=
  of_event rfl

theorem copyEnd (copy : Nat) : Statement (.copyEnd copy) :=
  of_event rfl

theorem atomicWriteback (w : WarpId) (id : Nat) : Statement (.atomicWriteback w id) :=
  of_event rfl

theorem contribution (id : Nat) : Statement (.contribution id) :=
  of_event rfl

theorem sampledEvaluation (wait line : Nat) : Statement (.sampledEvaluation wait line) :=
  of_event rfl

theorem spillScan (line : Nat) : Statement (.spillScan line) :=
  of_event rfl

theorem dependenceRetry (kernel dep : Nat) : Statement (.dependenceRetry kernel dep) :=
  of_event rfl

theorem mxOperationComplete (core : Nat) : Statement (.mxOperationComplete core) :=
  of_event rfl

theorem pipelineError (w : WarpId) (lanes : LaneMask) (control : Bool) : Statement (.pipelineError w lanes control) :=
  of_event rfl

theorem putLanding (id : Nat) (how : Landing) : Statement (.putLanding id how) :=
  of_event rfl

theorem drainComplete : Statement .drainComplete :=
  of_event rfl

theorem switch : Statement .switch :=
  of_event rfl

theorem commitStep : Statement .commitStep :=
  of_event rfl

theorem quiesceComplete (ctx : Nat) : Statement (.quiesceComplete ctx) :=
  of_event rfl

theorem scrubComplete (ctx : Nat) : Statement (.scrubComplete ctx) :=
  of_event rfl

theorem descriptorRead (kernel : Nat) : Statement (.descriptorRead kernel) :=
  of_event rfl

theorem contextError (ctx : Nat) (cause : CtxErrCause) : Statement (.contextError ctx cause) :=
  of_event rfl

theorem saveComplete (gang : Nat) : Statement (.saveComplete gang) :=
  of_event rfl

theorem restoreComplete (gang : Nat) : Statement (.restoreComplete gang) :=
  of_event rfl

theorem completionActions (kernel : Nat) : Statement (.completionActions kernel) :=
  of_event rfl

theorem bundleFormation (w : WarpId) : Statement (.bundleFormation w) :=
  of_event rfl

theorem redundancyCompare (w : WarpId) : Statement (.redundancyCompare w) :=
  of_event rfl

theorem hotQueueRetire (line : Nat) : Statement (.hotQueueRetire line) :=
  of_event rfl

theorem inval (cmd : BitVec 512) : Statement (.inval cmd) :=
  of_event rfl

theorem copyOutComplete (tier : Nat) : Statement (.copyOutComplete tier) :=
  of_event rfl

theorem fillComplete (tier : Nat) : Statement (.fillComplete tier) :=
  of_event rfl

theorem scanComplete (cell : Nat) : Statement (.scanComplete cell) :=
  of_event rfl

theorem writeThroughArrival (id : Nat) : Statement (.writeThroughArrival id) :=
  of_event rfl

theorem pathLoss (cell : Nat) : Statement (.pathLoss cell) :=
  of_event rfl

theorem pathRestored (cell : Nat) : Statement (.pathRestored cell) :=
  of_event rfl

theorem ownershipRequest (core line : Nat) : Statement (.ownershipRequest core line) :=
  of_event rfl

theorem putAdmission (id : Nat) (reply : Admission) : Statement (.putAdmission id reply) :=
  of_event rfl

theorem packageStop (lastPath : Nat) : Statement (.packageStop lastPath) :=
  of_event rfl

theorem restore (gang sector : Nat) (cores : List Nat) : Statement (.restore gang sector cores) :=
  of_event rfl

theorem schedulerSelect (kernel sector : Nat) (cores : List Nat) : Statement (.schedulerSelect kernel sector cores) :=
  of_event rfl

theorem rtreeTimeout (inst : Nat) : Statement (.rtreeTimeout inst) :=
  of_event rfl

theorem barwtLimit (w : WarpId) (pc : Nat) : Statement (.barwtLimit w pc) :=
  of_event rfl

theorem waitTimeout (wait : Nat) : Statement (.waitTimeout wait) :=
  of_event rfl

theorem lineMigration (line slice : Nat) : Statement (.lineMigration line slice) :=
  of_event rfl

theorem leaseExpiry (core : Nat) : Statement (.leaseExpiry core) :=
  of_event rfl

theorem checkFailure (core op : Nat) : Statement (.checkFailure core op) :=
  of_event rfl

theorem watchdog (core : Nat) : Statement (.watchdog core) :=
  of_event rfl

theorem engineResetComplete (core : Nat) : Statement (.engineResetComplete core) :=
  of_event rfl

theorem join (pkg slot : Nat) (gen : Word) : Statement (.join pkg slot gen) :=
  of_event rfl

theorem gatherTimeout (w : WarpId) : Statement (.gatherTimeout w) :=
  of_event rfl

theorem create (cmd : BitVec 512) : Statement (.create cmd) :=
  of_event rfl

theorem ctxBind (cmd : BitVec 512) : Statement (.ctxBind cmd) :=
  of_event rfl

theorem start (cmd : BitVec 512) : Statement (.start cmd) :=
  of_event rfl

theorem quiesce (cmd : BitVec 512) : Statement (.quiesce cmd) :=
  of_event rfl

theorem destroy (cmd : BitVec 512) : Statement (.destroy cmd) :=
  of_event rfl

theorem keyset (cmd : BitVec 512) (onIde : Bool) : Statement (.keyset cmd onIde) :=
  of_event rfl

theorem keyclr (cmd : BitVec 512) : Statement (.keyclr cmd) :=
  of_event rfl

theorem debuggo (cmd : BitVec 512) : Statement (.debuggo cmd) :=
  of_event rfl

theorem preemption (gang : Nat) : Statement (.preemption gang) :=
  of_event rfl

theorem tdiTransition (ctx : Nat) (onto : TdiState) : Statement (.tdiTransition ctx onto) :=
  of_event rfl

theorem assign (cmd : BitVec 512) : Statement (.assign cmd) :=
  of_event rfl

theorem enable (cmd : BitVec 512) : Statement (.enable cmd) :=
  of_event rfl

theorem drain (cmd : BitVec 512) : Statement (.drain cmd) :=
  of_event rfl

theorem revoke (cmd : BitVec 512) : Statement (.revoke cmd) :=
  of_event rfl

theorem notifyWrite (bar adr link : Nat) (pasid : Option (BitVec 20)) (onIde : Bool) (size : Nat) (data : BitVec 512) : Statement (.notifyWrite bar adr link pasid onIde size data) :=
  of_event rfl

theorem refrecRead (read : BarRead) : Statement (.refrecRead read) :=
  of_event rfl

theorem remapEntryWrite (adr : Nat) (data : BitVec 128) : Statement (.remapEntryWrite adr data) :=
  of_event rfl

theorem reservationTimeout (gang : Nat × Nat) : Statement (.reservationTimeout gang) :=
  of_event rfl

theorem softError (e : SoftErr) : Statement (.softError e) :=
  of_event rfl

theorem hotModeExpiry (line : Nat) : Statement (.hotModeExpiry line) :=
  of_event rfl

theorem pageRequestResponse (id page : Nat) (ok : Bool) : Statement (.pageRequestResponse id page ok) :=
  of_event rfl

theorem evictionSelect (tier : Nat) : Statement (.evictionSelect tier) :=
  of_event rfl

theorem fillFlashError (tier : Nat) : Statement (.fillFlashError tier) :=
  of_event rfl

theorem tierRequest (tier : Nat) : Statement (.tierRequest tier) :=
  of_event rfl

theorem firewallUpdate (page : Nat) (wmask rmask : Word) : Statement (.firewallUpdate page wmask rmask) :=
  of_event rfl

theorem txnTimeout (t : TxnTarget) : Statement (.txnTimeout t) :=
  of_event rfl

theorem formsTheSpace (pkg cell : Nat) (members : List (Nat × Nat)) (slot : Nat) : Statement (.formsTheSpace pkg cell members slot) :=
  of_event rfl

theorem admitsTheCell (cell : Nat) : Statement (.admitsTheCell cell) :=
  of_event rfl

theorem suspectTimeout (cell : Nat) : Statement (.suspectTimeout cell) :=
  of_event rfl

theorem declaresTheCellDead (cell : Nat) : Statement (.declaresTheCellDead cell) :=
  of_event rfl

theorem readmitsTheCell (cell : Nat) : Statement (.readmitsTheCell cell) :=
  of_event rfl

theorem rejoinComplete (cell : Nat) : Statement (.rejoinComplete cell) :=
  of_event rfl

theorem enablesThePort (port : Nat) : Statement (.enablesThePort port) :=
  of_event rfl

theorem summary (port : Nat) (peer : LinkSummary) : Statement (.summary port peer) :=
  of_event rfl

theorem trainingTimeout (port : Nat) : Statement (.trainingTimeout port) :=
  of_event rfl

theorem wavelengthFailure (port fibre wave : Nat) : Statement (.wavelengthFailure port fibre wave) :=
  of_event rfl

theorem laserFailure (port fibre wave : Nat) : Statement (.laserFailure port fibre wave) :=
  of_event rfl

theorem blackoutEnd (port : Nat) : Statement (.blackoutEnd port) :=
  of_event rfl

theorem flitCrcFailure (port : Nat) (same : Bool) : Statement (.flitCrcFailure port same) :=
  of_event rfl

theorem resetsThePort (port : Nat) : Statement (.resetsThePort port) :=
  of_event rfl

theorem packetArrival (h : PacketHdr) : Statement (.packetArrival h) :=
  of_event rfl

theorem slotWrite (slot : Nat) (block : List Byte) : Statement (.slotWrite slot block) :=
  of_event rfl

theorem shapeWrite (sector slot : Nat) (shape : BitVec 256) : Statement (.shapeWrite sector slot shape) :=
  of_event rfl

theorem grantListRemoval (ctx : Nat) : Statement (.grantListRemoval ctx) :=
  of_event rfl

theorem registerWrite (w : RegWrite) : Statement (.registerWrite w) :=
  of_event rfl

theorem telemetryReport (regs : List RegulatorReport) (trim : List Nat) : Statement (.telemetryReport regs trim) :=
  of_event rfl

theorem connectorReport (conn : Connector) (readings : List Nat) : Statement (.connectorReport conn readings) :=
  of_event rfl

theorem spdmMeasurementRequest (link : Nat) (nonce : BitVec 256) : Statement (.spdmMeasurementRequest link nonce) :=
  of_event rfl

theorem packageReset (b : BringUp) : Statement (.packageReset b) :=
  of_event rfl

theorem powerLoss (standby : Bool) : Statement (.powerLoss standby) :=
  of_event rfl

theorem hostSnoop (s : Snoop) : Statement (.hostSnoop s) :=
  of_event rfl

theorem cxlMemRequest (a : CxlAccess) : Statement (.cxlMemRequest a) :=
  of_event rfl

end Laws.Builds

end Sys2Proof
end

