-- ==== Sys2Proof/Laws/Decode.lean ====
section
/-! SUPPORT. The encoder's words read back parcel by parcel: what classifies them, and that they earn no detail (R43, R65). -/

namespace Sys2Proof

theorem lowest_append_none (a b : List (Nat × Bool)) (ha : lowestDetail a = none) (hb : lowestDetail b = none) :
    lowestDetail (a ++ b) = none := by
  induction a with
  | nil => simpa using hb
  | cons e r ih =>
    obtain ⟨d, c⟩ := e
    cases c with
    | false => simpa [lowestDetail] using ih (by simpa [lowestDetail] using ha)
    | true => simp only [lowestDetail] at ha; split at ha <;> simp at ha
theorem bitsAt_toNat {w : Nat} (x : BitVec w) (lo len : Nat) : (bitsAt x lo len).toNat = x.toNat / 2 ^ lo % 2 ^ len := by
  simp only [bitsAt, BitVec.extractLsb'_toNat, Nat.shiftRight_eq_div_pow]

theorem kind_base (w : DWord) (h1 : (rawMaj w).toNat ≠ 0x7E) (h2 : (rawMaj w).toNat ≠ 0x7F) :
    parcelKind (bitsAt w 32 32) = .base := by
  have e : (bitsAt (bitsAt w 32 32) 24 8).toNat = w.toNat / 2 ^ 56 % 256 := by
    rw [bitsAt_toNat, bitsAt_toNat]; omega
  have f : (rawMaj w).toNat = w.toNat / 2 ^ 56 % 128 := bitsAt_toNat w 56 7
  unfold parcelKind
  rw [e]
  split <;> first | omega | rfl

theorem halves (w : DWord) : (bitsAt w 32 32 ++ bitsAt w 0 32 : BitVec 64) = w := by
  apply BitVec.eq_of_getLsbD_eq
  intro i hi
  simp only [bitsAt, BitVec.getLsbD_append, BitVec.getLsbD_extractLsb']
  split
  · rw [decide_eq_true (by omega)]; simp
  · rw [decide_eq_true (by omega), Bool.true_and]; congr 1; omega

theorem kind_pre (p : Prefix) : parcelKind (prefixParcel p) = .pre := by
  have e : bitsAt (prefixParcel p) 24 8 = 0x7E#8 := by
    apply BitVec.eq_of_getLsbD_eq
    intro i hi
    simp only [prefixParcel, bitsAt, BitVec.getLsbD_extractLsb', BitVec.getLsbD_append, hi, decide_true, Bool.true_and]
    simp (disch := omega) only [if_neg]
    congr 1; omega
  unfold parcelKind
  rw [e]; rfl

theorem takeUnit_parcels (u : RawUnit) (rest : List Parcel) (h1 : (rawMaj u.base).toNat ≠ 0x7E) (h2 : (rawMaj u.base).toNat ≠ 0x7F)
    (hp : ∀ p, u.pfx = some p → parcelKind p = .pre) : takeUnit (unitParcels u ++ rest) = .ok u := by
  obtain ⟨pf, w⟩ := u
  have hk := kind_base w h1 h2
  cases pf with
  | none => simp only [unitParcels, List.nil_append, List.cons_append, takeUnit, hk, halves]
  | some p => simp only [unitParcels, List.nil_append, List.cons_append, takeUnit, hk, halves, hp p rfl]

theorem build_maj {u : RawUnit} {i : Instr} (h : buildUnit u = .ok i) : (rawMaj u.base).toNat ≠ 0x7E ∧ (rawMaj u.base).toNat ≠ 0x7F := by
  constructor <;> (intro e; unfold buildUnit at h; rw [e] at h; simp [buildAt] at h)

theorem badRm_none (p : Option Prefix) : (match p.map prefixParcel with | none => false | some q => (prefixOf q).isNone) = false := by
  cases p with
  | none => rfl
  | some p => simp [prefixOf_prefixParcel]

/-- What the encoder writes carries none of the details that the typed fields cannot hold. -/
theorem encodeUnit_rawDetails {i : Instr} {u : RawUnit} (hw : wellFormed i = true) (h : encodeUnit i = some u) :
    lowestDetail (rawDetails u i.info) = none ∧ ∀ p, u.pfx = some p → parcelKind p = .pre := by
  have hpre : ∀ (pf : Option Prefix) (p : Parcel), pf.map prefixParcel = some p → parcelKind p = .pre := by
    intro pf p e
    cases pf with
    | none => simp at e
    | some q => simp at e; subst e; exact kind_pre q
  unfold encodeUnit at h
  cases hi : i.info <;> rw [hi] at h <;> simp only [Option.some.injEq] at h
  case event => simp at h
  case v maj fn q f =>
    subst h
    refine ⟨?_, hpre f.pfx⟩
    have e : bitsAt (packV f) 0 8 = 0#8 := by
      apply BitVec.eq_of_getLsbD_eq
      intro i hi
      simp only [packV, bitsAt, BitVec.getLsbD_extractLsb', BitVec.getLsbD_append, hi, decide_true, Bool.true_and]
      rw [if_pos (by omega)]; simp
    simp only [rawDetails, rawTy_pack, tyOf_tyBits, bitsAt_pack _ _ _ _ _ _ _ _ _ (by decide : 0 + 8 ≤ 42), e]
    cases f.pfx <;> simp [prefixOf_prefixParcel, lowestDetail]
  case i maj fn q f =>
    subst h
    refine ⟨?_, hpre f.pfx⟩
    simp only [rawDetails, rawTy_pack, tyOf_tyBits]
    cases f.pfx <;> simp [prefixOf_prefixParcel, lowestDetail]
  case l maj fn q f =>
    subst h
    refine ⟨?_, hpre f.pfx⟩
    have e : bitsAt (packL f) 32 2 = 0#2 := by
      apply BitVec.eq_of_getLsbD_eq
      intro i hi
      simp only [packL, bitsAt, BitVec.getLsbD_extractLsb', BitVec.getLsbD_append, hi, decide_true, Bool.true_and]
      rw [if_neg (by omega), if_pos (by omega)]; simp
    simp only [rawDetails, rawTy_pack, tyOf_tyBits, bitsAt_pack _ _ _ _ _ _ _ _ _ (by decide : 32 + 2 ≤ 42), e]
    cases f.pfx <;> simp [prefixOf_prefixParcel, lowestDetail]
  case m maj fn q f =>
    subst h
    refine ⟨?_, hpre f.pfx⟩
    simp only [rawDetails, rawTy_pack, tyOf_tyBits]
    cases f.pfx <;> simp [prefixOf_prefixParcel, lowestDetail]
  case b maj fn q f =>
    subst h
    refine ⟨?_, by simp⟩
    simp only [rawDetails, rawTy_pack, rawA_pack, bitsAt_pack _ _ _ _ _ _ _ _ _ (by decide : 32 + 2 ≤ 42), packB_cm, cmOf_cmBits]
    rfl
  case s maj fn ty q f =>
    subst h
    refine ⟨?_, by simp⟩
    have hty := wellFormed_detail hw (q.tyDetail, !(q.tys.contains ty)) (by rw [hi]; simp [Info.details, detailsS])
    simp only [rawDetails, rawTy_pack, rawA_pack, tyOf_tyBits]
    have : (q.tys == [Ty.b32] && tyBits ty != 0#4) = false := by
      cases hq : q.tys == [Ty.b32] with
      | false => rfl
      | true =>
        have hq' := eq_of_beq hq
        rw [hq'] at hty
        cases ty <;> first | rfl | (simp at hty)
    rw [this]; rfl

end Sys2Proof
end

