-- ==== Sys2Proof/Laws/Rows.lean ====
section
/-! SUPPORT. The tables of Sys2Proof/Safety.lean against `exec`: every row names the frame, the operands and the lane
function of its constructor's meaning. -/

namespace Sys2Proof.Machine

theorem arithRows_exec : ∀ r ∈ arithRows, ∀ f s, exec (r.op f) s = alu s f (r.spec f) (r.fn f) := by
  simp only [arithRows, List.forall_mem_cons, List.not_mem_nil, false_imp_iff, implies_true, and_true]
  repeat' apply And.intro
  all_goals exact fun _ _ => rfl

theorem bitRows_exec : ∀ r ∈ bitRows, ∀ f s, exec (r.op f) s = alu s f (r.spec f) (r.fn f) := by
  simp only [bitRows, List.forall_mem_cons, List.not_mem_nil, false_imp_iff, implies_true, and_true]
  repeat' apply And.intro
  all_goals exact fun _ _ => rfl

theorem uniRows_exec : ∀ r ∈ uniRows, ∀ f s, exec (r.op f) s = aluUni s f (r.spec f) (r.fn f) := by
  simp only [uniRows, List.forall_mem_cons, List.not_mem_nil, false_imp_iff, implies_true, and_true]
  repeat' apply And.intro
  all_goals exact fun _ _ => rfl

theorem immRows_exec : ∀ r ∈ immRows, ∀ f s, exec (r.op f) s = alu s (iToV f) (r.spec f) (r.fn f) := by
  simp only [immRows, List.forall_mem_cons, List.not_mem_nil, false_imp_iff, implies_true, and_true]
  repeat' apply And.intro
  all_goals exact fun _ _ => rfl

theorem immUniRows_exec : ∀ r ∈ immUniRows, ∀ f s, exec (r.op f) s = aluUni s (iToV f) (r.spec f) (r.fn f) := by
  simp only [immUniRows, List.forall_mem_cons, List.not_mem_nil, false_imp_iff, implies_true, and_true]
  repeat' apply And.intro
  all_goals exact fun _ _ => rfl

theorem moviRows_exec : ∀ r ∈ moviRows, ∀ f s, exec (r.op f) s = alu s (lToV f) (r.spec f) (r.fn f) := by
  simp only [moviRows, List.forall_mem_cons, List.not_mem_nil, false_imp_iff, implies_true, and_true]
  exact fun _ _ => rfl

theorem moviUniRows_exec : ∀ r ∈ moviUniRows, ∀ f s, exec (r.op f) s = aluUni s (lToV f) (r.spec f) (r.fn f) := by
  simp only [moviUniRows, List.forall_mem_cons, List.not_mem_nil, false_imp_iff, implies_true, and_true]
  exact fun _ _ => rfl

theorem floatRows_exec : ∀ r ∈ floatRows, ∀ f s, exec (r.op f) s = falu s f r.spec (r.fn f) := by
  simp only [floatRows, List.forall_mem_cons, List.not_mem_nil, false_imp_iff, implies_true, and_true]
  repeat' apply And.intro
  all_goals exact fun _ _ => rfl

theorem sfuRows_exec : ∀ r ∈ sfuRows, ∀ f s, exec (r.op f) s = sfu s f r.spec r.fn := by
  simp only [sfuRows, List.forall_mem_cons, List.not_mem_nil, false_imp_iff, implies_true, and_true]
  repeat' apply And.intro
  all_goals exact fun _ _ => rfl

/-- Mask instructions with ready operands. -/
theorem maskOp_ready {s : State} {w : WarpId} {x : Warp} {b : Bundle} {q : VSpec} {f : FmtV} {run : KReg → KReg → KReg}
    (hi : Issuing s w x b) (h : VecReady s w x b false q f) :
    maskOp s f q run = .next (((s.issued w).setWarp w (x.presented.setK f.d.toNat
      (run (x.presented.kreg f.sa.toNat) (x.presented.kreg f.sb.toNat)))).retire false
      (mkIss s w x b (unitSize f.pfx))) := vecFrame_ready hi h rfl

theorem maskToG_ready {s : State} {w : WarpId} {x : Warp} {b : Bundle} {f : FmtV} {run : Nat → Nat}
    (hi : Issuing s w x b) (h : VecReady s w x b false (specMask .g .k .none) f) :
    maskToG s f run = .next (((s.issued w).setWarp w (x.presented.setG f.d.toNat
      ⟨BitVec.ofNat 64 (run (x.presented.kreg f.sa.toNat).m.toNat),
        decide ((x.presented.kreg f.sa.toNat).p ≠ 0)⟩)).retire false (mkIss s w x b (unitSize f.pfx))) :=
  vecFrame_ready hi h rfl

/-- VOTE with ready operands and no poisoned input bit. -/
theorem voteFrame_ready {s : State} {w : WarpId} {x : Warp} {b : Bundle} {f : FmtV} {d : Opd} {run : Iss → Vx → Warp}
    (hi : Issuing s w x b) (h : VecReady s w x b false (specVote d) f)
    (hp : (vecOperands s w x b false (specVote d) f).kPoison (vecOperands s w x b false (specVote d) f).c = 0) :
    voteFrame s f d run = .next (((s.issued w).setWarp w (run (mkIss s w x b (unitSize f.pfx))
      (vecOperands s w x b false (specVote d) f))).retire false (mkIss s w x b (unitSize f.pfx))) :=
  vecFrame_ready hi h (if_neg (not_not_intro hp))

theorem convFrame_ready {s : State} {w : WarpId} {x : Warp} {b : Bundle} {q : VSpec} {f : FmtV} (hi : Issuing s w x b)
    (h : VecReady s w x b false q f) {run : State → Iss → Vx → Except Stop Warp} {y : Warp}
    (hr : run (s.issued w) (mkIss s w x b (unitSize f.pfx)) (vecOperands s w x b false q f) = .ok y) :
    convFrame s f q run = .next (((s.issued w).setWarp w y).retire false (mkIss s w x b (unitSize f.pfx))) :=
  vecFrame_ready hi h hr

/-- Where no bound is exceeded, every field resolves. -/
theorem boundError_none {l : List (Bool × Except Nat Rs)} (h : boundError l = none) : ∀ e ∈ l, ∃ r, e.2 = .ok r := by
  intro e he
  cases h2 : e.2 with
  | ok r => exact ⟨r, rfl⟩
  | error n =>
    exfalso
    unfold boundError at h
    dsimp only at h
    split at h
    · cases h
    · rename_i h1
      have a := List.findSome?_eq_none_iff.1 h1 e he
      have c := List.findSome?_eq_none_iff.1 h e he
      cases h3 : e.1 <;> simp [h2, h3] at a c

/-- A direct or indexed field of one register that lies in the allotment resolves to that register. -/
theorem vecOperands_d {s : State} {w : WarpId} {x : Warp} {b : Bundle} {q : VSpec} {f : FmtV} (hd : q.d = .v 1 false)
    (h : boundError (vecOpds (s.allotOf w) x false q f) = none) :
    (vecOperands s w x b false q f).d = .v (f.d.toNat + (ixOf x f.pfx .d).getD 0) 1 := by
  obtain ⟨r, hr⟩ := boundError_none h _ (List.mem_cons_self ..)
  have e : vecOpds (s.allotOf w) x.presented false q f = vecOpds (s.allotOf w) x false q f := rfl
  have e0 : (vecOpds (s.allotOf w) x false q f).getD 0 (false, .ok .none) =
    ((ixOf x f.pfx .d).isSome && decide (Ixs.d ≠ Ixs.none), resolve (s.allotOf w) false q.d f.d false (ixOf x f.pfx .d)) := rfl
  simp only [vecOperands, e, e0]
  simp only [hd, resolve, Bool.false_eq_true, if_false] at hr ⊢
  unfold regV at hr ⊢
  dsimp only at hr ⊢
  split at hr
  · cases hr
  · split at hr
    · cases hr
    · split at hr
      · cases hr
      · rename_i h1 h2 h3
        rw [if_neg h1, if_neg h2, if_neg h3]
        rfl

@[simp] theorem vecOperands_w (s : State) (w : WarpId) (x : Warp) (b : Bundle) (uni : Bool) (q : VSpec) (f : FmtV) :
    (vecOperands s w x b uni q f).w = x.presented := rfl

/-- A special function with ready operands leaves its result in flight (R210). -/
theorem sfu_ready {s : State} {w : WarpId} {x : Warp} {b : Bundle} {q : VSpec} {f : FmtV} {fn : Rnd → Nat → Nat × Flags}
    (hi : Issuing s w x b) (hd : q.d = .v 1 false) (h : VecReady s w x b false q f) :
    sfu s f q fn = .next ((((s.issued w).setWarp w { x.presented.emptyV (f.d.toNat + (ixOf x f.pfx .d).getD 0) with
      sfus := x.sfus ++ [(vecOperands s w x b false q f).sfuOf (f.d.toNat + (ixOf x f.pfx .d).getD 0) x.commits fn] }).addDue
        (.specialFunctionWriteback w (f.d.toNat + (ixOf x f.pfx .d).getD 0))).retire false
          (mkIss s w x b (unitSize f.pfx))) := by
  refine issue_ok hi ?_
  simp only [mkIss_wid, State.warp?_issued hi.2.1, vecPrep_ready h, vecOperands_d hd h.1, vecOperands_w, Vx.sfuOf]
  rfl

end Sys2Proof.Machine
end

