-- ==== Sys2Proof/Laws/Flow.lean ====
section
/-! SUPPORT. The frame of the branch family when its operands are ready, and the ends of a bundle. -/

namespace Sys2Proof.Machine

/-- A branch with ready operands does what its run does. -/
theorem branchFrame_ready {s : State} {w : WarpId} {x : Warp} {b : Bundle} {k : BitVec 3} {kn : Bool} {cm : Cm}
    {banned : Bool} {r : Rs} {gs : List Nat} (hi : Issuing s w x b) (hb : banned = true → x.handler = none)
    (hp : (predOf x b.mask none k kn).psn = 0) (hr : r.empty? x = none)
    (hg : ∀ g ∈ gs, x.gFull g = true ∧ (x.greg g).p = false)
    (hn : ∀ L ∈ lanesOf (takeMask cm x.handler.isSome b.mask (predOf x b.mask none k kn).act), (r.read x L).2 = false)
    {run : State → Iss → Warp → LaneMask → Rs → Except Stop State} {t : State}
    (h : run (s.issued w) (mkIss s w x b 8) x.presented
      (takeMask cm x.handler.isSome b.mask (predOf x b.mask none k kn).act) r = .ok t) :
    branchFrame s k kn cm banned (.ok r) gs run = .next (t.retire true (mkIss s w x b 8)) := by
  refine issue_ok hi ?_
  have e2 : predOf x.presented b.mask none k kn = predOf x b.mask none k kn := rfl
  have h1 : (if banned then notInHandler (s.issued w) (mkIss s w x b 8) else .ok ()) = .ok () := by
    cases banned with
    | false => rfl
    | true => simp [notInHandler, hb rfl]
  have h2 : ∀ gs : List Nat, (∀ g ∈ gs, x.gFull g = true) → ∀ (t : State) (m : LaneMask),
      waitFull t x.presented m (gs.map fun g => (Rs.g g true, false)) = .ok () := by
    intro gs
    induction gs with
    | nil => intro _ _ _; rfl
    | cons g gs ih =>
      intro hg t m
      have : x.presented.gFull g = true := hg g (List.mem_cons_self ..)
      simp only [List.map_cons, waitFull, Rs.empty?, this, if_true]
      exact ih (fun g' h' => hg g' (List.mem_cons_of_mem _ h')) t m
  have h3 : (gs.any fun g => (x.presented.greg g).p) = false := by
    rw [List.any_eq_false]; intro g h'; exact Bool.eq_false_iff.1 (hg g h').2
  have h4 : (maskOf fun L => inMask (takeMask cm x.handler.isSome b.mask (predOf x b.mask none k kn).act) L &&
      ((r.read x.presented L).2 || false)) = 0 := by
    refine maskOf_eq_zero fun L hL => ?_
    cases h5 : inMask (takeMask cm x.handler.isSome b.mask (predOf x b.mask none k kn).act) L with
    | false => rfl
    | true =>
      have e : r.read x.presented L = r.read x L := by cases r <;> rfl
      rw [e, hn L (mem_lanesOf.2 h5)]; rfl
  simp only [mkIss_wid, State.warp?_issued hi.2.1, mkIss_lanes, mkIss_handler, e2, h1, waitFull, Rs.empty?_issued, hr,
    h2 gs (fun g h' => (hg g h').1), h3, h4, hp, h, ne_eq]
  exact if_neg (not_not_intro rfl)

/-- Only the targets of the lanes that leave matter. -/
theorem State.leave_congr {t : State} {i : Iss} {take : LaneMask} {T T' : Nat → DWord}
    (h : ∀ L ∈ lanesOf take, T L = T' L) : t.leave i take T = t.leave i take T' := by
  unfold State.leave
  congr 1
  funext L
  by_cases hL : inMask take L = true
  · rw [if_pos hL, if_pos hL, h L (mem_lanesOf.2 hL)]
  · rw [if_neg hL, if_neg hL]

/-- A call whose checks pass and whose spills find room does what `State.called` says. -/
theorem callTo_ready {t : State} {i : Iss} {y : Warp} {take : LaneMask} {T : Nat → DWord} {label : Option Nat} {u : State}
    (h1 : (take &&& y.lanesWhere fun h => decide (16 + 16 * spillN y.cstk ≤ h.depth)) = 0)
    (h2 : GenFree t i y .wr none false 8 ((lanesOf (take &&& y.lanesWhere fun h => decide (16 ≤ h.depth))).map fun L =>
        (L, spillAddr y.cstk L ((y.thread L).depth - 16))))
    (h3 : TargetsFree t i y take T label)
    (h4 : RoomFor t i y (t.newLines i y .gen ((lanesOf (take &&& y.lanesWhere fun h => decide (16 ≤ h.depth))).map fun L =>
        (L, spillAddr y.cstk L ((y.thread L).depth - 16)))) u) :
    callTo t i y take T label = .ok (t.called i take ((lanesOf (take &&& y.lanesWhere fun h => decide (16 ≤ h.depth))).map fun L =>
        (L, spillAddr y.cstk L ((y.thread L).depth - 16))) y T u) := by
  unfold callTo depthCheck
  rw [if_neg (not_not_intro h1)]
  dsimp only
  rw [genChecks_free h2]
  dsimp only
  rw [targetChecks_free h3]
  dsimp only
  rw [makeRoom_ready h4]
  rfl

end Sys2Proof.Machine
end

