-- ==== Sys2Proof/Laws/Record.lean ====
section
/-! SUPPORT. The fault record's registers g56 to g63 (R383, R385): what writing them leaves. -/

namespace Sys2Proof.Machine

@[simp] theorem Warp.greg_fillG (w : Warp) (n m : Nat) : (w.fillG n).greg m = w.greg m := rfl

theorem Warp.gFull_fillG_same (w : Warp) (n : Nat) : (w.fillG n).gFull n = true := by
  unfold Warp.gFull Warp.fillG
  rw [sget?_sdel_same]; rfl

theorem Warp.gFull_fillG_ne (w : Warp) {n m : Nat} (h : m ≠ n) : (w.fillG n).gFull m = w.gFull m := by
  unfold Warp.gFull Warp.fillG
  rw [sget?_sdel_ne _ h]

theorem Warp.gFull_setG (w : Warp) (n m : Nat) (x : GReg) : (w.setG n x).gFull m = w.gFull m := by
  unfold Warp.setG; split <;> rfl

/-- One register of the record. -/
def recordStep (r : List GReg) (x : Warp) (i : Nat) : Warp := (x.setG (56 + i) (r.getD i GReg.zero)).fillG (56 + i)

theorem recordFold_greg (r : List GReg) (is : List Nat) (w : Warp) (m : Nat) :
    (is.foldl (recordStep r) w).greg m = if m - 56 ∈ is ∧ 56 ≤ m then r.getD (m - 56) GReg.zero else w.greg m := by
  induction is generalizing w with
  | nil => simp
  | cons i is ih =>
    rw [List.foldl_cons, ih]
    by_cases h1 : m - 56 ∈ is ∧ 56 ≤ m
    · rw [if_pos h1, if_pos ⟨List.mem_cons_of_mem _ h1.1, h1.2⟩]
    · rw [if_neg h1]
      by_cases h2 : m = 56 + i
      · subst h2
        rw [if_pos ⟨by simp, by omega⟩]
        simp only [recordStep, Warp.greg_fillG]
        rw [Warp.greg_setG_same _ _ (by omega), Nat.add_sub_cancel_left]
      · rw [if_neg]
        · simp only [recordStep, Warp.greg_fillG]
          exact Warp.greg_setG_ne _ _ h2
        · rintro ⟨h3, h4⟩
          rcases List.mem_cons.1 h3 with h3 | h3
          · exact h2 (by omega)
          · exact h1 ⟨h3, h4⟩

theorem recordFold_full (r : List GReg) (is : List Nat) (w : Warp) (m : Nat) (h : w.gFull m = true ∨ (m - 56 ∈ is ∧ 56 ≤ m)) :
    (is.foldl (recordStep r) w).gFull m = true := by
  induction is generalizing w with
  | nil => simpa using h
  | cons i is ih =>
    rw [List.foldl_cons]
    apply ih
    by_cases h2 : m = 56 + i
    · subst h2; left; exact Warp.gFull_fillG_same _ _
    · rcases h with h | ⟨h3, h4⟩
      · left
        show ((w.setG (56 + i) (r.getD i GReg.zero)).fillG (56 + i)).gFull m = true
        rw [Warp.gFull_fillG_ne _ h2, Warp.gFull_setG, h]
      · rcases List.mem_cons.1 h3 with h3 | h3
        · exact absurd (by omega) h2
        · exact .inr ⟨h3, h4⟩

theorem Warp.setG_eq (w : Warp) {n : Nat} (x : GReg) : ∃ g, w.setG n x = { w with g := g } := by
  unfold Warp.setG
  split
  · exact ⟨w.g, rfl⟩
  · exact ⟨_, rfl⟩

theorem recordFold_shape (r : List GReg) (is : List Nat) (w : Warp) :
    ∃ g e, is.foldl (recordStep r) w = { w with g := g, gEmpty := e } := by
  induction is generalizing w with
  | nil => exact ⟨w.g, w.gEmpty, rfl⟩
  | cons i is ih =>
    rw [List.foldl_cons]
    obtain ⟨g, e, h⟩ := ih (recordStep r w i)
    obtain ⟨g0, h0⟩ := Warp.setG_eq w (n := 56 + i) (r.getD i GReg.zero)
    refine ⟨g, e, h.trans ?_⟩
    unfold recordStep Warp.fillG
    rw [h0]

/-- The record's registers read back; every other g register is as before. -/
theorem Warp.greg_setRecord (w : Warp) (r : List GReg) (m : Nat) :
    (w.setRecord r).greg m = if 56 ≤ m ∧ m < 64 then r.getD (m - 56) GReg.zero else w.greg m := by
  have := recordFold_greg r (List.range 8) w m
  refine Eq.trans this ?_
  simp only [List.mem_range]
  by_cases h : 56 ≤ m ∧ m < 64
  · rw [if_pos h, if_pos ⟨by omega, h.1⟩]
  · rw [if_neg h, if_neg (by omega)]

/-- Every register of the record is full (R386). -/
theorem Warp.gFull_setRecord (w : Warp) (r : List GReg) {n : Nat} (h : n < 8) : (w.setRecord r).gFull (56 + n) = true :=
  recordFold_full r (List.range 8) w (56 + n) (.inr ⟨by simp [h], by omega⟩)

/-- Nothing but g registers changes. -/
theorem Warp.setRecord_shape (w : Warp) (r : List GReg) : ∃ g e, w.setRecord r = { w with g := g, gEmpty := e } :=
  recordFold_shape r (List.range 8) w

/-- The record, register by register (R386). -/
theorem faultRecord_get (f : FaultInfo) (pc next : DWord) (bundle : LaneMask) (seq : Word) (aqi : Nat) :
   let rc := (faultRecord f pc next bundle seq aqi).map fun v => (⟨v, false⟩ : GReg)
   rc.getD 0 GReg.zero = ⟨BitVec.ofNat 64 (f.code.num + (faultForms f).toNat * 2 ^ 16), false⟩ ∧
   rc.getD 1 GReg.zero = ⟨pc, false⟩ ∧ rc.getD 2 GReg.zero = ⟨f.lanes.setWidth 64, false⟩ ∧ rc.getD 3 GReg.zero = ⟨BitVec.ofNat 64 f.addr, false⟩ ∧
   rc.getD 4 GReg.zero = ⟨BitVec.ofNat 64 f.detail, false⟩ ∧ rc.getD 5 GReg.zero = ⟨bundle.setWidth 64, false⟩ ∧ 
   rc.getD 6 GReg.zero = ⟨BitVec.ofNat 64 (seq.toNat + aqi * 2 ^ 32), false⟩ ∧ rc.getD 7 GReg.zero = ⟨next, false⟩ := by
  unfold faultRecord
  simp

/-- The warp that enters its handler (R383). -/
def Warp.entered (x : Warp) (rc : List GReg) (h : Handler) : Warp :=
  { x.setRecord rc with
    handler := some h, bundle := none, txnLost := [], asked := [], asks := [], releasing := false, sealing := false,
    pageFail := pagesFor x.pageFail false h.lanes }

/-- Its registers, and all that taking a fault leaves alone. -/
theorem Warp.entered_spec (x : Warp) (rc : List GReg) (h : Handler) :
    (∀ m, (x.entered rc h).greg m = if 56 ≤ m ∧ m < 64 then rc.getD (m - 56) GReg.zero else x.greg m) ∧
    (∀ n < 8, (x.entered rc h).gFull (56 + n) = true) ∧ (x.entered rc h).handler = some h ∧
    (x.entered rc h).bundle = none ∧ (x.entered rc h).v = x.v ∧ (x.entered rc h).k = x.k ∧ (x.entered rc h).th = x.th ∧
    (x.entered rc h).span = x.span ∧ (x.entered rc h).loads = x.loads ∧ (x.entered rc h).fstat = x.fstat := by
  have h1 := Warp.greg_setRecord x rc
  have h2 := fun n (hn : n < 8) => Warp.gFull_setRecord x rc hn
  obtain ⟨g, e, h3⟩ := Warp.setRecord_shape x rc
  unfold Warp.entered
  rw [h3] at h1 h2 ⊢
  exact ⟨h1, h2, rfl, rfl, rfl, rfl, rfl, rfl, rfl, rfl⟩

theorem enterFault_ready {s : State} {w : WarpId} {x : Warp} {k : Kernel} {hv : DWord} (hw : s.warp? w = some x)
    (hk : s.kernelOf w = some k) (hd : (k.desc.map Desc.handler).getD 0 = hv) (h0 : hv ≠ 0) (hh : x.handler = none) (at_ : Place)
    (next : DWord) (fall : Bool) (bundle : LaneMask) (f : FaultInfo) :
    s.enterFault w at_ next fall bundle f = s.setWarp w (x.entered
      ((faultRecord f at_.pc next bundle k.seq k.aqi).map fun v => (⟨v, false⟩ : GReg))
      ⟨⟨hv, hv⟩, ⟨hv, hv⟩, x.getRecord, faultForms f, f.code.num, at_, next, fall, bundle, []⟩) := by
  unfold State.enterFault Warp.entered
  rw [hw, hk]
  dsimp only
  rw [hd, hh, if_neg (by decide), if_neg h0]

end Sys2Proof.Machine
end

