-- ==== Sys2Proof/Laws/Retire.lean ====
section
/-! SUPPORT. The end of an instruction that leaves its bundle in place: the issuing warp moves on, its slot is charged, and
no other state changes. -/

namespace Sys2Proof.Machine

theorem setNth_self {α : Type} {l : List α} {i : Nat} {x : α} (h : nth? l i = some x) : setNth l i x = l := by
  obtain ⟨hi, rfl⟩ := List.getElem?_eq_some_iff.1 h
  exact List.set_getElem_self hi

/-- A change of a warp's record writes the changed record. -/
theorem State.updWarp_eq_setWarp {s : State} {w : WarpId} {x : Warp} (f : Warp → Warp) (h : s.warp? w = some x) :
    s.updWarp w f = s.setWarp w (f x) := by
  unfold State.warp? State.group? at h
  unfold State.setWarp State.updWarp State.updGroup supd
  cases hg : sget? s.groups w.g with
  | none => rfl
  | some g =>
    rw [hg] at h
    simp only [Option.bind_some] at h
    simp only [Group.updWarp, h]

@[simp] theorem sset_sset {β : Type} (m : SMap β) (a : Nat) (x y : β) : sset (sset m a x) a y = sset m a y := by
  induction m with
  | nil => simp [sset]
  | cons e r ih =>
    obtain ⟨k, v⟩ := e
    by_cases h1 : a < k
    · simp [sset, h1]
    · by_cases h2 : a = k
      · subst h2; simp [sset]
      · simp [sset, h1, h2, ih]

theorem Group.updWarp_updWarp (g : Group) (i : Nat) (x y : Warp) :
    (g.updWarp i fun _ => x).updWarp i (fun _ => y) = g.updWarp i fun _ => y := by
  unfold Group.updWarp
  cases hw : nth? g.warps i with
  | none => simp only [hw]
  | some z =>
    have hi : i < g.warps.length := (List.getElem?_eq_some_iff.1 hw).1
    have e : nth? (setNth g.warps i x) i = some x := by simp [nth?, setNth, List.getElem?_set_self hi]
    simp only [e]
    simp only [setNth, List.set_set]

/-- Of two records written in turn the second stands. -/
@[simp] theorem State.setWarp_setWarp (s : State) (w : WarpId) (x y : Warp) :
    (s.setWarp w x).setWarp w y = s.setWarp w y := by
  unfold State.setWarp State.updWarp State.updGroup supd
  cases hg : sget? s.groups w.g with
  | none => simp only [hg]
  | some g => simp only [sget?_sset_same, sset_sset, Group.updWarp_updWarp]

theorem State.warp?_setWarp_same {s : State} {w : WarpId} {x : Warp} (y : Warp) (h : s.warp? w = some x) :
    (s.setWarp w y).warp? w = some y := by
  simp [State.setWarp, State.warp?_updWarp_same, h]

theorem State.warp?_setWarp_ne (s : State) {v w : WarpId} (y : Warp) (h : v ≠ w) :
    (s.setWarp w y).warp? v = s.warp? v := State.warp?_updWarp_ne s _ h

/-- A group's record keeps everything but its warps. -/
theorem State.group?_setWarp {s : State} {w : WarpId} (y : Warp) {n : Nat} {g : Group} (h : s.group? n = some g) :
    ∃ ws, (s.setWarp w y).group? n = some { g with warps := ws } := by
  unfold State.setWarp State.updWarp
  by_cases hn : n = w.g
  · subst hn
    rw [State.group?_updGroup_same, h]
    simp only [Option.map_some, Group.updWarp]
    cases nth? g.warps w.w with
    | none => exact ⟨g.warps, rfl⟩
    | some _ => exact ⟨_, rfl⟩
  · rw [State.group?_updGroup_ne _ _ hn]
    exact ⟨g.warps, h⟩

theorem Warp.Moved.refl (x : Warp) : x.Moved x :=
  ⟨rfl, fun L _ => ⟨(x.thread L).at_, rfl⟩, ⟨(x.handler.map Handler.at_).getD Place.zero, by cases x.handler <;> rfl⟩⟩

theorem Warp.thread_updThreads (x : Warp) (m : LaneMask) (f : Nat → Thread → Thread) {L : Nat} (h : L < 32) :
    (x.updThreads m f).thread L = if inMask m L then f L (x.thread L) else x.thread L := by
  simp [Warp.thread, Warp.updThreads, mapLanes, List.getD, h]

theorem Thread.at_self (t : Thread) : ∃ p, t = { t with at_ := p } := ⟨t.at_, rfl⟩

theorem Warp.moved_handler {x y : Warp} {h : Handler} (hh : x.handler = some h) (bn : Option Bundle) (p : Place)
    (e : y = { x with bundle := bn, handler := some { h with at_ := p } }) : x.Moved y := by
  unfold Warp.Moved
  refine ⟨?_, ?_, p, ?_⟩
  · subst e; rfl
  · subst e; intro L _; exact Thread.at_self (x.thread L)
  · subst e; rw [hh]; rfl

theorem Warp.moved_th {x y : Warp} (hh : x.handler = none) (bn : Option Bundle) (th : Lanes Thread)
    (e : y = { x with th := th, bundle := bn })
    (ht : ∀ L < 32, ∃ p, ({ x with th := th } : Warp).thread L = { x.thread L with at_ := p }) : x.Moved y := by
  unfold Warp.Moved
  refine ⟨?_, ?_, Place.zero, ?_⟩
  · subst e; rfl
  · intro L hL
    have f : y.thread L = ({ x with th := th } : Warp).thread L := by subst e; rfl
    rw [f]
    exact ht L hL
  · have f : y.handler = x.handler := by subst e; rfl
    rw [f, hh]; rfl

theorem Warp.moved_threads {x : Warp} (hh : x.handler = none) (bn : Option Bundle) (m : LaneMask) (p : Place) :
    x.Moved { x.updThreads m (fun _ t => { t with at_ := p }) with bundle := bn } := by
  refine Warp.moved_th hh bn (mapLanes x.th m fun _ t => { t with at_ := p }) (by simp only [Warp.updThreads]) fun L hL => ?_
  have f := Warp.thread_updThreads x m (fun _ t => { t with at_ := p }) hL
  have g : ({ x with th := mapLanes x.th m fun _ t => { t with at_ := p } } : Warp).thread L =
    (x.updThreads m fun _ t => { t with at_ := p }).thread L := rfl
  rw [g, f]
  split
  · exact ⟨p, rfl⟩
  · exact Thread.at_self (x.thread L)

/-- Moving on inside the block, or to the fall-through header. -/
theorem State.advance_spec {s : State} {i : Iss} {x : Warp} {b : Bundle} (hw : s.warp? i.wid = some x)
    (hb : x.bundle = some b) : ∃ y, s.advance i = s.setWarp i.wid y ∧ x.Moved y := by
  have e : ((s.warp? i.wid).bind fun y => y.bundle) = some b := by rw [hw]; exact hb
  unfold State.advance
  rw [e]
  dsimp only
  unfold State.endBundle
  rw [State.updWarp_eq_setWarp _ hw, State.updWarp_eq_setWarp _ hw]
  cases hh : x.handler with
  | some h =>
    cases i.last with
    | true => exact ⟨_, rfl, Warp.moved_handler hh none i.fall rfl⟩
    | false => exact ⟨_, rfl, Warp.moved_handler hh (some { b with at_ := ⟨i.next, i.at_.hdr⟩ }) h.at_ rfl⟩
  | none =>
    cases i.last with
    | true => exact ⟨_, rfl, Warp.moved_threads hh none b.mask i.fall⟩
    | false => exact ⟨_, rfl, Warp.moved_threads hh _ b.mask _⟩

/-- Clearing what stood of the presented instruction moves the record no further. -/
theorem Warp.Moved.settled {x y : Warp} (h : x.Moved y) (hm : Bool) (m : LaneMask) : x.Moved (y.settled hm m) := by
  obtain ⟨h1, h2, p, h3⟩ := h
  unfold Warp.Moved
  refine ⟨?_, ?_, p, ?_⟩
  · unfold Warp.settled; rw [h1]
  · exact h2
  · exact h3

/-- What an instruction that leaves its bundle in place does at its end: the warp moves on, and nothing else changes. -/
theorem State.moveOn_spec {s : State} {i : Iss} {x : Warp} {b : Bundle} (hw : s.warp? i.wid = some x)
    (hb : x.bundle = some b) : ∃ y, s.moveOn false i = s.setWarp i.wid y ∧ x.Moved y := by
  obtain ⟨y, h1, h2⟩ := State.advance_spec hw hb
  have hy := State.warp?_setWarp_same y hw
  unfold State.moveOn State.settleWarp
  simp only [Bool.false_eq_true, if_false]
  rw [h1]
  split
  · exact ⟨y, rfl, h2⟩
  · rw [State.updWarp_eq_setWarp _ hy, State.setWarp_setWarp]
    exact ⟨_, rfl, h2.settled i.handler i.lanes⟩

/-- Charging a slot to a warp whose kernel is not sampled only counts it: in the leaf counts, in the core's count of unsampled
slots, and in the warp's count of issued ones. -/
theorem State.charge_unsampled {s : State} {w : WarpId} (h : s.unsampledWarp w) (pc : DWord) (leaf : Nat) :
    ∃ t m l p, (t = s ∨ t = s.updWarp w Warp.slotUsed) ∧
      s.charge w pc leaf = { t with unsampled := m, leaves := l, paid := p } := by
  unfold State.charge
  split
  · exact ⟨s, s.unsampled, s.leaves, false, .inl rfl, rfl⟩
  split
  · exact ⟨s, s.unsampled, s.leaves, s.paid, .inl rfl, rfl⟩
  cases hg : s.group? w.g with
  | none => exact ⟨s, s.unsampled, s.leaves, s.paid, .inl rfl, rfl⟩
  | some g =>
    dsimp only
    cases hk : s.kernel? g.kernel with
    | none => exact ⟨s, s.unsampled, s.leaves, s.paid, .inl rfl, rfl⟩
    | some k =>
      have e : (k.desc.map Desc.sample).getD false = false := by
        unfold State.unsampledWarp State.descOf State.kernelOf at h
        rw [hg] at h
        simpa [hk] using h
      dsimp only
      rw [e]
      by_cases hl : leaf = 0
      · simp only [hl, if_true, Bool.false_eq_true, if_false]
        exact ⟨_, _, _, _, .inr rfl, rfl⟩
      · simp only [hl, Bool.false_eq_true, if_false]
        exact ⟨_, _, _, _, .inl rfl, rfl⟩

/-- An instruction whose whole effect is a new record of its warp: at the end that record has moved on, and the slot is
charged. -/
theorem retire_setWarp {s : State} {w : WarpId} {x : Warp} {b : Bundle} (hi : Issuing s w x b) {z : Warp}
    (hz : z.bundle = some b) (n : Nat) :
    ∃ y, ((s.issued w).setWarp w z).retire false (mkIss s w x b n) = ((s.setWarp w y).charge w b.at_.pc 0).ticked ∧
      z.Moved y := by
  have e : (s.issued w).setWarp w z = s.setWarp w z := by
    unfold State.issued
    rw [State.updWarp_eq_setWarp _ hi.2.1, State.setWarp_setWarp]
  have hw : (s.setWarp w z).warp? (mkIss s w x b n).wid = some z := State.warp?_setWarp_same z hi.2.1
  obtain ⟨y, h1, h2⟩ := State.moveOn_spec hw hz
  refine ⟨y, ?_, h2⟩
  unfold State.retire
  rw [e, h1, mkIss_wid, State.setWarp_setWarp]
  rfl

end Sys2Proof.Machine
end

