-- ==== Sys2Proof/Laws/Result.lean ====
section
/-! SUPPORT. The end of the vector, uniform and float instructions: which registers D names, and the record they leave. -/

namespace Sys2Proof.Machine

/-- D of a description that names one register or a pair. -/
def OneOrPair (o : Opd) : Prop := (∃ p, o = .v 1 p) ∨ (∃ p, o = .v 2 p)

/-- Such a D is one register or two. -/
theorem vecOperands_d_n {s : State} {w : WarpId} {x : Warp} {b : Bundle} {uni : Bool} {q : VSpec} {f : FmtV}
    (hd : OneOrPair q.d) : ∀ r n, (vecOperands s w x b uni q f).d = .v r n → n = 1 ∨ n = 2 := by
  intro r n h
  have e0 : (vecOperands s w x b uni q f).d =
      okRs (resolve (s.allotOf w) uni q.d f.d false (ixOf x.presented f.pfx .d)) := rfl
  rw [e0] at h
  have key : ∀ k p, resolve (s.allotOf w) uni (.v k p) f.d false (ixOf x.presented f.pfx .d) = .ok (.v r n) → n = k := by
    intro k p e
    simp only [resolve] at e
    split at e
    · cases e
    · cases h2 : regV (s.allotOf w) k p f.d.toNat (ixOf x.presented f.pfx .d) with
      | error m => rw [h2] at e; cases e
      | ok m => rw [h2] at e; simp only [Except.map, Except.ok.injEq, Rs.v.injEq] at e; exact e.2.symm
  have ok : ∀ e : Except Nat Rs, okRs e = .v r n → e = .ok (.v r n) := by
    intro e he; cases e with
    | error m => cases he
    | ok m => exact congrArg _ he
  rcases hd with ⟨p, hp⟩ | ⟨p, hp⟩
  · rw [hp] at h; exact .inl (key _ p (ok _ h))
  · rw [hp] at h; exact .inr (key _ p (ok _ h))

theorem dT_pair (ty : Ty) : OneOrPair (dT ty) := by
  unfold dT regs
  cases tyPair ty
  · exact .inl ⟨_, rfl⟩
  · exact .inr ⟨_, rfl⟩

/-- Every row's D is one register or a pair. -/
theorem rows_d : (∀ r ∈ arithRows ++ bitRows, ∀ f, OneOrPair (r.spec f).d) ∧ (∀ r ∈ uniRows, ∀ f, OneOrPair (r.spec f).d) ∧
    (∀ r ∈ immRows, ∀ f, OneOrPair (r.spec f).d) ∧ (∀ r ∈ immUniRows, ∀ f, OneOrPair (r.spec f).d) ∧
    (∀ r ∈ moviRows, ∀ f, OneOrPair (r.spec f).d) ∧ (∀ r ∈ moviUniRows, ∀ f, OneOrPair (r.spec f).d) ∧
    (∀ r ∈ floatRows, OneOrPair r.spec.d) := by
  refine ⟨?_, ?_, ?_, ?_, ?_, ?_, ?_⟩
  all_goals
    simp only [arithRows, bitRows, uniRows, immRows, immUniRows, moviRows, moviUniRows, floatRows, List.cons_append,
      List.nil_append, List.forall_mem_cons, List.not_mem_nil, false_imp_iff, implies_true, and_true]
    repeat' apply And.intro
  all_goals first
    | exact fun f => dT_pair f.ty
    | exact fun f => .inl ⟨_, rfl⟩
    | exact fun f => .inr ⟨_, rfl⟩
    | exact .inl ⟨_, rfl⟩

/-- An instruction that ends with a new record of its warp changes that warp's record and charges its slot. -/
theorem exec_setWarp {s : State} {w : WarpId} {x : Warp} {b : Bundle} {z : Warp} {ins : Instr} {n : Nat}
    (hi : Issuing s w x b) (hz : z.bundle = some b)
    (he : exec ins s = .next (((s.issued w).setWarp w z).retire false (mkIss s w x b n))) :
    ∃ y, exec ins s = .next (((s.setWarp w y).charge w b.at_.pc 0).ticked) ∧ z.Moved y := by
  obtain ⟨y, h1, h2⟩ := retire_setWarp hi hz n
  exact ⟨y, by rw [he, h1], h2⟩

theorem vectorRows_exec {s : State} {w : WarpId} {x : Warp} {b : Bundle} {r : AluRow FmtV} (hr : r ∈ arithRows ++ bitRows)
    (f : FmtV) (hi : Issuing s w x b) (h : VecReady s w x b false (r.spec f) f) :
    exec (r.op f) s = .next (((s.issued w).setWarp w ((vecOperands s w x b false (r.spec f) f).apply (r.fn f))).retire false
      (mkIss s w x b (unitSize f.pfx))) := by
  have : exec (r.op f) s = alu s f (r.spec f) (r.fn f) := by
    rcases List.mem_append.1 hr with hr | hr
    · exact arithRows_exec r hr f s
    · exact bitRows_exec r hr f s
  rw [this]
  exact alu_ready hi h

/-- What moving on leaves as it was. -/
theorem Warp.Moved.regs {z y : Warp} (h : z.Moved y) : y.v = z.v ∧ y.g = z.g ∧ y.fstat = z.fstat := by
  have h1 := h.1
  refine ⟨?_, ?_, ?_⟩ <;> rw [h1]

end Sys2Proof.Machine
end

