-- ==== Sys2Proof/Laws/State.lean ====
section
/-! SUPPORT. What the named updates of a state leave alone: one lemma per field and update. -/

namespace Sys2Proof.Machine

/-! ### ticked -/

@[simp] theorem State.ticked_serial (s : State) : s.ticked.serial = s.serial := rfl
@[simp] theorem State.ticked_agenda (s : State) : s.ticked.agenda = s.agenda := rfl
@[simp] theorem State.ticked_due (s : State) : s.ticked.due = s.due := rfl
@[simp] theorem State.ticked_turn (s : State) : s.ticked.turn = s.turn := rfl
@[simp] theorem State.ticked_cur (s : State) : s.ticked.cur = s.cur := rfl
@[simp] theorem State.ticked_blocked (s : State) : s.ticked.blocked = s.blocked := rfl
@[simp] theorem State.ticked_slotTurn (s : State) : s.ticked.slotTurn = s.slotTurn := rfl
@[simp] theorem State.ticked_pairs (s : State) : s.ticked.pairs = s.pairs := rfl
@[simp] theorem State.ticked_shares (s : State) : s.ticked.shares = s.shares := rfl
@[simp] theorem State.ticked_paid (s : State) : s.ticked.paid = s.paid := rfl
@[simp] theorem State.ticked_pkg (s : State) : s.ticked.pkg = s.pkg := rfl
@[simp] theorem State.ticked_cell (s : State) : s.ticked.cell = s.cell := rfl
@[simp] theorem State.ticked_numbered (s : State) : s.ticked.numbered = s.numbered := rfl
@[simp] theorem State.ticked_form (s : State) : s.ticked.form = s.form := rfl
@[simp] theorem State.ticked_bringUp (s : State) : s.ticked.bringUp = s.bringUp := rfl
@[simp] theorem State.ticked_stopped (s : State) : s.ticked.stopped = s.stopped := rfl
@[simp] theorem State.ticked_imageVersion (s : State) : s.ticked.imageVersion = s.imageVersion := rfl
@[simp] theorem State.ticked_minVersion (s : State) : s.ticked.minVersion = s.minVersion := rfl
@[simp] theorem State.ticked_identity (s : State) : s.ticked.identity = s.identity := rfl
@[simp] theorem State.ticked_imageDigest (s : State) : s.ticked.imageDigest = s.imageDigest := rfl
@[simp] theorem State.ticked_blobDigest (s : State) : s.ticked.blobDigest = s.blobDigest := rfl
@[simp] theorem State.ticked_caps (s : State) : s.ticked.caps = s.caps := rfl
@[simp] theorem State.ticked_boiling (s : State) : s.ticked.boiling = s.boiling := rfl
@[simp] theorem State.ticked_power (s : State) : s.ticked.power = s.power := rfl
@[simp] theorem State.ticked_throttled (s : State) : s.ticked.throttled = s.throttled := rfl
@[simp] theorem State.ticked_trips (s : State) : s.ticked.trips = s.trips := rfl
@[simp] theorem State.ticked_lastReport (s : State) : s.ticked.lastReport = s.lastReport := rfl
@[simp] theorem State.ticked_thresholds (s : State) : s.ticked.thresholds = s.thresholds := rfl
@[simp] theorem State.ticked_readings (s : State) : s.ticked.readings = s.readings := rfl
@[simp] theorem State.ticked_scrub (s : State) : s.ticked.scrub = s.scrub := rfl
@[simp] theorem State.ticked_softErrors (s : State) : s.ticked.softErrors = s.softErrors := rfl
@[simp] theorem State.ticked_regs (s : State) : s.ticked.regs = s.regs := rfl
@[simp] theorem State.ticked_msgs (s : State) : s.ticked.msgs = s.msgs := rfl
@[simp] theorem State.ticked_lantern (s : State) : s.ticked.lantern = s.lantern := rfl
@[simp] theorem State.ticked_ctx (s : State) : s.ticked.ctx = s.ctx := rfl
@[simp] theorem State.ticked_aqi (s : State) : s.ticked.aqi = s.aqi := rfl
@[simp] theorem State.ticked_remap (s : State) : s.ticked.remap = s.remap := rfl
@[simp] theorem State.ticked_grants (s : State) : s.ticked.grants = s.grants := rfl
@[simp] theorem State.ticked_lastPacket (s : State) : s.ticked.lastPacket = s.lastPacket := rfl
@[simp] theorem State.ticked_kernels (s : State) : s.ticked.kernels = s.kernels := rfl
@[simp] theorem State.ticked_gangs (s : State) : s.ticked.gangs = s.gangs := rfl
@[simp] theorem State.ticked_groups (s : State) : s.ticked.groups = s.groups := rfl
@[simp] theorem State.ticked_reserve (s : State) : s.ticked.reserve = s.reserve := rfl
@[simp] theorem State.ticked_mem (s : State) : s.ticked.mem = s.mem := rfl
@[simp] theorem State.ticked_pline (s : State) : s.ticked.pline = s.pline := rfl
@[simp] theorem State.ticked_dir (s : State) : s.ticked.dir = s.dir := rfl
@[simp] theorem State.ticked_homes (s : State) : s.ticked.homes = s.homes := rfl
@[simp] theorem State.ticked_cores (s : State) : s.ticked.cores = s.cores := rfl
@[simp] theorem State.ticked_owned (s : State) : s.ticked.owned = s.owned := rfl
@[simp] theorem State.ticked_ownAsks (s : State) : s.ticked.ownAsks = s.ownAsks := rfl
@[simp] theorem State.ticked_granted (s : State) : s.ticked.granted = s.granted := rfl
@[simp] theorem State.ticked_hostShared (s : State) : s.ticked.hostShared = s.hostShared := rfl
@[simp] theorem State.ticked_wts (s : State) : s.ticked.wts = s.wts := rfl
@[simp] theorem State.ticked_hot (s : State) : s.ticked.hot = s.hot := rfl
@[simp] theorem State.ticked_transfers (s : State) : s.ticked.transfers = s.transfers := rfl
@[simp] theorem State.ticked_lastOwner (s : State) : s.ticked.lastOwner = s.lastOwner := rfl
@[simp] theorem State.ticked_migrated (s : State) : s.ticked.migrated = s.migrated := rfl
@[simp] theorem State.ticked_tlb (s : State) : s.ticked.tlb = s.tlb := rfl
@[simp] theorem State.ticked_sectorTlb (s : State) : s.ticked.sectorTlb = s.sectorTlb := rfl
@[simp] theorem State.ticked_walks (s : State) : s.ticked.walks = s.walks := rfl
@[simp] theorem State.ticked_tier (s : State) : s.ticked.tier = s.tier := rfl
@[simp] theorem State.ticked_firewall (s : State) : s.ticked.firewall = s.firewall := rfl
@[simp] theorem State.ticked_l2w (s : State) : s.ticked.l2w = s.l2w := rfl
@[simp] theorem State.ticked_pageReqs (s : State) : s.ticked.pageReqs = s.pageReqs := rfl
@[simp] theorem State.ticked_copies (s : State) : s.ticked.copies = s.copies := rfl
@[simp] theorem State.ticked_puts (s : State) : s.ticked.puts = s.puts := rfl
@[simp] theorem State.ticked_admits (s : State) : s.ticked.admits = s.admits := rfl
@[simp] theorem State.ticked_engines (s : State) : s.ticked.engines = s.engines := rfl
@[simp] theorem State.ticked_shapes (s : State) : s.ticked.shapes = s.shapes := rfl
@[simp] theorem State.ticked_contribs (s : State) : s.ticked.contribs = s.contribs := rfl
@[simp] theorem State.ticked_trees (s : State) : s.ticked.trees = s.trees := rfl
@[simp] theorem State.ticked_lastTag (s : State) : s.ticked.lastTag = s.lastTag := rfl
@[simp] theorem State.ticked_waits (s : State) : s.ticked.waits = s.waits := rfl
@[simp] theorem State.ticked_cells (s : State) : s.ticked.cells = s.cells := rfl
@[simp] theorem State.ticked_ports (s : State) : s.ticked.ports = s.ports := rfl
@[simp] theorem State.ticked_slots (s : State) : s.ticked.slots = s.slots := rfl
@[simp] theorem State.ticked_active (s : State) : s.ticked.active = s.active := rfl
@[simp] theorem State.ticked_tgen (s : State) : s.ticked.tgen = s.tgen := rfl
@[simp] theorem State.ticked_round (s : State) : s.ticked.round = s.round := rfl
@[simp] theorem State.ticked_seqs (s : State) : s.ticked.seqs = s.seqs := rfl
@[simp] theorem State.ticked_early (s : State) : s.ticked.early = s.early := rfl
@[simp] theorem State.ticked_outSeq (s : State) : s.ticked.outSeq = s.outSeq := rfl
@[simp] theorem State.ticked_asks (s : State) : s.ticked.asks = s.asks := rfl
@[simp] theorem State.ticked_recalls (s : State) : s.ticked.recalls = s.recalls := rfl
@[simp] theorem State.ticked_fwOpen (s : State) : s.ticked.fwOpen = s.fwOpen := rfl
@[simp] theorem State.ticked_stuck (s : State) : s.ticked.stuck = s.stuck := rfl
@[simp] theorem State.ticked_landed (s : State) : s.ticked.landed = s.landed := rfl
@[simp] theorem State.ticked_putLines (s : State) : s.ticked.putLines = s.putLines := rfl
@[simp] theorem State.ticked_admitted (s : State) : s.ticked.admitted = s.admitted := rfl
@[simp] theorem State.ticked_leaves (s : State) : s.ticked.leaves = s.leaves := rfl
@[simp] theorem State.ticked_pcs (s : State) : s.ticked.pcs = s.pcs := rfl
@[simp] theorem State.ticked_unsampled (s : State) : s.ticked.unsampled = s.unsampled := rfl

/-! ### updGroup -/

@[simp] theorem State.updGroup_tick (s : State) (n : Nat) (f : Group → Group) : (s.updGroup n f).tick = s.tick := rfl
@[simp] theorem State.updGroup_serial (s : State) (n : Nat) (f : Group → Group) : (s.updGroup n f).serial = s.serial := rfl
@[simp] theorem State.updGroup_agenda (s : State) (n : Nat) (f : Group → Group) : (s.updGroup n f).agenda = s.agenda := rfl
@[simp] theorem State.updGroup_due (s : State) (n : Nat) (f : Group → Group) : (s.updGroup n f).due = s.due := rfl
@[simp] theorem State.updGroup_turn (s : State) (n : Nat) (f : Group → Group) : (s.updGroup n f).turn = s.turn := rfl
@[simp] theorem State.updGroup_cur (s : State) (n : Nat) (f : Group → Group) : (s.updGroup n f).cur = s.cur := rfl
@[simp] theorem State.updGroup_blocked (s : State) (n : Nat) (f : Group → Group) : (s.updGroup n f).blocked = s.blocked := rfl
@[simp] theorem State.updGroup_slotTurn (s : State) (n : Nat) (f : Group → Group) : (s.updGroup n f).slotTurn = s.slotTurn := rfl
@[simp] theorem State.updGroup_pairs (s : State) (n : Nat) (f : Group → Group) : (s.updGroup n f).pairs = s.pairs := rfl
@[simp] theorem State.updGroup_shares (s : State) (n : Nat) (f : Group → Group) : (s.updGroup n f).shares = s.shares := rfl
@[simp] theorem State.updGroup_paid (s : State) (n : Nat) (f : Group → Group) : (s.updGroup n f).paid = s.paid := rfl
@[simp] theorem State.updGroup_pkg (s : State) (n : Nat) (f : Group → Group) : (s.updGroup n f).pkg = s.pkg := rfl
@[simp] theorem State.updGroup_cell (s : State) (n : Nat) (f : Group → Group) : (s.updGroup n f).cell = s.cell := rfl
@[simp] theorem State.updGroup_numbered (s : State) (n : Nat) (f : Group → Group) : (s.updGroup n f).numbered = s.numbered := rfl
@[simp] theorem State.updGroup_form (s : State) (n : Nat) (f : Group → Group) : (s.updGroup n f).form = s.form := rfl
@[simp] theorem State.updGroup_bringUp (s : State) (n : Nat) (f : Group → Group) : (s.updGroup n f).bringUp = s.bringUp := rfl
@[simp] theorem State.updGroup_stopped (s : State) (n : Nat) (f : Group → Group) : (s.updGroup n f).stopped = s.stopped := rfl
@[simp] theorem State.updGroup_imageVersion (s : State) (n : Nat) (f : Group → Group) : (s.updGroup n f).imageVersion = s.imageVersion := rfl
@[simp] theorem State.updGroup_minVersion (s : State) (n : Nat) (f : Group → Group) : (s.updGroup n f).minVersion = s.minVersion := rfl
@[simp] theorem State.updGroup_identity (s : State) (n : Nat) (f : Group → Group) : (s.updGroup n f).identity = s.identity := rfl
@[simp] theorem State.updGroup_imageDigest (s : State) (n : Nat) (f : Group → Group) : (s.updGroup n f).imageDigest = s.imageDigest := rfl
@[simp] theorem State.updGroup_blobDigest (s : State) (n : Nat) (f : Group → Group) : (s.updGroup n f).blobDigest = s.blobDigest := rfl
@[simp] theorem State.updGroup_caps (s : State) (n : Nat) (f : Group → Group) : (s.updGroup n f).caps = s.caps := rfl
@[simp] theorem State.updGroup_boiling (s : State) (n : Nat) (f : Group → Group) : (s.updGroup n f).boiling = s.boiling := rfl
@[simp] theorem State.updGroup_power (s : State) (n : Nat) (f : Group → Group) : (s.updGroup n f).power = s.power := rfl
@[simp] theorem State.updGroup_throttled (s : State) (n : Nat) (f : Group → Group) : (s.updGroup n f).throttled = s.throttled := rfl
@[simp] theorem State.updGroup_trips (s : State) (n : Nat) (f : Group → Group) : (s.updGroup n f).trips = s.trips := rfl
@[simp] theorem State.updGroup_lastReport (s : State) (n : Nat) (f : Group → Group) : (s.updGroup n f).lastReport = s.lastReport := rfl
@[simp] theorem State.updGroup_thresholds (s : State) (n : Nat) (f : Group → Group) : (s.updGroup n f).thresholds = s.thresholds := rfl
@[simp] theorem State.updGroup_readings (s : State) (n : Nat) (f : Group → Group) : (s.updGroup n f).readings = s.readings := rfl
@[simp] theorem State.updGroup_scrub (s : State) (n : Nat) (f : Group → Group) : (s.updGroup n f).scrub = s.scrub := rfl
@[simp] theorem State.updGroup_softErrors (s : State) (n : Nat) (f : Group → Group) : (s.updGroup n f).softErrors = s.softErrors := rfl
@[simp] theorem State.updGroup_regs (s : State) (n : Nat) (f : Group → Group) : (s.updGroup n f).regs = s.regs := rfl
@[simp] theorem State.updGroup_msgs (s : State) (n : Nat) (f : Group → Group) : (s.updGroup n f).msgs = s.msgs := rfl
@[simp] theorem State.updGroup_lantern (s : State) (n : Nat) (f : Group → Group) : (s.updGroup n f).lantern = s.lantern := rfl
@[simp] theorem State.updGroup_ctx (s : State) (n : Nat) (f : Group → Group) : (s.updGroup n f).ctx = s.ctx := rfl
@[simp] theorem State.updGroup_aqi (s : State) (n : Nat) (f : Group → Group) : (s.updGroup n f).aqi = s.aqi := rfl
@[simp] theorem State.updGroup_remap (s : State) (n : Nat) (f : Group → Group) : (s.updGroup n f).remap = s.remap := rfl
@[simp] theorem State.updGroup_grants (s : State) (n : Nat) (f : Group → Group) : (s.updGroup n f).grants = s.grants := rfl
@[simp] theorem State.updGroup_lastPacket (s : State) (n : Nat) (f : Group → Group) : (s.updGroup n f).lastPacket = s.lastPacket := rfl
@[simp] theorem State.updGroup_kernels (s : State) (n : Nat) (f : Group → Group) : (s.updGroup n f).kernels = s.kernels := rfl
@[simp] theorem State.updGroup_gangs (s : State) (n : Nat) (f : Group → Group) : (s.updGroup n f).gangs = s.gangs := rfl
@[simp] theorem State.updGroup_reserve (s : State) (n : Nat) (f : Group → Group) : (s.updGroup n f).reserve = s.reserve := rfl
@[simp] theorem State.updGroup_mem (s : State) (n : Nat) (f : Group → Group) : (s.updGroup n f).mem = s.mem := rfl
@[simp] theorem State.updGroup_pline (s : State) (n : Nat) (f : Group → Group) : (s.updGroup n f).pline = s.pline := rfl
@[simp] theorem State.updGroup_dir (s : State) (n : Nat) (f : Group → Group) : (s.updGroup n f).dir = s.dir := rfl
@[simp] theorem State.updGroup_homes (s : State) (n : Nat) (f : Group → Group) : (s.updGroup n f).homes = s.homes := rfl
@[simp] theorem State.updGroup_cores (s : State) (n : Nat) (f : Group → Group) : (s.updGroup n f).cores = s.cores := rfl
@[simp] theorem State.updGroup_owned (s : State) (n : Nat) (f : Group → Group) : (s.updGroup n f).owned = s.owned := rfl
@[simp] theorem State.updGroup_ownAsks (s : State) (n : Nat) (f : Group → Group) : (s.updGroup n f).ownAsks = s.ownAsks := rfl
@[simp] theorem State.updGroup_granted (s : State) (n : Nat) (f : Group → Group) : (s.updGroup n f).granted = s.granted := rfl
@[simp] theorem State.updGroup_hostShared (s : State) (n : Nat) (f : Group → Group) : (s.updGroup n f).hostShared = s.hostShared := rfl
@[simp] theorem State.updGroup_wts (s : State) (n : Nat) (f : Group → Group) : (s.updGroup n f).wts = s.wts := rfl
@[simp] theorem State.updGroup_hot (s : State) (n : Nat) (f : Group → Group) : (s.updGroup n f).hot = s.hot := rfl
@[simp] theorem State.updGroup_transfers (s : State) (n : Nat) (f : Group → Group) : (s.updGroup n f).transfers = s.transfers := rfl
@[simp] theorem State.updGroup_lastOwner (s : State) (n : Nat) (f : Group → Group) : (s.updGroup n f).lastOwner = s.lastOwner := rfl
@[simp] theorem State.updGroup_migrated (s : State) (n : Nat) (f : Group → Group) : (s.updGroup n f).migrated = s.migrated := rfl
@[simp] theorem State.updGroup_tlb (s : State) (n : Nat) (f : Group → Group) : (s.updGroup n f).tlb = s.tlb := rfl
@[simp] theorem State.updGroup_sectorTlb (s : State) (n : Nat) (f : Group → Group) : (s.updGroup n f).sectorTlb = s.sectorTlb := rfl
@[simp] theorem State.updGroup_walks (s : State) (n : Nat) (f : Group → Group) : (s.updGroup n f).walks = s.walks := rfl
@[simp] theorem State.updGroup_tier (s : State) (n : Nat) (f : Group → Group) : (s.updGroup n f).tier = s.tier := rfl
@[simp] theorem State.updGroup_firewall (s : State) (n : Nat) (f : Group → Group) : (s.updGroup n f).firewall = s.firewall := rfl
@[simp] theorem State.updGroup_l2w (s : State) (n : Nat) (f : Group → Group) : (s.updGroup n f).l2w = s.l2w := rfl
@[simp] theorem State.updGroup_pageReqs (s : State) (n : Nat) (f : Group → Group) : (s.updGroup n f).pageReqs = s.pageReqs := rfl
@[simp] theorem State.updGroup_copies (s : State) (n : Nat) (f : Group → Group) : (s.updGroup n f).copies = s.copies := rfl
@[simp] theorem State.updGroup_puts (s : State) (n : Nat) (f : Group → Group) : (s.updGroup n f).puts = s.puts := rfl
@[simp] theorem State.updGroup_admits (s : State) (n : Nat) (f : Group → Group) : (s.updGroup n f).admits = s.admits := rfl
@[simp] theorem State.updGroup_engines (s : State) (n : Nat) (f : Group → Group) : (s.updGroup n f).engines = s.engines := rfl
@[simp] theorem State.updGroup_shapes (s : State) (n : Nat) (f : Group → Group) : (s.updGroup n f).shapes = s.shapes := rfl
@[simp] theorem State.updGroup_contribs (s : State) (n : Nat) (f : Group → Group) : (s.updGroup n f).contribs = s.contribs := rfl
@[simp] theorem State.updGroup_trees (s : State) (n : Nat) (f : Group → Group) : (s.updGroup n f).trees = s.trees := rfl
@[simp] theorem State.updGroup_lastTag (s : State) (n : Nat) (f : Group → Group) : (s.updGroup n f).lastTag = s.lastTag := rfl
@[simp] theorem State.updGroup_waits (s : State) (n : Nat) (f : Group → Group) : (s.updGroup n f).waits = s.waits := rfl
@[simp] theorem State.updGroup_cells (s : State) (n : Nat) (f : Group → Group) : (s.updGroup n f).cells = s.cells := rfl
@[simp] theorem State.updGroup_ports (s : State) (n : Nat) (f : Group → Group) : (s.updGroup n f).ports = s.ports := rfl
@[simp] theorem State.updGroup_slots (s : State) (n : Nat) (f : Group → Group) : (s.updGroup n f).slots = s.slots := rfl
@[simp] theorem State.updGroup_active (s : State) (n : Nat) (f : Group → Group) : (s.updGroup n f).active = s.active := rfl
@[simp] theorem State.updGroup_tgen (s : State) (n : Nat) (f : Group → Group) : (s.updGroup n f).tgen = s.tgen := rfl
@[simp] theorem State.updGroup_round (s : State) (n : Nat) (f : Group → Group) : (s.updGroup n f).round = s.round := rfl
@[simp] theorem State.updGroup_seqs (s : State) (n : Nat) (f : Group → Group) : (s.updGroup n f).seqs = s.seqs := rfl
@[simp] theorem State.updGroup_early (s : State) (n : Nat) (f : Group → Group) : (s.updGroup n f).early = s.early := rfl
@[simp] theorem State.updGroup_outSeq (s : State) (n : Nat) (f : Group → Group) : (s.updGroup n f).outSeq = s.outSeq := rfl
@[simp] theorem State.updGroup_asks (s : State) (n : Nat) (f : Group → Group) : (s.updGroup n f).asks = s.asks := rfl
@[simp] theorem State.updGroup_recalls (s : State) (n : Nat) (f : Group → Group) : (s.updGroup n f).recalls = s.recalls := rfl
@[simp] theorem State.updGroup_fwOpen (s : State) (n : Nat) (f : Group → Group) : (s.updGroup n f).fwOpen = s.fwOpen := rfl
@[simp] theorem State.updGroup_stuck (s : State) (n : Nat) (f : Group → Group) : (s.updGroup n f).stuck = s.stuck := rfl
@[simp] theorem State.updGroup_landed (s : State) (n : Nat) (f : Group → Group) : (s.updGroup n f).landed = s.landed := rfl
@[simp] theorem State.updGroup_putLines (s : State) (n : Nat) (f : Group → Group) : (s.updGroup n f).putLines = s.putLines := rfl
@[simp] theorem State.updGroup_admitted (s : State) (n : Nat) (f : Group → Group) : (s.updGroup n f).admitted = s.admitted := rfl
@[simp] theorem State.updGroup_leaves (s : State) (n : Nat) (f : Group → Group) : (s.updGroup n f).leaves = s.leaves := rfl
@[simp] theorem State.updGroup_pcs (s : State) (n : Nat) (f : Group → Group) : (s.updGroup n f).pcs = s.pcs := rfl
@[simp] theorem State.updGroup_unsampled (s : State) (n : Nat) (f : Group → Group) : (s.updGroup n f).unsampled = s.unsampled := rfl

/-! ### updWarp -/

@[simp] theorem State.updWarp_tick (s : State) (w : WarpId) (f : Warp → Warp) : (s.updWarp w f).tick = s.tick := rfl
@[simp] theorem State.updWarp_serial (s : State) (w : WarpId) (f : Warp → Warp) : (s.updWarp w f).serial = s.serial := rfl
@[simp] theorem State.updWarp_agenda (s : State) (w : WarpId) (f : Warp → Warp) : (s.updWarp w f).agenda = s.agenda := rfl
@[simp] theorem State.updWarp_due (s : State) (w : WarpId) (f : Warp → Warp) : (s.updWarp w f).due = s.due := rfl
@[simp] theorem State.updWarp_turn (s : State) (w : WarpId) (f : Warp → Warp) : (s.updWarp w f).turn = s.turn := rfl
@[simp] theorem State.updWarp_cur (s : State) (w : WarpId) (f : Warp → Warp) : (s.updWarp w f).cur = s.cur := rfl
@[simp] theorem State.updWarp_blocked (s : State) (w : WarpId) (f : Warp → Warp) : (s.updWarp w f).blocked = s.blocked := rfl
@[simp] theorem State.updWarp_slotTurn (s : State) (w : WarpId) (f : Warp → Warp) : (s.updWarp w f).slotTurn = s.slotTurn := rfl
@[simp] theorem State.updWarp_pairs (s : State) (w : WarpId) (f : Warp → Warp) : (s.updWarp w f).pairs = s.pairs := rfl
@[simp] theorem State.updWarp_shares (s : State) (w : WarpId) (f : Warp → Warp) : (s.updWarp w f).shares = s.shares := rfl
@[simp] theorem State.updWarp_paid (s : State) (w : WarpId) (f : Warp → Warp) : (s.updWarp w f).paid = s.paid := rfl
@[simp] theorem State.updWarp_pkg (s : State) (w : WarpId) (f : Warp → Warp) : (s.updWarp w f).pkg = s.pkg := rfl
@[simp] theorem State.updWarp_cell (s : State) (w : WarpId) (f : Warp → Warp) : (s.updWarp w f).cell = s.cell := rfl
@[simp] theorem State.updWarp_numbered (s : State) (w : WarpId) (f : Warp → Warp) : (s.updWarp w f).numbered = s.numbered := rfl
@[simp] theorem State.updWarp_form (s : State) (w : WarpId) (f : Warp → Warp) : (s.updWarp w f).form = s.form := rfl
@[simp] theorem State.updWarp_bringUp (s : State) (w : WarpId) (f : Warp → Warp) : (s.updWarp w f).bringUp = s.bringUp := rfl
@[simp] theorem State.updWarp_stopped (s : State) (w : WarpId) (f : Warp → Warp) : (s.updWarp w f).stopped = s.stopped := rfl
@[simp] theorem State.updWarp_imageVersion (s : State) (w : WarpId) (f : Warp → Warp) : (s.updWarp w f).imageVersion = s.imageVersion := rfl
@[simp] theorem State.updWarp_minVersion (s : State) (w : WarpId) (f : Warp → Warp) : (s.updWarp w f).minVersion = s.minVersion := rfl
@[simp] theorem State.updWarp_identity (s : State) (w : WarpId) (f : Warp → Warp) : (s.updWarp w f).identity = s.identity := rfl
@[simp] theorem State.updWarp_imageDigest (s : State) (w : WarpId) (f : Warp → Warp) : (s.updWarp w f).imageDigest = s.imageDigest := rfl
@[simp] theorem State.updWarp_blobDigest (s : State) (w : WarpId) (f : Warp → Warp) : (s.updWarp w f).blobDigest = s.blobDigest := rfl
@[simp] theorem State.updWarp_caps (s : State) (w : WarpId) (f : Warp → Warp) : (s.updWarp w f).caps = s.caps := rfl
@[simp] theorem State.updWarp_boiling (s : State) (w : WarpId) (f : Warp → Warp) : (s.updWarp w f).boiling = s.boiling := rfl
@[simp] theorem State.updWarp_power (s : State) (w : WarpId) (f : Warp → Warp) : (s.updWarp w f).power = s.power := rfl
@[simp] theorem State.updWarp_throttled (s : State) (w : WarpId) (f : Warp → Warp) : (s.updWarp w f).throttled = s.throttled := rfl
@[simp] theorem State.updWarp_trips (s : State) (w : WarpId) (f : Warp → Warp) : (s.updWarp w f).trips = s.trips := rfl
@[simp] theorem State.updWarp_lastReport (s : State) (w : WarpId) (f : Warp → Warp) : (s.updWarp w f).lastReport = s.lastReport := rfl
@[simp] theorem State.updWarp_thresholds (s : State) (w : WarpId) (f : Warp → Warp) : (s.updWarp w f).thresholds = s.thresholds := rfl
@[simp] theorem State.updWarp_readings (s : State) (w : WarpId) (f : Warp → Warp) : (s.updWarp w f).readings = s.readings := rfl
@[simp] theorem State.updWarp_scrub (s : State) (w : WarpId) (f : Warp → Warp) : (s.updWarp w f).scrub = s.scrub := rfl
@[simp] theorem State.updWarp_softErrors (s : State) (w : WarpId) (f : Warp → Warp) : (s.updWarp w f).softErrors = s.softErrors := rfl
@[simp] theorem State.updWarp_regs (s : State) (w : WarpId) (f : Warp → Warp) : (s.updWarp w f).regs = s.regs := rfl
@[simp] theorem State.updWarp_msgs (s : State) (w : WarpId) (f : Warp → Warp) : (s.updWarp w f).msgs = s.msgs := rfl
@[simp] theorem State.updWarp_lantern (s : State) (w : WarpId) (f : Warp → Warp) : (s.updWarp w f).lantern = s.lantern := rfl
@[simp] theorem State.updWarp_ctx (s : State) (w : WarpId) (f : Warp → Warp) : (s.updWarp w f).ctx = s.ctx := rfl
@[simp] theorem State.updWarp_aqi (s : State) (w : WarpId) (f : Warp → Warp) : (s.updWarp w f).aqi = s.aqi := rfl
@[simp] theorem State.updWarp_remap (s : State) (w : WarpId) (f : Warp → Warp) : (s.updWarp w f).remap = s.remap := rfl
@[simp] theorem State.updWarp_grants (s : State) (w : WarpId) (f : Warp → Warp) : (s.updWarp w f).grants = s.grants := rfl
@[simp] theorem State.updWarp_lastPacket (s : State) (w : WarpId) (f : Warp → Warp) : (s.updWarp w f).lastPacket = s.lastPacket := rfl
@[simp] theorem State.updWarp_kernels (s : State) (w : WarpId) (f : Warp → Warp) : (s.updWarp w f).kernels = s.kernels := rfl
@[simp] theorem State.updWarp_gangs (s : State) (w : WarpId) (f : Warp → Warp) : (s.updWarp w f).gangs = s.gangs := rfl
@[simp] theorem State.updWarp_reserve (s : State) (w : WarpId) (f : Warp → Warp) : (s.updWarp w f).reserve = s.reserve := rfl
@[simp] theorem State.updWarp_mem (s : State) (w : WarpId) (f : Warp → Warp) : (s.updWarp w f).mem = s.mem := rfl
@[simp] theorem State.updWarp_pline (s : State) (w : WarpId) (f : Warp → Warp) : (s.updWarp w f).pline = s.pline := rfl
@[simp] theorem State.updWarp_dir (s : State) (w : WarpId) (f : Warp → Warp) : (s.updWarp w f).dir = s.dir := rfl
@[simp] theorem State.updWarp_homes (s : State) (w : WarpId) (f : Warp → Warp) : (s.updWarp w f).homes = s.homes := rfl
@[simp] theorem State.updWarp_cores (s : State) (w : WarpId) (f : Warp → Warp) : (s.updWarp w f).cores = s.cores := rfl
@[simp] theorem State.updWarp_owned (s : State) (w : WarpId) (f : Warp → Warp) : (s.updWarp w f).owned = s.owned := rfl
@[simp] theorem State.updWarp_ownAsks (s : State) (w : WarpId) (f : Warp → Warp) : (s.updWarp w f).ownAsks = s.ownAsks := rfl
@[simp] theorem State.updWarp_granted (s : State) (w : WarpId) (f : Warp → Warp) : (s.updWarp w f).granted = s.granted := rfl
@[simp] theorem State.updWarp_hostShared (s : State) (w : WarpId) (f : Warp → Warp) : (s.updWarp w f).hostShared = s.hostShared := rfl
@[simp] theorem State.updWarp_wts (s : State) (w : WarpId) (f : Warp → Warp) : (s.updWarp w f).wts = s.wts := rfl
@[simp] theorem State.updWarp_hot (s : State) (w : WarpId) (f : Warp → Warp) : (s.updWarp w f).hot = s.hot := rfl
@[simp] theorem State.updWarp_transfers (s : State) (w : WarpId) (f : Warp → Warp) : (s.updWarp w f).transfers = s.transfers := rfl
@[simp] theorem State.updWarp_lastOwner (s : State) (w : WarpId) (f : Warp → Warp) : (s.updWarp w f).lastOwner = s.lastOwner := rfl
@[simp] theorem State.updWarp_migrated (s : State) (w : WarpId) (f : Warp → Warp) : (s.updWarp w f).migrated = s.migrated := rfl
@[simp] theorem State.updWarp_tlb (s : State) (w : WarpId) (f : Warp → Warp) : (s.updWarp w f).tlb = s.tlb := rfl
@[simp] theorem State.updWarp_sectorTlb (s : State) (w : WarpId) (f : Warp → Warp) : (s.updWarp w f).sectorTlb = s.sectorTlb := rfl
@[simp] theorem State.updWarp_walks (s : State) (w : WarpId) (f : Warp → Warp) : (s.updWarp w f).walks = s.walks := rfl
@[simp] theorem State.updWarp_tier (s : State) (w : WarpId) (f : Warp → Warp) : (s.updWarp w f).tier = s.tier := rfl
@[simp] theorem State.updWarp_firewall (s : State) (w : WarpId) (f : Warp → Warp) : (s.updWarp w f).firewall = s.firewall := rfl
@[simp] theorem State.updWarp_l2w (s : State) (w : WarpId) (f : Warp → Warp) : (s.updWarp w f).l2w = s.l2w := rfl
@[simp] theorem State.updWarp_pageReqs (s : State) (w : WarpId) (f : Warp → Warp) : (s.updWarp w f).pageReqs = s.pageReqs := rfl
@[simp] theorem State.updWarp_copies (s : State) (w : WarpId) (f : Warp → Warp) : (s.updWarp w f).copies = s.copies := rfl
@[simp] theorem State.updWarp_puts (s : State) (w : WarpId) (f : Warp → Warp) : (s.updWarp w f).puts = s.puts := rfl
@[simp] theorem State.updWarp_admits (s : State) (w : WarpId) (f : Warp → Warp) : (s.updWarp w f).admits = s.admits := rfl
@[simp] theorem State.updWarp_engines (s : State) (w : WarpId) (f : Warp → Warp) : (s.updWarp w f).engines = s.engines := rfl
@[simp] theorem State.updWarp_shapes (s : State) (w : WarpId) (f : Warp → Warp) : (s.updWarp w f).shapes = s.shapes := rfl
@[simp] theorem State.updWarp_contribs (s : State) (w : WarpId) (f : Warp → Warp) : (s.updWarp w f).contribs = s.contribs := rfl
@[simp] theorem State.updWarp_trees (s : State) (w : WarpId) (f : Warp → Warp) : (s.updWarp w f).trees = s.trees := rfl
@[simp] theorem State.updWarp_lastTag (s : State) (w : WarpId) (f : Warp → Warp) : (s.updWarp w f).lastTag = s.lastTag := rfl
@[simp] theorem State.updWarp_waits (s : State) (w : WarpId) (f : Warp → Warp) : (s.updWarp w f).waits = s.waits := rfl
@[simp] theorem State.updWarp_cells (s : State) (w : WarpId) (f : Warp → Warp) : (s.updWarp w f).cells = s.cells := rfl
@[simp] theorem State.updWarp_ports (s : State) (w : WarpId) (f : Warp → Warp) : (s.updWarp w f).ports = s.ports := rfl
@[simp] theorem State.updWarp_slots (s : State) (w : WarpId) (f : Warp → Warp) : (s.updWarp w f).slots = s.slots := rfl
@[simp] theorem State.updWarp_active (s : State) (w : WarpId) (f : Warp → Warp) : (s.updWarp w f).active = s.active := rfl
@[simp] theorem State.updWarp_tgen (s : State) (w : WarpId) (f : Warp → Warp) : (s.updWarp w f).tgen = s.tgen := rfl
@[simp] theorem State.updWarp_round (s : State) (w : WarpId) (f : Warp → Warp) : (s.updWarp w f).round = s.round := rfl
@[simp] theorem State.updWarp_seqs (s : State) (w : WarpId) (f : Warp → Warp) : (s.updWarp w f).seqs = s.seqs := rfl
@[simp] theorem State.updWarp_early (s : State) (w : WarpId) (f : Warp → Warp) : (s.updWarp w f).early = s.early := rfl
@[simp] theorem State.updWarp_outSeq (s : State) (w : WarpId) (f : Warp → Warp) : (s.updWarp w f).outSeq = s.outSeq := rfl
@[simp] theorem State.updWarp_asks (s : State) (w : WarpId) (f : Warp → Warp) : (s.updWarp w f).asks = s.asks := rfl
@[simp] theorem State.updWarp_recalls (s : State) (w : WarpId) (f : Warp → Warp) : (s.updWarp w f).recalls = s.recalls := rfl
@[simp] theorem State.updWarp_fwOpen (s : State) (w : WarpId) (f : Warp → Warp) : (s.updWarp w f).fwOpen = s.fwOpen := rfl
@[simp] theorem State.updWarp_stuck (s : State) (w : WarpId) (f : Warp → Warp) : (s.updWarp w f).stuck = s.stuck := rfl
@[simp] theorem State.updWarp_landed (s : State) (w : WarpId) (f : Warp → Warp) : (s.updWarp w f).landed = s.landed := rfl
@[simp] theorem State.updWarp_putLines (s : State) (w : WarpId) (f : Warp → Warp) : (s.updWarp w f).putLines = s.putLines := rfl
@[simp] theorem State.updWarp_admitted (s : State) (w : WarpId) (f : Warp → Warp) : (s.updWarp w f).admitted = s.admitted := rfl
@[simp] theorem State.updWarp_leaves (s : State) (w : WarpId) (f : Warp → Warp) : (s.updWarp w f).leaves = s.leaves := rfl
@[simp] theorem State.updWarp_pcs (s : State) (w : WarpId) (f : Warp → Warp) : (s.updWarp w f).pcs = s.pcs := rfl
@[simp] theorem State.updWarp_unsampled (s : State) (w : WarpId) (f : Warp → Warp) : (s.updWarp w f).unsampled = s.unsampled := rfl

/-! ### setWarp -/

@[simp] theorem State.setWarp_tick (s : State) (w : WarpId) (x : Warp) : (s.setWarp w x).tick = s.tick := rfl
@[simp] theorem State.setWarp_serial (s : State) (w : WarpId) (x : Warp) : (s.setWarp w x).serial = s.serial := rfl
@[simp] theorem State.setWarp_agenda (s : State) (w : WarpId) (x : Warp) : (s.setWarp w x).agenda = s.agenda := rfl
@[simp] theorem State.setWarp_due (s : State) (w : WarpId) (x : Warp) : (s.setWarp w x).due = s.due := rfl
@[simp] theorem State.setWarp_turn (s : State) (w : WarpId) (x : Warp) : (s.setWarp w x).turn = s.turn := rfl
@[simp] theorem State.setWarp_cur (s : State) (w : WarpId) (x : Warp) : (s.setWarp w x).cur = s.cur := rfl
@[simp] theorem State.setWarp_blocked (s : State) (w : WarpId) (x : Warp) : (s.setWarp w x).blocked = s.blocked := rfl
@[simp] theorem State.setWarp_slotTurn (s : State) (w : WarpId) (x : Warp) : (s.setWarp w x).slotTurn = s.slotTurn := rfl
@[simp] theorem State.setWarp_pairs (s : State) (w : WarpId) (x : Warp) : (s.setWarp w x).pairs = s.pairs := rfl
@[simp] theorem State.setWarp_shares (s : State) (w : WarpId) (x : Warp) : (s.setWarp w x).shares = s.shares := rfl
@[simp] theorem State.setWarp_paid (s : State) (w : WarpId) (x : Warp) : (s.setWarp w x).paid = s.paid := rfl
@[simp] theorem State.setWarp_pkg (s : State) (w : WarpId) (x : Warp) : (s.setWarp w x).pkg = s.pkg := rfl
@[simp] theorem State.setWarp_cell (s : State) (w : WarpId) (x : Warp) : (s.setWarp w x).cell = s.cell := rfl
@[simp] theorem State.setWarp_numbered (s : State) (w : WarpId) (x : Warp) : (s.setWarp w x).numbered = s.numbered := rfl
@[simp] theorem State.setWarp_form (s : State) (w : WarpId) (x : Warp) : (s.setWarp w x).form = s.form := rfl
@[simp] theorem State.setWarp_bringUp (s : State) (w : WarpId) (x : Warp) : (s.setWarp w x).bringUp = s.bringUp := rfl
@[simp] theorem State.setWarp_stopped (s : State) (w : WarpId) (x : Warp) : (s.setWarp w x).stopped = s.stopped := rfl
@[simp] theorem State.setWarp_imageVersion (s : State) (w : WarpId) (x : Warp) : (s.setWarp w x).imageVersion = s.imageVersion := rfl
@[simp] theorem State.setWarp_minVersion (s : State) (w : WarpId) (x : Warp) : (s.setWarp w x).minVersion = s.minVersion := rfl
@[simp] theorem State.setWarp_identity (s : State) (w : WarpId) (x : Warp) : (s.setWarp w x).identity = s.identity := rfl
@[simp] theorem State.setWarp_imageDigest (s : State) (w : WarpId) (x : Warp) : (s.setWarp w x).imageDigest = s.imageDigest := rfl
@[simp] theorem State.setWarp_blobDigest (s : State) (w : WarpId) (x : Warp) : (s.setWarp w x).blobDigest = s.blobDigest := rfl
@[simp] theorem State.setWarp_caps (s : State) (w : WarpId) (x : Warp) : (s.setWarp w x).caps = s.caps := rfl
@[simp] theorem State.setWarp_boiling (s : State) (w : WarpId) (x : Warp) : (s.setWarp w x).boiling = s.boiling := rfl
@[simp] theorem State.setWarp_power (s : State) (w : WarpId) (x : Warp) : (s.setWarp w x).power = s.power := rfl
@[simp] theorem State.setWarp_throttled (s : State) (w : WarpId) (x : Warp) : (s.setWarp w x).throttled = s.throttled := rfl
@[simp] theorem State.setWarp_trips (s : State) (w : WarpId) (x : Warp) : (s.setWarp w x).trips = s.trips := rfl
@[simp] theorem State.setWarp_lastReport (s : State) (w : WarpId) (x : Warp) : (s.setWarp w x).lastReport = s.lastReport := rfl
@[simp] theorem State.setWarp_thresholds (s : State) (w : WarpId) (x : Warp) : (s.setWarp w x).thresholds = s.thresholds := rfl
@[simp] theorem State.setWarp_readings (s : State) (w : WarpId) (x : Warp) : (s.setWarp w x).readings = s.readings := rfl
@[simp] theorem State.setWarp_scrub (s : State) (w : WarpId) (x : Warp) : (s.setWarp w x).scrub = s.scrub := rfl
@[simp] theorem State.setWarp_softErrors (s : State) (w : WarpId) (x : Warp) : (s.setWarp w x).softErrors = s.softErrors := rfl
@[simp] theorem State.setWarp_regs (s : State) (w : WarpId) (x : Warp) : (s.setWarp w x).regs = s.regs := rfl
@[simp] theorem State.setWarp_msgs (s : State) (w : WarpId) (x : Warp) : (s.setWarp w x).msgs = s.msgs := rfl
@[simp] theorem State.setWarp_lantern (s : State) (w : WarpId) (x : Warp) : (s.setWarp w x).lantern = s.lantern := rfl
@[simp] theorem State.setWarp_ctx (s : State) (w : WarpId) (x : Warp) : (s.setWarp w x).ctx = s.ctx := rfl
@[simp] theorem State.setWarp_aqi (s : State) (w : WarpId) (x : Warp) : (s.setWarp w x).aqi = s.aqi := rfl
@[simp] theorem State.setWarp_remap (s : State) (w : WarpId) (x : Warp) : (s.setWarp w x).remap = s.remap := rfl
@[simp] theorem State.setWarp_grants (s : State) (w : WarpId) (x : Warp) : (s.setWarp w x).grants = s.grants := rfl
@[simp] theorem State.setWarp_lastPacket (s : State) (w : WarpId) (x : Warp) : (s.setWarp w x).lastPacket = s.lastPacket := rfl
@[simp] theorem State.setWarp_kernels (s : State) (w : WarpId) (x : Warp) : (s.setWarp w x).kernels = s.kernels := rfl
@[simp] theorem State.setWarp_gangs (s : State) (w : WarpId) (x : Warp) : (s.setWarp w x).gangs = s.gangs := rfl
@[simp] theorem State.setWarp_reserve (s : State) (w : WarpId) (x : Warp) : (s.setWarp w x).reserve = s.reserve := rfl
@[simp] theorem State.setWarp_mem (s : State) (w : WarpId) (x : Warp) : (s.setWarp w x).mem = s.mem := rfl
@[simp] theorem State.setWarp_pline (s : State) (w : WarpId) (x : Warp) : (s.setWarp w x).pline = s.pline := rfl
@[simp] theorem State.setWarp_dir (s : State) (w : WarpId) (x : Warp) : (s.setWarp w x).dir = s.dir := rfl
@[simp] theorem State.setWarp_homes (s : State) (w : WarpId) (x : Warp) : (s.setWarp w x).homes = s.homes := rfl
@[simp] theorem State.setWarp_cores (s : State) (w : WarpId) (x : Warp) : (s.setWarp w x).cores = s.cores := rfl
@[simp] theorem State.setWarp_owned (s : State) (w : WarpId) (x : Warp) : (s.setWarp w x).owned = s.owned := rfl
@[simp] theorem State.setWarp_ownAsks (s : State) (w : WarpId) (x : Warp) : (s.setWarp w x).ownAsks = s.ownAsks := rfl
@[simp] theorem State.setWarp_granted (s : State) (w : WarpId) (x : Warp) : (s.setWarp w x).granted = s.granted := rfl
@[simp] theorem State.setWarp_hostShared (s : State) (w : WarpId) (x : Warp) : (s.setWarp w x).hostShared = s.hostShared := rfl
@[simp] theorem State.setWarp_wts (s : State) (w : WarpId) (x : Warp) : (s.setWarp w x).wts = s.wts := rfl
@[simp] theorem State.setWarp_hot (s : State) (w : WarpId) (x : Warp) : (s.setWarp w x).hot = s.hot := rfl
@[simp] theorem State.setWarp_transfers (s : State) (w : WarpId) (x : Warp) : (s.setWarp w x).transfers = s.transfers := rfl
@[simp] theorem State.setWarp_lastOwner (s : State) (w : WarpId) (x : Warp) : (s.setWarp w x).lastOwner = s.lastOwner := rfl
@[simp] theorem State.setWarp_migrated (s : State) (w : WarpId) (x : Warp) : (s.setWarp w x).migrated = s.migrated := rfl
@[simp] theorem State.setWarp_tlb (s : State) (w : WarpId) (x : Warp) : (s.setWarp w x).tlb = s.tlb := rfl
@[simp] theorem State.setWarp_sectorTlb (s : State) (w : WarpId) (x : Warp) : (s.setWarp w x).sectorTlb = s.sectorTlb := rfl
@[simp] theorem State.setWarp_walks (s : State) (w : WarpId) (x : Warp) : (s.setWarp w x).walks = s.walks := rfl
@[simp] theorem State.setWarp_tier (s : State) (w : WarpId) (x : Warp) : (s.setWarp w x).tier = s.tier := rfl
@[simp] theorem State.setWarp_firewall (s : State) (w : WarpId) (x : Warp) : (s.setWarp w x).firewall = s.firewall := rfl
@[simp] theorem State.setWarp_l2w (s : State) (w : WarpId) (x : Warp) : (s.setWarp w x).l2w = s.l2w := rfl
@[simp] theorem State.setWarp_pageReqs (s : State) (w : WarpId) (x : Warp) : (s.setWarp w x).pageReqs = s.pageReqs := rfl
@[simp] theorem State.setWarp_copies (s : State) (w : WarpId) (x : Warp) : (s.setWarp w x).copies = s.copies := rfl
@[simp] theorem State.setWarp_puts (s : State) (w : WarpId) (x : Warp) : (s.setWarp w x).puts = s.puts := rfl
@[simp] theorem State.setWarp_admits (s : State) (w : WarpId) (x : Warp) : (s.setWarp w x).admits = s.admits := rfl
@[simp] theorem State.setWarp_engines (s : State) (w : WarpId) (x : Warp) : (s.setWarp w x).engines = s.engines := rfl
@[simp] theorem State.setWarp_shapes (s : State) (w : WarpId) (x : Warp) : (s.setWarp w x).shapes = s.shapes := rfl
@[simp] theorem State.setWarp_contribs (s : State) (w : WarpId) (x : Warp) : (s.setWarp w x).contribs = s.contribs := rfl
@[simp] theorem State.setWarp_trees (s : State) (w : WarpId) (x : Warp) : (s.setWarp w x).trees = s.trees := rfl
@[simp] theorem State.setWarp_lastTag (s : State) (w : WarpId) (x : Warp) : (s.setWarp w x).lastTag = s.lastTag := rfl
@[simp] theorem State.setWarp_waits (s : State) (w : WarpId) (x : Warp) : (s.setWarp w x).waits = s.waits := rfl
@[simp] theorem State.setWarp_cells (s : State) (w : WarpId) (x : Warp) : (s.setWarp w x).cells = s.cells := rfl
@[simp] theorem State.setWarp_ports (s : State) (w : WarpId) (x : Warp) : (s.setWarp w x).ports = s.ports := rfl
@[simp] theorem State.setWarp_slots (s : State) (w : WarpId) (x : Warp) : (s.setWarp w x).slots = s.slots := rfl
@[simp] theorem State.setWarp_active (s : State) (w : WarpId) (x : Warp) : (s.setWarp w x).active = s.active := rfl
@[simp] theorem State.setWarp_tgen (s : State) (w : WarpId) (x : Warp) : (s.setWarp w x).tgen = s.tgen := rfl
@[simp] theorem State.setWarp_round (s : State) (w : WarpId) (x : Warp) : (s.setWarp w x).round = s.round := rfl
@[simp] theorem State.setWarp_seqs (s : State) (w : WarpId) (x : Warp) : (s.setWarp w x).seqs = s.seqs := rfl
@[simp] theorem State.setWarp_early (s : State) (w : WarpId) (x : Warp) : (s.setWarp w x).early = s.early := rfl
@[simp] theorem State.setWarp_outSeq (s : State) (w : WarpId) (x : Warp) : (s.setWarp w x).outSeq = s.outSeq := rfl
@[simp] theorem State.setWarp_asks (s : State) (w : WarpId) (x : Warp) : (s.setWarp w x).asks = s.asks := rfl
@[simp] theorem State.setWarp_recalls (s : State) (w : WarpId) (x : Warp) : (s.setWarp w x).recalls = s.recalls := rfl
@[simp] theorem State.setWarp_fwOpen (s : State) (w : WarpId) (x : Warp) : (s.setWarp w x).fwOpen = s.fwOpen := rfl
@[simp] theorem State.setWarp_stuck (s : State) (w : WarpId) (x : Warp) : (s.setWarp w x).stuck = s.stuck := rfl
@[simp] theorem State.setWarp_landed (s : State) (w : WarpId) (x : Warp) : (s.setWarp w x).landed = s.landed := rfl
@[simp] theorem State.setWarp_putLines (s : State) (w : WarpId) (x : Warp) : (s.setWarp w x).putLines = s.putLines := rfl
@[simp] theorem State.setWarp_admitted (s : State) (w : WarpId) (x : Warp) : (s.setWarp w x).admitted = s.admitted := rfl
@[simp] theorem State.setWarp_leaves (s : State) (w : WarpId) (x : Warp) : (s.setWarp w x).leaves = s.leaves := rfl
@[simp] theorem State.setWarp_pcs (s : State) (w : WarpId) (x : Warp) : (s.setWarp w x).pcs = s.pcs := rfl
@[simp] theorem State.setWarp_unsampled (s : State) (w : WarpId) (x : Warp) : (s.setWarp w x).unsampled = s.unsampled := rfl

/-! ### updKernel -/

@[simp] theorem State.updKernel_tick (s : State) (n : Nat) (f : Kernel → Kernel) : (s.updKernel n f).tick = s.tick := rfl
@[simp] theorem State.updKernel_serial (s : State) (n : Nat) (f : Kernel → Kernel) : (s.updKernel n f).serial = s.serial := rfl
@[simp] theorem State.updKernel_agenda (s : State) (n : Nat) (f : Kernel → Kernel) : (s.updKernel n f).agenda = s.agenda := rfl
@[simp] theorem State.updKernel_due (s : State) (n : Nat) (f : Kernel → Kernel) : (s.updKernel n f).due = s.due := rfl
@[simp] theorem State.updKernel_turn (s : State) (n : Nat) (f : Kernel → Kernel) : (s.updKernel n f).turn = s.turn := rfl
@[simp] theorem State.updKernel_cur (s : State) (n : Nat) (f : Kernel → Kernel) : (s.updKernel n f).cur = s.cur := rfl
@[simp] theorem State.updKernel_blocked (s : State) (n : Nat) (f : Kernel → Kernel) : (s.updKernel n f).blocked = s.blocked := rfl
@[simp] theorem State.updKernel_slotTurn (s : State) (n : Nat) (f : Kernel → Kernel) : (s.updKernel n f).slotTurn = s.slotTurn := rfl
@[simp] theorem State.updKernel_pairs (s : State) (n : Nat) (f : Kernel → Kernel) : (s.updKernel n f).pairs = s.pairs := rfl
@[simp] theorem State.updKernel_shares (s : State) (n : Nat) (f : Kernel → Kernel) : (s.updKernel n f).shares = s.shares := rfl
@[simp] theorem State.updKernel_paid (s : State) (n : Nat) (f : Kernel → Kernel) : (s.updKernel n f).paid = s.paid := rfl
@[simp] theorem State.updKernel_pkg (s : State) (n : Nat) (f : Kernel → Kernel) : (s.updKernel n f).pkg = s.pkg := rfl
@[simp] theorem State.updKernel_cell (s : State) (n : Nat) (f : Kernel → Kernel) : (s.updKernel n f).cell = s.cell := rfl
@[simp] theorem State.updKernel_numbered (s : State) (n : Nat) (f : Kernel → Kernel) : (s.updKernel n f).numbered = s.numbered := rfl
@[simp] theorem State.updKernel_form (s : State) (n : Nat) (f : Kernel → Kernel) : (s.updKernel n f).form = s.form := rfl
@[simp] theorem State.updKernel_bringUp (s : State) (n : Nat) (f : Kernel → Kernel) : (s.updKernel n f).bringUp = s.bringUp := rfl
@[simp] theorem State.updKernel_stopped (s : State) (n : Nat) (f : Kernel → Kernel) : (s.updKernel n f).stopped = s.stopped := rfl
@[simp] theorem State.updKernel_imageVersion (s : State) (n : Nat) (f : Kernel → Kernel) : (s.updKernel n f).imageVersion = s.imageVersion := rfl
@[simp] theorem State.updKernel_minVersion (s : State) (n : Nat) (f : Kernel → Kernel) : (s.updKernel n f).minVersion = s.minVersion := rfl
@[simp] theorem State.updKernel_identity (s : State) (n : Nat) (f : Kernel → Kernel) : (s.updKernel n f).identity = s.identity := rfl
@[simp] theorem State.updKernel_imageDigest (s : State) (n : Nat) (f : Kernel → Kernel) : (s.updKernel n f).imageDigest = s.imageDigest := rfl
@[simp] theorem State.updKernel_blobDigest (s : State) (n : Nat) (f : Kernel → Kernel) : (s.updKernel n f).blobDigest = s.blobDigest := rfl
@[simp] theorem State.updKernel_caps (s : State) (n : Nat) (f : Kernel → Kernel) : (s.updKernel n f).caps = s.caps := rfl
@[simp] theorem State.updKernel_boiling (s : State) (n : Nat) (f : Kernel → Kernel) : (s.updKernel n f).boiling = s.boiling := rfl
@[simp] theorem State.updKernel_power (s : State) (n : Nat) (f : Kernel → Kernel) : (s.updKernel n f).power = s.power := rfl
@[simp] theorem State.updKernel_throttled (s : State) (n : Nat) (f : Kernel → Kernel) : (s.updKernel n f).throttled = s.throttled := rfl
@[simp] theorem State.updKernel_trips (s : State) (n : Nat) (f : Kernel → Kernel) : (s.updKernel n f).trips = s.trips := rfl
@[simp] theorem State.updKernel_lastReport (s : State) (n : Nat) (f : Kernel → Kernel) : (s.updKernel n f).lastReport = s.lastReport := rfl
@[simp] theorem State.updKernel_thresholds (s : State) (n : Nat) (f : Kernel → Kernel) : (s.updKernel n f).thresholds = s.thresholds := rfl
@[simp] theorem State.updKernel_readings (s : State) (n : Nat) (f : Kernel → Kernel) : (s.updKernel n f).readings = s.readings := rfl
@[simp] theorem State.updKernel_scrub (s : State) (n : Nat) (f : Kernel → Kernel) : (s.updKernel n f).scrub = s.scrub := rfl
@[simp] theorem State.updKernel_softErrors (s : State) (n : Nat) (f : Kernel → Kernel) : (s.updKernel n f).softErrors = s.softErrors := rfl
@[simp] theorem State.updKernel_regs (s : State) (n : Nat) (f : Kernel → Kernel) : (s.updKernel n f).regs = s.regs := rfl
@[simp] theorem State.updKernel_msgs (s : State) (n : Nat) (f : Kernel → Kernel) : (s.updKernel n f).msgs = s.msgs := rfl
@[simp] theorem State.updKernel_lantern (s : State) (n : Nat) (f : Kernel → Kernel) : (s.updKernel n f).lantern = s.lantern := rfl
@[simp] theorem State.updKernel_ctx (s : State) (n : Nat) (f : Kernel → Kernel) : (s.updKernel n f).ctx = s.ctx := rfl
@[simp] theorem State.updKernel_aqi (s : State) (n : Nat) (f : Kernel → Kernel) : (s.updKernel n f).aqi = s.aqi := rfl
@[simp] theorem State.updKernel_remap (s : State) (n : Nat) (f : Kernel → Kernel) : (s.updKernel n f).remap = s.remap := rfl
@[simp] theorem State.updKernel_grants (s : State) (n : Nat) (f : Kernel → Kernel) : (s.updKernel n f).grants = s.grants := rfl
@[simp] theorem State.updKernel_lastPacket (s : State) (n : Nat) (f : Kernel → Kernel) : (s.updKernel n f).lastPacket = s.lastPacket := rfl
@[simp] theorem State.updKernel_gangs (s : State) (n : Nat) (f : Kernel → Kernel) : (s.updKernel n f).gangs = s.gangs := rfl
@[simp] theorem State.updKernel_groups (s : State) (n : Nat) (f : Kernel → Kernel) : (s.updKernel n f).groups = s.groups := rfl
@[simp] theorem State.updKernel_reserve (s : State) (n : Nat) (f : Kernel → Kernel) : (s.updKernel n f).reserve = s.reserve := rfl
@[simp] theorem State.updKernel_mem (s : State) (n : Nat) (f : Kernel → Kernel) : (s.updKernel n f).mem = s.mem := rfl
@[simp] theorem State.updKernel_pline (s : State) (n : Nat) (f : Kernel → Kernel) : (s.updKernel n f).pline = s.pline := rfl
@[simp] theorem State.updKernel_dir (s : State) (n : Nat) (f : Kernel → Kernel) : (s.updKernel n f).dir = s.dir := rfl
@[simp] theorem State.updKernel_homes (s : State) (n : Nat) (f : Kernel → Kernel) : (s.updKernel n f).homes = s.homes := rfl
@[simp] theorem State.updKernel_cores (s : State) (n : Nat) (f : Kernel → Kernel) : (s.updKernel n f).cores = s.cores := rfl
@[simp] theorem State.updKernel_owned (s : State) (n : Nat) (f : Kernel → Kernel) : (s.updKernel n f).owned = s.owned := rfl
@[simp] theorem State.updKernel_ownAsks (s : State) (n : Nat) (f : Kernel → Kernel) : (s.updKernel n f).ownAsks = s.ownAsks := rfl
@[simp] theorem State.updKernel_granted (s : State) (n : Nat) (f : Kernel → Kernel) : (s.updKernel n f).granted = s.granted := rfl
@[simp] theorem State.updKernel_hostShared (s : State) (n : Nat) (f : Kernel → Kernel) : (s.updKernel n f).hostShared = s.hostShared := rfl
@[simp] theorem State.updKernel_wts (s : State) (n : Nat) (f : Kernel → Kernel) : (s.updKernel n f).wts = s.wts := rfl
@[simp] theorem State.updKernel_hot (s : State) (n : Nat) (f : Kernel → Kernel) : (s.updKernel n f).hot = s.hot := rfl
@[simp] theorem State.updKernel_transfers (s : State) (n : Nat) (f : Kernel → Kernel) : (s.updKernel n f).transfers = s.transfers := rfl
@[simp] theorem State.updKernel_lastOwner (s : State) (n : Nat) (f : Kernel → Kernel) : (s.updKernel n f).lastOwner = s.lastOwner := rfl
@[simp] theorem State.updKernel_migrated (s : State) (n : Nat) (f : Kernel → Kernel) : (s.updKernel n f).migrated = s.migrated := rfl
@[simp] theorem State.updKernel_tlb (s : State) (n : Nat) (f : Kernel → Kernel) : (s.updKernel n f).tlb = s.tlb := rfl
@[simp] theorem State.updKernel_sectorTlb (s : State) (n : Nat) (f : Kernel → Kernel) : (s.updKernel n f).sectorTlb = s.sectorTlb := rfl
@[simp] theorem State.updKernel_walks (s : State) (n : Nat) (f : Kernel → Kernel) : (s.updKernel n f).walks = s.walks := rfl
@[simp] theorem State.updKernel_tier (s : State) (n : Nat) (f : Kernel → Kernel) : (s.updKernel n f).tier = s.tier := rfl
@[simp] theorem State.updKernel_firewall (s : State) (n : Nat) (f : Kernel → Kernel) : (s.updKernel n f).firewall = s.firewall := rfl
@[simp] theorem State.updKernel_l2w (s : State) (n : Nat) (f : Kernel → Kernel) : (s.updKernel n f).l2w = s.l2w := rfl
@[simp] theorem State.updKernel_pageReqs (s : State) (n : Nat) (f : Kernel → Kernel) : (s.updKernel n f).pageReqs = s.pageReqs := rfl
@[simp] theorem State.updKernel_copies (s : State) (n : Nat) (f : Kernel → Kernel) : (s.updKernel n f).copies = s.copies := rfl
@[simp] theorem State.updKernel_puts (s : State) (n : Nat) (f : Kernel → Kernel) : (s.updKernel n f).puts = s.puts := rfl
@[simp] theorem State.updKernel_admits (s : State) (n : Nat) (f : Kernel → Kernel) : (s.updKernel n f).admits = s.admits := rfl
@[simp] theorem State.updKernel_engines (s : State) (n : Nat) (f : Kernel → Kernel) : (s.updKernel n f).engines = s.engines := rfl
@[simp] theorem State.updKernel_shapes (s : State) (n : Nat) (f : Kernel → Kernel) : (s.updKernel n f).shapes = s.shapes := rfl
@[simp] theorem State.updKernel_contribs (s : State) (n : Nat) (f : Kernel → Kernel) : (s.updKernel n f).contribs = s.contribs := rfl
@[simp] theorem State.updKernel_trees (s : State) (n : Nat) (f : Kernel → Kernel) : (s.updKernel n f).trees = s.trees := rfl
@[simp] theorem State.updKernel_lastTag (s : State) (n : Nat) (f : Kernel → Kernel) : (s.updKernel n f).lastTag = s.lastTag := rfl
@[simp] theorem State.updKernel_waits (s : State) (n : Nat) (f : Kernel → Kernel) : (s.updKernel n f).waits = s.waits := rfl
@[simp] theorem State.updKernel_cells (s : State) (n : Nat) (f : Kernel → Kernel) : (s.updKernel n f).cells = s.cells := rfl
@[simp] theorem State.updKernel_ports (s : State) (n : Nat) (f : Kernel → Kernel) : (s.updKernel n f).ports = s.ports := rfl
@[simp] theorem State.updKernel_slots (s : State) (n : Nat) (f : Kernel → Kernel) : (s.updKernel n f).slots = s.slots := rfl
@[simp] theorem State.updKernel_active (s : State) (n : Nat) (f : Kernel → Kernel) : (s.updKernel n f).active = s.active := rfl
@[simp] theorem State.updKernel_tgen (s : State) (n : Nat) (f : Kernel → Kernel) : (s.updKernel n f).tgen = s.tgen := rfl
@[simp] theorem State.updKernel_round (s : State) (n : Nat) (f : Kernel → Kernel) : (s.updKernel n f).round = s.round := rfl
@[simp] theorem State.updKernel_seqs (s : State) (n : Nat) (f : Kernel → Kernel) : (s.updKernel n f).seqs = s.seqs := rfl
@[simp] theorem State.updKernel_early (s : State) (n : Nat) (f : Kernel → Kernel) : (s.updKernel n f).early = s.early := rfl
@[simp] theorem State.updKernel_outSeq (s : State) (n : Nat) (f : Kernel → Kernel) : (s.updKernel n f).outSeq = s.outSeq := rfl
@[simp] theorem State.updKernel_asks (s : State) (n : Nat) (f : Kernel → Kernel) : (s.updKernel n f).asks = s.asks := rfl
@[simp] theorem State.updKernel_recalls (s : State) (n : Nat) (f : Kernel → Kernel) : (s.updKernel n f).recalls = s.recalls := rfl
@[simp] theorem State.updKernel_fwOpen (s : State) (n : Nat) (f : Kernel → Kernel) : (s.updKernel n f).fwOpen = s.fwOpen := rfl
@[simp] theorem State.updKernel_stuck (s : State) (n : Nat) (f : Kernel → Kernel) : (s.updKernel n f).stuck = s.stuck := rfl
@[simp] theorem State.updKernel_landed (s : State) (n : Nat) (f : Kernel → Kernel) : (s.updKernel n f).landed = s.landed := rfl
@[simp] theorem State.updKernel_putLines (s : State) (n : Nat) (f : Kernel → Kernel) : (s.updKernel n f).putLines = s.putLines := rfl
@[simp] theorem State.updKernel_admitted (s : State) (n : Nat) (f : Kernel → Kernel) : (s.updKernel n f).admitted = s.admitted := rfl
@[simp] theorem State.updKernel_leaves (s : State) (n : Nat) (f : Kernel → Kernel) : (s.updKernel n f).leaves = s.leaves := rfl
@[simp] theorem State.updKernel_pcs (s : State) (n : Nat) (f : Kernel → Kernel) : (s.updKernel n f).pcs = s.pcs := rfl
@[simp] theorem State.updKernel_unsampled (s : State) (n : Nat) (f : Kernel → Kernel) : (s.updKernel n f).unsampled = s.unsampled := rfl

/-! ### setKernel -/

@[simp] theorem State.setKernel_tick (s : State) (n : Nat) (k : Kernel) : (s.setKernel n k).tick = s.tick := rfl
@[simp] theorem State.setKernel_serial (s : State) (n : Nat) (k : Kernel) : (s.setKernel n k).serial = s.serial := rfl
@[simp] theorem State.setKernel_agenda (s : State) (n : Nat) (k : Kernel) : (s.setKernel n k).agenda = s.agenda := rfl
@[simp] theorem State.setKernel_due (s : State) (n : Nat) (k : Kernel) : (s.setKernel n k).due = s.due := rfl
@[simp] theorem State.setKernel_turn (s : State) (n : Nat) (k : Kernel) : (s.setKernel n k).turn = s.turn := rfl
@[simp] theorem State.setKernel_cur (s : State) (n : Nat) (k : Kernel) : (s.setKernel n k).cur = s.cur := rfl
@[simp] theorem State.setKernel_blocked (s : State) (n : Nat) (k : Kernel) : (s.setKernel n k).blocked = s.blocked := rfl
@[simp] theorem State.setKernel_slotTurn (s : State) (n : Nat) (k : Kernel) : (s.setKernel n k).slotTurn = s.slotTurn := rfl
@[simp] theorem State.setKernel_pairs (s : State) (n : Nat) (k : Kernel) : (s.setKernel n k).pairs = s.pairs := rfl
@[simp] theorem State.setKernel_shares (s : State) (n : Nat) (k : Kernel) : (s.setKernel n k).shares = s.shares := rfl
@[simp] theorem State.setKernel_paid (s : State) (n : Nat) (k : Kernel) : (s.setKernel n k).paid = s.paid := rfl
@[simp] theorem State.setKernel_pkg (s : State) (n : Nat) (k : Kernel) : (s.setKernel n k).pkg = s.pkg := rfl
@[simp] theorem State.setKernel_cell (s : State) (n : Nat) (k : Kernel) : (s.setKernel n k).cell = s.cell := rfl
@[simp] theorem State.setKernel_numbered (s : State) (n : Nat) (k : Kernel) : (s.setKernel n k).numbered = s.numbered := rfl
@[simp] theorem State.setKernel_form (s : State) (n : Nat) (k : Kernel) : (s.setKernel n k).form = s.form := rfl
@[simp] theorem State.setKernel_bringUp (s : State) (n : Nat) (k : Kernel) : (s.setKernel n k).bringUp = s.bringUp := rfl
@[simp] theorem State.setKernel_stopped (s : State) (n : Nat) (k : Kernel) : (s.setKernel n k).stopped = s.stopped := rfl
@[simp] theorem State.setKernel_imageVersion (s : State) (n : Nat) (k : Kernel) : (s.setKernel n k).imageVersion = s.imageVersion := rfl
@[simp] theorem State.setKernel_minVersion (s : State) (n : Nat) (k : Kernel) : (s.setKernel n k).minVersion = s.minVersion := rfl
@[simp] theorem State.setKernel_identity (s : State) (n : Nat) (k : Kernel) : (s.setKernel n k).identity = s.identity := rfl
@[simp] theorem State.setKernel_imageDigest (s : State) (n : Nat) (k : Kernel) : (s.setKernel n k).imageDigest = s.imageDigest := rfl
@[simp] theorem State.setKernel_blobDigest (s : State) (n : Nat) (k : Kernel) : (s.setKernel n k).blobDigest = s.blobDigest := rfl
@[simp] theorem State.setKernel_caps (s : State) (n : Nat) (k : Kernel) : (s.setKernel n k).caps = s.caps := rfl
@[simp] theorem State.setKernel_boiling (s : State) (n : Nat) (k : Kernel) : (s.setKernel n k).boiling = s.boiling := rfl
@[simp] theorem State.setKernel_power (s : State) (n : Nat) (k : Kernel) : (s.setKernel n k).power = s.power := rfl
@[simp] theorem State.setKernel_throttled (s : State) (n : Nat) (k : Kernel) : (s.setKernel n k).throttled = s.throttled := rfl
@[simp] theorem State.setKernel_trips (s : State) (n : Nat) (k : Kernel) : (s.setKernel n k).trips = s.trips := rfl
@[simp] theorem State.setKernel_lastReport (s : State) (n : Nat) (k : Kernel) : (s.setKernel n k).lastReport = s.lastReport := rfl
@[simp] theorem State.setKernel_thresholds (s : State) (n : Nat) (k : Kernel) : (s.setKernel n k).thresholds = s.thresholds := rfl
@[simp] theorem State.setKernel_readings (s : State) (n : Nat) (k : Kernel) : (s.setKernel n k).readings = s.readings := rfl
@[simp] theorem State.setKernel_scrub (s : State) (n : Nat) (k : Kernel) : (s.setKernel n k).scrub = s.scrub := rfl
@[simp] theorem State.setKernel_softErrors (s : State) (n : Nat) (k : Kernel) : (s.setKernel n k).softErrors = s.softErrors := rfl
@[simp] theorem State.setKernel_regs (s : State) (n : Nat) (k : Kernel) : (s.setKernel n k).regs = s.regs := rfl
@[simp] theorem State.setKernel_msgs (s : State) (n : Nat) (k : Kernel) : (s.setKernel n k).msgs = s.msgs := rfl
@[simp] theorem State.setKernel_lantern (s : State) (n : Nat) (k : Kernel) : (s.setKernel n k).lantern = s.lantern := rfl
@[simp] theorem State.setKernel_ctx (s : State) (n : Nat) (k : Kernel) : (s.setKernel n k).ctx = s.ctx := rfl
@[simp] theorem State.setKernel_aqi (s : State) (n : Nat) (k : Kernel) : (s.setKernel n k).aqi = s.aqi := rfl
@[simp] theorem State.setKernel_remap (s : State) (n : Nat) (k : Kernel) : (s.setKernel n k).remap = s.remap := rfl
@[simp] theorem State.setKernel_grants (s : State) (n : Nat) (k : Kernel) : (s.setKernel n k).grants = s.grants := rfl
@[simp] theorem State.setKernel_lastPacket (s : State) (n : Nat) (k : Kernel) : (s.setKernel n k).lastPacket = s.lastPacket := rfl
@[simp] theorem State.setKernel_gangs (s : State) (n : Nat) (k : Kernel) : (s.setKernel n k).gangs = s.gangs := rfl
@[simp] theorem State.setKernel_groups (s : State) (n : Nat) (k : Kernel) : (s.setKernel n k).groups = s.groups := rfl
@[simp] theorem State.setKernel_reserve (s : State) (n : Nat) (k : Kernel) : (s.setKernel n k).reserve = s.reserve := rfl
@[simp] theorem State.setKernel_mem (s : State) (n : Nat) (k : Kernel) : (s.setKernel n k).mem = s.mem := rfl
@[simp] theorem State.setKernel_pline (s : State) (n : Nat) (k : Kernel) : (s.setKernel n k).pline = s.pline := rfl
@[simp] theorem State.setKernel_dir (s : State) (n : Nat) (k : Kernel) : (s.setKernel n k).dir = s.dir := rfl
@[simp] theorem State.setKernel_homes (s : State) (n : Nat) (k : Kernel) : (s.setKernel n k).homes = s.homes := rfl
@[simp] theorem State.setKernel_cores (s : State) (n : Nat) (k : Kernel) : (s.setKernel n k).cores = s.cores := rfl
@[simp] theorem State.setKernel_owned (s : State) (n : Nat) (k : Kernel) : (s.setKernel n k).owned = s.owned := rfl
@[simp] theorem State.setKernel_ownAsks (s : State) (n : Nat) (k : Kernel) : (s.setKernel n k).ownAsks = s.ownAsks := rfl
@[simp] theorem State.setKernel_granted (s : State) (n : Nat) (k : Kernel) : (s.setKernel n k).granted = s.granted := rfl
@[simp] theorem State.setKernel_hostShared (s : State) (n : Nat) (k : Kernel) : (s.setKernel n k).hostShared = s.hostShared := rfl
@[simp] theorem State.setKernel_wts (s : State) (n : Nat) (k : Kernel) : (s.setKernel n k).wts = s.wts := rfl
@[simp] theorem State.setKernel_hot (s : State) (n : Nat) (k : Kernel) : (s.setKernel n k).hot = s.hot := rfl
@[simp] theorem State.setKernel_transfers (s : State) (n : Nat) (k : Kernel) : (s.setKernel n k).transfers = s.transfers := rfl
@[simp] theorem State.setKernel_lastOwner (s : State) (n : Nat) (k : Kernel) : (s.setKernel n k).lastOwner = s.lastOwner := rfl
@[simp] theorem State.setKernel_migrated (s : State) (n : Nat) (k : Kernel) : (s.setKernel n k).migrated = s.migrated := rfl
@[simp] theorem State.setKernel_tlb (s : State) (n : Nat) (k : Kernel) : (s.setKernel n k).tlb = s.tlb := rfl
@[simp] theorem State.setKernel_sectorTlb (s : State) (n : Nat) (k : Kernel) : (s.setKernel n k).sectorTlb = s.sectorTlb := rfl
@[simp] theorem State.setKernel_walks (s : State) (n : Nat) (k : Kernel) : (s.setKernel n k).walks = s.walks := rfl
@[simp] theorem State.setKernel_tier (s : State) (n : Nat) (k : Kernel) : (s.setKernel n k).tier = s.tier := rfl
@[simp] theorem State.setKernel_firewall (s : State) (n : Nat) (k : Kernel) : (s.setKernel n k).firewall = s.firewall := rfl
@[simp] theorem State.setKernel_l2w (s : State) (n : Nat) (k : Kernel) : (s.setKernel n k).l2w = s.l2w := rfl
@[simp] theorem State.setKernel_pageReqs (s : State) (n : Nat) (k : Kernel) : (s.setKernel n k).pageReqs = s.pageReqs := rfl
@[simp] theorem State.setKernel_copies (s : State) (n : Nat) (k : Kernel) : (s.setKernel n k).copies = s.copies := rfl
@[simp] theorem State.setKernel_puts (s : State) (n : Nat) (k : Kernel) : (s.setKernel n k).puts = s.puts := rfl
@[simp] theorem State.setKernel_admits (s : State) (n : Nat) (k : Kernel) : (s.setKernel n k).admits = s.admits := rfl
@[simp] theorem State.setKernel_engines (s : State) (n : Nat) (k : Kernel) : (s.setKernel n k).engines = s.engines := rfl
@[simp] theorem State.setKernel_shapes (s : State) (n : Nat) (k : Kernel) : (s.setKernel n k).shapes = s.shapes := rfl
@[simp] theorem State.setKernel_contribs (s : State) (n : Nat) (k : Kernel) : (s.setKernel n k).contribs = s.contribs := rfl
@[simp] theorem State.setKernel_trees (s : State) (n : Nat) (k : Kernel) : (s.setKernel n k).trees = s.trees := rfl
@[simp] theorem State.setKernel_lastTag (s : State) (n : Nat) (k : Kernel) : (s.setKernel n k).lastTag = s.lastTag := rfl
@[simp] theorem State.setKernel_waits (s : State) (n : Nat) (k : Kernel) : (s.setKernel n k).waits = s.waits := rfl
@[simp] theorem State.setKernel_cells (s : State) (n : Nat) (k : Kernel) : (s.setKernel n k).cells = s.cells := rfl
@[simp] theorem State.setKernel_ports (s : State) (n : Nat) (k : Kernel) : (s.setKernel n k).ports = s.ports := rfl
@[simp] theorem State.setKernel_slots (s : State) (n : Nat) (k : Kernel) : (s.setKernel n k).slots = s.slots := rfl
@[simp] theorem State.setKernel_active (s : State) (n : Nat) (k : Kernel) : (s.setKernel n k).active = s.active := rfl
@[simp] theorem State.setKernel_tgen (s : State) (n : Nat) (k : Kernel) : (s.setKernel n k).tgen = s.tgen := rfl
@[simp] theorem State.setKernel_round (s : State) (n : Nat) (k : Kernel) : (s.setKernel n k).round = s.round := rfl
@[simp] theorem State.setKernel_seqs (s : State) (n : Nat) (k : Kernel) : (s.setKernel n k).seqs = s.seqs := rfl
@[simp] theorem State.setKernel_early (s : State) (n : Nat) (k : Kernel) : (s.setKernel n k).early = s.early := rfl
@[simp] theorem State.setKernel_outSeq (s : State) (n : Nat) (k : Kernel) : (s.setKernel n k).outSeq = s.outSeq := rfl
@[simp] theorem State.setKernel_asks (s : State) (n : Nat) (k : Kernel) : (s.setKernel n k).asks = s.asks := rfl
@[simp] theorem State.setKernel_recalls (s : State) (n : Nat) (k : Kernel) : (s.setKernel n k).recalls = s.recalls := rfl
@[simp] theorem State.setKernel_fwOpen (s : State) (n : Nat) (k : Kernel) : (s.setKernel n k).fwOpen = s.fwOpen := rfl
@[simp] theorem State.setKernel_stuck (s : State) (n : Nat) (k : Kernel) : (s.setKernel n k).stuck = s.stuck := rfl
@[simp] theorem State.setKernel_landed (s : State) (n : Nat) (k : Kernel) : (s.setKernel n k).landed = s.landed := rfl
@[simp] theorem State.setKernel_putLines (s : State) (n : Nat) (k : Kernel) : (s.setKernel n k).putLines = s.putLines := rfl
@[simp] theorem State.setKernel_admitted (s : State) (n : Nat) (k : Kernel) : (s.setKernel n k).admitted = s.admitted := rfl
@[simp] theorem State.setKernel_leaves (s : State) (n : Nat) (k : Kernel) : (s.setKernel n k).leaves = s.leaves := rfl
@[simp] theorem State.setKernel_pcs (s : State) (n : Nat) (k : Kernel) : (s.setKernel n k).pcs = s.pcs := rfl
@[simp] theorem State.setKernel_unsampled (s : State) (n : Nat) (k : Kernel) : (s.setKernel n k).unsampled = s.unsampled := rfl

/-! ### setGroup -/

@[simp] theorem State.setGroup_tick (s : State) (n : Nat) (g : Group) : (s.setGroup n g).tick = s.tick := rfl
@[simp] theorem State.setGroup_serial (s : State) (n : Nat) (g : Group) : (s.setGroup n g).serial = s.serial := rfl
@[simp] theorem State.setGroup_agenda (s : State) (n : Nat) (g : Group) : (s.setGroup n g).agenda = s.agenda := rfl
@[simp] theorem State.setGroup_due (s : State) (n : Nat) (g : Group) : (s.setGroup n g).due = s.due := rfl
@[simp] theorem State.setGroup_turn (s : State) (n : Nat) (g : Group) : (s.setGroup n g).turn = s.turn := rfl
@[simp] theorem State.setGroup_cur (s : State) (n : Nat) (g : Group) : (s.setGroup n g).cur = s.cur := rfl
@[simp] theorem State.setGroup_blocked (s : State) (n : Nat) (g : Group) : (s.setGroup n g).blocked = s.blocked := rfl
@[simp] theorem State.setGroup_slotTurn (s : State) (n : Nat) (g : Group) : (s.setGroup n g).slotTurn = s.slotTurn := rfl
@[simp] theorem State.setGroup_pairs (s : State) (n : Nat) (g : Group) : (s.setGroup n g).pairs = s.pairs := rfl
@[simp] theorem State.setGroup_shares (s : State) (n : Nat) (g : Group) : (s.setGroup n g).shares = s.shares := rfl
@[simp] theorem State.setGroup_paid (s : State) (n : Nat) (g : Group) : (s.setGroup n g).paid = s.paid := rfl
@[simp] theorem State.setGroup_pkg (s : State) (n : Nat) (g : Group) : (s.setGroup n g).pkg = s.pkg := rfl
@[simp] theorem State.setGroup_cell (s : State) (n : Nat) (g : Group) : (s.setGroup n g).cell = s.cell := rfl
@[simp] theorem State.setGroup_numbered (s : State) (n : Nat) (g : Group) : (s.setGroup n g).numbered = s.numbered := rfl
@[simp] theorem State.setGroup_form (s : State) (n : Nat) (g : Group) : (s.setGroup n g).form = s.form := rfl
@[simp] theorem State.setGroup_bringUp (s : State) (n : Nat) (g : Group) : (s.setGroup n g).bringUp = s.bringUp := rfl
@[simp] theorem State.setGroup_stopped (s : State) (n : Nat) (g : Group) : (s.setGroup n g).stopped = s.stopped := rfl
@[simp] theorem State.setGroup_imageVersion (s : State) (n : Nat) (g : Group) : (s.setGroup n g).imageVersion = s.imageVersion := rfl
@[simp] theorem State.setGroup_minVersion (s : State) (n : Nat) (g : Group) : (s.setGroup n g).minVersion = s.minVersion := rfl
@[simp] theorem State.setGroup_identity (s : State) (n : Nat) (g : Group) : (s.setGroup n g).identity = s.identity := rfl
@[simp] theorem State.setGroup_imageDigest (s : State) (n : Nat) (g : Group) : (s.setGroup n g).imageDigest = s.imageDigest := rfl
@[simp] theorem State.setGroup_blobDigest (s : State) (n : Nat) (g : Group) : (s.setGroup n g).blobDigest = s.blobDigest := rfl
@[simp] theorem State.setGroup_caps (s : State) (n : Nat) (g : Group) : (s.setGroup n g).caps = s.caps := rfl
@[simp] theorem State.setGroup_boiling (s : State) (n : Nat) (g : Group) : (s.setGroup n g).boiling = s.boiling := rfl
@[simp] theorem State.setGroup_power (s : State) (n : Nat) (g : Group) : (s.setGroup n g).power = s.power := rfl
@[simp] theorem State.setGroup_throttled (s : State) (n : Nat) (g : Group) : (s.setGroup n g).throttled = s.throttled := rfl
@[simp] theorem State.setGroup_trips (s : State) (n : Nat) (g : Group) : (s.setGroup n g).trips = s.trips := rfl
@[simp] theorem State.setGroup_lastReport (s : State) (n : Nat) (g : Group) : (s.setGroup n g).lastReport = s.lastReport := rfl
@[simp] theorem State.setGroup_thresholds (s : State) (n : Nat) (g : Group) : (s.setGroup n g).thresholds = s.thresholds := rfl
@[simp] theorem State.setGroup_readings (s : State) (n : Nat) (g : Group) : (s.setGroup n g).readings = s.readings := rfl
@[simp] theorem State.setGroup_scrub (s : State) (n : Nat) (g : Group) : (s.setGroup n g).scrub = s.scrub := rfl
@[simp] theorem State.setGroup_softErrors (s : State) (n : Nat) (g : Group) : (s.setGroup n g).softErrors = s.softErrors := rfl
@[simp] theorem State.setGroup_regs (s : State) (n : Nat) (g : Group) : (s.setGroup n g).regs = s.regs := rfl
@[simp] theorem State.setGroup_msgs (s : State) (n : Nat) (g : Group) : (s.setGroup n g).msgs = s.msgs := rfl
@[simp] theorem State.setGroup_lantern (s : State) (n : Nat) (g : Group) : (s.setGroup n g).lantern = s.lantern := rfl
@[simp] theorem State.setGroup_ctx (s : State) (n : Nat) (g : Group) : (s.setGroup n g).ctx = s.ctx := rfl
@[simp] theorem State.setGroup_aqi (s : State) (n : Nat) (g : Group) : (s.setGroup n g).aqi = s.aqi := rfl
@[simp] theorem State.setGroup_remap (s : State) (n : Nat) (g : Group) : (s.setGroup n g).remap = s.remap := rfl
@[simp] theorem State.setGroup_grants (s : State) (n : Nat) (g : Group) : (s.setGroup n g).grants = s.grants := rfl
@[simp] theorem State.setGroup_lastPacket (s : State) (n : Nat) (g : Group) : (s.setGroup n g).lastPacket = s.lastPacket := rfl
@[simp] theorem State.setGroup_kernels (s : State) (n : Nat) (g : Group) : (s.setGroup n g).kernels = s.kernels := rfl
@[simp] theorem State.setGroup_gangs (s : State) (n : Nat) (g : Group) : (s.setGroup n g).gangs = s.gangs := rfl
@[simp] theorem State.setGroup_reserve (s : State) (n : Nat) (g : Group) : (s.setGroup n g).reserve = s.reserve := rfl
@[simp] theorem State.setGroup_mem (s : State) (n : Nat) (g : Group) : (s.setGroup n g).mem = s.mem := rfl
@[simp] theorem State.setGroup_pline (s : State) (n : Nat) (g : Group) : (s.setGroup n g).pline = s.pline := rfl
@[simp] theorem State.setGroup_dir (s : State) (n : Nat) (g : Group) : (s.setGroup n g).dir = s.dir := rfl
@[simp] theorem State.setGroup_homes (s : State) (n : Nat) (g : Group) : (s.setGroup n g).homes = s.homes := rfl
@[simp] theorem State.setGroup_cores (s : State) (n : Nat) (g : Group) : (s.setGroup n g).cores = s.cores := rfl
@[simp] theorem State.setGroup_owned (s : State) (n : Nat) (g : Group) : (s.setGroup n g).owned = s.owned := rfl
@[simp] theorem State.setGroup_ownAsks (s : State) (n : Nat) (g : Group) : (s.setGroup n g).ownAsks = s.ownAsks := rfl
@[simp] theorem State.setGroup_granted (s : State) (n : Nat) (g : Group) : (s.setGroup n g).granted = s.granted := rfl
@[simp] theorem State.setGroup_hostShared (s : State) (n : Nat) (g : Group) : (s.setGroup n g).hostShared = s.hostShared := rfl
@[simp] theorem State.setGroup_wts (s : State) (n : Nat) (g : Group) : (s.setGroup n g).wts = s.wts := rfl
@[simp] theorem State.setGroup_hot (s : State) (n : Nat) (g : Group) : (s.setGroup n g).hot = s.hot := rfl
@[simp] theorem State.setGroup_transfers (s : State) (n : Nat) (g : Group) : (s.setGroup n g).transfers = s.transfers := rfl
@[simp] theorem State.setGroup_lastOwner (s : State) (n : Nat) (g : Group) : (s.setGroup n g).lastOwner = s.lastOwner := rfl
@[simp] theorem State.setGroup_migrated (s : State) (n : Nat) (g : Group) : (s.setGroup n g).migrated = s.migrated := rfl
@[simp] theorem State.setGroup_tlb (s : State) (n : Nat) (g : Group) : (s.setGroup n g).tlb = s.tlb := rfl
@[simp] theorem State.setGroup_sectorTlb (s : State) (n : Nat) (g : Group) : (s.setGroup n g).sectorTlb = s.sectorTlb := rfl
@[simp] theorem State.setGroup_walks (s : State) (n : Nat) (g : Group) : (s.setGroup n g).walks = s.walks := rfl
@[simp] theorem State.setGroup_tier (s : State) (n : Nat) (g : Group) : (s.setGroup n g).tier = s.tier := rfl
@[simp] theorem State.setGroup_firewall (s : State) (n : Nat) (g : Group) : (s.setGroup n g).firewall = s.firewall := rfl
@[simp] theorem State.setGroup_l2w (s : State) (n : Nat) (g : Group) : (s.setGroup n g).l2w = s.l2w := rfl
@[simp] theorem State.setGroup_pageReqs (s : State) (n : Nat) (g : Group) : (s.setGroup n g).pageReqs = s.pageReqs := rfl
@[simp] theorem State.setGroup_copies (s : State) (n : Nat) (g : Group) : (s.setGroup n g).copies = s.copies := rfl
@[simp] theorem State.setGroup_puts (s : State) (n : Nat) (g : Group) : (s.setGroup n g).puts = s.puts := rfl
@[simp] theorem State.setGroup_admits (s : State) (n : Nat) (g : Group) : (s.setGroup n g).admits = s.admits := rfl
@[simp] theorem State.setGroup_engines (s : State) (n : Nat) (g : Group) : (s.setGroup n g).engines = s.engines := rfl
@[simp] theorem State.setGroup_shapes (s : State) (n : Nat) (g : Group) : (s.setGroup n g).shapes = s.shapes := rfl
@[simp] theorem State.setGroup_contribs (s : State) (n : Nat) (g : Group) : (s.setGroup n g).contribs = s.contribs := rfl
@[simp] theorem State.setGroup_trees (s : State) (n : Nat) (g : Group) : (s.setGroup n g).trees = s.trees := rfl
@[simp] theorem State.setGroup_lastTag (s : State) (n : Nat) (g : Group) : (s.setGroup n g).lastTag = s.lastTag := rfl
@[simp] theorem State.setGroup_waits (s : State) (n : Nat) (g : Group) : (s.setGroup n g).waits = s.waits := rfl
@[simp] theorem State.setGroup_cells (s : State) (n : Nat) (g : Group) : (s.setGroup n g).cells = s.cells := rfl
@[simp] theorem State.setGroup_ports (s : State) (n : Nat) (g : Group) : (s.setGroup n g).ports = s.ports := rfl
@[simp] theorem State.setGroup_slots (s : State) (n : Nat) (g : Group) : (s.setGroup n g).slots = s.slots := rfl
@[simp] theorem State.setGroup_active (s : State) (n : Nat) (g : Group) : (s.setGroup n g).active = s.active := rfl
@[simp] theorem State.setGroup_tgen (s : State) (n : Nat) (g : Group) : (s.setGroup n g).tgen = s.tgen := rfl
@[simp] theorem State.setGroup_round (s : State) (n : Nat) (g : Group) : (s.setGroup n g).round = s.round := rfl
@[simp] theorem State.setGroup_seqs (s : State) (n : Nat) (g : Group) : (s.setGroup n g).seqs = s.seqs := rfl
@[simp] theorem State.setGroup_early (s : State) (n : Nat) (g : Group) : (s.setGroup n g).early = s.early := rfl
@[simp] theorem State.setGroup_outSeq (s : State) (n : Nat) (g : Group) : (s.setGroup n g).outSeq = s.outSeq := rfl
@[simp] theorem State.setGroup_asks (s : State) (n : Nat) (g : Group) : (s.setGroup n g).asks = s.asks := rfl
@[simp] theorem State.setGroup_recalls (s : State) (n : Nat) (g : Group) : (s.setGroup n g).recalls = s.recalls := rfl
@[simp] theorem State.setGroup_fwOpen (s : State) (n : Nat) (g : Group) : (s.setGroup n g).fwOpen = s.fwOpen := rfl
@[simp] theorem State.setGroup_stuck (s : State) (n : Nat) (g : Group) : (s.setGroup n g).stuck = s.stuck := rfl
@[simp] theorem State.setGroup_landed (s : State) (n : Nat) (g : Group) : (s.setGroup n g).landed = s.landed := rfl
@[simp] theorem State.setGroup_putLines (s : State) (n : Nat) (g : Group) : (s.setGroup n g).putLines = s.putLines := rfl
@[simp] theorem State.setGroup_admitted (s : State) (n : Nat) (g : Group) : (s.setGroup n g).admitted = s.admitted := rfl
@[simp] theorem State.setGroup_leaves (s : State) (n : Nat) (g : Group) : (s.setGroup n g).leaves = s.leaves := rfl
@[simp] theorem State.setGroup_pcs (s : State) (n : Nat) (g : Group) : (s.setGroup n g).pcs = s.pcs := rfl
@[simp] theorem State.setGroup_unsampled (s : State) (n : Nat) (g : Group) : (s.setGroup n g).unsampled = s.unsampled := rfl

/-! ### setGang -/

@[simp] theorem State.setGang_tick (s : State) (n : Nat) (g : Gang) : (s.setGang n g).tick = s.tick := rfl
@[simp] theorem State.setGang_serial (s : State) (n : Nat) (g : Gang) : (s.setGang n g).serial = s.serial := rfl
@[simp] theorem State.setGang_agenda (s : State) (n : Nat) (g : Gang) : (s.setGang n g).agenda = s.agenda := rfl
@[simp] theorem State.setGang_due (s : State) (n : Nat) (g : Gang) : (s.setGang n g).due = s.due := rfl
@[simp] theorem State.setGang_turn (s : State) (n : Nat) (g : Gang) : (s.setGang n g).turn = s.turn := rfl
@[simp] theorem State.setGang_cur (s : State) (n : Nat) (g : Gang) : (s.setGang n g).cur = s.cur := rfl
@[simp] theorem State.setGang_blocked (s : State) (n : Nat) (g : Gang) : (s.setGang n g).blocked = s.blocked := rfl
@[simp] theorem State.setGang_slotTurn (s : State) (n : Nat) (g : Gang) : (s.setGang n g).slotTurn = s.slotTurn := rfl
@[simp] theorem State.setGang_pairs (s : State) (n : Nat) (g : Gang) : (s.setGang n g).pairs = s.pairs := rfl
@[simp] theorem State.setGang_shares (s : State) (n : Nat) (g : Gang) : (s.setGang n g).shares = s.shares := rfl
@[simp] theorem State.setGang_paid (s : State) (n : Nat) (g : Gang) : (s.setGang n g).paid = s.paid := rfl
@[simp] theorem State.setGang_pkg (s : State) (n : Nat) (g : Gang) : (s.setGang n g).pkg = s.pkg := rfl
@[simp] theorem State.setGang_cell (s : State) (n : Nat) (g : Gang) : (s.setGang n g).cell = s.cell := rfl
@[simp] theorem State.setGang_numbered (s : State) (n : Nat) (g : Gang) : (s.setGang n g).numbered = s.numbered := rfl
@[simp] theorem State.setGang_form (s : State) (n : Nat) (g : Gang) : (s.setGang n g).form = s.form := rfl
@[simp] theorem State.setGang_bringUp (s : State) (n : Nat) (g : Gang) : (s.setGang n g).bringUp = s.bringUp := rfl
@[simp] theorem State.setGang_stopped (s : State) (n : Nat) (g : Gang) : (s.setGang n g).stopped = s.stopped := rfl
@[simp] theorem State.setGang_imageVersion (s : State) (n : Nat) (g : Gang) : (s.setGang n g).imageVersion = s.imageVersion := rfl
@[simp] theorem State.setGang_minVersion (s : State) (n : Nat) (g : Gang) : (s.setGang n g).minVersion = s.minVersion := rfl
@[simp] theorem State.setGang_identity (s : State) (n : Nat) (g : Gang) : (s.setGang n g).identity = s.identity := rfl
@[simp] theorem State.setGang_imageDigest (s : State) (n : Nat) (g : Gang) : (s.setGang n g).imageDigest = s.imageDigest := rfl
@[simp] theorem State.setGang_blobDigest (s : State) (n : Nat) (g : Gang) : (s.setGang n g).blobDigest = s.blobDigest := rfl
@[simp] theorem State.setGang_caps (s : State) (n : Nat) (g : Gang) : (s.setGang n g).caps = s.caps := rfl
@[simp] theorem State.setGang_boiling (s : State) (n : Nat) (g : Gang) : (s.setGang n g).boiling = s.boiling := rfl
@[simp] theorem State.setGang_power (s : State) (n : Nat) (g : Gang) : (s.setGang n g).power = s.power := rfl
@[simp] theorem State.setGang_throttled (s : State) (n : Nat) (g : Gang) : (s.setGang n g).throttled = s.throttled := rfl
@[simp] theorem State.setGang_trips (s : State) (n : Nat) (g : Gang) : (s.setGang n g).trips = s.trips := rfl
@[simp] theorem State.setGang_lastReport (s : State) (n : Nat) (g : Gang) : (s.setGang n g).lastReport = s.lastReport := rfl
@[simp] theorem State.setGang_thresholds (s : State) (n : Nat) (g : Gang) : (s.setGang n g).thresholds = s.thresholds := rfl
@[simp] theorem State.setGang_readings (s : State) (n : Nat) (g : Gang) : (s.setGang n g).readings = s.readings := rfl
@[simp] theorem State.setGang_scrub (s : State) (n : Nat) (g : Gang) : (s.setGang n g).scrub = s.scrub := rfl
@[simp] theorem State.setGang_softErrors (s : State) (n : Nat) (g : Gang) : (s.setGang n g).softErrors = s.softErrors := rfl
@[simp] theorem State.setGang_regs (s : State) (n : Nat) (g : Gang) : (s.setGang n g).regs = s.regs := rfl
@[simp] theorem State.setGang_msgs (s : State) (n : Nat) (g : Gang) : (s.setGang n g).msgs = s.msgs := rfl
@[simp] theorem State.setGang_lantern (s : State) (n : Nat) (g : Gang) : (s.setGang n g).lantern = s.lantern := rfl
@[simp] theorem State.setGang_ctx (s : State) (n : Nat) (g : Gang) : (s.setGang n g).ctx = s.ctx := rfl
@[simp] theorem State.setGang_aqi (s : State) (n : Nat) (g : Gang) : (s.setGang n g).aqi = s.aqi := rfl
@[simp] theorem State.setGang_remap (s : State) (n : Nat) (g : Gang) : (s.setGang n g).remap = s.remap := rfl
@[simp] theorem State.setGang_grants (s : State) (n : Nat) (g : Gang) : (s.setGang n g).grants = s.grants := rfl
@[simp] theorem State.setGang_lastPacket (s : State) (n : Nat) (g : Gang) : (s.setGang n g).lastPacket = s.lastPacket := rfl
@[simp] theorem State.setGang_kernels (s : State) (n : Nat) (g : Gang) : (s.setGang n g).kernels = s.kernels := rfl
@[simp] theorem State.setGang_groups (s : State) (n : Nat) (g : Gang) : (s.setGang n g).groups = s.groups := rfl
@[simp] theorem State.setGang_reserve (s : State) (n : Nat) (g : Gang) : (s.setGang n g).reserve = s.reserve := rfl
@[simp] theorem State.setGang_mem (s : State) (n : Nat) (g : Gang) : (s.setGang n g).mem = s.mem := rfl
@[simp] theorem State.setGang_pline (s : State) (n : Nat) (g : Gang) : (s.setGang n g).pline = s.pline := rfl
@[simp] theorem State.setGang_dir (s : State) (n : Nat) (g : Gang) : (s.setGang n g).dir = s.dir := rfl
@[simp] theorem State.setGang_homes (s : State) (n : Nat) (g : Gang) : (s.setGang n g).homes = s.homes := rfl
@[simp] theorem State.setGang_cores (s : State) (n : Nat) (g : Gang) : (s.setGang n g).cores = s.cores := rfl
@[simp] theorem State.setGang_owned (s : State) (n : Nat) (g : Gang) : (s.setGang n g).owned = s.owned := rfl
@[simp] theorem State.setGang_ownAsks (s : State) (n : Nat) (g : Gang) : (s.setGang n g).ownAsks = s.ownAsks := rfl
@[simp] theorem State.setGang_granted (s : State) (n : Nat) (g : Gang) : (s.setGang n g).granted = s.granted := rfl
@[simp] theorem State.setGang_hostShared (s : State) (n : Nat) (g : Gang) : (s.setGang n g).hostShared = s.hostShared := rfl
@[simp] theorem State.setGang_wts (s : State) (n : Nat) (g : Gang) : (s.setGang n g).wts = s.wts := rfl
@[simp] theorem State.setGang_hot (s : State) (n : Nat) (g : Gang) : (s.setGang n g).hot = s.hot := rfl
@[simp] theorem State.setGang_transfers (s : State) (n : Nat) (g : Gang) : (s.setGang n g).transfers = s.transfers := rfl
@[simp] theorem State.setGang_lastOwner (s : State) (n : Nat) (g : Gang) : (s.setGang n g).lastOwner = s.lastOwner := rfl
@[simp] theorem State.setGang_migrated (s : State) (n : Nat) (g : Gang) : (s.setGang n g).migrated = s.migrated := rfl
@[simp] theorem State.setGang_tlb (s : State) (n : Nat) (g : Gang) : (s.setGang n g).tlb = s.tlb := rfl
@[simp] theorem State.setGang_sectorTlb (s : State) (n : Nat) (g : Gang) : (s.setGang n g).sectorTlb = s.sectorTlb := rfl
@[simp] theorem State.setGang_walks (s : State) (n : Nat) (g : Gang) : (s.setGang n g).walks = s.walks := rfl
@[simp] theorem State.setGang_tier (s : State) (n : Nat) (g : Gang) : (s.setGang n g).tier = s.tier := rfl
@[simp] theorem State.setGang_firewall (s : State) (n : Nat) (g : Gang) : (s.setGang n g).firewall = s.firewall := rfl
@[simp] theorem State.setGang_l2w (s : State) (n : Nat) (g : Gang) : (s.setGang n g).l2w = s.l2w := rfl
@[simp] theorem State.setGang_pageReqs (s : State) (n : Nat) (g : Gang) : (s.setGang n g).pageReqs = s.pageReqs := rfl
@[simp] theorem State.setGang_copies (s : State) (n : Nat) (g : Gang) : (s.setGang n g).copies = s.copies := rfl
@[simp] theorem State.setGang_puts (s : State) (n : Nat) (g : Gang) : (s.setGang n g).puts = s.puts := rfl
@[simp] theorem State.setGang_admits (s : State) (n : Nat) (g : Gang) : (s.setGang n g).admits = s.admits := rfl
@[simp] theorem State.setGang_engines (s : State) (n : Nat) (g : Gang) : (s.setGang n g).engines = s.engines := rfl
@[simp] theorem State.setGang_shapes (s : State) (n : Nat) (g : Gang) : (s.setGang n g).shapes = s.shapes := rfl
@[simp] theorem State.setGang_contribs (s : State) (n : Nat) (g : Gang) : (s.setGang n g).contribs = s.contribs := rfl
@[simp] theorem State.setGang_trees (s : State) (n : Nat) (g : Gang) : (s.setGang n g).trees = s.trees := rfl
@[simp] theorem State.setGang_lastTag (s : State) (n : Nat) (g : Gang) : (s.setGang n g).lastTag = s.lastTag := rfl
@[simp] theorem State.setGang_waits (s : State) (n : Nat) (g : Gang) : (s.setGang n g).waits = s.waits := rfl
@[simp] theorem State.setGang_cells (s : State) (n : Nat) (g : Gang) : (s.setGang n g).cells = s.cells := rfl
@[simp] theorem State.setGang_ports (s : State) (n : Nat) (g : Gang) : (s.setGang n g).ports = s.ports := rfl
@[simp] theorem State.setGang_slots (s : State) (n : Nat) (g : Gang) : (s.setGang n g).slots = s.slots := rfl
@[simp] theorem State.setGang_active (s : State) (n : Nat) (g : Gang) : (s.setGang n g).active = s.active := rfl
@[simp] theorem State.setGang_tgen (s : State) (n : Nat) (g : Gang) : (s.setGang n g).tgen = s.tgen := rfl
@[simp] theorem State.setGang_round (s : State) (n : Nat) (g : Gang) : (s.setGang n g).round = s.round := rfl
@[simp] theorem State.setGang_seqs (s : State) (n : Nat) (g : Gang) : (s.setGang n g).seqs = s.seqs := rfl
@[simp] theorem State.setGang_early (s : State) (n : Nat) (g : Gang) : (s.setGang n g).early = s.early := rfl
@[simp] theorem State.setGang_outSeq (s : State) (n : Nat) (g : Gang) : (s.setGang n g).outSeq = s.outSeq := rfl
@[simp] theorem State.setGang_asks (s : State) (n : Nat) (g : Gang) : (s.setGang n g).asks = s.asks := rfl
@[simp] theorem State.setGang_recalls (s : State) (n : Nat) (g : Gang) : (s.setGang n g).recalls = s.recalls := rfl
@[simp] theorem State.setGang_fwOpen (s : State) (n : Nat) (g : Gang) : (s.setGang n g).fwOpen = s.fwOpen := rfl
@[simp] theorem State.setGang_stuck (s : State) (n : Nat) (g : Gang) : (s.setGang n g).stuck = s.stuck := rfl
@[simp] theorem State.setGang_landed (s : State) (n : Nat) (g : Gang) : (s.setGang n g).landed = s.landed := rfl
@[simp] theorem State.setGang_putLines (s : State) (n : Nat) (g : Gang) : (s.setGang n g).putLines = s.putLines := rfl
@[simp] theorem State.setGang_admitted (s : State) (n : Nat) (g : Gang) : (s.setGang n g).admitted = s.admitted := rfl
@[simp] theorem State.setGang_leaves (s : State) (n : Nat) (g : Gang) : (s.setGang n g).leaves = s.leaves := rfl
@[simp] theorem State.setGang_pcs (s : State) (n : Nat) (g : Gang) : (s.setGang n g).pcs = s.pcs := rfl
@[simp] theorem State.setGang_unsampled (s : State) (n : Nat) (g : Gang) : (s.setGang n g).unsampled = s.unsampled := rfl

/-! ### setAqi -/

@[simp] theorem State.setAqi_tick (s : State) (n : Nat) (x : Aqi) : (s.setAqi n x).tick = s.tick := rfl
@[simp] theorem State.setAqi_serial (s : State) (n : Nat) (x : Aqi) : (s.setAqi n x).serial = s.serial := rfl
@[simp] theorem State.setAqi_agenda (s : State) (n : Nat) (x : Aqi) : (s.setAqi n x).agenda = s.agenda := rfl
@[simp] theorem State.setAqi_due (s : State) (n : Nat) (x : Aqi) : (s.setAqi n x).due = s.due := rfl
@[simp] theorem State.setAqi_turn (s : State) (n : Nat) (x : Aqi) : (s.setAqi n x).turn = s.turn := rfl
@[simp] theorem State.setAqi_cur (s : State) (n : Nat) (x : Aqi) : (s.setAqi n x).cur = s.cur := rfl
@[simp] theorem State.setAqi_blocked (s : State) (n : Nat) (x : Aqi) : (s.setAqi n x).blocked = s.blocked := rfl
@[simp] theorem State.setAqi_slotTurn (s : State) (n : Nat) (x : Aqi) : (s.setAqi n x).slotTurn = s.slotTurn := rfl
@[simp] theorem State.setAqi_pairs (s : State) (n : Nat) (x : Aqi) : (s.setAqi n x).pairs = s.pairs := rfl
@[simp] theorem State.setAqi_shares (s : State) (n : Nat) (x : Aqi) : (s.setAqi n x).shares = s.shares := rfl
@[simp] theorem State.setAqi_paid (s : State) (n : Nat) (x : Aqi) : (s.setAqi n x).paid = s.paid := rfl
@[simp] theorem State.setAqi_pkg (s : State) (n : Nat) (x : Aqi) : (s.setAqi n x).pkg = s.pkg := rfl
@[simp] theorem State.setAqi_cell (s : State) (n : Nat) (x : Aqi) : (s.setAqi n x).cell = s.cell := rfl
@[simp] theorem State.setAqi_numbered (s : State) (n : Nat) (x : Aqi) : (s.setAqi n x).numbered = s.numbered := rfl
@[simp] theorem State.setAqi_form (s : State) (n : Nat) (x : Aqi) : (s.setAqi n x).form = s.form := rfl
@[simp] theorem State.setAqi_bringUp (s : State) (n : Nat) (x : Aqi) : (s.setAqi n x).bringUp = s.bringUp := rfl
@[simp] theorem State.setAqi_stopped (s : State) (n : Nat) (x : Aqi) : (s.setAqi n x).stopped = s.stopped := rfl
@[simp] theorem State.setAqi_imageVersion (s : State) (n : Nat) (x : Aqi) : (s.setAqi n x).imageVersion = s.imageVersion := rfl
@[simp] theorem State.setAqi_minVersion (s : State) (n : Nat) (x : Aqi) : (s.setAqi n x).minVersion = s.minVersion := rfl
@[simp] theorem State.setAqi_identity (s : State) (n : Nat) (x : Aqi) : (s.setAqi n x).identity = s.identity := rfl
@[simp] theorem State.setAqi_imageDigest (s : State) (n : Nat) (x : Aqi) : (s.setAqi n x).imageDigest = s.imageDigest := rfl
@[simp] theorem State.setAqi_blobDigest (s : State) (n : Nat) (x : Aqi) : (s.setAqi n x).blobDigest = s.blobDigest := rfl
@[simp] theorem State.setAqi_caps (s : State) (n : Nat) (x : Aqi) : (s.setAqi n x).caps = s.caps := rfl
@[simp] theorem State.setAqi_boiling (s : State) (n : Nat) (x : Aqi) : (s.setAqi n x).boiling = s.boiling := rfl
@[simp] theorem State.setAqi_power (s : State) (n : Nat) (x : Aqi) : (s.setAqi n x).power = s.power := rfl
@[simp] theorem State.setAqi_throttled (s : State) (n : Nat) (x : Aqi) : (s.setAqi n x).throttled = s.throttled := rfl
@[simp] theorem State.setAqi_trips (s : State) (n : Nat) (x : Aqi) : (s.setAqi n x).trips = s.trips := rfl
@[simp] theorem State.setAqi_lastReport (s : State) (n : Nat) (x : Aqi) : (s.setAqi n x).lastReport = s.lastReport := rfl
@[simp] theorem State.setAqi_thresholds (s : State) (n : Nat) (x : Aqi) : (s.setAqi n x).thresholds = s.thresholds := rfl
@[simp] theorem State.setAqi_readings (s : State) (n : Nat) (x : Aqi) : (s.setAqi n x).readings = s.readings := rfl
@[simp] theorem State.setAqi_scrub (s : State) (n : Nat) (x : Aqi) : (s.setAqi n x).scrub = s.scrub := rfl
@[simp] theorem State.setAqi_softErrors (s : State) (n : Nat) (x : Aqi) : (s.setAqi n x).softErrors = s.softErrors := rfl
@[simp] theorem State.setAqi_regs (s : State) (n : Nat) (x : Aqi) : (s.setAqi n x).regs = s.regs := rfl
@[simp] theorem State.setAqi_msgs (s : State) (n : Nat) (x : Aqi) : (s.setAqi n x).msgs = s.msgs := rfl
@[simp] theorem State.setAqi_lantern (s : State) (n : Nat) (x : Aqi) : (s.setAqi n x).lantern = s.lantern := rfl
@[simp] theorem State.setAqi_ctx (s : State) (n : Nat) (x : Aqi) : (s.setAqi n x).ctx = s.ctx := rfl
@[simp] theorem State.setAqi_remap (s : State) (n : Nat) (x : Aqi) : (s.setAqi n x).remap = s.remap := rfl
@[simp] theorem State.setAqi_grants (s : State) (n : Nat) (x : Aqi) : (s.setAqi n x).grants = s.grants := rfl
@[simp] theorem State.setAqi_lastPacket (s : State) (n : Nat) (x : Aqi) : (s.setAqi n x).lastPacket = s.lastPacket := rfl
@[simp] theorem State.setAqi_kernels (s : State) (n : Nat) (x : Aqi) : (s.setAqi n x).kernels = s.kernels := rfl
@[simp] theorem State.setAqi_gangs (s : State) (n : Nat) (x : Aqi) : (s.setAqi n x).gangs = s.gangs := rfl
@[simp] theorem State.setAqi_groups (s : State) (n : Nat) (x : Aqi) : (s.setAqi n x).groups = s.groups := rfl
@[simp] theorem State.setAqi_reserve (s : State) (n : Nat) (x : Aqi) : (s.setAqi n x).reserve = s.reserve := rfl
@[simp] theorem State.setAqi_mem (s : State) (n : Nat) (x : Aqi) : (s.setAqi n x).mem = s.mem := rfl
@[simp] theorem State.setAqi_pline (s : State) (n : Nat) (x : Aqi) : (s.setAqi n x).pline = s.pline := rfl
@[simp] theorem State.setAqi_dir (s : State) (n : Nat) (x : Aqi) : (s.setAqi n x).dir = s.dir := rfl
@[simp] theorem State.setAqi_homes (s : State) (n : Nat) (x : Aqi) : (s.setAqi n x).homes = s.homes := rfl
@[simp] theorem State.setAqi_cores (s : State) (n : Nat) (x : Aqi) : (s.setAqi n x).cores = s.cores := rfl
@[simp] theorem State.setAqi_owned (s : State) (n : Nat) (x : Aqi) : (s.setAqi n x).owned = s.owned := rfl
@[simp] theorem State.setAqi_ownAsks (s : State) (n : Nat) (x : Aqi) : (s.setAqi n x).ownAsks = s.ownAsks := rfl
@[simp] theorem State.setAqi_granted (s : State) (n : Nat) (x : Aqi) : (s.setAqi n x).granted = s.granted := rfl
@[simp] theorem State.setAqi_hostShared (s : State) (n : Nat) (x : Aqi) : (s.setAqi n x).hostShared = s.hostShared := rfl
@[simp] theorem State.setAqi_wts (s : State) (n : Nat) (x : Aqi) : (s.setAqi n x).wts = s.wts := rfl
@[simp] theorem State.setAqi_hot (s : State) (n : Nat) (x : Aqi) : (s.setAqi n x).hot = s.hot := rfl
@[simp] theorem State.setAqi_transfers (s : State) (n : Nat) (x : Aqi) : (s.setAqi n x).transfers = s.transfers := rfl
@[simp] theorem State.setAqi_lastOwner (s : State) (n : Nat) (x : Aqi) : (s.setAqi n x).lastOwner = s.lastOwner := rfl
@[simp] theorem State.setAqi_migrated (s : State) (n : Nat) (x : Aqi) : (s.setAqi n x).migrated = s.migrated := rfl
@[simp] theorem State.setAqi_tlb (s : State) (n : Nat) (x : Aqi) : (s.setAqi n x).tlb = s.tlb := rfl
@[simp] theorem State.setAqi_sectorTlb (s : State) (n : Nat) (x : Aqi) : (s.setAqi n x).sectorTlb = s.sectorTlb := rfl
@[simp] theorem State.setAqi_walks (s : State) (n : Nat) (x : Aqi) : (s.setAqi n x).walks = s.walks := rfl
@[simp] theorem State.setAqi_tier (s : State) (n : Nat) (x : Aqi) : (s.setAqi n x).tier = s.tier := rfl
@[simp] theorem State.setAqi_firewall (s : State) (n : Nat) (x : Aqi) : (s.setAqi n x).firewall = s.firewall := rfl
@[simp] theorem State.setAqi_l2w (s : State) (n : Nat) (x : Aqi) : (s.setAqi n x).l2w = s.l2w := rfl
@[simp] theorem State.setAqi_pageReqs (s : State) (n : Nat) (x : Aqi) : (s.setAqi n x).pageReqs = s.pageReqs := rfl
@[simp] theorem State.setAqi_copies (s : State) (n : Nat) (x : Aqi) : (s.setAqi n x).copies = s.copies := rfl
@[simp] theorem State.setAqi_puts (s : State) (n : Nat) (x : Aqi) : (s.setAqi n x).puts = s.puts := rfl
@[simp] theorem State.setAqi_admits (s : State) (n : Nat) (x : Aqi) : (s.setAqi n x).admits = s.admits := rfl
@[simp] theorem State.setAqi_engines (s : State) (n : Nat) (x : Aqi) : (s.setAqi n x).engines = s.engines := rfl
@[simp] theorem State.setAqi_shapes (s : State) (n : Nat) (x : Aqi) : (s.setAqi n x).shapes = s.shapes := rfl
@[simp] theorem State.setAqi_contribs (s : State) (n : Nat) (x : Aqi) : (s.setAqi n x).contribs = s.contribs := rfl
@[simp] theorem State.setAqi_trees (s : State) (n : Nat) (x : Aqi) : (s.setAqi n x).trees = s.trees := rfl
@[simp] theorem State.setAqi_lastTag (s : State) (n : Nat) (x : Aqi) : (s.setAqi n x).lastTag = s.lastTag := rfl
@[simp] theorem State.setAqi_waits (s : State) (n : Nat) (x : Aqi) : (s.setAqi n x).waits = s.waits := rfl
@[simp] theorem State.setAqi_cells (s : State) (n : Nat) (x : Aqi) : (s.setAqi n x).cells = s.cells := rfl
@[simp] theorem State.setAqi_ports (s : State) (n : Nat) (x : Aqi) : (s.setAqi n x).ports = s.ports := rfl
@[simp] theorem State.setAqi_slots (s : State) (n : Nat) (x : Aqi) : (s.setAqi n x).slots = s.slots := rfl
@[simp] theorem State.setAqi_active (s : State) (n : Nat) (x : Aqi) : (s.setAqi n x).active = s.active := rfl
@[simp] theorem State.setAqi_tgen (s : State) (n : Nat) (x : Aqi) : (s.setAqi n x).tgen = s.tgen := rfl
@[simp] theorem State.setAqi_round (s : State) (n : Nat) (x : Aqi) : (s.setAqi n x).round = s.round := rfl
@[simp] theorem State.setAqi_seqs (s : State) (n : Nat) (x : Aqi) : (s.setAqi n x).seqs = s.seqs := rfl
@[simp] theorem State.setAqi_early (s : State) (n : Nat) (x : Aqi) : (s.setAqi n x).early = s.early := rfl
@[simp] theorem State.setAqi_outSeq (s : State) (n : Nat) (x : Aqi) : (s.setAqi n x).outSeq = s.outSeq := rfl
@[simp] theorem State.setAqi_asks (s : State) (n : Nat) (x : Aqi) : (s.setAqi n x).asks = s.asks := rfl
@[simp] theorem State.setAqi_recalls (s : State) (n : Nat) (x : Aqi) : (s.setAqi n x).recalls = s.recalls := rfl
@[simp] theorem State.setAqi_fwOpen (s : State) (n : Nat) (x : Aqi) : (s.setAqi n x).fwOpen = s.fwOpen := rfl
@[simp] theorem State.setAqi_stuck (s : State) (n : Nat) (x : Aqi) : (s.setAqi n x).stuck = s.stuck := rfl
@[simp] theorem State.setAqi_landed (s : State) (n : Nat) (x : Aqi) : (s.setAqi n x).landed = s.landed := rfl
@[simp] theorem State.setAqi_putLines (s : State) (n : Nat) (x : Aqi) : (s.setAqi n x).putLines = s.putLines := rfl
@[simp] theorem State.setAqi_admitted (s : State) (n : Nat) (x : Aqi) : (s.setAqi n x).admitted = s.admitted := rfl
@[simp] theorem State.setAqi_leaves (s : State) (n : Nat) (x : Aqi) : (s.setAqi n x).leaves = s.leaves := rfl
@[simp] theorem State.setAqi_pcs (s : State) (n : Nat) (x : Aqi) : (s.setAqi n x).pcs = s.pcs := rfl
@[simp] theorem State.setAqi_unsampled (s : State) (n : Nat) (x : Aqi) : (s.setAqi n x).unsampled = s.unsampled := rfl

/-! ### setPort -/

@[simp] theorem State.setPort_tick (s : State) (n : Nat) (p : Port) : (s.setPort n p).tick = s.tick := rfl
@[simp] theorem State.setPort_serial (s : State) (n : Nat) (p : Port) : (s.setPort n p).serial = s.serial := rfl
@[simp] theorem State.setPort_agenda (s : State) (n : Nat) (p : Port) : (s.setPort n p).agenda = s.agenda := rfl
@[simp] theorem State.setPort_due (s : State) (n : Nat) (p : Port) : (s.setPort n p).due = s.due := rfl
@[simp] theorem State.setPort_turn (s : State) (n : Nat) (p : Port) : (s.setPort n p).turn = s.turn := rfl
@[simp] theorem State.setPort_cur (s : State) (n : Nat) (p : Port) : (s.setPort n p).cur = s.cur := rfl
@[simp] theorem State.setPort_blocked (s : State) (n : Nat) (p : Port) : (s.setPort n p).blocked = s.blocked := rfl
@[simp] theorem State.setPort_slotTurn (s : State) (n : Nat) (p : Port) : (s.setPort n p).slotTurn = s.slotTurn := rfl
@[simp] theorem State.setPort_pairs (s : State) (n : Nat) (p : Port) : (s.setPort n p).pairs = s.pairs := rfl
@[simp] theorem State.setPort_shares (s : State) (n : Nat) (p : Port) : (s.setPort n p).shares = s.shares := rfl
@[simp] theorem State.setPort_paid (s : State) (n : Nat) (p : Port) : (s.setPort n p).paid = s.paid := rfl
@[simp] theorem State.setPort_pkg (s : State) (n : Nat) (p : Port) : (s.setPort n p).pkg = s.pkg := rfl
@[simp] theorem State.setPort_cell (s : State) (n : Nat) (p : Port) : (s.setPort n p).cell = s.cell := rfl
@[simp] theorem State.setPort_numbered (s : State) (n : Nat) (p : Port) : (s.setPort n p).numbered = s.numbered := rfl
@[simp] theorem State.setPort_form (s : State) (n : Nat) (p : Port) : (s.setPort n p).form = s.form := rfl
@[simp] theorem State.setPort_bringUp (s : State) (n : Nat) (p : Port) : (s.setPort n p).bringUp = s.bringUp := rfl
@[simp] theorem State.setPort_stopped (s : State) (n : Nat) (p : Port) : (s.setPort n p).stopped = s.stopped := rfl
@[simp] theorem State.setPort_imageVersion (s : State) (n : Nat) (p : Port) : (s.setPort n p).imageVersion = s.imageVersion := rfl
@[simp] theorem State.setPort_minVersion (s : State) (n : Nat) (p : Port) : (s.setPort n p).minVersion = s.minVersion := rfl
@[simp] theorem State.setPort_identity (s : State) (n : Nat) (p : Port) : (s.setPort n p).identity = s.identity := rfl
@[simp] theorem State.setPort_imageDigest (s : State) (n : Nat) (p : Port) : (s.setPort n p).imageDigest = s.imageDigest := rfl
@[simp] theorem State.setPort_blobDigest (s : State) (n : Nat) (p : Port) : (s.setPort n p).blobDigest = s.blobDigest := rfl
@[simp] theorem State.setPort_caps (s : State) (n : Nat) (p : Port) : (s.setPort n p).caps = s.caps := rfl
@[simp] theorem State.setPort_boiling (s : State) (n : Nat) (p : Port) : (s.setPort n p).boiling = s.boiling := rfl
@[simp] theorem State.setPort_power (s : State) (n : Nat) (p : Port) : (s.setPort n p).power = s.power := rfl
@[simp] theorem State.setPort_throttled (s : State) (n : Nat) (p : Port) : (s.setPort n p).throttled = s.throttled := rfl
@[simp] theorem State.setPort_trips (s : State) (n : Nat) (p : Port) : (s.setPort n p).trips = s.trips := rfl
@[simp] theorem State.setPort_lastReport (s : State) (n : Nat) (p : Port) : (s.setPort n p).lastReport = s.lastReport := rfl
@[simp] theorem State.setPort_thresholds (s : State) (n : Nat) (p : Port) : (s.setPort n p).thresholds = s.thresholds := rfl
@[simp] theorem State.setPort_readings (s : State) (n : Nat) (p : Port) : (s.setPort n p).readings = s.readings := rfl
@[simp] theorem State.setPort_scrub (s : State) (n : Nat) (p : Port) : (s.setPort n p).scrub = s.scrub := rfl
@[simp] theorem State.setPort_softErrors (s : State) (n : Nat) (p : Port) : (s.setPort n p).softErrors = s.softErrors := rfl
@[simp] theorem State.setPort_regs (s : State) (n : Nat) (p : Port) : (s.setPort n p).regs = s.regs := rfl
@[simp] theorem State.setPort_msgs (s : State) (n : Nat) (p : Port) : (s.setPort n p).msgs = s.msgs := rfl
@[simp] theorem State.setPort_lantern (s : State) (n : Nat) (p : Port) : (s.setPort n p).lantern = s.lantern := rfl
@[simp] theorem State.setPort_ctx (s : State) (n : Nat) (p : Port) : (s.setPort n p).ctx = s.ctx := rfl
@[simp] theorem State.setPort_aqi (s : State) (n : Nat) (p : Port) : (s.setPort n p).aqi = s.aqi := rfl
@[simp] theorem State.setPort_remap (s : State) (n : Nat) (p : Port) : (s.setPort n p).remap = s.remap := rfl
@[simp] theorem State.setPort_grants (s : State) (n : Nat) (p : Port) : (s.setPort n p).grants = s.grants := rfl
@[simp] theorem State.setPort_lastPacket (s : State) (n : Nat) (p : Port) : (s.setPort n p).lastPacket = s.lastPacket := rfl
@[simp] theorem State.setPort_kernels (s : State) (n : Nat) (p : Port) : (s.setPort n p).kernels = s.kernels := rfl
@[simp] theorem State.setPort_gangs (s : State) (n : Nat) (p : Port) : (s.setPort n p).gangs = s.gangs := rfl
@[simp] theorem State.setPort_groups (s : State) (n : Nat) (p : Port) : (s.setPort n p).groups = s.groups := rfl
@[simp] theorem State.setPort_reserve (s : State) (n : Nat) (p : Port) : (s.setPort n p).reserve = s.reserve := rfl
@[simp] theorem State.setPort_mem (s : State) (n : Nat) (p : Port) : (s.setPort n p).mem = s.mem := rfl
@[simp] theorem State.setPort_pline (s : State) (n : Nat) (p : Port) : (s.setPort n p).pline = s.pline := rfl
@[simp] theorem State.setPort_dir (s : State) (n : Nat) (p : Port) : (s.setPort n p).dir = s.dir := rfl
@[simp] theorem State.setPort_homes (s : State) (n : Nat) (p : Port) : (s.setPort n p).homes = s.homes := rfl
@[simp] theorem State.setPort_cores (s : State) (n : Nat) (p : Port) : (s.setPort n p).cores = s.cores := rfl
@[simp] theorem State.setPort_owned (s : State) (n : Nat) (p : Port) : (s.setPort n p).owned = s.owned := rfl
@[simp] theorem State.setPort_ownAsks (s : State) (n : Nat) (p : Port) : (s.setPort n p).ownAsks = s.ownAsks := rfl
@[simp] theorem State.setPort_granted (s : State) (n : Nat) (p : Port) : (s.setPort n p).granted = s.granted := rfl
@[simp] theorem State.setPort_hostShared (s : State) (n : Nat) (p : Port) : (s.setPort n p).hostShared = s.hostShared := rfl
@[simp] theorem State.setPort_wts (s : State) (n : Nat) (p : Port) : (s.setPort n p).wts = s.wts := rfl
@[simp] theorem State.setPort_hot (s : State) (n : Nat) (p : Port) : (s.setPort n p).hot = s.hot := rfl
@[simp] theorem State.setPort_transfers (s : State) (n : Nat) (p : Port) : (s.setPort n p).transfers = s.transfers := rfl
@[simp] theorem State.setPort_lastOwner (s : State) (n : Nat) (p : Port) : (s.setPort n p).lastOwner = s.lastOwner := rfl
@[simp] theorem State.setPort_migrated (s : State) (n : Nat) (p : Port) : (s.setPort n p).migrated = s.migrated := rfl
@[simp] theorem State.setPort_tlb (s : State) (n : Nat) (p : Port) : (s.setPort n p).tlb = s.tlb := rfl
@[simp] theorem State.setPort_sectorTlb (s : State) (n : Nat) (p : Port) : (s.setPort n p).sectorTlb = s.sectorTlb := rfl
@[simp] theorem State.setPort_walks (s : State) (n : Nat) (p : Port) : (s.setPort n p).walks = s.walks := rfl
@[simp] theorem State.setPort_tier (s : State) (n : Nat) (p : Port) : (s.setPort n p).tier = s.tier := rfl
@[simp] theorem State.setPort_firewall (s : State) (n : Nat) (p : Port) : (s.setPort n p).firewall = s.firewall := rfl
@[simp] theorem State.setPort_l2w (s : State) (n : Nat) (p : Port) : (s.setPort n p).l2w = s.l2w := rfl
@[simp] theorem State.setPort_pageReqs (s : State) (n : Nat) (p : Port) : (s.setPort n p).pageReqs = s.pageReqs := rfl
@[simp] theorem State.setPort_copies (s : State) (n : Nat) (p : Port) : (s.setPort n p).copies = s.copies := rfl
@[simp] theorem State.setPort_puts (s : State) (n : Nat) (p : Port) : (s.setPort n p).puts = s.puts := rfl
@[simp] theorem State.setPort_admits (s : State) (n : Nat) (p : Port) : (s.setPort n p).admits = s.admits := rfl
@[simp] theorem State.setPort_engines (s : State) (n : Nat) (p : Port) : (s.setPort n p).engines = s.engines := rfl
@[simp] theorem State.setPort_shapes (s : State) (n : Nat) (p : Port) : (s.setPort n p).shapes = s.shapes := rfl
@[simp] theorem State.setPort_contribs (s : State) (n : Nat) (p : Port) : (s.setPort n p).contribs = s.contribs := rfl
@[simp] theorem State.setPort_trees (s : State) (n : Nat) (p : Port) : (s.setPort n p).trees = s.trees := rfl
@[simp] theorem State.setPort_lastTag (s : State) (n : Nat) (p : Port) : (s.setPort n p).lastTag = s.lastTag := rfl
@[simp] theorem State.setPort_waits (s : State) (n : Nat) (p : Port) : (s.setPort n p).waits = s.waits := rfl
@[simp] theorem State.setPort_cells (s : State) (n : Nat) (p : Port) : (s.setPort n p).cells = s.cells := rfl
@[simp] theorem State.setPort_slots (s : State) (n : Nat) (p : Port) : (s.setPort n p).slots = s.slots := rfl
@[simp] theorem State.setPort_active (s : State) (n : Nat) (p : Port) : (s.setPort n p).active = s.active := rfl
@[simp] theorem State.setPort_tgen (s : State) (n : Nat) (p : Port) : (s.setPort n p).tgen = s.tgen := rfl
@[simp] theorem State.setPort_round (s : State) (n : Nat) (p : Port) : (s.setPort n p).round = s.round := rfl
@[simp] theorem State.setPort_seqs (s : State) (n : Nat) (p : Port) : (s.setPort n p).seqs = s.seqs := rfl
@[simp] theorem State.setPort_early (s : State) (n : Nat) (p : Port) : (s.setPort n p).early = s.early := rfl
@[simp] theorem State.setPort_outSeq (s : State) (n : Nat) (p : Port) : (s.setPort n p).outSeq = s.outSeq := rfl
@[simp] theorem State.setPort_asks (s : State) (n : Nat) (p : Port) : (s.setPort n p).asks = s.asks := rfl
@[simp] theorem State.setPort_recalls (s : State) (n : Nat) (p : Port) : (s.setPort n p).recalls = s.recalls := rfl
@[simp] theorem State.setPort_fwOpen (s : State) (n : Nat) (p : Port) : (s.setPort n p).fwOpen = s.fwOpen := rfl
@[simp] theorem State.setPort_stuck (s : State) (n : Nat) (p : Port) : (s.setPort n p).stuck = s.stuck := rfl
@[simp] theorem State.setPort_landed (s : State) (n : Nat) (p : Port) : (s.setPort n p).landed = s.landed := rfl
@[simp] theorem State.setPort_putLines (s : State) (n : Nat) (p : Port) : (s.setPort n p).putLines = s.putLines := rfl
@[simp] theorem State.setPort_admitted (s : State) (n : Nat) (p : Port) : (s.setPort n p).admitted = s.admitted := rfl
@[simp] theorem State.setPort_leaves (s : State) (n : Nat) (p : Port) : (s.setPort n p).leaves = s.leaves := rfl
@[simp] theorem State.setPort_pcs (s : State) (n : Nat) (p : Port) : (s.setPort n p).pcs = s.pcs := rfl
@[simp] theorem State.setPort_unsampled (s : State) (n : Nat) (p : Port) : (s.setPort n p).unsampled = s.unsampled := rfl

/-! ### setL2w -/

@[simp] theorem State.setL2w_tick (s : State) (key : Nat) (w : L2w) : (s.setL2w key w).tick = s.tick := rfl
@[simp] theorem State.setL2w_serial (s : State) (key : Nat) (w : L2w) : (s.setL2w key w).serial = s.serial := rfl
@[simp] theorem State.setL2w_agenda (s : State) (key : Nat) (w : L2w) : (s.setL2w key w).agenda = s.agenda := rfl
@[simp] theorem State.setL2w_due (s : State) (key : Nat) (w : L2w) : (s.setL2w key w).due = s.due := rfl
@[simp] theorem State.setL2w_turn (s : State) (key : Nat) (w : L2w) : (s.setL2w key w).turn = s.turn := rfl
@[simp] theorem State.setL2w_cur (s : State) (key : Nat) (w : L2w) : (s.setL2w key w).cur = s.cur := rfl
@[simp] theorem State.setL2w_blocked (s : State) (key : Nat) (w : L2w) : (s.setL2w key w).blocked = s.blocked := rfl
@[simp] theorem State.setL2w_slotTurn (s : State) (key : Nat) (w : L2w) : (s.setL2w key w).slotTurn = s.slotTurn := rfl
@[simp] theorem State.setL2w_pairs (s : State) (key : Nat) (w : L2w) : (s.setL2w key w).pairs = s.pairs := rfl
@[simp] theorem State.setL2w_shares (s : State) (key : Nat) (w : L2w) : (s.setL2w key w).shares = s.shares := rfl
@[simp] theorem State.setL2w_paid (s : State) (key : Nat) (w : L2w) : (s.setL2w key w).paid = s.paid := rfl
@[simp] theorem State.setL2w_pkg (s : State) (key : Nat) (w : L2w) : (s.setL2w key w).pkg = s.pkg := rfl
@[simp] theorem State.setL2w_cell (s : State) (key : Nat) (w : L2w) : (s.setL2w key w).cell = s.cell := rfl
@[simp] theorem State.setL2w_numbered (s : State) (key : Nat) (w : L2w) : (s.setL2w key w).numbered = s.numbered := rfl
@[simp] theorem State.setL2w_form (s : State) (key : Nat) (w : L2w) : (s.setL2w key w).form = s.form := rfl
@[simp] theorem State.setL2w_bringUp (s : State) (key : Nat) (w : L2w) : (s.setL2w key w).bringUp = s.bringUp := rfl
@[simp] theorem State.setL2w_stopped (s : State) (key : Nat) (w : L2w) : (s.setL2w key w).stopped = s.stopped := rfl
@[simp] theorem State.setL2w_imageVersion (s : State) (key : Nat) (w : L2w) : (s.setL2w key w).imageVersion = s.imageVersion := rfl
@[simp] theorem State.setL2w_minVersion (s : State) (key : Nat) (w : L2w) : (s.setL2w key w).minVersion = s.minVersion := rfl
@[simp] theorem State.setL2w_identity (s : State) (key : Nat) (w : L2w) : (s.setL2w key w).identity = s.identity := rfl
@[simp] theorem State.setL2w_imageDigest (s : State) (key : Nat) (w : L2w) : (s.setL2w key w).imageDigest = s.imageDigest := rfl
@[simp] theorem State.setL2w_blobDigest (s : State) (key : Nat) (w : L2w) : (s.setL2w key w).blobDigest = s.blobDigest := rfl
@[simp] theorem State.setL2w_caps (s : State) (key : Nat) (w : L2w) : (s.setL2w key w).caps = s.caps := rfl
@[simp] theorem State.setL2w_boiling (s : State) (key : Nat) (w : L2w) : (s.setL2w key w).boiling = s.boiling := rfl
@[simp] theorem State.setL2w_power (s : State) (key : Nat) (w : L2w) : (s.setL2w key w).power = s.power := rfl
@[simp] theorem State.setL2w_throttled (s : State) (key : Nat) (w : L2w) : (s.setL2w key w).throttled = s.throttled := rfl
@[simp] theorem State.setL2w_trips (s : State) (key : Nat) (w : L2w) : (s.setL2w key w).trips = s.trips := rfl
@[simp] theorem State.setL2w_lastReport (s : State) (key : Nat) (w : L2w) : (s.setL2w key w).lastReport = s.lastReport := rfl
@[simp] theorem State.setL2w_thresholds (s : State) (key : Nat) (w : L2w) : (s.setL2w key w).thresholds = s.thresholds := rfl
@[simp] theorem State.setL2w_readings (s : State) (key : Nat) (w : L2w) : (s.setL2w key w).readings = s.readings := rfl
@[simp] theorem State.setL2w_scrub (s : State) (key : Nat) (w : L2w) : (s.setL2w key w).scrub = s.scrub := rfl
@[simp] theorem State.setL2w_softErrors (s : State) (key : Nat) (w : L2w) : (s.setL2w key w).softErrors = s.softErrors := rfl
@[simp] theorem State.setL2w_regs (s : State) (key : Nat) (w : L2w) : (s.setL2w key w).regs = s.regs := rfl
@[simp] theorem State.setL2w_msgs (s : State) (key : Nat) (w : L2w) : (s.setL2w key w).msgs = s.msgs := rfl
@[simp] theorem State.setL2w_lantern (s : State) (key : Nat) (w : L2w) : (s.setL2w key w).lantern = s.lantern := rfl
@[simp] theorem State.setL2w_ctx (s : State) (key : Nat) (w : L2w) : (s.setL2w key w).ctx = s.ctx := rfl
@[simp] theorem State.setL2w_aqi (s : State) (key : Nat) (w : L2w) : (s.setL2w key w).aqi = s.aqi := rfl
@[simp] theorem State.setL2w_remap (s : State) (key : Nat) (w : L2w) : (s.setL2w key w).remap = s.remap := rfl
@[simp] theorem State.setL2w_grants (s : State) (key : Nat) (w : L2w) : (s.setL2w key w).grants = s.grants := rfl
@[simp] theorem State.setL2w_lastPacket (s : State) (key : Nat) (w : L2w) : (s.setL2w key w).lastPacket = s.lastPacket := rfl
@[simp] theorem State.setL2w_kernels (s : State) (key : Nat) (w : L2w) : (s.setL2w key w).kernels = s.kernels := rfl
@[simp] theorem State.setL2w_gangs (s : State) (key : Nat) (w : L2w) : (s.setL2w key w).gangs = s.gangs := rfl
@[simp] theorem State.setL2w_groups (s : State) (key : Nat) (w : L2w) : (s.setL2w key w).groups = s.groups := rfl
@[simp] theorem State.setL2w_reserve (s : State) (key : Nat) (w : L2w) : (s.setL2w key w).reserve = s.reserve := rfl
@[simp] theorem State.setL2w_mem (s : State) (key : Nat) (w : L2w) : (s.setL2w key w).mem = s.mem := rfl
@[simp] theorem State.setL2w_pline (s : State) (key : Nat) (w : L2w) : (s.setL2w key w).pline = s.pline := rfl
@[simp] theorem State.setL2w_dir (s : State) (key : Nat) (w : L2w) : (s.setL2w key w).dir = s.dir := rfl
@[simp] theorem State.setL2w_homes (s : State) (key : Nat) (w : L2w) : (s.setL2w key w).homes = s.homes := rfl
@[simp] theorem State.setL2w_cores (s : State) (key : Nat) (w : L2w) : (s.setL2w key w).cores = s.cores := rfl
@[simp] theorem State.setL2w_owned (s : State) (key : Nat) (w : L2w) : (s.setL2w key w).owned = s.owned := rfl
@[simp] theorem State.setL2w_ownAsks (s : State) (key : Nat) (w : L2w) : (s.setL2w key w).ownAsks = s.ownAsks := rfl
@[simp] theorem State.setL2w_granted (s : State) (key : Nat) (w : L2w) : (s.setL2w key w).granted = s.granted := rfl
@[simp] theorem State.setL2w_hostShared (s : State) (key : Nat) (w : L2w) : (s.setL2w key w).hostShared = s.hostShared := rfl
@[simp] theorem State.setL2w_wts (s : State) (key : Nat) (w : L2w) : (s.setL2w key w).wts = s.wts := rfl
@[simp] theorem State.setL2w_hot (s : State) (key : Nat) (w : L2w) : (s.setL2w key w).hot = s.hot := rfl
@[simp] theorem State.setL2w_transfers (s : State) (key : Nat) (w : L2w) : (s.setL2w key w).transfers = s.transfers := rfl
@[simp] theorem State.setL2w_lastOwner (s : State) (key : Nat) (w : L2w) : (s.setL2w key w).lastOwner = s.lastOwner := rfl
@[simp] theorem State.setL2w_migrated (s : State) (key : Nat) (w : L2w) : (s.setL2w key w).migrated = s.migrated := rfl
@[simp] theorem State.setL2w_tlb (s : State) (key : Nat) (w : L2w) : (s.setL2w key w).tlb = s.tlb := rfl
@[simp] theorem State.setL2w_sectorTlb (s : State) (key : Nat) (w : L2w) : (s.setL2w key w).sectorTlb = s.sectorTlb := rfl
@[simp] theorem State.setL2w_walks (s : State) (key : Nat) (w : L2w) : (s.setL2w key w).walks = s.walks := rfl
@[simp] theorem State.setL2w_tier (s : State) (key : Nat) (w : L2w) : (s.setL2w key w).tier = s.tier := rfl
@[simp] theorem State.setL2w_firewall (s : State) (key : Nat) (w : L2w) : (s.setL2w key w).firewall = s.firewall := rfl
@[simp] theorem State.setL2w_pageReqs (s : State) (key : Nat) (w : L2w) : (s.setL2w key w).pageReqs = s.pageReqs := rfl
@[simp] theorem State.setL2w_copies (s : State) (key : Nat) (w : L2w) : (s.setL2w key w).copies = s.copies := rfl
@[simp] theorem State.setL2w_puts (s : State) (key : Nat) (w : L2w) : (s.setL2w key w).puts = s.puts := rfl
@[simp] theorem State.setL2w_admits (s : State) (key : Nat) (w : L2w) : (s.setL2w key w).admits = s.admits := rfl
@[simp] theorem State.setL2w_engines (s : State) (key : Nat) (w : L2w) : (s.setL2w key w).engines = s.engines := rfl
@[simp] theorem State.setL2w_shapes (s : State) (key : Nat) (w : L2w) : (s.setL2w key w).shapes = s.shapes := rfl
@[simp] theorem State.setL2w_contribs (s : State) (key : Nat) (w : L2w) : (s.setL2w key w).contribs = s.contribs := rfl
@[simp] theorem State.setL2w_trees (s : State) (key : Nat) (w : L2w) : (s.setL2w key w).trees = s.trees := rfl
@[simp] theorem State.setL2w_lastTag (s : State) (key : Nat) (w : L2w) : (s.setL2w key w).lastTag = s.lastTag := rfl
@[simp] theorem State.setL2w_waits (s : State) (key : Nat) (w : L2w) : (s.setL2w key w).waits = s.waits := rfl
@[simp] theorem State.setL2w_cells (s : State) (key : Nat) (w : L2w) : (s.setL2w key w).cells = s.cells := rfl
@[simp] theorem State.setL2w_ports (s : State) (key : Nat) (w : L2w) : (s.setL2w key w).ports = s.ports := rfl
@[simp] theorem State.setL2w_slots (s : State) (key : Nat) (w : L2w) : (s.setL2w key w).slots = s.slots := rfl
@[simp] theorem State.setL2w_active (s : State) (key : Nat) (w : L2w) : (s.setL2w key w).active = s.active := rfl
@[simp] theorem State.setL2w_tgen (s : State) (key : Nat) (w : L2w) : (s.setL2w key w).tgen = s.tgen := rfl
@[simp] theorem State.setL2w_round (s : State) (key : Nat) (w : L2w) : (s.setL2w key w).round = s.round := rfl
@[simp] theorem State.setL2w_seqs (s : State) (key : Nat) (w : L2w) : (s.setL2w key w).seqs = s.seqs := rfl
@[simp] theorem State.setL2w_early (s : State) (key : Nat) (w : L2w) : (s.setL2w key w).early = s.early := rfl
@[simp] theorem State.setL2w_outSeq (s : State) (key : Nat) (w : L2w) : (s.setL2w key w).outSeq = s.outSeq := rfl
@[simp] theorem State.setL2w_asks (s : State) (key : Nat) (w : L2w) : (s.setL2w key w).asks = s.asks := rfl
@[simp] theorem State.setL2w_recalls (s : State) (key : Nat) (w : L2w) : (s.setL2w key w).recalls = s.recalls := rfl
@[simp] theorem State.setL2w_fwOpen (s : State) (key : Nat) (w : L2w) : (s.setL2w key w).fwOpen = s.fwOpen := rfl
@[simp] theorem State.setL2w_stuck (s : State) (key : Nat) (w : L2w) : (s.setL2w key w).stuck = s.stuck := rfl
@[simp] theorem State.setL2w_landed (s : State) (key : Nat) (w : L2w) : (s.setL2w key w).landed = s.landed := rfl
@[simp] theorem State.setL2w_putLines (s : State) (key : Nat) (w : L2w) : (s.setL2w key w).putLines = s.putLines := rfl
@[simp] theorem State.setL2w_admitted (s : State) (key : Nat) (w : L2w) : (s.setL2w key w).admitted = s.admitted := rfl
@[simp] theorem State.setL2w_leaves (s : State) (key : Nat) (w : L2w) : (s.setL2w key w).leaves = s.leaves := rfl
@[simp] theorem State.setL2w_pcs (s : State) (key : Nat) (w : L2w) : (s.setL2w key w).pcs = s.pcs := rfl
@[simp] theorem State.setL2w_unsampled (s : State) (key : Nat) (w : L2w) : (s.setL2w key w).unsampled = s.unsampled := rfl

/-! ### updGang -/

@[simp] theorem State.updGang_tick (s : State) (n : Nat) (f : Gang → Gang) : (s.updGang n f).tick = s.tick := rfl
@[simp] theorem State.updGang_serial (s : State) (n : Nat) (f : Gang → Gang) : (s.updGang n f).serial = s.serial := rfl
@[simp] theorem State.updGang_agenda (s : State) (n : Nat) (f : Gang → Gang) : (s.updGang n f).agenda = s.agenda := rfl
@[simp] theorem State.updGang_due (s : State) (n : Nat) (f : Gang → Gang) : (s.updGang n f).due = s.due := rfl
@[simp] theorem State.updGang_turn (s : State) (n : Nat) (f : Gang → Gang) : (s.updGang n f).turn = s.turn := rfl
@[simp] theorem State.updGang_cur (s : State) (n : Nat) (f : Gang → Gang) : (s.updGang n f).cur = s.cur := rfl
@[simp] theorem State.updGang_blocked (s : State) (n : Nat) (f : Gang → Gang) : (s.updGang n f).blocked = s.blocked := rfl
@[simp] theorem State.updGang_slotTurn (s : State) (n : Nat) (f : Gang → Gang) : (s.updGang n f).slotTurn = s.slotTurn := rfl
@[simp] theorem State.updGang_pairs (s : State) (n : Nat) (f : Gang → Gang) : (s.updGang n f).pairs = s.pairs := rfl
@[simp] theorem State.updGang_shares (s : State) (n : Nat) (f : Gang → Gang) : (s.updGang n f).shares = s.shares := rfl
@[simp] theorem State.updGang_paid (s : State) (n : Nat) (f : Gang → Gang) : (s.updGang n f).paid = s.paid := rfl
@[simp] theorem State.updGang_pkg (s : State) (n : Nat) (f : Gang → Gang) : (s.updGang n f).pkg = s.pkg := rfl
@[simp] theorem State.updGang_cell (s : State) (n : Nat) (f : Gang → Gang) : (s.updGang n f).cell = s.cell := rfl
@[simp] theorem State.updGang_numbered (s : State) (n : Nat) (f : Gang → Gang) : (s.updGang n f).numbered = s.numbered := rfl
@[simp] theorem State.updGang_form (s : State) (n : Nat) (f : Gang → Gang) : (s.updGang n f).form = s.form := rfl
@[simp] theorem State.updGang_bringUp (s : State) (n : Nat) (f : Gang → Gang) : (s.updGang n f).bringUp = s.bringUp := rfl
@[simp] theorem State.updGang_stopped (s : State) (n : Nat) (f : Gang → Gang) : (s.updGang n f).stopped = s.stopped := rfl
@[simp] theorem State.updGang_imageVersion (s : State) (n : Nat) (f : Gang → Gang) : (s.updGang n f).imageVersion = s.imageVersion := rfl
@[simp] theorem State.updGang_minVersion (s : State) (n : Nat) (f : Gang → Gang) : (s.updGang n f).minVersion = s.minVersion := rfl
@[simp] theorem State.updGang_identity (s : State) (n : Nat) (f : Gang → Gang) : (s.updGang n f).identity = s.identity := rfl
@[simp] theorem State.updGang_imageDigest (s : State) (n : Nat) (f : Gang → Gang) : (s.updGang n f).imageDigest = s.imageDigest := rfl
@[simp] theorem State.updGang_blobDigest (s : State) (n : Nat) (f : Gang → Gang) : (s.updGang n f).blobDigest = s.blobDigest := rfl
@[simp] theorem State.updGang_caps (s : State) (n : Nat) (f : Gang → Gang) : (s.updGang n f).caps = s.caps := rfl
@[simp] theorem State.updGang_boiling (s : State) (n : Nat) (f : Gang → Gang) : (s.updGang n f).boiling = s.boiling := rfl
@[simp] theorem State.updGang_power (s : State) (n : Nat) (f : Gang → Gang) : (s.updGang n f).power = s.power := rfl
@[simp] theorem State.updGang_throttled (s : State) (n : Nat) (f : Gang → Gang) : (s.updGang n f).throttled = s.throttled := rfl
@[simp] theorem State.updGang_trips (s : State) (n : Nat) (f : Gang → Gang) : (s.updGang n f).trips = s.trips := rfl
@[simp] theorem State.updGang_lastReport (s : State) (n : Nat) (f : Gang → Gang) : (s.updGang n f).lastReport = s.lastReport := rfl
@[simp] theorem State.updGang_thresholds (s : State) (n : Nat) (f : Gang → Gang) : (s.updGang n f).thresholds = s.thresholds := rfl
@[simp] theorem State.updGang_readings (s : State) (n : Nat) (f : Gang → Gang) : (s.updGang n f).readings = s.readings := rfl
@[simp] theorem State.updGang_scrub (s : State) (n : Nat) (f : Gang → Gang) : (s.updGang n f).scrub = s.scrub := rfl
@[simp] theorem State.updGang_softErrors (s : State) (n : Nat) (f : Gang → Gang) : (s.updGang n f).softErrors = s.softErrors := rfl
@[simp] theorem State.updGang_regs (s : State) (n : Nat) (f : Gang → Gang) : (s.updGang n f).regs = s.regs := rfl
@[simp] theorem State.updGang_msgs (s : State) (n : Nat) (f : Gang → Gang) : (s.updGang n f).msgs = s.msgs := rfl
@[simp] theorem State.updGang_lantern (s : State) (n : Nat) (f : Gang → Gang) : (s.updGang n f).lantern = s.lantern := rfl
@[simp] theorem State.updGang_ctx (s : State) (n : Nat) (f : Gang → Gang) : (s.updGang n f).ctx = s.ctx := rfl
@[simp] theorem State.updGang_aqi (s : State) (n : Nat) (f : Gang → Gang) : (s.updGang n f).aqi = s.aqi := rfl
@[simp] theorem State.updGang_remap (s : State) (n : Nat) (f : Gang → Gang) : (s.updGang n f).remap = s.remap := rfl
@[simp] theorem State.updGang_grants (s : State) (n : Nat) (f : Gang → Gang) : (s.updGang n f).grants = s.grants := rfl
@[simp] theorem State.updGang_lastPacket (s : State) (n : Nat) (f : Gang → Gang) : (s.updGang n f).lastPacket = s.lastPacket := rfl
@[simp] theorem State.updGang_kernels (s : State) (n : Nat) (f : Gang → Gang) : (s.updGang n f).kernels = s.kernels := rfl
@[simp] theorem State.updGang_groups (s : State) (n : Nat) (f : Gang → Gang) : (s.updGang n f).groups = s.groups := rfl
@[simp] theorem State.updGang_reserve (s : State) (n : Nat) (f : Gang → Gang) : (s.updGang n f).reserve = s.reserve := rfl
@[simp] theorem State.updGang_mem (s : State) (n : Nat) (f : Gang → Gang) : (s.updGang n f).mem = s.mem := rfl
@[simp] theorem State.updGang_pline (s : State) (n : Nat) (f : Gang → Gang) : (s.updGang n f).pline = s.pline := rfl
@[simp] theorem State.updGang_dir (s : State) (n : Nat) (f : Gang → Gang) : (s.updGang n f).dir = s.dir := rfl
@[simp] theorem State.updGang_homes (s : State) (n : Nat) (f : Gang → Gang) : (s.updGang n f).homes = s.homes := rfl
@[simp] theorem State.updGang_cores (s : State) (n : Nat) (f : Gang → Gang) : (s.updGang n f).cores = s.cores := rfl
@[simp] theorem State.updGang_owned (s : State) (n : Nat) (f : Gang → Gang) : (s.updGang n f).owned = s.owned := rfl
@[simp] theorem State.updGang_ownAsks (s : State) (n : Nat) (f : Gang → Gang) : (s.updGang n f).ownAsks = s.ownAsks := rfl
@[simp] theorem State.updGang_granted (s : State) (n : Nat) (f : Gang → Gang) : (s.updGang n f).granted = s.granted := rfl
@[simp] theorem State.updGang_hostShared (s : State) (n : Nat) (f : Gang → Gang) : (s.updGang n f).hostShared = s.hostShared := rfl
@[simp] theorem State.updGang_wts (s : State) (n : Nat) (f : Gang → Gang) : (s.updGang n f).wts = s.wts := rfl
@[simp] theorem State.updGang_hot (s : State) (n : Nat) (f : Gang → Gang) : (s.updGang n f).hot = s.hot := rfl
@[simp] theorem State.updGang_transfers (s : State) (n : Nat) (f : Gang → Gang) : (s.updGang n f).transfers = s.transfers := rfl
@[simp] theorem State.updGang_lastOwner (s : State) (n : Nat) (f : Gang → Gang) : (s.updGang n f).lastOwner = s.lastOwner := rfl
@[simp] theorem State.updGang_migrated (s : State) (n : Nat) (f : Gang → Gang) : (s.updGang n f).migrated = s.migrated := rfl
@[simp] theorem State.updGang_tlb (s : State) (n : Nat) (f : Gang → Gang) : (s.updGang n f).tlb = s.tlb := rfl
@[simp] theorem State.updGang_sectorTlb (s : State) (n : Nat) (f : Gang → Gang) : (s.updGang n f).sectorTlb = s.sectorTlb := rfl
@[simp] theorem State.updGang_walks (s : State) (n : Nat) (f : Gang → Gang) : (s.updGang n f).walks = s.walks := rfl
@[simp] theorem State.updGang_tier (s : State) (n : Nat) (f : Gang → Gang) : (s.updGang n f).tier = s.tier := rfl
@[simp] theorem State.updGang_firewall (s : State) (n : Nat) (f : Gang → Gang) : (s.updGang n f).firewall = s.firewall := rfl
@[simp] theorem State.updGang_l2w (s : State) (n : Nat) (f : Gang → Gang) : (s.updGang n f).l2w = s.l2w := rfl
@[simp] theorem State.updGang_pageReqs (s : State) (n : Nat) (f : Gang → Gang) : (s.updGang n f).pageReqs = s.pageReqs := rfl
@[simp] theorem State.updGang_copies (s : State) (n : Nat) (f : Gang → Gang) : (s.updGang n f).copies = s.copies := rfl
@[simp] theorem State.updGang_puts (s : State) (n : Nat) (f : Gang → Gang) : (s.updGang n f).puts = s.puts := rfl
@[simp] theorem State.updGang_admits (s : State) (n : Nat) (f : Gang → Gang) : (s.updGang n f).admits = s.admits := rfl
@[simp] theorem State.updGang_engines (s : State) (n : Nat) (f : Gang → Gang) : (s.updGang n f).engines = s.engines := rfl
@[simp] theorem State.updGang_shapes (s : State) (n : Nat) (f : Gang → Gang) : (s.updGang n f).shapes = s.shapes := rfl
@[simp] theorem State.updGang_contribs (s : State) (n : Nat) (f : Gang → Gang) : (s.updGang n f).contribs = s.contribs := rfl
@[simp] theorem State.updGang_trees (s : State) (n : Nat) (f : Gang → Gang) : (s.updGang n f).trees = s.trees := rfl
@[simp] theorem State.updGang_lastTag (s : State) (n : Nat) (f : Gang → Gang) : (s.updGang n f).lastTag = s.lastTag := rfl
@[simp] theorem State.updGang_waits (s : State) (n : Nat) (f : Gang → Gang) : (s.updGang n f).waits = s.waits := rfl
@[simp] theorem State.updGang_cells (s : State) (n : Nat) (f : Gang → Gang) : (s.updGang n f).cells = s.cells := rfl
@[simp] theorem State.updGang_ports (s : State) (n : Nat) (f : Gang → Gang) : (s.updGang n f).ports = s.ports := rfl
@[simp] theorem State.updGang_slots (s : State) (n : Nat) (f : Gang → Gang) : (s.updGang n f).slots = s.slots := rfl
@[simp] theorem State.updGang_active (s : State) (n : Nat) (f : Gang → Gang) : (s.updGang n f).active = s.active := rfl
@[simp] theorem State.updGang_tgen (s : State) (n : Nat) (f : Gang → Gang) : (s.updGang n f).tgen = s.tgen := rfl
@[simp] theorem State.updGang_round (s : State) (n : Nat) (f : Gang → Gang) : (s.updGang n f).round = s.round := rfl
@[simp] theorem State.updGang_seqs (s : State) (n : Nat) (f : Gang → Gang) : (s.updGang n f).seqs = s.seqs := rfl
@[simp] theorem State.updGang_early (s : State) (n : Nat) (f : Gang → Gang) : (s.updGang n f).early = s.early := rfl
@[simp] theorem State.updGang_outSeq (s : State) (n : Nat) (f : Gang → Gang) : (s.updGang n f).outSeq = s.outSeq := rfl
@[simp] theorem State.updGang_asks (s : State) (n : Nat) (f : Gang → Gang) : (s.updGang n f).asks = s.asks := rfl
@[simp] theorem State.updGang_recalls (s : State) (n : Nat) (f : Gang → Gang) : (s.updGang n f).recalls = s.recalls := rfl
@[simp] theorem State.updGang_fwOpen (s : State) (n : Nat) (f : Gang → Gang) : (s.updGang n f).fwOpen = s.fwOpen := rfl
@[simp] theorem State.updGang_stuck (s : State) (n : Nat) (f : Gang → Gang) : (s.updGang n f).stuck = s.stuck := rfl
@[simp] theorem State.updGang_landed (s : State) (n : Nat) (f : Gang → Gang) : (s.updGang n f).landed = s.landed := rfl
@[simp] theorem State.updGang_putLines (s : State) (n : Nat) (f : Gang → Gang) : (s.updGang n f).putLines = s.putLines := rfl
@[simp] theorem State.updGang_admitted (s : State) (n : Nat) (f : Gang → Gang) : (s.updGang n f).admitted = s.admitted := rfl
@[simp] theorem State.updGang_leaves (s : State) (n : Nat) (f : Gang → Gang) : (s.updGang n f).leaves = s.leaves := rfl
@[simp] theorem State.updGang_pcs (s : State) (n : Nat) (f : Gang → Gang) : (s.updGang n f).pcs = s.pcs := rfl
@[simp] theorem State.updGang_unsampled (s : State) (n : Nat) (f : Gang → Gang) : (s.updGang n f).unsampled = s.unsampled := rfl

/-! ### setCore -/

@[simp] theorem State.setCore_tick (s : State) (c : Nat) (x : Core) : (s.setCore c x).tick = s.tick := rfl
@[simp] theorem State.setCore_serial (s : State) (c : Nat) (x : Core) : (s.setCore c x).serial = s.serial := rfl
@[simp] theorem State.setCore_agenda (s : State) (c : Nat) (x : Core) : (s.setCore c x).agenda = s.agenda := rfl
@[simp] theorem State.setCore_due (s : State) (c : Nat) (x : Core) : (s.setCore c x).due = s.due := rfl
@[simp] theorem State.setCore_turn (s : State) (c : Nat) (x : Core) : (s.setCore c x).turn = s.turn := rfl
@[simp] theorem State.setCore_cur (s : State) (c : Nat) (x : Core) : (s.setCore c x).cur = s.cur := rfl
@[simp] theorem State.setCore_blocked (s : State) (c : Nat) (x : Core) : (s.setCore c x).blocked = s.blocked := rfl
@[simp] theorem State.setCore_slotTurn (s : State) (c : Nat) (x : Core) : (s.setCore c x).slotTurn = s.slotTurn := rfl
@[simp] theorem State.setCore_pairs (s : State) (c : Nat) (x : Core) : (s.setCore c x).pairs = s.pairs := rfl
@[simp] theorem State.setCore_shares (s : State) (c : Nat) (x : Core) : (s.setCore c x).shares = s.shares := rfl
@[simp] theorem State.setCore_paid (s : State) (c : Nat) (x : Core) : (s.setCore c x).paid = s.paid := rfl
@[simp] theorem State.setCore_pkg (s : State) (c : Nat) (x : Core) : (s.setCore c x).pkg = s.pkg := rfl
@[simp] theorem State.setCore_cell (s : State) (c : Nat) (x : Core) : (s.setCore c x).cell = s.cell := rfl
@[simp] theorem State.setCore_numbered (s : State) (c : Nat) (x : Core) : (s.setCore c x).numbered = s.numbered := rfl
@[simp] theorem State.setCore_form (s : State) (c : Nat) (x : Core) : (s.setCore c x).form = s.form := rfl
@[simp] theorem State.setCore_bringUp (s : State) (c : Nat) (x : Core) : (s.setCore c x).bringUp = s.bringUp := rfl
@[simp] theorem State.setCore_stopped (s : State) (c : Nat) (x : Core) : (s.setCore c x).stopped = s.stopped := rfl
@[simp] theorem State.setCore_imageVersion (s : State) (c : Nat) (x : Core) : (s.setCore c x).imageVersion = s.imageVersion := rfl
@[simp] theorem State.setCore_minVersion (s : State) (c : Nat) (x : Core) : (s.setCore c x).minVersion = s.minVersion := rfl
@[simp] theorem State.setCore_identity (s : State) (c : Nat) (x : Core) : (s.setCore c x).identity = s.identity := rfl
@[simp] theorem State.setCore_imageDigest (s : State) (c : Nat) (x : Core) : (s.setCore c x).imageDigest = s.imageDigest := rfl
@[simp] theorem State.setCore_blobDigest (s : State) (c : Nat) (x : Core) : (s.setCore c x).blobDigest = s.blobDigest := rfl
@[simp] theorem State.setCore_caps (s : State) (c : Nat) (x : Core) : (s.setCore c x).caps = s.caps := rfl
@[simp] theorem State.setCore_boiling (s : State) (c : Nat) (x : Core) : (s.setCore c x).boiling = s.boiling := rfl
@[simp] theorem State.setCore_power (s : State) (c : Nat) (x : Core) : (s.setCore c x).power = s.power := rfl
@[simp] theorem State.setCore_throttled (s : State) (c : Nat) (x : Core) : (s.setCore c x).throttled = s.throttled := rfl
@[simp] theorem State.setCore_trips (s : State) (c : Nat) (x : Core) : (s.setCore c x).trips = s.trips := rfl
@[simp] theorem State.setCore_lastReport (s : State) (c : Nat) (x : Core) : (s.setCore c x).lastReport = s.lastReport := rfl
@[simp] theorem State.setCore_thresholds (s : State) (c : Nat) (x : Core) : (s.setCore c x).thresholds = s.thresholds := rfl
@[simp] theorem State.setCore_readings (s : State) (c : Nat) (x : Core) : (s.setCore c x).readings = s.readings := rfl
@[simp] theorem State.setCore_scrub (s : State) (c : Nat) (x : Core) : (s.setCore c x).scrub = s.scrub := rfl
@[simp] theorem State.setCore_softErrors (s : State) (c : Nat) (x : Core) : (s.setCore c x).softErrors = s.softErrors := rfl
@[simp] theorem State.setCore_regs (s : State) (c : Nat) (x : Core) : (s.setCore c x).regs = s.regs := rfl
@[simp] theorem State.setCore_msgs (s : State) (c : Nat) (x : Core) : (s.setCore c x).msgs = s.msgs := rfl
@[simp] theorem State.setCore_lantern (s : State) (c : Nat) (x : Core) : (s.setCore c x).lantern = s.lantern := rfl
@[simp] theorem State.setCore_ctx (s : State) (c : Nat) (x : Core) : (s.setCore c x).ctx = s.ctx := rfl
@[simp] theorem State.setCore_aqi (s : State) (c : Nat) (x : Core) : (s.setCore c x).aqi = s.aqi := rfl
@[simp] theorem State.setCore_remap (s : State) (c : Nat) (x : Core) : (s.setCore c x).remap = s.remap := rfl
@[simp] theorem State.setCore_grants (s : State) (c : Nat) (x : Core) : (s.setCore c x).grants = s.grants := rfl
@[simp] theorem State.setCore_lastPacket (s : State) (c : Nat) (x : Core) : (s.setCore c x).lastPacket = s.lastPacket := rfl
@[simp] theorem State.setCore_kernels (s : State) (c : Nat) (x : Core) : (s.setCore c x).kernels = s.kernels := rfl
@[simp] theorem State.setCore_gangs (s : State) (c : Nat) (x : Core) : (s.setCore c x).gangs = s.gangs := rfl
@[simp] theorem State.setCore_groups (s : State) (c : Nat) (x : Core) : (s.setCore c x).groups = s.groups := rfl
@[simp] theorem State.setCore_reserve (s : State) (c : Nat) (x : Core) : (s.setCore c x).reserve = s.reserve := rfl
@[simp] theorem State.setCore_mem (s : State) (c : Nat) (x : Core) : (s.setCore c x).mem = s.mem := rfl
@[simp] theorem State.setCore_pline (s : State) (c : Nat) (x : Core) : (s.setCore c x).pline = s.pline := rfl
@[simp] theorem State.setCore_dir (s : State) (c : Nat) (x : Core) : (s.setCore c x).dir = s.dir := rfl
@[simp] theorem State.setCore_homes (s : State) (c : Nat) (x : Core) : (s.setCore c x).homes = s.homes := rfl
@[simp] theorem State.setCore_owned (s : State) (c : Nat) (x : Core) : (s.setCore c x).owned = s.owned := rfl
@[simp] theorem State.setCore_ownAsks (s : State) (c : Nat) (x : Core) : (s.setCore c x).ownAsks = s.ownAsks := rfl
@[simp] theorem State.setCore_granted (s : State) (c : Nat) (x : Core) : (s.setCore c x).granted = s.granted := rfl
@[simp] theorem State.setCore_hostShared (s : State) (c : Nat) (x : Core) : (s.setCore c x).hostShared = s.hostShared := rfl
@[simp] theorem State.setCore_wts (s : State) (c : Nat) (x : Core) : (s.setCore c x).wts = s.wts := rfl
@[simp] theorem State.setCore_hot (s : State) (c : Nat) (x : Core) : (s.setCore c x).hot = s.hot := rfl
@[simp] theorem State.setCore_transfers (s : State) (c : Nat) (x : Core) : (s.setCore c x).transfers = s.transfers := rfl
@[simp] theorem State.setCore_lastOwner (s : State) (c : Nat) (x : Core) : (s.setCore c x).lastOwner = s.lastOwner := rfl
@[simp] theorem State.setCore_migrated (s : State) (c : Nat) (x : Core) : (s.setCore c x).migrated = s.migrated := rfl
@[simp] theorem State.setCore_tlb (s : State) (c : Nat) (x : Core) : (s.setCore c x).tlb = s.tlb := rfl
@[simp] theorem State.setCore_sectorTlb (s : State) (c : Nat) (x : Core) : (s.setCore c x).sectorTlb = s.sectorTlb := rfl
@[simp] theorem State.setCore_walks (s : State) (c : Nat) (x : Core) : (s.setCore c x).walks = s.walks := rfl
@[simp] theorem State.setCore_tier (s : State) (c : Nat) (x : Core) : (s.setCore c x).tier = s.tier := rfl
@[simp] theorem State.setCore_firewall (s : State) (c : Nat) (x : Core) : (s.setCore c x).firewall = s.firewall := rfl
@[simp] theorem State.setCore_l2w (s : State) (c : Nat) (x : Core) : (s.setCore c x).l2w = s.l2w := rfl
@[simp] theorem State.setCore_pageReqs (s : State) (c : Nat) (x : Core) : (s.setCore c x).pageReqs = s.pageReqs := rfl
@[simp] theorem State.setCore_copies (s : State) (c : Nat) (x : Core) : (s.setCore c x).copies = s.copies := rfl
@[simp] theorem State.setCore_puts (s : State) (c : Nat) (x : Core) : (s.setCore c x).puts = s.puts := rfl
@[simp] theorem State.setCore_admits (s : State) (c : Nat) (x : Core) : (s.setCore c x).admits = s.admits := rfl
@[simp] theorem State.setCore_engines (s : State) (c : Nat) (x : Core) : (s.setCore c x).engines = s.engines := rfl
@[simp] theorem State.setCore_shapes (s : State) (c : Nat) (x : Core) : (s.setCore c x).shapes = s.shapes := rfl
@[simp] theorem State.setCore_contribs (s : State) (c : Nat) (x : Core) : (s.setCore c x).contribs = s.contribs := rfl
@[simp] theorem State.setCore_trees (s : State) (c : Nat) (x : Core) : (s.setCore c x).trees = s.trees := rfl
@[simp] theorem State.setCore_lastTag (s : State) (c : Nat) (x : Core) : (s.setCore c x).lastTag = s.lastTag := rfl
@[simp] theorem State.setCore_waits (s : State) (c : Nat) (x : Core) : (s.setCore c x).waits = s.waits := rfl
@[simp] theorem State.setCore_cells (s : State) (c : Nat) (x : Core) : (s.setCore c x).cells = s.cells := rfl
@[simp] theorem State.setCore_ports (s : State) (c : Nat) (x : Core) : (s.setCore c x).ports = s.ports := rfl
@[simp] theorem State.setCore_slots (s : State) (c : Nat) (x : Core) : (s.setCore c x).slots = s.slots := rfl
@[simp] theorem State.setCore_active (s : State) (c : Nat) (x : Core) : (s.setCore c x).active = s.active := rfl
@[simp] theorem State.setCore_tgen (s : State) (c : Nat) (x : Core) : (s.setCore c x).tgen = s.tgen := rfl
@[simp] theorem State.setCore_round (s : State) (c : Nat) (x : Core) : (s.setCore c x).round = s.round := rfl
@[simp] theorem State.setCore_seqs (s : State) (c : Nat) (x : Core) : (s.setCore c x).seqs = s.seqs := rfl
@[simp] theorem State.setCore_early (s : State) (c : Nat) (x : Core) : (s.setCore c x).early = s.early := rfl
@[simp] theorem State.setCore_outSeq (s : State) (c : Nat) (x : Core) : (s.setCore c x).outSeq = s.outSeq := rfl
@[simp] theorem State.setCore_asks (s : State) (c : Nat) (x : Core) : (s.setCore c x).asks = s.asks := rfl
@[simp] theorem State.setCore_recalls (s : State) (c : Nat) (x : Core) : (s.setCore c x).recalls = s.recalls := rfl
@[simp] theorem State.setCore_fwOpen (s : State) (c : Nat) (x : Core) : (s.setCore c x).fwOpen = s.fwOpen := rfl
@[simp] theorem State.setCore_stuck (s : State) (c : Nat) (x : Core) : (s.setCore c x).stuck = s.stuck := rfl
@[simp] theorem State.setCore_landed (s : State) (c : Nat) (x : Core) : (s.setCore c x).landed = s.landed := rfl
@[simp] theorem State.setCore_putLines (s : State) (c : Nat) (x : Core) : (s.setCore c x).putLines = s.putLines := rfl
@[simp] theorem State.setCore_admitted (s : State) (c : Nat) (x : Core) : (s.setCore c x).admitted = s.admitted := rfl
@[simp] theorem State.setCore_leaves (s : State) (c : Nat) (x : Core) : (s.setCore c x).leaves = s.leaves := rfl
@[simp] theorem State.setCore_pcs (s : State) (c : Nat) (x : Core) : (s.setCore c x).pcs = s.pcs := rfl
@[simp] theorem State.setCore_unsampled (s : State) (c : Nat) (x : Core) : (s.setCore c x).unsampled = s.unsampled := rfl

/-! ### setEngine -/

@[simp] theorem State.setEngine_tick (s : State) (c : Nat) (x : Engine) : (s.setEngine c x).tick = s.tick := rfl
@[simp] theorem State.setEngine_serial (s : State) (c : Nat) (x : Engine) : (s.setEngine c x).serial = s.serial := rfl
@[simp] theorem State.setEngine_agenda (s : State) (c : Nat) (x : Engine) : (s.setEngine c x).agenda = s.agenda := rfl
@[simp] theorem State.setEngine_due (s : State) (c : Nat) (x : Engine) : (s.setEngine c x).due = s.due := rfl
@[simp] theorem State.setEngine_turn (s : State) (c : Nat) (x : Engine) : (s.setEngine c x).turn = s.turn := rfl
@[simp] theorem State.setEngine_cur (s : State) (c : Nat) (x : Engine) : (s.setEngine c x).cur = s.cur := rfl
@[simp] theorem State.setEngine_blocked (s : State) (c : Nat) (x : Engine) : (s.setEngine c x).blocked = s.blocked := rfl
@[simp] theorem State.setEngine_slotTurn (s : State) (c : Nat) (x : Engine) : (s.setEngine c x).slotTurn = s.slotTurn := rfl
@[simp] theorem State.setEngine_pairs (s : State) (c : Nat) (x : Engine) : (s.setEngine c x).pairs = s.pairs := rfl
@[simp] theorem State.setEngine_shares (s : State) (c : Nat) (x : Engine) : (s.setEngine c x).shares = s.shares := rfl
@[simp] theorem State.setEngine_paid (s : State) (c : Nat) (x : Engine) : (s.setEngine c x).paid = s.paid := rfl
@[simp] theorem State.setEngine_pkg (s : State) (c : Nat) (x : Engine) : (s.setEngine c x).pkg = s.pkg := rfl
@[simp] theorem State.setEngine_cell (s : State) (c : Nat) (x : Engine) : (s.setEngine c x).cell = s.cell := rfl
@[simp] theorem State.setEngine_numbered (s : State) (c : Nat) (x : Engine) : (s.setEngine c x).numbered = s.numbered := rfl
@[simp] theorem State.setEngine_form (s : State) (c : Nat) (x : Engine) : (s.setEngine c x).form = s.form := rfl
@[simp] theorem State.setEngine_bringUp (s : State) (c : Nat) (x : Engine) : (s.setEngine c x).bringUp = s.bringUp := rfl
@[simp] theorem State.setEngine_stopped (s : State) (c : Nat) (x : Engine) : (s.setEngine c x).stopped = s.stopped := rfl
@[simp] theorem State.setEngine_imageVersion (s : State) (c : Nat) (x : Engine) : (s.setEngine c x).imageVersion = s.imageVersion := rfl
@[simp] theorem State.setEngine_minVersion (s : State) (c : Nat) (x : Engine) : (s.setEngine c x).minVersion = s.minVersion := rfl
@[simp] theorem State.setEngine_identity (s : State) (c : Nat) (x : Engine) : (s.setEngine c x).identity = s.identity := rfl
@[simp] theorem State.setEngine_imageDigest (s : State) (c : Nat) (x : Engine) : (s.setEngine c x).imageDigest = s.imageDigest := rfl
@[simp] theorem State.setEngine_blobDigest (s : State) (c : Nat) (x : Engine) : (s.setEngine c x).blobDigest = s.blobDigest := rfl
@[simp] theorem State.setEngine_caps (s : State) (c : Nat) (x : Engine) : (s.setEngine c x).caps = s.caps := rfl
@[simp] theorem State.setEngine_boiling (s : State) (c : Nat) (x : Engine) : (s.setEngine c x).boiling = s.boiling := rfl
@[simp] theorem State.setEngine_power (s : State) (c : Nat) (x : Engine) : (s.setEngine c x).power = s.power := rfl
@[simp] theorem State.setEngine_throttled (s : State) (c : Nat) (x : Engine) : (s.setEngine c x).throttled = s.throttled := rfl
@[simp] theorem State.setEngine_trips (s : State) (c : Nat) (x : Engine) : (s.setEngine c x).trips = s.trips := rfl
@[simp] theorem State.setEngine_lastReport (s : State) (c : Nat) (x : Engine) : (s.setEngine c x).lastReport = s.lastReport := rfl
@[simp] theorem State.setEngine_thresholds (s : State) (c : Nat) (x : Engine) : (s.setEngine c x).thresholds = s.thresholds := rfl
@[simp] theorem State.setEngine_readings (s : State) (c : Nat) (x : Engine) : (s.setEngine c x).readings = s.readings := rfl
@[simp] theorem State.setEngine_scrub (s : State) (c : Nat) (x : Engine) : (s.setEngine c x).scrub = s.scrub := rfl
@[simp] theorem State.setEngine_softErrors (s : State) (c : Nat) (x : Engine) : (s.setEngine c x).softErrors = s.softErrors := rfl
@[simp] theorem State.setEngine_regs (s : State) (c : Nat) (x : Engine) : (s.setEngine c x).regs = s.regs := rfl
@[simp] theorem State.setEngine_msgs (s : State) (c : Nat) (x : Engine) : (s.setEngine c x).msgs = s.msgs := rfl
@[simp] theorem State.setEngine_lantern (s : State) (c : Nat) (x : Engine) : (s.setEngine c x).lantern = s.lantern := rfl
@[simp] theorem State.setEngine_ctx (s : State) (c : Nat) (x : Engine) : (s.setEngine c x).ctx = s.ctx := rfl
@[simp] theorem State.setEngine_aqi (s : State) (c : Nat) (x : Engine) : (s.setEngine c x).aqi = s.aqi := rfl
@[simp] theorem State.setEngine_remap (s : State) (c : Nat) (x : Engine) : (s.setEngine c x).remap = s.remap := rfl
@[simp] theorem State.setEngine_grants (s : State) (c : Nat) (x : Engine) : (s.setEngine c x).grants = s.grants := rfl
@[simp] theorem State.setEngine_lastPacket (s : State) (c : Nat) (x : Engine) : (s.setEngine c x).lastPacket = s.lastPacket := rfl
@[simp] theorem State.setEngine_kernels (s : State) (c : Nat) (x : Engine) : (s.setEngine c x).kernels = s.kernels := rfl
@[simp] theorem State.setEngine_gangs (s : State) (c : Nat) (x : Engine) : (s.setEngine c x).gangs = s.gangs := rfl
@[simp] theorem State.setEngine_groups (s : State) (c : Nat) (x : Engine) : (s.setEngine c x).groups = s.groups := rfl
@[simp] theorem State.setEngine_reserve (s : State) (c : Nat) (x : Engine) : (s.setEngine c x).reserve = s.reserve := rfl
@[simp] theorem State.setEngine_mem (s : State) (c : Nat) (x : Engine) : (s.setEngine c x).mem = s.mem := rfl
@[simp] theorem State.setEngine_pline (s : State) (c : Nat) (x : Engine) : (s.setEngine c x).pline = s.pline := rfl
@[simp] theorem State.setEngine_dir (s : State) (c : Nat) (x : Engine) : (s.setEngine c x).dir = s.dir := rfl
@[simp] theorem State.setEngine_homes (s : State) (c : Nat) (x : Engine) : (s.setEngine c x).homes = s.homes := rfl
@[simp] theorem State.setEngine_cores (s : State) (c : Nat) (x : Engine) : (s.setEngine c x).cores = s.cores := rfl
@[simp] theorem State.setEngine_owned (s : State) (c : Nat) (x : Engine) : (s.setEngine c x).owned = s.owned := rfl
@[simp] theorem State.setEngine_ownAsks (s : State) (c : Nat) (x : Engine) : (s.setEngine c x).ownAsks = s.ownAsks := rfl
@[simp] theorem State.setEngine_granted (s : State) (c : Nat) (x : Engine) : (s.setEngine c x).granted = s.granted := rfl
@[simp] theorem State.setEngine_hostShared (s : State) (c : Nat) (x : Engine) : (s.setEngine c x).hostShared = s.hostShared := rfl
@[simp] theorem State.setEngine_wts (s : State) (c : Nat) (x : Engine) : (s.setEngine c x).wts = s.wts := rfl
@[simp] theorem State.setEngine_hot (s : State) (c : Nat) (x : Engine) : (s.setEngine c x).hot = s.hot := rfl
@[simp] theorem State.setEngine_transfers (s : State) (c : Nat) (x : Engine) : (s.setEngine c x).transfers = s.transfers := rfl
@[simp] theorem State.setEngine_lastOwner (s : State) (c : Nat) (x : Engine) : (s.setEngine c x).lastOwner = s.lastOwner := rfl
@[simp] theorem State.setEngine_migrated (s : State) (c : Nat) (x : Engine) : (s.setEngine c x).migrated = s.migrated := rfl
@[simp] theorem State.setEngine_tlb (s : State) (c : Nat) (x : Engine) : (s.setEngine c x).tlb = s.tlb := rfl
@[simp] theorem State.setEngine_sectorTlb (s : State) (c : Nat) (x : Engine) : (s.setEngine c x).sectorTlb = s.sectorTlb := rfl
@[simp] theorem State.setEngine_walks (s : State) (c : Nat) (x : Engine) : (s.setEngine c x).walks = s.walks := rfl
@[simp] theorem State.setEngine_tier (s : State) (c : Nat) (x : Engine) : (s.setEngine c x).tier = s.tier := rfl
@[simp] theorem State.setEngine_firewall (s : State) (c : Nat) (x : Engine) : (s.setEngine c x).firewall = s.firewall := rfl
@[simp] theorem State.setEngine_l2w (s : State) (c : Nat) (x : Engine) : (s.setEngine c x).l2w = s.l2w := rfl
@[simp] theorem State.setEngine_pageReqs (s : State) (c : Nat) (x : Engine) : (s.setEngine c x).pageReqs = s.pageReqs := rfl
@[simp] theorem State.setEngine_copies (s : State) (c : Nat) (x : Engine) : (s.setEngine c x).copies = s.copies := rfl
@[simp] theorem State.setEngine_puts (s : State) (c : Nat) (x : Engine) : (s.setEngine c x).puts = s.puts := rfl
@[simp] theorem State.setEngine_admits (s : State) (c : Nat) (x : Engine) : (s.setEngine c x).admits = s.admits := rfl
@[simp] theorem State.setEngine_shapes (s : State) (c : Nat) (x : Engine) : (s.setEngine c x).shapes = s.shapes := rfl
@[simp] theorem State.setEngine_contribs (s : State) (c : Nat) (x : Engine) : (s.setEngine c x).contribs = s.contribs := rfl
@[simp] theorem State.setEngine_trees (s : State) (c : Nat) (x : Engine) : (s.setEngine c x).trees = s.trees := rfl
@[simp] theorem State.setEngine_lastTag (s : State) (c : Nat) (x : Engine) : (s.setEngine c x).lastTag = s.lastTag := rfl
@[simp] theorem State.setEngine_waits (s : State) (c : Nat) (x : Engine) : (s.setEngine c x).waits = s.waits := rfl
@[simp] theorem State.setEngine_cells (s : State) (c : Nat) (x : Engine) : (s.setEngine c x).cells = s.cells := rfl
@[simp] theorem State.setEngine_ports (s : State) (c : Nat) (x : Engine) : (s.setEngine c x).ports = s.ports := rfl
@[simp] theorem State.setEngine_slots (s : State) (c : Nat) (x : Engine) : (s.setEngine c x).slots = s.slots := rfl
@[simp] theorem State.setEngine_active (s : State) (c : Nat) (x : Engine) : (s.setEngine c x).active = s.active := rfl
@[simp] theorem State.setEngine_tgen (s : State) (c : Nat) (x : Engine) : (s.setEngine c x).tgen = s.tgen := rfl
@[simp] theorem State.setEngine_round (s : State) (c : Nat) (x : Engine) : (s.setEngine c x).round = s.round := rfl
@[simp] theorem State.setEngine_seqs (s : State) (c : Nat) (x : Engine) : (s.setEngine c x).seqs = s.seqs := rfl
@[simp] theorem State.setEngine_early (s : State) (c : Nat) (x : Engine) : (s.setEngine c x).early = s.early := rfl
@[simp] theorem State.setEngine_outSeq (s : State) (c : Nat) (x : Engine) : (s.setEngine c x).outSeq = s.outSeq := rfl
@[simp] theorem State.setEngine_asks (s : State) (c : Nat) (x : Engine) : (s.setEngine c x).asks = s.asks := rfl
@[simp] theorem State.setEngine_recalls (s : State) (c : Nat) (x : Engine) : (s.setEngine c x).recalls = s.recalls := rfl
@[simp] theorem State.setEngine_fwOpen (s : State) (c : Nat) (x : Engine) : (s.setEngine c x).fwOpen = s.fwOpen := rfl
@[simp] theorem State.setEngine_stuck (s : State) (c : Nat) (x : Engine) : (s.setEngine c x).stuck = s.stuck := rfl
@[simp] theorem State.setEngine_landed (s : State) (c : Nat) (x : Engine) : (s.setEngine c x).landed = s.landed := rfl
@[simp] theorem State.setEngine_putLines (s : State) (c : Nat) (x : Engine) : (s.setEngine c x).putLines = s.putLines := rfl
@[simp] theorem State.setEngine_admitted (s : State) (c : Nat) (x : Engine) : (s.setEngine c x).admitted = s.admitted := rfl
@[simp] theorem State.setEngine_leaves (s : State) (c : Nat) (x : Engine) : (s.setEngine c x).leaves = s.leaves := rfl
@[simp] theorem State.setEngine_pcs (s : State) (c : Nat) (x : Engine) : (s.setEngine c x).pcs = s.pcs := rfl
@[simp] theorem State.setEngine_unsampled (s : State) (c : Nat) (x : Engine) : (s.setEngine c x).unsampled = s.unsampled := rfl

/-! ### setCtx -/

@[simp] theorem State.setCtx_tick (s : State) (c : Nat) (x : Ctx) : (s.setCtx c x).tick = s.tick := rfl
@[simp] theorem State.setCtx_serial (s : State) (c : Nat) (x : Ctx) : (s.setCtx c x).serial = s.serial := rfl
@[simp] theorem State.setCtx_agenda (s : State) (c : Nat) (x : Ctx) : (s.setCtx c x).agenda = s.agenda := rfl
@[simp] theorem State.setCtx_due (s : State) (c : Nat) (x : Ctx) : (s.setCtx c x).due = s.due := rfl
@[simp] theorem State.setCtx_turn (s : State) (c : Nat) (x : Ctx) : (s.setCtx c x).turn = s.turn := rfl
@[simp] theorem State.setCtx_cur (s : State) (c : Nat) (x : Ctx) : (s.setCtx c x).cur = s.cur := rfl
@[simp] theorem State.setCtx_blocked (s : State) (c : Nat) (x : Ctx) : (s.setCtx c x).blocked = s.blocked := rfl
@[simp] theorem State.setCtx_slotTurn (s : State) (c : Nat) (x : Ctx) : (s.setCtx c x).slotTurn = s.slotTurn := rfl
@[simp] theorem State.setCtx_pairs (s : State) (c : Nat) (x : Ctx) : (s.setCtx c x).pairs = s.pairs := rfl
@[simp] theorem State.setCtx_shares (s : State) (c : Nat) (x : Ctx) : (s.setCtx c x).shares = s.shares := rfl
@[simp] theorem State.setCtx_paid (s : State) (c : Nat) (x : Ctx) : (s.setCtx c x).paid = s.paid := rfl
@[simp] theorem State.setCtx_pkg (s : State) (c : Nat) (x : Ctx) : (s.setCtx c x).pkg = s.pkg := rfl
@[simp] theorem State.setCtx_cell (s : State) (c : Nat) (x : Ctx) : (s.setCtx c x).cell = s.cell := rfl
@[simp] theorem State.setCtx_numbered (s : State) (c : Nat) (x : Ctx) : (s.setCtx c x).numbered = s.numbered := rfl
@[simp] theorem State.setCtx_form (s : State) (c : Nat) (x : Ctx) : (s.setCtx c x).form = s.form := rfl
@[simp] theorem State.setCtx_bringUp (s : State) (c : Nat) (x : Ctx) : (s.setCtx c x).bringUp = s.bringUp := rfl
@[simp] theorem State.setCtx_stopped (s : State) (c : Nat) (x : Ctx) : (s.setCtx c x).stopped = s.stopped := rfl
@[simp] theorem State.setCtx_imageVersion (s : State) (c : Nat) (x : Ctx) : (s.setCtx c x).imageVersion = s.imageVersion := rfl
@[simp] theorem State.setCtx_minVersion (s : State) (c : Nat) (x : Ctx) : (s.setCtx c x).minVersion = s.minVersion := rfl
@[simp] theorem State.setCtx_identity (s : State) (c : Nat) (x : Ctx) : (s.setCtx c x).identity = s.identity := rfl
@[simp] theorem State.setCtx_imageDigest (s : State) (c : Nat) (x : Ctx) : (s.setCtx c x).imageDigest = s.imageDigest := rfl
@[simp] theorem State.setCtx_blobDigest (s : State) (c : Nat) (x : Ctx) : (s.setCtx c x).blobDigest = s.blobDigest := rfl
@[simp] theorem State.setCtx_caps (s : State) (c : Nat) (x : Ctx) : (s.setCtx c x).caps = s.caps := rfl
@[simp] theorem State.setCtx_boiling (s : State) (c : Nat) (x : Ctx) : (s.setCtx c x).boiling = s.boiling := rfl
@[simp] theorem State.setCtx_power (s : State) (c : Nat) (x : Ctx) : (s.setCtx c x).power = s.power := rfl
@[simp] theorem State.setCtx_throttled (s : State) (c : Nat) (x : Ctx) : (s.setCtx c x).throttled = s.throttled := rfl
@[simp] theorem State.setCtx_trips (s : State) (c : Nat) (x : Ctx) : (s.setCtx c x).trips = s.trips := rfl
@[simp] theorem State.setCtx_lastReport (s : State) (c : Nat) (x : Ctx) : (s.setCtx c x).lastReport = s.lastReport := rfl
@[simp] theorem State.setCtx_thresholds (s : State) (c : Nat) (x : Ctx) : (s.setCtx c x).thresholds = s.thresholds := rfl
@[simp] theorem State.setCtx_readings (s : State) (c : Nat) (x : Ctx) : (s.setCtx c x).readings = s.readings := rfl
@[simp] theorem State.setCtx_scrub (s : State) (c : Nat) (x : Ctx) : (s.setCtx c x).scrub = s.scrub := rfl
@[simp] theorem State.setCtx_softErrors (s : State) (c : Nat) (x : Ctx) : (s.setCtx c x).softErrors = s.softErrors := rfl
@[simp] theorem State.setCtx_regs (s : State) (c : Nat) (x : Ctx) : (s.setCtx c x).regs = s.regs := rfl
@[simp] theorem State.setCtx_msgs (s : State) (c : Nat) (x : Ctx) : (s.setCtx c x).msgs = s.msgs := rfl
@[simp] theorem State.setCtx_lantern (s : State) (c : Nat) (x : Ctx) : (s.setCtx c x).lantern = s.lantern := rfl
@[simp] theorem State.setCtx_aqi (s : State) (c : Nat) (x : Ctx) : (s.setCtx c x).aqi = s.aqi := rfl
@[simp] theorem State.setCtx_remap (s : State) (c : Nat) (x : Ctx) : (s.setCtx c x).remap = s.remap := rfl
@[simp] theorem State.setCtx_grants (s : State) (c : Nat) (x : Ctx) : (s.setCtx c x).grants = s.grants := rfl
@[simp] theorem State.setCtx_lastPacket (s : State) (c : Nat) (x : Ctx) : (s.setCtx c x).lastPacket = s.lastPacket := rfl
@[simp] theorem State.setCtx_kernels (s : State) (c : Nat) (x : Ctx) : (s.setCtx c x).kernels = s.kernels := rfl
@[simp] theorem State.setCtx_gangs (s : State) (c : Nat) (x : Ctx) : (s.setCtx c x).gangs = s.gangs := rfl
@[simp] theorem State.setCtx_groups (s : State) (c : Nat) (x : Ctx) : (s.setCtx c x).groups = s.groups := rfl
@[simp] theorem State.setCtx_reserve (s : State) (c : Nat) (x : Ctx) : (s.setCtx c x).reserve = s.reserve := rfl
@[simp] theorem State.setCtx_mem (s : State) (c : Nat) (x : Ctx) : (s.setCtx c x).mem = s.mem := rfl
@[simp] theorem State.setCtx_pline (s : State) (c : Nat) (x : Ctx) : (s.setCtx c x).pline = s.pline := rfl
@[simp] theorem State.setCtx_dir (s : State) (c : Nat) (x : Ctx) : (s.setCtx c x).dir = s.dir := rfl
@[simp] theorem State.setCtx_homes (s : State) (c : Nat) (x : Ctx) : (s.setCtx c x).homes = s.homes := rfl
@[simp] theorem State.setCtx_cores (s : State) (c : Nat) (x : Ctx) : (s.setCtx c x).cores = s.cores := rfl
@[simp] theorem State.setCtx_owned (s : State) (c : Nat) (x : Ctx) : (s.setCtx c x).owned = s.owned := rfl
@[simp] theorem State.setCtx_ownAsks (s : State) (c : Nat) (x : Ctx) : (s.setCtx c x).ownAsks = s.ownAsks := rfl
@[simp] theorem State.setCtx_granted (s : State) (c : Nat) (x : Ctx) : (s.setCtx c x).granted = s.granted := rfl
@[simp] theorem State.setCtx_hostShared (s : State) (c : Nat) (x : Ctx) : (s.setCtx c x).hostShared = s.hostShared := rfl
@[simp] theorem State.setCtx_wts (s : State) (c : Nat) (x : Ctx) : (s.setCtx c x).wts = s.wts := rfl
@[simp] theorem State.setCtx_hot (s : State) (c : Nat) (x : Ctx) : (s.setCtx c x).hot = s.hot := rfl
@[simp] theorem State.setCtx_transfers (s : State) (c : Nat) (x : Ctx) : (s.setCtx c x).transfers = s.transfers := rfl
@[simp] theorem State.setCtx_lastOwner (s : State) (c : Nat) (x : Ctx) : (s.setCtx c x).lastOwner = s.lastOwner := rfl
@[simp] theorem State.setCtx_migrated (s : State) (c : Nat) (x : Ctx) : (s.setCtx c x).migrated = s.migrated := rfl
@[simp] theorem State.setCtx_tlb (s : State) (c : Nat) (x : Ctx) : (s.setCtx c x).tlb = s.tlb := rfl
@[simp] theorem State.setCtx_sectorTlb (s : State) (c : Nat) (x : Ctx) : (s.setCtx c x).sectorTlb = s.sectorTlb := rfl
@[simp] theorem State.setCtx_walks (s : State) (c : Nat) (x : Ctx) : (s.setCtx c x).walks = s.walks := rfl
@[simp] theorem State.setCtx_tier (s : State) (c : Nat) (x : Ctx) : (s.setCtx c x).tier = s.tier := rfl
@[simp] theorem State.setCtx_firewall (s : State) (c : Nat) (x : Ctx) : (s.setCtx c x).firewall = s.firewall := rfl
@[simp] theorem State.setCtx_l2w (s : State) (c : Nat) (x : Ctx) : (s.setCtx c x).l2w = s.l2w := rfl
@[simp] theorem State.setCtx_pageReqs (s : State) (c : Nat) (x : Ctx) : (s.setCtx c x).pageReqs = s.pageReqs := rfl
@[simp] theorem State.setCtx_copies (s : State) (c : Nat) (x : Ctx) : (s.setCtx c x).copies = s.copies := rfl
@[simp] theorem State.setCtx_puts (s : State) (c : Nat) (x : Ctx) : (s.setCtx c x).puts = s.puts := rfl
@[simp] theorem State.setCtx_admits (s : State) (c : Nat) (x : Ctx) : (s.setCtx c x).admits = s.admits := rfl
@[simp] theorem State.setCtx_engines (s : State) (c : Nat) (x : Ctx) : (s.setCtx c x).engines = s.engines := rfl
@[simp] theorem State.setCtx_shapes (s : State) (c : Nat) (x : Ctx) : (s.setCtx c x).shapes = s.shapes := rfl
@[simp] theorem State.setCtx_contribs (s : State) (c : Nat) (x : Ctx) : (s.setCtx c x).contribs = s.contribs := rfl
@[simp] theorem State.setCtx_trees (s : State) (c : Nat) (x : Ctx) : (s.setCtx c x).trees = s.trees := rfl
@[simp] theorem State.setCtx_lastTag (s : State) (c : Nat) (x : Ctx) : (s.setCtx c x).lastTag = s.lastTag := rfl
@[simp] theorem State.setCtx_waits (s : State) (c : Nat) (x : Ctx) : (s.setCtx c x).waits = s.waits := rfl
@[simp] theorem State.setCtx_cells (s : State) (c : Nat) (x : Ctx) : (s.setCtx c x).cells = s.cells := rfl
@[simp] theorem State.setCtx_ports (s : State) (c : Nat) (x : Ctx) : (s.setCtx c x).ports = s.ports := rfl
@[simp] theorem State.setCtx_slots (s : State) (c : Nat) (x : Ctx) : (s.setCtx c x).slots = s.slots := rfl
@[simp] theorem State.setCtx_active (s : State) (c : Nat) (x : Ctx) : (s.setCtx c x).active = s.active := rfl
@[simp] theorem State.setCtx_tgen (s : State) (c : Nat) (x : Ctx) : (s.setCtx c x).tgen = s.tgen := rfl
@[simp] theorem State.setCtx_round (s : State) (c : Nat) (x : Ctx) : (s.setCtx c x).round = s.round := rfl
@[simp] theorem State.setCtx_seqs (s : State) (c : Nat) (x : Ctx) : (s.setCtx c x).seqs = s.seqs := rfl
@[simp] theorem State.setCtx_early (s : State) (c : Nat) (x : Ctx) : (s.setCtx c x).early = s.early := rfl
@[simp] theorem State.setCtx_outSeq (s : State) (c : Nat) (x : Ctx) : (s.setCtx c x).outSeq = s.outSeq := rfl
@[simp] theorem State.setCtx_asks (s : State) (c : Nat) (x : Ctx) : (s.setCtx c x).asks = s.asks := rfl
@[simp] theorem State.setCtx_recalls (s : State) (c : Nat) (x : Ctx) : (s.setCtx c x).recalls = s.recalls := rfl
@[simp] theorem State.setCtx_fwOpen (s : State) (c : Nat) (x : Ctx) : (s.setCtx c x).fwOpen = s.fwOpen := rfl
@[simp] theorem State.setCtx_stuck (s : State) (c : Nat) (x : Ctx) : (s.setCtx c x).stuck = s.stuck := rfl
@[simp] theorem State.setCtx_landed (s : State) (c : Nat) (x : Ctx) : (s.setCtx c x).landed = s.landed := rfl
@[simp] theorem State.setCtx_putLines (s : State) (c : Nat) (x : Ctx) : (s.setCtx c x).putLines = s.putLines := rfl
@[simp] theorem State.setCtx_admitted (s : State) (c : Nat) (x : Ctx) : (s.setCtx c x).admitted = s.admitted := rfl
@[simp] theorem State.setCtx_leaves (s : State) (c : Nat) (x : Ctx) : (s.setCtx c x).leaves = s.leaves := rfl
@[simp] theorem State.setCtx_pcs (s : State) (c : Nat) (x : Ctx) : (s.setCtx c x).pcs = s.pcs := rfl
@[simp] theorem State.setCtx_unsampled (s : State) (c : Nat) (x : Ctx) : (s.setCtx c x).unsampled = s.unsampled := rfl

/-! ### say -/

@[simp] theorem State.say_tick (s : State) (m : Msg) : (s.say m).tick = s.tick := rfl
@[simp] theorem State.say_serial (s : State) (m : Msg) : (s.say m).serial = s.serial := rfl
@[simp] theorem State.say_agenda (s : State) (m : Msg) : (s.say m).agenda = s.agenda := rfl
@[simp] theorem State.say_due (s : State) (m : Msg) : (s.say m).due = s.due := rfl
@[simp] theorem State.say_turn (s : State) (m : Msg) : (s.say m).turn = s.turn := rfl
@[simp] theorem State.say_cur (s : State) (m : Msg) : (s.say m).cur = s.cur := rfl
@[simp] theorem State.say_blocked (s : State) (m : Msg) : (s.say m).blocked = s.blocked := rfl
@[simp] theorem State.say_slotTurn (s : State) (m : Msg) : (s.say m).slotTurn = s.slotTurn := rfl
@[simp] theorem State.say_pairs (s : State) (m : Msg) : (s.say m).pairs = s.pairs := rfl
@[simp] theorem State.say_shares (s : State) (m : Msg) : (s.say m).shares = s.shares := rfl
@[simp] theorem State.say_paid (s : State) (m : Msg) : (s.say m).paid = s.paid := rfl
@[simp] theorem State.say_pkg (s : State) (m : Msg) : (s.say m).pkg = s.pkg := rfl
@[simp] theorem State.say_cell (s : State) (m : Msg) : (s.say m).cell = s.cell := rfl
@[simp] theorem State.say_numbered (s : State) (m : Msg) : (s.say m).numbered = s.numbered := rfl
@[simp] theorem State.say_form (s : State) (m : Msg) : (s.say m).form = s.form := rfl
@[simp] theorem State.say_bringUp (s : State) (m : Msg) : (s.say m).bringUp = s.bringUp := rfl
@[simp] theorem State.say_stopped (s : State) (m : Msg) : (s.say m).stopped = s.stopped := rfl
@[simp] theorem State.say_imageVersion (s : State) (m : Msg) : (s.say m).imageVersion = s.imageVersion := rfl
@[simp] theorem State.say_minVersion (s : State) (m : Msg) : (s.say m).minVersion = s.minVersion := rfl
@[simp] theorem State.say_identity (s : State) (m : Msg) : (s.say m).identity = s.identity := rfl
@[simp] theorem State.say_imageDigest (s : State) (m : Msg) : (s.say m).imageDigest = s.imageDigest := rfl
@[simp] theorem State.say_blobDigest (s : State) (m : Msg) : (s.say m).blobDigest = s.blobDigest := rfl
@[simp] theorem State.say_caps (s : State) (m : Msg) : (s.say m).caps = s.caps := rfl
@[simp] theorem State.say_boiling (s : State) (m : Msg) : (s.say m).boiling = s.boiling := rfl
@[simp] theorem State.say_power (s : State) (m : Msg) : (s.say m).power = s.power := rfl
@[simp] theorem State.say_throttled (s : State) (m : Msg) : (s.say m).throttled = s.throttled := rfl
@[simp] theorem State.say_trips (s : State) (m : Msg) : (s.say m).trips = s.trips := rfl
@[simp] theorem State.say_lastReport (s : State) (m : Msg) : (s.say m).lastReport = s.lastReport := rfl
@[simp] theorem State.say_thresholds (s : State) (m : Msg) : (s.say m).thresholds = s.thresholds := rfl
@[simp] theorem State.say_readings (s : State) (m : Msg) : (s.say m).readings = s.readings := rfl
@[simp] theorem State.say_scrub (s : State) (m : Msg) : (s.say m).scrub = s.scrub := rfl
@[simp] theorem State.say_softErrors (s : State) (m : Msg) : (s.say m).softErrors = s.softErrors := rfl
@[simp] theorem State.say_regs (s : State) (m : Msg) : (s.say m).regs = s.regs := rfl
@[simp] theorem State.say_lantern (s : State) (m : Msg) : (s.say m).lantern = s.lantern := rfl
@[simp] theorem State.say_ctx (s : State) (m : Msg) : (s.say m).ctx = s.ctx := rfl
@[simp] theorem State.say_aqi (s : State) (m : Msg) : (s.say m).aqi = s.aqi := rfl
@[simp] theorem State.say_remap (s : State) (m : Msg) : (s.say m).remap = s.remap := rfl
@[simp] theorem State.say_grants (s : State) (m : Msg) : (s.say m).grants = s.grants := rfl
@[simp] theorem State.say_lastPacket (s : State) (m : Msg) : (s.say m).lastPacket = s.lastPacket := rfl
@[simp] theorem State.say_kernels (s : State) (m : Msg) : (s.say m).kernels = s.kernels := rfl
@[simp] theorem State.say_gangs (s : State) (m : Msg) : (s.say m).gangs = s.gangs := rfl
@[simp] theorem State.say_groups (s : State) (m : Msg) : (s.say m).groups = s.groups := rfl
@[simp] theorem State.say_reserve (s : State) (m : Msg) : (s.say m).reserve = s.reserve := rfl
@[simp] theorem State.say_mem (s : State) (m : Msg) : (s.say m).mem = s.mem := rfl
@[simp] theorem State.say_pline (s : State) (m : Msg) : (s.say m).pline = s.pline := rfl
@[simp] theorem State.say_dir (s : State) (m : Msg) : (s.say m).dir = s.dir := rfl
@[simp] theorem State.say_homes (s : State) (m : Msg) : (s.say m).homes = s.homes := rfl
@[simp] theorem State.say_cores (s : State) (m : Msg) : (s.say m).cores = s.cores := rfl
@[simp] theorem State.say_owned (s : State) (m : Msg) : (s.say m).owned = s.owned := rfl
@[simp] theorem State.say_ownAsks (s : State) (m : Msg) : (s.say m).ownAsks = s.ownAsks := rfl
@[simp] theorem State.say_granted (s : State) (m : Msg) : (s.say m).granted = s.granted := rfl
@[simp] theorem State.say_hostShared (s : State) (m : Msg) : (s.say m).hostShared = s.hostShared := rfl
@[simp] theorem State.say_wts (s : State) (m : Msg) : (s.say m).wts = s.wts := rfl
@[simp] theorem State.say_hot (s : State) (m : Msg) : (s.say m).hot = s.hot := rfl
@[simp] theorem State.say_transfers (s : State) (m : Msg) : (s.say m).transfers = s.transfers := rfl
@[simp] theorem State.say_lastOwner (s : State) (m : Msg) : (s.say m).lastOwner = s.lastOwner := rfl
@[simp] theorem State.say_migrated (s : State) (m : Msg) : (s.say m).migrated = s.migrated := rfl
@[simp] theorem State.say_tlb (s : State) (m : Msg) : (s.say m).tlb = s.tlb := rfl
@[simp] theorem State.say_sectorTlb (s : State) (m : Msg) : (s.say m).sectorTlb = s.sectorTlb := rfl
@[simp] theorem State.say_walks (s : State) (m : Msg) : (s.say m).walks = s.walks := rfl
@[simp] theorem State.say_tier (s : State) (m : Msg) : (s.say m).tier = s.tier := rfl
@[simp] theorem State.say_firewall (s : State) (m : Msg) : (s.say m).firewall = s.firewall := rfl
@[simp] theorem State.say_l2w (s : State) (m : Msg) : (s.say m).l2w = s.l2w := rfl
@[simp] theorem State.say_pageReqs (s : State) (m : Msg) : (s.say m).pageReqs = s.pageReqs := rfl
@[simp] theorem State.say_copies (s : State) (m : Msg) : (s.say m).copies = s.copies := rfl
@[simp] theorem State.say_puts (s : State) (m : Msg) : (s.say m).puts = s.puts := rfl
@[simp] theorem State.say_admits (s : State) (m : Msg) : (s.say m).admits = s.admits := rfl
@[simp] theorem State.say_engines (s : State) (m : Msg) : (s.say m).engines = s.engines := rfl
@[simp] theorem State.say_shapes (s : State) (m : Msg) : (s.say m).shapes = s.shapes := rfl
@[simp] theorem State.say_contribs (s : State) (m : Msg) : (s.say m).contribs = s.contribs := rfl
@[simp] theorem State.say_trees (s : State) (m : Msg) : (s.say m).trees = s.trees := rfl
@[simp] theorem State.say_lastTag (s : State) (m : Msg) : (s.say m).lastTag = s.lastTag := rfl
@[simp] theorem State.say_waits (s : State) (m : Msg) : (s.say m).waits = s.waits := rfl
@[simp] theorem State.say_cells (s : State) (m : Msg) : (s.say m).cells = s.cells := rfl
@[simp] theorem State.say_ports (s : State) (m : Msg) : (s.say m).ports = s.ports := rfl
@[simp] theorem State.say_slots (s : State) (m : Msg) : (s.say m).slots = s.slots := rfl
@[simp] theorem State.say_active (s : State) (m : Msg) : (s.say m).active = s.active := rfl
@[simp] theorem State.say_tgen (s : State) (m : Msg) : (s.say m).tgen = s.tgen := rfl
@[simp] theorem State.say_round (s : State) (m : Msg) : (s.say m).round = s.round := rfl
@[simp] theorem State.say_seqs (s : State) (m : Msg) : (s.say m).seqs = s.seqs := rfl
@[simp] theorem State.say_early (s : State) (m : Msg) : (s.say m).early = s.early := rfl
@[simp] theorem State.say_outSeq (s : State) (m : Msg) : (s.say m).outSeq = s.outSeq := rfl
@[simp] theorem State.say_asks (s : State) (m : Msg) : (s.say m).asks = s.asks := rfl
@[simp] theorem State.say_recalls (s : State) (m : Msg) : (s.say m).recalls = s.recalls := rfl
@[simp] theorem State.say_fwOpen (s : State) (m : Msg) : (s.say m).fwOpen = s.fwOpen := rfl
@[simp] theorem State.say_stuck (s : State) (m : Msg) : (s.say m).stuck = s.stuck := rfl
@[simp] theorem State.say_landed (s : State) (m : Msg) : (s.say m).landed = s.landed := rfl
@[simp] theorem State.say_putLines (s : State) (m : Msg) : (s.say m).putLines = s.putLines := rfl
@[simp] theorem State.say_admitted (s : State) (m : Msg) : (s.say m).admitted = s.admitted := rfl
@[simp] theorem State.say_leaves (s : State) (m : Msg) : (s.say m).leaves = s.leaves := rfl
@[simp] theorem State.say_pcs (s : State) (m : Msg) : (s.say m).pcs = s.pcs := rfl
@[simp] theorem State.say_unsampled (s : State) (m : Msg) : (s.say m).unsampled = s.unsampled := rfl

/-! ### addDue -/

@[simp] theorem State.addDue_tick (s : State) (i : Instr) : (s.addDue i).tick = s.tick := rfl
@[simp] theorem State.addDue_serial (s : State) (i : Instr) : (s.addDue i).serial = s.serial := rfl
@[simp] theorem State.addDue_agenda (s : State) (i : Instr) : (s.addDue i).agenda = s.agenda := rfl
@[simp] theorem State.addDue_turn (s : State) (i : Instr) : (s.addDue i).turn = s.turn := rfl
@[simp] theorem State.addDue_cur (s : State) (i : Instr) : (s.addDue i).cur = s.cur := rfl
@[simp] theorem State.addDue_blocked (s : State) (i : Instr) : (s.addDue i).blocked = s.blocked := rfl
@[simp] theorem State.addDue_slotTurn (s : State) (i : Instr) : (s.addDue i).slotTurn = s.slotTurn := rfl
@[simp] theorem State.addDue_pairs (s : State) (i : Instr) : (s.addDue i).pairs = s.pairs := rfl
@[simp] theorem State.addDue_shares (s : State) (i : Instr) : (s.addDue i).shares = s.shares := rfl
@[simp] theorem State.addDue_paid (s : State) (i : Instr) : (s.addDue i).paid = s.paid := rfl
@[simp] theorem State.addDue_pkg (s : State) (i : Instr) : (s.addDue i).pkg = s.pkg := rfl
@[simp] theorem State.addDue_cell (s : State) (i : Instr) : (s.addDue i).cell = s.cell := rfl
@[simp] theorem State.addDue_numbered (s : State) (i : Instr) : (s.addDue i).numbered = s.numbered := rfl
@[simp] theorem State.addDue_form (s : State) (i : Instr) : (s.addDue i).form = s.form := rfl
@[simp] theorem State.addDue_bringUp (s : State) (i : Instr) : (s.addDue i).bringUp = s.bringUp := rfl
@[simp] theorem State.addDue_stopped (s : State) (i : Instr) : (s.addDue i).stopped = s.stopped := rfl
@[simp] theorem State.addDue_imageVersion (s : State) (i : Instr) : (s.addDue i).imageVersion = s.imageVersion := rfl
@[simp] theorem State.addDue_minVersion (s : State) (i : Instr) : (s.addDue i).minVersion = s.minVersion := rfl
@[simp] theorem State.addDue_identity (s : State) (i : Instr) : (s.addDue i).identity = s.identity := rfl
@[simp] theorem State.addDue_imageDigest (s : State) (i : Instr) : (s.addDue i).imageDigest = s.imageDigest := rfl
@[simp] theorem State.addDue_blobDigest (s : State) (i : Instr) : (s.addDue i).blobDigest = s.blobDigest := rfl
@[simp] theorem State.addDue_caps (s : State) (i : Instr) : (s.addDue i).caps = s.caps := rfl
@[simp] theorem State.addDue_boiling (s : State) (i : Instr) : (s.addDue i).boiling = s.boiling := rfl
@[simp] theorem State.addDue_power (s : State) (i : Instr) : (s.addDue i).power = s.power := rfl
@[simp] theorem State.addDue_throttled (s : State) (i : Instr) : (s.addDue i).throttled = s.throttled := rfl
@[simp] theorem State.addDue_trips (s : State) (i : Instr) : (s.addDue i).trips = s.trips := rfl
@[simp] theorem State.addDue_lastReport (s : State) (i : Instr) : (s.addDue i).lastReport = s.lastReport := rfl
@[simp] theorem State.addDue_thresholds (s : State) (i : Instr) : (s.addDue i).thresholds = s.thresholds := rfl
@[simp] theorem State.addDue_readings (s : State) (i : Instr) : (s.addDue i).readings = s.readings := rfl
@[simp] theorem State.addDue_scrub (s : State) (i : Instr) : (s.addDue i).scrub = s.scrub := rfl
@[simp] theorem State.addDue_softErrors (s : State) (i : Instr) : (s.addDue i).softErrors = s.softErrors := rfl
@[simp] theorem State.addDue_regs (s : State) (i : Instr) : (s.addDue i).regs = s.regs := rfl
@[simp] theorem State.addDue_msgs (s : State) (i : Instr) : (s.addDue i).msgs = s.msgs := rfl
@[simp] theorem State.addDue_lantern (s : State) (i : Instr) : (s.addDue i).lantern = s.lantern := rfl
@[simp] theorem State.addDue_ctx (s : State) (i : Instr) : (s.addDue i).ctx = s.ctx := rfl
@[simp] theorem State.addDue_aqi (s : State) (i : Instr) : (s.addDue i).aqi = s.aqi := rfl
@[simp] theorem State.addDue_remap (s : State) (i : Instr) : (s.addDue i).remap = s.remap := rfl
@[simp] theorem State.addDue_grants (s : State) (i : Instr) : (s.addDue i).grants = s.grants := rfl
@[simp] theorem State.addDue_lastPacket (s : State) (i : Instr) : (s.addDue i).lastPacket = s.lastPacket := rfl
@[simp] theorem State.addDue_kernels (s : State) (i : Instr) : (s.addDue i).kernels = s.kernels := rfl
@[simp] theorem State.addDue_gangs (s : State) (i : Instr) : (s.addDue i).gangs = s.gangs := rfl
@[simp] theorem State.addDue_groups (s : State) (i : Instr) : (s.addDue i).groups = s.groups := rfl
@[simp] theorem State.addDue_reserve (s : State) (i : Instr) : (s.addDue i).reserve = s.reserve := rfl
@[simp] theorem State.addDue_mem (s : State) (i : Instr) : (s.addDue i).mem = s.mem := rfl
@[simp] theorem State.addDue_pline (s : State) (i : Instr) : (s.addDue i).pline = s.pline := rfl
@[simp] theorem State.addDue_dir (s : State) (i : Instr) : (s.addDue i).dir = s.dir := rfl
@[simp] theorem State.addDue_homes (s : State) (i : Instr) : (s.addDue i).homes = s.homes := rfl
@[simp] theorem State.addDue_cores (s : State) (i : Instr) : (s.addDue i).cores = s.cores := rfl
@[simp] theorem State.addDue_owned (s : State) (i : Instr) : (s.addDue i).owned = s.owned := rfl
@[simp] theorem State.addDue_ownAsks (s : State) (i : Instr) : (s.addDue i).ownAsks = s.ownAsks := rfl
@[simp] theorem State.addDue_granted (s : State) (i : Instr) : (s.addDue i).granted = s.granted := rfl
@[simp] theorem State.addDue_hostShared (s : State) (i : Instr) : (s.addDue i).hostShared = s.hostShared := rfl
@[simp] theorem State.addDue_wts (s : State) (i : Instr) : (s.addDue i).wts = s.wts := rfl
@[simp] theorem State.addDue_hot (s : State) (i : Instr) : (s.addDue i).hot = s.hot := rfl
@[simp] theorem State.addDue_transfers (s : State) (i : Instr) : (s.addDue i).transfers = s.transfers := rfl
@[simp] theorem State.addDue_lastOwner (s : State) (i : Instr) : (s.addDue i).lastOwner = s.lastOwner := rfl
@[simp] theorem State.addDue_migrated (s : State) (i : Instr) : (s.addDue i).migrated = s.migrated := rfl
@[simp] theorem State.addDue_tlb (s : State) (i : Instr) : (s.addDue i).tlb = s.tlb := rfl
@[simp] theorem State.addDue_sectorTlb (s : State) (i : Instr) : (s.addDue i).sectorTlb = s.sectorTlb := rfl
@[simp] theorem State.addDue_walks (s : State) (i : Instr) : (s.addDue i).walks = s.walks := rfl
@[simp] theorem State.addDue_tier (s : State) (i : Instr) : (s.addDue i).tier = s.tier := rfl
@[simp] theorem State.addDue_firewall (s : State) (i : Instr) : (s.addDue i).firewall = s.firewall := rfl
@[simp] theorem State.addDue_l2w (s : State) (i : Instr) : (s.addDue i).l2w = s.l2w := rfl
@[simp] theorem State.addDue_pageReqs (s : State) (i : Instr) : (s.addDue i).pageReqs = s.pageReqs := rfl
@[simp] theorem State.addDue_copies (s : State) (i : Instr) : (s.addDue i).copies = s.copies := rfl
@[simp] theorem State.addDue_puts (s : State) (i : Instr) : (s.addDue i).puts = s.puts := rfl
@[simp] theorem State.addDue_admits (s : State) (i : Instr) : (s.addDue i).admits = s.admits := rfl
@[simp] theorem State.addDue_engines (s : State) (i : Instr) : (s.addDue i).engines = s.engines := rfl
@[simp] theorem State.addDue_shapes (s : State) (i : Instr) : (s.addDue i).shapes = s.shapes := rfl
@[simp] theorem State.addDue_contribs (s : State) (i : Instr) : (s.addDue i).contribs = s.contribs := rfl
@[simp] theorem State.addDue_trees (s : State) (i : Instr) : (s.addDue i).trees = s.trees := rfl
@[simp] theorem State.addDue_lastTag (s : State) (i : Instr) : (s.addDue i).lastTag = s.lastTag := rfl
@[simp] theorem State.addDue_waits (s : State) (i : Instr) : (s.addDue i).waits = s.waits := rfl
@[simp] theorem State.addDue_cells (s : State) (i : Instr) : (s.addDue i).cells = s.cells := rfl
@[simp] theorem State.addDue_ports (s : State) (i : Instr) : (s.addDue i).ports = s.ports := rfl
@[simp] theorem State.addDue_slots (s : State) (i : Instr) : (s.addDue i).slots = s.slots := rfl
@[simp] theorem State.addDue_active (s : State) (i : Instr) : (s.addDue i).active = s.active := rfl
@[simp] theorem State.addDue_tgen (s : State) (i : Instr) : (s.addDue i).tgen = s.tgen := rfl
@[simp] theorem State.addDue_round (s : State) (i : Instr) : (s.addDue i).round = s.round := rfl
@[simp] theorem State.addDue_seqs (s : State) (i : Instr) : (s.addDue i).seqs = s.seqs := rfl
@[simp] theorem State.addDue_early (s : State) (i : Instr) : (s.addDue i).early = s.early := rfl
@[simp] theorem State.addDue_outSeq (s : State) (i : Instr) : (s.addDue i).outSeq = s.outSeq := rfl
@[simp] theorem State.addDue_asks (s : State) (i : Instr) : (s.addDue i).asks = s.asks := rfl
@[simp] theorem State.addDue_recalls (s : State) (i : Instr) : (s.addDue i).recalls = s.recalls := rfl
@[simp] theorem State.addDue_fwOpen (s : State) (i : Instr) : (s.addDue i).fwOpen = s.fwOpen := rfl
@[simp] theorem State.addDue_stuck (s : State) (i : Instr) : (s.addDue i).stuck = s.stuck := rfl
@[simp] theorem State.addDue_landed (s : State) (i : Instr) : (s.addDue i).landed = s.landed := rfl
@[simp] theorem State.addDue_putLines (s : State) (i : Instr) : (s.addDue i).putLines = s.putLines := rfl
@[simp] theorem State.addDue_admitted (s : State) (i : Instr) : (s.addDue i).admitted = s.admitted := rfl
@[simp] theorem State.addDue_leaves (s : State) (i : Instr) : (s.addDue i).leaves = s.leaves := rfl
@[simp] theorem State.addDue_pcs (s : State) (i : Instr) : (s.addDue i).pcs = s.pcs := rfl
@[simp] theorem State.addDue_unsampled (s : State) (i : Instr) : (s.addDue i).unsampled = s.unsampled := rfl

end Sys2Proof.Machine
end

