-- ==== Sys2Proof/Laws/Step.lean ====
section
/-! SUPPORT. Presenting a unit: a unit that is fetched whole and decodes is the instruction that the step runs (R66). -/

namespace Sys2Proof.Machine

/-- A unit that earns no detail where it stands earns none of its own. -/
theorem unitDetail_none {t : State} {w : WarpId} {x : Warp} {b : Bundle} {i : Instr} {size : Nat} {own : Option Nat}
    (h : t.unitDetail w x b i size own = .ok none) : own = none := by
  cases own with
  | none => rfl
  | some d =>
    unfold State.unitDetail at h
    split at h
    · cases hb : t.headerBehind w x b size with
      | error e => simp [hb] at h
      | ok v => cases v <;> simp [hb] at h
    · simp at h

theorem present_ok {t v u : State} {w x b p ps i}
    (h1 : t.fetchUnit w x b.mask b.at_.pc.toNat b.at_.pc.toNat 1 = .ok ([p], u)) (h2 : parcelKind p = .base ∨ parcelKind p = .pre)
    (h3 : unitLen p ≤ ((blockEnd b.at_.hdr b.len).toNat - b.at_.pc.toNat) / 4)
    (h4 : t.fetchUnit w x b.mask b.at_.pc.toNat b.at_.pc.toNat (unitLen p) = .ok (ps, v)) (h5 : decodeParcels ps = .ok i)
    (h6 : t.unitDetail w x b i (4 * unitLen p) (lowestDetail (blockDetails b i (4 * unitLen p))) = .ok none)
    (h7 : unitLen p = 3 → t.checkPrefix w x b b.at_.pc.toNat = .ok ()) :
    present t w x b = .ok (i, v) := by
  unfold decodeParcels at h5
  cases htu : takeUnit ps with
  | error d => rw [htu] at h5; simp at h5
  | ok U =>
    rw [htu] at h5
    simp only [decodeUnit] at h5
    cases hbu : buildUnit U with
    | error d => rw [hbu] at h5; simp at h5
    | ok j =>
      rw [hbu] at h5
      simp only at h5
      cases hl : lowestDetail (rawDetails U j.info ++ j.info.details) with
      | some d => rw [hl] at h5; simp at h5
      | none =>
        rw [hl] at h5
        simp only [Except.ok.injEq] at h5
        subst h5
        have hp : (decide (unitLen p = 3) && decide (((blockEnd b.at_.hdr b.len).toNat - b.at_.pc.toNat) / 4 < 2)) = false := by
          cases hd : decide (unitLen p = 3) <;> simp; 
          simp at hd; omega
        have hc : (if unitLen p = 3 then t.checkPrefix w x b b.at_.pc.toNat else .ok ()) = .ok () := by
          split
          · rename_i h; exact h7 h
          · rfl
        have hb : lowestDetail (blockDetails b j (4 * unitLen p)) = none := unitDetail_none h6
        rw [hb] at h6
        have hl2 := lowest_append_none _ _ hl hb
        unfold present
        simp only [h1, List.headD_cons]
        rcases h2 with h2 | h2 <;>
        · simp only [h2, Nat.min_eq_left h3, h4, htu, hbu, hl2, h6]
          refine (if_neg fun h => Bool.false_ne_true (hp.symm.trans h)).trans ?_
          split
          · rename_i he; exact absurd (he.symm.trans hc) (by simp)
          · rfl

end Sys2Proof.Machine
end

