-- ==== Sys2Proof/Tests/Slice0.lean ====
section
/-! SUPPORT. Tests. The words come from the spec's own worked encodings and tables, and the expected results from its rules; a
theorem witness_<Obligation> shows a state and operands that meet the hypotheses of the obligation it is named after. -/

set_option Elab.async false

open Sys2Proof Sys2Proof.Machine

/-! ### Decoding: the words that the chapters write out, and what they say those words are. -/

/-- The parcels of a 64-bit word as the spec writes it: its high half is the first parcel. -/
def wordOf (w : Nat) : List Parcel := [BitVec.ofNat 32 (w >>> 32), BitVec.ofNat 32 w]

def readsAs (ps : List Parcel) (i : Instr) : Bool := decide ((decodeParcels ps).toOption = some i)

def refusedWith (ps : List Parcel) (d : Nat) : Bool :=
  match decodeParcels ps with
  | .error e => decide (e = d)
  | .ok _ => false

/-- 03_encoding R60, 25_programs_a and 26_programs_b: the worked parcels of the chapters on encoding and programs. -/
theorem test_decode_worked_parcels :
    (readsAs (wordOf 0x1000_500C_0408_0000) (.iadd ⟨none, false, .i32, 2, false, 3, 1, 2, 0, false, false⟩) &&
     readsAs (0x7E920000 :: wordOf 0x3102_0010_1418_1C00)
       (.ffma ⟨some ⟨9, false, .rup, 0, .none, 0, 0⟩, false, .f32, 0, false, 4, 5, 6, 7, false, false⟩) &&
     readsAs (wordOf 0x0100_1800_FFFF_FFF9) (.bra ⟨3, false, 0, .each, 0xFFFFFFF9⟩) &&
     readsAs (wordOf 0x1700_0060_5850_0200) (.clmul ⟨none, false, .b32, 0, false, 24, 22, 20, 0, true, false⟩) &&
     readsAs (wordOf 0x4008_016D_687C_0200) (.shfl .down ⟨none, false, .b32, 0, false, 91, 90, 31, 0, true, false⟩) &&
     readsAs (wordOf 0x7302_0050_2C00_0200) (.mxrd ⟨none, false, .f32, 0, false, 20, 11, 0, 0, true, false⟩) &&
     readsAs (wordOf 0x37A2_C0A0_5000_0000) (.cvtff .f32 false true ⟨none, false, .e4m3x4, 0, false, 40, 20, 0, 0, false, false⟩)) =
      true := by decide +kernel

/-- 09_warp and 22_faults: control, special registers and faults. -/
theorem test_decode_control :
    (readsAs (wordOf 0x0200_0014_0007_100C) (.jtb ⟨0, false, 5, .each, 0x7100C⟩) &&
     readsAs (wordOf 0x0500_0008_1400_0000) (.cdecl ⟨0, false, 2, 5, 0, 0⟩) &&
     readsAs (wordOf 0x0504_0008_0000_0000) (.csign ⟨0, false, 2, 0, 0, 0⟩) &&
     readsAs (wordOf 0x0508_0000_0000_0008) (.partset ⟨0, false, 0, 0, 0, 8⟩) &&
     readsAs (wordOf 0x0600_000C_0002_0000) (.movsrVector ⟨0, false, 3, 0, 0, 0x20000⟩) &&
     readsAs (wordOf 0x0608_0004_13FF_FFFD) (.setx ⟨none, false, .b32, 0, false, 1, 4, 0x3FFFFFD⟩) &&
     readsAs (wordOf 0x0400_0000_0000_0000) (.exit ⟨0, false, 0, 0, 0, 0⟩) &&
     readsAs (wordOf 0x0800_1800_0000_0005) (.trap ⟨3, false, 0, 0, 0, 5⟩) &&
     readsAs (wordOf 0x0804_0000_0000_0000) (.resumeF ⟨0, false, 0, 0, 0, 0⟩) &&
     readsAs (wordOf 0x0804_0000_0000_0001) (.resumeS ⟨0, false, 0, 0, 0, 1⟩) &&
     readsAs (wordOf 0x0804_0000_0000_0002) (.resumeN ⟨0, false, 0, 0, 0, 2⟩) &&
     readsAs (wordOf 0x0808_0000_0000_0000) (.abortg ⟨0, false, 0, 0, 0, 0⟩)) = true := by decide +kernel

/-- 07_kernel and 08_group. -/
theorem test_decode_group :
    (readsAs (wordOf 0x0900_0014_2024_0016) (.launch ⟨0, false, 5, 8, 9, 22⟩) &&
     readsAs (wordOf 0x0A00_0014_1801_8000) (.alloc ⟨0, false, 5, 6, 0, 0x18000⟩) &&
     readsAs (wordOf 0x0A04_001C_1801_8000) (.freeb ⟨0, false, 7, 6, 0, 0x18000⟩)) = true := by decide +kernel

/-- 11_integer. -/
theorem test_decode_integer :
    (readsAs (wordOf 0x1018_8010_0408_0C00) (.iaddc ⟨none, false, .n32, 0, false, 4, 1, 2, 3, false, false⟩) &&
     readsAs (wordOf 0x1081_8014_181C_0000) (.iaddUniform ⟨none, false, .i64, 0, false, 5, 6, 7, 0, false, false⟩) &&
     readsAs (wordOf 0x1308_600C_0408_0000) (.icmp .lt ⟨none, false, .i32, 4, false, 3, 1, 2, 0, false, false⟩) &&
     readsAs (wordOf 0x1A11_4008_0C00_0009) (.shli ⟨none, false, .i8x4, 0, false, 2, 3, 9⟩) &&
     readsAs (wordOf 0x1B14_000C_1400_0000) (.kpopc ⟨none, false, .b32, 0, false, 3, 5, 0, 0, false, false⟩) &&
     readsAs (wordOf 0x400C_0018_1C04_0200) (.shfl .xor ⟨none, false, .b32, 0, false, 6, 7, 1, 0, true, false⟩) &&
     readsAs (wordOf 0x4362_0024_2000_0000) (.scanl .fadd true ⟨none, false, .f32, 0, false, 9, 8, 0, 0, false, false⟩)) =
      true := by decide +kernel

/-- 12_float. -/
theorem test_decode_float :
    (readsAs (wordOf 0x3002_000C_0408_0000) (.fadd ⟨none, false, .f32, 0, false, 3, 1, 2, 0, false, false⟩) &&
     readsAs (wordOf 0x320A_200C_0408_0000) (.fcmp .lt ⟨none, false, .f32, 4, false, 3, 1, 2, 0, false, false⟩) &&
     readsAs (wordOf 0x3302_0014_1800_0000) (.frcp ⟨none, false, .f32, 0, false, 5, 6, 0, 0, false, false⟩) &&
     readsAs (wordOf 0x3402_4020_2428_2C00) (.fdot2 ⟨none, false, .bf16x2, 0, false, 8, 9, 10, 11, false, false⟩) &&
     readsAs (wordOf 0x37E2_C050_4000_0400) (.cvtff .f32 true true ⟨none, false, .e4m3x4, 0, false, 20, 16, 0, 1, false, false⟩) &&
     readsAs (wordOf 0x3903_4028_401C_3200) (.packf4 ⟨none, false, .f4x8, 0, false, 10, 16, 7, 12, true, false⟩)) =
      true := by decide +kernel

/-- 13_memory and 19_page. -/
theorem test_decode_memory :
    (readsAs (wordOf 0x5000_0008_0804_0000) (.ld .elem ⟨none, false, false, false, .b32, 0, false, 2, 2, 1, .gen, .normal, 0⟩) &&
     readsAs (wordOf 0x5081_8020_1004_1FF8)
       (.ld .elem ⟨none, false, true, false, .i64, 0, false, 8, 4, 1, .gen, .normal, 0x1FF8⟩) &&
     readsAs (wordOf 0x5140_0014_0C00_8040)
       (.st .elem ⟨none, false, false, true, .b32, 0, false, 5, 3, 0, .scr, .normal, 64⟩) &&
     readsAs (wordOf 0x5200_0028_181C_8000) (.ldt ⟨none, false, false, false, .b32, 0, false, 10, 6, 7, .scr, .normal, 0⟩) &&
     readsAs (wordOf 0x5300_0000_0804_6000) (.prf ⟨none, false, false, false, .b32, 0, false, 0, 2, 1, .gen, .noalloc, 0⟩) &&
     readsAs (wordOf 0x5600_0014_0804_0000) (.pgq ⟨none, false, false, false, .b32, 0, false, 5, 2, 1, .gen, .normal, 0⟩) &&
     readsAs (wordOf 0x5640_0018_0C00_0000) (.pgq ⟨none, false, false, true, .b32, 0, false, 6, 3, 0, .gen, .normal, 0⟩)) =
      true := by decide +kernel

/-- 13_memory: the copy engine and the caches. -/
theorem test_decode_copy :
    (readsAs (wordOf 0x5400_0000_2000_0043) (.cpa ⟨0, false, 0, 8, 0, 0x43⟩) &&
     readsAs (wordOf 0x5404_0000_2030_0043) (.cpaGcm ⟨0, false, 0, 8, 12, 0x43⟩) &&
     readsAs (wordOf 0x5500_0024_2800_0000) (.cpwait ⟨0, false, 9, 10, 0, 0⟩) &&
     readsAs (wordOf 0x5500_0024_0002_0003) (.cpwaitId ⟨0, false, 9, 0, 0, 0x20003⟩) &&
     readsAs (wordOf 0x5504_002C_0000_0003) (.cppoll ⟨0, false, 11, 0, 0, 3⟩) &&
     readsAs (wordOf 0x5508_0000_1014_0001) (.cctlInvr ⟨0, false, 0, 4, 5, 1⟩) &&
     readsAs (wordOf 0x5508_0018_0000_0002) (.cctlWayset ⟨0, false, 6, 0, 0, 2⟩)) = true := by decide +kernel

/-- 14_ordering, 15_atomics and 16_barrier. -/
theorem test_decode_sync :
    (readsAs (wordOf 0x6800_0000_0000_0212) (.fence ⟨0, false, 0, 0, 0, 0x212⟩) &&
     readsAs (wordOf 0x6804_0020_1000_0200) (.acq ⟨0, false, 8, 4, 0, 0x200⟩) &&
     readsAs (wordOf 0x6808_0000_101C_0200) (.rel ⟨0, false, 0, 4, 7, 0x200⟩) &&
     readsAs (wordOf 0x6900_000C_1018_0000) (.bind ⟨0, false, 3, 4, 6, 0⟩) &&
     readsAs (wordOf 0x6904_0000_1000_0000) (.unbind ⟨0, false, 0, 4, 0, 0⟩) &&
     readsAs (wordOf 0x6000_4014_0804_0000)
       (.atom .add ⟨none, false, false, false, .i32, 0, false, 5, 2, 1, .gen, .normal, 0⟩) &&
     readsAs (wordOf 0x6166_0018_0800_0010)
       (.red .fadd ⟨none, false, false, true, .f32, 0, false, 6, 2, 0, .gen, .normal, 16⟩) &&
     readsAs (wordOf 0x6240_0010_0800_0000) (.cas ⟨none, false, false, true, .b32, 0, false, 4, 2, 0, .gen, .normal, 0⟩) &&
     readsAs (wordOf 0x6302_000C_2010_0000) (.rtree .f32 ⟨0, false, 3, 8, 4, 0⟩) &&
     readsAs (wordOf 0x6A00_000C_0000_0402) (.barset ⟨0, false, 3, 0, 0, 0x402⟩) &&
     readsAs (wordOf 0x6A04_0010_0002_0001) (.bararv ⟨0, false, 4, 0, 0, 0x20001⟩) &&
     readsAs (wordOf 0x6A08_0014_101A_0001) (.barwt ⟨0, false, 5, 4, 6, 0x20001⟩) &&
     readsAs (wordOf 0x6A0C_0000_0000_0000) (.barsync ⟨0, false, 0, 0, 0, 0⟩) &&
     readsAs (wordOf 0x6A10_001C_0002_0003) (.barq ⟨0, false, 7, 0, 0, 0x20003⟩)) = true := by decide +kernel

/-- 17_wait. -/
theorem test_decode_wait :
    (readsAs (0x7E000600 :: wordOf 0x6B49_C010_0800_0000)
       (.waitu .ge ⟨some ⟨0, false, .rne, 6, .none, 0, 0⟩, false, false, true, .n64, 0, false, 4, 2, 0, .gen, .normal, 0⟩) &&
     readsAs (0x7E300800 :: wordOf 0x6B09_C018_0807_0000)
       (.waitu .ge ⟨some ⟨3, false, .rne, 8, .none, 0, 0⟩, false, false, false, .n64, 0, false, 6, 2, 1, .l2w, .normal, 0⟩) &&
     readsAs (wordOf 0x6B54_0010_0800_0040)
       (.waitu .changed ⟨none, false, false, true, .b32, 0, false, 4, 2, 0, .gen, .normal, 64⟩)) = true := by decide +kernel

/-- 18_matrix and 21_link. -/
theorem test_decode_matrix_and_link :
    (readsAs (wordOf 0x7000_000C_0000_0001) (.mxlease ⟨0, false, 3, 0, 0, 1⟩) &&
     readsAs (wordOf 0x7004_0000_0000_0000) (.mxfree ⟨0, false, 0, 0, 0, 0⟩) &&
     readsAs (wordOf 0x7008_0000_0000_0003) (.mxcfg ⟨0, false, 0, 0, 0, 3⟩) &&
     readsAs (wordOf 0x7100_0000_1018_0000) (.mxw ⟨0, false, 0, 4, 6, 0⟩) &&
     readsAs (wordOf 0x7200_0000_2028_0000) (.mxa ⟨0, false, 0, 8, 10, 0⟩) &&
     readsAs (wordOf 0x7302_0050_0430_0200) (.mxrd ⟨none, false, .f32, 0, false, 20, 1, 12, 0, true, false⟩) &&
     readsAs (wordOf 0x7306_0054_0430_0200) (.mxwr ⟨none, false, .f32, 0, false, 21, 1, 12, 0, true, false⟩) &&
     readsAs (wordOf 0x7400_0000_2800_0000) (.mxz ⟨0, false, 0, 10, 0, 0⟩) &&
     readsAs (wordOf 0x7800_0000_2014_0202) (.put ⟨0, false, 0, 8, 5, 0x202⟩) &&
     readsAs (wordOf 0x7900_0028_2C30_0002) (.reconf ⟨0, false, 10, 11, 12, 2⟩)) = true := by decide +kernel

/-! ### Refusals: the changes to those words that the chapters list, each with the detail that R65 gives it. A field of a
word is put by `setField`, at the bits of 03_encoding R50 to R55. -/

/-- The word `w` with the `len` bits from `lo` up holding `v`. -/
def setField (w lo len v : Nat) : List Parcel := wordOf (w - w / 2 ^ lo % 2 ^ len * 2 ^ lo + v * 2 ^ lo)

/-- 11_integer, the table of refusals. -/
theorem test_refused_integer :
    (refusedWith (setField 0x1018_8010_0408_0C00 34 8 5) 9 &&
     refusedWith (setField 0x1B14_000C_1400_0000 43 3 1) 3 &&
     refusedWith (setField 0x1A11_4008_0C00_0009 0 26 0x100) 3 &&
     refusedWith (0x7E050000 :: wordOf 0x4362_0024_2000_0000) 10 &&
     refusedWith (setField 0x400C_0018_1C04_0200 63 1 1) 12) = true := by decide +kernel

/-- 12_float, the table of refusals. -/
theorem test_refused_float :
    (refusedWith (setField 0x3002_000C_0408_0000 46 4 6) 4 &&
     refusedWith (0x7E020000 :: wordOf 0x320A_200C_0408_0000) 10 &&
     refusedWith (0x7E050000 :: wordOf 0x3302_0014_1800_0000) 10 &&
     refusedWith (setField 0x37E2_C050_4000_0400 50 4 13) 2 &&
     refusedWith (setField 0x3903_4028_401C_3200 9 1 0) 3 &&
     refusedWith (setField 0x3402_4020_2428_2C00 46 4 8) 4 &&
     refusedWith (setField 0x3903_4028_401C_3200 34 8 11) 9) = true := by decide +kernel

/-- 13_memory R249; the change of DSP decodes, and is refused at issue. -/
theorem test_refused_memory :
    (refusedWith (setField 0x5200_0028_181C_8000 55 1 1) 2 &&
     refusedWith (setField 0x5140_0014_0C00_8040 13 2 2) 3 &&
     refusedWith (setField 0x5400_0000_2000_0043 26 8 6) 9 &&
     refusedWith (setField 0x5504_002C_0000_0003 17 1 1) 3 &&
     refusedWith (setField 0x5508_0018_0000_0002 0 18 3) 3) = true := by decide +kernel

/-- 14_ordering, the table of refusals. -/
theorem test_refused_ordering :
    (refusedWith (setField 0x6800_0000_0000_0212 8 3 6) 3 &&
     refusedWith (setField 0x6800_0000_0000_0212 0 4 0) 3 &&
     refusedWith (setField 0x6804_0020_1000_0200 26 8 0) 3 &&
     refusedWith (setField 0x6808_0000_101C_0200 34 8 1) 3 &&
     refusedWith (setField 0x6900_000C_1018_0000 18 8 7) 9 &&
     refusedWith (0x7E000000 :: wordOf 0x6804_0020_1000_0200) 5) = true := by decide +kernel

/-- 15_atomics R289. -/
theorem test_refused_atomics :
    (refusedWith (setField 0x6000_4014_0804_0000 50 4 12) 2 &&
     refusedWith (setField 0x6166_0018_0800_0010 46 4 1) 4 &&
     refusedWith (setField 0x6240_0010_0800_0000 34 8 5) 9 &&
     refusedWith (setField 0x6302_000C_2010_0000 18 8 6) 9 &&
     refusedWith (setField 0x6302_000C_2010_0000 43 3 1) 3) = true := by decide +kernel

/-- 17_wait R313. -/
theorem test_refused_wait :
    (refusedWith (0x7E000600 :: setField 0x6B49_C010_0800_0000 46 4 0) 4 &&
     refusedWith (0x7E000600 :: setField 0x6B49_C010_0800_0000 50 3 6) 2 &&
     refusedWith (0x7E000600 :: setField 0x6B49_C010_0800_0000 34 8 5) 9 &&
     refusedWith (0x7E000600 :: setField 0x6B49_C010_0800_0000 13 1 1) 3 &&
     refusedWith (0x7E000600 :: wordOf 0x6B54_0010_0800_0040) 5 &&
     refusedWith (0x7E310800 :: wordOf 0x6B09_C018_0807_0000) 10 &&
     refusedWith (setField 0x6B54_0010_0800_0040 63 1 1) 12) = true := by decide +kernel

/-- 18_matrix R338. -/
theorem test_refused_matrix :
    (refusedWith (setField 0x7200_0000_2028_0000 26 8 9) 9 &&
     refusedWith (setField 0x7008_0000_0000_0003 0 18 4) 3 &&
     refusedWith (setField 0x7100_0000_1018_0000 43 3 1) 3 &&
     refusedWith (setField 0x7302_0050_0430_0200 9 1 0) 3 &&
     refusedWith (setField 0x7302_0050_0430_0200 46 4 9) 4 &&
     refusedWith (setField 0x7302_0050_0430_0200 63 1 1) 12 &&
     refusedWith (0x7E080000 :: wordOf 0x7306_0054_0430_0200) 5) = true := by decide +kernel

/-- 21_link R382. -/
theorem test_refused_link :
    (refusedWith (setField 0x7800_0000_2014_0002 26 8 6) 9 &&
     refusedWith (setField 0x7800_0000_2014_0002 34 8 1) 3 &&
     refusedWith (setField 0x7800_0000_2014_0002 6 1 1) 3 &&
     refusedWith (setField 0x7900_0028_2C30_0000 3 1 1) 3 &&
     refusedWith (setField 0x7900_0028_2C30_0000 43 3 1) 3 &&
     refusedWith (0x7E000000 :: wordOf 0x7800_0000_2014_0002) 5 &&
     refusedWith (0x7E000000 :: wordOf 0x7900_0028_2C30_0000) 5) = true := by decide +kernel

/-- R43, R60, R65: reserved parcels, a prefix before one, and a reserved major (1), a stream that ends (7), a second
prefix or a header behind a prefix (5), a header where an instruction stands (6). -/
theorem test_refused_parcels :
    (refusedWith [0xFE000000, 0] 1 && refusedWith [0x7E000000, 0xFF000000, 0] 1 && refusedWith (wordOf 0x3C00_0000_0000_0000) 1 &&
     refusedWith [0x10000000] 7 && refusedWith [] 7 && refusedWith [0x7E000000, 0x7E000000, 0x10000000, 0] 5 &&
     refusedWith [0x7E000000, 0x7F018040, 0x00010000] 5 && refusedWith [0x7F018040, 0x00010000] 6) = true := by decide +kernel

/-! ### Well-formedness: for each check an instruction that it refuses, with its detail; the first row of each list is the
well-formed instruction that the others spoil. -/

def illFormed (d : Nat) (i : Instr) : Bool := !wellFormed i && decide (lowestDetail i.info.details = some d)

/-- Format V: type, A marker, a g register and a k register out of range, pairs, the markers of a uniform form, predicates. -/
theorem test_wellFormed_v :
    (wellFormed (.iadd ⟨none, false, .i32, 2, false, 3, 1, 2, 0, false, false⟩) &&
     illFormed 4 (.iadd ⟨none, false, .f32, 2, false, 3, 1, 2, 0, false, false⟩) &&
     illFormed 12 (.fadd ⟨none, true, .f32, 2, false, 3, 1, 2, 0, false, false⟩) &&
     illFormed 3 (.iadd ⟨none, false, .i32, 2, false, 3, 1, 2, 1, false, false⟩) &&
     illFormed 9 (.iadd ⟨none, false, .i32, 2, false, 3, 1, 64, 0, true, false⟩) &&
     illFormed 9 (.iadd ⟨none, false, .i64, 2, false, 3, 2, 4, 0, false, false⟩) &&
     illFormed 13 (.iadd ⟨none, false, .i32, 0, true, 3, 1, 2, 0, false, false⟩) &&
     illFormed 12 (.iaddUniform ⟨none, false, .i32, 0, false, 3, 1, 2, 0, true, false⟩) &&
     illFormed 12 (.iaddUniform ⟨none, false, .i32, 1, false, 3, 1, 2, 0, false, false⟩) &&
     illFormed 9 (.icmp .eq ⟨none, false, .i32, 0, false, 16, 1, 2, 0, false, false⟩) &&
     illFormed 3 (.packf4 ⟨none, false, .f4x8, 0, false, 10, 16, 7, 12, false, false⟩)) = true := by decide +kernel

/-- The prefix: on an instruction that takes none, SD, Z, RM, IXS on an unused field and on a g register, K and K4. -/
theorem test_wellFormed_prefix :
    (wellFormed (.ffma ⟨some ⟨9, true, .rup, 0, .d, 1, 7⟩, false, .f32, 0, false, 4, 5, 6, 7, false, false⟩) &&
     illFormed 5 (.kand ⟨some ⟨0, false, .rne, 0, .none, 0, 0⟩, false, .b32, 0, false, 4, 5, 6, 0, false, false⟩) &&
     illFormed 5 (.ffma ⟨some ⟨9, false, .rup, 1, .none, 0, 0⟩, false, .f32, 0, false, 4, 5, 6, 7, false, false⟩) &&
     illFormed 5 (.mxwr ⟨some ⟨0, true, .rne, 0, .none, 0, 0⟩, false, .f32, 0, false, 21, 1, 12, 0, true, false⟩) &&
     illFormed 10 (.fmin ⟨some ⟨0, false, .rup, 0, .none, 0, 0⟩, false, .f32, 0, false, 4, 5, 6, 0, false, false⟩) &&
     illFormed 5 (.fabs ⟨some ⟨0, false, .rne, 0, .sb, 0, 0⟩, false, .f32, 0, false, 4, 5, 0, 0, false, false⟩) &&
     illFormed 5 (.fadd ⟨some ⟨0, false, .rne, 0, .sb, 0, 0⟩, false, .f32, 0, false, 4, 5, 6, 0, true, false⟩) &&
     illFormed 13 (.fadd ⟨some ⟨3, false, .rne, 0, .none, 0, 0⟩, false, .f32, 3, false, 4, 5, 6, 0, false, false⟩) &&
     illFormed 13 (.fadd ⟨some ⟨0, false, .rne, 0, .none, 0, 0⟩, false, .f32, 0, true, 4, 5, 6, 0, false, false⟩)) =
      true := by decide +kernel

/-- Formats I and L. -/
theorem test_wellFormed_i_l :
    (wellFormed (.shli ⟨none, false, .i8x4, 0, false, 2, 3, 9⟩) && wellFormed (.movi ⟨none, false, .i32, 0, false, 2, 9⟩) &&
     illFormed 3 (.shli ⟨none, false, .i8x4, 0, false, 2, 3, 0x100⟩) &&
     illFormed 4 (.movi ⟨none, false, .f32, 0, false, 2, 9⟩) &&
     illFormed 9 (.moviUniform ⟨none, false, .i32, 0, false, 64, 9⟩) &&
     illFormed 9 (.setx ⟨none, false, .b32, 0, false, 8, 4, 0⟩) &&
     illFormed 3 (.setx ⟨none, false, .b32, 1, false, 1, 4, 0⟩)) = true := by decide +kernel

/-- Format B: CM, the pair of CALLJ and JTB's fields, predicates. -/
theorem test_wellFormed_b :
    (wellFormed (.bra ⟨3, false, 0, .any, 5⟩) && illFormed 3 (.bra ⟨3, false, 1, .any, 5⟩) &&
     illFormed 13 (.bra ⟨0, true, 0, .any, 5⟩) && illFormed 3 (.jtb ⟨0, false, 5, .any, 0x7100C⟩) &&
     illFormed 3 (.jtb ⟨0, false, 5, .each, 0x0040_0000⟩) && illFormed 3 (.call ⟨0, false, 0, .all, 5⟩)) = true := by decide +kernel

/-- Format M: FN with a scale beside an SB, a policy without a cache, the g base's range, the v pair, LDT's SAK, D's pair. -/
theorem test_wellFormed_m :
    (wellFormed (.ld .elem ⟨none, false, true, false, .i64, 0, false, 8, 4, 1, .gen, .keep, 0⟩) &&
     illFormed 2 (.ld .elem ⟨none, false, true, true, .i64, 0, false, 8, 4, 1, .gen, .keep, 0⟩) &&
     illFormed 3 (.ld .elem ⟨none, false, true, false, .i64, 0, false, 8, 4, 1, .scr, .keep, 0⟩) &&
     illFormed 9 (.ld .elem ⟨none, false, true, false, .i64, 0, false, 8, 5, 1, .gen, .keep, 0⟩) &&
     illFormed 9 (.ld .elem ⟨none, false, false, false, .i64, 0, false, 8, 64, 1, .gen, .keep, 0⟩) &&
     illFormed 9 (.ld .elem ⟨none, false, false, false, .i64, 0, false, 9, 4, 1, .gen, .keep, 0⟩) &&
     illFormed 2 (.ldt ⟨none, false, true, false, .b32, 0, false, 10, 6, 7, .scr, .normal, 0⟩) &&
     illFormed 9 (.ldt ⟨none, false, false, false, .b32, 0, false, 10, 6, 64, .scr, .normal, 0⟩) &&
     illFormed 9 (.waitu .ge ⟨some ⟨0, false, .rne, 6, .none, 0, 0⟩, false, false, true, .n64, 0, false, 5, 2, 0, .gen, .normal, 0⟩) &&
     illFormed 9 (.waitu .ge ⟨some ⟨0, false, .rne, 7, .none, 0, 0⟩, false, false, true, .n64, 0, false, 4, 2, 0, .gen, .normal, 0⟩) &&
     illFormed 5 (.ld .elem ⟨some ⟨0, false, .rne, 0, .sa, 0, 0⟩, false, false, false, .b32, 0, false, 8, 4, 1, .gen, .normal, 0⟩) &&
     illFormed 10 (.ld .elem ⟨some ⟨0, false, .rtz, 0, .none, 0, 0⟩, false, true, false, .b32, 0, false, 8, 4, 1, .gen, .normal, 0⟩)) =
      true := by decide +kernel

/-- Format S: each class of register field, the bits of the immediate, the type of RTREE, predicates. -/
theorem test_wellFormed_s :
    (wellFormed (.rtree .f32 ⟨0, false, 3, 8, 4, 0⟩) && wellFormed (.bind ⟨0, false, 3, 4, 6, 0⟩) &&
     illFormed 4 (.rtree .i64 ⟨0, false, 3, 8, 4, 0⟩) && illFormed 9 (.rtree .f32 ⟨0, false, 64, 8, 4, 0⟩) &&
     illFormed 9 (.rtree .f32 ⟨0, false, 3, 8, 6, 0⟩) && illFormed 3 (.rtree .f32 ⟨1, false, 3, 8, 4, 0⟩) &&
     illFormed 3 (.acq ⟨0, false, 8, 0, 0, 0x200⟩) && illFormed 9 (.bind ⟨0, false, 3, 4, 7, 0⟩) &&
     illFormed 9 (.launch ⟨0, false, 5, 8, 64, 22⟩) && illFormed 9 (.cdecl ⟨0, false, 8, 5, 0, 0⟩) &&
     illFormed 9 (.cdecl ⟨0, false, 2, 16, 0, 0⟩) && illFormed 9 (.mxa ⟨0, false, 0, 9, 11, 0⟩) &&
     illFormed 3 (.exit ⟨0, false, 1, 0, 0, 0⟩) && illFormed 3 (.exit ⟨0, false, 0, 0, 0, 1⟩) &&
     illFormed 13 (.trap ⟨0, true, 0, 0, 0, 5⟩)) = true := by decide +kernel

/-- An event has no code. -/
theorem test_wellFormed_event : wellFormed .commitStep = false := by decide +kernel

/-! ### Witnesses: for each statement of the obligations a state and operands that meet its hypotheses, clause by clause. The
bed is the placed warp of one group, its bundle at the unit of bits `v`, issuing; `x` replaces the warp's record. -/

def bedW : WarpId := ⟨0, 0⟩

def bedG (x : Warp) : Group := Group.start 0 0 0 0 [x]

def bedWith (v : Nat) (g : Group) : State :=
  { State.reset.withFetchWord 64 v with cur := some bedW, agenda := [], groups := sset State.reset.groups 0 g }

def bed (v : Nat) (x : Warp) : State := bedWith v (bedG x)

def bedX : Warp := placedWarp 0

def bedB : Bundle := placedBundle 0

theorem bed_issuing (v : Nat) (x : Warp) (b : Bundle) (h : x.bundle = some b) (h0 : x.pipeFault = 0) :
    Issuing (bed v x) bedW x b := ⟨rfl, rfl, h, h0⟩

/-- An empty span buffer waits for no ownership. -/
theorem own_empty {s : State} {w : WarpId} {g : Group} {x : Warp} {n : Nat} (h0 : x.span = []) : s.ownRemote w g x n = .ok () := by
  unfold State.ownRemote
  split
  · rfl
  · simp [h0, State.askOwn, State.askRemote, distinct]

/-- A group that is no copy commits: its span buffer is empty. -/
theorem commit_alone {s : State} {w : WarpId} {g : Group} {x : Warp} (hg : s.group? w.g = some g) (hx : s.warp? w = some x)
    (h : x.loads = []) (h0 : x.span = []) (h1 : g.other = none) : CommitReady s w g x :=
  ⟨hg, hx, h, own_empty h0, .inl h1⟩

theorem bed_commit (v : Nat) (x : Warp) (h : x.loads = []) (h0 : x.span = []) :
    CommitReady ((bed v x).issued bedW) bedW (bedG x.presented) x.presented := commit_alone rfl rfl h h0 rfl

/-- An instruction whose fields name registers of every class. -/
def evenV : FmtV := ⟨none, false, .i32, 0, false, 4, 2, 6, 8, false, false⟩

/-- The same under a prefix with Z and k1, whose lanes are 0 to 15. -/
def evenVz : FmtV := ⟨some ⟨1, true, .rne, 0, .none, 0, 0⟩, false, .i64, 0, false, 4, 2, 6, 8, false, false⟩

def halfX : Warp := { bedX with k := bedX.k.set 1 ⟨0xFFFF, 0⟩ }

theorem witness_VectorArithmeticCompletes :
    Issuing (bed 0 halfX) bedW halfX bedB ∧ (∀ r ∈ arithRows, VecReady (bed 0 halfX) bedW halfX bedB false (r.spec evenV) evenV) ∧
    ∀ r ∈ arithRows, VecReady (bed 0 halfX) bedW halfX bedB false (r.spec evenVz) evenVz :=
  ⟨bed_issuing _ _ _ rfl rfl, by decide +kernel, by decide +kernel⟩

theorem witness_VectorLogicCompletes :
    Issuing (bed 0 halfX) bedW halfX bedB ∧ (∀ r ∈ bitRows, VecReady (bed 0 halfX) bedW halfX bedB false (r.spec evenV) evenV) ∧
    ∀ r ∈ bitRows, VecReady (bed 0 halfX) bedW halfX bedB false (r.spec evenVz) evenVz :=
  ⟨bed_issuing _ _ _ rfl rfl, by decide +kernel, by decide +kernel⟩

theorem witness_UniformCompletes :
    Issuing (bed 0 bedX) bedW bedX bedB ∧ ∀ r ∈ uniRows, VecReady (bed 0 bedX) bedW bedX bedB true (r.spec evenV) evenV :=
  ⟨bed_issuing _ _ _ rfl rfl, by decide +kernel⟩

def immF : FmtI := ⟨none, false, .i32, 0, false, 4, 2, 5⟩

def immL : FmtL := ⟨none, false, .i32, 0, false, 4, 5⟩

theorem witness_ImmediateCompletes :
    Issuing (bed 0 bedX) bedW bedX bedB ∧
    (∀ r ∈ immRows, VecReady (bed 0 bedX) bedW bedX bedB false (r.spec immF) (iToV immF)) ∧
    (∀ r ∈ immUniRows, VecReady (bed 0 bedX) bedW bedX bedB true (r.spec immF) (iToV immF)) ∧
    (∀ r ∈ moviRows, VecReady (bed 0 bedX) bedW bedX bedB false (r.spec immL) (lToV immL)) ∧
    ∀ r ∈ moviUniRows, VecReady (bed 0 bedX) bedW bedX bedB true (r.spec immL) (lToV immL) :=
  ⟨bed_issuing _ _ _ rfl rfl, by decide +kernel, by decide +kernel, by decide +kernel, by decide +kernel⟩

theorem witness_MaskAndMoveCompletes :
    Issuing (bed 0 bedX) bedW bedX bedB ∧ VecReady (bed 0 bedX) bedW bedX bedB false (specIcmp .i32) evenV ∧
    VecReady (bed 0 bedX) bedW bedX bedB false (specIsel .i32) evenV ∧
    (vecOperands (bed 0 bedX) bedW bedX bedB false (specIsel .i32) evenV).kPoison
      (vecOperands (bed 0 bedX) bedW bedX bedB false (specIsel .i32) evenV).c = 0 ∧
    VecReady (bed 0 bedX) bedW bedX bedB false (specMovg .i32 8) evenV ∧
    VecReady (bed 0 bedX) bedW bedX bedB false (specGmov .i32 8) evenV ∧
    VecReady (bed 0 bedX) bedW bedX bedB false (specMask .k .k .k) evenV ∧
    VecReady (bed 0 bedX) bedW bedX bedB false (specMask .k .k .none) evenV ∧
    VecReady (bed 0 bedX) bedW bedX bedB false (specMask .g .k .none) evenV :=
  ⟨bed_issuing _ _ _ rfl rfl, by decide +kernel⟩

theorem witness_CrossLaneCompletes :
    Issuing (bed 0 bedX) bedW bedX bedB ∧ VecReady (bed 0 bedX) bedW bedX bedB false (specShfl .i32) evenV ∧
    (∀ d ∈ [Opd.k, Opd.v 1 false], VecReady (bed 0 bedX) bedW bedX bedB false (specVote d) evenV ∧
      (vecOperands (bed 0 bedX) bedW bedX bedB false (specVote d) evenV).kPoison
        (vecOperands (bed 0 bedX) bedW bedX bedB false (specVote d) evenV).c = 0) ∧
    (∀ fn ∈ [RedFn.add, .min, .max, .and, .or, .xor, .fadd, .fmin, .fmax],
      VecReady (bed 0 bedX) bedW bedX bedB false (specRed fn .i32) evenV) ∧
    VecReady (bed 0 bedX) bedW bedX bedB false (specMatch .i32) evenV :=
  ⟨bed_issuing _ _ _ rfl rfl, by decide +kernel⟩

theorem witness_FloatCompletes :
    Issuing (bed 0 bedX) bedW bedX bedB ∧ (∀ r ∈ floatRows, VecReady (bed 0 bedX) bedW bedX bedB false r.spec evenV) ∧
    VecReady (bed 0 bedX) bedW bedX bedB false specFcmp evenV ∧
    (∀ r ∈ sfuRows, VecReady (bed 0 bedX) bedW bedX bedB false r.spec evenV) ∧
    evenV.d.toNat + (ixOf bedX evenV.pfx .d).getD 0 = 4 :=
  ⟨bed_issuing _ _ _ rfl rfl, by decide +kernel, by decide +kernel, by decide +kernel, by decide +kernel⟩

theorem witness_ConversionCompletes :
    Issuing (bed 0 bedX) bedW bedX bedB ∧
    (∀ src ∈ [Ty.f32, .e4m3x4, .i64], VecReady (bed 0 bedX) bedW bedX bedB false (specCvtfi src .i32) evenV ∧
      VecReady (bed 0 bedX) bedW bedX bedB false (specCvtif src .i32) evenV ∧
      VecReady (bed 0 bedX) bedW bedX bedB false (specCvtff src true evenV) evenV ∧
      ((vecOperands (bed 0 bedX) bedW bedX bedB false (specCvtff src true evenV) evenV).b.read
        (vecOperands (bed 0 bedX) bedW bedX bedB false (specCvtff src true evenV) evenV).w 0).2 = false) ∧
    VecReady (bed 0 bedX) bedW bedX bedB false specPackf4 evenV ∧
    ((vecOperands (bed 0 bedX) bedW bedX bedB false specPackf4 evenV).b.read
      (vecOperands (bed 0 bedX) bedW bedX bedB false specPackf4 evenV).w 0).2 = false ∧
    VecReady (bed 0 bedX) bedW bedX bedB false specUnpackf4 evenV :=
  ⟨bed_issuing _ _ _ rfl rfl, by decide +kernel⟩

/-- A kernel with breakpoints on. -/
def brkBed : State := { bed 0 bedX with kernels := sset State.reset.kernels 0 { placedKernel with desc := some { placedDesc with brken := true } } }

theorem witness_PlainInstructionsComplete :
    Issuing (bed 0 bedX) bedW bedX bedB ∧ (predOf bedX bedB.mask none 0 false).psn = 0 ∧
    (((bed 0 bedX).descOf bedW).map Desc.brken).getD false = false ∧ Issuing brkBed bedW bedX bedB ∧
    ((brkBed.descOf bedW).map Desc.brken).getD false = true ∧ (predOf bedX bedB.mask none 0 false).act ≠ 0 :=
  ⟨bed_issuing _ _ _ rfl rfl, by decide +kernel, by decide +kernel, ⟨rfl, rfl, rfl, rfl⟩, by decide +kernel, by decide +kernel⟩

theorem witness_ThreadControlCompletes :
    Issuing (bed 0 bedX) bedW bedX bedB ∧ bedX.handler = none ∧ (predOf bedX bedB.mask none 0 false).psn = 0 ∧
    CommitReady ((bed 0 bedX).issued bedW) bedW (bedG bedX.presented) bedX.presented ∧
    (bedX.kreg 1).p &&& bedB.mask = 0 ∧ (~~~bedX.finished) &&& ~~~bedB.mask = 0 :=
  ⟨bed_issuing _ _ _ rfl rfl, rfl, by decide +kernel, bed_commit _ _ rfl rfl, by decide +kernel, by decide +kernel⟩

theorem witness_SpecialRegistersComplete :
    Issuing (bed 0 bedX) bedW bedX bedB ∧ (SysReady bedX [] [4] ∧ SysReady bedX [6] [] ∧
    ∀ n ∈ List.range 26, srWaits ((bed 0 bedX).issued bedW) (mkIss (bed 0 bedX) bedW bedX bedB 8) bedX.presented n = false) ∧
    regV ((bed 0 bedX).allotOf bedW) 1 false 3 none = .ok 3 ∧ regV ((bed 0 bedX).allotOf bedW) 2 true 4 none = .ok 4 ∧
    (bedX.vFull 3 = true ∧ bedX.vFull 4 = true ∧ bedX.vFull 5 = true ∧
    (predOf bedX bedB.mask none 0 false).psn = 0 ∧ ∀ L < 32, (bedX.thread L).depth ≤ 16) ∧
    (srExists 12 = true ∧ srPerLane 12 = false ∧ ∀ n ∈ [12, 13, 14, 17, 18, 21], srWritable n = true) :=
  ⟨bed_issuing _ _ _ rfl rfl, by decide +kernel, rfl, rfl, by decide +kernel, by decide +kernel⟩

/-! Translations and targets that go through, as checks that evaluate. -/

def okOf {ε α : Type} : Except ε α → Bool
  | .ok _ => true
  | .error _ => false

theorem okOf_ex {ε α : Type} {e : Except ε α} (h : okOf e = true) : ∃ u, e = .ok u := by
  cases e with
  | ok u => exact ⟨u, rfl⟩
  | error d => cases h

theorem okOf_unit {ε : Type} {e : Except ε Unit} (h : okOf e = true) : e = .ok () := (okOf_ex h).elim fun _ hu => hu

def okGen (s : State) (i : Iss) (w : Warp) (a : Acc) (tag : Option Bool) (txn : Bool) (n : Nat) (pl : List (Nat × Nat)) : Bool :=
  pl.all fun e => (match s.find i.core i.ctx e.2 a (w.refused i.lanes) with
    | .ok _ => true
    | _ => false) && (tag.all fun c => !s.genTagFail i w c e.2 (s.paOf i e.2 a) n) &&
    (!txn || (w.txnOf (s.lineAt i.core i.ctx e.2)).isNone) && !s.hotPending i.wid (lineOf (s.paOf i e.2 a)) &&
    (w.txnOf (s.walkLines i.core i.ctx e.2)).isNone && !s.roundBars i.wid w (s.walkLines i.core i.ctx e.2)

theorem okGen_free {s : State} {i : Iss} {w : Warp} {a : Acc} {tag : Option Bool} {txn : Bool} {n : Nat} {pl : List (Nat × Nat)}
    (h : okGen s i w a tag txn n pl = true) : GenFree s i w a tag txn n pl := by
  intro e he
  have := List.all_eq_true.mp h e he
  simp only [Bool.and_eq_true, Bool.or_eq_true, Bool.not_eq_true', and_assoc, Option.isNone_iff_eq_none] at this
  obtain ⟨h1, h2, h3, h4⟩ := this
  refine ⟨?_, fun c hc => ?_, fun t => ?_, h4⟩
  · split at h1
    · exact ⟨_, by assumption⟩
    · cases h1
  · rw [hc] at h2; simpa using h2
  · rcases h3 with h3 | h3
    · rw [t] at h3; cases h3
    · exact h3

/-- A read that an instruction makes for itself, and a load, with nothing to ask of another package. -/
def okRead (s : State) (i : Iss) (w : Warp) (n : Nat) (pl : List (Nat × Nat)) : Bool :=
  okGen s i w .rd none true n pl && okOf (s.askReads i false pl)

theorem okRead_free {s : State} {i : Iss} {w : Warp} {n : Nat} {pl : List (Nat × Nat)} (h : okRead s i w n pl = true) :
    ReadFree s i w n pl := by
  rw [okRead, Bool.and_eq_true] at h; exact ⟨okGen_free h.1, okOf_unit h.2⟩

def okLoad (s : State) (i : Iss) (w : Warp) (const : Bool) (n : Nat) (pl : List (Nat × Nat)) : Bool :=
  okGen s i w .rd (some const) true n pl && okOf (s.askReads i const pl)

theorem okLoad_free {s : State} {i : Iss} {w : Warp} {const : Bool} {n : Nat} {pl : List (Nat × Nat)}
    (h : okLoad s i w const n pl = true) : LoadFree s i w const n pl := by
  rw [okLoad, Bool.and_eq_true] at h; exact ⟨okGen_free h.1, okOf_unit h.2⟩

def okTargets (s : State) (i : Iss) (w : Warp) (take : LaneMask) (T : Nat → DWord) (label : Option Nat) : Bool :=
  (lanesOf take).all fun L => match s.target i w (T L).toNat with
    | .ok l => label.isNone || decide (l = label)
    | _ => false

theorem okTargets_free {s : State} {i : Iss} {w : Warp} {take : LaneMask} {T : Nat → DWord} {label : Option Nat}
    (h : okTargets s i w take T label = true) : TargetsFree s i w take T label := by
  intro L hL
  have := List.all_eq_true.mp h L hL
  split at this
  · refine ⟨_, by assumption, fun n hn => ?_⟩
    subst hn; simpa using this
  · cases this

/-- k1 holds lane 0 alone, so that under ?k1 one lane leaves. -/
def one (x : Warp) : Warp := { x with k := x.k.set 1 ⟨1, 0⟩ }

/-- The placed unit as it issues. -/
def bedI : Iss := mkIss (bed 0 bedX) bedW bedX bedB 8

def bedT (x : Warp) : State := (bed 0 x).issued bedW

/-- The unit LPAD #7 (R152), so that the placed header carries the label 7. -/
def lpadV : Nat := 7 * 2 ^ 32 + 0x02040000

/-- g4 holds a table of zero words, g5 the placed header. -/
def jtbX : Warp := ((one (placedWarp lpadV)).setG 4 ⟨0x30000, false⟩).setG 5 ⟨0x40000, false⟩

/-- JTB v2, g4, #12, #7 ?k1. -/
def jtbF : FmtB := ⟨1, false, 2, .each, 0x7100C⟩

def jtbPl : List (Nat × Nat) := [(0, 0x30000)]

def oneX : Warp := one bedX

theorem witness_BranchesComplete :
    Issuing (bed 0 oneX) bedW oneX bedB ∧ (predOf oneX bedB.mask none 1 false).psn = 0 ∧
    takeMask .each false bedB.mask (predOf oneX bedB.mask none 1 false).act = 1 ∧
    TargetsFree (bedT oneX) bedI oneX.presented 1 (fun _ => directTarget bedI 2) none :=
  ⟨bed_issuing _ _ _ rfl rfl, by decide +kernel, by decide +kernel, okTargets_free (by decide +kernel)⟩

theorem witness_BranchesComplete_table :
    Issuing (bed lpadV jtbX) bedW jtbX (placedBundle lpadV) ∧ jtbX.handler = none ∧
    takeMask .each false allLanes (predOf jtbX allLanes none 1 false).act = 1 ∧ 2 < (bed lpadV jtbX).allotOf bedW ∧
    jtbX.vFull 2 = true ∧ (∀ g ∈ [4, 5], jtbX.gFull g = true ∧ (jtbX.greg g).p = false) ∧
    (∀ L ∈ lanesOf 1, (jtbX.lane 2 L).p = false ∧ (jtbX.lane 2 L).v.toNat < (bitsAt jtbF.off 0 10).toNat) ∧
    (jtbX.greg 4).v.toNat % 4 = 0 ∧
    ReadFree ((bed lpadV jtbX).issued bedW) bedI jtbX.presented 4 jtbPl ∧
    (∀ e ∈ jtbPl, ∀ v ∈ ((bed lpadV jtbX).issued bedW).readWords bedI jtbX.presented e.2 1, v.2 = false) ∧
    TargetsFree ((bed lpadV jtbX).issued bedW) bedI jtbX.presented 1 (fun _ => 0x40000) (some (bitsAt jtbF.off 16 16).toNat) :=
  ⟨bed_issuing _ _ _ rfl rfl, by decide +kernel, by decide +kernel, by decide +kernel, by decide +kernel, by decide +kernel,
    by decide +kernel, by decide +kernel, okRead_free (by decide +kernel), by decide +kernel, okTargets_free (by decide +kernel)⟩

/-- Room without a commit. -/
theorem room_now {s : State} {i : Iss} {y : Warp} {n : Nat} (h : s.spanFull i.wid y n = false) : RoomFor s i y n s := by
  rw [RoomFor, if_neg (by rw [h]; decide)]

/-- Lane 0 seventeen calls deep, so that its return reads the spill area. -/
def retX : Warp :=
  { oneX with
    cstk := 0x50001
    th := (Vector.replicate 32 (bedX.thread 0)).set 0
      { bedX.thread 0 with stack := List.replicate 16 0x40000, depth := 17 } }

/-- The same before a CALL: lane 0 sixteen deep, so that its oldest entry is spilled. -/
def callX : Warp :=
  { oneX with
    cstk := 0x50001
    th := (Vector.replicate 32 (bedX.thread 0)).set 0 { bedX.thread 0 with stack := List.replicate 16 0x40000, depth := 16 } }

def callPl : List (Nat × Nat) :=
  (lanesOf (1 &&& callX.lanesWhere fun h => decide (16 ≤ h.depth))).map fun L =>
    (L, spillAddr callX.cstk L ((callX.thread L).depth - 16))

theorem witness_CallsComplete :
    Issuing (bed 0 callX) bedW callX bedB ∧ callX.handler = none ∧ callPl.length = 1 ∧
    (predOf callX bedB.mask none 1 false).psn = 0 ∧ takeMask .each false bedB.mask (predOf callX bedB.mask none 1 false).act = 1 ∧
    1 &&& (callX.lanesWhere fun h => decide (16 + 16 * spillN callX.cstk ≤ h.depth)) = 0 ∧
    GenFree (bedT callX) bedI callX.presented .wr none false 8 callPl ∧
    TargetsFree (bedT callX) bedI callX.presented 1 (fun _ => directTarget bedI 2) none ∧
    RoomFor (bedT callX) bedI callX.presented ((bedT callX).newLines bedI callX.presented .gen callPl) (bedT callX) :=
  ⟨bed_issuing _ _ _ rfl rfl, by decide +kernel, by decide +kernel, by decide +kernel, by decide +kernel, by decide +kernel,
    okGen_free (by decide +kernel), okTargets_free (by decide +kernel), room_now (by decide +kernel)⟩

/-- CALLJ v2 with label 7, its target in v2 and v3. -/
def calljX : Warp :=
  { one (placedWarp lpadV) with v := [(2, Vector.replicate 32 ⟨0x40000, false⟩)] }

theorem witness_CallsComplete_pair :
    Issuing (bed lpadV calljX) bedW calljX (placedBundle lpadV) ∧ 2 + 2 ≤ (bed lpadV calljX).allotOf bedW ∧
    calljX.vFull 2 = true ∧ calljX.vFull 3 = true ∧
    (∀ L ∈ lanesOf 1, (calljX.lane 2 L).p = false ∧ (calljX.lane 3 L).p = false) ∧
    1 &&& (calljX.lanesWhere fun h => decide (16 ≤ h.depth)) = 0 ∧
    TargetsFree ((bed lpadV calljX).issued bedW) bedI calljX.presented 1
      (fun L => (calljX.lane 3 L).v ++ (calljX.lane 2 L).v) (some 7) :=
  ⟨bed_issuing _ _ _ rfl rfl, by decide +kernel, by decide +kernel, by decide +kernel, by decide +kernel, by decide +kernel,
    okTargets_free (by decide +kernel)⟩

def retPl : List (Nat × Nat) :=
  (lanesOf (1 &&& retX.lanesWhere fun h => decide (16 < h.depth))).map fun L =>
    (L, spillAddr retX.cstk L ((retX.thread L).depth - 17))

theorem witness_CallsComplete_return :
    Issuing (bed 0 retX) bedW retX bedB ∧ retX.handler = none ∧ (predOf retX bedB.mask none 1 false).psn = 0 ∧
    (predOf retX bedB.mask none 1 false).act = 1 ∧ 1 &&& (retX.lanesWhere fun h => decide (h.depth = 0)) = 0 ∧ retPl.length = 1 ∧
    ReadFree (bedT retX) bedI retX.presented 8 retPl ∧
    (∀ e ∈ retPl, ∀ v ∈ (bedT retX).readWords bedI retX.presented e.2 2, v.2 = false) ∧
    TargetsFree (bedT retX) bedI retX.presented 1
      (fun L => (retX.thread L).stack.headD 0) none :=
  ⟨bed_issuing _ _ _ rfl rfl, by decide +kernel, by decide +kernel, by decide +kernel, by decide +kernel, by decide +kernel,
    okRead_free (by decide +kernel), by decide +kernel, okTargets_free (by decide +kernel)⟩

/-- In a handler that every form of RESUME may leave. -/
def handX : Warp :=
  { bedX with
    handler := some
      { at_ := bedB.at_, restart := bedB.at_, shadow := [], forms := 7, code := 1, pc := bedB.at_, next := 0, fall := false,
        lanes := allLanes, held := [] } }

theorem witness_FaultControlCompletes :
    Issuing (bed 0 bedX) bedW bedX bedB ∧ CommitReady (bedT bedX) bedW (bedG bedX.presented) bedX.presented ∧
    (predOf bedX bedB.mask none 0 false).psn = 0 ∧ (predOf bedX bedB.mask none 0 false).act ≠ 0 ∧
    (predOf bedX bedB.mask none 1 false).psn = 0 ∧ (predOf bedX bedB.mask none 1 false).act = 0 ∧
    Issuing (bed 0 handX) bedW handX bedB ∧
    ∃ h, handX.handler = some h ∧ h.forms.getLsbD 0 = true ∧ h.forms.getLsbD 1 = true ∧ h.forms.getLsbD 2 = true :=
  ⟨bed_issuing _ _ _ rfl rfl, bed_commit _ _ rfl rfl, by decide +kernel, by decide +kernel, by decide +kernel, by decide +kernel,
    bed_issuing _ _ _ rfl rfl, _, rfl, by decide +kernel, by decide +kernel, by decide +kernel⟩

def extG : Group := { bedG bedX.presented with extents := [⟨.wb, 0, 128, none, none, none⟩] }

theorem witness_ExtentsComplete :
    Issuing (bed 0 bedX) bedW bedX bedB ∧ SysReady bedX [6] [5] ∧
    (bedT bedX).group? 0 = some (bedG bedX.presented) ∧
    ((bedG bedX.presented).extents.any fun e => e.freeable .wb 0) = false ∧
    Issuing (bedWith 0 extG) bedW bedX.presented bedB ∧ (extG.extents.any fun e => e.freeable .wb 0) = true :=
  ⟨bed_issuing _ _ _ rfl rfl, by decide +kernel, rfl, by decide +kernel, ⟨rfl, rfl, rfl, rfl⟩, by decide +kernel⟩

theorem placeFree_gen {s : State} {i : Iss} {w : Warp} {n : Nat} {pl : List (Nat × Nat)} (h0 : okLoad s i w false n pl = true) :
    PlaceFree s i w .gen .rd n pl := by
  rw [PlaceFree, if_pos (show isGen .gen = true from rfl), if_pos rfl]; exact okLoad_free h0

theorem placeFree_gen_wr {s : State} {i : Iss} {w : Warp} {n : Nat} {pl : List (Nat × Nat)}
    (h0 : okGen s i w .wr none false n pl = true) : PlaceFree s i w .gen .wr n pl := by
  rw [PlaceFree, if_pos (show isGen .gen = true from rfl), if_neg (by decide)]; exact okGen_free h0

theorem placeFree_scr {s : State} {i : Iss} {w : Warp} {a : Acc} {n : Nat} {pl : List (Nat × Nat)}
    (h0 : ∀ e ∈ pl, s.scrChk i .scr e.2 (decide (a = .wr)) = .ok) : PlaceFree s i w .scr a n pl := by
  rw [PlaceFree, if_neg (by decide)]; exact fun e he => ⟨h0 e he, fun h => absurd h.1 (by decide)⟩

theorem gen_append {s : State} {i : Iss} {w : Warp} {a : Acc} {tag : Option Bool} {txn : Bool} {n : Nat} {p q : List (Nat × Nat)}
    (h : GenFree s i w a tag txn n p) (h0 : GenFree s i w a tag txn n q) : GenFree s i w a tag txn n (p ++ q) :=
  fun e he => (List.mem_append.mp he).elim (h e) (h0 e)

/-- One address, for whichever lanes. -/
theorem gen_one {s : State} {i : Iss} {w : Warp} {a : Acc} {tag : Option Bool} {txn : Bool} {n va : Nat}
    (h : okGen s i w a tag txn n [(0, va)] = true) : GenFree s i w a tag txn n (i.onePlace va) := by
  intro e he
  obtain ⟨L, -, rfl⟩ := List.mem_map.mp he
  exact okGen_free h (0, va) (List.mem_singleton.mpr rfl)

theorem mem_of_distinct {l : List Nat} {n : Nat} : n ∈ distinct l → n ∈ l := by
  have key : ∀ (l acc : List Nat), n ∈ l.foldl (fun acc x => addOnce x acc) acc → n ∈ acc ∨ n ∈ l := by
    intro l
    induction l with
    | nil => exact fun acc h => .inl h
    | cons a r ih =>
      intro acc h
      rcases ih _ h with h | h
      · dsimp only [addOnce] at h
        split at h
        · exact .inl h
        · exact (List.mem_append.mp h).imp id fun h => by rw [List.mem_singleton.mp h]; exact .head _
      · exact .inr (.tail _ h)
  exact fun h => (key l [] h).resolve_left (by simp)

/-- Nothing is asked for lines that no other package homes. -/
theorem ask_none {s : State} {w : WarpId} {kind : Nat → PacketKind} {l : List Nat} (h : ∀ n ∈ l, s.remote (128 * n) = false) :
    s.askRemote w kind l = .ok () := by
  unfold State.askRemote
  rw [List.filter_eq_nil_iff.mpr fun n hn => by rw [h n (mem_of_distinct hn)]; simp]

theorem askReads_home {s : State} {i : Iss} {pl : List (Nat × Nat)} (h : ∀ e ∈ pl, s.remote (128 * lineOf (s.paOf i e.2 .rd)) = false) :
    s.askReads i false pl = .ok () := by
  refine ask_none fun n hn => ?_
  obtain ⟨p, hp, hn⟩ := List.mem_filterMap.mp hn
  obtain ⟨e, he, rfl⟩ := List.mem_map.mp hp
  split at hn
  · cases hn
  · cases hn; exact h e he

theorem read_one {s : State} {i : Iss} {w : Warp} {n va : Nat}
    (h : (okGen s i w .rd none true n [(0, va)] && !s.remote (128 * lineOf (s.paOf i va .rd))) = true) : ReadFree s i w n (i.onePlace va) := by
  rw [Bool.and_eq_true, Bool.not_eq_true'] at h
  refine ⟨gen_one h.1, askReads_home fun e he => ?_⟩
  obtain ⟨L, -, rfl⟩ := List.mem_map.mp he
  exact h.2

theorem space_now {s : State} {i : Iss} {sp : Space} {use : Bool} {align n : Nat} {pl : List (Nat × Nat)} (h0 : sp ≠ .l2w)
    (h : ∀ e ∈ pl, e.2 % align = 0 ∧ use = true ∧ s.inSpace i sp e.2 n = true) : SpaceFree s i sp use align n pl :=
  ⟨h, fun e => absurd e h0⟩

/-! The bed with scratchpad and buffers, and with the engine held. -/

def bigDesc : Desc := { placedDesc with scr := 131072, wb := 65536, ab := 65536, cb := 65536 }

def bigKernel : Kernel := { placedKernel with desc := some bigDesc }

def bigBed (x : Warp) : State := { bed 0 x with kernels := sset State.reset.kernels 0 bigKernel }

def bigT (x : Warp) : State := (bigBed x).issued bedW

/-- g2 and g3 hold addresses, under ?k1 lane 0 alone accesses. -/
def memX : Warp := (oneX.setG 2 ⟨0x30000, false⟩).setG 3 ⟨0x100, false⟩

/-- A memory instruction of base g2 and offset v6 under ?k1. -/
def genM : FmtM := ⟨none, false, false, false, .b32, 1, false, 4, 2, 6, .gen, .normal, 0⟩

/-- The same of base g3 in the scratchpad, without an offset register. -/
def scrM : FmtM := { genM with nb := true, sa := 3, sb := 0, sp := .scr }

def memPl : List (Nat × Nat) := [(0, 0x30000)]

/-- LD and PRF in GEN, LD in the scratchpad. -/
theorem witness_LoadsComplete :
    Issuing (bigBed memX) bedW memX bedB ∧ MemReady (bigBed memX) bedW memX bedB (specLd .elem .b32) genM ∧
    (memOperands (bigBed memX) bedW memX bedB (specLd .elem .b32) genM).places = memPl ∧
    SpaceFree (bigT memX) bedI .gen (mayLoad .gen) 4 4 memPl ∧ PlaceFree (bigT memX) bedI memX.presented .gen .rd 4 memPl ∧
    MemReady (bigBed memX) bedW memX bedB (specLd .elem .b32) scrM ∧
    SpaceFree (bigT memX) bedI .scr (mayLoad .scr) 4 4 [(0, 0x100)] ∧
    PlaceFree (bigT memX) bedI memX.presented .scr .rd 4 [(0, 0x100)] ∧
    MemReady (bigBed memX) bedW memX bedB (mPlain [.b32] .none) genM ∧
    SpaceFree (bigT memX) bedI .gen (isGen .gen) 1 1 memPl :=
  ⟨⟨rfl, rfl, rfl, rfl⟩, by decide +kernel, by decide +kernel, space_now (by decide) (by decide +kernel),
    placeFree_gen (by decide +kernel), by decide +kernel, space_now (by decide) (by decide +kernel),
    placeFree_scr (by decide +kernel), by decide +kernel, space_now (by decide) (by decide +kernel)⟩

/-- LDT v4, [g3], g6 on rows of the scratchpad. -/
def ldtM : FmtM := ⟨none, false, false, false, .b32, 0, false, 4, 3, 6, .scr, .normal, 0⟩

def ldtO : Mx := memOperands (bigBed memX) bedW memX bedB specLdt ldtM

def ldtPl : List (Nat × Nat) := (List.range 32).map fun L => (L, ldtO.row (L % 16))

theorem witness_LoadsComplete_tile :
    Issuing (bigBed memX) bedW memX bedB ∧ MemReady (bigBed memX) bedW memX bedB specLdt ldtM ∧
    wholeWarp bedI memX.presented ldtO.act = true ∧ ldtO.rowOffenders = [] ∧
    SpaceFree (bigT memX) bedI .scr (mayLoad .scr) 1 16 ldtPl ∧ PlaceFree (bigT memX) bedI memX.presented .scr .rd 16 ldtPl :=
  ⟨⟨rfl, rfl, rfl, rfl⟩, by decide +kernel, by decide +kernel, by decide +kernel, space_now (by decide) (by decide +kernel),
    placeFree_scr (by decide +kernel)⟩

theorem witness_LoadsComplete_query :
    MemReady (bigBed memX) bedW memX bedB { mPlain [.b32] (.v 1 1) with noPolicy := true } genM ∧
    ∃ vals, (bigT memX).queries bedI memX.presented memPl = .ok vals :=
  ⟨by decide +kernel, okOf_ex (by decide +kernel)⟩

theorem witness_StoresComplete :
    Issuing (bigBed memX) bedW memX bedB ∧ MemReady (bigBed memX) bedW memX bedB (specSt .half .b32) genM ∧
    (memOperands (bigBed memX) bedW memX bedB (specSt .half .b32) genM).places = memPl ∧
    SpaceFree (bigT memX) bedI .gen (mayStore .gen) 2 2 memPl ∧ PlaceFree (bigT memX) bedI memX.presented .gen .wr 2 memPl ∧
    RoomFor (bigT memX) bedI memX.presented ((bigT memX).newLines bedI memX.presented .gen memPl) (bigT memX) ∧
    MemReady (bigBed memX) bedW memX bedB (specSt .elem .b32) scrM ∧
    SpaceFree (bigT memX) bedI .scr (mayStore .scr) 4 4 [(0, 0x100)] ∧
    PlaceFree (bigT memX) bedI memX.presented .scr .wr 4 [(0, 0x100)] :=
  ⟨⟨rfl, rfl, rfl, rfl⟩, by decide +kernel, by decide +kernel, space_now (by decide) (by decide +kernel),
    placeFree_gen_wr (by decide +kernel), room_now (by decide +kernel), by decide +kernel,
    space_now (by decide) (by decide +kernel), placeFree_scr (by decide +kernel)⟩

def atomC : State :=
  (bigT memX).committed bedW (bedG memX.presented) memX.presented bedB.mask bedI.fall

/-- ATOM, RED and CAS on a word of the scratchpad. -/
theorem witness_AtomicsComplete :
    Issuing (bigBed memX) bedW memX bedB ∧
    (∀ q ∈ [mPlain (atomTys .add) (mdT .b32), { mPlain (atomTys .add) (mdT .b32) with zOk := false },
        mPlain tBits (.v (2 * regs (tyPair .b32)) (2 * regs (tyPair .b32)))],
      MemReady (bigBed memX) bedW memX bedB q scrM ∧
      (memOperands (bigBed memX) bedW memX bedB q scrM).places = [(0, 0x100)] ∧
      ∀ e ∈ [(0, 0x100)], ((memOperands (bigBed memX) bedW memX bedB q scrM).atomOperand false .b32 e.1).2.2 = false) ∧
    SpaceFree (bigT memX) bedI .scr (mayAtom .scr) 4 4 [(0, 0x100)] ∧
    atomChecks (bigT memX) bedI memX.presented .scr 4 [(0, 0x100)] = .ok () ∧
    CommitReady (bigT memX) bedW (bedG memX.presented) memX.presented ∧
    ∃ u, atomC.sendAtoms bedI
      (memOperands (bigBed memX) bedW memX bedB (mPlain (atomTys .add) (mdT .b32)) scrM) .scr (some .add) false .b32 = .ok u :=
  ⟨⟨rfl, rfl, rfl, rfl⟩, by decide +kernel, space_now (by decide) (by decide +kernel), okOf_unit (by decide +kernel), commit_alone rfl rfl rfl rfl rfl,
    okOf_ex (by decide +kernel)⟩

/-- g8 to g11 hold the block of RTREE: result, status, counter, control. -/
def treeX : Warp :=
  (((bedX.setG 8 ⟨0x30000, false⟩).setG 9 ⟨0x30100, false⟩).setG 10 ⟨0x30108, false⟩).setG 11 ⟨0x100, false⟩

/-- RTREE.f32 g3, v2, g8, #0. -/
def treeF : FmtS := ⟨0, false, 3, 2, 8, 0⟩

theorem witness_ReductionTreeCompletes :
    Issuing (bigBed treeX) bedW treeX bedB ∧ 2 < (bigBed treeX).allotOf bedW ∧
    wholeWarp bedI treeX.presented bedB.mask = true ∧ treeX.vFull 2 = true ∧ (∀ L < 32, (treeX.lane 2 L).p = false) ∧
    SysReady treeX (fourOf treeF.sb) [3] ∧ (treeOpds treeX.presented treeF).offenders = [] ∧
    GenFree (bigT treeX) bedI treeX.presented .wr none false 8
      (bedI.onePlace 0x30000 ++ bedI.onePlace 0x30100 ++ bedI.onePlace 0x30108) ∧
    CommitReady (bigT treeX) bedW (bedG treeX.presented) treeX.presented :=
  ⟨⟨rfl, rfl, rfl, rfl⟩, by decide +kernel, by decide +kernel, by decide +kernel, by decide +kernel, by decide +kernel,
    by decide +kernel,
    gen_append (gen_append (gen_one (by decide +kernel)) (gen_one (by decide +kernel))) (gen_one (by decide +kernel)),
    commit_alone rfl rfl rfl rfl rfl⟩

/-- g8 to g11 hold the block of a copy of 16 bytes from GEN to the scratchpad. -/
def copyX : Warp :=
  (((bedX.setG 8 ⟨0x100, false⟩).setG 9 ⟨0x30000, false⟩).setG 10 ⟨0x0000000100000010, false⟩).setG 11 ⟨0, false⟩

/-- CPA.SCR.GEN g8, #3 (and, with g12, CPA.GCM). -/
def copyF : FmtS := ⟨0, false, 0, 8, 12, 0x43⟩

theorem witness_CopiesComplete :
    Issuing (bigBed copyX) bedW copyX bedB ∧
    (∀ gcm ∈ [false, true],
      SysReady copyX (fourOf copyF.sa ++ if gcm then [12, 13] else []) [] ∧ (copyOpds copyX.presented copyF gcm).offenders = [] ∧
      mayCopyDst (copyOpds copyX.presented copyF gcm).dsp = true ∧ mayCopySrc (copyOpds copyX.presented copyF gcm).ssp = true ∧
      (copyOpds copyX.presented copyF gcm).outside (bigT copyX) bedI = none) ∧
    (∀ gcm, (copyOpds copyX.presented copyF gcm).gcmCheck (bigT copyX) bedI copyX.presented = .ok ()) ∧
    (bigT copyX).sealedFor bedI [.scr, .gen] = false ∧
    wholeWarp bedI copyX.presented bedB.mask = true ∧ (bigT copyX).idBusy 0 3 = false ∧
    ((bigT copyX).copies.filter fun c => decide (c.core = bedI.core)).length < 64 ∧
    CommitReady (bigT copyX) bedW (bedG copyX.presented) copyX.presented :=
  ⟨⟨rfl, rfl, rfl, rfl⟩, by decide +kernel, fun gcm => by cases gcm <;> exact okOf_unit (by decide +kernel), by decide +kernel,
    by decide +kernel, by decide +kernel, by decide +kernel, commit_alone rfl rfl rfl rfl rfl⟩

/-- CPWAIT g9, g10 on IDs 4 and 32; CPWAIT g9, #3; CPPOLL. -/
theorem witness_CopiesComplete_joins :
    SysReady copyX [10] [9] ∧ SysReady copyX [] [9] ∧ (List.range 64).filter (fun n => (copyX.gv 10).getLsbD n) = [4, 32] ∧
    ∀ n ∈ [4, 32, 3], (bigT copyX).idBusy 0 n = false := by decide +kernel

/-- A posted pair of way masks. -/
def waysBed : State :=
  { bed 0 bedX with l2w := [(l2wKey 0 0, ⟨0xFFFF, 0, some (0xFF, 0xFF00), Mem.empty⟩)] }

theorem witness_CacheControlCompletes :
    Issuing (bed 0 bedX) bedW bedX bedB ∧ SysReady bedX [4, 5] [] ∧ SysReady bedX [] [6] ∧
    ((bedT bedX).l2wOf (l2wKey bedI.ctx (sectorOf bedI.core))).posted = none ∧ Issuing waysBed bedW bedX bedB ∧
    ((waysBed.issued bedW).l2wOf (l2wKey bedI.ctx (sectorOf bedI.core))).posted = some (0xFF, 0xFF00) ∧
    (waysBed.issued bedW).l2wBusy (l2wKey bedI.ctx (sectorOf bedI.core)) = false :=
  ⟨bed_issuing _ _ _ rfl rfl, by decide +kernel, by decide +kernel, by decide +kernel, ⟨rfl, rfl, rfl, rfl⟩, by decide +kernel,
    by decide +kernel⟩

/-! Ordering and barriers. -/

/-- The warp, whose record is `z`, has committed and waits for its release action. -/
def relFrom (s : State) (z : Warp) : State :=
  (s.committed bedW (bedG z) z allLanes bedI.fall).updWarp bedW fun z => { z with releasing := true }

def relU (x : Warp) : State := relFrom (bigT x) x.presented

theorem rel_ready {s : State} {y z : Warp} {n : Nat} (hg : s.group? 0 = some (bedG z)) (hx : s.warp? bedW = some z)
    (h : z.loads = []) (h0 : z.span = []) (h1 : y.releasing = false) (h2 : (relFrom s z).released bedW n = true) :
    ReleaseReady s bedI y n (relFrom s z) :=
  ⟨h2, by rw [if_neg (by rw [h1]; decide)]; exact ⟨_, _, commit_alone hg hx h h0 rfl, rfl⟩⟩

/-- g4 and g8 hold 8-byte aligned addresses. -/
def ordX : Warp := (bedX.setG 4 ⟨0x30000, false⟩).setG 8 ⟨0x30080, false⟩

/-- FENCE with every predecessor and successor, ACQ, REL, BIND and UNBIND. -/
theorem witness_OrderingCompletes :
    Issuing (bigBed ordX) bedW ordX bedB ∧ (0x5FF : BitVec 18).getLsbD 1 = true ∧
    ReleaseReady (bigT ordX) bedI ordX.presented (immScope 0x5FF) (relU ordX) ∧
    (∃ z, (relU ordX).warp? bedW = some z ∧ z.loadsDone = true) ∧
    (relU ordX).atomsDone bedW = true ∧ (relU ordX).enginesDone bedW = true ∧
    (SysReady ordX [4] [8] ∧ (ordX.gv 4).toNat % 8 = 0 ∧ SysReady ordX [4, 7] [] ∧ SysReady ordX [4, 6, 7] [3]) ∧
    ReadFree (bigT ordX) bedI ordX.presented 8 (bedI.onePlace (ordX.gv 4).toNat) :=
  ⟨⟨rfl, rfl, rfl, rfl⟩, by decide, rel_ready rfl rfl rfl rfl rfl (by decide +kernel), ⟨_, rfl, by decide +kernel⟩,
    by decide +kernel, by decide +kernel, by decide +kernel, read_one (by decide +kernel)⟩

/-- REL at its first presentation: translated, its place kept, then the commit. -/
def ordZ : Warp := { ordX.presented with relPa := 0x30000 }

def ordHeld : State := ((bigT ordX).touch 0 0 0x30000 .wr).updWarp bedW fun z => { z with relPa := (bigT ordX).paOf bedI 0x30000 .wr }

theorem witness_OrderingCompletes_release :
    ordX.releasing = false ∧ (ordX.gv 4).toNat = 0x30000 ∧ GenFree (bigT ordX) bedI ordX.presented .wr none true 8 (bedI.onePlace 0x30000) ∧
    (bigT ordX).askRemote bedW (fun n => .own (128 * n)) [lineOf ((bigT ordX).paOf bedI 0x30000 .wr)] = .ok () ∧
    ReleaseReady ordHeld bedI ordX.presented (immScope 0x200) (relFrom ordHeld ordZ) :=
  ⟨rfl, by decide +kernel, gen_one (by decide +kernel), okOf_unit (by decide +kernel),
    rel_ready (by decide +kernel) (by decide +kernel) rfl rfl rfl (by decide +kernel)⟩

/-- A load fence with no release: PRED LD alone, `u` is the state itself. -/
theorem witness_OrderingCompletes_load :
    (0x211 : BitVec 18).getLsbD 1 = false ∧ ∃ z, (bigT ordX).warp? bedW = some z ∧ z.loadsDone = true :=
  ⟨by decide, _, rfl, by decide +kernel⟩

/-- BARARV, BARSYNC and BARWT name barrier 1 of the group; g4 holds the phase that BARWT waits for, g6 a limit. -/
def barX : Warp := ((bedX.setG 4 ⟨1, false⟩).setG 6 ⟨9, false⟩)

def barF : FmtS := ⟨0, false, 5, 4, 6, 1⟩

/-- Barrier 1 in a state. -/
def barBed (x : Warp) (b : Bar) : State := bedWith 0 { bedG x with bars := Bar.reset |> Vector.replicate 16 |>.set 1 b }

def barOne (x : Warp) (b : Bar) : Bar := ((barBed x b).issued bedW).barOf bedI barF

theorem witness_BarriersComplete :
    Issuing (bigBed barX) bedW barX bedB ∧ SysReady barX [] [5] ∧ barX.handler = none ∧
    (bigT barX).barBroken bedI barX.presented barF = false ∧
    sgetD ((bigT barX).barOf bedI barF).marks ((bigT barX).barKey bedW (barGang barF.imm)) 0 &&& bedB.mask = 0 ∧
    CommitReady (bigT barX) bedW (bedG barX.presented) barX.presented ∧
    ReleaseReady (bigT barX) bedI barX.presented 1 (relU barX) ∧ SysReady barX [4, 6] [5] ∧
    ((bigT barX).barOf bedI barF).gen ≠ (barX.gv 4).getLsbD 0 :=
  ⟨⟨rfl, rfl, rfl, rfl⟩, by decide +kernel, rfl, by decide +kernel, by decide +kernel, commit_alone rfl rfl rfl rfl rfl,
    rel_ready rfl rfl rfl rfl rfl (by decide +kernel), by decide +kernel, by decide +kernel⟩

/-- BARWT at a broken barrier, and where its limit of 0 has passed at once. -/
theorem witness_BarriersComplete_limit :
    Issuing (barBed barX { Bar.reset with st := .broken, gen := true }) bedW barX bedB ∧
    (barOne barX { Bar.reset with st := .broken, gen := true }).gen = (barX.gv 4).getLsbD 0 ∧ barF.sb ≠ 0 ∧
    ((barBed barX { Bar.reset with st := .broken, gen := true }).issued bedW).barBroken bedI barX.presented barF = true ∧
    (barOne barX { Bar.reset with st := .armed, gen := true }).gen = (barX.gv 4).getLsbD 0 ∧
    ((barBed barX { Bar.reset with st := .armed, gen := true }).issued bedW).barBroken bedI barX.presented barF = false ∧
    (barX.setG 6 ⟨0, false⟩).presented.limitPassed bedB.at_.pc.toNat (fld ((barX.setG 6 ⟨0, false⟩).gv 6).toNat 0 32) = true :=
  ⟨⟨rfl, rfl, rfl, rfl⟩, by decide +kernel⟩

/-! The engine, held by the warp's group, which has weights. -/

/-- The group of the engine's tests. -/
def mxG (x : Warp) : Group := { bedG x with weights := true }

def heldEngine : Engine := { Engine.idle with st := .granted, holder := some 0, qleft := 5 }

def mxBed (x : Warp) : State :=
  { bigBed x with engines := sset State.reset.engines 0 heldEngine, groups := sset State.reset.groups 0 (mxG x) }

def mxT (x : Warp) : State := (mxBed x).issued bedW

theorem mx_commit (x : Warp) (h : x.loads = []) (h0 : x.span = []) :
    CommitReady (mxT x) bedW (mxG x.presented) x.presented := commit_alone rfl rfl h h0 rfl

/-- With the lease held nothing keeps an instruction of the engine. -/
theorem hold_now {s : State} {i : Iss} {w : Warp} (h : followed s i w = false) (h0 : s.leaseView i.wid.g = 1) :
    mxHold s i w = .ok s := by
  unfold mxHold; simp only [h, h0, Bool.false_eq_true, if_false]

/-- g4 holds a descriptor's address, g6 a tile's, g8 to g10 the operands of an MXA of one row into CB 512. -/
def mxX : Warp :=
  ((((bedX.setG 4 ⟨0x30000, false⟩).setG 6 ⟨0x80, false⟩).setG 8 ⟨0x100, false⟩).setG 9 ⟨0x1000, false⟩).setG 10 ⟨512, false⟩

/-- MXW g4, g6; MXA g8, g10. -/
def mxwF : FmtS := ⟨0, false, 0, 4, 6, 0⟩
def mxaF : FmtS := ⟨0, false, 0, 8, 10, 0⟩

/-- MXCFG and MXZ g10 (four rows are not needed: one row at CB 512). -/
theorem witness_EngineOperationsComplete :
    Issuing (mxBed mxX) bedW mxX bedB ∧ CommitReady (mxT mxX) bedW (mxG mxX.presented) mxX.presented ∧
    wholeWarp bedI mxX.presented bedB.mask = true ∧ mxGate (mxT mxX) bedI mxX.presented = .ok () ∧
    mxHold (mxT mxX) bedI mxX.presented = .ok (mxT mxX) ∧
    (SysReady mxX [10] [] ∧ fld (mxX.gv 10).toNat 0 32 % 512 = 0 ∧
      (mxT mxX).covers bedI .cb (fld (mxX.gv 10).toNat 0 32) (512 * (fld (mxX.gv 10).toNat 32 8 + 1)) = true) :=
  ⟨⟨rfl, rfl, rfl, rfl⟩, mx_commit _ rfl rfl, by decide +kernel, okOf_unit (by decide +kernel), rfl, by decide +kernel⟩

theorem mxw_words : (mxT mxX).readWords bedI mxX.presented 0x30000 16 = List.replicate 16 (0, false) := by decide +kernel

theorem witness_EngineOperationsComplete_tile :
    SysReady mxX [4, 6] [] ∧ (mxX.gv 4).toNat % 64 = 0 ∧ (mxX.gv 6).toNat % 128 = 0 ∧
    ReadFree (mxT mxX) bedI mxX.presented 64 (bedI.onePlace (mxX.gv 4).toNat) ∧
    ((∀ e ∈ (mxT mxX).readWords bedI mxX.presented 0x30000 16, e.2 = false) ∧
      leBytes (wordsNat ((mxT mxX).readWords bedI mxX.presented 0x30000 16)) 64 = List.replicate 64 0 ∧
      (mxT mxX).covers bedI .wb 0x80 32768 = true ∧ markedIn (mxG mxX).wb 0x80 32768 = none) ∧
    CommitReady ((mxT mxX).fillRead bedI 0x30000) bedW (mxG mxX.presented) mxX.presented ∧
    mxHold ((mxT mxX).fillRead bedI 0x30000) bedI mxX.presented = .ok ((mxT mxX).fillRead bedI 0x30000) :=
  ⟨by decide +kernel, by decide +kernel, by decide +kernel, read_one (by decide +kernel),
    ⟨by rw [mxw_words]; decide, by rw [mxw_words]; decide, by decide +kernel, by decide +kernel⟩, commit_alone (by decide +kernel) (by decide +kernel) rfl rfl rfl, hold_now (by decide +kernel) (by decide +kernel)⟩

theorem witness_EngineOperationsComplete_product :
    SysReady mxX [8, 9, 10] [] ∧ (mxaOpds mxX.presented mxaF).misaligned = none ∧
    (mxaOpds mxX.presented mxaF).outside (mxT mxX) bedI (mxG mxX).ab = [] ∧
    (mxaOpds mxX.presented mxaF).marked (mxG mxX).ab (mxG mxX).cb = [] ∧ (mxT mxX).hasWeights 0 = true := by decide +kernel

/-- MXRD and MXWR v4, v2, g6 on CB 0x80. -/
def mxrdF : FmtV := ⟨none, false, .f32, 0, false, 4, 2, 6, 0, true, false⟩

theorem witness_EngineTransfersComplete :
    Issuing (mxBed mxX) bedW mxX bedB ∧
    (VecReady (mxBed mxX) bedW mxX bedB false specMxrd mxrdF ∧
      wholeWarp bedI mxX.presented (vecOperands (mxBed mxX) bedW mxX bedB false specMxrd mxrdF).act = true ∧
      ∀ L < 32, let v := vecOperands (mxBed mxX) bedW mxX bedB false specMxrd mxrdF
        (v.a.read mxX.presented L).2 = false ∧ (v.b.read mxX.presented L).2 = false ∧
        v.cbOff L % 4 = 0 ∧ (mxT mxX).covers bedI .cb (v.cbOff L) 4 = true) ∧
    (mxPending (mxT mxX) bedI mxX.presented = .ok () ∧ (mxT mxX).mxrdEarly bedW mxX.presented = false) ∧
    mxGate (mxT mxX) bedI mxX.presented = .ok () ∧ mxHold (mxT mxX) bedI mxX.presented = .ok (mxT mxX) ∧
    CommitReady (mxT mxX) bedW (mxG mxX.presented) mxX.presented :=
  ⟨⟨rfl, rfl, rfl, rfl⟩, by decide +kernel, ⟨okOf_unit (by decide +kernel), by decide +kernel⟩, okOf_unit (by decide +kernel), rfl,
    mx_commit _ rfl rfl⟩

/-- MXLEASE by the holder; by a TRY while another group holds the engine; granted at once. -/
def otherBed : State := { mxBed bedX with engines := sset State.reset.engines 0 { heldEngine with holder := some 7 } }

theorem witness_LeasesComplete :
    Issuing (mxBed bedX) bedW bedX bedB ∧ wholeWarp bedI bedX.presented bedB.mask = true ∧
    mxPending (mxT bedX) bedI bedX.presented = .ok () ∧
    (SysReady bedX [] [3] ∧ (mxT bedX).isTwin 0 = false ∧ (mxT bedX).leaseView 0 = 1) ∧
    CommitReady (mxT bedX) bedW (mxG bedX.presented) bedX.presented ∧ Issuing otherBed bedW bedX bedB ∧
    ((otherBed.issued bedW).leaseView 0 = 0 ∧ (1 : BitVec 18).getLsbD 0 = true ∧
      ((otherBed.issued bedW).engine bedI.core).st ≠ .idle) ∧
    Issuing (bigBed bedX) bedW bedX bedB ∧
    ((bigT bedX).leaseView 0 = 0 ∧ ((bigT bedX).engine bedI.core).st = .idle ∧
      ((bigT bedX).askLease bedI.core 0).leaseView 0 = 1) ∧
    ∃ g z, CommitReady ((bigT bedX).askLease bedI.core 0) bedW g z :=
  ⟨⟨rfl, rfl, rfl, rfl⟩, by decide +kernel, okOf_unit (by decide +kernel), by decide +kernel, mx_commit _ rfl rfl,
    ⟨rfl, rfl, rfl, rfl⟩, by decide +kernel, ⟨rfl, rfl, rfl, rfl⟩, by decide +kernel, _, _, commit_alone rfl rfl rfl rfl rfl⟩

/-- WAITU.EQ with operand v6, address g2; g4 holds the control word. -/
def waitF : FmtM := ⟨some ⟨1, false, .rne, 6, .none, 0, 0⟩, false, false, true, .i64, 0, false, 4, 2, 0, .gen, .normal, 0⟩

def waitI : Iss := mkIss (bigBed memX) bedW memX bedB 12

theorem witness_WaitsComplete :
    Issuing (bigBed memX) bedW memX bedB ∧ memX.handler = none ∧
    (MemFull (bigBed memX) bedW memX bedB (specWaitu .eq .i64) waitF ∧
      (memOperands (bigBed memX) bedW memX bedB (specWaitu .eq .i64) waitF).places = memPl ∧ (memX.greg 4).p = false ∧
      (∀ L < 32, inMask (memOperands (bigBed memX) bedW memX bedB (specWaitu .eq .i64) waitF).act L = true →
        (memOperands (bigBed memX) bedW memX bedB (specWaitu .eq .i64) waitF).addrPsn L = false ∧
        ((memOperands (bigBed memX) bedW memX bedB (specWaitu .eq .i64) waitF).waitOperand .eq L).2 = false)) ∧
    SpaceFree (bigT memX) waitI .gen true 8 8 memPl ∧ waitReady (bigT memX) waitI memX.presented .gen memPl = .ok () ∧
    CommitReady (bigT memX) bedW (bedG memX.presented) memX.presented ∧
    ((bigT memX).committed bedW (bedG memX.presented) memX.presented bedB.mask waitI.fall).isTwin 0 = false ∧
    ∀ e ∈ memPl, (bigT memX).txnChk waitI memX.presented e.2 = .ok :=
  ⟨⟨rfl, rfl, rfl, rfl⟩, rfl, by decide +kernel, space_now (by decide) (by decide +kernel), okOf_unit (by decide +kernel), commit_alone rfl rfl rfl rfl rfl, by decide +kernel,
    by decide +kernel⟩

/-- LAUNCH g5, g8, g9, #0: g8 the packet's address, g9 the queue. -/
def launchX : Warp := bedX.setG 8 ⟨0x30000, false⟩

def launchF : FmtS := ⟨0, false, 5, 8, 9, 0⟩

theorem launch_words : (bigT launchX).readWords bedI launchX.presented 0x30000 16 = List.replicate 16 (0, false) := by decide +kernel

def launchK : State := ((bigT launchX).fillRead bedI 0x30000).keepPacket bedW 0

def launchZ : Warp := { launchX.presented with launch := 0 }

theorem witness_LaunchCompletes :
    Issuing (bigBed launchX) bedW launchX bedB ∧ SysReady launchX [8, 9] [5] ∧ (launchX.gv 8).toNat % 64 = 0 ∧
    launchX.releasing = false ∧
    ReadFree (bigT launchX) bedI launchX.presented 64 (bedI.onePlace (launchX.gv 8).toNat) ∧
    (∀ e ∈ (bigT launchX).readWords bedI launchX.presented 0x30000 16, e.2 = false) ∧
    ∃ (d : BitVec 512) (u : State), d = launchX.presented.packet ((bigT launchX).readWords bedI launchX.presented 0x30000 16) ∧
      ReleaseReady (((bigT launchX).fillRead bedI 0x30000).keepPacket bedW d) bedI launchX.presented 5 u ∧ u.isTwin 0 = false :=
  ⟨⟨rfl, rfl, rfl, rfl⟩, by decide +kernel, by decide +kernel, rfl, read_one (by decide +kernel),
    by rw [launch_words]; decide, 0, relFrom launchK launchZ, by rw [launch_words]; decide +kernel, rel_ready (by decide +kernel) (by decide +kernel) rfl rfl rfl (by decide +kernel), by decide +kernel⟩

/-- PUT.GEN g8, g12, #2 of one line and a counter, within the package; g12 holds TGEN. -/
def putX : Warp :=
  ((((bedX.setG 8 ⟨0x30000, false⟩).setG 9 ⟨0x38000, false⟩).setG 10 ⟨0x0000000100000080, false⟩).setG 11 ⟨0x31000, false⟩).setG 12
    ⟨1, false⟩

def putF : FmtS := ⟨0, false, 0, 8, 12, 2⟩

def putO : PutOpds := putOpds putX.presented putF

theorem gen_places {s : State} {i : Iss} {w : Warp} {a : Acc} {tag : Option Bool} {txn : Bool} {n : Nat} {l : List Nat}
    (h : ∀ va ∈ l, okGen s i w a tag txn n [(0, va)] = true) : GenFree s i w a tag txn n (i.places l) := by
  intro e he
  obtain ⟨p, hp, hm⟩ := List.mem_flatten.mp he
  obtain ⟨va, hv, rfl⟩ := List.mem_map.mp hp
  exact gen_one (h va hv) e hm

theorem put_check : putO.check (bigT putX) bedI putX.presented = .ok () := by
  unfold PutOpds.check
  rw [if_neg (by decide +kernel), genChecks_free (gen_places (by decide +kernel))]
  refine (if_pos (by decide +kernel)).trans ?_
  unfold readChecks
  rw [genChecks_free (gen_places (by decide +kernel))]
  refine askReads_home fun e he => ?_
  obtain ⟨p, hp, hm⟩ := List.mem_flatten.mp he
  obtain ⟨va, hv, rfl⟩ := List.mem_map.mp hp
  obtain ⟨L, -, rfl⟩ := List.mem_map.mp hm
  exact (by decide +kernel : ∀ va ∈ lineVas putO.src putO.b, (bigT putX).remote (128 * lineOf ((bigT putX).paOf bedI va .rd)) = false) va hv

theorem put_route : putO.route (bigT putX) bedI putX.presented = .ok 0 := by
  have h : putO.misaligned (bigT putX) = none := by decide +kernel
  have h0 : putO.dest (bigT putX) bedI = some 0 := by decide +kernel
  unfold PutOpds.route
  rw [h]
  dsimp only
  rw [if_neg (by decide +kernel), if_neg (by decide +kernel), if_neg (by decide +kernel), if_neg (by decide +kernel), put_check]
  dsimp only
  rw [h0]

theorem witness_PutCompletes :
    Issuing (bigBed putX) bedW putX bedB ∧
    (SysReady putX [8, 9, 10, 11, 12] [] ∧ wholeWarp bedI putX.presented bedB.mask = true ∧ (bigT putX).isTwin 0 = false) ∧
    (putOpds putX.presented putF).route (bigT putX) bedI putX.presented = .ok 0 ∧
    ((bigT putX).idBusy 0 (putOpds putX.presented putF).id = false ∧ (bigT putX).engineLoad bedI.core < 64 ∧
      (bigT putX).sendLoad bedI.core + (putOpds putX.presented putF).b ≤ 524288) ∧
    (putOpds putX.presented putF).present (bigT putX) bedI = .ok () ∧ (bigT putX).pkg = 0 ∧
    (bigT putX).sealedFor bedI [.gen] = false ∧ (bigT putX).admitPut bedI (putOpds putX.presented putF) 0 = .ok (bigT putX) ∧
    CommitReady (bigT putX) bedW (bedG putX.presented) putX.presented :=
  ⟨⟨rfl, rfl, rfl, rfl⟩, by decide +kernel, put_route, by decide +kernel, okOf_unit (by decide +kernel), rfl, rfl, rfl,
    commit_alone rfl rfl rfl rfl rfl⟩

/-- RECONF g10, g11, g12, #1, in a context that holds the fabric grant; g11 holds the generation. -/
def recX : Warp := bedX.setG 11 ⟨1, false⟩

def recF : FmtS := ⟨0, false, 10, 11, 12, 1⟩

def recBed (x : Warp) (valid : Bool) (r : Option Round) : State :=
  { bed 0 x with
    grants := [0], round := r
    slots := State.reset.slots.set 1 { TopoSlot.reset with valid }
    ctx := sset State.reset.ctx 0 { Ctx.free with st := .running, fabric := true, s1 := 0x20000, s2 := 0x10000, allot := [0] } }

/-- After the commit that its first presentation makes. -/
def recU (x : Warp) (valid : Bool) (r : Option Round) : State :=
  ((((recBed x valid r).issued bedW).committed bedW (bedG x.presented) x.presented bedB.mask bedI.fall).updWarp bedW fun z => { z with releasing := true })

def recRound : Round := ⟨2, 1, [], [], .gather, 0⟩

def recValid (s : State) : Option Mail := (s.warp? bedW).bind fun z => sget? z.mail roundValid

def recMail (s : State) : Option Mail := (s.warp? bedW).bind fun z => sget? z.mail roundMail

theorem witness_ReconfCompletes :
    Issuing (recBed recX true none) bedW recX bedB ∧ SysReady recX [11, 12] [10] ∧ recX.releasing = false ∧
    ((recBed recX true none).issued bedW).fabricControl bedI.ctx = true ∧
    CommitReady ((recBed recX true none).issued bedW) bedW (bedG recX.presented) recX.presented ∧
    (recU recX true none).isTwin 0 = false ∧
    (recMail (recU recX false none) = none ∧ (recU recX false none).round = none ∧ recValid (recU recX false none) = none ∧
      (vget (recU recX false none).slots 1 TopoSlot.reset).valid = false) ∧
    (recMail (recU bedX true none) = none ∧ (recU bedX true none).round = none ∧
      (vget (recU bedX true none).slots 1 TopoSlot.reset).valid = true ∧ bitsAt (bedX.gv 11) 0 32 ≠ (recU bedX true none).tgen) ∧
    recMail (recU { recX with mail := [(roundMail, .g 8)] } true none) = some (.g 8) :=
  ⟨⟨rfl, rfl, rfl, rfl⟩, by decide +kernel, rfl, by decide +kernel, commit_alone rfl rfl rfl rfl rfl, by decide +kernel,
    by decide +kernel, by decide +kernel, by decide +kernel⟩

/-- While a round that it has not joined gathers: an invalid slot, another generation, another slot. -/
theorem witness_ReconfCompletes_round :
    ((recU recX false (some recRound)).round = some recRound ∧ bedW ∉ recRound.warps ∧
      recValid (recU recX false (some recRound)) = none ∧ (vget (recU recX false (some recRound)).slots 1 TopoSlot.reset).valid = false) ∧
    ((vget (recU bedX true (some recRound)).slots 1 TopoSlot.reset).valid = true ∧ recRound.phase = .gather ∧
      bitsAt (bedX.gv 11) 0 32 ≠ (recU bedX true (some recRound)).tgen) ∧
    bitsAt (recX.gv 11) 0 32 = (recU recX true (some recRound)).tgen ∧ recRound.slot ≠ 1 := by decide +kernel

/-! A twin behind its primary, whose answer is in its mail. -/

def pairX : Warp := { recX with meet := .matched 0, mail := [(1, .g 5)] }

def twinG (x : Warp) : Group := { bedG x with other := some 1, isTwin := true }

def primG : Group := { bedG { bedX with commits := 1 } with other := some 0 }

def pairBed : State := { recBed pairX true none with groups := sset (sset State.reset.groups 0 (twinG pairX)) 1 primG }

def pairT : State := pairBed.issued bedW

theorem pair_commit : CommitReady pairT bedW (twinG pairX.presented) pairX.presented :=
  ⟨rfl, rfl, rfl, own_empty rfl, .inr ⟨⟨0, rfl⟩, fun _ o y ho hy => by cases ho; cases hy; decide +kernel⟩⟩

def okFst {ε α : Type} (e : Except ε (Mail × α)) : Option Mail :=
  match e with
  | .ok r => some r.1
  | .error _ => none

def pairC : State := pairT.committed bedW (twinG pairX.presented) pairX.presented bedB.mask bedI.fall

theorem witness_TwinsFollow :
    Issuing pairBed bedW pairX bedB ∧ SysReady pairX [] [10] ∧ wholeWarp bedI pairX.presented bedB.mask = true ∧
    mxPending pairT bedI pairX.presented = .ok () ∧ pairT.isTwin 0 = true ∧
    CommitReady pairT bedW (twinG pairX.presented) pairX.presented ∧
    (pairC.isTwin 0 = true ∧
      okFst (pairC.takeMail bedW) = some (.g 5)) ∧
    SysReady pairX [11, 12] [10] ∧ pairT.fabricControl bedI.ctx = true ∧
    ((pairC.updWarp bedW fun z => { z with releasing := true }).isTwin 0 = true ∧
      okFst ((pairC.updWarp bedW fun z =>
        { z with releasing := true }).takeMail bedW) = some (.g 5)) :=
  ⟨⟨rfl, rfl, rfl, rfl⟩, by decide +kernel, by decide +kernel, okOf_unit (by decide +kernel), by decide +kernel, pair_commit,
    by decide +kernel, by decide +kernel, by decide +kernel, by decide +kernel⟩

/-- LAUNCH in the twin, presented again after its commit: the packet was kept. -/
def pairY : Warp := { pairX with releasing := true, mail := [(0, .g 6)] }

def pairBedY : State := { recBed pairY true none with groups := sset (sset State.reset.groups 0 (twinG pairY)) 1 primG }

theorem witness_TwinsFollow_launch :
    Issuing pairBedY bedW pairY bedB ∧ SysReady pairY [8, 9] [5] ∧ (pairY.gv 8).toNat % 64 = 0 ∧ pairY.releasing = true ∧
    ReleaseReady ((pairBedY.issued bedW).keepPacket bedW 0) bedI pairY.presented 5 ((pairBedY.issued bedW).keepPacket bedW 0) ∧
    ((pairBedY.issued bedW).keepPacket bedW 0).isTwin 0 = true ∧
    okFst (((pairBedY.issued bedW).keepPacket bedW 0).takeMail bedW) = some (.g 6) :=
  ⟨⟨rfl, rfl, rfl, rfl⟩, by decide +kernel, by decide +kernel, rfl, ⟨by decide +kernel, (if_pos rfl).mpr rfl⟩, by decide +kernel,
    by decide +kernel⟩

/-! Events: the states in which each has its own effect. -/

/-- A special function, a load from memory, one from CB, a poll, an atomic and a counting limit in flight. -/
def busyX : Warp :=
  { bedX with
    sfus := [⟨3, 1, Vector.replicate 32 ⟨7, false⟩, 0, 0⟩]
    loads := [⟨1, .mem .gen 0 false false, [4], 0, []⟩, ⟨2, .cb [], [5], 0, []⟩, ⟨3, .cb [9], [5], 0, []⟩, ⟨4, .poll 2 6, [], 0, []⟩]
    atoms := [⟨5, [7], 1, 0, [(0, 7, ⟨1, false⟩)], 0⟩]
    barLimit := [(0x40008, false)] }

/-- CB operation 9 is still in the engine's queue; line 1,536 is hot with one entry queued, line 1,537 with none. -/
def busyBed : State :=
  { bed 0 busyX with
    engines := sset State.reset.engines 0 { heldEngine with ops := [⟨9, bedW, 0, 0, Mem.empty, .z 0 1⟩] }
    hot := [(1536, [⟨bedW, 5, 0, some .add, .i32, 0x30000, 1, 0, false⟩]), (1537, [])] }

/-- Line 1,536 modified in another package of this cell, which a load of two lanes reads. -/
def awayBed : State :=
  { busyBed with dir := [(1536, ⟨.m, 0, 0⟩)], cells := [(0, ⟨.member, [0, 1], []⟩)] }

def awayLoad : Load := ⟨1, .mem .gen 0 false false, [4], 3, [⟨0, 4, 0x30000, 0x30000, 4, [], none⟩]⟩

theorem witness_WritebacksHappen_away :
    awayBed.loadAway bedW awayLoad = [1536] ∧ busyBed.loadAway bedW awayLoad = [] ∧ awayBed.recallWaits 1536 = true ∧
    busyBed.recallWaits 1536 = false := by decide +kernel

theorem witness_WritebacksHappen :
    busyBed.warp? bedW = some busyX ∧ (busyX.sfus.find? fun u => decide (u.reg = 3)).isSome = true ∧
    (∀ id ∈ [1, 2, 3, 4], (busyX.loads.find? fun k => decide (k.id = id)).isSome = true) ∧
    busyBed.mxLive (busyBed.coreOf (busyBed.primaryWarp bedW)) [] = false ∧
    busyBed.mxLive (busyBed.coreOf (busyBed.primaryWarp bedW)) [9] = true ∧
    ((busyX.atoms.find? fun b => decide (b.id = 5)).map AtomWb.left = some 0 ∧ busyBed.isTwin 0 = false ∧ busyBed.twinOf 0 = none) ∧
    ((bedG busyX).st = .resident ∧ sget? busyX.barLimit 0x40008 = some false) ∧
    (sget? busyBed.hot 1536).map List.length = some 1 ∧ sget? busyBed.hot 1537 = some [] :=
  ⟨rfl, by decide +kernel⟩

/-! Trees: shape 0 of sector 0 sums leaves 0 and 1. -/

def leaf (id core tag : Nat) (ty : Ty) : Contrib :=
  { id, wid := bedW, d := 3, ctx := 0, sector := 0, leaf := core, shape := 0, tag, ty, result := 0x30000, status := 0x30100,
    counter := 0x30108, timeout := 0, x := Vector.replicate 32 0, core, commit := 0 }

def shape01 : Shape := ⟨[], [], 3⟩

def treeBed (trees : SMap Tree) (last : SMap Nat) (c : Contrib) : State :=
  { bed 0 bedX with shapes := [(0, shape01)], contribs := [c], trees := trees, lastTag := last }

def key0 : Nat := treeKey 0 0 0

def openTree : Tree := ⟨shape01, [leaf 8 0 1 .f32], false, none, [], []⟩

/-- The same instance once it closes complete, its leaf recorded. -/
def fullTree : Tree := { openTree with closing := some 0 }

theorem witness_TreesHappen :
    ((treeBed [] [] (leaf 1 0 1 .f32)).shapeAt 0 2 = none ∧ sget? (treeBed [] [] (leaf 1 0 1 .f32)).trees (treeKey 0 0 2) = none ∧
      sget? (treeBed [] [] (leaf 1 0 1 .f32)).trees key0 = none ∧
      ((treeBed [] [] (leaf 1 0 1 .f32)).contribs.find? fun c => decide (c.id = 1)) = some (leaf 1 0 1 .f32)) ∧
    (treeBed [] [] (leaf 1 2 1 .f32)).shapeAt 0 0 = some shape01 ∧ shape01.leaves.getLsbD 2 = false ∧
    (shape01.leaves.getLsbD 0 = true ∧ sget? (treeBed [] [(key0, 1)] (leaf 1 0 1 .f32)).lastTag key0 = some 1 ∧
      sget? (treeBed [] [(key0, 7)] (leaf 1 0 1 .f32)).lastTag key0 ≠ some 1) ∧
    sget? (treeBed [(key0, openTree)] [] (leaf 1 1 2 .f32)).trees key0 = some openTree ∧
    (openTree.got = leaf 8 0 1 .f32 :: [] ∧ (leaf 8 0 1 .f32).tag ≠ (leaf 1 1 2 .f32).tag) ∧
    ((leaf 8 0 1 .f32).tag = (leaf 1 1 1 .i32).tag ∧ (leaf 8 0 1 .f32).ty ≠ (leaf 1 1 1 .i32).ty) ∧
    ((leaf 8 0 1 .f32).ty = (leaf 1 1 1 .f32).ty ∧ ∀ x ∈ openTree.got, x.leaf ≠ (leaf 1 1 1 .f32).leaf) ∧
    openTree.closing = none ∧
    (((treeBed [(key0, fullTree)] [] (leaf 1 1 1 .f32)).contribs.find? fun c => decide (c.id = 8)) = none ∧
      ((treeBed [(key0, fullTree)] [] (leaf 1 1 1 .f32)).trees.find? fun e =>
        e.2.closing.isSome && decide ((e.2.got.head?.map Contrib.id) = some 8)) = some (key0, fullTree) ∧
      (closeWait (treeBed [(key0, fullTree)] [] (leaf 1 1 1 .f32)) fullTree (leaf 8 0 1 .f32) [0x30000, 0x30100, 0x30108]).isNone = true) := by
  decide +kernel

/-! Copies: two lines within the scratchpad, one of them under GCM with its tag behind the text. -/

def copyOne (gcm : Option (BitVec 256 × Word × DWord)) (todo : List Nat) (err : Option DWord) : Copy :=
  { id := 1, wid := bedW, ctx := 0, core := 0, cid := 3, dsp := .scr, ssp := .scr, dst := 0x800, src := 0x1000, bytes := 16,
    rows := 1, dstride := 0, sstride := 0, gcm, verified := false, todo, err, after := [], pend := [], pageFail := [], plain := [] }

/-- The tag's bytes at 0x1010, behind 16 bytes of text. -/
def tagCells (v : Vector Byte 16) : List Host.Cell :=
  [(0x1010, v[0]), (0x1011, v[1]), (0x1012, v[2]), (0x1013, v[3]), (0x1014, v[4]), (0x1015, v[5]), (0x1016, v[6]),
   (0x1017, v[7]), (0x1018, v[8]), (0x1019, v[9]), (0x101A, v[10]), (0x101B, v[11]), (0x101C, v[12]), (0x101D, v[13]),
   (0x101E, v[14]), (0x101F, v[15])]

def copyBed (c : Copy) (cells : List Host.Cell) : State :=
  { bigBed bedX with copies := [c], groups := sset State.reset.groups 0 { bedG bedX with scr := { Mem.empty with bytes := cells } } }

def okList {ε : Type} (e : Except ε Nat) : Option Nat :=
  match e with
  | .ok r => some r
  | .error _ => none

theorem witness_CopiesProgress :
    ((copyBed (copyOne none [16] none) []).copies.find? fun c => decide (c.id = 1)) = some (copyOne none [16] none) ∧
    (copyOne none [16] none).err = none ∧ 16 ∈ (copyOne none [16] none).todo ∧
    (∃ gs, gather ((List.range 8).filterMap fun j =>
      ((copyOne none [16] none).granule (copyBed (copyOne none [16] none) []) (128 * 16 + 16 * j)).map fun g =>
        (128 * 16 + 16 * j, g)) = .ok gs) ∧
    (∃ onto, (copyOne none [16] none).place (copyBed (copyOne none [16] none) []) 16 = .ok onto) ∧
    (copyOne none [] none).todo = [] ∧ (copyOne none [16] (some 9)).err.isSome = true :=
  ⟨by decide +kernel, rfl, by decide +kernel, ⟨_, rfl⟩, ⟨_, rfl⟩, rfl, rfl⟩

/-- A vector of bytes as the list of its elements, so that evaluation reaches each one. -/
theorem vec16 (v : Vector Byte 16) : v.toList = List.ofFn fun k : Fin 16 => v[k] :=
  List.ext_getElem (by rw [Vector.length_toList, List.length_ofFn]) fun _ _ _ => by rw [List.getElem_ofFn, Vector.getElem_toList]; rfl

def gcmCopy : Copy := copyOne (some (0, 0, 1)) [16] none

def gcmTag0 : Vector Byte 16 := Config.gcmTag 0 0 1 (List.replicate 16 0)

/-- The tag that stands behind the text is the one computed over it, or, with nothing there, some other tag. -/
theorem witness_CopiesProgress_tag (v : Vector Byte 16) :
    gcmCopy.gcm = some (0, 0, 1) ∧ gcmCopy.verified = false ∧ gcmCopy.err = none ∧
    ∃ gs, gather (((List.range (gcmCopy.bytes / 16)).map fun j => (gcmCopy.src + 16 * j,
        gcmCopy.read (copyBed gcmCopy (tagCells v)) (gcmCopy.src + 16 * j))) ++
          [(gcmCopy.src + gcmCopy.bytes, gcmCopy.readTag (copyBed gcmCopy (tagCells v)))]) = .ok gs ∧
      gcmCopy.waiting (gcmCopy.keepSources (copyBed gcmCopy (tagCells v)) (gs.map Prod.fst)) = none ∧
      ((gs.take (gcmCopy.bytes / 16)).map fun e => e.2.data).flatten = List.replicate 16 0 ∧
      ((gs.drop (gcmCopy.bytes / 16)).map fun e => e.2.data).flatten = v.toList := by
  rw [vec16]; exact ⟨rfl, rfl, rfl, _, rfl, rfl, rfl, rfl⟩

theorem witness_CopiesProgress_tag_right : (Config.gcmTag 0 0 1 (List.replicate 16 0)).toList = gcmTag0.toList := rfl

theorem witness_CopiesProgress_tag_wrong : ∃ v : Vector Byte 16, (Config.gcmTag 0 0 1 (List.replicate 16 0)).toList ≠ v.toList :=
  ⟨gcmTag0.map (fun b => b + 1), fun h => by
    have h0 := congrArg (fun l => l.getD 0 0) h
    simp [vec16, gcmTag0] at h0⟩

/-! Monitor entries, the engine, the fabric. -/

def waitOf (n : Entry) (who : Waiter) : Wait :=
  { ctx := 0, who, sp := .gen, cc := .eq, ty := .i64, any := true, acq := none, lanes := [], entries := [n] }

/-- A kernel with one dependence whose entry found no room. -/
def depKernel : Kernel := { placedKernel with st := .pending, deps := [(0x30000, 1)], retry := [0] }

/-- A sampled entry, a spilled one and an exact one. -/
def waitBed : State :=
  { bed 0 bedX with
    waits := [(1, waitOf ⟨1536, false, some 3⟩ (.bundle bedW allLanes 4)), (2, waitOf ⟨1537, false, none⟩ (.bundle bedW allLanes 4)),
      (3, waitOf ⟨1538, true, some 3⟩ (.bundle bedW allLanes 4))]
    kernels := sset State.reset.kernels 0 depKernel }

def okGot {α : Type} : Got α → Bool
  | .ok _ => true
  | _ => false

theorem okGot_ex {α : Type} {r : Got α} (h : okGot r = true) : ∃ y, r = .ok y := by
  cases r with
  | ok y => exact ⟨y, rfl⟩
  | _ => cases h

theorem witness_MonitorsHappen :
    1 ∈ waitBed.waitsOn 1536 (fun e => !e.exact && !e.spilled) ∧
    ((sget? waitBed.waits 1).map Wait.who = some (.bundle bedW allLanes 4) ∧
      waitBed.waitHeld (waitOf ⟨1536, false, some 3⟩ (.bundle bedW allLanes 4)) = false) ∧
    (waitBed.kernel? 0 = some depKernel ∧ depKernel.st = .pending ∧ 0 ∈ depKernel.retry ∧ nth? depKernel.deps 0 = some (0x30000, 1)) ∧
    (∃ y, waitBed.hubFind depKernel 0x30000 .wait = .ok y) ∧ isL2w (128 * 1538) = false ∧
    waitBed.homeOf (128 * 1538) = waitBed.pkg ∧
    (∃ t, waitBed.moveEntries 1538 7 (waitBed.waitsOn 1538 fun e => e.exact && !e.spilled) = .ok t) :=
  ⟨by decide +kernel, by decide +kernel, by decide +kernel, okGot_ex (by decide +kernel), by decide +kernel, by decide +kernel, okOf_ex (by decide +kernel)⟩

def mxOp (id : Nat) (k : MxKind) : MxOp := ⟨id, bedW, 0, 0, Mem.empty, k⟩

/-- A tile under full check, an MXA behind its MXW. -/
def chkEngine : Engine :=
  { heldEngine with ops := [mxOp 1 (.w ⟨0, List.replicate 64 0, 1⟩), mxOp 2 (.a 0 0 0 1 0)], queue := [7] }

def engBed (e : Engine) : State := { bed 0 bedX with engines := sset State.reset.engines 0 e }

theorem witness_EngineEventsHappen :
    (chkEngine.ops = mxOp 1 (.w ⟨0, List.replicate 64 0, 1⟩) :: [mxOp 2 (.a 0 0 0 1 0)] ∧
      (engBed chkEngine).opWaits (mxOp 1 (.w ⟨0, List.replicate 64 0, 1⟩)) = false) ∧
    (((engBed chkEngine).engine 0).st = .granted ∧ ((engBed chkEngine).engine 0).queue ≠ []) ∧
    (let m := checkMode (chkEngine.tile.map Tile.r) chkEngine.ops 1;
      (m.1.getLsbD 0 || (m.2.2 && m.2.1 && m.1.getLsbD 1)) = true) ∧
    (let e := (engBed { chkEngine with st := .reset }).engine 0;
      e.st = .reset ∧ e.holder = some 0 ∧ e.ending = none ∧ e.queue.filter (· ≠ 0) ≠ []) ∧
    ((engBed { chkEngine with st := .reset, ending := some .free }).engine 0).ending = some .free := by decide +kernel

def sendOf (id dest : Nat) : Put :=
  { id, name := id, wid := bedW, cid := 2, dest, lines := [(0x30000, 1536, ⟨[], []⟩)], src := 0, ssp := .gen, ctr := none,
    inc := 0, bytes := 0, gen := 1 }

/-- Two PUTs to package 1 of this cell and one to this package, an admission asked; package 9 is cell 5. -/
def fabBed (r : Option Round) (st : CellSt) (up : Bool) : State :=
  ({ bed 0 bedX with
    admits := [(4, ⟨bedW, 1, none⟩)], puts := [sendOf 5 1, sendOf 6 1, sendOf 7 0, sendOf 8 9], round := r,
    cells := [(0, ⟨.member, [0, 1], []⟩), (5, ⟨st, [9], [9]⟩)],
    active := some { TopoSlot.reset with valid := true, routes := List.replicate 81 8 } } : State).setPort 3
    { Port.reset with st := if up then .up else .down }

/-- Line 1,536 modified in package 1. -/
def fabAway : State := { fabBed none .member true with dir := [(1536, ⟨.m, 0, 0⟩)] }

def roundOf (ph : RoundPhase) : Round := ⟨2, 1, [0], [bedW], ph, 0⟩

theorem witness_FabricEventsHappen :
    let s := fabBed none .member true
    (sget? s.admits 4 = some ⟨bedW, 1, none⟩ ∧ s.timerHeld 1 = false ∧ (fabBed none .suspect true).timerHeld 9 = true ∧
      (s.puts.find? fun p => decide (p.id = 6)) = some (sendOf 6 1) ∧ s.putBehind (sendOf 6 1) = true ∧
      (s.puts.find? fun p => decide (p.id = 5)) = some (sendOf 5 1) ∧ s.putBehind (sendOf 5 1) = false ∧
      s.gateHome 1 ≠ .hold ∧ (fabBed none .member false).gateHome 1 = .hold ∧ s.putRecalls (sendOf 5 1) = []) ∧
    (fabAway.putBehind (sendOf 7 0) = false ∧ fabAway.gateHome 0 ≠ .hold ∧ fabAway.timerHeld 0 = false ∧
      fabAway.putRecalls (sendOf 7 0) = [1536]) ∧
    (1 ≠ s.pkg ∧ 1 ∈ s.topoGroup ∧ s.roundOn = false ∧ s.round = none ∧ s.tgen = 1) ∧
    (let r := roundOf .gather;
      (fabBed (some r) .member true).roundOn = false ∧ bedW ∈ r.warps ∧ r.slot = 2 ∧ ¬(r.slot = 3 ∧ r.gen = 1)) ∧
    ({ s with pkg := 1 } : State).coordinator ≠ ({ s with pkg := 1 } : State).pkg ∧
    ({ fabBed (some (roundOf .drain)) .member true with puts := [] } : State).drained 0 = true := by decide +kernel

/-! Links: port 3. -/

def portBed (p : Port) : State := State.reset.setPort 3 p

/-- What the peer of a fresh port says when it agrees. -/
def agreeing : LinkSummary := ⟨true, true, 0xFFF, List.replicate 12 0xFFFFFF, 64⟩

def goodBlock : List Byte := (List.range 512).map fun i => if i = 8 then 1 else 0

def shapeBits : BitVec 256 :=
  BitVec.ofNat 256 (leNat (((shape0.left.zip shape0.right).map fun e => [e.1, e.2]).flatten ++ [0xFF, 0xFF]))

def packetOf3 (dst : Nat) (ok : Bool) : PacketHdr := ⟨3, 1, dst, 0, 1, 0, ok, .other⟩

/-- Package 9 is cell 5. -/
def cellView (st : CellSt) : State := { State.reset with cells := [(0, ⟨.member, [0, 1], []⟩), (5, ⟨st, [9], [9]⟩)] }

/-- A request of package 1 held at this home agent. -/
def heldAsk : State := { State.reset with asks := [packetOf3 0 true] }

theorem witness_LinkEventsHappen :
    ((portBed Port.reset).port 3).st = .down ∧
    (((portBed { Port.reset with st := .training }).port 3).st = .training ∧
      ((portBed { Port.reset with st := .training }).port 3).agrees agreeing = true ∧
      ((portBed { Port.reset with st := .training }).port 3).agrees { agreeing with rate := 3 } = false) ∧
    (((portBed Port.reset).port 3).mapAt 0).getLsbD 5 = true ∧ sgetD ((portBed Port.reset).port 3).spares 0 0 = 0 ∧
    (sgetD ((portBed { Port.reset with spares := [(0, 1)] }).port 3).spares 0 0 ≠ 0 ∧
      ((portBed Port.reset).port 3).lasers < spareLasers ∧ spareLasers ≤ ((portBed { Port.reset with lasers := 12 }).port 3).lasers) ∧
    (((portBed { Port.reset with st := .up }).port 3).st.carries = true ∧
      ((portBed { Port.reset with st := .up, replays := 15 }).port 3).replays + 1 ≤ 16 ∧ 16 < ((portBed { Port.reset with st := .up, replays := 16 }).port 3).replays + 1) ∧
    ((portBed { Port.reset with st := .failed }).port 3).st = .failed ∧
    ((packetOf3 0 true).port = 3 ∧ (packetOf3 0 true).checkOk = true ∧ (portBed Port.reset).refusesFrom 1 = false ∧
      (packetOf3 0 true).dst = (portBed Port.reset).pkg ∧ (packetOf3 2 true).dst ≠ (portBed Port.reset).pkg ∧
      (packetOf3 2 false).checkOk = false ∧ (State.reset.asks = [] ∧ State.reset.ownAsks = [] ∧ State.reset.fwOpen = []) ∧
      heldAsk.asks ≠ []) ∧
    ((cellView .fenced).refusesFrom 9 = true) ∧
    ((∃ p ∈ State.reset.blockPkgs, blockOk p goodBlock = true) ∧ ({ State.reset with numbered := true } : State).blockPkgs = [0] ∧ (shapeOf shapeBits).legal = true) := by decide +kernel

/-! Cells: cell 5 in each state; with a route over a port that is up every package is reached, with none only the own. -/

def cellBed (st : CellSt) (reached : Bool) : State :=
  ({ cellView st with active := some { TopoSlot.reset with routes := if reached then List.replicate 81 8 else [] } } : State).setPort 3
    { Port.reset with st := .up }

theorem witness_CellEventsHappen :
    (State.reset.active = none ∧ State.reset.numbered = false ∧ membersOk [(9, 5), (0, 0)] = true ∧
      (vget ({ State.reset with slots := State.reset.slots.set 2 { TopoSlot.reset with valid := true } } : State).slots 2
        TopoSlot.reset).valid = true ∧
      (let u : State :=
        { State.reset with
          cells := formedCells 0 [(9, 5), (0, 0)], numbered := true
          slots := ownSlots 0 (State.reset.slots.set 2 { TopoSlot.reset with valid := true }) };
        u.homesFit = true ∧ (vget u.slots 2 TopoSlot.reset).valid = true) ∧ State.reset.bringUp = 5) ∧
    (∀ st ∈ [CellSt.forming, .member, .suspect, .recovering, .fenced, .rejoining],
      5 ≠ (cellBed st true).cell ∧ sget? (cellBed st true).cells 5 = some ⟨st, [9], [9]⟩) ∧
    ((cellBed .forming true).cellReached 5 = true ∧ (cellBed .suspect true).cellReached 5 = true ∧
      (cellBed .member false).cellReached 5 = false ∧ (cellBed .rejoining false).cellReached 5 = false) ∧
    (∀ p ∈ [9], p ∈ [9]) ∧ (cellBed .member false).stopped = .running ∧ (cellBed .member false).cellReached 0 = false := by
  decide +kernel

/-! Commands of contexts and queues: bytes from the lowest up, code, flags, context. -/

def cmdOf3 (code ctx : Nat) (rest : List (Nat × Nat)) : BitVec 512 :=
  BitVec.ofNat 512 (rest.foldl (fun m e => m + e.2 * 2 ^ (8 * e.1)) (code + ctx * 2 ^ 16))

def invalPage : BitVec 512 := cmdOf3 0x0C 0 [(16, 0x30000), (24, 0x1000)]

/-- The package once bring-up is over. -/
def upState : State := { State.reset with bringUp := 7 }

/-- Context 3 in a state. -/
def ctxBed (x : Ctx) : State := { upState with ctx := sset State.reset.ctx 3 x }

def upBed (x : Warp) : State := { bed 0 x with bringUp := 7 }

def ctxIn (st : CtxSt) : Ctx := { Ctx.free with st }

theorem witness_ContextCommandsComplete :
    CommandReady upState (cmdOf3 1 3 [(16, 0x10000)]) 1 3 [(16, 48)] [.free] ∧
    (∀ v ∈ createAreas (cmdOf3 1 3 [(16, 0x10000)]), v % 4096 = 0) ∧
    upState.areasHere (createAreas (cmdOf3 1 3 [(16, 0x10000)])) = true ∧ upState.identity.isSome = true ∧
    CommandReady (ctxBed (ctxIn .created)) (cmdOf3 2 3 [(16, 0x20000)]) 2 0 [(16, 8)] [.created] ∧
    cmdNat (cmdOf3 2 3 [(16, 0x20000)]) 16 8 % 4096 = 0 ∧
    CommandReady (ctxBed (ctxIn .bound)) (cmdOf3 3 3 []) 3 0 [] [.bound] ∧
    CommandReady (ctxBed (ctxIn .running)) (cmdOf3 4 3 []) 4 1 [] [.runnable, .running, .swapped] ∧
    CommandReady (ctxBed (ctxIn .faulted)) (cmdOf3 5 3 []) 5 0 [] [.created, .bound, .faulted] ∧
    (CommandReady (ctxBed (ctxIn .bound)) (cmdOf3 6 3 [(16, 7), (20, 9), (32, 5)]) 6 0 [(16, 1), (20, 4), (32, 32)]
      [.created, .bound, .runnable, .running, .swapped] ∧ cmdNat (cmdOf3 6 3 [(16, 7), (20, 9), (32, 5)]) 16 1 < 8) ∧
    (CommandReady (ctxBed (ctxIn .quiescing)) (cmdOf3 7 3 [(16, 7)]) 7 0 [(16, 1)] notFree ∧
      cmdNat (cmdOf3 7 3 [(16, 7)]) 16 1 < 8) := by decide +kernel

/-- A confidential context in RUN takes START and, over an IDE stream, KEYSET. -/
theorem witness_ContextCommandsComplete_confidential :
    CommandReady (ctxBed { ctxIn .bound with conf := true, tdi := .run }) (cmdOf3 3 3 []) 3 0 [] [.bound] ∧
    ((ctxBed { ctxIn .bound with conf := true, tdi := .run }).ctxOf 3).tdi = .run := by decide +kernel

/-- A kernel stopped at its start under DEBUGGO, and an INVAL of a page that nothing uses and of one that a load in flight uses. -/
def dbgBed : State :=
  { upBed bedX with
    kernels := [(0, placedKernel), (1, { placedKernel with st := .ready, stopped := true, aqi := 5, seq := 9, desc := none })] }

/-- A load of the page in flight. -/
def invBed : State :=
  upBed { bedX with loads := [⟨1, .mem .gen 0 false false, [4], 0, [⟨0, 4, 0x30000, 0x30000, 4, [], none⟩]⟩] }

theorem witness_ContextCommandsComplete_kernels :
    (CommandReady dbgBed (cmdOf3 0x0D 0 [(16, 5), (20, 9)]) 0x0D 0 [(16, 2), (20, 4)] [.runnable, .running, .swapped] ∧
      dbgBed.stoppedAt 0 5 9 = [1]) ∧
    (CommandReady (upBed bedX) invalPage 0x0C 3 [(16, 16)] notFree ∧
      (let r := invRange invalPage; r.base % 4096 = 0 ∧ r.len % 4096 = 0 ∧ r.len ≠ 0) ∧
      ((upBed bedX).ctxOf 0).cmds = [] ∧ ((upBed bedX).invBegin invalPage).invWaits invalPage = false) ∧
    (invBed.invBegin invalPage).invWaits invalPage = true := by decide +kernel

/-- The INVAL that waits is the oldest command of its context; another command comes behind it. -/
def queueBed (x : Warp) : State := (upBed x).setCmds 0 [.cmd invalPage false, .cmd (cmdOf3 4 0 []) false]

theorem witness_ContextCommandsComplete_queue :
    ((queueBed bedX).ctxOf 0).cmds ≠ [] ∧ (queueBed bedX).isRetry (cmdOf3 0x0C 0 [(16, 0), (24, 0x1000)]) = false ∧
    ((queueBed bedX).ctxOf 0).cmds = .cmd invalPage false :: [.cmd (cmdOf3 4 0 []) false] ∧
    (queueBed bedX).isRetry invalPage = true ∧
    ((queueBed bedX).invBegin invalPage).invWaits invalPage = false := by decide +kernel

/-- AQI 5 of context 3. -/
def aqiBed (st : AqiSt) (cst : CtxSt) : State :=
  { ctxBed (ctxIn cst) with aqi := sset State.reset.aqi 5 { Aqi.reset with st, ctx := 3, pasid := 7, limit := 15 } }

theorem witness_QueueCommandsComplete :
    (∀ st ∈ [CtxSt.bound, .running], (ctxIn st).cmds = []) ∧
    (CommandReady (ctxBed (ctxIn .bound)) (cmdOf3 8 3 [(16, 5), (20, 7), (24, 15)]) 8 0 [(16, 2), (20, 6)] [.bound] ∧
      cmdNat (cmdOf3 8 3 [(16, 5), (20, 7), (24, 15)]) 20 4 < 2 ^ 20 ∧ cmdNat (cmdOf3 8 3 [(16, 5), (20, 7), (24, 15)]) 24 1 ≤ 15 ∧
      cmdNat (cmdOf3 8 3 [(16, 5), (20, 7), (24, 15)]) 25 1 ≤ 1 ∧ (ctxBed (ctxIn .bound)).pasidTaken 3 0 7 = false ∧
      ((ctxBed (ctxIn .bound)).aqiOf 5).st = .unassigned ∧ (ctxIn .bound).frozen = false) ∧
    (CommandReady (aqiBed .assigned .running) (cmdOf3 9 3 [(16, 5)]) 9 0 [(16, 2)] [.running] ∧
      cmdAqi (cmdOf3 9 3 [(16, 5)]) = 5 ∧ ((aqiBed .assigned .running).aqiOf 5).st = .assigned ∧
      ((aqiBed .assigned .running).aqiOf 5).ctx = 3) ∧
    (CommandReady (aqiBed .enabled .running) (cmdOf3 0x0A 3 [(16, 5)]) 0x0A 0 [(16, 2)] [.running] ∧
      ((aqiBed .enabled .running).aqiOf 5).st = .enabled) ∧
    (CommandReady (aqiBed .draining .running) (cmdOf3 0x0B 3 [(16, 5)]) 0x0B 0 [(16, 2)] [.running] ∧
      ((aqiBed .draining .running).aqiOf 5).st = .draining) := by decide +kernel

/-- A packet of sequence 9 that asks for one gang. -/
def packet9 : BitVec 512 := BitVec.ofNat 512 (1 + 9 * 2 ^ 32 + 0x30000 * 2 ^ 64 + 2 ^ 192)

def notifyAt (s : State) (size : Nat) : Nat :=
  match s.notifyReason (s.aqiOf 5) 0 0 (some 7) false size with
  | 0 => s.packetReason 5 0 (s.aqiOf 5) (packetOf packet9)
  | r => r

theorem witness_ContextEventsHappen :
    ((ctxIn .quiescing).st = .quiescing ∧ ((ctxBed (ctxIn .quiescing)).ctxGroups 3 Group.live).isEmpty = true ∧
      (ctxBed (ctxIn .quiescing)).ctxIdle 3 = true) ∧
    (((ctxBed (ctxIn .destroyed)).ctxOf 3).st = .destroyed ∧ (ctxBed (ctxIn .destroyed)).ctxKernels 3 = [] ∧
      (ctxBed (ctxIn .destroyed)).ctxIdle 3 = true) ∧
    (((ctxBed (ctxIn .running)).ctxOf 3).st ≠ .free ∧ ((ctxBed (ctxIn .running)).ctxOf 3).conf = false ∧
      ((ctxBed { ctxIn .running with conf := true }).ctxOf 3).conf = true) ∧
    (notifyAt (aqiBed .enabled .running) 64 = 0 ∧ notifyAt (aqiBed .enabled .running) 32 ≠ 0) ∧
    (notifyAqi 0x5040 = some 5 ∧ bar0 0x10148 = .status 5 8 ∧ bar0 0x10158 = .status 5 0x18 ∧ bar0 0x20050 = .remap 5 false ∧
      0x20050 % 16 = 0) ∧
    ((aqiBed .enabled .running).lineOfAqi 0x5040 = none ∧
      ((aqiBed .enabled .running).setCmds 3 [.cmd (cmdOf3 0x0B 3 [(16, 5)]) false]).lineOfAqi 0x5040 = some 3) ∧
    ((∀ c, (aqiBed .enabled .running).remapCtx 5 = some c → c = 3) ∧ ((aqiBed .enabled .running).ctxOf 3).frozen = false ∧
      (sgetD State.reset.remap 5 Remap.reset).pend = false ∧
      (sgetD ({ State.reset with remap := [(5, ⟨0, 0, true, true, true⟩)] } : State).remap 5 Remap.reset).pend = true) :=
  ⟨by decide +kernel, by decide +kernel, by decide +kernel, by decide +kernel, by decide +kernel, by decide +kernel,
    fun c h => Option.some.inj (h.symm.trans (by decide +kernel)), by decide +kernel, by decide +kernel, by decide +kernel⟩

/-! Kernels and gangs. -/

def okPages (e : Got (Nat × List Nat)) (l : Nat × List Nat) : Bool :=
  match e with
  | .ok k => decide (k = l)
  | _ => false

theorem okPages_eq {e : Got (Nat × List Nat)} {l : Nat × List Nat} (h : okPages e l = true) : e = .ok l := by
  cases e with
  | ok k => exact congrArg _ (of_decide_eq_true h)
  | _ => cases h

/-- A descriptor: entry 0x40000, one group of one warp, allotment 256. -/
def descBytes : List Byte := leBytes (0x40000 + 0x01000101 * 2 ^ 128) 128

def postedKernel : Kernel := { placedKernel with st := .posted, descVA := 0x50000, desc := none, nextGang := 0 }

/-- A Posted kernel whose descriptor is all zero, or `descBytes`. -/
def postedBed (good : Bool) : State :=
  { bed 0 bedX with
    kernels := sset State.reset.kernels 0 postedKernel
    mem := if good then (placedMem 0).setBytes 0x50000 descBytes else placedMem 0 }

def readyKernel : Kernel := { placedKernel with st := .ready, nextGang := 0 }

def readyBed (allot : List Nat) : State :=
  { State.reset with
    ctx := sset State.reset.ctx 0 { Ctx.free with st := .running, s1 := 0x20000, s2 := 0x10000, allot }
    kernels := sset State.reset.kernels 0 readyKernel }

def closingKernel : Kernel := { placedKernel with st := .complete, closing := true, nextGang := 1 }

theorem witness_KernelEventsHappen :
    ((postedBed true).kernel? 0 = some postedKernel ∧ postedKernel.st = .posted ∧ postedKernel.signal = false) ∧
    (postedBed true).packetPages postedKernel = .ok (0x50000, []) ∧
    (postedBed false).packetPages postedKernel = .ok (0x50000, []) ∧
    ((∀ j < 32, ((postedBed true).recallAll (lineOf 0x50000)).cohMark (0x50000 / 4 + j) = none) ∧
      descOk (((postedBed true).recallAll (lineOf 0x50000)).mem.nat 0x50000 128) = true ∧
      (descOfBytes (((postedBed true).recallAll (lineOf 0x50000)).mem.nat 0x50000 128)).placeable [0] = true ∧
      descOk (((postedBed false).recallAll (lineOf 0x50000)).mem.nat 0x50000 128) = false) ∧
    ((readyBed [0]).kernel? 0 = some readyKernel ∧ readyKernel.desc = some placedDesc ∧ (readyBed [0]).firstFit = some ⟨0, 0, none⟩ ∧
      [3].length = placedDesc.groups ∧ 0 ∈ (readyBed [0]).openSectors 0 0 readyKernel ∧
      (readyBed [0]).coresFit 0 [3] placedDesc.need = true) := by
  refine ⟨by decide +kernel, okPages_eq (by decide +kernel), okPages_eq (by decide +kernel), by decide +kernel, by decide +kernel⟩

/-- A kernel of seventeen groups never fits a sector of sixteen cores. -/
def wideKernel : Kernel := { readyKernel with desc := some { placedDesc with groups := 17 } }

def closeBed : State := { readyBed [0] with kernels := sset State.reset.kernels 0 closingKernel }

def wideBed : State := { readyBed [0] with kernels := sset State.reset.kernels 0 wideKernel }

theorem witness_KernelEventsHappen_reserve :
    ⟨0, 0, none⟩ ∈ wideBed.candidatesOf 0 wideKernel ∧ wideBed.candidateFits ⟨0, 0, none⟩ = false ∧
    wideBed.openSectors 0 0 wideKernel ≠ [] := by decide +kernel

theorem witness_KernelEventsHappen_end :
    closingKernel.closing = true ∧ closeBed.storesLeft 0 = false ∧ ∃ t, closeBed.signalRecord closingKernel = .ok t :=
  ⟨rfl, by decide +kernel, _, rfl⟩

/-- The gang of the placed warp, pre-empted for a kernel of class 5 that finds no sector; its save area has four slots. -/
def preBed : State :=
  { bed 0 bedX with
    mem := (placedMem 0).setBytes 0x60000 (leBytes 4 8)
    ctx := sset State.reset.ctx 0 { Ctx.free with st := .running, s1 := 0x20000, s2 := 0x10000, save := 0x60000, allot := [0] }
    kernels := [(0, placedKernel), (1, { wideKernel with cls := 5 })] }

def gangIn (s : State) : Gang := (s.gang? 0).getD ⟨0, 0, 0, .done, [], [], Vector.replicate 4 Bar.reset, Vector.replicate 4 Bar.reset, false⟩

/-- The same gang in another state, its group with it. -/
def gangBed (gst : GangSt) (st : GroupSt) : State :=
  { preBed with
    gangs := sset State.reset.gangs 0 { gangIn preBed with st := gst }
    groups := sset State.reset.groups 0 { bedG bedX with st := st } }

theorem witness_GangEventsHappen :
    (preBed.gang? 0 = some (gangIn preBed) ∧ preBed.kernel? 0 = some placedKernel ∧
      preBed.mayPreempt 0 (gangIn preBed) placedKernel = true) ∧
    ((gangIn (gangBed .discarding .discarding)).st = .discarding ∧
      (((gangBed .discarding .discarding).gangGroups 0).any fun m =>
        (((gangBed .discarding .discarding).group? m).map fun (x : Group) =>
          decide (x.st = .discarding) && (gangBed .discarding .discarding).saveBusy m x).getD false) = false) ∧
    ((gangIn (gangBed .saved .saved)).st = .saved ∧ (gangBed .saved .saved).restorable 0 = true ∧
      ((gangBed .saved .saved).ctxOf 0).st = .running ∧ (gangBed .saved .saved).savedOf [0] = [0] ∧
      (gangBed .saved .saved).savedOf [] = [] ∧ 0 ∈ (gangBed .saved .saved).openSectors 0 (gangIn preBed).idx placedKernel ∧
      (gangBed .saved .saved).restoreFits 0 [(0, 3)] = true ∧ (gangIn (gangBed .saved .saved)).l2w = false ∧
      (gangBed .saved .saved).firstFit = some ⟨0, (gangIn preBed).idx, some 0⟩) ∧
    ((gangIn (gangBed .restoring .restoring)).st = .restoring ∧
      ((gangBed .restoring .restoring).group? 0).map Group.slot = some none) := by decide +kernel

/-! Warps. -/

def headX : Warp := { bedX with bundle := none }

/-- Two copies of a redundant group at one commit, with signatures `a` and `b`. -/
def meetBed (a b : DWord) (red : Bool) : State :=
  { bed 0 bedX with
    groups := [(0, { bedG { bedX with meet := .waiting a, redErr := red } with other := some 1 }),
      (1, { bedG { bedX with meet := .waiting b, redErr := red } with other := some 0, isTwin := true })] }

theorem witness_WarpEventsHappen :
    ((bed 0 headX).group? 0 = some (bedG headX) ∧ (bed 0 headX).warp? bedW = some headX ∧ (bedG headX).st = .resident ∧
      headX.bundle = none ∧ headX.nextHead.isSome = true) ∧
    (bedX.retired = false ∧ bedX.committing = false ∧ bedX.pipeErr = false ∧ ({ bedX with releasing := true } : Warp).committing = true) ∧
    ((meetBed 4 4 false).twinOf 0 = some 1 ∧
      ((meetBed 4 4 false).warp? ⟨1, 0⟩).map Warp.meet = some (.waiting 4) ∧
      ((meetBed 4 5 false).warp? ⟨1, 0⟩).map Warp.meet = some (.waiting 5) ∧
      ((meetBed 4 5 true).warp? ⟨1, 0⟩).map Warp.redErr = some true ∧
      ((meetBed 4 5 true).warp? ⟨0, 0⟩).map Warp.redErr = some true ∧
      ((meetBed 4 5 true).warp? ⟨0, 0⟩).map Warp.commits = ((meetBed 4 5 true).warp? ⟨1, 0⟩).map Warp.commits) := by
  decide +kernel

/-! Memory: tier pages of a package of form M, a page request, a firewall entry, transactions in flight. -/

def tierBed (t : SMap TierSt) : State := { State.reset with form := .m, tier := t }

/-- Tier page 2 holds line 1,030, modified in package 1. -/
def heldTier : State := { fabBed none .member true with form := .m, tier := [(2, .evicting)], dir := [(1030, ⟨.m, 0, 0⟩)] }

def wtOf (id line : Nat) (v : Byte) : WriteThrough := ⟨id, 0, bedW, 0, line, [(128 * line, v)], []⟩

def pageReq4 : PageReq := ⟨4, 0, 5, 0, 48, 1⟩

/-- Lines homed in package 1: what asks them of it can time out, while its cell is not Suspect. -/
def farBed : State := { bigBed { bedX with asked := [0x600] } with homes := [⟨0x30000, 0x1000, 1⟩], copies := [copyOne none [0x600] none] }

/-- Line 9 owned by cell 5. -/
def dirBed (st : CellSt) : State := { cellView st with dir := [(9, ⟨.m, 0, 5⟩)] }

theorem timer_alone (home : Nat) : (treeBed [(key0, openTree)] [] (leaf 1 1 1 .f32)).timerHeld home = false := by
  have h1 : (treeBed [(key0, openTree)] [] (leaf 1 1 1 .f32)).cells = [(0, ⟨.member, [0], []⟩)] := rfl
  unfold State.timerHeld State.cellOfPkg
  rw [h1]
  by_cases h : home = (treeBed [(key0, openTree)] [] (leaf 1 1 1 .f32)).pkg
  · rw [if_pos h]; rfl
  · rw [if_neg h]
    cases hd : decide (home ∈ [0]) <;> simp only [List.find?, hd, Option.map] <;> rfl

theorem witness_MemoryEventsHappen :
    ((({ State.reset with pageReqs := [pageReq4] } : State).pageReqs.find? fun q => decide (q.id = 4) && decide (q.page = 48)).isSome = true ∧
      (tierBed []).evictable 2 = true) ∧
    (sget? (tierBed [(2, .evicting)]).tier 2 = some .evicting ∧ sget? (tierBed [(2, .filling)]).tier 2 = some .filling ∧
      (tierBed [(2, .evicting)]).tierHeld 2 = [] ∧ heldTier.tierHeld 2 ≠ [] ∧
      ({ State.reset with form := .p } : State).form = .p) ∧
    (State.reset.homeOf (1 * 0x200000) = State.reset.pkg ∧
      ({ State.reset with homes := [⟨0x200000, 0x200000, 1⟩] } : State).homeOf (1 * 0x200000) ≠ State.reset.pkg ∧
      State.reset.fwOpen = [] ∧ State.reset.pageLines 1 = []) ∧
    farBed.timesOut (farBed.homeOf (128 * 0x600)) = true ∧
    ((farBed.copies.find? fun c => decide (c.id = 1)) = some (copyOne none [0x600] none) ∧ (copyOne none [0x600] none).err = none ∧
      farBed.copyTimesOut (copyOne none [0x600] none) 0x600 = true) ∧
    (let s := fabBed none .member true;
      (s.puts.find? fun p => decide (p.id = 5)) = some (sendOf 5 1) ∧ s.timesOut 1 = true ∧ s.putBehind (sendOf 5 1) = false ∧
        s.gateHome 1 ≠ .hold ∧ s.putRecalls (sendOf 5 1) = []) ∧
    (sget? (dirBed .member).dir 9 = some ⟨.m, 0, 5⟩ ∧
      9 ∈ ({ dirBed .member with recalls := [9] } : State).recalls ∧ (dirBed .member).timerHeld ((((sget? (dirBed .member).cells 5).map Cell.members).getD []).headD 0) = false) ∧
    (sget? (treeBed [(key0, openTree)] [] (leaf 1 1 1 .f32)).trees key0 = some openTree ∧
      ∀ home, (treeBed [(key0, openTree)] [] (leaf 1 1 1 .f32)).timerHeld home = false) ∧
    (({ State.reset with wts := [wtOf 4 9 7] } : State).wts.find? (fun w => decide (w.id = 4)) = some (wtOf 4 9 7) ∧
      (dirBed .fenced).recallWaits 9 = false ∧ (dirBed .member).recallWaits 9 = true ∧ State.reset.cxlLine 9 = false ∧
      ({ State.reset with homes := [⟨0, 0x1000, 82⟩] } : State).cxlLine 9 = true ∧ State.reset.granted = []) ∧
    (((bed 0 bedX).group? 0).isSome = true ∧
      (sget? ({ State.reset with l2w := [(l2wKey 0 0, (⟨0xF, 0xF0, none, Mem.empty⟩ : L2w))] } : State).l2w (l2wKey 0 0)).isSome = true) :=
  ⟨by decide +kernel, by decide +kernel, by decide +kernel, by decide +kernel, by decide +kernel, by decide +kernel,
    by decide +kernel, ⟨by decide +kernel, timer_alone⟩, by decide +kernel, by decide +kernel⟩

/-! The package. -/

/-- Whether its image and its blob are genuine is what the signatures say. -/
def powered (v : Word) : BringUp := ⟨true, [1, 2], [3], v, [4], [5], some 3, [6], [7], 0, 0⟩

/-- Power off at the pins. -/
def unpowered : BringUp := { powered 3 with power := false }

/-- An image of a version below the blob's minimum is refused; one at it is good where both signatures are. -/
theorem witness_PackageEventsHappen_reset :
    State.reset.stopped ≠ .trip ∧ (powered 3).power = true ∧ imageGood (powered 2) = false ∧ unpowered.power = false ∧
    (signedWell [1, 2] [3] = true → signedWell [4] [5] = true → imageGood (powered 3) = true) :=
  ⟨by decide, rfl, by unfold imageGood; rw [show ((powered 2).minVersion.map fun v => v.ule (powered 2).imageVersion).getD true = false
    by decide, Bool.and_false], rfl, fun h1 h2 => by
      unfold imageGood
      rw [show signedWell (powered 3).image (powered 3).imageSig = true from h1,
        show signedWell (powered 3).blob (powered 3).blobSig = true from h2]; decide⟩

/-- Optical connector 4 with one reading past both of its thresholds; regulator 2 with limits, last reported within them. -/
def mBed : State :=
  { State.reset with
    form := .m, thresholds := [((Connector.optical 4).key, [(0, (20, 40))])], readings := [((Connector.optical 4).key, [50])]
    trips := [(2, (100, 90))], lastReport := [(2, (1, 50, 60))] }

theorem witness_PackageEventsHappen :
    (State.reset.waysOk 3 1 0xFF 0xFF00 = true ∧ (∀ x ∈ [0, 11], x < 12)) ∧
    (mBed.form ≠ .p ∧ sget? (mBed.thresholdsOf (.optical 4)) 0 = some (20, 40) ∧ mBed.pastFault (.optical 4) = true) ∧
    (mBed.tripOf 2 = (100, 90) ∧ sget? mBed.lastReport 2 = some (1, 50, 60) ∧ 50 ≤ 80 ∧ 40 < 50 ∧
      sget? ({ mBed with lastReport := [] } : State).lastReport 2 = none) ∧
    ((⟨2, 1, 50, 50⟩ : RegulatorReport).current ≤ (mBed.tripOf 2).1 ∧ (mBed.tripOf 2).1 < (⟨2, 1, 101, 50⟩ : RegulatorReport).current ∧
      mBed.stopped ≠ .trip) ∧
    (State.reset.identity = some (identityKey Config.resetResponse)) ∧
    (isHost (({ State.reset with homes := [⟨0x40000000, 0x1000, 81⟩] } : State).homeOf 0x40000000) = true ∧
      lineOf 0x1000 ∉ State.reset.granted ∧ lineOf 0x1000 ∈ ({ State.reset with granted := [32] } : State).granted) ∧
    ((∀ l ∈ rangeLines 0x1000 64, State.reset.homeOf (128 * l) = State.reset.pkg ∧ State.reset.recallWaits l = false) ∧
      (∀ l ∈ rangeLines 0x1000 64, State.reset.isCold (128 * l) = false) ∧
      (rangeLines 0x1000 64).filter (fun l => (tierBed [(0, .cold)]).isCold (128 * l)) = [32] ∧
      (rangeLines 0x30000 64).filter fabAway.recallWaits = [1536]) ∧
    (homeRangeOk 0x40000000 0x200000 1 = true ∧ State.reset.active = none ∧
      ({ State.reset with slots := State.reset.slots.set 2 { TopoSlot.reset with valid := true } } : State).validSlot 2 = true) :=
  ⟨by decide +kernel, by decide +kernel, by decide +kernel, by decide +kernel, rfl, by decide +kernel, by decide +kernel,
    by decide +kernel⟩

/-! The step, results and frames. -/

def okUnitIs {ε : Type} (e : Except ε (List Parcel × State)) (ps : List Parcel) : Bool :=
  match e with
  | .ok r => decide (r.1 = ps)
  | .error _ => false

theorem okUnitIs_ex {ε : Type} {e : Except ε (List Parcel × State)} {ps : List Parcel} (h : okUnitIs e ps = true) :
    ∃ u, e = .ok (ps, u) := by
  cases e with
  | ok r => exact ⟨r.2, by rw [← of_decide_eq_true h]⟩
  | error d => cases h

/-- IADD.i32 v3, v1, v2 ?k2, numbered as the table numbers bits. -/
def iaddV : Nat := 0x04080000 * 2 ^ 32 + 0x1000500C

def iaddF : FmtV := ⟨none, false, .i32, 2, false, 3, 1, 2, 0, false, false⟩

def iaddP : List Parcel := [0x1000500C, 0x04080000]

/-- The placed IADD, its warp chosen by the environment. -/
def stepBed : State := State.reset.withFetchWord 64 iaddV

def stepQ : State := { stepBed with agenda := [] }

def stepT : State := { stepQ.passSlot (stepBed.slotOf bedW) with cur := some bedW, blocked := none }

def okNone {ε α : Type} (e : Except ε (Option α)) : Bool :=
  match e with
  | .ok r => r.isNone
  | .error _ => false

theorem okNone_eq {ε α : Type} {e : Except ε (Option α)} (h : okNone e = true) : e = .ok none := by
  cases e with
  | ok r => cases r with
    | none => rfl
    | some v => cases h
  | error d => cases h

theorem witness_StepRunsTheDecodedInstruction :
    (stepBed.agenda = .issue bedW :: [] ∧ stepBed.canIssue bedW = true ∧ stepQ.slotWarps (stepBed.slotOf bedW) = [bedW]) ∧
    (stepT.warp? bedW = some (placedWarp iaddV) ∧ (placedWarp iaddV).bundle = some (placedBundle iaddV) ∧
      (placedWarp iaddV).goesOn = none) ∧
    (∃ u, stepT.fetchUnit bedW (placedWarp iaddV) allLanes 0x40008 0x40008 1 = .ok ([0x1000500C], u)) ∧
    parcelKind 0x1000500C = .base ∧
    (unitLen 0x1000500C = 3 → stepT.checkPrefix bedW (placedWarp iaddV) (placedBundle iaddV) 0x40008 = .ok ()) ∧
    unitLen 0x1000500C ≤ ((blockEnd (placedBundle iaddV).at_.hdr (placedBundle iaddV).len).toNat - 0x40008) / 4 ∧
    (∃ v, stepT.fetchUnit bedW (placedWarp iaddV) allLanes 0x40008 0x40008 (unitLen 0x1000500C) = .ok (iaddP, v)) ∧
    decodeParcels iaddP = .ok (.iadd iaddF) ∧
    stepT.unitDetail bedW (placedWarp iaddV) (placedBundle iaddV) (.iadd iaddF) (4 * unitLen 0x1000500C)
      (lowestDetail (blockDetails (placedBundle iaddV) (.iadd iaddF) (4 * unitLen 0x1000500C))) = .ok none :=
  ⟨by decide +kernel, by decide +kernel, okUnitIs_ex (by decide +kernel), by decide +kernel, fun h => absurd h (by decide),
    by decide +kernel, okUnitIs_ex (by decide +kernel), rfl, okNone_eq (by decide +kernel)⟩

/-- With no move of the environment the same warp is the scheduler's choice; alone, it leaves no pair. -/
def freeBed (x : Warp) : State := { stepBed with agenda := [], groups := sset State.reset.groups 0 (bedG x) }

/-- The slot that the warp is chosen for. -/
def freeQ (x : Warp) : State := { freeBed x with turn := true, slotTurn := (freeBed x).slotTurn + 1 }

/-- What the execution of the placed IADD leaves: whether the warp was found blocked. -/
def ranBlocked (x : Warp) : Option Bool :=
  match exec (.iadd iaddF) { (freeQ x).passSlot (freeBed x).slotNow with cur := some bedW, blocked := none } with
  | .next y => some y.blocked.isSome
  | _ => none

/-- A load that writes v1 is in flight. -/
def heldX : Warp := { placedWarp iaddV with vEmpty := [(1, ())], loads := [⟨1, .mem .gen 0 false false, [1], 0, []⟩] }

/-- A FENCE whose commit is made and whose release is not. -/
def fenceX : Warp := { placedWarp iaddV with releasing := true, unit := some (.fence ⟨0, false, 0, 0, 0, 0x212⟩) }

theorem witness_StepRunsTheDecodedInstruction_chosen :
    (freeBed (placedWarp iaddV)).stopped = .running ∧ (freeBed (placedWarp iaddV)).pickDue.isNone = true ∧
    (freeQ (placedWarp iaddV)).slotWarps (freeBed (placedWarp iaddV)).slotNow = [bedW] ∧
    (ranBlocked (placedWarp iaddV) = some false ∧ ranBlocked heldX = some true) ∧
    fenceX.goesOn = some (.fence ⟨0, false, 0, 0, 0, 0x212⟩) ∧ (freeQ fenceX).slotWarps (freeBed fenceX).slotNow = [bedW] := by
  decide +kernel

theorem witness_StepRunsEvents :
    (({ State.reset with agenda := [.event (.tierRequest 3)] } : State).agenda = .event (.tierRequest 3) :: [] ∧
      (Instr.tierRequest 3).coded = false ∧ State.reset.reaches (.tierRequest 3) = true ∧ (Instr.iadd iaddF).coded = true ∧
      State.reset.stopped = .running) ∧
    ((({ State.reset with due := [.commitStep] } : State).pickDue.map Prod.fst) = some .commitStep) ∧
    (State.reset.agenda = [] ∧ State.reset.pickDue.isNone = true ∧ (∀ w ∈ State.reset.allWarps, State.reset.canIssue w = false) ∧
      ({ State.reset with turn := true, slotTurn := 1 } : State).slotWarps State.reset.slotNow = []) ∧
    ({ State.reset with stopped := .trip } : State).stopped ≠ .running := by decide +kernel

theorem witness_EncodedInstructionsDecode :
    wellFormed (.iadd iaddF) = true ∧ encode (.iadd iaddF) = iaddP ∧
    wellFormed (.waitu .ge ⟨some ⟨3, false, .rne, 8, .none, 0, 0⟩, false, false, false, .n64, 0, false, 6, 2, 1, .l2w, .normal, 0⟩) =
      true := by decide +kernel

/-- Under k1, whose lanes are 0 to 15, with Z: active lanes, cleared lanes, and a pair. -/
theorem witness_VectorResultLanes :
    Issuing (bed 0 halfX) bedW halfX bedB ∧
    (∀ r ∈ arithRows ++ bitRows, VecReady (bed 0 halfX) bedW halfX bedB false (r.spec evenVz) evenVz) ∧
    (let v := vecOperands (bed 0 halfX) bedW halfX bedB false (spec2 tInt .i64) evenVz;
      v.d = .v 4 2 ∧ inMask v.act 15 = true ∧ inMask v.act 16 = false ∧ v.z = true) ∧
    (∀ r ∈ immRows, VecReady (bed 0 halfX) bedW halfX bedB false (r.spec immF) (iToV immF)) ∧
    ∀ r ∈ moviRows, VecReady (bed 0 halfX) bedW halfX bedB false (r.spec immL) (lToV immL) :=
  ⟨bed_issuing _ _ _ rfl rfl, by decide +kernel, by decide +kernel, by decide +kernel, by decide +kernel⟩

theorem witness_RegisterInstructionsKeepTheRest :
    Issuing (bed 0 bedX) bedW bedX bedB ∧ (∀ r ∈ arithRows ++ bitRows, VecReady (bed 0 bedX) bedW bedX bedB false (r.spec evenV) evenV) ∧
    (∀ r ∈ uniRows, VecReady (bed 0 bedX) bedW bedX bedB true (r.spec evenV) evenV) ∧
    (∀ r ∈ floatRows, VecReady (bed 0 bedX) bedW bedX bedB false r.spec evenV) ∧
    (∀ r ∈ immRows, VecReady (bed 0 bedX) bedW bedX bedB false (r.spec immF) (iToV immF)) ∧
    (∀ r ∈ immUniRows, VecReady (bed 0 bedX) bedW bedX bedB true (r.spec immF) (iToV immF)) ∧
    (∀ r ∈ moviRows, VecReady (bed 0 bedX) bedW bedX bedB false (r.spec immL) (lToV immL)) ∧
    (∀ r ∈ moviUniRows, VecReady (bed 0 bedX) bedW bedX bedB true (r.spec immL) (lToV immL)) ∧
    ∀ r ∈ sfuRows, VecReady (bed 0 bedX) bedW bedX bedB false r.spec evenV :=
  ⟨bed_issuing _ _ _ rfl rfl, by decide +kernel, by decide +kernel, by decide +kernel, by decide +kernel, by decide +kernel,
    by decide +kernel, by decide +kernel, by decide +kernel⟩

/-- The compares, selects, moves, mask instructions, cross-lane instructions and conversions, at the operands of their
completion witnesses. -/
theorem witness_RegisterInstructionsKeepTheRest_others :
    (∀ q ∈ [specIcmp .i32, specFcmp, specIsel .i32, specMovg .i32 8, specGmov .i32 8, specMask .k .k .k, specMask .k .k .none,
        specMask .g .k .none, specShfl .i32, specVote .k, specVote (.v 1 false), specRed .add .i32, specRed .fmax .i32,
        specMatch .i32, specCvtfi .f32 .i32, specCvtif .i64 .i32, specCvtff .f32 true evenV, specPackf4, specUnpackf4],
      VecReady (bed 0 bedX) bedW bedX bedB false q evenV) ∧
    (∀ q ∈ [specIsel .i32, specVote .k, specVote (.v 1 false)], let v := vecOperands (bed 0 bedX) bedW bedX bedB false q evenV
      v.kPoison v.c = 0) ∧
    ∀ q ∈ [specCvtff .f32 true evenV, specPackf4], let v := vecOperands (bed 0 bedX) bedW bedX bedB false q evenV
      (v.b.read v.w 0).2 = false := by decide +kernel

/-- The kernel of the bed is not sampled. -/
theorem witness_RegisterInstructionsKeepTheRest_unsampled : (bed 0 bedX).unsampledWarp bedW := by
  unfold State.unsampledWarp; decide +kernel

def bitF (ty : Ty) (sb : BitVec 8) : FmtV := ⟨none, false, ty, 0, false, 4, 2, sb, 0, false, false⟩

theorem witness_BitwiseResults :
    Issuing (bed 0 bedX) bedW bedX bedB ∧
    ∀ ty ∈ [Ty.b32, .n64], VecReady (bed 0 bedX) bedW bedX bedB false (spec2 tBits ty) (bitF ty 6) ∧
      VecReady (bed 0 bedX) bedW bedX bedB false (spec1 tBits ty) (bitF ty 0) ∧ wellFormed (.and (bitF ty 6)) = true ∧
      wellFormed (.not (bitF ty 0)) = true ∧
      inMask (vecOperands (bed 0 bedX) bedW bedX bedB false (spec2 tBits ty) (bitF ty 6)).act 31 = true :=
  ⟨bed_issuing _ _ _ rfl rfl, by decide +kernel⟩

/-- Lane 0 divides by 0, lane 1 the least number by -1, lane 2 seven by -2. -/
def divX : Warp :=
  { bedX with
    v := [(2, ((Vector.replicate 32 Lane.zero).set 1 ⟨0x80000000, false⟩).set 2 ⟨7, false⟩),
      (6, ((Vector.replicate 32 Lane.zero).set 1 ⟨0xFFFFFFFF, false⟩).set 2 ⟨0xFFFFFFFE, false⟩)] }

theorem witness_DivisionResults :
    Issuing (bed 0 divX) bedW divX bedB ∧
    (∀ ty ∈ [Ty.i32, .n32, .i64, .n64], VecReady (bed 0 divX) bedW divX bedB false (spec2 tWide ty) (bitF ty 6) ∧
      wellFormed (.idiv (bitF ty 6)) = true ∧ wellFormed (.irem (bitF ty 6)) = true) ∧
    (let v := vecOperands (bed 0 divX) bedW divX bedB false (spec2 tWide .i32) (bitF .i32 6);
      v.d = .v 4 1 ∧ inMask v.act 0 = true ∧ inMask v.act 1 = true ∧ inMask v.act 2 = true ∧ (v.b.read v.w 0).1 = 0 ∧
      ((v.a.read v.w 1).1.setWidth 32).toInt = -(2 ^ 31) ∧ ((v.b.read v.w 1).1.setWidth 32).toInt = -1 ∧
      ((v.a.read v.w 2).1.setWidth 32).toInt = 7 ∧ ((v.b.read v.w 2).1.setWidth 32).toInt = -2) :=
  ⟨bed_issuing _ _ _ rfl rfl, by decide +kernel, by decide +kernel⟩

theorem witness_StoreFrame :
    wellFormed (.st .elem { scrM with k := 1 }) = true ∧ Issuing (bigBed memX) bedW memX bedB ∧
    MemReady (bigBed memX) bedW memX bedB (specSt .elem .b32) genM ∧
    (memOperands (bigBed memX) bedW memX bedB (specSt .elem .b32) genM).places = memPl ∧
    wellFormed (.st .elem genM) = true ∧
    SpaceFree (bigT memX) bedI .gen (mayStore .gen) 4 4 memPl ∧ PlaceFree (bigT memX) bedI memX.presented .gen .wr 4 memPl ∧
    RoomFor (bigT memX) bedI memX.presented ((bigT memX).newLines bedI memX.presented .gen memPl) (bigT memX) ∧
    (bigT memX).warp? bedW = some memX.presented ∧ memX.presented.bundle = some bedB ∧
    (memOperands (bigBed memX) bedW memX bedB (specSt .elem .b32) genM).d = .v 4 1 :=
  ⟨by decide +kernel, ⟨rfl, rfl, rfl, rfl⟩, by decide +kernel, by decide +kernel, by decide +kernel, by decide +kernel,
    placeFree_gen_wr (by decide +kernel), room_now (by decide +kernel), rfl, rfl, by decide +kernel⟩

/-- Two write-throughs of one core to one line, and one of another core. -/
theorem witness_WriteThroughFrame :
    (({ State.reset with wts := [wtOf 3 9 6, wtOf 4 9 7, { wtOf 2 9 5 with core := 8 }] } : State).wts.find? fun k =>
      decide (k.id = 4)) = some (wtOf 4 9 7) ∧
    ({ State.reset with wts := [wtOf 3 9 6, wtOf 4 9 7] } : State).waitsOn 9 (fun _ => true) = [] ∧
    (State.reset.cxlLine 9 = false ∧ State.reset.recallWaits 9 = false ∧ sget? State.reset.hot 9 = none) ∧
    (([wtOf 3 9 6, wtOf 4 9 7].map fun w => w.data).flatten = [(1152, 6)] ++ (1152, 7) :: []) := by decide +kernel

/-- A kernel with a handler, and a predicate poisoned in lane 5. -/
def trapX : Warp := { bedX with k := bedX.k.set 1 ⟨0xFFFF, 0x20⟩ }

def trapBed : State :=
  { bed 0 trapX with kernels := sset State.reset.kernels 0 { placedKernel with desc := some { placedDesc with handler := 0x40000 } } }

theorem witness_FaultEntry :
    Issuing trapBed bedW trapX bedB ∧
    (let c := (trapBed.issued bedW).charge bedW 0x40008 0;
      ((c.warp? bedW).map Warp.handler = some none ∧
        c.kernelOf bedW = some { placedKernel with desc := some { placedDesc with handler := 0x40000 } })) ∧
    trapBed.unsampledWarp bedW ∧
    ((0x40000 : DWord) ≠ 0 ∧ (predOf trapX bedB.mask evenVz.pfx evenVz.k evenVz.kn).psn = 0x20) ∧
    ∀ r ∈ arithRows ++ bitRows, let v := vecOperands trapBed bedW trapX bedB false (r.spec evenVz) evenVz
      boundError (vecOpds (trapBed.allotOf bedW) trapX false (r.spec evenVz) evenVz) = none ∧ v.a.empty? trapX = none ∧
      v.b.empty? trapX = none ∧ v.c.empty? trapX = none ∧ v.d.empty? trapX = none :=
  ⟨⟨rfl, rfl, rfl, rfl⟩, by decide +kernel, by unfold State.unsampledWarp; decide +kernel, by decide +kernel, by decide +kernel⟩

theorem witness_TrippedPackageStays :
    ({ State.reset with stopped := .trip, agenda := [.event .commitStep, .issue bedW] } : State).stopped = .trip ∧
    ∀ c ∈ [true, false], Move.event (.powerLoss c) ∉
      ({ State.reset with stopped := .trip, agenda := [.event .commitStep, .issue bedW] } : State).agenda := by decide +kernel

/-! ### One step on the placed unit -/

/-- The register lane, or the g register, of the one warp after one step of a unit. -/
def ranLane (x : Warp) (w reg lane : Nat) : Option Word :=
  match step { bed w { x with bundle := some (placedBundle w) } with agenda := [.issue bedW] } with
  | .next t => (t.warp? bedW).map fun y => (y.lane reg lane).v
  | _ => none

def ranG (x : Warp) (w reg : Nat) : Option DWord :=
  match step { bed w { x with bundle := some (placedBundle w) } with agenda := [.issue bedW] } with
  | .next t => (t.warp? bedW).map fun y => (y.greg reg).v
  | _ => none

/-- A base word as the spec writes it, numbered as the table numbers bits. -/
def asTable (w : Nat) : Nat := w / 2 ^ 32 + w % 2 ^ 32 * 2 ^ 32

/-- v1 and v2 of lane 0; k2 is all lanes. -/
def sumX : Warp :=
  { bedX with
    k := bedX.k.set 2 ⟨0xFFFFFFFF, 0⟩
    v := [(1, (Vector.replicate 32 Lane.zero).set 0 ⟨0x7FFFFFFF, false⟩), (2, Vector.replicate 32 ⟨2, false⟩)] }

/-- IADD.i32 v3, v1, v2 ?k2 wraps (R179). -/
theorem test_step_iadd_wraps : ranLane sumX (asTable 0x1000_500C_0408_0000) 3 0 = some 0x80000001 := by decide +kernel

/-- IADDC.n32 v4:v5, v1, v2, v3 sums the three and puts the carry in v5 (R180): 0xFFFFFFFF + 2 + 1. -/
theorem test_step_iaddc_carries :
    ranLane { bedX with v := [(1, Vector.replicate 32 ⟨0xFFFFFFFF, false⟩), (2, Vector.replicate 32 ⟨2, false⟩),
      (3, Vector.replicate 32 ⟨1, false⟩)] } (asTable 0x1018_8010_0408_0C00) 5 9 = some 1 := by decide +kernel

/-- IADD.i64 g5, g6, g7 in the uniform form (R178). -/
theorem test_step_iadd_uniform :
    ranG ((bedX.setG 6 ⟨0xFFFFFFFFFFFFFFFF, false⟩).setG 7 ⟨3, false⟩) (asTable 0x1081_8014_181C_0000) 5 = some 2 := by decide +kernel

/-- SHLI.i8x4 v2, v3, #9: an amount beyond the element's width leaves zero (R194, R186). -/
theorem test_step_shli_wide :
    ranLane { bedX with v := [(2, Vector.replicate 32 ⟨5, false⟩), (3, Vector.replicate 32 ⟨0xFFFFFFFF, false⟩)] }
      (asTable 0x1A11_4008_0C00_0009) 2 0 = some 0 := by decide +kernel

/-- KPOPC g3, k5 (R195). -/
theorem test_step_kpopc :
    ranG { bedX with k := bedX.k.set 5 ⟨0xF000000F, 0⟩ } (asTable 0x1B14_000C_1400_0000) 3 = some 8 := by decide +kernel

/-- SHFL.XOR.b32 v6, v7, g1 with g1 = 1: lane 4 takes lane 5 (R198). -/
theorem test_step_shfl :
    ranLane { bedX.setG 1 ⟨1, false⟩ with v := [(7, Vector.ofFn fun L => ⟨BitVec.ofNat 32 (100 + L.val), false⟩)] }
      (asTable 0x400C_0018_1C04_0200) 6 4 = some 105 := by decide +kernel

/-- FADD.f32 v3, v1, v2: 1.0 + 2.0 = 3.0 (R205, R32). -/
theorem test_step_fadd :
    ranLane { bedX with v := [(1, Vector.replicate 32 ⟨0x3F800000, false⟩), (2, Vector.replicate 32 ⟨0x40000000, false⟩)] }
      (asTable 0x3002_000C_0408_0000) 3 7 = some 0x40400000 := by decide +kernel

/-- MOVSR v3, LANE (R157). -/
theorem test_step_movsr_lane : ranLane bedX (asTable 0x0600_000C_0002_0000) 3 31 = some 31 := by decide +kernel

/-- SETX x1, g4, #-3 with g4 = 2 writes -1 modulo 2^11 (R159). -/
theorem test_step_setx :
    (match step { bed (asTable 0x0608_0004_13FF_FFFD) ((placedWarp (asTable 0x0608_0004_13FF_FFFD)).setG 4 ⟨2, false⟩) with
        agenda := [.issue bedW] } with
      | .next t => (t.warp? bedW).map fun y => vget y.x 1 0
      | _ => none) = some 0x7FF := by decide +kernel

/-- IADDC to an odd pair is ILLEGAL (R56, R65); with no handler the group aborts with that fault's code, 1 (R388, R133). -/
theorem test_step_illegal_aborts :
    (match step { bed (asTable 0x1018_8014_0408_0C00) (placedWarp (asTable 0x1018_8014_0408_0C00)) with agenda := [.issue bedW] } with
      | .next t => (t.group? 0).map fun (g : Group) => (g.st, g.fcode)
      | _ => none) = some (.aborted, 1) := by decide +kernel
end

section
/-! SUPPORT. The events of the memory: page requests and tier pages (19_page R344-R348), transaction timers (20_cell R359),
write-throughs (14_ordering R250) and soft errors (22_faults R390). One lemma per event and per case of its rule says what the
state becomes. -/

namespace Sys2Proof.Machine

section
variable {s : State}

/-! ### What runs an event whose meaning looks something up -/

theorem exec_pageRequestResponse (id page : Nat) (ok : Bool) :
    exec (.pageRequestResponse id page ok) s = execPageRequestResponse id page ok s := rfl

theorem exec_copyOutComplete (tier : Nat) : exec (.copyOutComplete tier) s = execCopyOutComplete tier s := rfl

theorem exec_txnTimeout (t : TxnTarget) : exec (.txnTimeout t) s = execTxnTimeout t s := rfl

theorem exec_writeThroughArrival (id : Nat) : exec (.writeThroughArrival id) s = execWriteThroughArrival id s := rfl

theorem exec_softError (e : SoftErr) : exec (.softError e) s = execSoftError e s := rfl

/-! ### Page requests and tier pages -/

theorem happens_pageRequestResponse {id page : Nat} (ok : Bool)
    (h : (s.pageReqs.find? fun q => decide (q.id = id) && decide (q.page = page)).isSome = true) :
    let t := { s with pageReqs := s.pageReqs.filter fun (q : PageReq) => decide (q.id ≠ id) }
    Happens (.pageRequestResponse id page ok) s ((if ok then t else t.pageRefused id page).wakeParked) := by
  obtain ⟨q, hq⟩ := Option.isSome_iff_exists.1 h
  rw [Happens, exec_pageRequestResponse, execPageRequestResponse, hq]
  rfl

theorem happens_tierRequest_absent (hform : s.form = .p) (tier : Nat) :
    Happens (.tierRequest tier) s (s.say (.tierAbsent tier)) := if_pos hform

theorem happens_evictionSelect_absent (hform : s.form = .p) (tier : Nat) :
    Happens (.evictionSelect tier) s (s.say (.tierAbsent tier)) := if_pos hform

theorem happens_evictionSelect {tier : Nat} (hform : s.form = .m) (h : s.evictable tier = true) :
    Happens (.evictionSelect tier) s ({ s.recallTier tier with
      tier := sset (s.recallTier tier).tier tier .evicting }.addDue (.copyOutComplete tier)) := by
  have hp : s.form ≠ .p := by rw [hform]; decide
  exact (if_neg hp).trans (if_pos h)

theorem happens_copyOutComplete_cold {tier : Nat} (h : sget? s.tier tier = some .evicting) (hheld : s.tierHeld tier = []) :
    Happens (.copyOutComplete tier) s { s with tier := sset s.tier tier .cold } := by
  rw [Happens, exec_copyOutComplete, execCopyOutComplete, if_pos h, hheld]
  rfl

theorem happens_copyOutComplete_held {tier : Nat} (h : sget? s.tier tier = some .evicting) (hheld : s.tierHeld tier ≠ []) :
    Happens (.copyOutComplete tier) s (((s.tierHeld tier).foldl State.askRecall s).addDue (.copyOutComplete tier)) := by
  rw [Happens, exec_copyOutComplete, execCopyOutComplete, if_pos h]
  cases hl : s.tierHeld tier with
  | nil => exact absurd hl hheld
  | cons n l => rfl

theorem happens_fillComplete {tier : Nat} (h : sget? s.tier tier = some .filling) :
    Happens (.fillComplete tier) s ({ s with tier := sdel s.tier tier }.wakeParked.retryAsks) := if_pos h

theorem happens_fillFlashError {tier : Nat} (h : sget? s.tier tier = some .filling) :
    Happens (.fillFlashError tier) s (({ s with
      tier := sdel s.tier tier,
      pline := (s.pline.filter fun n => decide (n / 512 ≠ tier)) ++ (List.range 512).map fun j => 512 * tier + j }.lanternHub 8 1
        [65536 * tier]).wakeParked.retryAsks) := if_pos h

/-! ### Firewall entries -/

theorem happens_firewallUpdate_elsewhere {page : Nat} (wm rm : Word) (h : s.homeOf (page * 0x200000) ≠ s.pkg) :
    Happens (.firewallUpdate page wm rm) s { s with firewall := sset s.firewall page (wm ++ rm) } := if_pos h

theorem happens_firewallUpdate_home {page : Nat} (wm rm : Word) (h : s.homeOf (page * 0x200000) = s.pkg) :
    Happens (.firewallUpdate page wm rm) s
      ({ s with firewall := sset s.firewall page (wm ++ rm),
                fwOpen := s.fwOpen ++ [(page, lostGrants s.cell (s.fwEntry (page * 0x200000)) (wm ++ rm))]
        }.closeUpdates.retryAsks) := if_neg (not_not_intro h)

/-- A page of which the directory lists no line has nothing to recall, so its update is complete at once (R348). -/
theorem closeUpdates_of_pageLines_nil {page : Nat} (lost : BitVec 32) (h : s.pageLines page = []) :
    State.closeUpdates { s with fwOpen := [(page, lost)] } = State.say { s with fwOpen := [] } (.firewallDone page) := by
  have hl : State.pageLines { s with fwOpen := [] } page = [] := h
  change State.closeUpdate { s with fwOpen := [] } (page, lost) = _
  simp only [State.closeUpdate, hl, List.foldl_nil, List.any_nil, Bool.false_eq_true, if_false]

theorem happens_firewallUpdate_done {page : Nat} (wm rm : Word) (h : s.homeOf (page * 0x200000) = s.pkg)
    (hopen : s.fwOpen = []) (hlines : s.pageLines page = []) :
    Happens (.firewallUpdate page wm rm) s
      (State.say { s with firewall := sset s.firewall page (wm ++ rm) } (.firewallDone page)).retryAsks := by
  have hu := happens_firewallUpdate_home wm rm h
  rw [hopen, List.nil_append] at hu
  have hc := closeUpdates_of_pageLines_nil (s := { s with firewall := sset s.firewall page (wm ++ rm) })
    (lostGrants s.cell (s.fwEntry (page * 0x200000)) (wm ++ rm)) hlines
  rw [hc] at hu
  rwa [← hopen] at hu

/-! ### Transaction timers -/

theorem timerHeld_of_timesOut {home : Nat} (h : s.timesOut home = true) : s.timerHeld home = false := by
  simp only [State.timesOut, Bool.and_eq_true, Bool.not_eq_true'] at h
  exact h.2

theorem happens_txnTimeout_warp (w : WarpId) {line : Nat} (h : s.timesOut (s.homeOf (128 * line)) = true) :
    Happens (.txnTimeout (.warp w line)) s
      (s.updWarp w fun x => if line ∈ x.asked then { x with txnLost := addOnce line x.txnLost } else x) :=
  congrArg event (if_pos h)

theorem happens_txnTimeout_copy {id line : Nat} (dst : Bool) {c : Copy}
    (hc : s.copies.find? (fun c => decide (c.id = id)) = some c) (herr : c.err = none) (h : s.copyTimesOut c line = true) :
    Happens (.txnTimeout (.copy id line dst)) s (s.failCopy c 10 (128 * line) dst) := by
  simp only [Happens, exec_txnTimeout, execTxnTimeout, hc, herr, h]
  rfl

/-- A PUT whose turn it is, whose destination can be reached and whose lines are home lands, with the timeout where the timer
is not held (R363, R380). -/
theorem tryLand_txnTimeout {p : Put} (line : Nat) (hheld : s.timerHeld p.dest = false) (hbehind : s.putBehind p = false)
    (hgate : s.gateHome p.dest ≠ .hold) (hrec : s.putRecalls p = []) :
    s.tryLand p (.txnTimeout line) = s.landPut p (.txnTimeout line) := by
  simp [State.tryLand, hheld, hbehind, hgate, hrec]

theorem happens_txnTimeout_put {id : Nat} (line : Nat) {p : Put} (hp : s.puts.find? (fun p => decide (p.id = id)) = some p)
    (h : s.timesOut p.dest = true) (hbehind : s.putBehind p = false) (hgate : s.gateHome p.dest ≠ .hold)
    (hrec : s.putRecalls p = []) :
    Happens (.txnTimeout (.put id line)) s (s.landPut p (.txnTimeout line)) := by
  rw [← tryLand_txnTimeout line (timerHeld_of_timesOut h) hbehind hgate hrec]
  simp only [Happens, exec_txnTimeout, execTxnTimeout, hp, h]
  rfl

theorem happens_txnTimeout_recall {line : Nat} {e : DirEntry} (he : sget? s.dir line = some e) (hrec : line ∈ s.recalls)
    (hheld : s.timerHeld ((((sget? s.cells e.owner).map Cell.members).getD []).headD s.pkg) = false) :
    Happens (.txnTimeout (.recall line)) s (s.recallTimesOut line) := by
  have hgo : ¬(line ∉ s.recalls ∨ s.timerHeld ((((sget? s.cells e.owner).map Cell.members).getD []).headD s.pkg) = true) := by
    rw [hheld]
    simp [hrec]
  simp only [Happens, exec_txnTimeout, execTxnTimeout, he, if_neg hgo]
  rfl

theorem happens_txnTimeout_tree {inst : Nat} {x : Tree} (hx : sget? s.trees inst = some x)
    (h : ∀ c ∈ x.got, ∀ va ∈ [c.result, c.status, c.counter], ∀ p,
      s.translate c.core c.ctx va 0 = .ok p → s.timerHeld (s.homeOf p.pa) = false) :
    Happens (.txnTimeout (.tree inst)) s { s with trees := supd s.trees inst fun x => { x with lost := true } } := by
  refine congrArg event (if_neg ?_)
  rw [hx, Option.map_some, Option.getD_some, Bool.not_eq_true]
  refine List.any_eq_false.2 fun c hc => Bool.eq_false_iff.1 (List.any_eq_false.2 fun va hva => Bool.eq_false_iff.1 ?_)
  split
  next p hp => exact h c hc va hva p hp
  next => rfl

/-! ### Write-throughs -/

section
variable {id : Nat} {x : WriteThrough} (hx : s.wts.find? (fun w => decide (w.id = id)) = some x)
include hx

/-- A write-through in flight runs the three cases of its line: recalled first, obtained first, or landing (R250, R354, R417). -/
theorem execWriteThroughArrival_of_find : execWriteThroughArrival id s =
    if s.recallWaits x.line then event ((s.askRecall x.line).addDue (.writeThroughArrival id))
    else if s.cxlLine x.line ∧ x.line ∉ s.granted then event ((s.obtain x.line).addDue (.writeThroughArrival id))
    else event ((s.recallOwned x.core x.line).land fun w =>
      (s.ownWt x.core w || decide (w.wid = x.wid)) && decide (w.line = x.line) && decide (w.id ≤ id)) := by
  rw [execWriteThroughArrival, hx]

theorem happens_writeThroughArrival_lands (hwait : s.recallWaits x.line = false)
    (hgrant : s.cxlLine x.line = true → x.line ∈ s.granted) :
    Happens (.writeThroughArrival id) s ((s.recallOwned x.core x.line).land fun w =>
      (s.ownWt x.core w || decide (w.wid = x.wid)) && decide (w.line = x.line) && decide (w.id ≤ id)) := by
  have hg : ¬(s.cxlLine x.line = true ∧ x.line ∉ s.granted) := fun h => h.2 (hgrant h.1)
  rw [Happens, exec_writeThroughArrival, execWriteThroughArrival_of_find hx, if_neg (Bool.eq_false_iff.1 hwait), if_neg hg]
  rfl

theorem happens_writeThroughArrival_obtains (hwait : s.recallWaits x.line = false) (hcxl : s.cxlLine x.line = true)
    (hgrant : x.line ∉ s.granted) :
    Happens (.writeThroughArrival id) s ((s.obtain x.line).addDue (.writeThroughArrival id)) := by
  rw [Happens, exec_writeThroughArrival, execWriteThroughArrival_of_find hx, if_neg (Bool.eq_false_iff.1 hwait), if_pos ⟨hcxl, hgrant⟩]
  rfl

theorem happens_writeThroughArrival_recalls (hwait : s.recallWaits x.line = true) :
    Happens (.writeThroughArrival id) s ((s.askRecall x.line).addDue (.writeThroughArrival id)) := by
  rw [Happens, exec_writeThroughArrival, execWriteThroughArrival_of_find hx, if_pos hwait]
  rfl

end

/-! ### Soft errors -/

theorem happens_softError_buffer {g : Nat} {x : Group} (sp a : Nat) (r : List Nat) (syn : Word) (hg : s.group? g = some x) :
    Happens (.softError (.buffer g sp (a :: r) syn)) s
      ((s.updGroup g fun x => x.setBuf (bufferSpace sp) ((x.buf (bufferSpace sp)).poison (a :: r))).softRecord x.core (4 * a)
        syn) := by
  simp only [Happens, exec_softError, execSoftError, hg]
  rfl

theorem happens_softError_scratch {ctx sector : Nat} (a : Nat) (r : List Nat) (syn : Word)
    (h : (sget? s.l2w (l2wKey ctx sector)).isSome = true) :
    let x := s.l2wOf (l2wKey ctx sector)
    Happens (.softError (.scratch ctx sector (a :: r) syn)) s
      ((s.setL2w (l2wKey ctx sector) { x with mem := x.mem.poison (a :: r) }).softRecord (0x1000 + s.unstated 0 % 4096) (4 * a)
        syn) := by
  obtain ⟨x, hx⟩ := Option.isSome_iff_exists.1 h
  simp only [Happens, exec_softError, execSoftError, hx]
  rfl

theorem happens_softError_directory {line : Nat} {e : DirEntry} (syn : Word) (he : sget? s.dir line = some e) :
    Happens (.softError (.directory line syn)) s
      ((State.dirDel { s with mem := s.mem.poison ((List.range 32).map fun j => 32 * line + j) } line).softRecord
        (0x2000 + Config.homeAgent line % 16) (128 * line) syn) := by
  simp only [Happens, exec_softError, execSoftError, he]
  rfl

end

/-- Settles O46: each event's own case gives the state that its rule names. -/
theorem memoryEventsHappen : Obligations.MemoryEventsHappen := by
  intro s
  refine ⟨fun _ _ ok h => happens_pageRequestResponse ok h, fun tier => ⟨?_, ?_, ?_, ?_, ?_⟩,
    fun _ wm rm => ⟨?_, ?_, ?_⟩, ?_, ?_, ?_, ?_, ?_, fun _ _ hx => ⟨?_, ?_, ?_⟩, ?_, ?_, ?_, ?_, ?_, ?_⟩
  -- tier pages
  · exact happens_evictionSelect
  · exact happens_copyOutComplete_cold
  · exact happens_copyOutComplete_held
  · exact fun h => ⟨happens_fillComplete h, happens_fillFlashError h⟩
  · exact fun h => ⟨happens_tierRequest_absent h tier, happens_evictionSelect_absent h tier⟩
  -- the firewall
  · exact happens_firewallUpdate_elsewhere wm rm
  · exact happens_firewallUpdate_home wm rm
  · exact happens_firewallUpdate_done wm rm
  -- transaction timers
  · exact fun w _ h => happens_txnTimeout_warp w h
  · exact fun _ _ dst _ hc herr h => happens_txnTimeout_copy dst hc herr h
  · exact fun _ line _ hp h hbehind hgate hrec => happens_txnTimeout_put line hp h hbehind hgate hrec
  · exact fun _ _ he hrec hheld => happens_txnTimeout_recall he hrec hheld
  · exact fun _ _ hx h => happens_txnTimeout_tree hx h
  -- write-throughs
  · exact happens_writeThroughArrival_lands hx
  · exact happens_writeThroughArrival_obtains hx
  · exact happens_writeThroughArrival_recalls hx
  -- soft errors
  · exact fun _ => rfl
  · exact fun _ _ => rfl
  · exact fun _ _ _ => rfl
  · exact fun _ _ sp a r syn hg => happens_softError_buffer sp a r syn hg
  · exact fun _ _ a r syn h => happens_softError_scratch a r syn h
  · exact fun _ _ syn he => happens_softError_directory syn he

end Sys2Proof.Machine
end

section
/-! SUPPORT. One issue slot (R15, R139): which slot a step gives, how it passes from a warp found blocked to
the next in order, and what the warp that has it runs. -/

namespace Sys2Proof.Machine

section
variable {s q y z u v : State} {w w' : WarpId} {l : List WarpId} {x : Warp} {b : Bundle} {i : Instr} {slot : Nat}

/-! ### Which slot a step gives -/

theorem step_of_issue {a : WarpId} {r : List Move} (hagenda : s.agenda = .issue a :: r) (hcan : s.canIssue a = true) :
    step s = issueSlot stepWarp { s with agenda := r } (s.slotOf a) := by
  simp only [step, hagenda, hcan, if_true]

theorem step_of_no_event (hagenda : s.agenda = []) (hrunning : s.stopped = .running) (hdue : s.pickDue = none) :
    step s = issueSlot stepWarp { s with turn := true, slotTurn := s.slotTurn + 1 } s.slotNow := by
  simp [step, hagenda, hrunning, hdue]

/-! ### The warps of a slot in order -/

section
variable {run : State → WarpId → Out}

theorem tryWarps_cons_of_issues (hrun : run s w = .next y) (hy : y.blocked = none) :
    tryWarps run (w :: l) s = (.next y, some w) := by
  simp [tryWarps, hrun, hy]

theorem tryWarps_cons_of_blocked_of_some (hrun : run s w = .next y) (hy : y.blocked.isSome = true)
    (hrest : tryWarps run l (y.unready w) = (.next z, some w')) :
    tryWarps run (w :: l) s = (.next z, some w') := by
  simp [tryWarps, hrun, hy, hrest]

theorem tryWarps_cons_of_blocked_of_none (hrun : run s w = .next y) (hy : y.blocked.isSome = true)
    (hrest : tryWarps run l (y.unready w) = (.next z, none)) :
    tryWarps run (w :: l) s = (.next { z with blocked := y.blocked }, none) := by
  simp [tryWarps, hrun, hy, hrest]

theorem issueSlot_of_some (hslot : q.slotWarps slot = w :: l)
    (htry : tryWarps run (w :: l) (q.passSlot slot) = (.next z, some w')) :
    issueSlot run q slot = .next (pairSlot run w' (q.upNext w')
      (ageRest run (q.passSlot slot) z (((w :: l).dropWhile (· ≠ w')).tail))) := by
  simp only [issueSlot, hslot, htry]

theorem issueSlot_of_none (hslot : q.slotWarps slot = w :: l)
    (htry : tryWarps run (w :: l) (q.passSlot slot) = (.next z, none)) :
    issueSlot run q slot = .next (z.endSlot (q.resting slot)) := by
  simp only [issueSlot, hslot, htry, endSlot]

end

/-! ### What the warp runs -/

theorem stepWarp_of_goesOn (hw : ({ u with cur := some w, blocked := none } : State).warp? w = some x)
    (hb : x.bundle = some b) (hi : x.goesOn = some i) :
    stepWarp u w = exec i { u with cur := some w, blocked := none } := by
  simp only [stepWarp, hw, hb, hi]

theorem stepWarp_of_present (hw : ({ u with cur := some w, blocked := none } : State).warp? w = some x)
    (hb : x.bundle = some b) (hi : x.goesOn = none)
    (hp : present { u with cur := some w, blocked := none } w x b = .ok (i, v)) :
    stepWarp u w = exec i (v.updWarp w fun z => { z with unit := some i }) := by
  simp only [stepWarp, hw, hb, hi, hp]

end

/-- Settles O48: the step is the slot, the slot goes to its first warp, and what that warp runs is the unit it goes on with or
the one that `present` decodes. -/
theorem stepRunsTheDecodedInstruction : Obligations.StepRunsTheDecodedInstruction := by
  intro s q slot w l x b i hmove hslot u t hw hb over_ runs
  have hstep : step s = issueSlot stepWarp q slot := by
    rcases hmove with ⟨a, r, hagenda, hcan, rfl, rfl⟩ | ⟨hagenda, hrunning, hdue, rfl, rfl⟩
    · exact step_of_issue hagenda hcan
    · exact step_of_no_event hagenda hrunning hdue
  have hruns : ∀ o, stepWarp u w = o → runs o := by
    rintro _ hrun y rfl
    refine ⟨fun hy => ?_, fun hy z => ⟨fun w' hrest => ?_, fun hrest => ?_⟩⟩
    · exact hstep.trans (issueSlot_of_some hslot (tryWarps_cons_of_issues hrun hy))
    · exact hstep.trans (issueSlot_of_some hslot (tryWarps_cons_of_blocked_of_some hrun hy hrest))
    · exact hstep.trans (issueSlot_of_none hslot (tryWarps_cons_of_blocked_of_none hrun hy hrest))
  refine ⟨fun hi => hruns _ (stepWarp_of_goesOn hw hb hi), fun p ps v v' hi hfirst hkind hlen hpfx hunit hdec hdet => ?_⟩
  exact hruns _ (stepWarp_of_present hw hb hi (present_ok hfirst hkind hlen hunit hdec hdet hpfx))

end Sys2Proof.Machine
end

section
/-! SUPPORT. Encoding and decoding (03_encoding R43, R63, R65): what the encoder writes for a well-formed instruction is taken as
one unit, builds the instruction again, and earns no detail. -/

namespace Sys2Proof

section
variable {i : Instr} {u : RawUnit}

open Laws.Builds in
/-- The unit the encoder writes names its instruction again, whichever instruction it is: one lemma of `Laws.Builds` per
constructor, in the order of the constructors. -/
theorem Laws.Builds.statement (i : Instr) : Statement i :=
  i.casesOn
    nop yield brk bra jtb lpad call callj ret exit cdecl csign partset movsr movsrVector movts setx span trap resumeF
    resumeS resumeN abortg launch alloc freeb iadd isub imin imax ineg iabs iaddc isubc iadds isubs imul imad imulh
    imadw idiv irem iaddUniform isubUniform iminUniform imaxUniform inegUniform iabsUniform iaddcUniform isubcUniform
    iaddsUniform isubsUniform imulUniform imadUniform imulhUniform imadwUniform idivUniform iremUniform icmp isel and
    or xor andn orn xnor not andUniform orUniform xorUniform andnUniform ornUniform xnorUniform notUniform shl shr sar
    rol ror fshl fshr shlUniform shrUniform sarUniform rolUniform rorUniform fshlUniform fshrUniform bext bins popc
    clz ctz brev bswap bextUniform binsUniform popcUniform clzUniform ctzUniform brevUniform bswapUniform clmul clmulh
    clmulUniform clmulhUniform lea leaUniform mov movUniform movg gmov movi moviUniform iaddi andi ori xori shli shri
    sari iaddiUniform andiUniform oriUniform xoriUniform shliUniform shriUniform sariUniform kand kor kxor knot kmov
    kpopc kfirst shfl voteAny voteAll voteBallot redl scanl matchLanes fadd fsub fmul fmin fmax fminm fmaxm fabs fneg
    fcopysign ffma ffms fnma fcmp fclass frcp frsq fsqrt fexp2 flog2 fsin fcos ftanh fdot2 cvtfi cvtif cvtff frnd
    scaleb packf4 unpackf4 ld st ldt prf cpa cpaGcm cpwait cpwaitId cppoll cctlInv cctlInvr cctlWayset pgq atom red
    cas rtree fence acq rel bind unbind barset bararv barwt barsync barq waitu mxlease mxfree mxcfg mxw mxa mxrd mxwr
    mxz put reconf specialFunctionWriteback loadWriteback copyLineWrite tagVerify copyEnd atomicWriteback contribution
    sampledEvaluation spillScan dependenceRetry mxOperationComplete pipelineError putLanding drainComplete switch
    commitStep quiesceComplete scrubComplete descriptorRead contextError saveComplete restoreComplete
    completionActions bundleFormation redundancyCompare hotQueueRetire inval copyOutComplete fillComplete scanComplete
    writeThroughArrival pathLoss pathRestored ownershipRequest putAdmission packageStop restore schedulerSelect
    rtreeTimeout barwtLimit waitTimeout lineMigration leaseExpiry checkFailure watchdog engineResetComplete join
    gatherTimeout create ctxBind start quiesce destroy keyset keyclr debuggo preemption tdiTransition assign enable
    drain revoke notifyWrite refrecRead remapEntryWrite reservationTimeout softError hotModeExpiry pageRequestResponse
    evictionSelect fillFlashError tierRequest firewallUpdate txnTimeout formsTheSpace admitsTheCell suspectTimeout
    declaresTheCellDead readmitsTheCell rejoinComplete enablesThePort summary trainingTimeout wavelengthFailure
    laserFailure blackoutEnd flitCrcFailure resetsThePort packetArrival slotWrite shapeWrite grantListRemoval
    registerWrite telemetryReport connectorReport spdmMeasurementRequest packageReset powerLoss hostSnoop
    cxlMemRequest

/-- Only an instruction with a unit is encoded, and then as the parcels of that unit. -/
theorem encode_of_encodeUnit (h : encodeUnit i = some u) : encode i = unitParcels u := by simp only [encode, h]

/-- The parcels that the encoder writes are taken as the unit they come from, whatever follows them. -/
theorem takeUnit_encode (hw : wellFormed i = true) (hu : encodeUnit i = some u) (hb : buildUnit u = .ok i) (rest : List Parcel) :
    takeUnit (encode i ++ rest) = .ok u := by
  obtain ⟨hpre, hhdr⟩ := build_maj hb
  rw [encode_of_encodeUnit hu]
  exact takeUnit_parcels u rest hpre hhdr (encodeUnit_rawDetails hw hu).2

/-- A unit that the encoder writes for a well-formed instruction earns no detail of R65, raw or typed. -/
theorem decodeUnit_of_encodeUnit (hw : wellFormed i = true) (hu : encodeUnit i = some u) (hb : buildUnit u = .ok i) :
    decodeUnit u = .ok i := by
  have htyped : lowestDetail i.info.details = none := by
    simp only [wellFormed, Bool.and_eq_true, Option.isNone_iff_eq_none] at hw
    exact hw.2
  have hall := lowest_append_none _ _ (encodeUnit_rawDetails hw hu).1 htyped
  simp only [decodeUnit, hb, hall]

end

/-- Settles O51: the encoder's unit is taken whole from its parcels, and decodes to the instruction. -/
theorem encodedInstructionsDecode : Obligations.EncodedInstructionsDecode := by
  intro i rest hw
  obtain ⟨u, hu, hb⟩ := Laws.Builds.statement i hw
  simp only [decodeParcels, takeUnit_encode hw hu hb, decodeUnit_of_encodeUnit hw hu hb]

end Sys2Proof
end

section
/-! SUPPORT. The tables of instructions on three sources, vector and uniform (11_integer R179 to R194): every row completes with its
lane function, and what that leaves in the lanes of D (R70). -/

namespace Sys2Proof.Machine

/-! ### Every row completes with its lane function -/

section
variable {s : State} {w : WarpId} {x : Warp} {b : Bundle} (hi : Issuing s w x b)
include hi

theorem uniRows_completes {r : AluRow FmtV} (hr : r ∈ uniRows) {f : FmtV} (h : VecReady s w x b true (r.spec f) f) :
    Completes (r.op f) s w x b (unitSize f.pfx) false
      ((s.issued w).setWarp w ((vecOperands s w x b true (r.spec f) f).apply (r.fn f))) :=
  (uniRows_exec r hr f s).trans (aluUni_ready hi h)

theorem immRows_completes {r : AluRow FmtI} (hr : r ∈ immRows) {f : FmtI} (h : VecReady s w x b false (r.spec f) (iToV f)) :
    Completes (r.op f) s w x b (unitSize f.pfx) false
      ((s.issued w).setWarp w ((vecOperands s w x b false (r.spec f) (iToV f)).apply (r.fn f))) :=
  (immRows_exec r hr f s).trans (alu_ready hi h)

theorem immUniRows_completes {r : AluRow FmtI} (hr : r ∈ immUniRows) {f : FmtI}
    (h : VecReady s w x b true (r.spec f) (iToV f)) :
    Completes (r.op f) s w x b (unitSize f.pfx) false
      ((s.issued w).setWarp w ((vecOperands s w x b true (r.spec f) (iToV f)).apply (r.fn f))) :=
  (immUniRows_exec r hr f s).trans (aluUni_ready hi h)

theorem moviRows_completes {r : AluRow FmtL} (hr : r ∈ moviRows) {f : FmtL} (h : VecReady s w x b false (r.spec f) (lToV f)) :
    Completes (r.op f) s w x b (unitSize f.pfx) false
      ((s.issued w).setWarp w ((vecOperands s w x b false (r.spec f) (lToV f)).apply (r.fn f))) :=
  (moviRows_exec r hr f s).trans (alu_ready hi h)

theorem moviUniRows_completes {r : AluRow FmtL} (hr : r ∈ moviUniRows) {f : FmtL}
    (h : VecReady s w x b true (r.spec f) (lToV f)) :
    Completes (r.op f) s w x b (unitSize f.pfx) false
      ((s.issued w).setWarp w ((vecOperands s w x b true (r.spec f) (lToV f)).apply (r.fn f))) :=
  (moviUniRows_exec r hr f s).trans (aluUni_ready hi h)

end

/-- Settles O1: a row of `arithRows` is a row of the vector tables. -/
theorem vectorArithmeticCompletes : Obligations.VectorArithmeticCompletes :=
  fun _ hr _ _ _ _ f hi h => vectorRows_exec (List.mem_append_left _ hr) f hi h

/-- Settles O2: a row of `bitRows` is a row of the vector tables. -/
theorem vectorLogicCompletes : Obligations.VectorLogicCompletes :=
  fun _ hr _ _ _ _ f hi h => vectorRows_exec (List.mem_append_right _ hr) f hi h

/-- Settles O3: every row of `uniRows` runs the frame of the uniform forms. -/
theorem uniformCompletes : Obligations.UniformCompletes :=
  fun _ hr _ _ _ _ _ hi h => uniRows_completes hi hr h

/-- Settles O4: the four tables with an immediate run the frames of the vector and of the uniform forms. -/
theorem immediateCompletes : Obligations.ImmediateCompletes :=
  fun _ _ _ _ hi => ⟨fun _ hr _ => immRows_completes hi hr, fun _ hr _ => immUniRows_completes hi hr,
    fun _ hr _ => moviRows_completes hi hr, fun _ hr _ => moviUniRows_completes hi hr⟩

/-! ### The lanes of D (R70) -/

/-- One lane of a register of D: `part` of the result with its poison where the lane is active, zero where it is cleared
under Z, and what stood there elsewhere. -/
def Vx.laneAfter (v : Vx) (f : Nat → DWord × Bool) (part : DWord → Word) (old : Lane) (L : Nat) : Lane :=
  if inMask v.act L then ⟨part (f L).1, (f L).2⟩ else if v.z && inMask v.lanes L then Lane.zero else old

section
variable {v : Vx} {f : Nat → DWord × Bool} {r n L : Nat}

theorem Vx.lane_setV_reg (y : Warp) (part : DWord → Word) (hL : L < 32) :
    (y.setV r (v.reg r (mkLanes f) part)).lane r L = v.laneAfter f part (v.w.lane r L) L := by
  rw [Warp.lane, Warp.vreg_setV_same, Vx.reg_lane _ _ _ _ hL, mkLanes_get f hL, Vx.laneAfter]

theorem Warp.lane_setV_ne (y : Warp) (l : Lanes Lane) (h : n ≠ r) : (y.setV r l).lane n L = y.lane n L := by
  rw [Warp.lane, Warp.vreg_setV_ne _ _ h, Warp.lane]

theorem Vx.lane_write_single (hd : v.d = .v r 1) (hL : L < 32) :
    (v.write f).lane r L = v.laneAfter f loWord (v.w.lane r L) L := by
  simp only [Vx.write, hd, Vx.lane_setV_reg _ _ hL]

theorem Vx.lane_write_pair (hd : v.d = .v r 2) (hL : L < 32) :
    (v.write f).lane r L = v.laneAfter f loWord (v.w.lane r L) L ∧
      (v.write f).lane (r + 1) L = v.laneAfter f hiWord (v.w.lane (r + 1) L) L := by
  simp only [Vx.write, hd, Vx.lane_setV_reg _ _ hL, Warp.lane_setV_ne _ _ (Nat.ne_add_one r), and_self]

end

/-! ### What moving on in the code leaves -/

namespace Warp.Moved

variable {z y : Warp} (h : z.Moved y)
include h

theorem vreg (n : Nat) : y.vreg n = z.vreg n := by rw [h.1]; rfl
theorem greg (n : Nat) : y.greg n = z.greg n := by rw [h.1]; rfl
theorem kreg (n : Nat) : y.kreg n = z.kreg n := by rw [h.1]; rfl
theorem fstat : y.fstat = z.fstat := by rw [h.1]
theorem maxima : y.amax = z.amax ∧ y.amaxnan = z.amaxnan := by rw [h.1]; exact ⟨rfl, rfl⟩
theorem lane (r L : Nat) : y.lane r L = z.lane r L := by simp only [Warp.lane, h.vreg]

end Warp.Moved

/-- Settles O52: the record that the instruction leaves is `Vx.apply`, of which moving on keeps every lane. -/
theorem vectorResultLanes : Obligations.VectorResultLanes := by
  intro s w x b ins q f fn hrow hi hready v
  obtain ⟨-, hwarp, hbundle, -⟩ := id hi
  obtain ⟨hvec, -, himm, -, hmovi, -, -⟩ := rows_d
  have hrun : Completes ins s w x b (unitSize f.pfx) false ((s.issued w).setWarp w (v.apply fn)) ∧ OneOrPair q.d := by
    rcases hrow with ⟨r, hr, rfl, rfl, rfl⟩ | ⟨r, hr, g, rfl, rfl, rfl, rfl⟩ | ⟨r, hr, g, rfl, rfl, rfl, rfl⟩
    · exact ⟨vectorRows_exec hr f hi hready, hvec r hr f⟩
    · exact ⟨immRows_completes hi hr hready, himm r hr g⟩
    · exact ⟨moviRows_completes hi hr hready, hmovi r hr g⟩
  obtain ⟨hexec, hpair⟩ := hrun
  obtain ⟨y, hstep, hmoved⟩ := exec_setWarp hi ((Vx.write_bundle _ _).trans hbundle) hexec
  refine ⟨s.setWarp w y, y, hstep, State.warp?_setWarp_same y hwarp, fun reg n hd L hL => ?_⟩
  simp only [hmoved.lane]
  rcases vecOperands_d_n hpair reg n hd with rfl | rfl
  · exact ⟨Vx.lane_write_single hd hL, fun h => absurd rfl h⟩
  · exact ⟨(Vx.lane_write_pair hd hL).1, fun _ => (Vx.lane_write_pair hd hL).2⟩

end Sys2Proof.Machine
end

section
/-! SUPPORT. The frame of the instructions on registers alone (03_encoding R58, R70, 09_warp R136): which fields of the warp's
record the writes of a result touch, and that moving on and the slot's count touch nothing else. -/

namespace Sys2Proof.Machine

/-! ### What a result may change in the warp's record -/

/-- Record `z` differs from `x` in the registers that `d` names, in FSTAT bits that are set where `flags` allows it, and in the
maxima where `amax` allows it. -/
structure Warp.WritesOnly (x z : Warp) (d : Rs) (flags amax : Bool) : Prop where
  rest : z = { x with v := z.v, g := z.g, k := z.k, fstat := z.fstat, amax := z.amax, amaxnan := z.amaxnan }
  vreg : ∀ n, n ∉ d.regs → z.vreg n = x.vreg n
  greg : ∀ n, (∀ wide, d ≠ .g n wide) → z.greg n = x.greg n
  kreg : ∀ n, d ≠ .k n → z.kreg n = x.kreg n
  fstat : flags = false → z.fstat = x.fstat
  sticky : z.fstat &&& x.fstat = x.fstat
  maxima : amax = false → z.amax = x.amax ∧ z.amaxnan = x.amaxnan

namespace Warp.WritesOnly

variable {x y z : Warp} {d : Rs} {flags amax : Bool}

theorem refl (x : Warp) (d : Rs) (flags amax : Bool) : x.WritesOnly x d flags amax :=
  ⟨rfl, fun _ _ => rfl, fun _ _ => rfl, fun _ _ => rfl, fun _ => rfl, BitVec.and_self, fun _ => ⟨rfl, rfl⟩⟩

theorem trans (h : x.WritesOnly y d flags amax) (h' : y.WritesOnly z d flags amax) : x.WritesOnly z d flags amax where
  rest := by rw [h'.rest, h.rest]
  vreg n hn := (h'.vreg n hn).trans (h.vreg n hn)
  greg n hn := (h'.greg n hn).trans (h.greg n hn)
  kreg n hn := (h'.kreg n hn).trans (h.kreg n hn)
  fstat hf := (h'.fstat hf).trans (h.fstat hf)
  sticky := by
    calc z.fstat &&& x.fstat = z.fstat &&& (y.fstat &&& x.fstat) := by rw [h.sticky]
      _ = y.fstat &&& x.fstat := by rw [← BitVec.and_assoc, h'.sticky]
      _ = x.fstat := h.sticky
  maxima ha := ⟨(h'.maxima ha).1.trans (h.maxima ha).1, (h'.maxima ha).2.trans (h.maxima ha).2⟩

theorem setV {n : Nat} (hn : n ∈ d.regs) (x : Warp) (l : Lanes Lane) : x.WritesOnly (x.setV n l) d flags amax :=
  { refl x d flags amax with
    rest := rfl
    vreg := fun _ hm => Warp.vreg_setV_ne _ _ fun e => hm (e ▸ hn) }

theorem setG {n : Nat} {wide : Bool} (hd : d = .g n wide) (x : Warp) (v : GReg) : x.WritesOnly (x.setG n v) d flags amax := by
  have hg : ∀ m, (∀ wide, d ≠ .g m wide) → (x.setG n v).greg m = x.greg m :=
    fun m hm => Warp.greg_setG_ne _ _ fun e => hm wide (e ▸ hd)
  obtain ⟨g, e⟩ := Warp.setG_eq x (n := n) v
  rw [e] at hg ⊢
  exact { refl x d flags amax with rest := rfl, greg := hg }

theorem orFstat (x : Warp) (fl : Flags) : x.WritesOnly (x.orFstat fl) d true amax :=
  { refl x d true amax with
    rest := rfl
    fstat := fun h => absurd h (by decide)
    sticky := by ext i; simpa [Warp.orFstat] using Or.inl }

theorem updAmax (x : Warp) (n : Nat) (l : List Nat) : x.WritesOnly (x.updAmax n l) d flags true :=
  { refl x d flags true with rest := rfl, maxima := fun h => absurd h (by decide) }

theorem bundle (h : x.WritesOnly z d flags amax) : z.bundle = x.bundle := by rw [h.rest]

end Warp.WritesOnly

theorem Warp.kreg_setK_ne (w : Warp) {n m : Nat} (v : KReg) (h : m ≠ n) : (w.setK n v).kreg m = w.kreg m := by
  unfold Warp.kreg Warp.setK
  by_cases hn : n = 0
  · rw [if_pos hn]
  · rw [if_neg hn]
    simp [vget, vset, List.getElem?_set_ne (Ne.symm h)]

theorem Warp.setK_eq (w : Warp) (n : Nat) (v : KReg) : ∃ k, w.setK n v = { w with k := k } := by
  unfold Warp.setK
  split
  · exact ⟨w.k, rfl⟩
  · exact ⟨_, rfl⟩

theorem Warp.WritesOnly.setK {d : Rs} {flags amax : Bool} {n : Nat} (hd : d = .k n) (x : Warp) (v : KReg) :
    x.WritesOnly (x.setK n v) d flags amax := by
  have hk : ∀ m, d ≠ .k m → (x.setK n v).kreg m = x.kreg m :=
    fun m hm => Warp.kreg_setK_ne _ _ fun e => hm (e ▸ hd)
  obtain ⟨k, e⟩ := Warp.setK_eq x n v
  rw [e] at hk ⊢
  exact { Warp.WritesOnly.refl x d flags amax with rest := rfl, kreg := hk }

/-! ### The writes of a result -/

theorem Rs.mem_regs_v {r n m : Nat} : m ∈ (Rs.v r n).regs ↔ r ≤ m ∧ m < r + n := by
  simp only [Rs.regs, List.mem_map, List.mem_range]
  exact ⟨fun ⟨a, ha, e⟩ => by omega, fun h => ⟨m - r, by omega, by omega⟩⟩

section
variable {v : Vx} {flags amax : Bool}

theorem Vx.write_writesOnly (hd : ∀ r n, v.d = .v r n → n = 1 ∨ n = 2) (f : Nat → DWord × Bool) :
    v.w.WritesOnly (v.write f) v.d flags amax := by
  unfold Vx.write
  split
  next r e => exact .setV (e ▸ Rs.mem_regs_v.2 ⟨Nat.le_refl r, Nat.lt_succ_self r⟩) _ _
  next r n hn e =>
    have h2 : n = 2 := (hd r n e).resolve_left hn
    exact (Warp.WritesOnly.setV (by rw [e, Rs.mem_regs_v]; omega) _ _).trans (.setV (by rw [e, Rs.mem_regs_v]; omega) _ _)
  next r wide e => exact .setG e _ _
  next => exact .refl ..

theorem Vx.writeK_writesOnly (f : Nat → Bool × Bool) : v.w.WritesOnly (v.writeK f) v.d flags amax := by
  unfold Vx.writeK
  split
  next r e => exact .setK e _ _
  next => exact .refl ..

theorem Vx.writeF_writesOnly (hd : ∀ r n, v.d = .v r n → n = 1 ∨ n = 2) (f : Nat → DWord × Bool × Flags) :
    v.w.WritesOnly (v.writeF f) v.d true amax :=
  (Vx.write_writesOnly hd _).trans (.orFstat ..)

theorem Vx.writeAcc_writesOnly (hd : ∀ r n, v.d = .v r n → n = 1 ∨ n = 2) (f : Nat → Acc1) :
    v.w.WritesOnly (v.writeAcc f) v.d true amax :=
  (Vx.write_writesOnly hd _).trans (.orFstat ..)

/-- A run of units stays inside a D that has room for them (R213). -/
theorem Vx.writeUnits_writesOnly (pair : Bool) (f : Nat → Nat → DWord × Bool) (t : Nat)
    (hd : ∀ r n, v.d = .v r n → t * regs pair ≤ n) : v.w.WritesOnly (v.writeUnits pair f t) v.d flags amax := by
  induction t with
  | zero => exact .refl ..
  | succ t ih =>
    have hrest := ih fun r n e => Nat.le_trans (Nat.mul_le_mul_right _ (Nat.le_succ t)) (hd r n e)
    rw [Vx.writeUnits]
    split
    next r n e =>
      have hroom := hd r n e
      cases pair with
      | false =>
        simp only [regs, Bool.false_eq_true, if_false] at hroom ⊢
        exact hrest.trans (.setV (by rw [e, Rs.mem_regs_v]; omega) _ _)
      | true =>
        simp only [regs, if_true] at hroom ⊢
        exact (hrest.trans (.setV (by rw [e, Rs.mem_regs_v]; omega) _ _)).trans
          (.setV (by rw [e, Rs.mem_regs_v]; omega) _ _)
    next => exact hrest

/-- A conversion writes the run of its destination type. -/
theorem Vx.conv_writesOnly {src dst : Ty} (hd : ∀ r n, v.d = .v r n → n = convRegs dst (convN src dst))
    (g : Nat → Nat → Nat → Nat × Flags) : v.w.WritesOnly (v.conv src dst g) v.d true amax :=
  (Vx.writeUnits_writesOnly _ _ _ fun r n e => Nat.le_of_eq (hd r n e).symm).trans (.orFstat ..)

end

/-! ### The registers that D names -/

section
variable {s : State} {w : WarpId} {x : Warp} {b : Bundle} {uni : Bool} {q : VSpec} {f : FmtV}

/-- A D of vector registers has as many as its description says. -/
theorem vecOperands_d_count {k : Nat} {p : Bool} (hd : q.d = .v k p) {r n : Nat}
    (h : (vecOperands s w x b uni q f).d = .v r n) : n = k := by
  have e : (vecOperands s w x b uni q f).d = okRs (resolve (s.allotOf w) uni (.v k p) f.d false (ixOf x.presented f.pfx .d)) :=
    hd ▸ rfl
  rw [e, resolve] at h
  split at h
  · cases h
  · cases hr : regV (s.allotOf w) k p f.d.toNat (ixOf x.presented f.pfx .d) <;> rw [hr] at h <;> cases h
    rfl

theorem vecOperands_d_k (hd : q.d = .k) : (vecOperands s w x b uni q f).d = .k f.d.toNat := by
  simp [vecOperands, vecOpds, resolve, okRs, hd]

theorem vecOperands_d_g (hd : q.d = .g) : (vecOperands s w x b uni q f).d = .g f.d.toNat true := by
  simp [vecOperands, vecOpds, resolve, okRs, hd]

end

/-! ### The end of an instruction on registers alone -/

/-- An instruction that ends with a record differing in registers alone, whose slot is then counted. -/
theorem RegistersOnly.of_completes {s : State} {w : WarpId} {x z : Warp} {b : Bundle} {ins : Instr} {n : Nat} {d : Rs}
    {flags amax : Bool} (hi : Issuing s w x b) (hexec : Completes ins s w x b n false ((s.issued w).setWarp w z))
    (hz : x.presented.WritesOnly z d flags amax) : RegistersOnly ins s w x b d flags amax := by
  obtain ⟨-, hwarp, hbundle, -⟩ := id hi
  obtain ⟨y, hstep, hmoved⟩ := exec_setWarp hi (hz.bundle.trans hbundle) hexec
  have hcount : s.unsampledWarp w → (s.setWarp w y).unsampledWarp w := by
    simp only [State.unsampledWarp, State.setWarp, State.descOf_updWarp, imp_self]
  refine ⟨s.setWarp w y, y, hstep, State.warp?_setWarp_same y hwarp, rfl, fun _ => rfl, fun _ _ => State.group?_setWarp y,
    fun _ => State.warp?_setWarp_ne s y, ⟨z, hz.rest, hmoved⟩, fun n hn => (hmoved.vreg n).trans (hz.vreg n hn),
    fun n hn => (hmoved.greg n).trans (hz.greg n hn), fun n hn => (hmoved.kreg n).trans (hz.kreg n hn),
    fun h => hmoved.fstat.trans (hz.fstat h), hmoved.fstat ▸ hz.sticky,
    fun h => ⟨hmoved.maxima.1.trans (hz.maxima h).1, hmoved.maxima.2.trans (hz.maxima h).2⟩,
    fun hs => State.charge_unsampled (hcount hs) _ _⟩

end Sys2Proof.Machine
end

section
/-! SUPPORT. The instructions on registers alone, family by family: each runs the vector frame, and the record it leaves differs
from the issuing warp's in the registers of its D (11_integer R179 to R202, 12_float R203 to R221). -/

namespace Sys2Proof.Machine

section
variable {s : State} {f : FmtV}

/-! ### What runs an instruction that no table lists -/

theorem exec_icmp (cc : Cmp) : exec (.icmp cc f) s = execIcmp cc f s := rfl
theorem exec_fcmp (cc : FCmp) : exec (.fcmp cc f) s = execFcmp cc f s := rfl
theorem exec_isel : exec (.isel f) s = execIsel f s := rfl
theorem exec_movg : exec (.movg f) s = execMovg f s := rfl
theorem exec_gmov : exec (.gmov f) s = execGmov f s := rfl
theorem exec_kand : exec (.kand f) s = execKand f s := rfl
theorem exec_kor : exec (.kor f) s = execKor f s := rfl
theorem exec_kxor : exec (.kxor f) s = execKxor f s := rfl
theorem exec_knot : exec (.knot f) s = execKnot f s := rfl
theorem exec_kmov : exec (.kmov f) s = execKmov f s := rfl
theorem exec_kpopc : exec (.kpopc f) s = execKpopc f s := rfl
theorem exec_kfirst : exec (.kfirst f) s = execKfirst f s := rfl
theorem exec_voteAny : exec (.voteAny f) s = execVoteAny f s := rfl
theorem exec_voteAll : exec (.voteAll f) s = execVoteAll f s := rfl
theorem exec_voteBallot : exec (.voteBallot f) s = execVoteBallot f s := rfl
theorem exec_shfl (mode : ShflMode) : exec (.shfl mode f) s = execShfl mode f s := rfl
theorem exec_redl (fn : RedFn) : exec (.redl fn f) s = execRedl fn f s := rfl
theorem exec_scanl (fn : RedFn) (excl : Bool) : exec (.scanl fn excl f) s = execScanl fn excl f s := rfl
theorem exec_matchLanes (mode : MatchMode) : exec (.matchLanes mode f) s = execMatchLanes mode f s := rfl
theorem exec_cvtfi (src : Ty) : exec (.cvtfi src f) s = execCvtfi src f s := rfl
theorem exec_cvtif (src : Ty) : exec (.cvtif src f) s = execCvtif src f s := rfl
theorem exec_cvtff (src : Ty) (sat : Bool) (amax : Bool) : exec (.cvtff src sat amax f) s = execCvtff src sat amax f s := rfl
theorem exec_packf4 : exec (.packf4 f) s = execPackf4 f s := rfl
theorem exec_unpackf4 : exec (.unpackf4 f) s = execUnpackf4 f s := rfl

end

section
variable {s : State} {w : WarpId} {x : Warp} {b : Bundle} {uni : Bool} {q : VSpec} {f : FmtV} {ins : Instr} (hi : Issuing s w x b)
include hi

/-! ### The frame of a vector or uniform instruction -/

/-- An instruction that runs the vector frame on ready operands. -/
theorem RegistersOnly.of_vecFrame {z : Warp} {flags amax : Bool} {run : State → Iss → Vx → Except Stop Warp}
    (hexec : exec ins s = vecFrame s f q uni run) (h : VecReady s w x b uni q f)
    (hrun : run (s.issued w) (mkIss s w x b (unitSize f.pfx)) (vecOperands s w x b uni q f) = .ok z)
    (hz : (vecOperands s w x b uni q f).w.WritesOnly z (vecOperands s w x b uni q f).d flags amax) :
    RegistersOnly ins s w x b (vecOperands s w x b uni q f).d flags amax :=
  .of_completes hi (hexec.trans (vecFrame_ready hi h hrun)) hz

/-- A row of the tables of integer and logic instructions. -/
theorem apply_registersOnly {n : Nat} {fn : DWord → DWord → DWord → DWord} (hd : OneOrPair q.d)
    (hexec : Completes ins s w x b n false ((s.issued w).setWarp w ((vecOperands s w x b uni q f).apply fn))) :
    RegistersOnly ins s w x b (vecOperands s w x b uni q f).d false false :=
  .of_completes hi hexec (Vx.write_writesOnly (vecOperands_d_n hd) _)

/-- A row of the table of float instructions. -/
theorem floatRows_registersOnly {r : FloatRow} (hr : r ∈ floatRows) (h : VecReady s w x b false r.spec f) :
    RegistersOnly (r.op f) s w x b (vecOperands s w x b false r.spec f).d true false := by
  obtain ⟨-, -, -, -, -, -, hd⟩ := rows_d
  exact .of_completes hi ((floatRows_exec r hr f s).trans (falu_ready hi h))
    (Vx.writeF_writesOnly (vecOperands_d_n (hd r hr)) _)

/-! ### Compares and selects (R183, R184, R208) -/

theorem icmp_registersOnly (cc : Cmp) (h : VecReady s w x b false (specIcmp f.ty) f) :
    RegistersOnly (.icmp cc f) s w x b (vecOperands s w x b false (specIcmp f.ty) f).d false false :=
  .of_vecFrame hi (exec_icmp ..) h rfl (Vx.writeK_writesOnly _)

theorem fcmp_registersOnly (cc : FCmp) (h : VecReady s w x b false specFcmp f) :
    RegistersOnly (.fcmp cc f) s w x b (vecOperands s w x b false specFcmp f).d true false :=
  .of_vecFrame hi (exec_fcmp ..) h rfl ((Vx.writeK_writesOnly _).trans (.orFstat ..))

theorem isel_registersOnly (hk : (vecOperands s w x b false (specIsel f.ty) f).kPoison
      (vecOperands s w x b false (specIsel f.ty) f).c = 0) (h : VecReady s w x b false (specIsel f.ty) f) :
    RegistersOnly (.isel f) s w x b (vecOperands s w x b false (specIsel f.ty) f).d false false :=
  .of_vecFrame hi (exec_isel ..) h (if_neg (not_not_intro hk)) (Vx.write_writesOnly (vecOperands_d_n (dT_pair f.ty)) _)

/-! ### Moves between lanes and g registers, mask instructions (R192, R195, R196) -/

theorem movg_registersOnly (h : VecReady s w x b false (specMovg f.ty f.sc) f) :
    RegistersOnly (.movg f) s w x b (vecOperands s w x b false (specMovg f.ty f.sc) f).d false false := by
  have hd : (vecOperands s w x b false (specMovg f.ty f.sc) f).d = .g f.d.toNat true := vecOperands_d_g rfl
  cases hL : movLane (vecOperands s w x b false (specMovg f.ty f.sc) f).act f.sc with
  | none => exact .of_vecFrame hi (exec_movg ..) h (by simp only [hL]; rfl) (.setG hd _ _)
  | some L => exact .of_vecFrame hi (exec_movg ..) h (by simp only [hL]; rfl) (.setG hd _ _)

theorem gmov_registersOnly (h : VecReady s w x b false (specGmov f.ty f.sc) f) :
    RegistersOnly (.gmov f) s w x b (vecOperands s w x b false (specGmov f.ty f.sc) f).d false false := by
  cases hL : movLane (vecOperands s w x b false (specGmov f.ty f.sc) f).act f.sc with
  | none => exact .of_vecFrame hi (exec_gmov ..) h (by simp only [hL]) (.refl ..)
  | some L =>
    exact .of_vecFrame hi (exec_gmov ..) h (by simp only [hL]; rfl)
      (Vx.write_writesOnly (v := { vecOperands s w x b false (specGmov f.ty f.sc) f with act := bitMask L, z := false })
        (vecOperands_d_n (b := b) (dT_pair f.ty)) _)

theorem maskOp_registersOnly {run : KReg → KReg → KReg} (hd : q.d = .k) (hexec : exec ins s = maskOp s f q run)
    (h : VecReady s w x b false q f) : RegistersOnly ins s w x b (vecOperands s w x b false q f).d false false :=
  .of_vecFrame hi hexec h rfl (.setK (vecOperands_d_k hd) _ _)

theorem maskToG_registersOnly {run : Nat → Nat} (hexec : exec ins s = maskToG s f run)
    (h : VecReady s w x b false (specMask .g .k .none) f) :
    RegistersOnly ins s w x b (vecOperands s w x b false (specMask .g .k .none) f).d false false :=
  .of_vecFrame hi hexec h rfl (.setG (vecOperands_d_g rfl) _ _)

/-! ### Cross-lane instructions (R197 to R202) -/

theorem shfl_registersOnly (mode : ShflMode) (h : VecReady s w x b false (specShfl f.ty) f) :
    RegistersOnly (.shfl mode f) s w x b (vecOperands s w x b false (specShfl f.ty) f).d false false :=
  .of_vecFrame hi (exec_shfl ..) h rfl (Vx.write_writesOnly (vecOperands_d_n (dT_pair f.ty)) _)

theorem vote_registersOnly {d : Opd} {run : Iss → Vx → Warp} (hexec : exec ins s = voteFrame s f d run)
    (hk : (vecOperands s w x b false (specVote d) f).kPoison (vecOperands s w x b false (specVote d) f).c = 0)
    (hz : (vecOperands s w x b false (specVote d) f).w.WritesOnly
      (run (mkIss s w x b (unitSize f.pfx)) (vecOperands s w x b false (specVote d) f))
      (vecOperands s w x b false (specVote d) f).d false false)
    (h : VecReady s w x b false (specVote d) f) :
    RegistersOnly ins s w x b (vecOperands s w x b false (specVote d) f).d false false :=
  .of_completes hi (hexec.trans (voteFrame_ready hi h hk)) hz

theorem redl_registersOnly (fn : RedFn) (h : VecReady s w x b false (specRed fn f.ty) f) :
    RegistersOnly (.redl fn f) s w x b (vecOperands s w x b false (specRed fn f.ty) f).d true false :=
  .of_vecFrame hi (exec_redl ..) h rfl (Vx.writeAcc_writesOnly (vecOperands_d_n (dT_pair f.ty)) _)

theorem scanl_registersOnly (fn : RedFn) (excl : Bool) (h : VecReady s w x b false (specRed fn f.ty) f) :
    RegistersOnly (.scanl fn excl f) s w x b (vecOperands s w x b false (specRed fn f.ty) f).d true false :=
  .of_vecFrame hi (exec_scanl ..) h rfl (Vx.writeAcc_writesOnly (vecOperands_d_n (dT_pair f.ty)) _)

theorem matchLanes_registersOnly (mode : MatchMode) (h : VecReady s w x b false (specMatch f.ty) f) :
    RegistersOnly (.matchLanes mode f) s w x b (vecOperands s w x b false (specMatch f.ty) f).d false false :=
  .of_vecFrame hi (exec_matchLanes ..) h rfl (Vx.write_writesOnly (vecOperands_d_n (.inl ⟨_, rfl⟩)) _)

/-! ### Conversions (R213 to R217, R220, R221) -/

/-- A conversion on ready operands. -/
theorem RegistersOnly.of_convFrame {z : Warp} {flags amax : Bool} {run : State → Iss → Vx → Except Stop Warp}
    (hexec : exec ins s = convFrame s f q run) (h : VecReady s w x b false q f)
    (hrun : run (s.issued w) (mkIss s w x b (unitSize f.pfx)) (vecOperands s w x b false q f) = .ok z)
    (hz : (vecOperands s w x b false q f).w.WritesOnly z (vecOperands s w x b false q f).d flags amax) :
    RegistersOnly ins s w x b (vecOperands s w x b false q f).d flags amax :=
  .of_vecFrame hi hexec h hrun hz

theorem cvtfi_registersOnly (src : Ty) (h : VecReady s w x b false (specCvtfi src f.ty) f) :
    RegistersOnly (.cvtfi src f) s w x b (vecOperands s w x b false (specCvtfi src f.ty) f).d true false :=
  .of_convFrame hi (exec_cvtfi ..) h rfl (Vx.conv_writesOnly (fun _ _ => vecOperands_d_count rfl) _)

theorem cvtif_registersOnly (src : Ty) (h : VecReady s w x b false (specCvtif src f.ty) f) :
    RegistersOnly (.cvtif src f) s w x b (vecOperands s w x b false (specCvtif src f.ty) f).d true false :=
  .of_convFrame hi (exec_cvtif ..) h rfl (Vx.conv_writesOnly (fun _ _ => vecOperands_d_count rfl) _)

omit hi in
/-- The control word of a stochastic conversion stops no instruction whose active lanes do not read it poisoned (R217). -/
theorem control_passes {v : Vx} (h : (v.b.read v.w 0).2 = false ∨ v.act = 0) :
    ¬ ((v.b.read v.w 0).2 && decide (v.act ≠ 0)) = true := by
  rcases h with h | h <;> simp [h]

theorem cvtff_registersOnly (src : Ty) (sat amax : Bool)
    (hc : ((vecOperands s w x b false (specCvtff src amax f) f).b.read x.presented 0).2 = false ∨
      (vecOperands s w x b false (specCvtff src amax f) f).act = 0)
    (h : VecReady s w x b false (specCvtff src amax f) f) :
    RegistersOnly (.cvtff src sat amax f) s w x b (vecOperands s w x b false (specCvtff src amax f) f).d true amax := by
  have hconv := fun m g => Vx.conv_writesOnly (v := vecOperands s w x b false (specCvtff src amax f) f) (src := src) (dst := f.ty)
    (amax := m) (fun _ _ => vecOperands_d_count rfl) g
  cases amax with
  | false => exact .of_convFrame hi (exec_cvtff ..) h ((if_neg (control_passes hc)).trans (if_neg Bool.false_ne_true)) (hconv _ _)
  | true =>
    exact .of_convFrame hi (exec_cvtff ..) h ((if_neg (control_passes hc)).trans (if_pos rfl))
      ((hconv _ _).trans (.updAmax ..))

theorem packf4_registersOnly
    (hc : ((vecOperands s w x b false specPackf4 f).b.read x.presented 0).2 = false ∨
      (vecOperands s w x b false specPackf4 f).act = 0) (h : VecReady s w x b false specPackf4 f) :
    RegistersOnly (.packf4 f) s w x b (vecOperands s w x b false specPackf4 f).d true true :=
  .of_vecFrame hi (exec_packf4 ..) h (if_neg (control_passes hc))
    ((Vx.writeF_writesOnly (vecOperands_d_n (.inr ⟨_, rfl⟩)) _).trans (.updAmax ..))

theorem unpackf4_registersOnly (h : VecReady s w x b false specUnpackf4 f) :
    RegistersOnly (.unpackf4 f) s w x b (vecOperands s w x b false specUnpackf4 f).d true false :=
  .of_vecFrame hi (exec_unpackf4 ..) h rfl ((Vx.writeUnits_writesOnly false _ 8 fun _ _ e =>
    Nat.le_of_eq (vecOperands_d_count rfl e).symm).trans (.orFstat ..))

/-! ### Special functions (R210) -/

omit hi in
theorem sfuRows_d : ∀ r ∈ sfuRows, r.spec.d = .v 1 false := by decide

/-- A record written after the warp was presented replaces the presented one. -/
theorem State.setWarp_issued (y : Warp) : (s.issued w).setWarp w y = s.setWarp w y := by
  obtain ⟨-, hwarp, -, -⟩ := hi
  rw [State.issued, State.updWarp_eq_setWarp _ hwarp, State.setWarp_setWarp]

/-- An instruction whose effect is a new record of its warp and an event that is due: the record moves on, the slot is counted. -/
theorem retire_addDue {z : Warp} (hz : z.bundle = some b) (e : Instr) (n : Nat) :
    ∃ y, (((s.issued w).setWarp w z).addDue e).retire false (mkIss s w x b n) =
      ((((s.setWarp w y).addDue e).charge w b.at_.pc 0).ticked) ∧ z.Moved y := by
  have hwarp : (((s.issued w).setWarp w z).addDue e).warp? (mkIss s w x b n).wid = some z :=
    State.warp?_setWarp_same z (State.warp?_issued hi.2.1)
  obtain ⟨y, hmove, hmoved⟩ := State.moveOn_spec hwarp hz
  have hmerge : (((s.issued w).setWarp w z).addDue e).setWarp w y = (s.setWarp w y).addDue e :=
    calc (((s.issued w).setWarp w z).addDue e).setWarp w y = (((s.issued w).setWarp w z).setWarp w y).addDue e := rfl
      _ = (s.setWarp w y).addDue e := by rw [State.setWarp_setWarp, State.setWarp_issued hi]
  exact ⟨y, by rw [State.retire, hmove, mkIss_wid, hmerge, mkIss_at], hmoved⟩

/-- A special function leaves its result in flight and D empty, and changes nothing else. -/
theorem sfuRows_inFlight {r : SfuRow} (hr : r ∈ sfuRows) (h : VecReady s w x b false r.spec f) :
    ∃ (u : State) (y : Warp) (d : Nat) (e : Sfu), exec (r.op f) s = .next ((u.charge w b.at_.pc 0).ticked) ∧
      u.warp? w = some y ∧ u = { s with groups := u.groups, due := s.due ++ [.specialFunctionWriteback w d] } ∧
      (∀ a, u.mem.byte a = s.mem.byte a) ∧ (∀ n g, s.group? n = some g → ∃ ws, u.group? n = some { g with warps := ws }) ∧
      (∀ p, p ≠ w → u.warp? p = s.warp? p) ∧ e.reg = d ∧ (vecOperands s w x b false r.spec f).d.regs = [d] ∧
      ∃ z : Warp, z = { x.emptyV d with sfus := x.sfus ++ [e], age := 0, ended := x.releasing && x.ended } ∧ z.Moved y := by
  obtain ⟨-, hwarp, hbundle, -⟩ := id hi
  have hd := sfuRows_d r hr
  have hexec := (sfuRows_exec r hr f s).trans (sfu_ready hi hd h)
  have hregs := vecOperands_d (b := b) hd h.1
  generalize f.d.toNat + (ixOf x f.pfx .d).getD 0 = d at hexec hregs
  obtain ⟨y, hretire, hmoved⟩ := retire_addDue hi (z := { x.presented.emptyV d with
    sfus := x.sfus ++ [(vecOperands s w x b false r.spec f).sfuOf d x.commits r.fn] }) hbundle (.specialFunctionWriteback w d)
    (unitSize f.pfx)
  exact ⟨(s.setWarp w y).addDue _, y, d, _, hexec.trans (congrArg _ hretire), State.warp?_setWarp_same y hwarp, rfl,
    fun _ => rfl, fun _ _ => State.group?_setWarp y, fun _ => State.warp?_setWarp_ne s y, rfl, by rw [hregs]; rfl, _, rfl, hmoved⟩

end

/-- Settles O53: family by family, the record that the instruction leaves differs from the issuing warp's in the registers of D,
and a special function's in the result in flight. -/
theorem registerInstructionsKeepTheRest : Obligations.RegisterInstructionsKeepTheRest := by
  intro s w x b f hi keeps ready plain
  obtain ⟨hvec, huni, himm, himmUni, hmovi, hmoviUni, -⟩ := rows_d
  refine ⟨fun r hr h => apply_registersOnly hi (hvec r hr f) (vectorRows_exec hr f hi h),
    fun r hr h => apply_registersOnly hi (huni r hr f) (uniRows_completes hi hr h),
    fun r hr g h => apply_registersOnly hi (himm r hr g) (immRows_completes hi hr h),
    fun r hr g h => apply_registersOnly hi (himmUni r hr g) (immUniRows_completes hi hr h),
    fun r hr g h => apply_registersOnly hi (hmovi r hr g) (moviRows_completes hi hr h),
    fun r hr g h => apply_registersOnly hi (hmoviUni r hr g) (moviUniRows_completes hi hr h),
    fun r hr => floatRows_registersOnly hi hr, icmp_registersOnly hi, fcmp_registersOnly hi, isel_registersOnly hi,
    movg_registersOnly hi, gmov_registersOnly hi, ?mask, ?maskUnary, ?maskToG, shfl_registersOnly hi, ?vote,
    fun fn => ⟨redl_registersOnly hi fn, scanl_registersOnly hi fn⟩, matchLanes_registersOnly hi,
    fun src => ⟨cvtfi_registersOnly hi src, cvtif_registersOnly hi src⟩, cvtff_registersOnly hi, packf4_registersOnly hi,
    unpackf4_registersOnly hi, fun r hr => sfuRows_inFlight hi hr⟩
  case mask =>
    simp only [List.forall_mem_cons, List.not_mem_nil, false_imp_iff, implies_true, and_true]
    exact ⟨maskOp_registersOnly hi rfl exec_kand, maskOp_registersOnly hi rfl exec_kor, maskOp_registersOnly hi rfl exec_kxor⟩
  case maskUnary =>
    simp only [List.forall_mem_cons, List.not_mem_nil, false_imp_iff, implies_true, and_true]
    exact ⟨maskOp_registersOnly hi rfl exec_knot, maskOp_registersOnly hi rfl exec_kmov⟩
  case maskToG =>
    simp only [List.forall_mem_cons, List.not_mem_nil, false_imp_iff, implies_true, and_true]
    exact ⟨maskToG_registersOnly hi exec_kpopc, maskToG_registersOnly hi exec_kfirst⟩
  case vote =>
    intro d op hop v hk h
    simp only [List.mem_cons, Prod.mk.injEq, List.not_mem_nil, or_false] at hop
    rcases hop with ⟨rfl, rfl⟩ | ⟨rfl, rfl⟩ | ⟨rfl, rfl⟩
    · exact vote_registersOnly hi exec_voteAny hk (Vx.writeK_writesOnly _) h
    · exact vote_registersOnly hi exec_voteAll hk (Vx.writeK_writesOnly _) h
    · exact vote_registersOnly hi exec_voteBallot hk (Vx.write_writesOnly (vecOperands_d_n (.inl ⟨_, rfl⟩)) _) h

end Sys2Proof.Machine
end

section
/-! SUPPORT. Taking a fault (22_faults R383 to R387): a vector instruction whose predicate is poisoned, the charge of its slot, and
what the warp holds at its handler header. -/

namespace Sys2Proof.Machine

section
variable {s : State} {w : WarpId} {x : Warp} {b : Bundle} {q : VSpec} {f : FmtV}

/-! ### A poisoned predicate (R67 step 5, R176) -/

/-- The operands that step 5 of R67 finds in order before it looks at the predicate: inside the allotment, and full. -/
abbrev VecFull (s : State) (w : WarpId) (x : Warp) (b : Bundle) (q : VSpec) (f : FmtV) : Prop :=
  let v := vecOperands s w x b false q f
  boundError (vecOpds (s.allotOf w) x false q f) = none ∧ v.a.empty? x = none ∧ v.b.empty? x = none ∧
    v.c.empty? x = none ∧ v.d.empty? x = none

/-- POISON as a poisoned predicate raises it. -/
def predFault (psn : LaneMask) : FaultInfo := ⟨.poison, psn, 0, 0, false⟩

@[simp] theorem predFault_code (psn : LaneMask) : (predFault psn).code = .poison := rfl

theorem vecPrep_poisoned {n : Nat} (h : VecFull s w x b q f) (hp : (predOf x b.mask f.pfx f.k f.kn).psn ≠ 0) :
    vecPrep (s.issued w) (mkIss s w x b n) x.presented false false q f =
      .error (.fault (s.issued w) (predFault (predOf x b.mask f.pfx f.k f.kn).psn)) := by
  obtain ⟨hbound, ha, hb, hc, hd⟩ := h
  have hopds : vecOpds (s.allotOf w) x.presented false q f = vecOpds (s.allotOf w) x false q f := rfl
  simp only [vecOperands, hopds] at ha hb hc hd
  simp only [vecPrep, mkIss_wid, mkIss_lanes, State.allotOf_issued, hopds, predOf_issued, hbound, waitFull, Rs.empty?_issued, ha,
    hb, hc, hd, predPoison, hp, ne_eq, not_false_eq_true, if_true, if_false, Bool.false_eq_true, stopFault, predFault]

/-- A vector instruction whose predicate is poisoned on lanes of the bundle is charged and faults. -/
theorem vecFrame_poisoned {run : State → Iss → Vx → Except Stop Warp} (hi : Issuing s w x b) (h : VecFull s w x b q f)
    (hp : (predOf x b.mask f.pfx f.k f.kn).psn ≠ 0) :
    vecFrame s f q false run = .next (((s.issued w).charge w b.at_.pc 0).enterFault w b.at_
      (mkIss s w x b (unitSize f.pfx)).next (mkIss s w x b (unitSize f.pfx)).last b.mask
      (predFault (predOf x b.mask f.pfx f.k f.kn).psn)).ticked := by
  obtain ⟨-, hwarp, -, -⟩ := id hi
  refine issue_fault hi (f := predFault _) ?_ (by simp) (by simp) (by simp)
  simp only [mkIss_wid, State.warp?_issued hwarp, vecPrep_poisoned h hp]

/-! ### The charge of the slot (R397) -/

/-- Charging the slot of a warp whose kernel is not sampled leaves its registers and every other warp. -/
theorem charge_issued_unsampled {z : Warp} {pc : DWord} (hwarp : s.warp? w = some x) (hs : s.unsampledWarp w)
    (hz : ((s.issued w).charge w pc 0).warp? w = some z) :
    z.v = x.v ∧ z.g = x.g ∧ z.k = x.k ∧ ∀ p, p ≠ w → ((s.issued w).charge w pc 0).warp? p = s.warp? p := by
  have hi : (s.issued w).unsampledWarp w := by simpa only [State.unsampledWarp, State.issued, State.descOf_updWarp] using hs
  obtain ⟨t, m, l, p, ht, hcharge⟩ := State.charge_unsampled hi pc 0
  have hkeep : ∀ v, ((s.issued w).charge w pc 0).warp? v = t.warp? v := fun _ => by rw [hcharge]; rfl
  rw [hkeep] at hz
  simp only [hkeep]
  rcases ht with rfl | rfl
  · obtain rfl := Option.some.inj ((State.warp?_issued hwarp).symm.trans hz)
    exact ⟨rfl, rfl, rfl, fun v hv => State.warp?_updWarp_ne s _ hv⟩
  · rw [State.warp?_updWarp_same, State.warp?_issued hwarp] at hz
    obtain rfl := Option.some.inj hz
    exact ⟨rfl, rfl, rfl, fun v hv => (State.warp?_updWarp_ne _ _ hv).trans (State.warp?_updWarp_ne s _ hv)⟩

/-! ### The shadow -/

/-- What the shadow keeps of g56 to g63 (R383). -/
theorem Warp.getRecord_get (x : Warp) {n : Nat} (h : n < 8) : x.getRecord.getD n GReg.zero = x.greg (56 + n) := by
  simp [Warp.getRecord, List.getD, h]

/-- The handler mode that a fault of an issuing instruction begins at a kernel's handler header (R383). -/
def Warp.handlerFor (x : Warp) (hv : DWord) (i : Iss) (f : FaultInfo) : Handler :=
  { at_ := ⟨hv, hv⟩, restart := ⟨hv, hv⟩, shadow := x.getRecord, forms := faultForms f, code := f.code.num, pc := i.at_,
    next := i.next, fall := i.last, lanes := i.lanes, held := [] }

/-- The record of such a fault as g56 to g63 hold it (R385, R386). -/
def Kernel.recordFor (k : Kernel) (i : Iss) (f : FaultInfo) : List GReg :=
  (faultRecord f i.at_.pc i.next i.lanes k.seq k.aqi).map fun v => ⟨v, false⟩

theorem enterFault_entered {c : State} {z : Warp} {k : Kernel} {d : Desc} (hz : c.warp? w = some z) (hk : c.kernelOf w = some k)
    (hd : k.desc = some d) (hne : d.handler ≠ 0) (hh : z.handler = none) (i : Iss) (f : FaultInfo) :
    c.enterFault w i.at_ i.next i.last i.lanes f =
      c.setWarp w (z.entered (k.recordFor i f) (z.handlerFor d.handler i f)) :=
  enterFault_ready hz hk (congrArg (fun o : Option Desc => (o.map Desc.handler).getD 0) hd) hne hh _ _ _ _ _

theorem Warp.greg_entered_record (x : Warp) (rc : List GReg) (h : Handler) {n : Nat} (hn : n < 8) :
    (x.entered rc h).greg (56 + n) = rc.getD n GReg.zero := by
  rw [(Warp.entered_spec x rc h).1, if_pos ⟨by omega, by omega⟩, Nat.add_sub_cancel_left]

theorem Warp.greg_entered_low (x : Warp) (rc : List GReg) (h : Handler) {n : Nat} (hn : n < 56) :
    (x.entered rc h).greg n = x.greg n := by
  rw [(Warp.entered_spec x rc h).1, if_neg (by omega)]

end

/-- Settles O58: the poisoned predicate stops the instruction, the slot is charged, and the warp enters its handler. -/
theorem faultEntry : Obligations.FaultEntry := by
  intro r hr s w x z b f k d c hi hz hh hk hd hne v hbound ha hb hc hdst hp
  obtain ⟨-, hwarp, -, -⟩ := id hi
  refine ⟨fun hs => charge_issued_unsampled hwarp hs hz, ?_⟩
  have halu : exec (r.op f) s = alu s f (r.spec f) (r.fn f) :=
    (List.mem_append.1 hr).elim (fun h => arithRows_exec r h f s) fun h => bitRows_exec r h f s
  have hexec := halu.trans (vecFrame_poisoned hi ⟨hbound, ha, hb, hc, hdst⟩ hp)
  let i := mkIss s w x b (unitSize f.pfx)
  let e := predFault (predOf x b.mask f.pfx f.k f.kn).psn
  have henter := enterFault_entered hz hk hd hne hh i e
  obtain ⟨h56, h57, h58, h59, h60, h61, h62, h63⟩ := faultRecord_get e i.at_.pc i.next i.lanes k.seq k.aqi
  obtain ⟨-, hfull, hhandler, hbundle, hv, hkr, hth, hspan, hloads, hfstat⟩ :=
    Warp.entered_spec z (k.recordFor i e) (z.handlerFor d.handler i e)
  have hrec := fun n (hn : n < 8) => z.greg_entered_record (k.recordFor i e) (z.handlerFor d.handler i e) hn
  exact ⟨_, _, _, hexec.trans (congrArg (fun t : State => Host.Outcome.next t.ticked) henter), rfl,
    fun p => State.warp?_setWarp_ne c _, State.warp?_setWarp_same _ hz, hhandler, hbundle, rfl, rfl,
    fun n hn => z.getRecord_get hn, hfull,
    (hrec 0 (by decide)).trans h56, (hrec 1 (by decide)).trans h57, (hrec 2 (by decide)).trans h58,
    (hrec 3 (by decide)).trans h59, (hrec 4 (by decide)).trans h60, (hrec 5 (by decide)).trans h61,
    (hrec 6 (by decide)).trans h62, (hrec 7 (by decide)).trans h63, fun n hn => z.greg_entered_low _ _ hn,
    fun n => by simp only [Warp.vreg, hv], fun n => by simp only [Warp.kreg, hkr], hth, hspan, hloads, hfstat⟩

end Sys2Proof.Machine
end

section
/-! SUPPORT. The state of the model at its first step (01_machine, 24_package R410): what each part of it reads as. -/

namespace Sys2Proof.Machine

/-- A number that a store without entries is asked for reads as the default of the store. -/
theorem sgetD_nil {β : Type} (a : Nat) (d : β) : sgetD [] a d = d := rfl

theorem Mem.byte_empty (a : Nat) : Mem.empty.byte a = 0 := sgetD_nil a 0

theorem Mem.mark_empty (w : Nat) : Mem.empty.mark w = none := rfl

theorem State.warp?_eq_none_of_group? {s : State} {w : WarpId} (h : s.group? w.g = none) : s.warp? w = none := by
  rw [State.warp?, h, Option.bind_none]

theorem vget_replicate {α : Type} {n i : Nat} (x : α) : vget (Vector.replicate n x) i x = x := by
  rw [vget, Vector.toList_replicate, List.getD_eq_getElem?_getD, List.getElem?_replicate]
  by_cases hi : i < n
  · rw [if_pos hi, Option.getD_some]
  · rw [if_neg hi, Option.getD_none]

theorem State.ctxOf_reset (c : Nat) : State.reset.ctxOf c = Ctx.free := sgetD_nil c _

theorem State.aqiOf_reset (n : Nat) : State.reset.aqiOf n = Aqi.reset := sgetD_nil n _

theorem State.engine_reset (c : Nat) : State.reset.engine c = Engine.idle := sgetD_nil c _

theorem State.group?_reset (n : Nat) : State.reset.group? n = none := rfl

theorem State.port_reset (n : Nat) : vget State.reset.ports n Port.reset = Port.reset := vget_replicate _

/-- Settles O60: each store of the first state is empty, so each read of it gives the store's default; the other fields stand
as written. -/
theorem resetState : Obligations.ResetState :=
  ⟨fun _ => rfl, fun _ => rfl, State.group?_reset, fun w => State.warp?_eq_none_of_group? (State.group?_reset w.g),
    rfl, rfl, rfl, rfl, rfl, rfl, rfl,
    State.engine_reset, State.ctxOf_reset, fun n => congrArg Aqi.st (State.aqiOf_reset n),
    fun n _ => congrArg Port.st (State.port_reset n), rfl, rfl, rfl, rfl, rfl,
    Mem.byte_empty, Mem.mark_empty, Mem.empty_wf, rfl⟩

end Sys2Proof.Machine
end

section
/-! SUPPORT. The commands of a context (05_context R83 to R91, 19_page R343, 23_observation R402). One lemma says when the frame
of every row lets a command through, one what the row's turn does with it; then one lemma per command says what it leaves. -/

namespace Sys2Proof.Machine

section
variable {s : State} {cmd : BitVec 512}

/-! ### The frame of a command -/

/-- A command that its row takes has the row's effect, and answers status 0 (R83). -/
theorem ctxCmd_of_ready {code flags : Nat} {named : List (Nat × Nat)} {states : List CtxSt} {bad denied : Ctx → Bool}
    (run : Nat → Ctx → State) (h : CommandReady s cmd code flags named states) (hbad : bad (s.ctxOf (cmdCtx cmd)) = false)
    (hdenied : denied (s.ctxOf (cmdCtx cmd)) = false) :
    ctxCmd s cmd code flags named bad states denied run = (run (cmdCtx cmd) (s.ctxOf (cmdCtx cmd))).finish cmd 0 := by
  obtain ⟨hup, hcode, hctx, hclean, hst⟩ := h
  have hoperands : ¬(cmdCode cmd ≠ code ∨ 256 ≤ cmdCtx cmd ∨ (!cmdClean cmd flags named) = true ∨
      bad (s.ctxOf (cmdCtx cmd)) = true) := by
    simp [hcode, hctx, hclean, hbad]
  simp only [ctxCmd, if_neg (Nat.not_lt.2 hup), if_neg fun h : cmdCode cmd ≠ code ∧ _ => h.1 hcode, if_neg hoperands,
    if_neg (not_not_intro hst), hdenied, Bool.false_eq_true, if_false]

theorem ctxTurn_of_nil {onIde : Bool} (hline : (s.ctxOf (cmdCtx cmd)).cmds = []) (run : State → State) :
    ctxTurn cmd onIde s run = event (run s) := by
  simp [ctxTurn, hline]

/-- Behind a command that waits, one that comes joins the line (R83). -/
theorem ctxTurn_of_ne_nil {onIde : Bool} (hline : (s.ctxOf (cmdCtx cmd)).cmds ≠ []) (run : State → State) :
    ctxTurn cmd onIde s run =
      event (s.setCmds (cmdCtx cmd) ((s.ctxOf (cmdCtx cmd)).cmds ++ [.cmd cmd onIde])) := by
  rw [ctxTurn, if_neg (fun h => hline (List.isEmpty_iff.1 h))]
  rfl

theorem happens_of_ctxTurn {i : Instr} {onIde : Bool} {f : State → State} {t : State}
    (hexec : exec i s = ctxTurn cmd onIde s f) (hline : (s.ctxOf (cmdCtx cmd)).cmds = []) (hf : f s = t) : Happens i s t := by
  rw [Happens, hexec, ctxTurn_of_nil hline, hf, event]

theorem happens_of_ctxTurn_waits {i : Instr} {onIde : Bool} {f : State → State} (hexec : exec i s = ctxTurn cmd onIde s f)
    (hline : (s.ctxOf (cmdCtx cmd)).cmds ≠ []) :
    Happens i s (s.setCmds (cmdCtx cmd) ((s.ctxOf (cmdCtx cmd)).cmds ++ [.cmd cmd onIde])) :=
  hexec.trans (ctxTurn_of_ne_nil hline f)

/-! ### The commands in their turn -/

theorem Ctx.frozen_eq_false_iff (x : Ctx) : x.frozen = false ↔ (x.conf = true → x.tdi ≠ .configLocked) := by
  simp [Ctx.frozen]

section
variable (hline : (s.ctxOf (cmdCtx cmd)).cmds = [])
include hline

theorem happens_create (h : CommandReady s cmd 1 3 [(16, 48)] [.free]) (halign : ∀ v ∈ createAreas cmd, v % 4096 = 0)
    (hhome : Nat.testBit (cmdFlags cmd) 0 = true → s.areasHere (createAreas cmd) = true)
    (hgrant : Nat.testBit (cmdFlags cmd) 1 = true → cmdCtx cmd ∈ s.grants)
    (hid : Nat.testBit (cmdFlags cmd) 0 = true → s.identity.isSome = true) :
    let area := fun (i : Nat) => BitVec.ofNat 64 ((createAreas cmd).getD i 0)
    Happens (.create cmd) s (((s.newTenant (cmdCtx cmd)).setCtx (cmdCtx cmd) { Ctx.free with
      st := .created, conf := Nat.testBit (cmdFlags cmd) 0, fabric := Nat.testBit (cmdFlags cmd) 1, s2 := area 0,
      save := area 1, spill := area 2, wake := area 3, bind := area 4, sample := area 5,
      tdi := (s.ctxOf (cmdCtx cmd)).tdi, allot := (s.ctxOf (cmdCtx cmd)).allot }).finish cmd 0) := by
  have hbad : ((createAreas cmd).any (fun v => decide (v % 4096 ≠ 0)) ||
      Nat.testBit (cmdFlags cmd) 0 && !s.areasHere (createAreas cmd)) = false := by
    simpa using And.intro halign hhome
  have hdenied : (Nat.testBit (cmdFlags cmd) 1 && !decide (cmdCtx cmd ∈ s.grants) ||
      Nat.testBit (cmdFlags cmd) 0 && s.identity.isNone) = false := by
    simpa [← Option.isSome_iff_ne_none] using And.intro hgrant hid
  refine happens_of_ctxTurn (f := ctxCreate cmd) rfl hline ?_
  rw [ctxCreate, ctxCmd_of_ready _ h hbad hdenied]

theorem happens_ctxBind (h : CommandReady s cmd 2 0 [(16, 8)] [.created]) (halign : cmdNat cmd 16 8 % 4096 = 0)
    (hopen : (s.ctxOf (cmdCtx cmd)).frozen = false) :
    Happens (.ctxBind cmd) s (((s.setCtx (cmdCtx cmd) { s.ctxOf (cmdCtx cmd) with
      st := .bound, s1 := BitVec.ofNat 64 (cmdNat cmd 16 8) }).dropTlb (cmdCtx cmd)).finish cmd 0) := by
  refine happens_of_ctxTurn (f := ctxBind cmd) rfl hline ?_
  rw [ctxBind, ctxCmd_of_ready _ h (decide_eq_false (not_not_intro halign)) hopen]

theorem happens_start (h : CommandReady s cmd 3 0 [] [.bound])
    (hrun : (s.ctxOf (cmdCtx cmd)).conf = true → (s.ctxOf (cmdCtx cmd)).tdi = .run) :
    Happens (.start cmd) s
      ((s.setCtx (cmdCtx cmd) { s.ctxOf (cmdCtx cmd) with st := .runnable }).finish cmd 0) := by
  have hgo : ((s.ctxOf (cmdCtx cmd)).conf && decide ((s.ctxOf (cmdCtx cmd)).tdi ≠ .run)) = false := by simpa using hrun
  have hready : CommandReady s cmd 3 0 []
      (if (s.ctxOf (cmdCtx cmd)).conf && decide ((s.ctxOf (cmdCtx cmd)).tdi ≠ .run) then [] else [.bound]) := by
    rwa [hgo]
  refine happens_of_ctxTurn (f := ctxStart cmd) rfl hline ?_
  rw [ctxStart, ctxCmd_of_ready _ hready]
  · rfl
  · rfl

theorem happens_quiesce (h : CommandReady s cmd 4 1 [] [.runnable, .running, .swapped]) :
    Happens (.quiesce cmd) s ((((s.setCtx (cmdCtx cmd) { s.ctxOf (cmdCtx cmd) with st := .quiescing }).stopCtx (cmdCtx cmd)
      .quiesced (Nat.testBit (cmdFlags cmd) 0)).ctxCheck (cmdCtx cmd) false).finish cmd 0) := by
  refine happens_of_ctxTurn (f := ctxQuiesce cmd) rfl hline ?_
  rw [ctxQuiesce, ctxCmd_of_ready _ h]
  · rfl
  · rfl

theorem happens_destroy (h : CommandReady s cmd 5 0 [] [.created, .bound, .faulted]) :
    Happens (.destroy cmd) s (((s.setCtx (cmdCtx cmd) { s.ctxOf (cmdCtx cmd) with st := .destroyed }).addDue
      (.scrubComplete (cmdCtx cmd))).finish cmd 0) := by
  refine happens_of_ctxTurn (f := ctxDestroy cmd) rfl hline ?_
  rw [ctxDestroy, ctxCmd_of_ready _ h]
  · rfl
  · rfl

theorem happens_keyset {onIde : Bool}
    (h : CommandReady s cmd 6 0 [(16, 1), (20, 4), (32, 32)] [.created, .bound, .runnable, .running, .swapped])
    (hslot : cmdNat cmd 16 1 < 8) (hopen : (s.ctxOf (cmdCtx cmd)).conf = true →
      (s.ctxOf (cmdCtx cmd)).tdi ≠ .configUnlocked ∧ onIde = true) :
    Happens (.keyset cmd onIde) s ((s.setCtx (cmdCtx cmd) { s.ctxOf (cmdCtx cmd) with
      keys := vset (s.ctxOf (cmdCtx cmd)).keys (cmdNat cmd 16 1)
        ⟨true, BitVec.ofNat 256 (cmdNat cmd 32 32), BitVec.ofNat 32 (cmdNat cmd 20 4), 0⟩ }).finish cmd 0) := by
  have hdenied : ((s.ctxOf (cmdCtx cmd)).conf && (decide ((s.ctxOf (cmdCtx cmd)).tdi = .configUnlocked) || !onIde)) = false := by
    simpa using hopen
  refine happens_of_ctxTurn (f := ctxKeyset cmd onIde) rfl hline ?_
  rw [ctxKeyset, ctxCmd_of_ready _ h (decide_eq_false (Nat.not_le.2 hslot)) hdenied]

theorem happens_keyclr (h : CommandReady s cmd 7 0 [(16, 1)] notFree) (hslot : cmdNat cmd 16 1 < 8) :
    Happens (.keyclr cmd) s ((s.setCtx (cmdCtx cmd) { s.ctxOf (cmdCtx cmd) with
      keys := vset (s.ctxOf (cmdCtx cmd)).keys (cmdNat cmd 16 1) KeySlot.empty }).finish cmd 0) := by
  refine happens_of_ctxTurn (f := ctxKeyclr cmd) rfl hline ?_
  rw [ctxKeyclr, ctxCmd_of_ready _ h (decide_eq_false (Nat.not_le.2 hslot))]
  rfl

theorem happens_debuggo {k : Nat} {r : List Nat}
    (h : CommandReady s cmd 0x0D 0 [(16, 2), (20, 4)] [.runnable, .running, .swapped])
    (hstopped : s.stoppedAt (cmdCtx cmd) (cmdNat cmd 16 2) (cmdNat cmd 20 4) = k :: r) :
    Happens (.debuggo cmd) s ((s.updKernel k fun y => { y with stopped := false }).finish cmd 0) := by
  refine happens_of_ctxTurn (f := ctxDebuggo cmd) rfl hline ?_
  rw [ctxDebuggo, hstopped, ctxCmd_of_ready _ h (Bool.and_false _)]
  rfl

end

/-! ### INVAL -/

theorem exec_inval : exec (.inval cmd) s = execInval cmd s := rfl

/-- What a row of INVAL takes is what R343 accepts. -/
theorem State.invOk_of_ready (h : CommandReady s cmd 0x0C 3 [(16, 16)] notFree) (hbase : (invRange cmd).base % 4096 = 0)
    (hlen : (invRange cmd).len % 4096 = 0) (hsome : (invRange cmd).len ≠ 0) : s.invOk cmd = true := by
  obtain ⟨hup, hcode, hctx, hclean, hst⟩ := h
  simp [State.invOk, hup, hcode, hctx, hclean, hst, hbase, hlen, hsome]

theorem ctxInval_of_ready (h : CommandReady s cmd 0x0C 3 [(16, 16)] notFree) (hbase : (invRange cmd).base % 4096 = 0)
    (hlen : (invRange cmd).len % 4096 = 0) (hsome : (invRange cmd).len ≠ 0) :
    ctxInval cmd s = (s.invBegin cmd).finish cmd 0 := by
  have hbad : (decide ((invRange cmd).base % 4096 ≠ 0) || decide ((invRange cmd).len % 4096 ≠ 0) ||
      decide ((invRange cmd).len = 0)) = false := by
    simp [hbase, hlen, hsome]
  rw [ctxInval, ctxCmd_of_ready _ h hbad]
  rfl

/-- With nothing left to wait for, an INVAL in its turn gives its answer at once. -/
theorem happens_inval_of_nil (hline : (s.ctxOf (cmdCtx cmd)).cmds = []) (hwaits : (s.invBegin cmd).invWaits cmd = false) :
    Happens (.inval cmd) s (ctxInval cmd s) := by
  have hturn : ((s.ctxOf (cmdCtx cmd)).cmds.isEmpty || s.isRetry cmd) = true := by simp [hline]
  have hdone : ¬(s.invOk cmd && (s.invBegin cmd).invWaits cmd) = true := by simp [hwaits]
  exact (if_pos hturn).trans ((if_neg hdone).trans (if_pos (List.isEmpty_iff.2 hline)))

theorem happens_inval_waits (hline : (s.ctxOf (cmdCtx cmd)).cmds = []) (hok : s.invOk cmd = true)
    (hwaits : (s.invBegin cmd).invWaits cmd = true) :
    Happens (.inval cmd) s (((s.invBegin cmd).setCmds (cmdCtx cmd) [.cmd cmd false]).addDue (.inval cmd)) := by
  have hwait : (s.invOk cmd && (s.invBegin cmd).invWaits cmd) = true := Bool.and_eq_true_iff.2 ⟨hok, hwaits⟩
  rw [Happens, exec_inval, execInval, hline, List.isEmpty_nil, Bool.true_or, if_pos rfl, if_pos hwait]
  rfl

theorem happens_inval_behind (hline : (s.ctxOf (cmdCtx cmd)).cmds ≠ []) (hretry : s.isRetry cmd = false) :
    Happens (.inval cmd) s (s.setCmds (cmdCtx cmd) ((s.ctxOf (cmdCtx cmd)).cmds ++ [.cmd cmd false])) := by
  have hturn : ¬((s.ctxOf (cmdCtx cmd)).cmds.isEmpty || s.isRetry cmd) = true := by simp [hline, hretry]
  exact if_neg hturn

/-- The waiting INVAL, looked at again with nothing left to wait for, is done, and its line goes on (R83, R343). -/
theorem happens_inval_retry {r : List HubWrite} (hline : (s.ctxOf (cmdCtx cmd)).cmds = .cmd cmd false :: r)
    (hretry : s.isRetry cmd = true) (hwaits : (s.invBegin cmd).invWaits cmd = false) :
    Happens (.inval cmd) s ((ctxInval cmd s).runCmds (cmdCtx cmd) r) := by
  have hdone : ¬(s.invOk cmd && (s.invBegin cmd).invWaits cmd) = true := by simp [hwaits]
  rw [Happens, exec_inval, execInval, hline, hretry, Bool.or_true, if_pos rfl, if_neg hdone]
  rfl

end

/-- Settles O40: in its turn each command has the effect of its row, and behind a waiting command it joins the line. -/
theorem contextCommandsComplete : Obligations.ContextCommandsComplete := by
  intro s cmd c x back notConf
  refine ⟨fun hline => ⟨?create, ?bind, ?start, ?quiesce, ?destroy, ?keyset, ?keyclr, ?debuggo, ?inval⟩,
    fun hline => ⟨?behind, ?keysetBehind, ?invalBehind, ?invalRetry⟩⟩
  case create => exact happens_create hline
  case bind => exact fun h halign hopen => happens_ctxBind hline h halign ((Ctx.frozen_eq_false_iff _).2 hopen)
  case start => exact happens_start hline
  case quiesce => exact happens_quiesce hline
  case destroy => exact happens_destroy hline
  case keyset => exact fun _ => happens_keyset hline
  case keyclr => exact happens_keyclr hline
  case debuggo => exact fun _ _ => happens_debuggo hline
  case inval =>
    intro r h hbase hlen hsome
    refine ⟨fun hwaits => ?_, happens_inval_waits hline (State.invOk_of_ready h hbase hlen hsome)⟩
    have hdone := happens_inval_of_nil hline hwaits
    rwa [ctxInval_of_ready h hbase hlen hsome] at hdone
  case behind =>
    have hwait : ∀ {i f}, exec i s = ctxTurn cmd false s f → Happens i s (s.setCmds c (x.cmds ++ [.cmd cmd false])) :=
      fun hexec => happens_of_ctxTurn_waits hexec hline
    simp only [List.forall_mem_cons]
    exact ⟨hwait rfl, hwait rfl, hwait rfl, hwait rfl, hwait rfl, hwait rfl, hwait rfl, hwait rfl, hwait rfl, hwait rfl,
      hwait rfl, fun _ h => absurd h List.not_mem_nil⟩
  case keysetBehind => exact fun onIde => happens_of_ctxTurn_waits (i := .keyset cmd onIde) rfl hline
  case invalBehind => exact happens_inval_behind hline
  case invalRetry => exact fun _ => happens_inval_retry

end Sys2Proof.Machine
end

section
/-! SUPPORT. The events of contexts and queues (05_context R84 to R90, 06_queue R92 to R105): the ends of a context's life, and what
a requester's access to a BAR does. -/

namespace Sys2Proof.Machine

section
variable {s : State}

/-! ### The life of a context -/

theorem happens_quiesceComplete {c : Nat} (hst : (s.ctxOf c).st = .quiescing)
    (hgroups : (s.ctxGroups c Group.live).isEmpty = true) (hidle : s.ctxIdle c = true) :
    Happens (.quiesceComplete c) s ((s.setCtx c { s.ctxOf c with st := .bound, wakes := [] }).dropWaits c) :=
  if_pos ⟨hst, hgroups, hidle⟩

theorem happens_scrubComplete {c : Nat} (hst : (s.ctxOf c).st = .destroyed) (hkernels : s.ctxKernels c = [])
    (hidle : s.ctxIdle c = true) :
    Happens (.scrubComplete c) s
      (((((((s.aqisOf c).foldl (fun (t : State) n => (t.revokeAqi n).freeRemap n) s).freeRemap (1024 + c)).dropWaits c).dropTlb
        c).newTenant c).setCtx c
          { Ctx.free with tdi := (s.ctxOf c).tdi, allot := (s.ctxOf c).allot, cmds := (s.ctxOf c).cmds }) := by
  have hover : ¬(!(s.ctxKernels c).isEmpty || !s.ctxIdle c) = true := by simp [hkernels, hidle]
  exact (if_neg (not_not_intro hst)).trans (if_neg hover)

theorem happens_contextError {c : Nat} (cause : CtxErrCause) (hfree : (s.ctxOf c).st ≠ .free)
    (hdestroyed : (s.ctxOf c).st ≠ .destroyed) :
    Happens (.contextError c cause) s
      (((s.setCtx c { s.ctxOf c with st := .faulted }).stopCtx c .contextError true).faultInterrupt c) :=
  if_neg (not_or_intro hfree hdestroyed)

theorem happens_tdiTransition {c : Nat} {onto : TdiState} (hc : c < 256) (h : (s.ctxOf c).conf = false ∨ onto ≠ .error) :
    Happens (.tdiTransition c onto) s (s.setCtx c { s.ctxOf c with tdi := onto }) := by
  have hplain : ¬((s.ctxOf c).conf && decide (onto = .error)) = true := by
    rcases h with hconf | honto
    · rw [hconf, Bool.false_and]
      exact Bool.false_ne_true
    · rw [decide_eq_false honto, Bool.and_false]
      exact Bool.false_ne_true
  exact (if_neg (Nat.not_le.2 hc)).trans (if_neg hplain)

theorem happens_tdiTransition_error {c : Nat} (hc : c < 256) (hconf : (s.ctxOf c).conf = true) :
    Happens (.tdiTransition c .error) s
      ((s.setCtx c { (s.ctxOf c).clearKeys with tdi := .error }).raiseCtxErr c .tdiError) := by
  have herror : ((s.ctxOf c).conf && decide (TdiState.error = .error)) = true := by simp [hconf]
  exact (if_neg (Nat.not_le.2 hc)).trans (if_pos herror)

/-! ### Notify pages (R95 to R98) -/

theorem lt_of_notifyAqi {adr aqi : Nat} (h : notifyAqi adr = some aqi) : adr < 0x400000 :=
  Decidable.byContradiction fun hge => nomatch (if_neg hge).symm.trans h

/-- The reason a write of a notify page is refused for, or 0: the checks of the page, then those of the packet (R98). -/
def State.writeReason (s : State) (adr link : Nat) (pasid : Option (BitVec 20)) (onIde : Bool) (size : Nat)
    (data : BitVec 512) (aqi : Nat) : Nat :=
  match s.notifyReason (s.aqiOf aqi) (adr % 0x1000) link pasid onIde size with
  | 0 => s.packetReason aqi (adr % 0x1000 / 64 % 64) (s.aqiOf aqi) (packetOf data)
  | r => r

section
variable {adr link size aqi : Nat} {pasid : Option (BitVec 20)} {onIde : Bool} {data : BitVec 512}

theorem State.notifyRun_of_accepted (h : notifyAqi adr = some aqi) (hr : s.writeReason adr link pasid onIde size data aqi = 0) :
    s.notifyRun adr link pasid onIde size data = s.accept aqi (adr % 0x1000 / 64 % 64) (s.aqiOf aqi) (packetOf data) := by
  rw [State.notifyRun, h]
  exact if_pos hr

theorem State.notifyRun_of_refused (h : notifyAqi adr = some aqi) (hr : s.writeReason adr link pasid onIde size data aqi ≠ 0) :
    s.notifyRun adr link pasid onIde size data =
      s.refuseWrite aqi (adr % 0x1000 / 64 % 64) link (s.writeReason adr link pasid onIde size data aqi) (s.aqiOf aqi) pasid
        (if size < 8 then 0 else BitVec.ofNat 32 (packetOf data).seq) := by
  rw [State.notifyRun, h]
  exact if_neg hr

theorem exec_notifyWrite (bar : Nat) : exec (.notifyWrite bar adr link pasid onIde size data) s =
    execNotifyWrite bar adr link pasid onIde size data s := rfl

theorem happens_notifyWrite_waits {c : Nat} (hline : s.lineOfAqi adr = some c) :
    Happens (.notifyWrite 2 adr link pasid onIde size data) s
      (s.setCmds c ((s.ctxOf c).cmds ++ [.notify adr link pasid onIde size data])) := by
  rw [Happens, exec_notifyWrite, execNotifyWrite, hline]
  rfl

theorem happens_notifyWrite (hline : s.lineOfAqi adr = none) :
    Happens (.notifyWrite 2 adr link pasid onIde size data) s (s.notifyRun adr link pasid onIde size data) := by
  rw [Happens, exec_notifyWrite, execNotifyWrite, hline]
  rfl

theorem happens_notifyWrite_accepted (h : notifyAqi adr = some aqi) (hline : s.lineOfAqi adr = none)
    (hr : s.writeReason adr link pasid onIde size data aqi = 0) :
    Happens (.notifyWrite 2 adr link pasid onIde size data) s
      (s.accept aqi (adr % 0x1000 / 64 % 64) (s.aqiOf aqi) (packetOf data)) := by
  rw [← State.notifyRun_of_accepted h hr]
  exact happens_notifyWrite hline

theorem happens_notifyWrite_refused (h : notifyAqi adr = some aqi) (hline : s.lineOfAqi adr = none)
    (hr : s.writeReason adr link pasid onIde size data aqi ≠ 0) :
    Happens (.notifyWrite 2 adr link pasid onIde size data) s
      (s.refuseWrite aqi (adr % 0x1000 / 64 % 64) link (s.writeReason adr link pasid onIde size data aqi) (s.aqiOf aqi) pasid
        (if size < 8 then 0 else BitVec.ofNat 32 (packetOf data).seq)) := by
  rw [← State.notifyRun_of_refused h hr]
  exact happens_notifyWrite hline

theorem happens_refrecRead_notifyPage (h : notifyAqi adr = some aqi) :
    Happens (.refrecRead ⟨2, adr, link⟩) s (s.say (.hostRead link 0)) :=
  congrArg event (if_pos (lt_of_notifyAqi h))

end

/-! ### Status blocks and remap entries (R102 to R104) -/

section
variable {adr : Nat}

theorem exec_refrecRead (read : BarRead) : exec (.refrecRead read) s = execRefrecRead read s := rfl

theorem exec_remapEntryWrite (data : BitVec 128) : exec (.remapEntryWrite adr data) s = execRemapEntryWrite adr data s := rfl

theorem happens_refrecRead_refrec {n : Nat} (link : Nat) (h : bar0 adr = .status n 8) :
    Happens (.refrecRead ⟨0, adr, link⟩) s
      ((s.say (.refrec n (s.aqiOf n).refrec)).setAqi n { s.aqiOf n with count := 0 }) := by
  simp only [Happens, exec_refrecRead, execRefrecRead, h]
  rfl

theorem happens_refrecRead_status {n off : Nat} (link : Nat) (h : bar0 adr = .status n off) (hoff : off ≠ 8) :
    Happens (.refrecRead ⟨0, adr, link⟩) s (s.say (.hostRead link (s.statusRead n off))) := by
  simp only [Happens, exec_refrecRead, execRefrecRead, h, if_neg hoff]
  rfl

theorem happens_refrecRead_remap {entry : Nat} (link : Nat) (h : bar0 adr = .remap entry false) :
    Happens (.refrecRead ⟨0, adr, link⟩) s
      (s.say (.hostRead link (bitsAt (sgetD s.remap entry Remap.reset).word 0 64))) := by
  simp only [Happens, exec_refrecRead, execRefrecRead, h]
  rfl

theorem happens_remapEntryWrite_status {n off : Nat} (data : BitVec 128) (h : bar0 adr = .status n off) :
    Happens (.remapEntryWrite adr data) s s := by
  rw [Happens, exec_remapEntryWrite, execRemapEntryWrite, h]
  rfl

/-- What a write makes of a remap entry (R102); PEND is the part's own. -/
def Remap.written (old : Remap) (data : BitVec 128) : Remap :=
  { addr := bitsAt data 66 62, data := bitsAt data 32 32, v := data.getLsbD 31, mask := data.getLsbD 30, pend := old.pend }

def State.setRemap (s : State) (n : Nat) (r : Remap) : State := { s with remap := sput s.remap n r Remap.reset }

section
variable {entry : Nat} (data : BitVec 128) (h : bar0 adr = .remap entry false) (halign : adr % 16 = 0)
  (hopen : ∀ c, s.remapCtx entry = some c → (s.ctxOf c).frozen = false)
include h halign hopen

/-- A whole write of an entry that is not frozen sets it, and sends a held message when it clears MASK (R102, R103). -/
theorem exec_remapEntryWrite_of_open :
    let old := sgetD s.remap entry Remap.reset
    let new := old.written data
    let send := old.pend && !new.mask
    let t := s.setRemap entry (if send then { new with pend := false } else new)
    exec (.remapEntryWrite adr data) s = event (if send then t.interrupt entry (s.remapLink entry) else t) := by
  have hfrozen : ((s.remapCtx entry).map fun c => (s.ctxOf c).frozen).getD false = false := by
    cases hc : s.remapCtx entry with
    | none => rfl
    | some c => exact hopen c hc
  simp only [exec_remapEntryWrite, execRemapEntryWrite, h, if_neg (not_not_intro halign), hfrozen, Bool.false_eq_true, if_false]
  rfl

theorem happens_remapEntryWrite
    (hquiet : (sgetD s.remap entry Remap.reset).pend = false ∨ ((sgetD s.remap entry Remap.reset).written data).mask = true) :
    Happens (.remapEntryWrite adr data) s (s.setRemap entry ((sgetD s.remap entry Remap.reset).written data)) := by
  have hsend : ((sgetD s.remap entry Remap.reset).pend && !((sgetD s.remap entry Remap.reset).written data).mask) = false := by
    rcases hquiet with hpend | hmask
    · rw [hpend, Bool.false_and]
    · rw [hmask, Bool.not_true, Bool.and_false]
  rw [Happens, exec_remapEntryWrite_of_open data h halign hopen]
  simp only [hsend, Bool.false_eq_true, if_false]
  rfl

theorem happens_remapEntryWrite_sends (hpend : (sgetD s.remap entry Remap.reset).pend = true)
    (hmask : ((sgetD s.remap entry Remap.reset).written data).mask = false) :
    Happens (.remapEntryWrite adr data) s
      ((s.setRemap entry { (sgetD s.remap entry Remap.reset).written data with pend := false }).interrupt entry
        (s.remapLink entry)) := by
  rw [Happens, exec_remapEntryWrite_of_open data h halign hopen]
  simp only [hpend, hmask, Bool.not_false, Bool.and_true, if_true]
  rfl

end

end

end

/-- Settles O42: each event of a context's life, each write of a notify page and each access to BAR 0 has the effect of its own
case. -/
theorem contextEventsHappen : Obligations.ContextEventsHappen := by
  intro s
  refine ⟨fun c => ⟨?quiesced, ?scrubbed, ?error, fun onto hc => ⟨?tdi, ?tdiError⟩⟩,
    fun adr link pasid onIde size data aqi h => ⟨?waits, ?accepted, ?refused, ?notifyRead⟩,
    fun adr link n off h => ⟨?refrec, ?status, ?blockWrite⟩, fun adr entry data h halign hopen => ⟨?sets, ?sends, ?entryRead⟩⟩
  -- the life of a context
  case quiesced => exact happens_quiesceComplete
  case scrubbed => exact happens_scrubComplete
  case error => exact fun cause => happens_contextError cause
  case tdi => exact happens_tdiTransition hc
  case tdiError =>
    rintro hconf rfl
    exact happens_tdiTransition_error hc hconf
  -- notify pages
  case waits => exact fun _ => happens_notifyWrite_waits
  case accepted => exact happens_notifyWrite_accepted h
  case refused => exact happens_notifyWrite_refused h
  case notifyRead => exact happens_refrecRead_notifyPage h
  -- status blocks
  case refrec =>
    rintro rfl
    exact happens_refrecRead_refrec link h
  case status => exact happens_refrecRead_status link h
  case blockWrite => exact fun data => happens_remapEntryWrite_status data h
  -- remap entries
  case sets => exact happens_remapEntryWrite data h halign hopen
  case sends => exact happens_remapEntryWrite_sends data h halign hopen
  case entryRead => exact fun link => happens_refrecRead_remap link h

end Sys2Proof.Machine
end

section
/-! SUPPORT. The commands of an AQI (06_queue R93, R94). One lemma says when the frame of every row lets a command through; then one
lemma per command says what it leaves of its AQI. -/

namespace Sys2Proof.Machine

section
variable {s : State} {cmd : BitVec 512}

/-! ### The frame of an AQI command -/

/-- A command whose turn it is, which names an AQI of the part, and which its row's own form admits (R83, R93). -/
abbrev AqiReady (s : State) (cmd : BitVec 512) (code : Nat) (named : List (Nat × Nat)) : Prop :=
  (s.ctxOf (cmdCtx cmd)).cmds = [] ∧ cmdAqi cmd < 1024 ∧
    CommandReady s cmd code 0 ((16, 2) :: named) [(s.ctxOf (cmdCtx cmd)).st]

section
variable {code : Nat} {named : List (Nat × Nat)} {bad : Aqi → Bool} {ok : Ctx → Aqi → Bool} {denied : Ctx → Bool}
  (run : Nat → Aqi → State) (h : AqiReady s cmd code named) (hbad : bad (s.aqiOf (cmdAqi cmd)) = false)
  (hok : ok (s.ctxOf (cmdCtx cmd)) (s.aqiOf (cmdAqi cmd)) = true) (hdenied : denied (s.ctxOf (cmdCtx cmd)) = false)
include h hbad hok hdenied

/-- With the context and the AQI in states of its row, an AQI command has the row's effect and answers status 0. -/
theorem aqiCmd_of_ready : aqiCmd s cmd code named bad ok denied run =
    (run (cmdAqi cmd) (s.aqiOf (cmdAqi cmd))).finish cmd 0 := by
  obtain ⟨-, hn, hready⟩ := h
  have hoperands : (decide (1024 ≤ cmdAqi cmd) || bad (s.aqiOf (cmdAqi cmd))) = false := by
    rw [hbad, decide_eq_false (Nat.not_le.2 hn), Bool.or_false]
  rw [aqiCmd, if_pos hok, ctxCmd_of_ready _ hready hoperands hdenied]

end

/-- A context owns an AQI that is bound to it. -/
theorem Aqi.foreign_eq_false_iff (a : Aqi) (c : Nat) : a.foreign c = false ↔ a.st ≠ .unassigned ∧ a.ctx = c := by
  simp [Aqi.foreign]

/-! ### The commands -/

theorem happens_assign (h : AqiReady s cmd 8 [(20, 6)]) (hpasid : cmdNat cmd 20 4 < 2 ^ 20) (hlimit : cmdNat cmd 24 1 ≤ 15)
    (hlink : cmdNat cmd 25 1 ≤ 1) (hfree : s.pasidTaken (cmdCtx cmd) (cmdNat cmd 25 1) (cmdNat cmd 20 4) = false)
    (hst : (s.aqiOf (cmdAqi cmd)).st = .unassigned)
    (hctx : (s.ctxOf (cmdCtx cmd)).st ∈ [CtxSt.created, .bound, .runnable, .running, .swapped])
    (hopen : (s.ctxOf (cmdCtx cmd)).frozen = false) :
    Happens (.assign cmd) s ((s.setAqi (cmdAqi cmd) { Aqi.reset with
      st := .assigned, ctx := cmdCtx cmd, pasid := BitVec.ofNat 20 (cmdNat cmd 20 4), limit := cmdNat cmd 24 1,
      link := cmdNat cmd 25 1 }).finish cmd 0) := by
  have hoperands : (decide (2 ^ 20 ≤ cmdNat cmd 20 4) || decide (15 < cmdNat cmd 24 1) || decide (1 < cmdNat cmd 25 1) ||
      s.pasidTaken (cmdCtx cmd) (cmdNat cmd 25 1) (cmdNat cmd 20 4)) = false := by
    simpa [hfree] using And.intro (And.intro hpasid hlimit) hlink
  refine happens_of_ctxTurn (f := aqiAssign cmd) rfl h.1 ?_
  rw [aqiAssign, aqiCmd_of_ready _ h hoperands _ hopen]
  rw [decide_eq_true hst, decide_eq_true hctx, Bool.and_self]

theorem happens_enable (h : AqiReady s cmd 9 []) (hst : (s.aqiOf (cmdAqi cmd)).st = .assigned)
    (hown : (s.aqiOf (cmdAqi cmd)).ctx = cmdCtx cmd)
    (hctx : (s.ctxOf (cmdCtx cmd)).st ∈ [CtxSt.runnable, .running, .swapped]) :
    Happens (.enable cmd) s
      ((s.setAqi (cmdAqi cmd) { s.aqiOf (cmdAqi cmd) with st := .enabled }).finish cmd 0) := by
  refine happens_of_ctxTurn (f := aqiEnable cmd) rfl h.1 ?_
  rw [aqiEnable, aqiCmd_of_ready _ h ((Aqi.foreign_eq_false_iff _ _).2 ⟨by simp [hst], hown⟩)]
  · simp only [hst, hctx, decide_true, Bool.and_self]
  · rfl

theorem happens_drain (h : AqiReady s cmd 0x0A []) (hst : (s.aqiOf (cmdAqi cmd)).st = .enabled)
    (hown : (s.aqiOf (cmdAqi cmd)).ctx = cmdCtx cmd) :
    Happens (.drain cmd) s
      (((s.setAqi (cmdAqi cmd) { s.aqiOf (cmdAqi cmd) with st := .draining }).aqiSettle (cmdAqi cmd)).finish cmd 0) := by
  refine happens_of_ctxTurn (f := aqiDrain cmd) rfl h.1 ?_
  rw [aqiDrain, aqiCmd_of_ready _ h ((Aqi.foreign_eq_false_iff _ _).2 ⟨by simp [hst], hown⟩) (decide_eq_true hst)]
  rfl

theorem happens_revoke (h : AqiReady s cmd 0x0B [])
    (hst : (s.aqiOf (cmdAqi cmd)).st = .assigned ∨ (s.aqiOf (cmdAqi cmd)).st = .enabled ∨
      (s.aqiOf (cmdAqi cmd)).st = .draining)
    (hown : (s.aqiOf (cmdAqi cmd)).ctx = cmdCtx cmd) (hopen : (s.ctxOf (cmdCtx cmd)).frozen = false) :
    Happens (.revoke cmd) s ((s.revokeAqi (cmdAqi cmd)).finish cmd 0) := by
  have howned : (s.aqiOf (cmdAqi cmd)).foreign (cmdCtx cmd) = false :=
    (Aqi.foreign_eq_false_iff _ _).2 ⟨fun hfree => by simp [hfree] at hst, hown⟩
  refine happens_of_ctxTurn (f := aqiRevoke cmd) rfl h.1 ?_
  rw [aqiRevoke, aqiCmd_of_ready _ h howned _ hopen]
  simpa only [Bool.or_eq_true, decide_eq_true_eq, or_assoc] using hst

end

/-- Settles O41: each command of an AQI that its row takes has the effect of that row. -/
theorem queueCommandsComplete : Obligations.QueueCommandsComplete := by
  intro s cmd c x n a ready back pasid limit link live
  exact ⟨happens_assign, happens_enable, happens_drain, happens_revoke⟩

end Sys2Proof.Machine
end

section
/-! SUPPORT. LAUNCH (07_kernel R116, R117): the packet read as a load reads it, the release at SYS scope, the answer of the queue. -/

namespace Sys2Proof.Machine

section
variable {s : State}

theorem exec_launch {f : FmtS} : exec (.launch f) s = execLaunch f s := rfl

section
variable {y : Warp}

/-- A LAUNCH that has read its packet has passed the checks of the read; one that reads it now passes them where its lanes may
proceed. -/
theorem launch_readChecks {i : Iss} {n : Nat} {l : List (Nat × Nat)} (h : y.releasing = false → ReadFree s i y n l) :
    (if y.releasing = true then .ok () else readChecks s i y n l) = .ok () := by
  cases hr : y.releasing with
  | true => rfl
  | false => exact (if_neg Bool.false_ne_true).trans (readChecks_free (h hr))

/-- Poison stops a LAUNCH only in a packet that it reads now. -/
theorem launch_unpoisoned {ws : List (Nat × Bool)} (h : y.releasing = false → ∀ e ∈ ws, e.2 = false) :
    (!y.releasing && ws.any Prod.snd) = false := by
  cases hr : y.releasing with
  | true => rfl
  | false => simpa using h hr

end

/-- The release goes through for the presented record as for the warp's own, with any signature of the packet. -/
theorem launch_commitRelease {t u : State} {w : WarpId} {x y : Warp} {d : BitVec 512} {i : Iss} {scope : Nat}
    (h : ReleaseReady ((if x.releasing then s else t).keepPacket w d) i y scope u) (cmd : List DWord) :
    ((if x.presented.releasing then s else t).keepPacket w d).commitRelease i y cmd scope = .ok u := commitRelease_ready h

end

/-- Settles O28: the packet passes its checks, the release is made, and the queue's answer is what gD takes. -/
theorem launchCompletes : Obligations.LaunchCompletes := by
  intro s w x b f hi hregs
  dsimp only
  intro halign hread u hrelease htwin
  have hchecks := launch_readChecks (y := x.presented) fun hr => (hread hr).1
  have hclean := launch_unpoisoned (y := x.presented) fun hr => (hread hr).2
  have hcommit := launch_commitRelease hrelease
  rw [Completes, exec_launch, execLaunch]
  refine sysFrame_ready hi hregs ?_
  simp only [Warp.gv_issued, mkIss_wid, halign, hchecks, hclean, hcommit, htwin, ne_eq, not_true_eq_false, Bool.false_eq_true,
    if_false]

end Sys2Proof.Machine
end

section
/-! SUPPORT. The events of kernels (07_kernel R107 to R112, R115): the descriptor is read, the next gang is placed or reserves, and
a kernel that has ended leaves. One lemma per event and per case of its rule says what the state becomes. -/

namespace Sys2Proof.Machine

section
variable {s : State} {n : Nat} {k : Kernel} (hk : s.kernel? n = some k)

theorem exec_descriptorRead (n : Nat) : exec (.descriptorRead n) s = execDescriptorRead n s := rfl

theorem exec_schedulerSelect (n sector : Nat) (cores : List Nat) :
    exec (.schedulerSelect n sector cores) s = execSchedulerSelect n sector cores s := rfl

theorem exec_reservationTimeout (gang : Nat × Nat) : exec (.reservationTimeout gang) s = execReservationTimeout gang s := rfl

theorem exec_completionActions (n : Nat) : exec (.completionActions n) s = execCompletionActions n s := rfl

/-! ### Leaving Posted (R107, R109) -/

/-- The state after the hub's read of a descriptor: its line is recalled, an eviction of its tier page abandoned (R345). -/
def State.descTouched (s : State) (pa : Nat) : State := (s.recallAll (lineOf pa)).touchTier pa

/-- The 128 bytes of the descriptor that the hub reads. -/
def State.descRead (s : State) (pa : Nat) : Nat := (s.descTouched pa).mem.nat pa 128

/-- A kernel whose packet's pages are all found waits for none of them. -/
def Kernel.paged (k : Kernel) : Kernel := { k with pend := [], pageFail := [] }

section
variable {pa : Nat} {pas : List Nat} (hst : k.st = .posted) (hpages : s.packetPages k = .ok (pa, pas))
include hk hst hpages

theorem happens_descriptorRead_signal (hsig : k.signal = true) :
    Happens (.descriptorRead n) s (s.toPending n k.paged none pas) := by
  simp only [Happens, exec_descriptorRead, execDescriptorRead, hk, if_neg (not_not_intro hst), hpages]
  exact if_pos hsig

section
variable (hsig : k.signal = false) (hclean : ∀ j < 32, (s.descTouched pa).cohMark (pa / 4 + j) = none)
include hsig hclean

/-- A descriptor that is read without poison is judged by R106, then by the sectors of its context (R107). -/
theorem exec_descriptorRead_of_clean :
    let t := s.descTouched pa
    let d := descOfBytes (s.descRead pa)
    let allot := (t.ctxOf k.ctx).allot
    exec (.descriptorRead n) s = event
      (if !descOk (s.descRead pa) then t.abortKernel n .descriptor
      else if !allot.isEmpty && !d.placeable allot then
        (t.updKernel n fun k => { k with desc := some d }).abortKernel n .nofit
      else t.toPending n k.paged (some d) pas) := by
  have hkernel : ¬k.signal = true := by simp [hsig]
  have hmarks : ¬((List.range 32).any fun j => ((s.descTouched pa).cohMark (pa / 4 + j)).isSome) = true := by
    simpa using hclean
  simp only [exec_descriptorRead, execDescriptorRead, hk, if_neg (not_not_intro hst), hpages, if_neg hkernel, apply_ite event]
  exact if_neg hmarks

theorem happens_descriptorRead_malformed (hbad : descOk (s.descRead pa) = false) :
    Happens (.descriptorRead n) s ((s.descTouched pa).abortKernel n .descriptor) := by
  rw [Happens, exec_descriptorRead_of_clean hk hst hpages hsig hclean, hbad]
  rfl

theorem happens_descriptorRead_pending (hok : descOk (s.descRead pa) = true)
    (hfit : ((s.descTouched pa).ctxOf k.ctx).allot = [] ∨
      (descOfBytes (s.descRead pa)).placeable ((s.descTouched pa).ctxOf k.ctx).allot = true) :
    Happens (.descriptorRead n) s ((s.descTouched pa).toPending n k.paged (some (descOfBytes (s.descRead pa))) pas) := by
  have hjudged : (!((s.descTouched pa).ctxOf k.ctx).allot.isEmpty &&
      !(descOfBytes (s.descRead pa)).placeable ((s.descTouched pa).ctxOf k.ctx).allot) = false := by
    rcases hfit with hnone | hplace
    · rw [hnone]
      rfl
    · rw [hplace, Bool.not_true, Bool.and_false]
  rw [Happens, exec_descriptorRead_of_clean hk hst hpages hsig hclean, hok, hjudged]
  rfl

theorem happens_descriptorRead_nofit (hok : descOk (s.descRead pa) = true)
    (hallot : ((s.descTouched pa).ctxOf k.ctx).allot ≠ [])
    (hfit : (descOfBytes (s.descRead pa)).placeable ((s.descTouched pa).ctxOf k.ctx).allot = false) :
    Happens (.descriptorRead n) s
      (((s.descTouched pa).updKernel n fun k => { k with desc := some (descOfBytes (s.descRead pa)) }).abortKernel n .nofit) := by
  rw [Happens, exec_descriptorRead_of_clean hk hst hpages hsig hclean, hok, hfit, List.isEmpty_eq_false_iff.2 hallot]
  rfl

end

end

/-! ### Placing (R111, R112) -/

include hk

theorem happens_schedulerSelect {d : Desc} {sector : Nat} {cores : List Nat} (hd : k.desc = some d)
    (hfirst : s.firstFit = some ⟨n, k.nextGang, none⟩)
    (hlen : cores.length = if d.redundant then 2 * d.groups else d.groups)
    (hopen : sector ∈ s.openSectors n k.nextGang k) (hfit : s.coresFit sector (cores.take d.groups) d.need = true)
    (htwins : let b := cores.drop d.groups
      d.redundant = true → sectorOf (b.headD 0) ≠ sector ∧ sectorOf (b.headD 0) ∈ s.openSectors n k.nextGang k ∧
        s.coresFit (sectorOf (b.headD 0)) b d.need = true) :
    Happens (.schedulerSelect n sector cores) s (s.placeGang n k d sector cores) := by
  have htwinsOk : (!d.redundant || (decide (sectorOf ((cores.drop d.groups).headD 0) ≠ sector) &&
      decide (sectorOf ((cores.drop d.groups).headD 0) ∈ s.openSectors n k.nextGang k) &&
      s.coresFit (sectorOf ((cores.drop d.groups).headD 0)) (cores.drop d.groups) d.need)) = true := by
    cases hr : d.redundant with
    | false => rfl
    | true =>
      obtain ⟨hother, htopen, htfit⟩ := htwins hr
      simp only [hother, htopen, htfit, ne_eq, not_false_eq_true, decide_true, Bool.and_true, Bool.or_true]
  simp only [Happens, exec_schedulerSelect, execSchedulerSelect, hk, hd, decide_eq_true hfirst, decide_eq_true hlen,
    decide_eq_true hopen, hfit, htwinsOk, Bool.and_true, if_true]
  rfl

theorem happens_reservationTimeout {c : Candidate} (hc : c ∈ s.candidatesOf n k) (hfit : s.candidateFits c = false)
    (hopen : s.openSectors n c.idx k ≠ []) :
    Happens (.reservationTimeout (n, c.idx)) s { s with reserve := addOnce (n, c.idx) s.reserve } := by
  have hstarving : ((s.candidatesOf n k).any fun e => decide (e.idx = c.idx) && !s.candidateFits e) = true :=
    List.any_eq_true.2 ⟨c, hc, by simp [hfit]⟩
  simp only [Happens, exec_reservationTimeout, execReservationTimeout, hk, hstarving, List.isEmpty_eq_false_iff.2 hopen,
    Bool.not_false, Bool.and_true, if_true]
  rfl

/-! ### Completion (R115) -/

theorem happens_completionActions {t : State} (hclosing : k.closing = true) (hstores : s.storesLeft n = false)
    (hrecord : s.signalRecord k = .ok t) :
    Happens (.completionActions n) s
      (((if k.irq then t.interrupt k.aqi (t.aqiOf k.aqi).link else t).trace n (s.unstated 0 % 192) 6 k.status.toNat).removeKernel
        n k) := by
  simp only [Happens, exec_completionActions, execCompletionActions, hk, hclosing, hstores, hrecord, Bool.not_true,
    Bool.false_eq_true, if_false]
  rfl

end

/-- Settles O43: a Posted kernel's descriptor is read and judged, its next gang is placed or reserves, and its end removes it. -/
theorem kernelEventsHappen : Obligations.KernelEventsHappen := by
  intro s n k hk
  refine ⟨fun hst pa pas hpages => ⟨?signal, fun hsig hclean => ⟨?malformed, ?pending, ?nofit⟩⟩, ?places, ?reserves, ?ends⟩
  case signal => exact happens_descriptorRead_signal hk hst hpages
  case malformed => exact happens_descriptorRead_malformed hk hst hpages hsig hclean
  case pending => exact happens_descriptorRead_pending hk hst hpages hsig hclean
  case nofit => exact happens_descriptorRead_nofit hk hst hpages hsig hclean
  case places => exact fun d sector cores => happens_schedulerSelect hk
  case reserves => exact fun c => happens_reservationTimeout hk
  case ends => exact fun hclosing hstores t => happens_completionActions hk hclosing hstores

end Sys2Proof.Machine
end

section
/-! SUPPORT. SPAN, TRAP, RESUME and ABORTG (10_span R160, 22_faults R391, R392). One lemma per instruction, and per case of its
rule, says what it leaves of the group, the warp and its handler. -/

namespace Sys2Proof.Machine

section
variable {s : State} {f : FmtS}

theorem exec_span : exec (.span f) s = execSpan f s := rfl

theorem exec_trap : exec (.trap f) s = execTrap f s := rfl

theorem exec_resumeF : exec (.resumeF f) s = resume s 0 fun s i h => s.resumeAt i.wid h.lanes h.pc := rfl

theorem exec_resumeS : exec (.resumeS f) s = resume s 1 fun s i _ => (s.leaveHandler i.wid).discard i.wid := rfl

theorem exec_resumeN : exec (.resumeN f) s = resume s 2 fun s i h => s.resumeAt i.wid h.lanes (nextPlace h) := rfl

theorem exec_abortg : exec (.abortg f) s = execAbortg f s := rfl

section
variable {w : WarpId} {x : Warp} {b : Bundle} (hi : Issuing s w x b)
include hi

/-- An instruction finds the record of the issuing warp as presented. -/
theorem warp?_issued_of_issuing : (s.issued w).warp? w = some x.presented := by
  obtain ⟨-, hwarp, -, -⟩ := hi
  exact State.warp?_issued hwarp

/-! ### Instructions that commit -/

section
variable {g : Group} (hcommit : CommitReady (s.issued w) w g x.presented)
include hcommit

theorem completes_span :
    Completes (.span f) s w x b 8 true
      (((s.issued w).committed w g x.presented b.mask (mkIss s w x b 8).fall).fallThrough (mkIss s w x b 8)) := by
  rw [Completes, exec_span, execSpan]
  refine issue_ok hi ?_
  simp only [mkIss_wid, mkIss_lanes, commit_ready hcommit]

section
variable (hpsn : (predOf x b.mask none f.k f.kn).psn = 0)
include hpsn

theorem completes_trap_idle (hact : (predOf x b.mask none f.k f.kn).act = 0) :
    Completes (.trap f) s w x b 8 true
      (((s.issued w).committed w g x.presented b.mask (mkIss s w x b 8).fall).fallThrough (mkIss s w x b 8)) := by
  rw [Completes, exec_trap, execTrap]
  refine issue_ok hi ?_
  simp only [mkIss_wid, mkIss_lanes, warp?_issued_of_issuing hi, predOf_issued, predPoison, hpsn, commit_ready hcommit, hact,
    ne_eq, not_true_eq_false, if_true, if_false]

/-- A TRAP with active lanes has committed when it raises SOFT_TRAP with its immediate as the detail. -/
theorem exec_trap_active (hact : (predOf x b.mask none f.k f.kn).act ≠ 0) :
    let i := mkIss s w x b 8
    exec (.trap f) s = .next ((((s.issued w).committed w g x.presented b.mask i.fall).charge w b.at_.pc 0).enterFault w b.at_
      i.next i.last b.mask ⟨.softTrap, (predOf x b.mask none f.k f.kn).act, 0, f.imm.toNat, false⟩).ticked := by
  rw [exec_trap, execTrap]
  refine issue_fault hi ?_ nofun nofun nofun
  simp only [mkIss_wid, mkIss_lanes, warp?_issued_of_issuing hi, predOf_issued, predPoison, hpsn, commit_ready hcommit, hact,
    ne_eq, not_true_eq_false, if_false]
  rfl

end

end

/-! ### Leaving the handler -/

/-- RESUME in a form that the handler permits does what the form says. -/
theorem resume_permitted {h : Handler} {bit : Nat} (hh : x.handler = some h) (hform : h.forms.getLsbD bit = true)
    (run : State → Iss → Handler → State) :
    resume s bit run = .next ((run (s.issued w) (mkIss s w x b 8) h).retire true (mkIss s w x b 8)) := by
  refine issue_ok hi ?_
  simp only [mkIss_wid, warp?_issued_of_issuing hi, Option.bind_some, Warp.handler_issued, hh, hform, if_true]

theorem completes_abortg :
    Completes (.abortg f) s w x b 8 true (((s.issued w).paySlot w b.at_.pc).abortWith w ((x.handler.map Handler.code).getD 0)
      b.at_.pc.toNat 0 0 b.mask false) := by
  rw [Completes, exec_abortg, execAbortg]
  refine issue_ok hi ?_
  simp only [mkIss_wid, mkIss_at, mkIss_lanes, warp?_issued_of_issuing hi, Option.bind_some, Warp.handler_issued]

end

end

/-- Settles O14: SPAN and TRAP commit, RESUME takes a permitted form, ABORTG ends the group. -/
theorem faultControlCompletes : Obligations.FaultControlCompletes := by
  intro s w x b f hi
  refine ⟨fun g hcommit => ⟨?span, ?idle, ?active⟩, fun h hh => ⟨?retry, ?discard, ?skip⟩, ?abort⟩
  case span => exact completes_span hi hcommit
  case idle => exact completes_trap_idle hi hcommit
  case active => exact exec_trap_active hi hcommit
  case retry => exact fun hform => exec_resumeF.trans (resume_permitted hi hh hform _)
  case discard => exact fun hform => exec_resumeS.trans (resume_permitted hi hh hform _)
  case skip => exact fun hform => exec_resumeN.trans (resume_permitted hi hh hform _)
  case abort => exact completes_abortg hi

end Sys2Proof.Machine
end

section
/-! SUPPORT. ALLOC and FREEB (08_group R123 to R126): the status or base that gD takes, and the extent bound or marked. -/

namespace Sys2Proof.Machine

/-- The group `g` of warp `w` takes a fresh extent at the base that ALLOC found, if it found one (R124). -/
def State.bindFound (s : State) (w : WarpId) (g : Group) (sp : Space) (n : Nat) : Option Nat → State
  | none => s
  | some base => s.setGroup w.g (g.bindExtent w.w sp base n)

/-- The extent at a base, marked to be freed at the next commit of warp `w` (R125). -/
def Group.markExtent (g : Group) (w : Nat) (sp : Space) (base : Nat) : Group :=
  { g with extents := g.extents.map fun e => if e.freeable sp base then { e with markBy := some w } else e }

section
variable {s : State} {w : WarpId} {x : Warp} {b : Bundle} {f : FmtS} {g : Group}

theorem exec_alloc : exec (.alloc f) s = execAlloc f s := rfl

theorem exec_freeb : exec (.freeb f) s = execFreeb f s := rfl

variable (hi : Issuing s w x b) (hregs : SysReady x [f.sa.toNat] [f.d.toNat]) (hgroup : (s.issued w).group? w.g = some g)
include hi hregs hgroup

theorem completes_alloc :
    let a := (s.issued w).allocStatus g (((s.descOf w).map fun d => d.res (spcOf f.imm)).getD 0) (x.gv f.sa).toNat (spcOf f.imm)
    Completes (.alloc f) s w x b 8 false
      (((s.issued w).bindFound w g (spcOf f.imm) (x.gv f.sa).toNat a.2).putG w f.d.toNat a.1) := by
  have hdesc : (s.issued w).descOf w = s.descOf w := State.descOf_updWarp s w w _
  rw [Completes, exec_alloc, execAlloc]
  refine sysFrame_ready hi hregs ?_
  simp only [mkIss_wid, Warp.gv_issued, hgroup, hdesc]
  rfl

theorem completes_freeb_marks
    (hnamed : (g.extents.any fun e => e.freeable (spcOf f.imm) (x.gv f.sa).toNat) = true) :
    Completes (.freeb f) s w x b 8 false
      (((s.issued w).setGroup w.g (g.markExtent w.w (spcOf f.imm) (x.gv f.sa).toNat)).putG w f.d.toNat 0) := by
  rw [Completes, exec_freeb, execFreeb]
  refine sysFrame_ready hi hregs ?_
  simp only [mkIss_wid, Warp.gv_issued, hgroup, hnamed, if_true]
  rfl

theorem completes_freeb_unnamed
    (hnone : (g.extents.any fun e => e.freeable (spcOf f.imm) (x.gv f.sa).toNat) = false) :
    Completes (.freeb f) s w x b 8 false ((s.issued w).putG w f.d.toNat 1) := by
  rw [Completes, exec_freeb, execFreeb]
  refine sysFrame_ready hi hregs ?_
  simp only [mkIss_wid, Warp.gv_issued, hgroup, hnone, Bool.false_eq_true, if_false]

end

/-- Settles O15: ALLOC gives a status or the base of what it binds, FREEB marks the extent it names or answers 1. -/
theorem extentsComplete : Obligations.ExtentsComplete := by
  intro s w x b f g hi hregs hgroup
  refine ⟨?alloc, ?marks, ?unnamed⟩
  case alloc => exact completes_alloc hi hregs hgroup
  case marks => exact completes_freeb_marks hi hregs hgroup
  case unnamed => exact completes_freeb_unnamed hi hregs hgroup

end Sys2Proof.Machine
end

section
/-! SUPPORT. The events of gangs (08_group R121, R127 to R130): pre-emption, the end of a save, a restore and its end. One lemma
per event and per case of its rule says what the state becomes. -/

namespace Sys2Proof.Machine

/-- The groups of a gang that are Resident: those that a pre-emption discards. -/
def State.residentOf (s : State) (n : Nat) : List Nat :=
  (s.gangGroups n).filter fun m => ((s.group? m).map fun (x : Group) => decide (x.st = .resident)).getD false

/-- A group becomes Discarding and leaves its core's engine (R121, R316). -/
def State.discardGroup (s : State) (m : Nat) : State :=
  (s.updGroup m fun x => { x with st := .discarding }).endLease (((s.group? m).map Group.core).getD 0) m .discard

/-- The gang is Saved, and so is every group of it that was Discarding (R127). -/
def State.saveGang (s : State) (n : Nat) (g : Gang) (c : Nat) : State :=
  (s.gangGroups n).foldl (fun t m => t.saveGroup c m) (s.setGang n { g with st := .saved })

/-- Whether a group is Restoring from a slot that fails translation or holds poison (R121, R130). -/
def State.slotLost (s : State) (c m : Nat) : Bool :=
  match (s.group? m).bind fun x => if x.st = .restoring then x.slot else none with
  | none => false
  | some i => !s.slotGood c i

section
variable {s : State} {n : Nat} {g : Gang} {k : Kernel}

theorem exec_preemption (n : Nat) : exec (.preemption n) s = execPreemption n s := rfl

theorem exec_saveComplete (n : Nat) : exec (.saveComplete n) s = execSaveComplete n s := rfl

theorem exec_restore (n sector : Nat) (cores : List Nat) :
    exec (.restore n sector cores) s = execRestore n sector cores s := rfl

theorem exec_restoreComplete (n : Nat) : exec (.restoreComplete n) s = execRestoreComplete n s := rfl

/-- A group whose slot can be read, or that is not Restoring from one, does not end its gang's restore. -/
theorem State.slotLost_eq_false {c m : Nat}
    (hgood : ∀ x, s.group? m = some x → x.st = .restoring → ∀ i, x.slot = some i → s.slotGood c i = true) :
    s.slotLost c m = false := by
  unfold State.slotLost
  cases hslot : (s.group? m).bind fun x => if x.st = .restoring then x.slot else none with
  | none => rfl
  | some i =>
    obtain ⟨x, hx, hi⟩ := Option.bind_eq_some_iff.1 hslot
    obtain ⟨hst, hi⟩ := Option.ite_none_right_eq_some.1 hi
    simp only [hgood x hx hst i hi, Bool.not_true]

variable (hgang : s.gang? n = some g) (hkernel : s.kernel? g.kernel = some k)
include hgang hkernel

theorem happens_preemption (hmay : s.mayPreempt n g k = true) :
    Happens (.preemption n) s
      (((s.residentOf n).foldl State.discardGroup (s.setGang n { g with st := .discarding })).addDue (.saveComplete n)) := by
  simp only [Happens, exec_preemption, execPreemption, hgang, hkernel, hmay, Bool.not_true, Bool.false_eq_true, if_false]
  rfl

/-! ### The end of a save (R127 to R129) -/

section
variable (hst : g.st = .discarding)
  (hidle : ((s.gangGroups n).any fun m => ((s.group? m).map fun (x : Group) =>
    decide (x.st = .discarding) && s.saveBusy m x).getD false) = false)
include hst hidle

/-- A gang none of whose groups has anything left to finish is saved, and the state of its context decides what follows. -/
theorem exec_saveComplete_of_idle :
    let t := s.saveGang n g k.ctx
    exec (.saveComplete n) s =
      if (t.ctxOf k.ctx).st = .quiescing then event ((t.stopOne .quiesced false g.kernel).ctxCheck k.ctx false)
      else event ((t.ctxCheck k.ctx true).rouse k.ctx) := by
  simp only [exec_saveComplete, execSaveComplete, hgang, hkernel, hst, hidle, Option.map_some, Option.getD_some, ne_eq,
    not_true_eq_false, Bool.false_eq_true, if_false]
  rfl

theorem happens_saveComplete (hctx : ((s.saveGang n g k.ctx).ctxOf k.ctx).st ≠ .quiescing) :
    Happens (.saveComplete n) s (((s.saveGang n g k.ctx).ctxCheck k.ctx true).rouse k.ctx) :=
  (exec_saveComplete_of_idle hgang hkernel hst hidle).trans (if_neg hctx)

theorem happens_saveComplete_quiescing (hctx : ((s.saveGang n g k.ctx).ctxOf k.ctx).st = .quiescing) :
    Happens (.saveComplete n) s (((s.saveGang n g k.ctx).stopOne .quiesced false g.kernel).ctxCheck k.ctx false) :=
  (exec_saveComplete_of_idle hgang hkernel hst hidle).trans (if_pos hctx)

end

/-! ### Restoring (R121, R130) -/

/-- The scheduler readmits a gang whose groups fit on the cores, the twins' sector being another than the primaries' (R169). -/
theorem happens_restore {sector : Nat} {cores : List Nat} :
    let ps := s.savedOf g.groups
    let ts := s.savedOf g.twins
    let a := ps.zip (cores.take ps.length)
    let b := ts.zip (cores.drop ps.length)
    let twins := sectorOf ((cores.drop ps.length).headD 0)
    s.firstFit = some ⟨g.kernel, g.idx, some n⟩ →
    cores.length = ps.length + ts.length → sector ∈ s.openSectors g.kernel g.idx k → s.restoreFits sector a = true →
    (g.l2w = true → sector = g.sector) →
    (ts = [] ∨ twins ≠ sector ∧ twins ∈ s.openSectors g.kernel g.idx k ∧ s.restoreFits twins b = true) →
    let t := (a ++ b).foldl (fun (t : State) e => t.rebind e.1 e.2) (s.setGang n { g with st := .restoring, sector := sector })
    Happens (.restore n sector cores) s ({ t.setCtx k.ctx { t.ctxOf k.ctx with st := .running } with
      reserve := t.reserve.filter (· ≠ (g.kernel, g.idx)) }.addDue (.restoreComplete n)) := by
  intro ps ts a b twins hfirst hlen hopen hfit hl2w htwins
  have hback : (!g.l2w || decide (sector = g.sector)) = true := by
    cases hg : g.l2w with
    | false => rfl
    | true => exact decide_eq_true (hl2w hg)
  have htwinsOk : (ts.isEmpty || (decide (twins ≠ sector) && decide (twins ∈ s.openSectors g.kernel g.idx k) &&
      s.restoreFits twins b)) = true := by simpa [and_assoc] using htwins
  rw [Happens, exec_restore, execRestore, hgang]
  dsimp only
  rw [hkernel]
  dsimp only
  rw [hback, htwinsOk, hfit, decide_eq_true hfirst, decide_eq_true hlen, decide_eq_true hopen]
  rfl

theorem happens_restoreComplete (hst : g.st = .restoring)
    (hslots : ∀ m ∈ s.gangGroups n, ∀ x, s.group? m = some x → x.st = .restoring → ∀ i, x.slot = some i →
      s.slotGood k.ctx i = true) :
    Happens (.restoreComplete n) s
      ((s.gangGroups n).foldl (fun (t : State) m => t.loadGroup k.ctx m) (s.setGang n { g with st := .resident })) := by
  have hgood : ¬((s.gangGroups n).any fun m => s.slotLost k.ctx m) = true :=
    Bool.eq_false_iff.1 (List.any_eq_false.2 fun m hm => Bool.eq_false_iff.1 (State.slotLost_eq_false (hslots m hm)))
  simp only [Happens, exec_restoreComplete, execRestoreComplete, hgang, hkernel, hst, Option.map_some, Option.getD_some, ne_eq,
    not_true_eq_false, if_false]
  exact if_neg hgood

end

/-- Settles O44: a pre-emption discards the gang, its save, restore and their ends follow R121 and R127 to R130. -/
theorem gangEventsHappen : Obligations.GangEventsHappen := by
  intro s n g hgang k hkernel
  refine ⟨?discards, fun hst hidle => ⟨?saves, ?quiesces⟩, fun sector cores => ?restores, ?resident⟩
  case discards => exact happens_preemption hgang hkernel
  case saves => exact happens_saveComplete hgang hkernel hst hidle
  case quiesces => exact happens_saveComplete_quiescing hgang hkernel hst hidle
  case restores => exact happens_restore hgang hkernel
  case resident => exact happens_restoreComplete hgang hkernel

end Sys2Proof.Machine
end

section
/-! SUPPORT. The events of warps (09_warp R133, R136, 10_span R168, R171): a bundle is formed, a pipeline error is met, the two
copies of a redundant warp are compared. One lemma per case of each rule says what the state becomes. -/

namespace Sys2Proof.Machine

/-- The two copies of a warp with what came of their comparison. -/
def State.meetBoth (s : State) (w v : WarpId) (p q : Meet) : State :=
  (s.updWarp w fun z => { z with meet := p }).updWarp v fun z => { z with meet := q }

section
variable {s : State} {w : WarpId} {x : Warp}

theorem exec_bundleFormation (w : WarpId) : exec (.bundleFormation w) s = execBundleFormation w s := rfl

theorem exec_pipelineError (w : WarpId) (lanes : LaneMask) (control : Bool) :
    exec (.pipelineError w lanes control) s = execPipelineError w lanes control s := rfl

theorem exec_redundancyCompare (w : WarpId) : exec (.redundancyCompare w) s = execRedundancyCompare w s := rfl

variable (hwarp : s.warp? w = some x)
include hwarp

section
variable {g : Group} (hgroup : s.group? w.g = some g) (hst : g.st = .resident)
include hgroup hst

theorem happens_bundleFormation {m : LaneMask} {p : Place} (hnone : x.bundle = none) (hhead : x.nextHead = some (m, p)) :
    Happens (.bundleFormation w) s (s.formBundle w x m p) := by
  have hforms : ¬(g.st ≠ .resident ∨ x.bundle.isSome = true) := by simp [hst, hnone]
  simp only [Happens, exec_bundleFormation, execBundleFormation, hgroup, hwarp, if_neg hforms, hhead]
  rfl

/-! ### Pipeline errors (R133, R168) -/

section
variable (hlive : x.retired = false) (lanes : LaneMask)
include hlive

/-- What a pipeline error does to a warp that has not retired, in the order of the model's cases. -/
theorem exec_pipelineError_of_live (control : Bool) :
    exec (.pipelineError w lanes control) s =
      if x.committing then event (s.addDue (.pipelineError w lanes control))
      else if control then event (s.abortWith w FaultCode.poison.num x.here.toNat 0 0 lanes false)
      else if !x.pipeErr then event ((s.discard w).updWarp w fun y => { y with pipeErr := true })
      else event ((s.lanternWarp w 4 0 0 [x.here.toNat, lanes.toNat]).updWarp w fun y =>
        { y with pipeFault := y.pipeFault ||| lanes }) := by
  have hmeets : ¬(g.st ≠ .resident ∨ x.retired = true) := by simp [hst, hlive]
  simp only [exec_pipelineError, execPipelineError, hgroup, hwarp, if_neg hmeets]

theorem happens_pipelineError_committing (hcommit : x.committing = true) (control : Bool) :
    Happens (.pipelineError w lanes control) s (s.addDue (.pipelineError w lanes control)) := by
  rw [Happens, exec_pipelineError_of_live hwarp hgroup hst hlive, hcommit]
  rfl

variable (hcommit : x.committing = false)
include hcommit

theorem happens_pipelineError_control :
    Happens (.pipelineError w lanes true) s (s.abortWith w FaultCode.poison.num x.here.toNat 0 0 lanes false) := by
  rw [Happens, exec_pipelineError_of_live hwarp hgroup hst hlive, hcommit]
  rfl

theorem happens_pipelineError_first (herr : x.pipeErr = false) :
    Happens (.pipelineError w lanes false) s ((s.discard w).updWarp w fun y => { y with pipeErr := true }) := by
  rw [Happens, exec_pipelineError_of_live hwarp hgroup hst hlive, hcommit, herr]
  rfl

theorem happens_pipelineError_again (herr : x.pipeErr = true) :
    Happens (.pipelineError w lanes false) s ((s.lanternWarp w 4 0 0 [x.here.toNat, lanes.toNat]).updWarp w fun y =>
      { y with pipeFault := y.pipeFault ||| lanes }) := by
  rw [Happens, exec_pipelineError_of_live hwarp hgroup hst hlive, hcommit, herr]
  rfl

end

end

/-! ### Redundant copies (R171) -/

section
variable {h : Nat} {y : Warp} {a b : DWord} (htwin : s.twinOf w.g = some h) (hother : s.warp? ⟨h, w.w⟩ = some y)
  (hmeet : x.meet = .waiting a) (hmeet' : y.meet = .waiting b) (hcommits : x.commits = y.commits)
include htwin hother hmeet hmeet' hcommits

/-- What comes of two copies that wait at one commit. -/
theorem exec_redundancyCompare_of_waiting :
    exec (.redundancyCompare w) s =
      if a = b then event (s.meetBoth w ⟨h, w.w⟩ (.matched a) (.matched a))
      else if x.redErr && y.redErr then
        event (State.meetBoth
          (s.lanternWarp w 3 0 FaultCode.redundancy.num [x.here.toNat, a.toNat, b.toNat, s.coreOf w, s.coreOf ⟨h, w.w⟩])
          w ⟨h, w.w⟩ (.failed b) (.failed a))
      else event (s.retryBoth w ⟨h, w.w⟩) := by
  simp only [exec_redundancyCompare, execRedundancyCompare, htwin, hwarp, hother, hmeet, hmeet', if_neg (not_not_intro hcommits)]
  rfl

theorem happens_redundancyCompare_match (heq : a = b) :
    Happens (.redundancyCompare w) s (s.meetBoth w ⟨h, w.w⟩ (.matched a) (.matched a)) :=
  (exec_redundancyCompare_of_waiting hwarp htwin hother hmeet hmeet' hcommits).trans (if_pos heq)

section
variable (hne : a ≠ b)
include hne

theorem happens_redundancyCompare_retry (herr : (x.redErr && y.redErr) = false) :
    Happens (.redundancyCompare w) s (s.retryBoth w ⟨h, w.w⟩) := by
  rw [Happens, exec_redundancyCompare_of_waiting hwarp htwin hother hmeet hmeet' hcommits, if_neg hne, herr]
  rfl

theorem happens_redundancyCompare_fail (herr : (x.redErr && y.redErr) = true) :
    Happens (.redundancyCompare w) s (State.meetBoth
      (s.lanternWarp w 3 0 FaultCode.redundancy.num [x.here.toNat, a.toNat, b.toNat, s.coreOf w, s.coreOf ⟨h, w.w⟩])
      w ⟨h, w.w⟩ (.failed b) (.failed a)) := by
  rw [Happens, exec_redundancyCompare_of_waiting hwarp htwin hother hmeet hmeet' hcommits, if_neg hne, herr]
  rfl

end

end

end

/-- Settles O45: a bundle is formed, an error waits, kills, discards or is latched, and two copies match, retry or fail. -/
theorem warpEventsHappen : Obligations.WarpEventsHappen := by
  intro s w g x hgroup hwarp
  refine ⟨fun m p hst => ?forms, fun lanes hst hlive => ⟨?waits, ?kills, ?discards, ?latched⟩,
    fun h y a b htwin hother hmeet hmeet' hcommits => ⟨?agree, ?retry, ?fail⟩⟩
  case forms => exact happens_bundleFormation hwarp hgroup hst
  case waits => exact happens_pipelineError_committing hwarp hgroup hst hlive lanes
  case kills => exact happens_pipelineError_control hwarp hgroup hst hlive lanes
  case discards => exact happens_pipelineError_first hwarp hgroup hst hlive lanes
  case latched => exact happens_pipelineError_again hwarp hgroup hst hlive lanes
  case agree => exact happens_redundancyCompare_match hwarp htwin hother hmeet hmeet' hcommits
  case retry => exact happens_redundancyCompare_retry hwarp htwin hother hmeet hmeet' hcommits
  case fail => exact happens_redundancyCompare_fail hwarp htwin hother hmeet hmeet' hcommits

end Sys2Proof.Machine
end

section
/-! SUPPORT. The cross-lane instructions (11_integer R197 to R202): each runs the vector frame, in which PART confines every
lane to its own segment. -/

namespace Sys2Proof.Machine

/-- Settles O6: each cross-lane instruction runs the vector frame with its own lane function, VOTE once no input bit is
poisoned. -/
theorem crossLaneCompletes : Obligations.CrossLaneCompletes := by
  intro s w x b f hi done part
  refine ⟨?shuffle, fun d h => ?vote, fun fn h => ⟨?reduce, fun excl => ?scan⟩, ?compare⟩
  case shuffle => exact fun mode h => (exec_shfl mode).trans (vecFrame_ready hi h rfl)
  case vote =>
    intro v holds hpsn
    refine ⟨?any_all, ?ballot⟩
    case any_all =>
      rintro rfl
      exact ⟨exec_voteAny.trans (voteFrame_ready hi h hpsn), exec_voteAll.trans (voteFrame_ready hi h hpsn)⟩
    case ballot =>
      rintro rfl
      exact exec_voteBallot.trans (voteFrame_ready hi h hpsn)
  case reduce => exact (exec_redl fn).trans (vecFrame_ready hi h rfl)
  case scan => exact (exec_scanl fn excl).trans (vecFrame_ready hi h rfl)
  case compare => exact fun mode h => (exec_matchLanes mode).trans (vecFrame_ready hi h rfl)

end Sys2Proof.Machine
end

section
/-! SUPPORT. NOP, LPAD, YIELD and BRK (09_warp R152, R154), and the instructions that end or group threads: EXIT, CDECL, CSIGN and
PARTSET (R143, R145, R153, R155). One lemma per instruction, and per case of its rule, says what it leaves. -/

namespace Sys2Proof.Machine

section
variable {s : State} {f : FmtS}

theorem exec_nop : exec (.nop f) s = execNop f s := rfl

theorem exec_lpad : exec (.lpad f) s = execLpad f s := rfl

theorem exec_yield : exec (.yield f) s = execYield f s := rfl

theorem exec_brk : exec (.brk f) s = execBrk f s := rfl

theorem exec_exit : exec (.exit f) s = execExit f s := rfl

theorem exec_cdecl : exec (.cdecl f) s = execCdecl f s := rfl

theorem exec_csign : exec (.csign f) s = execCsign f s := rfl

theorem exec_partset : exec (.partset f) s = execPartset f s := rfl

theorem State.descOf_issued (s : State) (w v : WarpId) : (s.issued w).descOf v = s.descOf v := State.descOf_updWarp s w v _

/-- A predicate of which no bit of the bundle is poisoned stops no instruction (R176). -/
theorem predPoison_ok {p : Pred} (h : p.psn = 0) : predPoison s p = .ok () := if_neg (not_not_intro h)

/-- Outside handler mode no instruction is forbidden (R384). -/
theorem notInHandler_ok {w : WarpId} {x : Warp} {b : Bundle} (h : x.handler = none) (t : State) (n : Nat) :
    notInHandler t (mkIss s w x b n) = .ok () := by
  rw [notInHandler, mkIss_handler, h]
  rfl

section
variable {w : WarpId} {x : Warp} {b : Bundle} (hi : Issuing s w x b)
include hi

/-! ### Instructions that need nothing of the state -/

theorem completes_nop : Completes (.nop f) s w x b 8 false (s.issued w) := by
  rw [Completes, exec_nop, execNop]
  exact issue_ok hi rfl

theorem completes_lpad : Completes (.lpad f) s w x b 8 false (s.issued w) := by
  rw [Completes, exec_lpad, execLpad]
  exact issue_ok hi rfl

theorem completes_yield :
    Completes (.yield f) s w x b 8 false ((s.issued w).updWarp w fun y => { y with age := 0, yield := 8 }) := by
  rw [Completes, exec_yield, execYield]
  exact issue_ok hi rfl

/-! ### Breakpoints (R154) -/

section
variable (hpsn : (predOf x b.mask none f.k f.kn).psn = 0)
include hpsn

theorem completes_brk (hoff : ((s.descOf w).map Desc.brken).getD false = false ∨ (predOf x b.mask none f.k f.kn).act = 0) :
    Completes (.brk f) s w x b 8 false (s.issued w) := by
  have hpasses : ¬ (((s.descOf w).map Desc.brken).getD false && decide ((predOf x b.mask none f.k f.kn).act ≠ 0)) = true := by
    rcases hoff with h | h <;> simp [h]
  rw [Completes, exec_brk, execBrk]
  refine issue_ok hi ?_
  simp only [mkIss_wid, mkIss_lanes, warp?_issued_of_issuing hi, predOf_issued, predPoison_ok hpsn, State.descOf_issued]
  exact if_neg hpasses

/-- Bit 31 of the detail tells BRK from TRAP (R387). -/
theorem exec_brk_enabled (hon : ((s.descOf w).map Desc.brken).getD false = true)
    (hact : (predOf x b.mask none f.k f.kn).act ≠ 0) :
    let i := mkIss s w x b 8
    exec (.brk f) s = .next (((s.issued w).charge w b.at_.pc 0).enterFault w b.at_ i.next i.last b.mask
      ⟨.softTrap, (predOf x b.mask none f.k f.kn).act, 0, f.imm.toNat + 2 ^ 31, false⟩).ticked := by
  have htraps : (((s.descOf w).map Desc.brken).getD false && decide ((predOf x b.mask none f.k f.kn).act ≠ 0)) = true := by
    rw [hon, decide_eq_true hact]
    rfl
  rw [exec_brk, execBrk]
  refine issue_fault hi ?_ nofun nofun nofun
  simp only [mkIss_wid, mkIss_lanes, warp?_issued_of_issuing hi, predOf_issued, predPoison_ok hpsn, State.descOf_issued]
  exact if_pos htraps

end

/-! ### EXIT, CDECL, CSIGN and PARTSET -/

section
variable (hh : x.handler = none)
include hh

theorem completes_exit (hpsn : (predOf x b.mask none f.k f.kn).psn = 0) {g : Group}
    (hcommit : CommitReady (s.issued w) w g x.presented) :
    Completes (.exit f) s w x b 8 true
      (((((s.issued w).committed w g x.presented b.mask (mkIss s w x b 8).fall).paySlot w b.at_.pc).fallThrough
        (mkIss s w x b 8)).finishThreads w (predOf x b.mask none f.k f.kn).act) := by
  rw [Completes, exec_exit, execExit]
  refine issue_ok hi ?_
  simp only [mkIss_wid, mkIss_lanes, mkIss_at, warp?_issued_of_issuing hi, notInHandler_ok hh, predOf_issued,
    predPoison_ok hpsn, commit_ready hcommit]

theorem completes_cdecl (hpsn : (x.kreg f.sa.toNat).p &&& b.mask = 0) :
    Completes (.cdecl f) s w x b 8 false ((s.issued w).setWarp w (x.presented.declare f.d.toNat
      ((x.kreg f.sa.toNat).m &&& ~~~(x.kreg f.sa.toNat).p &&& ~~~x.finished))) := by
  rw [Completes, exec_cdecl, execCdecl]
  refine issue_ok hi ?_
  simp only [mkIss_wid, mkIss_lanes, warp?_issued_of_issuing hi, notInHandler_ok hh, Warp.kreg_issued, Warp.finished_issued,
    hpsn, ne_eq, not_true_eq_false, if_false]

theorem completes_csign (hpsn : (predOf x b.mask none f.k f.kn).psn = 0) :
    Completes (.csign f) s w x b 8 false ((s.issued w).setWarp w (x.presented.sign f.d.toNat
      ((predOf x b.mask none f.k f.kn).act &&& (vget x.c f.d.toNat ⟨0, 0⟩).d) (mkIss s w x b 8).after)) := by
  rw [Completes, exec_csign, execCsign]
  refine issue_ok hi ?_
  simp only [mkIss_wid, mkIss_lanes, warp?_issued_of_issuing hi, notInHandler_ok hh, predOf_issued, predPoison_ok hpsn]
  rfl

theorem completes_partset (hwhole : ~~~x.finished &&& ~~~b.mask = 0) :
    Completes (.partset f) s w x b 8 false ((s.issued w).setWarp w { x.presented with part := bitsAt f.imm 0 6 }) := by
  rw [Completes, exec_partset, execPartset]
  refine issue_ok hi ?_
  simp only [mkIss_wid, mkIss_lanes, warp?_issued_of_issuing hi, notInHandler_ok hh, Warp.finished_issued, hwhole, ne_eq,
    not_true_eq_false, if_false]

end

end

end

/-- Settles O9: NOP, LPAD and YIELD complete at once, BRK where it is off or no lane is active, and else it traps. -/
theorem plainInstructionsComplete : Obligations.PlainInstructionsComplete := by
  intro s w x b f hi
  refine ⟨?nop, ?lpad, ?yield, ?passes, ?traps⟩
  case nop => exact completes_nop hi
  case lpad => exact completes_lpad hi
  case yield => exact completes_yield hi
  case passes => exact completes_brk hi
  case traps => exact exec_brk_enabled hi

/-- Settles O10: EXIT commits, counts its slot and finishes its threads; CDECL, CSIGN and PARTSET change the warp's record. -/
theorem threadControlCompletes : Obligations.ThreadControlCompletes := by
  intro s w x b f hi hh
  refine ⟨?exit, ?cdecl, ?csign, ?partset⟩
  case exit => exact fun hpsn _ => completes_exit hi hh hpsn
  case cdecl => exact completes_cdecl hi hh
  case csign => exact completes_csign hi hh
  case partset => exact completes_partset hi hh

end Sys2Proof.Machine
end

section
/-! SUPPORT. MOVSR, MOVTS and SETX (09_warp R156 to R159): what a special register gives to the g or v registers, and what a
write of one that is RW leaves in the warp's record. -/

namespace Sys2Proof.Machine

/-- The record after a write of a special register that is RW (R157), by the register's number. -/
def Warp.putSpecial (x : Warp) (v : DWord) : Nat → Warp
  | 12 => { x with fstat := bitsAt v 0 6 }
  | 13 => { x with srseed := v }
  | 14 => x.setAmax 0 (loWord v)
  | 15 => x.setAmax 1 (loWord v)
  | 16 => x.setAmax 2 (loWord v)
  | 17 => x.setAmax 3 (loWord v)
  | 18 => { x with amaxnan := bitsAt v 0 4 }
  | 21 => { x with cstk := v &&& 0x01FFFFFFFFFFF0FF#64 }
  | _ => x

/-- The vector result of MOVSR: the special register of each active lane goes to the `cnt` registers from `r`. -/
def Warp.laneSpecial (y : Warp) (lanes act : LaneMask) (r cnt : Nat) : Vx :=
  { w := y, lanes := lanes, act := act, z := false, rm := .rne, ty := .b32, d := .v r cnt, a := .none, b := .none, c := .none }

theorem Warp.putSpecial_amax (x : Warp) (v : DWord) {n : Nat} (hn : 14 ≤ n ∧ n ≤ 17) :
    x.putSpecial v n = x.setAmax (n - 14) (loWord v) := by
  obtain ⟨hlow, hhigh⟩ := hn
  have hcases : n = 14 ∨ n = 15 ∨ n = 16 ∨ n = 17 := by omega
  rcases hcases with rfl | rfl | rfl | rfl <;> rfl

/-- The numbers of the special registers that are RW (R157). -/
theorem srWritable_iff {n : Nat} :
    srWritable n = true ↔ n = 21 ∨ n = 12 ∨ n = 13 ∨ n = 14 ∨ n = 15 ∨ n = 16 ∨ n = 17 ∨ n = 18 := by
  simp only [srWritable, Bool.or_eq_true, decide_eq_true_eq]
  omega

/-- A full register does not block. -/
theorem Rs.empty?_v_of_full {x : Warp} {r n : Nat} (h : ∀ j < n, x.vFull (r + j) = true) : (Rs.v r n).empty? x = Option.none := by
  simp only [Rs.empty?, Option.map_eq_none_iff, List.find?_eq_none, List.mem_range, Bool.not_eq_true', Bool.not_eq_false]
  exact h

section
variable {s : State}

theorem exec_movsr {f : FmtS} : exec (.movsr f) s = execMovsr f s := rfl

theorem exec_movsrVector {f : FmtS} : exec (.movsrVector f) s = execMovsrVector f s := rfl

theorem exec_movts {f : FmtS} : exec (.movts f) s = execMovts f s := rfl

theorem exec_setx {f : FmtI} : exec (.setx f) s = execSetx f s := rfl

section
variable {w : WarpId} {x : Warp} {b : Bundle} (hi : Issuing s w x b)
include hi

theorem completes_movsr {f : FmtS} (hregs : SysReady x [] [f.d.toNat])
    (hfree : srWaits (s.issued w) (mkIss s w x b 8) x.presented (srNum f.imm) = false) :
    Completes (.movsr f) s w x b 8 false ((s.issued w).putG w f.d.toNat
      ((s.issued w).special (mkIss s w x b 8) x.presented (srNum f.imm) 0)) := by
  rw [Completes, exec_movsr, execMovsr]
  refine sysFrame_ready hi hregs ?_
  simp only [hfree, Bool.false_eq_true, if_false, mkIss_wid]

theorem completes_movsrVector {f : FmtS} {r cnt : Nat} (hcnt : (if srWide (srNum f.imm) then 2 else 1) = cnt)
    (hreg : regV (s.allotOf w) cnt (srWide (srNum f.imm)) f.d.toNat none = .ok r) (hfull : ∀ j < cnt, x.vFull (r + j) = true)
    (hpsn : (predOf x b.mask none f.k f.kn).psn = 0)
    (hfree : srWaits (s.issued w) (mkIss s w x b 8) x.presented (srNum f.imm) = false) :
    Completes (.movsrVector f) s w x b 8 false ((s.issued w).setWarp w
      ((x.presented.laneSpecial b.mask (predOf x b.mask none f.k f.kn).act r cnt).write
        fun L => ((s.issued w).special (mkIss s w x b 8) x.presented (srNum f.imm) L, false))) := by
  rw [Completes, exec_movsrVector, execMovsrVector]
  refine issue_ok hi ?_
  simp only [mkIss_wid, mkIss_lanes, warp?_issued_of_issuing hi, State.allotOf_issued, predOf_issued, hcnt, hreg, waitFull,
    Rs.empty?_issued, Rs.empty?_v_of_full hfull, predPoison_ok hpsn, hfree, Bool.false_eq_true, if_false]
  rfl

/-- A write of CSTK asks that no thread's stack reaches into the spill area (R151). -/
theorem completes_movts {f : FmtS} (hw : srWritable (srNum f.imm) = true) (hregs : SysReady x [f.sa.toNat] [])
    (hfree : srWaits (s.issued w) (mkIss s w x b 8) x.presented (srNum f.imm) = false)
    (hdepth : srNum f.imm = 21 → ∀ L < 32, (x.thread L).depth ≤ 16) :
    Completes (.movts f) s w x b 8 false ((s.issued w).setWarp w (x.presented.putSpecial (x.gv f.sa) (srNum f.imm))) := by
  rw [Completes, exec_movts, execMovts]
  refine sysFrame_ready hi hregs ?_
  simp only [hfree, Bool.false_eq_true, if_false, mkIss_wid, Warp.gv_issued]
  rcases srWritable_iff.1 hw with hn | hn | hn | hn | hn | hn | hn | hn
  · have hshallow : ¬ ((lanesOf allLanes).any fun L => decide (16 < (x.presented.thread L).depth)) = true := by
      simp only [List.any_eq_true, decide_eq_true_eq, not_exists, not_and, Nat.not_lt]
      exact fun L hL => hdepth hn L (inMask_lt (mem_lanesOf.1 hL))
    simp only [hn, if_neg hshallow]
    rfl
  all_goals
    rw [hn]
    rfl

theorem completes_setx {f : FmtI} (hregs : SysReady x [f.sa.toNat] []) :
    Completes (.setx f) s w x b 8 false ((s.issued w).setWarp w
      { x.presented with x := vset x.x f.d.toNat ((x.gv f.sa + f.imm.signExtend 64).setWidth 11) }) :=
  exec_setx.trans (sysFrame_ready hi hregs rfl)

end

end

/-- Settles O11: MOVSR gives the register's value, MOVTS leaves the record that `Warp.putSpecial` names, SETX an offset. -/
theorem specialRegistersComplete : Obligations.SpecialRegistersComplete := by
  intro s w x b hi
  refine ⟨?movsr, ?vector, ?movts, ?setx⟩
  case movsr => exact fun _ _ _ hregs hfree => completes_movsr hi hregs hfree
  case vector => exact fun _ _ _ hreg hfull hpsn hfree => completes_movsrVector hi rfl hreg hfull hpsn hfree
  case movts =>
    intro f n v hw hregs hfree hdepth
    refine ⟨x.presented.putSpecial v n, completes_movts hi hw hregs hfree hdepth, ?fstat, ?seed, ?amax, ?nan, ?cstk⟩
    case fstat => exact fun hn => hn ▸ rfl
    case seed => exact fun hn => hn ▸ rfl
    case amax => exact Warp.putSpecial_amax _ _
    case nan => exact fun hn => hn ▸ rfl
    case cstk => exact fun hn => hn ▸ rfl
  case setx => exact fun _ hregs => completes_setx hi hregs

end Sys2Proof.Machine
end

section
/-! SUPPORT. BRA and JTB, CALL, CALLJ and RET (09_warp R149 to R151): the operands that the branch frame asks for, and where the
lanes that take the transfer go. -/

namespace Sys2Proof.Machine

/-! ### What a read of each lane finds -/

/-- The words read at the places of the lanes. -/
def State.placeWords (t : State) (i : Iss) (y : Warp) (n : Nat) (pl : List (Nat × Nat)) : List (Nat × Nat × List (Nat × Bool)) :=
  pl.map fun e => (e.1, e.2, t.readWords i y e.2 n)

/-- No lane of a list of reads finds a poisoned word. -/
theorem faultIf_poison_ok {s t : State} {i : Iss} {y : Warp} {n : Nat} {pl : List (Nat × Nat)}
    (h : ∀ e ∈ pl, ∀ v ∈ t.readWords i y e.2 n, v.2 = false) :
    faultIf s ((t.placeWords i y n pl).map fun e => (e.1, if e.2.2.any Prod.snd then Chk.fault .poison e.2.1 0 else .ok))
      [.poison] = .ok () := by
  refine faultIf_ok fun e he => ?_
  simp only [State.placeWords, List.map_map, List.mem_map, Function.comp_apply] at he
  obtain ⟨p, hp, rfl⟩ := he
  have hclean : (t.readWords i y p.2 n).any Prod.snd = false := by
    rw [List.any_eq_false]
    exact fun v hv => Bool.eq_false_iff.1 (h p hp v hv)
  simp only [hclean, Bool.false_eq_true, if_false]

/-- A list that holds one entry per lane gives a lane its own entry. -/
theorem find?_lane {α : Type} {l : List Nat} {L : Nat} (hL : L ∈ l) (g : Nat → α) :
    (l.map fun j => (j, g j)).find? (fun e => decide (e.1 = L)) = some (L, g L) := by
  induction l with
  | nil => simp at hL
  | cons a l ih =>
    by_cases h : a = L
    · subst h; simp
    · have hmem : L ∈ l := (List.mem_cons.1 hL).resolve_left (Ne.symm h)
      simp [h, ih hmem]

/-- A lane that reads finds the words at its own place. -/
theorem placeWords_find? {t : State} {i : Iss} {y : Warp} {n : Nat} {l : List Nat} {L : Nat} (hL : L ∈ l) (a : Nat → Nat) :
    (t.placeWords i y n (l.map fun j => (j, a j))).find? (fun e => decide (e.1 = L)) =
      some (L, a L, t.readWords i y (a L) n) := by
  rw [State.placeWords, List.map_map]
  exact find?_lane hL _

/-- Only the targets of the lanes that leave are checked. -/
theorem targetChecks_congr {t : State} {i : Iss} {y : Warp} {take : LaneMask} {T T' : Nat → DWord} {label : Option Nat}
    (h : ∀ L ∈ lanesOf take, T L = T' L) : targetChecks t i y take T label = targetChecks t i y take T' label := by
  have hts : (lanesOf take).map (fun L => (L, (T L).toNat, t.target i y (T L).toNat)) =
      (lanesOf take).map fun L => (L, (T' L).toNat, t.target i y (T' L).toNat) :=
    List.map_congr_left fun L hL => by rw [h L hL]
  simp only [targetChecks, hts]

/-- An index that fits the allotment names its register. -/
theorem regV_one_ok {allot r : Nat} (h : r < allot) : regV allot 1 false r none = .ok r := by
  simp [regV, Nat.not_le.2 h, Nat.not_lt.2 h]

theorem regV_pair_ok {allot r : Nat} (heven : r % 2 = 0) (h : r + 2 ≤ allot) : regV allot 2 true r none = .ok r := by
  have h1 : ¬ allot ≤ r := by omega
  have h2 : ¬ allot < r + 2 := by omega
  simp [regV, h1, h2, heven]

/-- The index that a lane reads from a v register of 32 bits. -/
theorem Rs.read_v_one (x : Warp) (r L : Nat) : ((Rs.v r 1).read x L).1.toNat = (x.lane r L).v.toNat :=
  BitVec.toNat_setWidth_of_le (by decide)

/-! ### The table of JTB (R149) -/

/-- The g register that holds the address of the table; the next holds what its entries are added to. -/
def jtbTable (f : FmtB) : Nat := (bitsAt f.off 10 6).toNat

/-- Where the entry of a lane lies. -/
def Warp.jtbEntry (x : Warp) (f : FmtB) (L : Nat) : Nat :=
  ((x.greg (jtbTable f)).v + BitVec.ofNat 64 (4 * (x.lane f.sa.toNat L).v.toNat)).toNat

/-- The entries of the lanes that take the branch. -/
def Warp.jtbPlaces (x : Warp) (f : FmtB) (take : LaneMask) : List (Nat × Nat) := (lanesOf take).map fun L => (L, x.jtbEntry f L)

/-- The target of a lane: its entry, added to the second g register. -/
def State.jtbTarget (t : State) (i : Iss) (y : Warp) (f : FmtB) (L : Nat) : DWord :=
  (y.greg (jtbTable f + 1)).v + BitVec.ofNat 64 (wordsNat (t.readWords i y (y.jtbEntry f L) 1))

/-- The operands of JTB are full and unpoisoned, every index lies below the bound, and the table is aligned. -/
structure JtbOperands (allot : Nat) (x : Warp) (f : FmtB) (take : LaneMask) : Prop where
  allot : f.sa.toNat < allot
  index : x.vFull f.sa.toNat = true
  table : ∀ g ∈ [jtbTable f, jtbTable f + 1], x.gFull g = true ∧ (x.greg g).p = false
  lanes : ∀ L ∈ lanesOf take, (x.lane f.sa.toNat L).p = false ∧ (x.lane f.sa.toNat L).v.toNat < (bitsAt f.off 0 10).toNat
  aligned : (x.greg (jtbTable f)).v.toNat % 4 = 0

/-- No index reaches the bound. -/
theorem JtbOperands.past {allot : Nat} {x : Warp} {f : FmtB} {take : LaneMask} (h : JtbOperands allot x f take) :
    (maskOf fun L => inMask take L && decide ((bitsAt f.off 0 10).toNat ≤ ((Rs.v f.sa.toNat 1).read x L).1.toNat)) = 0 := by
  refine maskOf_eq_zero fun L _ => ?_
  cases hL : inMask take L with
  | false => rfl
  | true => simpa [Rs.read_v_one] using (h.lanes L (mem_lanesOf.2 hL)).2

/-! ### The spill area at a RET (R151) -/

/-- Where the entries lie that a RET reads back, one for each lane deeper than the hardware's stack. -/
def Warp.fillPlaces (x : Warp) (act : LaneMask) : List (Nat × Nat) :=
  (lanesOf (act &&& x.lanesWhere fun h => decide (16 < h.depth))).map fun L => (L, spillAddr x.cstk L ((x.thread L).depth - 17))

/-- The state after a RET of the lanes `act`: the entries are read back, each stack is popped, and each lane goes to its top. -/
def State.returned (t : State) (i : Iss) (y : Warp) (act : LaneMask) : State :=
  (((y.fillPlaces act).foldl (fun u e => u.fillRead i e.2) t).updWarp i.wid fun z => z.updThreads act fun L h => h.pop
    (((t.placeWords i y 2 (y.fillPlaces act)).find? fun e => decide (e.1 = L)).map fun e => BitVec.ofNat 64 (wordsNat e.2.2))).leave
      i act fun L => (y.thread L).stack.headD 0

/-- No lane that leaves fails the test of its depth. -/
theorem depthCheck_ok {t : State} {y : Warp} {take : LaneMask} {bad : Thread → Bool} {detail : Nat}
    (h : take &&& y.lanesWhere bad = 0) : depthCheck t y take bad detail = .ok () := if_neg (not_not_intro h)

theorem takeMask_of_handler_none {x : Warp} (hh : x.handler = none) (cm : Cm) (lanes act : LaneMask) :
    takeMask cm x.handler.isSome lanes act = takeMask cm false lanes act := by
  rw [hh]
  rfl

section
variable {s : State}

theorem exec_bra {f : FmtB} : exec (.bra f) s = execBra f s := rfl

theorem exec_jtb {f : FmtB} : exec (.jtb f) s = execJtb f s := rfl

theorem exec_call {f : FmtB} : exec (.call f) s = execCall f s := rfl

theorem exec_callj {f : FmtB} : exec (.callj f) s = execCallj f s := rfl

theorem exec_ret {f : FmtS} : exec (.ret f) s = execRet f s := rfl

section
variable {w : WarpId} {x : Warp} {b : Bundle} (hi : Issuing s w x b)
include hi

theorem allotOf_cur : (s.cur.map s.allotOf).getD 0 = s.allotOf w := by
  obtain ⟨hcur, -, -, -⟩ := hi
  rw [hcur]
  rfl

/-- A branch that names no register does what its run does. -/
theorem branchFrame_bare {k : BitVec 3} {kn : Bool} {cm : Cm} {banned : Bool} (hbanned : banned = true → x.handler = none)
    (hpsn : (predOf x b.mask none k kn).psn = 0) {run : State → Iss → Warp → LaneMask → Rs → Except Stop State} {t : State}
    (hrun : run (s.issued w) (mkIss s w x b 8) x.presented
      (takeMask cm x.handler.isSome b.mask (predOf x b.mask none k kn).act) .none = .ok t) :
    branchFrame s k kn cm banned (.ok .none) [] run = .next (t.retire true (mkIss s w x b 8)) :=
  branchFrame_ready hi hbanned hpsn rfl (fun _ hg => absurd hg List.not_mem_nil) (fun _ _ => rfl) hrun

/-! ### BRA and JTB (R149, R150) -/

theorem completes_bra {f : FmtB} (hpsn : (predOf x b.mask none f.k f.kn).psn = 0)
    (htargets : TargetsFree (s.issued w) (mkIss s w x b 8) x.presented
      (takeMask f.cm x.handler.isSome b.mask (predOf x b.mask none f.k f.kn).act)
      (fun _ => directTarget (mkIss s w x b 8) f.off) none) :
    Completes (.bra f) s w x b 8 true ((s.issued w).leave (mkIss s w x b 8)
      (takeMask f.cm x.handler.isSome b.mask (predOf x b.mask none f.k f.kn).act)
      fun _ => directTarget (mkIss s w x b 8) f.off) := by
  rw [Completes, exec_bra, execBra]
  refine branchFrame_bare hi (fun h => absurd h Bool.false_ne_true) hpsn ?_
  simp only [targetChecks_free htargets]

section
variable (hh : x.handler = none)
include hh

theorem completes_jtb {f : FmtB} {take : LaneMask}
    (htake : takeMask f.cm x.handler.isSome b.mask (predOf x b.mask none f.k f.kn).act = take)
    (hpsn : (predOf x b.mask none f.k f.kn).psn = 0) (hops : JtbOperands (s.allotOf w) x f take)
    (hread : ReadFree (s.issued w) (mkIss s w x b 8) x.presented 4 (x.jtbPlaces f take))
    (hclean : ∀ e ∈ x.jtbPlaces f take, ∀ v ∈ (s.issued w).readWords (mkIss s w x b 8) x.presented e.2 1, v.2 = false)
    (htargets : TargetsFree (s.issued w) (mkIss s w x b 8) x.presented take
      ((s.issued w).jtbTarget (mkIss s w x b 8) x.presented f) (some (bitsAt f.off 16 16).toNat)) :
    Completes (.jtb f) s w x b 8 true
      (((x.jtbPlaces f take).foldl (fun u e => u.fillRead (mkIss s w x b 8) e.2) (s.issued w)).leave (mkIss s w x b 8) take
        ((s.issued w).jtbTarget (mkIss s w x b 8) x.presented f)) := by
  rw [Completes, exec_jtb, execJtb, allotOf_cur hi, regV_one_ok hops.allot]
  refine branchFrame_ready hi (fun _ => hh) hpsn (Rs.empty?_v_of_full ?_) hops.table ?_ ?_
  · simpa using hops.index
  · rw [htake]
    exact fun L hL => (hops.lanes L hL).1
  · rw [htake]
    have halign : ¬ (take ≠ 0 ∧ (x.presented.greg (jtbTable f)).v.toNat % 4 ≠ 0) := fun h => h.2 hops.aligned
    refine (if_neg (not_not_intro hops.past)).trans ((if_neg halign).trans ?_)
    have hT : ∀ L ∈ lanesOf take, (x.greg (jtbTable f + 1)).v + BitVec.ofNat 64
        (((((s.issued w).placeWords (mkIss s w x b 8) x.presented 1 (x.jtbPlaces f take)).find? fun e => decide (e.1 = L)).map
          fun e => wordsNat e.2.2).getD 0) = (s.issued w).jtbTarget (mkIss s w x b 8) x.presented f L := fun L hL => by
      rw [Warp.jtbPlaces, placeWords_find? hL]
      rfl
    have hreads := readChecks_free hread
    have hwords := faultIf_poison_ok (s := s.issued w) hclean
    have hjumps := (targetChecks_congr hT).trans (targetChecks_free htargets)
    simp only [State.placeWords, Warp.jtbPlaces, Warp.jtbEntry, jtbTable] at hreads hwords hjumps
    simp only [Rs.read_v_one, Warp.greg_issued, Warp.lane_issued, hreads, hwords, hjumps]
    exact congrArg _ (State.leave_congr hT)

/-! ### CALL, CALLJ and RET (R150, R151) -/

theorem completes_call {f : FmtB} {v : State} (hpsn : (predOf x b.mask none f.k f.kn).psn = 0)
    (hcall : callTo (s.issued w) (mkIss s w x b 8) x.presented (takeMask f.cm false b.mask (predOf x b.mask none f.k f.kn).act)
      (fun _ => directTarget (mkIss s w x b 8) f.off) none = .ok v) :
    Completes (.call f) s w x b 8 true v := by
  rw [Completes, exec_call, execCall]
  refine branchFrame_bare hi (fun _ => hh) hpsn ?_
  rw [takeMask_of_handler_none hh]
  exact hcall

theorem completes_callj {f : FmtB} {v : State} (hpsn : (predOf x b.mask none f.k f.kn).psn = 0) (heven : f.sa.toNat % 2 = 0)
    (hallot : f.sa.toNat + 2 ≤ s.allotOf w) (hfull : ∀ j < 2, x.vFull (f.sa.toNat + j) = true)
    (hclean : ∀ L ∈ lanesOf (takeMask f.cm false b.mask (predOf x b.mask none f.k f.kn).act),
      ((Rs.v f.sa.toNat 2).read x L).2 = false)
    (hcall : callTo (s.issued w) (mkIss s w x b 8) x.presented (takeMask f.cm false b.mask (predOf x b.mask none f.k f.kn).act)
      (fun L => ((Rs.v f.sa.toNat 2).read x L).1) (some (bitsAt f.off 0 16).toNat) = .ok v) :
    Completes (.callj f) s w x b 8 true v := by
  rw [Completes, exec_callj, execCallj, allotOf_cur hi, regV_pair_ok heven hallot]
  refine branchFrame_ready hi (fun _ => hh) hpsn (Rs.empty?_v_of_full hfull) (fun _ hg => absurd hg List.not_mem_nil) ?_ ?_
  · rwa [takeMask_of_handler_none hh]
  · rw [takeMask_of_handler_none hh]
    exact hcall

theorem completes_ret {f : FmtS} {act : LaneMask} (hact : (predOf x b.mask none f.k f.kn).act = act)
    (hpsn : (predOf x b.mask none f.k f.kn).psn = 0) (hdepth : (act &&& x.presented.lanesWhere fun h => decide (h.depth = 0)) = 0)
    (hread : ReadFree (s.issued w) (mkIss s w x b 8) x.presented 8 (x.presented.fillPlaces act))
    (hclean : ∀ e ∈ x.presented.fillPlaces act, ∀ v ∈ (s.issued w).readWords (mkIss s w x b 8) x.presented e.2 2, v.2 = false)
    (htargets : TargetsFree (s.issued w) (mkIss s w x b 8) x.presented act (fun L => (x.presented.thread L).stack.headD 0) none) :
    Completes (.ret f) s w x b 8 true ((s.issued w).returned (mkIss s w x b 8) x.presented act) := by
  rw [Completes, exec_ret, execRet]
  refine branchFrame_bare hi (fun _ => hh) hpsn ?_
  rw [takeMask_of_handler_none hh, takeMask, if_neg Bool.false_ne_true, hact]
  have hdeep := depthCheck_ok (t := s.issued w) (detail := 1) hdepth
  have hreads := readChecks_free hread
  have hwords := faultIf_poison_ok (s := s.issued w) hclean
  simp only [State.placeWords, Warp.fillPlaces] at hreads hwords
  simp only [hdeep, hreads, hwords, targetChecks_free htargets]
  rfl

end

end

end

/-- Settles O12: every target is a header, so BRA's lanes go to its direct target and JTB's each to its own entry's. -/
theorem branchesComplete : Obligations.BranchesComplete := by
  intro s w x b f hi t y i p take hpsn
  refine ⟨?bra, ?jtb⟩
  case bra => exact completes_bra hi hpsn
  case jtb =>
    intro tab r ix pl word T hh hallot hfull hgfull hlow hhigh hlanes halign hread hclean htargets
    have hclear : ∀ g ∈ [tab, tab + 1], (x.greg g).p = false := List.forall_mem_cons.2 ⟨hlow, List.forall_mem_singleton.2 hhigh⟩
    exact completes_jtb hi hh rfl hpsn ⟨hallot, hfull, fun g hg => ⟨hgfull g hg, hclear g hg⟩, hlanes, halign⟩ hread hclean
      htargets

/-- Settles O13: CALL and CALLJ end in the same transfer, of which every check passes; RET pops each stack. -/
theorem callsComplete : Obligations.CallsComplete := by
  intro s w x b hi hh t y i
  refine ⟨?call, ?ret⟩
  case call =>
    intro f label T p take pl hpsn hdepth hspill htargets u hroom
    have hcall : callTo t i y take T label = .ok (t.called i take pl y T u) := callTo_ready hdepth hspill htargets hroom
    refine ⟨?direct, ?indirect⟩
    case direct =>
      rintro rfl rfl
      exact completes_call hi hh hpsn hcall
    case indirect =>
      rintro rfl heven hallot hlow hhigh hclean rfl
      have hfull : ∀ j < 2, x.vFull (f.sa.toNat + j) = true := by
        intro j hj
        have hcases : j = 0 ∨ j = 1 := by omega
        rcases hcases with rfl | rfl
        · exact hlow
        · exact hhigh
      exact completes_callj hi hh hpsn heven hallot hfull (fun L hL => Bool.or_eq_false_iff.2 (hclean L hL)) hcall
  case ret =>
    intro f p pl T hpsn hdepth hread hclean htargets fills
    exact completes_ret hi hh rfl hpsn hdepth hread hclean htargets

end Sys2Proof.Machine
end

section
/-! SUPPORT. ST (10_span R162, R163, 13_memory R234 to R236): the bytes that the lanes of a store leave in the span buffer, and
the rest of the state, which waits for the commit. -/

namespace Sys2Proof.Machine

/-! ### The registers that a store names (R234) -/

/-- Registers `d`, where they are v registers, hold an element of `n` bytes: a pair one of eight, one register one of at most
four. -/
def Rs.HoldElement (d : Rs) (n : Nat) : Prop := ∀ r k, d = .v r k → k = 2 ∧ n = 8 ∨ k = 1 ∧ n ≤ 4

/-- A width is a power of two up to that of a pair. -/
theorem memWidth_dvd (wd : MemWidth) (ty : Ty) : memWidth wd ty ∣ 8 := by
  cases wd with
  | elem => rw [memWidth]; split <;> decide
  | byte => exact ⟨8, rfl⟩
  | half => exact ⟨4, rfl⟩

/-- D of vector registers has as many as its description says. -/
theorem resolveM_v {allot n align : Nat} {fld : BitVec 8} {ix : Option Nat} {r k : Nat}
    (h : okRs (resolveM allot (.v n align) fld ix) = .v r k) : k = n := by
  simp only [resolveM] at h
  split at h
  · cases h
  · split at h <;> cases h
    rfl

theorem ty_mem_of_wellFormed_st {wd : MemWidth} {f : FmtM} (h : wellFormed (.st wd f) = true) : f.ty ∈ ldTys wd := by
  have hinfo : (Instr.st wd f).info = .m 0x51 (widthCode wd) (specSt wd f.ty) f := rfl
  have hty := wellFormed_detail h (4, !((ldTys wd).contains f.ty)) (hinfo ▸ List.mem_append_left _ List.mem_cons_self)
  simpa using hty

/-- The narrow widths take no type that occupies a pair. -/
theorem regs_memWidth {wd : MemWidth} {ty : Ty} (h : ty ∈ ldTys wd) :
    regs (tyPair ty) = 2 ∧ memWidth wd ty = 8 ∨ regs (tyPair ty) = 1 ∧ memWidth wd ty ≤ 4 := by
  have hnarrow : ∀ ty ∈ [Ty.b32, .i32, .n32], tyPair ty = false := by decide
  cases hp : tyPair ty with
  | false => exact .inr ⟨rfl, by cases wd <;> simp [memWidth, hp]⟩
  | true =>
    cases wd with
    | elem => exact .inl ⟨rfl, by simp [memWidth, hp]⟩
    | byte | half => exact absurd hp (Bool.eq_false_iff.1 (hnarrow ty h))

theorem st_holdElement {s : State} {w : WarpId} {x : Warp} {b : Bundle} {wd : MemWidth} {f : FmtM}
    (hwf : wellFormed (.st wd f) = true) : (memOperands s w x b (specSt wd f.ty) f).d.HoldElement (memWidth wd f.ty) := by
  intro r k hd
  obtain rfl : k = regs (tyPair f.ty) := resolveM_v hd
  exact regs_memWidth (ty_mem_of_wellFormed_st hwf)

/-! ### The bytes of several lanes (R162, R236) -/

/-- Where the buffer keeps a lane's element: the group and the address there, with the line behind it. -/
def State.storeSpot (t : State) (i : Iss) (sp : Space) (e : Nat × Nat) : Nat × Nat × Nat × Nat :=
  ((t.spanKey i sp e.2).1, (t.spanKey i sp e.2).2, t.storeLine i sp e.2)

/-- The record after the stores of the lanes in turn. -/
def Warp.storeLanes (z : Warp) (t : State) (i : Iss) (sp : Space) (d : Rs) (n : Nat) (pl : List (Nat × Nat)) : Warp :=
  pl.foldl (fun v e => v.storeLane sp (t.storeSpot i sp e).1 (t.storeSpot i sp e).2.1 (t.storeSpot i sp e).2.2 d n e.1) z

/-- The element of lane and address `e` covers the byte at address `a` of a group's part of the buffer. -/
def State.storeCovers (t : State) (i : Iss) (sp : Space) (n : Nat) (e : Nat × Nat) (g a : Nat) : Prop :=
  (t.spanKey i sp e.2).1 = g ∧ (t.spanKey i sp e.2).2 ≤ a ∧ a < (t.spanKey i sp e.2).2 + n

section
variable {z : Warp} {t : State} {i : Iss} {sp : Space} {d : Rs} {n : Nat}

theorem storeLanes_keeps (pl : List (Nat × Nat)) : StoreKeeps z (z.storeLanes t i sp d n pl) :=
  fold_keeps pl (t.storeSpot i sp) sp d n z

theorem spanByte_storeLanes_of_uncovered {pl : List (Nat × Nat)} {sp' : Space} {g a : Nat} (hd : d.HoldElement n)
    (h : ∀ e ∈ pl, ¬(sp' = sp ∧ t.storeCovers i sp n e g a)) :
    (z.storeLanes t i sp d n pl).spanByte sp' g a = z.spanByte sp' g a :=
  fold_out' pl (t.storeSpot i sp) sp d n hd z sp' g a h

/-- A byte is that of the last lane that stores there: it overwrites what the lanes before it wrote, and those after it leave
the byte alone. -/
theorem spanByte_storeLanes_of_last {pre post : List (Nat × Nat)} {L a r k j : Nat} (hd : Rs.HoldElement (.v r k) n)
    (hn : n ∣ 8) (ha : a % n = 0) (hj : j < n)
    (hlast : ∀ e ∈ post, ¬t.storeCovers i sp n e (t.spanKey i sp a).1 ((t.spanKey i sp a).2 + j)) :
    (z.storeLanes t i sp (.v r k) n (pre ++ (L, a) :: post)).spanByte sp (t.spanKey i sp a).1 ((t.spanKey i sp a).2 + j) =
      some (((z.lane (r + j / 4) L).v >>> (8 * (j % 4))).setWidth 8) := by
  let before := z.storeLanes t i sp (.v r k) n pre
  let here := before.storeLane sp (t.spanKey i sp a).1 (t.spanKey i sp a).2 (t.storeLine i sp a) (.v r k) n L
  have hsplit : z.storeLanes t i sp (.v r k) n (pre ++ (L, a) :: post) = here.storeLanes t i sp (.v r k) n post :=
    List.foldl_append ..
  have hlane : ∀ m, before.lane m L = z.lane m L := fun m => by
    simp only [Warp.lane, Warp.vreg, (storeLanes_keeps pre).hv, before]
  rw [hsplit, spanByte_storeLanes_of_uncovered hd fun e he h => hlast e he h.2,
    sl_in _ _ _ _ _ _ _ _ _ (hd r k rfl) j hj hn (spanKey_mod t i sp a n hn ha), hlane]

end

/-! ### The state around the buffer -/

/-- The state in which a store's accesses have touched their translations and tier pages, and tied the gang to its L2W
(R233, R342, R345). -/
def State.accessed (u : State) (i : Iss) (w : WarpId) (sp : Space) (pl : List (Nat × Nat)) : State :=
  (u.touchAll i sp .wr pl).tieL2w w sp

theorem State.accessed_mem (u : State) (i : Iss) (w : WarpId) (sp : Space) (pl : List (Nat × Nat)) :
    (u.accessed i w sp pl).mem = u.mem := (tie_mem _ w sp).1.trans (touchAll_mem u i sp .wr pl).1

theorem State.accessed_groups (u : State) (i : Iss) (w : WarpId) (sp : Space) (pl : List (Nat × Nat)) :
    (u.accessed i w sp pl).groups = u.groups := (tie_mem _ w sp).2.trans (touchAll_mem u i sp .wr pl).2

theorem State.group?_accessed (u : State) (i : Iss) (w : WarpId) (sp : Space) (pl : List (Nat × Nat)) (n : Nat) :
    (u.accessed i w sp pl).group? n = u.group? n := by rw [State.group?, State.accessed_groups, State.group?]

theorem State.warp?_accessed (u : State) (i : Iss) (w : WarpId) (sp : Space) (pl : List (Nat × Nat)) (p : WarpId) :
    (u.accessed i w sp pl).warp? p = u.warp? p := by rw [State.warp?, State.group?_accessed, State.warp?]

theorem Warp.Moved.spanByte {z y : Warp} (h : z.Moved y) (sp : Space) (g a : Nat) : y.spanByte sp g a = z.spanByte sp g a := by
  rw [Warp.spanByte, Warp.spanByte, h.1]

theorem Warp.Moved.registers {z y : Warp} (h : z.Moved y) : y.v = z.v ∧ y.g = z.g ∧ y.k = z.k := by
  rw [h.1]
  exact ⟨rfl, rfl, rfl⟩

/-- An instruction that ends with a changed record of its warp, in whatever state, moves that warp on and charges its slot. -/
theorem exec_updWarp {s t : State} {w : WarpId} {x z : Warp} {b c : Bundle} {ins : Instr} {n : Nat} {g : Warp → Warp}
    (hexec : Completes ins s w x b n false (t.updWarp w g)) (hz : t.warp? w = some z) (hbundle : (g z).bundle = some c) :
    ∃ y, exec ins s = .next (((t.setWarp w y).charge w b.at_.pc 0).ticked) ∧ (g z).Moved y := by
  rw [State.updWarp_eq_setWarp g hz] at hexec
  obtain ⟨y, hmove, hmoved⟩ := State.moveOn_spec (i := mkIss s w x b n) (State.warp?_setWarp_same (g z) hz) hbundle
  rw [mkIss_wid, State.setWarp_setWarp] at hmove
  refine ⟨y, hexec.trans ?_, hmoved⟩
  rw [State.retire, hmove, mkIss_wid, mkIss_at]

/-! ### ST -/

theorem exec_st {s : State} {wd : MemWidth} {f : FmtM} : exec (.st wd f) s = execSt wd f s := rfl

theorem completes_st {s u : State} {w : WarpId} {x : Warp} {b : Bundle} {f : FmtM} {wd : MemWidth} (hi : Issuing s w x b)
    (hready : MemReady s w x b (specSt wd f.ty) f) :
    let t := s.issued w
    let i := mkIss s w x b (unitSize f.pfx)
    let m := memOperands s w x b (specSt wd f.ty) f
    let n := memWidth wd f.ty
    SpaceFree t i f.sp (mayStore f.sp) n n m.places → PlaceFree t i x.presented f.sp .wr n m.places →
    RoomFor t i x.presented (t.newLines i x.presented f.sp m.places) u →
    Completes (.st wd f) s w x b (unitSize f.pfx) false
      ((u.accessed i w f.sp m.places).updWarp w fun z => z.storeLanes t i f.sp m.d n m.places) := by
  intro t i m n hspace hplace hroom
  have hwarp : m.w = x.presented := rfl
  have hfound := makeRoom_ready hroom
  rw [Completes, exec_st, execSt]
  refine memFrame_ready hi hready ?_
  simp only [hwarp, spaceChecks_free hspace, placeChecks_free hplace, hfound, i, m, n, t]
  rfl

/-- Settles O17: the checks pass, the lines find room, and each lane's bytes enter the buffer. -/
theorem storesComplete : Obligations.StoresComplete := by
  intro s w x b f wd hi hready t y i m n hspace hplace u hroom
  exact completes_st hi hready hspace hplace hroom

/-- Settles O56: the store changes the span buffer alone, and moving on and the accesses leave what it names as it was. -/
theorem storeFrame : Obligations.StoreFrame := by
  intro s w x b f wd hwf hi hready t i m n at_ covers hspace hplace u hroom z hz hbundle
  let base := u.accessed i w f.sp m.places
  let stored := z.storeLanes t i f.sp m.d n m.places
  have hkeeps : StoreKeeps z stored := storeLanes_keeps m.places
  have hd : m.d.HoldElement n := st_holdElement hwf
  have hwarp : base.warp? w = some z := (State.warp?_accessed ..).trans hz
  obtain ⟨y, hexec, hmoved⟩ := exec_updWarp (completes_st hi hready hspace hplace hroom) hwarp (hkeeps.hb.trans hbundle)
  obtain ⟨hv, hg, hk⟩ := hmoved.registers
  refine ⟨base.setWarp w y, y, hexec, State.warp?_setWarp_same y hwarp, ?bytes, ?marks, ?warps, ?groups, hv.trans hkeeps.hv,
    hg.trans hkeeps.hg, hk.trans hkeeps.hk, hmoved.fstat.trans hkeeps.hf, ?outside, ?last⟩
  case bytes => exact fun a => congrArg (·.byte a) (State.accessed_mem ..)
  case marks => exact fun a => congrArg (·.mark a) (State.accessed_mem ..)
  case warps => exact fun p hp => (State.warp?_setWarp_ne base y hp).trans (State.warp?_accessed ..)
  case groups => exact fun k g hgroup => State.group?_setWarp y ((State.group?_accessed ..).trans hgroup)
  case outside =>
    exact fun sp g a h => (hmoved.spanByte sp g a).trans (spanByte_storeLanes_of_uncovered hd h)
  case last =>
    intro pre L a post hpl reg k hreg j hj hlast
    have haligned : a % n = 0 := (hspace.1 (L, a) (hpl ▸ List.mem_append_right pre List.mem_cons_self)).1
    have hstored : stored = z.storeLanes t i f.sp (.v reg k) n (pre ++ (L, a) :: post) := by simp only [stored, hpl, hreg]
    calc y.spanByte f.sp (at_ (L, a)).1 ((at_ (L, a)).2 + j)
      _ = stored.spanByte f.sp (at_ (L, a)).1 ((at_ (L, a)).2 + j) := hmoved.spanByte ..
      _ = _ := hstored ▸ spanByte_storeLanes_of_last (hreg ▸ hd) (memWidth_dvd wd f.ty) haligned hj hlast

end Sys2Proof.Machine
end

section
/-! SUPPORT. The twin of a redundant pair (10_span R172): MXLEASE, RECONF and LAUNCH take the answer that the primary left. -/

namespace Sys2Proof.Machine

section
variable {s u v : State} {w : WarpId} {x : Warp} {b : Bundle} {f : FmtS} {m : Mail}

theorem exec_mxlease : exec (.mxlease f) s = execMxlease f s := rfl

theorem exec_reconf : exec (.reconf f) s = execReconf f s := rfl

/-- An MX instruction of a whole warp with ready registers does what its run does, where no engine fault is pending and the
lease that it asks for stands. -/
theorem mxFrame_ready {srcs dsts : List Nat} {lease : Bool} {run : State → Iss → Warp → Except Stop State} {t : State}
    (hi : Issuing s w x b) (hwhole : wholeWarp (mkIss s w x b 8) x.presented b.mask = true) (hregs : SysReady x srcs dsts)
    (hgate : (if lease then mxGate (s.issued w) (mkIss s w x b 8) x.presented
      else mxPending (s.issued w) (mkIss s w x b 8) x.presented) = .ok ())
    (hrun : run (s.issued w) (mkIss s w x b 8) x.presented = .ok t) :
    mxFrame s srcs dsts lease run = .next (t.retire true (mkIss s w x b 8)) := by
  have hshape : checkWhole (s.issued w) (mkIss s w x b 8) x.presented b.mask = .ok () := if_pos hwhole
  refine issue_ok hi ?_
  simp only [mkIss_wid, mkIss_lanes, warp?_issued_of_issuing hi, hshape, sysRegs_ready hregs, hgate, hrun]

/-- RECONF commits at its first presentation alone. -/
theorem reconfCommit_ready {t : State} {i : Iss} {y : Warp}
    (h : if y.releasing then u = t else ∃ g, CommitReady t i.wid g y ∧
      u = (t.committed i.wid g y i.lanes i.fall).updWarp i.wid fun z => { z with releasing := true }) :
    t.reconfCommit i y f = .ok u := by
  unfold State.reconfCommit
  split at h
  next hr => rw [if_pos hr, h]
  next hr =>
    obtain ⟨g, hcommit, rfl⟩ := h
    rw [if_neg hr, commit_ready hcommit]

section
variable (hi : Issuing s w x b)
include hi

theorem completes_mxlease_twin {g : Group} (hregs : SysReady x [] [f.d.toNat])
    (hwhole : wholeWarp (mkIss s w x b 8) x.presented b.mask = true)
    (hpending : mxPending (s.issued w) (mkIss s w x b 8) x.presented = .ok ()) (htwin : (s.issued w).isTwin w.g = true)
    (hcommit : CommitReady (s.issued w) w g x.presented)
    (hmail : ((s.issued w).committed w g x.presented b.mask (mkIss s w x b 8).fall).takeMail w = .ok (m, v)) :
    Completes (.mxlease f) s w x b 8 true ((v.putG w f.d.toNat m.gVal).fallThrough (mkIss s w x b 8)) := by
  rw [Completes, exec_mxlease, execMxlease]
  refine mxFrame_ready hi hwhole hregs hpending ?_
  simp only [mkIss_wid, mkIss_lanes, htwin, if_true, commit_ready hcommit, hmail]

section
variable (htwin : u.isTwin w.g = true) (hmail : u.takeMail w = .ok (m, v))
include htwin hmail

theorem completes_reconf_twin (hregs : SysReady x [f.sa.toNat, f.sb.toNat] [f.d.toNat])
    (hfabric : x.releasing = true ∨ (s.issued w).fabricControl (mkIss s w x b 8).ctx = true)
    (hcommit : (s.issued w).reconfCommit (mkIss s w x b 8) x.presented f = .ok u) :
    Completes (.reconf f) s w x b 8 true ((v.putG w f.d.toNat m.gVal).fallThrough (mkIss s w x b 8)) := by
  have hallowed : (!x.presented.releasing && !(s.issued w).fabricControl (mkIss s w x b 8).ctx) = false := by
    rcases hfabric with h | h
    · have hreleasing : x.presented.releasing = true := h
      rw [hreleasing, Bool.not_true, Bool.false_and]
    · rw [h, Bool.not_true, Bool.and_false]
  rw [Completes, exec_reconf, execReconf]
  refine sysFrame_ready hi hregs ?_
  simp only [hallowed, Bool.false_eq_true, if_false, hcommit, mkIss_wid, htwin, if_true, hmail]

theorem completes_launch_twin (hregs : SysReady x [f.sa.toNat, f.sb.toNat] [f.d.toNat]) (halign : (x.gv f.sa).toNat % 64 = 0) :
    let t := s.issued w
    let y := x.presented
    let i := mkIss s w x b 8
    let a := (x.gv f.sa).toNat
    let ws := t.readWords i y a 16
    (x.releasing = false → ReadFree t i y 64 (i.onePlace a) ∧ ∀ e ∈ ws, e.2 = false) →
    ReleaseReady ((if x.releasing then t else t.fillRead i a).keepPacket w (y.packet ws)) i y 5 u →
    Completes (.launch f) s w x b 8 true ((v.putG w f.d.toNat m.gVal).fallThrough i) := by
  intro t y i a ws hread hrelease
  have hchecks := launch_readChecks (y := y) fun hr => (hread hr).1
  have hclean := launch_unpoisoned (y := y) fun hr => (hread hr).2
  have hcommit := launch_commitRelease hrelease
  rw [Completes, exec_launch, execLaunch]
  refine sysFrame_ready hi hregs ?_
  simp only [Warp.gv_issued, mkIss_wid, halign, hchecks, hclean, hcommit, htwin, hmail, ne_eq, not_true_eq_false,
    Bool.false_eq_true, if_false, if_true, t, y, i, a, ws]

end

end

end

/-- Settles O31: past its own checks and its commit, each of the three takes the mail as its answer. -/
theorem twinsFollow : Obligations.TwinsFollow := by
  intro s w x b f hi t y i got
  refine ⟨?mxlease, ?reconf, ?launch⟩
  case mxlease =>
    intro hregs hwhole hpending hfirst g hcommit _ m v hmail
    exact completes_mxlease_twin hi hregs hwhole hpending hfirst hcommit hmail
  case reconf =>
    intro hregs hfabric u hu htwin m v hmail
    exact completes_reconf_twin hi htwin hmail hregs hfabric (reconfCommit_ready hu)
  case launch =>
    intro hregs a ws halign hread d u hrelease htwin m v hmail
    exact completes_launch_twin hi htwin hmail hregs halign hread hrelease

end Sys2Proof.Machine
end

section
/-! SUPPORT. Compares, selects, moves between lanes and g registers, and mask instructions (11_integer R183, R184, R192, R195,
R196): each runs the vector frame, the mask instructions through the frames that they share. -/

namespace Sys2Proof.Machine

/-- Settles O5: each instruction runs the vector frame with its own lane function, ISEL once no selecting bit is poisoned,
MOVG and GMOV by whether the lane they name is there. -/
theorem maskAndMoveCompletes : Obligations.MaskAndMoveCompletes := by
  intro s w x b f hi done y
  refine ⟨?compare, ?select, ?toScalar, ?fromScalar, fun h => ⟨?and, ?or, ?xor⟩, fun h => ⟨?not, ?move⟩, fun h => ⟨?count, ?first⟩⟩
  case compare => exact fun cc h => (exec_icmp cc).trans (vecFrame_ready hi h rfl)
  case select => exact fun h hclean => exec_isel.trans (vecFrame_ready hi h (if_neg (not_not_intro hclean)))
  case toScalar =>
    intro h v
    refine exec_movg.trans (vecFrame_ready hi h ?_)
    cases movLane v.act f.sc <;> rfl
  case fromScalar =>
    intro h v
    refine exec_gmov.trans (vecFrame_ready hi h ?_)
    cases movLane v.act f.sc <;> rfl
  case and => exact exec_kand.trans (maskOp_ready hi h)
  case or => exact exec_kor.trans (maskOp_ready hi h)
  case xor => exact exec_kxor.trans (maskOp_ready hi h)
  case not => exact exec_knot.trans (maskOp_ready hi h)
  case move => exact exec_kmov.trans (maskOp_ready hi h)
  case count => exact exec_kpopc.trans (maskToG_ready hi h)
  case first => exact exec_kfirst.trans (maskToG_ready hi h)

end Sys2Proof.Machine
end

section
/-! SUPPORT. What a row of the integer and logic tables leaves in an active lane (R70), and what a well-formed instruction of
format V says of its type (R65). -/

namespace Sys2Proof.Machine

/-! ### The two words of a result -/

theorem loWord_bit (z : DWord) {i : Nat} (h : i < 32) : (loWord z).getLsbD i = z.getLsbD i := by
  simp [loWord, h]

theorem hiWord_bit (z : DWord) {i : Nat} (h : i < 32) : (hiWord z).getLsbD i = z.getLsbD (i + 32) := by
  simp [hiWord, h, Nat.add_comm]

/-- The two words of a pair make the double word again (R175). -/
theorem hiWord_append_loWord (z : DWord) : hiWord z ++ loWord z = z := by
  refine BitVec.eq_of_getLsbD_eq fun i hi => ?_
  rw [BitVec.getLsbD_append]
  split
  next hlow => exact loWord_bit z hlow
  next hhigh => rw [hiWord_bit z (by omega), Nat.sub_add_cancel (by omega)]

/-! ### The type of a well-formed instruction -/

/-- The type of a well-formed instruction of format V is one that its entry lists (R65). -/
theorem ty_mem_of_wellFormed {i : Instr} {maj : BitVec 7} {fn : BitVec 6} {q : VSpec} {f : FmtV} (hi : i.info = .v maj fn q f)
    (h : wellFormed i = true) : f.ty ∈ q.tys := by
  have hlisted := wellFormed_detail h (4, !(q.tys.contains f.ty)) (by rw [hi]; simp [Info.details, detailsV])
  simpa using hlisted

/-- The fields that name register 0 throughout, of a given type. -/
def zeroFields (ty : Ty) : FmtV := ⟨none, false, ty, 0, false, 0, 0, 0, 0, false, false⟩

/-! ### The result of an active lane -/

/-- The lane function of a row on the sources of lane `L`. -/
def AluRow.result (r : AluRow FmtV) (f : FmtV) (v : Vx) (L : Nat) : DWord :=
  r.fn f (v.a.read v.w L).1 (v.b.read v.w L).1 (v.c.read v.w L).1

/-- An active lane of D takes the result's low word, and under a pair type the next register takes its high word. -/
def Warp.TakesResult (y : Warp) (v : Vx) (ty : Ty) (res : Nat → DWord) : Prop :=
  ∀ reg n, v.d = .v reg n → ∀ L < 32, inMask v.act L = true →
    (y.lane reg L).v = loWord (res L) ∧ (tyPair ty = true → (y.lane (reg + 1) L).v = hiWord (res L))

theorem row_takesResult {s : State} {w : WarpId} {x : Warp} {b : Bundle} {r : AluRow FmtV} (hr : r ∈ arithRows ++ bitRows)
    {f : FmtV} (hd : (r.spec f).d = dT f.ty) (hi : Issuing s w x b) (h : VecReady s w x b false (r.spec f) f) :
    let v := vecOperands s w x b false (r.spec f) f
    ∃ (u : State) (y : Warp), exec (r.op f) s = .next ((u.charge w b.at_.pc 0).ticked) ∧ u.warp? w = some y ∧
      y.TakesResult v f.ty (r.result f v) := by
  obtain ⟨u, y, hexec, hwarp, hlanes⟩ := vectorResultLanes s w x b _ _ f _ (.inl ⟨r, hr, rfl, rfl, rfl⟩) hi h
  refine ⟨u, y, hexec, hwarp, fun reg n hreg L hL hact => ?_⟩
  obtain ⟨hlow, hhigh⟩ := hlanes reg n hreg L hL
  simp only [if_pos hact] at hlow hhigh
  refine ⟨congrArg Lane.v hlow, fun hpair => congrArg Lane.v (hhigh ?_)⟩
  have hcount : n = regs (tyPair f.ty) := vecOperands_d_count hd hreg
  rw [hcount, hpair]
  decide

end Sys2Proof.Machine
end

section
/-! SUPPORT. The bitwise operations (11_integer R185): their rows, and each bit of a result from the same bit of the sources. -/

namespace Sys2Proof.Machine

/-- The operations of R185: each with its FN and its function of one bit. -/
def bitwiseOps : List ((FmtV → Instr) × BitVec 6 × (Bool → Bool → Bool)) :=
  [(.and, 0, fun p q => p && q), (.or, 1, fun p q => p || q), (.xor, 2, fun p q => p ^^ q), (.andn, 3, fun p q => p && !q),
    (.orn, 4, fun p q => p || !q), (.xnor, 5, fun p q => !(p ^^ q)), (.not, 6, fun p _ => !p)]

/-- Row `e` of the table gives operation `op` its meaning, on the operands that `q` describes and with `g` for each bit. -/
structure BitwiseRow (op : FmtV → Instr) (g : Bool → Bool → Bool) (q : FmtV → VSpec) (e : AluRow FmtV) : Prop where
  mem : e ∈ bitRows
  op_eq : e.op = op
  spec_eq : e.spec = q
  bit : ∀ f p r c, ∀ i < 64, (e.fn f p r c).getLsbD i = g (p.getLsbD i) (r.getLsbD i)

/-- The operands of the operation with FN `fn`: NOT, whose FN is 6, has no B. -/
def bitwiseSpec (fn : BitVec 6) (f : FmtV) : VSpec := if fn = 6 then spec1 tBits f.ty else spec2 tBits f.ty

theorem bitwiseSpec_d (fn : BitVec 6) (f : FmtV) : (bitwiseSpec fn f).d = dT f.ty := by
  unfold bitwiseSpec
  split <;> rfl

theorem bitwiseSpec_tys (fn : BitVec 6) (f : FmtV) : (bitwiseSpec fn f).tys = tBits := by
  unfold bitwiseSpec
  split <;> rfl

theorem bitwiseOps_info : ∀ r ∈ bitwiseOps, ∀ f, (r.1 f).info = .v 0x14 r.2.1 (bitwiseSpec r.2.1 f) f := by
  simp only [bitwiseOps, List.forall_mem_cons, List.not_mem_nil, false_imp_iff, implies_true, and_true]
  exact ⟨fun _ => rfl, fun _ => rfl, fun _ => rfl, fun _ => rfl, fun _ => rfl, fun _ => rfl, fun _ => rfl⟩

theorem bitwiseOps_wellFormed : ∀ r ∈ bitwiseOps, ∀ ty ∈ tBits, wellFormed (r.1 (zeroFields ty)) = true := by decide

theorem bitwiseOps_row : ∀ r ∈ bitwiseOps, ∃ e, BitwiseRow r.1 r.2.2 (bitwiseSpec r.2.1) e := by
  simp only [bitwiseOps, List.forall_mem_cons, List.not_mem_nil, false_imp_iff, implies_true, and_true]
  refine ⟨⟨bitRows[0], ?and⟩, ⟨bitRows[1], ?or⟩, ⟨bitRows[2], ?xor⟩, ⟨bitRows[3], ?andn⟩, ⟨bitRows[4], ?orn⟩,
    ⟨bitRows[5], ?xnor⟩, ⟨bitRows[6], ?not⟩⟩
  case and => exact ⟨List.getElem_mem _, rfl, rfl, fun _ _ _ _ _ _ => BitVec.getLsbD_and⟩
  case or => exact ⟨List.getElem_mem _, rfl, rfl, fun _ _ _ _ _ _ => BitVec.getLsbD_or⟩
  case xor => exact ⟨List.getElem_mem _, rfl, rfl, fun _ _ _ _ _ _ => BitVec.getLsbD_xor⟩
  all_goals exact ⟨List.getElem_mem _, rfl, rfl, fun _ _ _ _ i hi => by simp [bitRows, hi]⟩

/-- Settles O54: the words of the result are D's registers, and each of their bits is the operation on the sources' bits. -/
theorem bitwiseResults : Obligations.BitwiseResults := by
  intro r hr f q
  have hinfo := bitwiseOps_info r hr f
  refine ⟨hinfo, fun hw => ?typed, fun ty hty => ?encodable, ?bits⟩
  case typed =>
    have hlisted := ty_mem_of_wellFormed hinfo hw
    simpa [bitwiseSpec_tys, tBits] using hlisted
  case encodable => exact ⟨zeroFields ty, rfl, bitwiseOps_wellFormed r hr ty (by simpa [tBits] using hty)⟩
  case bits =>
    intro s w x b hi h v
    obtain ⟨e, hmem, hop, hspec, hbit⟩ := bitwiseOps_row r hr
    have hq : e.spec f = q := congrFun hspec f
    obtain ⟨u, y, hexec, hwarp, hres⟩ := row_takesResult (List.mem_append_right _ hmem) (hq ▸ bitwiseSpec_d ..) hi (hq ▸ h)
    rw [hop] at hexec
    refine ⟨u, y, hexec, hwarp, fun reg n hd L hL hact i hlt => ?_⟩
    rw [hq] at hres
    obtain ⟨hlow, hhigh⟩ := hres reg n hd L hL hact
    constructor
    · rw [hlow, loWord_bit _ hlt]
      exact hbit f _ _ _ i (by omega)
    · intro hty
      rw [hhigh (by rw [hty]; rfl), hiWord_bit _ hlt]
      exact hbit f _ _ _ (i + 32) (by omega)

end Sys2Proof.Machine
end

section
/-! SUPPORT. The divisions (11_integer R182): the element functions of IDIV and IREM against the rule's table, and the words that
a result of the type's width leaves in D. -/

namespace Sys2Proof.Machine

/-! ### One element of its type's width (R175) -/

theorem tyWidth_pos (ty : Ty) : 0 < tyWidth ty := by cases ty <;> decide

theorem tyWidth_le (ty : Ty) : tyWidth ty ≤ 64 := by cases ty <;> decide

theorem toSigned_elemN {n : Nat} (h : 0 < n) (z : DWord) : toSigned n (elemN n z 0) = (z.setWidth n).toInt := by
  have hpow := Nat.two_pow_pred_mul_two h
  have hiff : z.toNat % 2 ^ n < 2 ^ (n - 1) ↔ 2 * (z.toNat % 2 ^ n) < 2 ^ n := by omega
  simp only [toSigned, elemN, Nat.mul_zero, Nat.pow_zero, Nat.div_one, BitVec.toInt_eq_toNat_cond, BitVec.toNat_setWidth, hiff]

theorem wrapTo_mod (n : Nat) (r : Int) : wrapTo n r % 2 ^ n = wrapTo n r := by
  have hlt := Int.emod_lt_of_pos r (b := (2 ^ n : Nat)) (Int.natCast_pos.2 (Nat.two_pow_pos n))
  refine Nat.mod_eq_of_lt ?_
  unfold wrapTo
  omega

/-- The result of a type of one element is the element function's number, modulo 2 to the type's width. -/
theorem elems_setWidth {ty : Ty} (h : tyCount ty = 1) (g : Int → Int → Int → Int) (a b c : DWord) :
    (elems ty g a b c).setWidth (tyWidth ty) = BitVec.ofInt (tyWidth ty) (g (elemI ty a 0) (elemI ty b 0) (elemI ty c 0)) := by
  have hdvd : 2 ^ tyWidth ty ∣ 2 ^ 64 := Nat.pow_dvd_pow 2 (tyWidth_le ty)
  apply BitVec.eq_of_toNat_eq
  simp only [elems, h, List.range_one, List.map_cons, List.map_nil, packElems, Nat.mul_zero, Nat.add_zero, BitVec.toNat_setWidth,
    BitVec.toNat_ofNat, BitVec.toNat_ofInt, Nat.mod_mod_of_dvd _ hdvd, wrapTo_mod]
  rfl

/-- A result of 32 bits is its low word, one of 64 bits its two words. -/
theorem words_of_setWidth {z : DWord} {n : Nat} {r : Int} (h : z.setWidth n = BitVec.ofInt n r) :
    (n = 32 → loWord z = BitVec.ofInt 32 r) ∧ (n = 64 → hiWord z ++ loWord z = BitVec.ofInt 64 r) := by
  constructor
  · rintro rfl
    exact h
  · rintro rfl
    rwa [hiWord_append_loWord, ← BitVec.setWidth_eq z]

/-! ### The table of R182 -/

section
variable (sgn : Prop) [Decidable sgn] (n : Nat) (p q : Int)

/-- A source of `n` bits as a number. -/
def numberOf (z : DWord) : Int := if sgn then (z.setWidth n).toInt else ((z.setWidth n).toNat : Int)

/-- The quotient that the table gives for dividend `p` and divisor `q`. -/
def tableQuotient : Int :=
  if q = 0 then (if sgn then -1 else (2 ^ n : Nat) - 1)
  else if sgn ∧ p = -(2 ^ (n - 1) : Nat) ∧ q = -1 then -(2 ^ (n - 1) : Nat) else p.tdiv q

/-- The remainder that the table gives. -/
def tableRest : Int := if q = 0 then p else if sgn ∧ p = -(2 ^ (n - 1) : Nat) ∧ q = -1 then 0 else p - q * p.tdiv q

theorem tableRest_eq_remElem : tableRest sgn n p q = remElem p q := by
  unfold tableRest remElem
  split
  next => rfl
  next =>
    split
    next h =>
      obtain ⟨-, -, rfl⟩ := h
      exact (Int.tmod_neg p 1).trans (Int.tmod_one p) |>.symm
    next => exact (Int.tmod_def p q).symm

end

/-- A remainder by a divisor other than 0 is 0 or has the dividend's sign. -/
theorem remElem_sign {p q : Int} (hq : q ≠ 0) : remElem p q = 0 ∨ (remElem p q).sign = p.sign := by
  rw [remElem, if_neg hq]
  by_cases hdvd : q ∣ p
  · exact .inl (Int.tmod_eq_zero_of_dvd hdvd)
  · exact .inr ((Int.sign_tmod p q).trans (if_neg hdvd))

theorem ofInt_least (n : Nat) : BitVec.ofInt n (2 ^ (n - 1) : Nat) = BitVec.intMin n :=
  BitVec.eq_of_toNat_eq (by rw [BitVec.ofInt_natCast, BitVec.toNat_ofNat, BitVec.toNat_intMin])

section
variable {ty : Ty} {sgn : Prop} [Decidable sgn] (hsgn : sgn ↔ tySgn ty = true)
include hsgn

theorem numberOf_eq_elemI (z : DWord) : numberOf sgn (tyWidth ty) z = elemI ty z 0 := by
  have hunsigned : (z.setWidth (tyWidth ty)).toNat = elemN (tyWidth ty) z 0 := by simp [elemN]
  simp only [numberOf, elemI, hsgn, toSigned_elemN (tyWidth_pos ty), hunsigned]

/-- The least number divided by -1 wraps to itself: its negation is the same word. -/
theorem ofInt_tableQuotient (p q : Int) :
    BitVec.ofInt (tyWidth ty) (tableQuotient sgn (tyWidth ty) p q) = BitVec.ofInt (tyWidth ty) (divElem ty p q) := by
  unfold tableQuotient divElem
  split
  next => simp only [hsgn]
  next =>
    split
    next h =>
      obtain ⟨-, rfl, rfl⟩ := h
      simp only [Int.tdiv_neg, Int.tdiv_one, Int.neg_neg, BitVec.ofInt_neg, ofInt_least, BitVec.neg_intMin]
    next => rfl

end

/-! ### IDIV and IREM -/

/-- The divisions of R182: each with its FN, and whether it takes the remainder. -/
def divisionOps : List ((FmtV → Instr) × BitVec 6 × Bool) := [(.idiv, 0, false), (.irem, 1, true)]

/-- The element function of IREM, or of IDIV. -/
def divisionFn (rem : Bool) (ty : Ty) (p q : Int) : Int := if rem then remElem p q else divElem ty p q

theorem divisionOps_info : ∀ r ∈ divisionOps, ∀ f, (r.1 f).info = .v 0x12 r.2.1 (spec2 tWide f.ty) f := by
  simp only [divisionOps, List.forall_mem_cons, List.not_mem_nil, false_imp_iff, implies_true, and_true]
  exact ⟨fun _ => rfl, fun _ => rfl⟩

theorem divisionOps_wellFormed : ∀ r ∈ divisionOps, ∀ ty ∈ tWide, wellFormed (r.1 (zeroFields ty)) = true := by decide

theorem divisionOps_row : ∀ r ∈ divisionOps, ∃ e ∈ arithRows, e.op = r.1 ∧ (e.spec = fun f => spec2 tWide f.ty) ∧
    e.fn = fun f => elems f.ty fun p q _ => divisionFn r.2.2 f.ty p q := by
  simp only [divisionOps, List.forall_mem_cons, List.not_mem_nil, false_imp_iff, implies_true, and_true]
  exact ⟨⟨arithRows[14], List.getElem_mem _, rfl, rfl, rfl⟩, ⟨arithRows[15], List.getElem_mem _, rfl, rfl, rfl⟩⟩

/-- The types of R182: which are signed, their widths, and that a value is one number, of 64 bits in a pair. -/
theorem tWide_shape : ∀ ty ∈ tWide, ((ty = .i32 ∨ ty = .i64) ↔ tySgn ty = true) ∧
    (if ty = .i32 ∨ ty = .n32 then 32 else 64) = tyWidth ty ∧ tyCount ty = 1 ∧ (tyWidth ty = 64 → tyPair ty = true) := by decide

/-- The result of a division, of the type's width, is the table's number. -/
theorem division_setWidth {ty : Ty} {sgn : Prop} [Decidable sgn] (hsgn : sgn ↔ tySgn ty = true) (hone : tyCount ty = 1) (rem : Bool)
    (a b c : DWord) :
    let p := numberOf sgn (tyWidth ty) a
    let q := numberOf sgn (tyWidth ty) b
    (elems ty (fun p q _ => divisionFn rem ty p q) a b c).setWidth (tyWidth ty) =
      BitVec.ofInt (tyWidth ty) (if rem then tableRest sgn (tyWidth ty) p q else tableQuotient sgn (tyWidth ty) p q) := by
  intro p q
  rw [elems_setWidth hone, ← numberOf_eq_elemI hsgn a, ← numberOf_eq_elemI hsgn b]
  cases rem with
  | false => exact (ofInt_tableQuotient hsgn p q).symm
  | true => exact congrArg _ (tableRest_eq_remElem sgn _ p q).symm

/-- Settles O55: the element of D is the table's number, and the table's remainder is the one that truncation leaves. -/
theorem divisionResults : Obligations.DivisionResults := by
  intro r hr f
  have hinfo := divisionOps_info r hr f
  have htyped := fun hw => ty_mem_of_wellFormed hinfo hw
  refine ⟨hinfo, htyped, fun ty hty => ?encodable, fun hw s w x b hi h => ?result⟩
  case encodable => exact ⟨zeroFields ty, rfl, divisionOps_wellFormed r hr ty hty⟩
  case result =>
    obtain ⟨hsgn, hwidth, hone, hpair⟩ := tWide_shape f.ty (htyped hw)
    obtain ⟨e, hmem, hop, hspec, hfn⟩ := divisionOps_row r hr
    have hq : e.spec f = spec2 tWide f.ty := congrFun hspec f
    obtain ⟨u, y, hexec, hwarp, hres⟩ := row_takesResult (List.mem_append_left _ hmem) (hq ▸ rfl) hi (hq ▸ h)
    rw [hop] at hexec
    rw [hq] at hres
    refine ⟨u, y, hexec, hwarp, fun reg n hd L hL hact => ?_⟩
    obtain ⟨hlow, hhigh⟩ := hres reg n hd L hL hact
    rw [AluRow.result, hfn] at hlow hhigh
    intro sgn width val p q least quot rest res
    have hset := division_setWidth hsgn hone r.2.2
    rw [← hwidth] at hset
    obtain ⟨h32, h64⟩ := words_of_setWidth (hset _ _ _)
    refine ⟨fun hn => hlow.trans (h32 hn), fun hn => ?pair, fun hne _ => ?sign⟩
    case pair =>
      rw [hlow, hhigh (hpair (hwidth ▸ hn))]
      exact h64 hn
    case sign =>
      have hrest : rest = remElem p q := tableRest_eq_remElem sgn width p q
      rw [hrest]
      exact remElem_sign hne

end Sys2Proof.Machine
end

section
/-! SUPPORT. Float instructions, special functions and conversions (12_float R203 to R221): each runs the vector frame with its own
lane function; a special function's result goes in flight. -/

namespace Sys2Proof.Machine

/-- Settles O7: a row of the float table and FCMP run the vector frame, and a special function's D is the one register that its
record in flight names. -/
theorem floatCompletes : Obligations.FloatCompletes := by
  intro s w x b f hi done
  refine ⟨?rows, ?compare, ?special⟩
  case rows => exact fun r hr h => (floatRows_exec r hr f s).trans (falu_ready hi h)
  case compare => exact fun cc h => (exec_fcmp cc).trans (vecFrame_ready hi h rfl)
  case special =>
    rintro r hr h d rfl
    exact (sfuRows_exec r hr f s).trans (sfu_ready hi (sfuRows_d r hr) h)

/-- Settles O8: each conversion runs the vector frame with its own element function; those that read a control word pass the check
of its poison (R217), and CVTFF takes its maxima only where AMAX is named. -/
theorem conversionCompletes : Obligations.ConversionCompletes := by
  intro s w x b f hi done
  refine ⟨?toInteger, ?fromInteger, ?toFloat, ?pack, ?unpack⟩
  case toInteger => exact fun src h => (exec_cvtfi src).trans (convFrame_ready hi h rfl)
  case fromInteger => exact fun src h => (exec_cvtif src).trans (convFrame_ready hi h rfl)
  case toFloat =>
    intro src sat amax h v cw y ins hclean
    refine (exec_cvtff src sat amax).trans (convFrame_ready hi h ((if_neg (control_passes hclean)).trans ?_))
    cases amax <;> rfl
  case pack =>
    intro h v cw psn hclean
    exact exec_packf4.trans (vecFrame_ready hi h (if_neg (control_passes hclean)))
  case unpack => exact fun h => exec_unpackf4.trans (vecFrame_ready hi h rfl)

end Sys2Proof.Machine
end

section
/-! SUPPORT. Results in flight and the events of atomics and barriers (12_float R210, 13_memory R235, 15_atomics R273 to R279,
16_barrier R294, 18_matrix R328). What the write-back of a load does is said once: the load is held back, or it lands. -/

namespace Sys2Proof.Machine

/-- What holds a load back at its write-back: for a read of CB an engine operation before it (R315), else a line that another
package has taken (R354). -/
def State.loadHeld (s : State) (w : WarpId) (l : Load) : Bool :=
  (match l.kind with
    | .cb after => s.mxLive (s.coreOf (s.primaryWarp w)) after
    | _ => false) || !(s.loadAway w l).isEmpty

/-- The state after a load has landed: the read copies that it fills, and the warp with its value (R140). -/
def State.landLoad (s : State) (w : WarpId) (id : Nat) (l : Load) : State :=
  (s.fillCopies w l).updWarp w fun x =>
    let x := { x with loads := x.loads.filter fun k => decide (k.id ≠ id) }
    match l.kind with
    | .poll cid d => (x.setG d ⟨((s.group? w.g).map fun g => sgetD g.ids cid 2).getD 2, false⟩).fillG d
    | _ => x.deliverAll l.regs l.zero (s.loadVals w l)

section
variable {s : State} {w : WarpId} {x : Warp}

/-! ### What runs an event whose meaning looks something up -/

theorem exec_loadWriteback (id : Nat) : exec (.loadWriteback w id) s = execLoadWriteback w id s := rfl
theorem exec_atomicWriteback (id : Nat) : exec (.atomicWriteback w id) s = execAtomicWriteback w id s := rfl
theorem exec_barwtLimit (pc : Nat) : exec (.barwtLimit w pc) s = execBarwtLimit w pc s := rfl
theorem exec_hotQueueRetire (line : Nat) : exec (.hotQueueRetire line) s = execHotQueueRetire line s := rfl
theorem exec_hotModeExpiry (line : Nat) : exec (.hotModeExpiry line) s = execHotModeExpiry line s := rfl

/-! ### Which loads are held back -/

section
variable {l : Load}

/-- Only a load from memory reads lines that another package can take. -/
theorem State.loadAway_of_not_mem (h : ∀ sp z c f, l.kind ≠ .mem sp z c f) : s.loadAway w l = [] := by
  rw [State.loadAway]
  split
  next => rfl
  next hkind _ => exact absurd hkind (h _ _ _ _)
  next => rfl

theorem State.loadHeld_mem {sp : Space} {z : Nat} {c f : Bool} (h : l.kind = .mem sp z c f) :
    s.loadHeld w l = !(s.loadAway w l).isEmpty := by
  rw [State.loadHeld, h, Bool.false_or]

theorem State.loadHeld_cb {after : List Nat} (h : l.kind = .cb after) :
    s.loadHeld w l = s.mxLive (s.coreOf (s.primaryWarp w)) after := by
  have haway : s.loadAway w l = [] := State.loadAway_of_not_mem (by simp [h])
  rw [State.loadHeld, haway, h, List.isEmpty_nil, Bool.not_true, Bool.or_false]

theorem State.loadHeld_poll {cid d : Nat} (h : l.kind = .poll cid d) : s.loadHeld w l = false := by
  have haway : s.loadAway w l = [] := State.loadAway_of_not_mem (by simp [h])
  rw [State.loadHeld, haway, h, List.isEmpty_nil, Bool.not_true, Bool.or_false]

end

/-! ### Write-backs -/

section
variable (hwarp : s.warp? w = some x)
include hwarp

section
variable {id : Nat} {l : Load} (hl : x.loads.find? (fun k => decide (k.id = id)) = some l)
include hl

theorem exec_loadWriteback_of_find : exec (.loadWriteback w id) s =
    if s.loadHeld w l then event (((s.loadAway w l).foldl State.askRecall s).addDue (.loadWriteback w id))
    else event (s.landLoad w id l) := by
  rw [exec_loadWriteback, execLoadWriteback, hwarp, Option.bind_some, hl]
  rfl

theorem happens_loadWriteback_held (h : s.loadHeld w l = true) :
    Happens (.loadWriteback w id) s (((s.loadAway w l).foldl State.askRecall s).addDue (.loadWriteback w id)) :=
  (exec_loadWriteback_of_find hwarp hl).trans (if_pos h)

theorem happens_loadWriteback_lands (h : s.loadHeld w l = false) :
    Happens (.loadWriteback w id) s (s.landLoad w id l) :=
  (exec_loadWriteback_of_find hwarp hl).trans (if_neg (Bool.eq_false_iff.1 h))

/-- A load that is not held back, of any kind but a poll, delivers its values to its registers. -/
theorem happens_loadWriteback_delivers (h : s.loadHeld w l = false) (hkind : ∀ cid d, l.kind ≠ .poll cid d) :
    Happens (.loadWriteback w id) s ((s.fillCopies w l).updWarp w fun x =>
      { x with loads := x.loads.filter fun k => decide (k.id ≠ id) }.deliverAll l.regs l.zero (s.loadVals w l)) := by
  have hland := happens_loadWriteback_lands hwarp hl h
  rw [State.landLoad] at hland
  cases hk : l.kind with
  | poll cid d => exact absurd hk (hkind cid d)
  | mem sp z c f => simpa only [hk] using hland
  | cb after => simpa only [hk] using hland

theorem happens_loadWriteback_away {sp : Space} {z : Nat} {c f : Bool} (hkind : l.kind = .mem sp z c f)
    (haway : s.loadAway w l ≠ []) :
    Happens (.loadWriteback w id) s (((s.loadAway w l).foldl State.askRecall s).addDue (.loadWriteback w id)) :=
  happens_loadWriteback_held hwarp hl (by simpa [State.loadHeld_mem hkind] using haway)

theorem happens_loadWriteback_mem {sp : Space} {z : Nat} {c f : Bool} (hkind : l.kind = .mem sp z c f)
    (haway : s.loadAway w l = []) :
    Happens (.loadWriteback w id) s ((s.fillCopies w l).updWarp w fun x =>
      { x with loads := x.loads.filter fun k => decide (k.id ≠ id) }.deliverAll l.regs l.zero (s.loadVals w l)) :=
  happens_loadWriteback_delivers hwarp hl (by simp [State.loadHeld_mem hkind, haway]) (by simp [hkind])

theorem happens_loadWriteback_cb {after : List Nat} (hkind : l.kind = .cb after)
    (hlive : s.mxLive (s.coreOf (s.primaryWarp w)) after = false) :
    Happens (.loadWriteback w id) s ((s.fillCopies w l).updWarp w fun x =>
      { x with loads := x.loads.filter fun k => decide (k.id ≠ id) }.deliverAll l.regs l.zero (s.loadVals w l)) :=
  happens_loadWriteback_delivers hwarp hl ((State.loadHeld_cb hkind).trans hlive) (by simp [hkind])

theorem happens_loadWriteback_cb_waits {after : List Nat} (hkind : l.kind = .cb after)
    (hlive : s.mxLive (s.coreOf (s.primaryWarp w)) after = true) :
    Happens (.loadWriteback w id) s (s.addDue (.loadWriteback w id)) := by
  have hheld := happens_loadWriteback_held hwarp hl ((State.loadHeld_cb hkind).trans hlive)
  rwa [State.loadAway_of_not_mem (by simp [hkind])] at hheld

theorem happens_loadWriteback_poll {cid d : Nat} (hkind : l.kind = .poll cid d) :
    Happens (.loadWriteback w id) s ((s.fillCopies w l).updWarp w fun x =>
      ({ x with loads := x.loads.filter fun k => decide (k.id ≠ id) }.setG d
        ⟨((s.group? w.g).map fun (g : Group) => sgetD g.ids cid 2).getD 2, false⟩).fillG d) := by
  have hland := happens_loadWriteback_lands hwarp hl (State.loadHeld_poll hkind)
  simpa only [State.landLoad, hkind] using hland

end

/-- An atomic whose lanes have all returned, of a group without a copy, delivers its results (R277). -/
theorem happens_atomicWriteback {id : Nat} {a : AtomWb} (ha : x.atoms.find? (fun b => decide (b.id = id)) = some a)
    (hprimary : s.isTwin w.g = false) (hleft : a.left = 0) (hsingle : s.twinOf w.g = none) :
    Happens (.atomicWriteback w id) s (s.updWarp w fun x =>
      { x with atoms := x.atoms.filter fun b => decide (b.id ≠ id) }.deliverAll a.regs a.zero a.res) := by
  rw [Happens, exec_atomicWriteback, execAtomicWriteback, hwarp, Option.bind_some, ha]
  simp only [hprimary, hleft, hsingle]
  rfl

theorem happens_barwtLimit {pc : Nat} {g : Group} (hgroup : s.group? w.g = some g) (hst : g.st = .resident)
    (hcounts : sget? x.barLimit pc = some false) :
    Happens (.barwtLimit w pc) s ((s.setWarp w { x with barLimit := sset x.barLimit pc true }).wakeWarp w) := by
  rw [Happens, exec_barwtLimit, execBarwtLimit, hgroup, hwarp]
  exact if_pos ⟨hst, hcounts⟩

end

/-! ### Hot lines and ownership (R271 to R274, R354) -/

/-- The oldest request is performed with the others of its instruction that stand right behind it, as `headRun` cuts them off. -/
theorem happens_hotQueueRetire {line : Nat} {q : AtomReq} {r : List AtomReq} (h : sget? s.hot line = some (q :: r)) :
    let own := r.takeWhile fun p => decide (p.wid = q.wid) && decide (p.id = q.id)
    Happens (.hotQueueRetire line) s (({ s with hot := sset s.hot line (r.drop own.length) }).performAll (q :: own)) := by
  rw [Happens, exec_hotQueueRetire, execHotQueueRetire, State.retireHot, h]
  rfl

theorem happens_hotModeExpiry {line : Nat} (h : sget? s.hot line = some []) :
    Happens (.hotModeExpiry line) s { s with hot := sdel s.hot line } := by
  rw [Happens, exec_hotModeExpiry, execHotModeExpiry, h]
  rfl

theorem happens_ownershipRequest (core : Nat) {line : Nat} (h : s.recallWaits line = false) :
    Happens (.ownershipRequest core line) s (s.takeOwnership core line) := if_neg (Bool.eq_false_iff.1 h)

theorem happens_ownershipRequest_recalls (core : Nat) {line : Nat} (h : s.recallWaits line = true) :
    Happens (.ownershipRequest core line) s
      { s.askRecall line with ownAsks := addOnce (core, line) (s.askRecall line).ownAsks } := if_pos h

end

/-- Settles O32: a special function is delivered as its record says, a load waits or lands by its kind, an atomic lands, and each
event of a barrier or of a line has its own effect. -/
theorem writebacksHappen : Obligations.WritebacksHappen := by
  intro s w x hwarp
  refine ⟨?special, fun id l hl => ⟨?away, ?memory, fun after hkind => ⟨?bank, ?engine⟩, ?poll⟩, ?atomic, ?limit, ?retires, ?cold,
    ?owned, ?recalls⟩
  case special => exact fun _ _ _ => rfl
  case away => exact fun _ _ _ _ hkind haway => happens_loadWriteback_away hwarp hl hkind haway
  case memory => exact fun _ _ _ _ hkind haway => happens_loadWriteback_mem hwarp hl hkind haway
  case bank => exact happens_loadWriteback_cb hwarp hl hkind
  case engine => exact happens_loadWriteback_cb_waits hwarp hl hkind
  case poll => exact fun _ _ hkind => happens_loadWriteback_poll hwarp hl hkind
  case atomic => exact fun _ _ ha hprimary hleft hsingle => happens_atomicWriteback hwarp ha hprimary hleft hsingle
  case limit => exact fun _ _ hgroup hst hcounts => happens_barwtLimit hwarp hgroup hst hcounts
  case retires => exact fun _ _ _ h => happens_hotQueueRetire h
  case cold => exact fun _ h => happens_hotModeExpiry h
  case owned => exact fun core _ h => happens_ownershipRequest core h
  case recalls => exact fun core _ h => happens_ownershipRequest_recalls core h

end Sys2Proof.Machine
end

section
/-! SUPPORT. A write-through that reaches the coherent level (14_ordering R250): which of the pending ones go with it, and what
memory holds after them. -/

namespace Sys2Proof.Machine

/-- The last of several bytes written at an address is the one that stays. -/
theorem Mem.byte_setCells_last (m : Mem) (pre : SMap Byte) {a : Nat} (v : Byte) {post : SMap Byte} (h : ∀ e ∈ post, e.1 ≠ a) :
    (m.setCells (pre ++ (a, v) :: post)).byte a = v := by
  rw [Mem.setCells_append]
  calc (((m.setCells pre).setByte a v).setCells post).byte a
    _ = ((m.setCells pre).setByte a v).byte a := Mem.byte_setCells_out _ post h
    _ = v := Mem.byte_setByte_same ..

/-- Write-throughs of one line that land leave memory with their bytes in their order, and the rest pending. -/
theorem land_spec {s : State} {line : Nat} {p : WriteThrough → Bool} (hp : ∀ w ∈ s.wts.filter p, w.line = line)
    (hwaits : s.waitsOn line (fun _ => true) = []) (hhot : s.noQueue line) :
    let u := s.land p
    u.groups = s.groups ∧ u.wts = s.wts.filter (fun w => !p w) ∧
      ∀ a, u.mem.byte a = (s.mem.setCells ((s.wts.filter p).map fun w => w.data).flatten).byte a :=
  landList_spec (s.wts.filter p) hp { s with wts := s.wts.filter fun w => !p w } hwaits hhot

/-- The recall of a line from its owners leaves what a landing write-through looks at. -/
theorem recallOwned_keeps (s : State) (core line : Nat) : let u := s.recallOwned core line
    u.groups = s.groups ∧ u.wts = s.wts ∧ u.waits = s.waits ∧ u.hot = s.hot ∧ u.mem = s.mem := by
  have h := recallOwned_shape s core line
  dsimp only at h ⊢
  refine ⟨?_, ?_, ?_, ?_, ?_⟩ <;> rw [h]

/-- Settles O57: the line is recalled, its write-throughs land in order, and the last byte of each address stays. -/
theorem writeThroughFrame : Obligations.WriteThroughFrame := by
  intro s id wt hfind hrecall hgrant hwaits hhot now cells
  obtain ⟨hgroups, hwts, hwaits', hhot', hmem⟩ := recallOwned_keeps s wt.core wt.line
  let t := s.recallOwned wt.core wt.line
  have hline : ∀ w ∈ t.wts.filter now, w.line = wt.line := by
    intro w hw
    have hnow : now w = true := (List.mem_filter.1 hw).2
    simp only [now, Bool.and_eq_true, decide_eq_true_eq] at hnow
    exact hnow.1.2
  have hnone : t.waitsOn wt.line (fun _ => true) = [] := by rwa [State.waitsOn, hwaits']
  have hquiet : t.noQueue wt.line := by rwa [State.noQueue, hhot']
  obtain ⟨hg, hw, hbyte⟩ := land_spec hline hnone hquiet
  rw [hwts] at hw
  rw [hmem, hwts] at hbyte
  refine ⟨_, happens_writeThroughArrival_lands hfind hrecall hgrant, hg.trans hgroups, hw, fun a ha => ?_,
    fun pre a v post hcells hpost => ?_⟩
  · exact (hbyte a).trans (Mem.byte_setCells_out _ cells ha)
  · exact (hbyte a).trans ((congrArg (fun c => (s.mem.setCells c).byte a) hcells).trans (Mem.byte_setCells_last _ pre v hpost))

end Sys2Proof.Machine
end

section
/-! SUPPORT. A step that runs an event or only passes (01_machine, 22_faults R405): the environment's move, the engines' event,
the slot in which no warp can issue, and the package that is held in reset. -/

namespace Sys2Proof.Machine

section
variable {s : State} {i : Instr} {r : List Move}

theorem step_of_event (h : s.agenda = .event i :: r) : step s = stepEvent { s with agenda := r } i := by
  simp only [step, h]

theorem stepEvent_of_reaches (hcoded : i.coded = false) (h : s.reaches i = true) : stepEvent s i = exec i s := by
  simp only [stepEvent, hcoded, h, Bool.not_true, Bool.or_self, Bool.false_eq_true, if_false]

theorem stepEvent_of_not_reaches (h : i.coded = true ∨ s.reaches i = false) : stepEvent s i = .next s.ticked := by
  refine if_pos ?_
  rcases h with h | h
  · rw [h, Bool.true_or]
  · rw [h, Bool.not_false, Bool.or_true]

theorem step_of_issue_refused {w : WarpId} (h : s.agenda = .issue w :: r) (hcan : s.canIssue w = false) :
    step s = .next ({ s with agenda := r } : State).ticked := by
  simp only [step, h, hcan, Bool.false_eq_true, if_false]

theorem step_of_due {t : State} (h : s.agenda = []) (hrunning : s.stopped = .running) (hdue : s.pickDue = some (i, t)) :
    step s = exec i t := by
  simp [step, h, hrunning, hdue]

theorem issueSlot_of_nil {run : State → WarpId → Out} {slot : Nat} (h : s.slotWarps slot = []) :
    issueSlot run s slot = .next ((s.passSlot slot).endSlot (s.resting slot)).ticked := by
  simp only [issueSlot, h]

theorem step_of_stopped (h : s.agenda = []) (hstopped : s.stopped ≠ .running) : step s = .next s.ticked := by
  simp only [step, h]
  exact if_pos hstopped

end

/-- Settles O49: each kind of move, and each case without one, is a case of the step. -/
theorem stepRunsEvents : Obligations.StepRunsEvents := by
  intro s i
  refine ⟨?runs, ?passes, ?refused, ?due, ?idle, ?held⟩
  case runs => exact fun r h hcoded hreach => (step_of_event h).trans (stepEvent_of_reaches hcoded hreach)
  case passes => exact fun r h hnot => (step_of_event h).trans (stepEvent_of_not_reaches hnot)
  case refused => exact fun w r h hcan => step_of_issue_refused h hcan
  case due => exact fun t h hrunning hdue => step_of_due h hrunning hdue
  case idle => exact fun h hrunning hdue hslot => (step_of_no_event h hrunning hdue).trans (issueSlot_of_nil hslot)
  case held => exact fun h hstopped => step_of_stopped h hstopped

end Sys2Proof.Machine
end

section
/-! SUPPORT. A tripped package (22_faults R405): no warp can issue, no event but the loss of power reaches it, so each step drops
one move and counts. -/

namespace Sys2Proof.Machine

section
variable {s : State}

theorem canIssue_of_trip (h : s.stopped = .trip) (w : WarpId) : s.canIssue w = false := by
  simp [State.canIssue, h]

theorem reaches_of_trip (h : s.stopped = .trip) {i : Instr} (hi : ∀ c, i ≠ .powerLoss c) : s.reaches i = false := by
  unfold State.reaches
  rw [h]
  cases i with
  | powerLoss c => exact absurd rfl (hi c)
  | _ => rfl

/-- No move of the environment but the loss of power, and no event of the engines, happens in a tripped package. -/
theorem step_of_trip (h : s.stopped = .trip) (hpower : ∀ c, Move.event (.powerLoss c) ∉ s.agenda) :
    step s = .next ({ s with agenda := s.agenda.tail } : State).ticked := by
  have hstill : s.stopped ≠ .running := by rw [h]; decide
  cases ha : s.agenda with
  | nil =>
    rw [step_of_stopped ha hstill, List.tail_nil, ← ha]
  | cons m r =>
    cases m with
    | event i =>
      have hi : ∀ c, i ≠ .powerLoss c := fun c hc => hpower c (by rw [ha, hc]; exact List.mem_cons_self)
      exact (step_of_event ha).trans (stepEvent_of_not_reaches (.inr (reaches_of_trip h hi)))
    | issue w => exact step_of_issue_refused ha (canIssue_of_trip h w)

end

/-- Settles O59: the step drops the environment's next move, which cannot be the loss of power, and counts. -/
theorem trippedPackageStays : Obligations.TrippedPackageStays := by
  intro s ⟨htrip, hpower⟩
  exact ⟨_, step_of_trip htrip hpower, ⟨htrip, fun c h => hpower c (List.mem_of_mem_tail h)⟩, rfl, rfl, rfl⟩

end Sys2Proof.Machine
end

section
/-! SUPPORT. The words that the spec writes out (03_encoding), read by the decoder. -/

namespace Sys2Proof.Machine

/-- Settles O50: each word is a closed term of the decoder. -/
theorem decodesTheWordsOfTheSpec : Obligations.DecodesTheWordsOfTheSpec := by
  and_intros <;> decide +kernel

end Sys2Proof.Machine
end

section
/-! SUPPORT. LD, LDT, PRF and PGQ (13_memory R235 to R239, 19_page R350): the accesses are free, and each instruction does what
its kind of load does. -/

namespace Sys2Proof.Machine

section
variable {s : State} {w : WarpId} {x : Warp} {b : Bundle} {f : FmtM} {wd : MemWidth}

theorem exec_ld : exec (.ld wd f) s = execLd wd f s := rfl

theorem exec_ldt : exec (.ldt f) s = execLdt f s := rfl

theorem exec_prf : exec (.prf f) s = execPrf f s := rfl

theorem exec_pgq : exec (.pgq f) s = execPgq f s := rfl

/-- The record that a memory instruction works on is the presented one. -/
@[simp] theorem memOperands_w (q : MSpec) : (memOperands s w x b q f).w = x.presented := rfl

variable (hi : Issuing s w x b)
include hi

theorem completes_ld (hready : MemReady s w x b (specLd wd f.ty) f) :
    let t := s.issued w
    let y := x.presented
    let i := mkIss s w x b (unitSize f.pfx)
    let m := memOperands s w x b (specLd wd f.ty) f
    let n := memWidth wd f.ty
    let d := m.d.regs
    SpaceFree t i f.sp (mayLoad f.sp) n n m.places → PlaceFree t i y f.sp .rd n m.places →
    Completes (.ld wd f) s w x b (unitSize f.pfx) false (((t.touchAll i f.sp .rd m.places).tieL2w w f.sp).startLoad w
      (.mem f.sp 0 (decide (f.cp = .noalloc)) (decide (f.ty = .i32))) d m.zeroMask
      ((m.places.map fun e => (List.range d.length).map fun j =>
        t.loadItem i y f.sp e.1 (d.getD j 0) (e.2 + 4 * j) (memBytes wd)).flatten)) := by
  intro t y i m n d hspace hplace
  rw [Completes, exec_ld, execLd]
  refine memFrame_ready hi hready ?_
  simp only [memOperands_w, mkIss_wid, spaceChecks_free hspace, placeChecks_free hplace, t, y, i, m, n, d]

theorem completes_ldt (hready : MemReady s w x b specLdt f) :
    let t := s.issued w
    let y := x.presented
    let i := mkIss s w x b (unitSize f.pfx)
    let m := memOperands s w x b specLdt f
    let d := m.d.regs
    let pl := (List.range 32).map fun L => (L, m.row (L % 16))
    wholeWarp i y m.act = true → m.rowOffenders = [] → SpaceFree t i f.sp (mayLoad f.sp) 1 16 pl →
    PlaceFree t i y f.sp .rd 16 pl →
    Completes (.ldt f) s w x b (unitSize f.pfx) false
      (((t.touchAll i f.sp .rd pl).tieL2w w f.sp).startLoad w (.mem f.sp 0 (decide (f.cp = .noalloc)) false) d 0
        ((List.range 2).map fun j => (List.range 32).map fun L =>
          t.loadItem i y f.sp L (d.getD j 0) ((m.row (L % 16) + 4 * (2 * j + L / 16)) % 2 ^ 64) 4).flatten) := by
  intro t y i m d pl hwhole haligned hspace hplace
  rw [Completes, exec_ldt, execLdt]
  refine memFrame_whole hi hready hwhole ?_
  simp only [memOperands_w, mkIss_wid, haligned, spaceChecks_free hspace, placeChecks_free hplace, t, y, i, m, d, pl]

theorem completes_prf (hready : MemReady s w x b (mPlain [.b32] .none) f) :
    let t := s.issued w
    let i := mkIss s w x b (unitSize f.pfx)
    let m := memOperands s w x b (mPlain [.b32] .none) f
    SpaceFree t i f.sp (isGen f.sp) 1 1 m.places →
    Completes (.prf f) s w x b (unitSize f.pfx) false (m.places.foldl (fun u e =>
      u.prefetch i (decide (f.sp = .const)) (decide (f.cp = .noalloc)) e.2) t) := by
  intro t i m hspace
  rw [Completes, exec_prf, execPrf]
  refine memFrame_ready hi hready ?_
  simp only [spaceChecks_free hspace, t, i, m]

theorem completes_pgq {vals : List (Nat × Lane)} (hready : MemReady s w x b { mPlain [.b32] (.v 1 1) with noPolicy := true } f) :
    let t := s.issued w
    let y := x.presented
    let i := mkIss s w x b (unitSize f.pfx)
    let m := memOperands s w x b { mPlain [.b32] (.v 1 1) with noPolicy := true } f
    SpaceFree t i f.sp (isGen f.sp) 1 1 m.places → t.queries i y m.places = .ok vals →
    Completes (.pgq f) s w x b (unitSize f.pfx) false
      (t.setWarp w (m.d.regs.foldl (fun z r => z.deliver r m.zeroMask vals) y)) := by
  intro t y i m hspace hvals
  rw [Completes, exec_pgq, execPgq]
  refine memFrame_ready hi hready ?_
  simp only [memOperands_w, mkIss_wid, spaceChecks_free hspace, hvals, t, y, i, m]

end

/-- Settles O16: past their checks LD and LDT start a load, PRF brings its lines closer and PGQ has its answers. -/
theorem loadsComplete : Obligations.LoadsComplete := by
  intro s w x b f hi t y i done
  refine ⟨?ld, ?ldt, ?prf, ?pgq⟩
  case ld => exact fun wd hready => completes_ld hi hready
  case ldt => exact fun hready => completes_ldt hi hready
  case prf => exact fun hready => completes_prf hi hready
  case pgq => exact fun hready hspace vals hvals => completes_pgq hi hready hspace hvals

end Sys2Proof.Machine
end

section
/-! SUPPORT. CPA and CPA.GCM, the joins of copies, CPPOLL and CCTL (13_memory R240 to R248): what each leaves once its checks
have passed. -/

namespace Sys2Proof.Machine

section
variable {s : State} {w : WarpId} {x : Warp} {b : Bundle} {f : FmtS}

theorem exec_cpa : exec (.cpa f) s = copyInstr f false (.cpa f) s := rfl

theorem exec_cpaGcm : exec (.cpaGcm f) s = copyInstr f true (.cpaGcm f) s := rfl

theorem exec_cpwait : exec (.cpwait f) s = execCpwait f s := rfl

theorem exec_cpwaitId : exec (.cpwaitId f) s = execCpwaitId f s := rfl

theorem exec_cppoll : exec (.cppoll f) s = execCppoll f s := rfl

theorem exec_cctlInv : exec (.cctlInv f) s = execCctlInv f s := rfl

theorem exec_cctlInvr : exec (.cctlInvr f) s = execCctlInvr f s := rfl

theorem exec_cctlWayset : exec (.cctlWayset f) s = execCctlWayset f s := rfl

/-! ### Joins (R245) -/

/-- The status word of a completion ID in its group; 2 where it was never used (R244). -/
def State.idStatus (s : State) (g n : Nat) : DWord := ((s.group? g).map fun g => sgetD g.ids n 2).getD 2

/-- The first ID of a list whose status is an error (R245). -/
def State.firstBad (s : State) (g : Nat) (ids : List Nat) : Option Nat :=
  ids.find? fun n => decide ((s.idStatus g n).toNat % 32 ≠ 0) && decide ((s.idStatus g n).toNat % 32 ≠ 2)

/-- A join of IDs none of which is in flight gives the first bad status, or 0. -/
theorem cpJoin_idle {i : Iss} {d : Nat} {ids : List Nat} (h : ∀ n ∈ ids, s.idBusy i.wid.g n = false) :
    cpJoin s i d ids = .ok (s.putG i.wid d (((s.firstBad i.wid.g ids).map (s.idStatus i.wid.g)).getD 0)) := by
  have hidle : ids.any (s.idBusy i.wid.g) = false := List.any_eq_false.2 fun n hn => Bool.eq_false_iff.1 (h n hn)
  exact if_neg (Bool.eq_false_iff.1 hidle)

section
variable (hi : Issuing s w x b)
include hi

/-! ### Copies (R242, R243) -/

theorem copyInstr_completes {gcm : Bool} {ins : Instr} {g : Group} :
    let t := s.issued w
    let y := x.presented
    let i := mkIss s w x b 8
    let o := copyOpds y f gcm
    SysReady x (fourOf f.sa ++ if gcm then [f.sb.toNat, f.sb.toNat + 1] else []) [] → wholeWarp i y b.mask = true →
    o.offenders = [] → mayCopyDst o.dsp = true → mayCopySrc o.ssp = true → o.outside t i = none → o.gcmCheck t i y = .ok () →
    t.sealedFor i [o.dsp, o.ssp] = false →
    (t.isTwin w.g = false → t.idBusy w.g o.id = false ∧ (t.copies.filter fun c => decide (c.core = i.core)).length < 64) →
    CommitReady t w g y →
    let c := t.committed w g y b.mask i.fall
    copyInstr f gcm ins s = .next (((if t.isTwin w.g then c else c.startCopy i o).fallThrough i).retire true i) := by
  intro t y i o hregs hwhole haligned hdst hsrc hinside htag hunsealed hroom hcommit c
  have hshape : checkWhole t i y b.mask = .ok () := if_pos hwhole
  have hfree : (!t.isTwin w.g && (t.idBusy w.g o.id || decide (64 ≤ (t.copies.filter fun c => decide (c.core = i.core)).length))) =
      false := by
    cases htwin : t.isTwin w.g with
    | true => rfl
    | false =>
      obtain ⟨hidle, hfew⟩ := hroom htwin
      rw [hidle, Bool.not_false, Bool.true_and, Bool.false_or]
      exact decide_eq_false (Nat.not_le.2 hfew)
  refine issue_ok hi ?_
  simp only [mkIss_wid, mkIss_lanes, warp?_issued_of_issuing hi, hshape, sysRegs_ready hregs, haligned, hdst, hsrc, hinside, htag,
    hunsealed, hfree, commit_ready hcommit, Bool.not_true, Bool.false_eq_true, if_false, t, y, i, o, c]
  rfl

theorem completes_cpwait (hregs : SysReady x [f.sa.toNat] [f.d.toNat])
    (hidle : ∀ n ∈ (List.range 64).filter fun n => (x.gv f.sa).getLsbD n, (s.issued w).idBusy w.g n = false) :
    let t := s.issued w
    let ids := (List.range 64).filter fun n => (x.gv f.sa).getLsbD n
    Completes (.cpwait f) s w x b 8 false (t.putG w f.d.toNat (((t.firstBad w.g ids).map (t.idStatus w.g)).getD 0)) :=
  exec_cpwait.trans (sysFrame_ready hi hregs (cpJoin_idle hidle))

theorem completes_cpwaitId (hregs : SysReady x [] [f.d.toNat])
    (hidle : ∀ n ∈ [fld f.imm.toNat 0 6], (s.issued w).idBusy w.g n = false) :
    let t := s.issued w
    let ids := [fld f.imm.toNat 0 6]
    Completes (.cpwaitId f) s w x b 8 false (t.putG w f.d.toNat (((t.firstBad w.g ids).map (t.idStatus w.g)).getD 0)) :=
  exec_cpwaitId.trans (sysFrame_ready hi hregs (cpJoin_idle hidle))

theorem completes_cppoll (hregs : SysReady x [] [f.d.toNat]) :
    Completes (.cppoll f) s w x b 8 false
      (((s.issued w).startLoad w (.poll (fld f.imm.toNat 0 6) f.d.toNat) [] 0 []).updWarp w fun z => z.emptyG f.d.toNat) :=
  exec_cppoll.trans (sysFrame_ready hi hregs rfl)

/-! ### CCTL (R225, R227, R248) -/

theorem completes_cctlInv :
    Completes (.cctlInv f) s w x b 8 false ((s.issued w).setCore (mkIss s w x b 8).core Core.empty) := by
  have hregs : SysReady x [] [] := ⟨by simp, by simp⟩
  rw [Completes, exec_cctlInv, execCctlInv]
  exact sysFrame_ready hi hregs rfl

theorem completes_cctlInvr (hregs : SysReady x [f.sa.toNat, f.sb.toNat] []) :
    let i := mkIss s w x b 8
    Completes (.cctlInvr f) s w x b 8 false ((s.issued w).dropRange i.core i.ctx (x.gv f.sa).toNat (x.gv f.sb).toNat) :=
  exec_cctlInvr.trans (sysFrame_ready hi hregs rfl)

section
variable (hregs : SysReady x [] [f.d.toNat])
include hregs

theorem completes_cctlWayset_unposted :
    let t := s.issued w
    let i := mkIss s w x b 8
    (t.l2wOf (l2wKey i.ctx (sectorOf i.core))).posted = none →
    Completes (.cctlWayset f) s w x b 8 false (t.putG w f.d.toNat 1) := by
  intro t i hnone
  rw [Completes, exec_cctlWayset, execCctlWayset]
  refine sysFrame_ready hi hregs ?_
  simp only [mkIss_wid, hnone, t, i]

theorem completes_cctlWayset {m : BitVec 16 × BitVec 16} :
    let t := s.issued w
    let i := mkIss s w x b 8
    let key := l2wKey i.ctx (sectorOf i.core)
    (t.l2wOf key).posted = some m → t.l2wBusy key = false →
    Completes (.cctlWayset f) s w x b 8 false ((t.installWays key m).putG w f.d.toNat 0) := by
  intro t i key hposted hidle
  rw [Completes, exec_cctlWayset, execCctlWayset]
  refine sysFrame_ready hi hregs ?_
  simp only [mkIss_wid, hposted, hidle, Bool.false_eq_true, if_false, t, i, key]

end

end

end

/-- Settles O20: a copy passes its checks and starts, a join of idle IDs answers, CPPOLL starts its read. -/
theorem copiesComplete : Obligations.CopiesComplete := by
  intro s w x b f hi t y i
  refine ⟨?copy, ?join, completes_cppoll hi⟩
  case copy =>
    rintro gcm ins (⟨rfl, rfl⟩ | ⟨rfl, rfl⟩) srcs o hregs hwhole haligned hdst hsrc hinside htag hunsealed hroom g hcommit
    · exact exec_cpa.trans
        (copyInstr_completes hi hregs hwhole haligned hdst hsrc hinside htag hunsealed hroom hcommit)
    · exact exec_cpaGcm.trans
        (copyInstr_completes hi hregs hwhole haligned hdst hsrc hinside htag hunsealed hroom hcommit)
  case join =>
    rintro ins ids (⟨rfl, hregs, rfl⟩ | ⟨rfl, hregs, rfl⟩) hidle
    · exact completes_cpwait hi hregs hidle
    · exact completes_cpwaitId hi hregs hidle

/-- Settles O21: INV and INVR drop copies, WAYSET installs masks that are posted and answers 1 where none are. -/
theorem cacheControlCompletes : Obligations.CacheControlCompletes := by
  intro s w x b f hi t i key
  exact ⟨completes_cctlInv hi, completes_cctlInvr hi, completes_cctlWayset_unposted hi,
    fun _ hregs => completes_cctlWayset hi hregs⟩

end Sys2Proof.Machine
end

section
/-! SUPPORT. A copy in flight (13_memory R243, R245, R247): a line's share is written, a tag is verified, the copy ends. -/

namespace Sys2Proof.Machine

section
variable {s : State} {id : Nat} {c : Copy}

theorem exec_copyLineWrite (line : Nat) : exec (.copyLineWrite id line) s = execCopyLineWrite id line s := rfl

theorem exec_tagVerify : exec (.tagVerify id) s = execTagVerify id s := rfl

theorem exec_copyEnd : exec (.copyEnd id) s = execCopyEnd id s := rfl

/-- The state after the line's share is written: the line has landed, and nothing of it is left to do (R243). -/
def Copy.lineWritten (c : Copy) (s : State) (id line onto : Nat) (gs : List (Nat × Granule)) : State :=
  let m := movedTo onto (granuleCells gs) (granulePsn gs)
  let u := c.keepTier s gs
  let t := if isGen c.dsp then u.engineStore c.ctx (u.coresFor c.wid) onto m.1 m.2
    else u.localWrite c.iss c.dsp line (granuleCells gs) (granulePsn gs)
  ((t.scrUpd c.wid c.dsp line fun g k => g.landed k id).updCopy id fun x =>
    { x with todo := x.todo.filter (· ≠ line) }).wakeParked

/-- What the granules of a CPA.GCM say: cipher text, tag, and the poison of each byte (R88). -/
def Copy.gcmCipher (c : Copy) (gs : List (Nat × Granule)) : List Byte := ((gs.take (c.bytes / 16)).map fun e => e.2.data).flatten

def Copy.gcmTagRead (c : Copy) (gs : List (Nat × Granule)) : List Byte := ((gs.drop (c.bytes / 16)).map fun e => e.2.data).flatten

def Copy.gcmPoison (c : Copy) (gs : List (Nat × Granule)) : List Bool :=
  ((gs.take (c.bytes / 16)).map fun e => (List.range 16).map fun j => e.2.psn.getD (j / 4) false).flatten

section
variable (hc : s.copies.find? (fun c => decide (c.id = id)) = some c)
include hc

theorem happens_copyLineWrite {line onto : Nat} {gs : List (Nat × Granule)} (herr : c.err = none) (htodo : line ∈ c.todo)
    (hverified : c.gcm = none ∨ c.verified = true)
    (hgs : gather ((List.range 8).filterMap fun j =>
      (c.granule s (128 * line + 16 * j)).map fun g => (128 * line + 16 * j, g)) = .ok gs)
    (hplace : c.place s line = .ok onto) :
    Happens (.copyLineWrite id line) s (c.lineWritten s id line onto gs) := by
  have htagged : (c.gcm.isSome && !c.verified) = false := by
    rcases hverified with h | h <;> simp [h]
  simp only [Happens, exec_copyLineWrite, execCopyLineWrite, hc, herr, htodo, htagged, hgs, hplace]
  rfl

section
variable {key : BitVec 256} {stream : Word} {ctr : DWord} {gs : List (Nat × Granule)} (hgcm : c.gcm = some (key, stream, ctr))
  (hopen : c.verified = false) (herr : c.err = none)
  (hgs : gather (((List.range (c.bytes / 16)).map fun j => (c.src + 16 * j, c.read s (c.src + 16 * j))) ++
    [(c.src + c.bytes, c.readTag s)]) = .ok gs)
include hgcm hopen herr hgs

theorem happens_tagVerify_good (htag : (Config.gcmTag key stream ctr (c.gcmCipher gs)).toList = c.gcmTagRead gs) :
    let plain := Config.gcmPlain key stream ctr (c.gcmCipher gs)
    Happens (.tagVerify id) s ((c.keepSources s (gs.map Prod.fst)).updCopy id fun x =>
      { x with verified := true, plain := (c.gcmPoison gs).zipIdx.map fun e => (plain e.2, e.1) }) := by
  simp only [Copy.gcmCipher, Copy.gcmTagRead] at htag
  simp only [Happens, exec_tagVerify, execTagVerify, hc, hgcm, hopen, herr, hgs, htag]
  rfl

theorem happens_tagVerify_bad (htag : (Config.gcmTag key stream ctr (c.gcmCipher gs)).toList ≠ c.gcmTagRead gs)
    (hwait : c.waiting (c.keepSources s (gs.map Prod.fst)) = none) :
    Happens (.tagVerify id) s
      ((c.todo.foldl (fun t n => t.markTagFail c n) (c.keepSources s (gs.map Prod.fst))).failCopy c 5 (128 * least c.todo)
        true) := by
  simp only [Copy.gcmCipher, Copy.gcmTagRead] at htag
  simp only [Happens, exec_tagVerify, execTagVerify, hc, hgcm, hopen, herr, hgs, htag, hwait]
  rfl

end

theorem happens_copyEnd (hdone : c.err.isSome = true ∨ c.todo = []) :
    let v := c.err.getD 0
    let t := (s.endAbsent c (decide (v.toNat % 128 = 69))).setId c.wid.g c.cid v
    Happens (.copyEnd id) s
      (({ t with copies := t.copies.filter fun x => decide (x.id ≠ id) }.wakeParked).groupCheck c.wid.g) := by
  have hnot : (c.err.isNone && !c.todo.isEmpty) = false := by
    rcases hdone with h | h
    · rw [← Option.not_isSome, h, Bool.not_true, Bool.false_and]
    · rw [h, List.isEmpty_nil, Bool.not_true, Bool.and_false]
  simp only [Happens, exec_copyEnd, execCopyEnd, hc, hnot]
  rfl

end

end

/-- Settles O34: a line of an untagged or verified copy is written, a tag decides, a copy with nothing to do ends. -/
theorem copiesProgress : Obligations.CopiesProgress := by
  intro s id c hc
  refine ⟨?line, ?tag, happens_copyEnd hc⟩
  case line => exact fun line gs onto herr htodo hverified hgs hplace => happens_copyLineWrite hc herr htodo hverified hgs hplace
  case tag =>
    intro key stream ctr gs hgcm hopen herr hgs
    exact ⟨happens_tagVerify_good hc hgcm hopen herr hgs, happens_tagVerify_bad hc hgcm hopen herr hgs⟩

end Sys2Proof.Machine
end

section
/-! SUPPORT. ATOM, RED and CAS, RTREE and the reduction trees (15_atomics R275 to R288): what the checks let through, and each case
of a contribution's arrival. -/

namespace Sys2Proof.Machine

/-! ### ATOM, RED and CAS (R275 to R280) -/

section
variable {s : State} {w : WarpId} {x : Warp} {b : Bundle}

theorem exec_atom (k : AtomFn) (f : FmtM) : exec (.atom k f) s = execAtom k f s := rfl

theorem exec_red (k : AtomFn) (f : FmtM) : exec (.red k f) s = execRed k f s := rfl

theorem exec_cas (f : FmtM) : exec (.cas f) s = execCas f s := rfl

theorem exec_rtree (ty : Ty) (f : FmtS) : exec (.rtree ty f) s = execRtree ty f s := rfl

/-- A poisoned operand raises POISON only where its line is homed elsewhere (R279). -/
theorem atomPoison_free {l : List (Nat × Nat)} {psn : Nat → Bool} {away : Nat → Bool}
    (h : ∀ e ∈ l, psn e.1 = true → away e.2 = false) :
    faultIf s (l.map fun e => (e.1, if psn e.1 && away e.2 then Chk.fault .poison 0 0 else .ok)) [.poison] = .ok () := by
  refine faultIf_ok fun e he => ?_
  obtain ⟨e, he', rfl⟩ := List.mem_map.1 he
  refine if_neg ?_
  rw [Bool.and_eq_true]
  exact fun hbad => Bool.eq_false_iff.1 (h e he' hbad.1) hbad.2

variable (hi : Issuing s w x b)
include hi

theorem atomic_completes {f : FmtM} {q : MSpec} {fn : Option AtomFn} {red : Bool} {ins : Instr} {g : Group} {u : State}
    (hready : MemReady s w x b q f) :
    let t := s.issued w
    let y := x.presented
    let i := mkIss s w x b (unitSize f.pfx)
    let m := memOperands s w x b q f
    let n := atomBytes f.ty
    let opd := m.atomOperand fn.isNone f.ty
    SpaceFree t i f.sp (mayAtom f.sp) n n m.places → atomChecks t i y f.sp n m.places = .ok () →
    (∀ e ∈ m.places, (opd e.1).2.2 = true → (isGen f.sp && decide (t.homeOf (t.atomPa i e.2) ≠ t.pkg)) = false) →
    (isGen f.sp = true → t.askAtoms i m fn f.ty = .ok ()) → CommitReady t w g y →
    (t.committed w g y b.mask i.fall).sendAtoms i m f.sp fn red f.ty = .ok u → atomic f q fn red ins s = .next (u.retire true i) := by
  intro t y i m n opd hspace hchecks hpoison hask hcommit hsend
  have hbad := atomPoison_free (s := t) (psn := fun L => (opd L).2.2)
    (away := fun a => isGen f.sp && decide (t.homeOf (t.atomPa i a) ≠ t.pkg)) hpoison
  have hasked : (if isGen f.sp then t.askAtoms i m fn f.ty else .ok ()) = .ok () := by
    split
    next hgen => exact hask hgen
    next => rfl
  refine memFrame_ready hi hready ?_
  simp only [opd, m, n, i, y, t] at hspace hbad hasked hchecks hcommit hsend ⊢
  simp only [memOperands_w, mkIss_wid, mkIss_lanes, spaceChecks_free hspace, hchecks, hbad, hasked, commit_ready hcommit, hsend]

/-! ### RTREE (R281 to R283) -/

/-- The sources of RTREE, its D and its vector register are read together: all full, none poisoned. -/
theorem completes_rtree {f : FmtS} {ty : Ty} {g : Group} :
    let t := s.issued w
    let y := x.presented
    let i := mkIss s w x b 8
    let o := treeOpds y f
    f.sa.toNat < s.allotOf w → wholeWarp i y b.mask = true → x.vFull f.sa.toNat = true →
    (∀ L < 32, (x.lane f.sa.toNat L).p = false) → SysReady x (fourOf f.sb) [f.d.toNat] → o.offenders = [] →
    GenFree t i y .wr none false 8 (i.onePlace o.result ++ i.onePlace o.status ++ i.onePlace o.counter) → CommitReady t w g y →
    Completes (.rtree ty f) s w x b 8 true
      (((t.committed w g y b.mask i.fall).sendLeaf i y f ty f.d.toNat o).fallThrough i) := by
  intro t y i o hbound hwhole hfull hclean hregs haligned hgen hcommit
  obtain ⟨hgfull, hgclean⟩ := hregs
  have hreg : regV (t.allotOf w) 1 false f.sa.toNat none = .ok f.sa.toNat :=
    regV_one_ok ((State.allotOf_issued s w w).symm ▸ hbound)
  have hshape : checkWhole t i y b.mask = .ok () := if_pos hwhole
  have hvec : waitFull t y b.mask [(.v f.sa.toNat 1, false)] = .ok () := by
    refine waitFull_ok fun e he => ?_
    rw [List.mem_singleton.1 he, Rs.empty?_issued]
    simp [Rs.empty?, hfull]
  have hgs : ((f.d.toNat :: fourOf f.sb).any fun r => !y.gFull r) = false := by
    refine List.any_eq_false.2 fun r hr => ?_
    have hr' : r ∈ fourOf f.sb ++ [f.d.toNat] := by simpa [or_comm] using hr
    rw [Warp.gFull_issued, hgfull r hr']
    exact Bool.false_ne_true
  have hlanes : (maskOf fun L => (y.lane f.sa.toNat L).p) = 0 := maskOf_eq_zero hclean
  have hsources : ((fourOf f.sb).any fun r => (y.greg r).p) = false :=
    List.any_eq_false.2 fun r hr => Bool.eq_false_iff.1 (hgclean r hr)
  rw [Completes, exec_rtree, execRtree]
  refine issue_ok hi ?_
  simp only [t, y, i, o] at hreg hshape hvec hgs hlanes hsources haligned hgen hcommit ⊢
  simp only [mkIss_wid, mkIss_lanes, warp?_issued_of_issuing hi, hreg, hshape, hvec, hgs, hlanes, hsources, haligned,
    genChecks_free hgen, commit_ready hcommit, ne_eq, not_true_eq_false, Bool.false_eq_true, if_false]

end

/-- Settles O18: each of the three is the atomic frame, whose checks, requests and commit pass. -/
theorem atomicsComplete : Obligations.AtomicsComplete := by
  intro s w x b f q fn red ins hins hi hready
  dsimp only
  intro hspace hchecks hpoison hask g hcommit u hsend
  have hruns : ∀ ins, atomic f q fn red ins s = .next (u.retire true (mkIss s w x b (unitSize f.pfx))) := fun _ =>
    atomic_completes hi hready hspace hchecks hpoison hask hcommit hsend
  rcases hins with ⟨k, rfl, rfl, rfl, rfl⟩ | ⟨k, rfl, rfl, rfl, rfl⟩ | ⟨rfl, rfl, rfl, rfl⟩
  · exact (exec_atom k f).trans (hruns _)
  · exact (exec_red k f).trans (hruns _)
  · exact (exec_cas f).trans (hruns _)

/-- Settles O19: the vector, the g registers and the targets pass their checks, and the leaf is sent after the commit. -/
theorem reductionTreeCompletes : Obligations.ReductionTreeCompletes := by
  intro s w x b f ty hi t y i o hbound hwhole hfull hclean hregs haligned hgen g hcommit
  exact completes_rtree hi hbound hwhole hfull hclean hregs haligned hgen hcommit

/-! ### Contributions (R284 to R288) -/

section
variable {s : State} {id : Nat}

theorem exec_contribution : exec (.contribution id) s = execContribution id s := rfl

theorem exec_rtreeTimeout : exec (.rtreeTimeout id) s = execRtreeTimeout id s := rfl

/-- The contribution `c` has the tag and the fields of `o`, and no recorded one has its leaf (R286). -/
abbrev Tree.Joins (t : Tree) (o c : Contrib) : Prop :=
  o.ty = c.ty ∧ o.result = c.result ∧ o.status = c.status ∧ o.counter = c.counter ∧ ∀ x ∈ t.got, x.leaf ≠ c.leaf

/-- The test that execution makes says that a contribution does not join. -/
theorem Tree.not_joins_iff {t : Tree} {o c : Contrib} :
    (o.ty ≠ c.ty ∨ o.result ≠ c.result ∨ o.status ≠ c.status ∨ o.counter ≠ c.counter ∨
      t.got.any (fun x => decide (x.leaf = c.leaf)) = true) ↔ ¬ t.Joins o c := by
  have hleaf : t.got.any (fun x => decide (x.leaf = c.leaf)) = true ↔ ¬ ∀ x ∈ t.got, x.leaf ≠ c.leaf := by simp
  rw [hleaf, Tree.Joins]
  tauto

section
variable {c : Contrib} (hc : s.contribs.find? (fun c => decide (c.id = id)) = some c)
include hc

section
variable (hnew : sget? s.trees (treeKey c.ctx c.sector c.shape) = none)
include hnew

theorem happens_contribution_shapeless (hshape : s.shapeAt c.sector c.shape = none) :
    Happens (.contribution id) s (s.dropLeaf c 5) := by
  simp only [Happens, exec_contribution, execContribution, hc, hnew, hshape]
  rfl

section
variable {sh : Shape} (hshape : s.shapeAt c.sector c.shape = some sh)
include hshape

theorem happens_contribution_noLeaf (hleaf : sh.leaves.getLsbD c.leaf = false) :
    Happens (.contribution id) s (s.dropLeaf c 5) := by
  simp only [Happens, exec_contribution, execContribution, hc, hnew, hshape, hleaf]
  rfl

theorem happens_contribution_closed (hleaf : sh.leaves.getLsbD c.leaf = true)
    (htag : sget? s.lastTag (treeKey c.ctx c.sector c.shape) = some c.tag) :
    Happens (.contribution id) s (s.dropLeaf c 3) := by
  simp only [Happens, exec_contribution, execContribution, hc, hnew, hshape, hleaf, htag]
  rfl

theorem happens_contribution_opens (hleaf : sh.leaves.getLsbD c.leaf = true)
    (htag : sget? s.lastTag (treeKey c.ctx c.sector c.shape) ≠ some c.tag) :
    Happens (.contribution id) s (s.recordLeaf (treeKey c.ctx c.sector c.shape) ⟨sh, [], false, none, [], []⟩ c) := by
  simp only [Happens, exec_contribution, execContribution, hc, hnew, hshape, hleaf, htag]
  rfl

end

end

section
variable {t : Tree} {o : Contrib} {r : List Contrib} (ht : sget? s.trees (treeKey c.ctx c.sector c.shape) = some t)
  (hgot : t.got = o :: r)
include ht hgot

theorem happens_contribution_otherTag (htag : o.tag ≠ c.tag) : Happens (.contribution id) s (s.dropLeaf c 4) := by
  simp only [Happens, exec_contribution, execContribution, hc, ht, hgot]
  rw [if_pos htag]
  rfl

theorem happens_contribution_disagrees (htag : o.tag = c.tag) (hnot : ¬ t.Joins o c) :
    Happens (.contribution id) s (s.dropLeaf c 2) := by
  have hdiffers := Tree.not_joins_iff.2 hnot
  rw [hgot] at hdiffers
  simp only [Happens, exec_contribution, execContribution, hc, ht, hgot]
  rw [if_neg (not_not_intro htag), if_pos hdiffers]
  rfl

theorem happens_contribution_joins (htag : o.tag = c.tag) (hjoins : t.Joins o c) :
    Happens (.contribution id) s (s.recordLeaf (treeKey c.ctx c.sector c.shape) t c) := by
  have hsame := mt Tree.not_joins_iff.1 (not_not_intro hjoins)
  rw [hgot] at hsame
  simp only [Happens, exec_contribution, execContribution, hc, ht, hgot]
  rw [if_neg (not_not_intro htag), if_neg hsame]
  rfl

end

end

theorem happens_rtreeTimeout {t : Tree} (ht : sget? s.trees id = some t) (hopen : t.closing = none) :
    Happens (.rtreeTimeout id) s (s.beginClose id t 1) := by
  simp only [Happens, exec_rtreeTimeout, execRtreeTimeout, ht, hopen]
  rfl

/-- A closed tree whose targets can be reached writes its results (R243, R288). -/
theorem happens_contribution_retries {name : Nat} {t : Tree} {c : Contrib} {r : List Contrib}
    (hnone : s.contribs.find? (fun c => decide (c.id = id)) = none)
    (ht : s.trees.find? (fun e => e.2.closing.isSome && decide ((e.2.got.head?.map Contrib.id) = some id)) = some (name, t))
    (hgot : t.got = c :: r) :
    let timeout := decide (t.closing = some 1)
    closeWait s t c ((if timeout then [] else [c.result]) ++ [c.status, c.counter]) = none →
    Happens (.contribution id) s (closeTree { s with trees := sdel s.trees name } t c timeout) := by
  intro timeout hwait
  simp only [Happens, exec_contribution, execContribution, hnone, State.retryClose, ht, State.runClose, hgot]
  rw [hwait]
  rfl

end

/-- Settles O33: a contribution's case of R286 is a case of its arrival; a timeout begins the close that a retry ends. -/
theorem treesHappen : Obligations.TreesHappen := by
  intro s
  refine ⟨fun id c hc => ⟨?shapeless, fun sh hnew hshape => ⟨?noLeaf, ?closed, ?opens⟩, fun t o r ht hgot =>
    ⟨?otherTag, ?disagrees, ?joins⟩⟩, ?timeout, ?retries⟩
  case shapeless => exact happens_contribution_shapeless hc
  case noLeaf => exact happens_contribution_noLeaf hc hnew hshape
  case closed => exact happens_contribution_closed hc hnew hshape
  case opens => exact happens_contribution_opens hc hnew hshape
  case otherTag => exact happens_contribution_otherTag hc ht hgot
  case disagrees => exact happens_contribution_disagrees hc ht hgot
  case joins => exact happens_contribution_joins hc ht hgot
  case timeout => exact fun _ _ ht hopen => happens_rtreeTimeout ht hopen
  case retries => exact fun _ _ _ _ _ hnone ht hgot => happens_contribution_retries hnone ht hgot

end Sys2Proof.Machine
end

section
/-! SUPPORT. FENCE, ACQ, REL, BIND and UNBIND (14_ordering R254 to R265): what they wait for is over, and what each then does. -/

namespace Sys2Proof.Machine

section
variable {s : State} {w : WarpId} {x : Warp} {b : Bundle} {f : FmtS}

theorem exec_fence : exec (.fence f) s = execFence f s := rfl

theorem exec_acq : exec (.acq f) s = execAcq f s := rfl

theorem exec_rel : exec (.rel f) s = execRel f s := rfl

theorem exec_bind : exec (.bind f) s = execBind f s := rfl

theorem exec_unbind : exec (.unbind f) s = execUnbind f s := rfl

/-- A part of a FENCE that is asked for and over holds nothing. -/
theorem asked_done {asked done : Bool} (h : asked = true → done = true) : (asked && !done) = false := by
  cases asked with
  | false => rfl
  | true => rw [h rfl, Bool.not_true, Bool.and_false]

/-- The first part of an instruction that performs a release where a bit asks for it (R258). -/
theorem commitRelease_asked {t u : State} {i : Iss} {y : Warp} {scope : Nat} {asked : Bool}
    (h : if asked then ReleaseReady t i y scope u else u = t) :
    (if asked then t.commitRelease i y [] scope else .ok t) = .ok u := by
  split at h
  next ha => rw [if_pos ha, commitRelease_ready h]
  next ha => rw [if_neg ha, h]

/-- The checks of ACQ pass, the request to the home from GANG up included (R264). -/
theorem acqChecks_free {t : State} {i : Iss} {y : Warp} {a scope : Nat} (hread : ReadFree t i y 8 (i.onePlace a))
    (hask : 2 ≤ scope → t.askRemote i.wid (fun n => .read (128 * n)) [lineOf (t.paOf i a .rd)] = .ok ()) :
    t.acqChecks i y a scope = .ok () := by
  rw [State.acqChecks, readChecks_free hread]
  dsimp only
  split
  next h => exact hask h
  next => rfl

/-- The state in which REL commits: at its first presentation it keeps the address that its checks have found (R265). -/
def State.relHeld (s : State) (i : Iss) (y : Warp) (a : Nat) : State :=
  if y.releasing then s
  else (s.touch i.core i.ctx a .wr).updWarp i.wid fun z => { z with relPa := s.paOf i a .wr }

theorem relChecks_free {t : State} {i : Iss} {y : Warp} {a : Nat}
    (h : y.releasing = false → GenFree t i y .wr none true 8 (i.onePlace a) ∧
      (t.isTwin i.wid.g = false → t.askOwn i.wid [lineOf (t.paOf i a .wr)] = .ok ())) :
    relChecks t i y a = .ok (t.relHeld i y a) := by
  rw [relChecks, State.relHeld]
  split
  next => rfl
  next hr =>
    obtain ⟨hgen, hown⟩ := h (Bool.eq_false_iff.2 hr)
    have hask : (if t.isTwin i.wid.g then .ok () else t.askOwn i.wid [lineOf (t.paOf i a .wr)]) = .ok () := by
      split
      next => rfl
      next htwin => exact hown (Bool.eq_false_iff.2 htwin)
    simp only [genChecks_free hgen, hask]

section
variable (hi : Issuing s w x b)
include hi

theorem completes_fence {u : State} {z : Warp} :
    let t := s.issued w
    let i := mkIss s w x b 8
    let scope := immScope f.imm
    (if f.imm.getLsbD 1 then ReleaseReady t i x.presented scope u else u = t) → u.warp? w = some z →
    (f.imm.getLsbD 0 = true → z.loadsDone = true) → (f.imm.getLsbD 2 = true → u.atomsDone w = true) →
    (f.imm.getLsbD 3 = true → u.enginesDone w = true) →
    let v := if f.imm.getLsbD 4 then u.acquire i.core i.ctx scope none else u
    Completes (.fence f) s w x b 8 (f.imm.getLsbD 1) (if f.imm.getLsbD 1 then v.fallThrough i else v) := by
  intro t i scope hrelease hwarp hloads hatoms hengines v
  have hfirst := commitRelease_asked hrelease
  have hover : (f.imm.getLsbD 0 && !z.loadsDone || f.imm.getLsbD 2 && !(u.atomsDone w) || f.imm.getLsbD 3 && !(u.enginesDone w)) =
      false := by
    rw [asked_done hloads, asked_done hatoms, asked_done hengines]
    rfl
  rw [Completes, exec_fence, execFence]
  refine issue_ok hi ?_
  simp only [t, i, scope] at hfirst
  simp only [mkIss_wid, warp?_issued_of_issuing hi, hfirst, hwarp, hover, Bool.false_eq_true, if_false, i, scope, v]

section
variable (halign : (x.gv f.sa).toNat % 8 = 0)
include halign

theorem completes_acq (hregs : SysReady x [f.sa.toNat] [f.d.toNat]) :
    let t := s.issued w
    let y := x.presented
    let i := mkIss s w x b 8
    let scope := immScope f.imm
    let a := (x.gv f.sa).toNat
    ReadFree t i y 8 (i.onePlace a) →
    (2 ≤ scope → t.askRemote w (fun n => .read (128 * n)) [lineOf (t.paOf i a .rd)] = .ok ()) →
    let r := t.acqRead i y a scope
    Completes (.acq f) s w x b 8 false
      (((r.2.touch i.core i.ctx a .rd).acquire i.core i.ctx scope (t.boundRanges i.ctx a)).updWarp w fun z =>
        (z.setG f.d.toNat r.1).fillG f.d.toNat) := by
  intro t y i scope a hread hask r
  have hchecks := acqChecks_free hread hask
  rw [Completes, exec_acq, execAcq]
  refine sysFrame_ready hi hregs ?_
  simp only [t, y, i, scope, a] at hchecks
  simp only [Warp.gv_issued, mkIss_wid, halign, hchecks, ne_eq, not_true_eq_false, if_false, t, y, i, scope, a, r]

theorem completes_rel {u : State} (hregs : SysReady x [f.sa.toNat] [f.sb.toNat]) :
    let t := s.issued w
    let y := x.presented
    let i := mkIss s w x b 8
    let a := (x.gv f.sa).toNat
    (x.releasing = false → GenFree t i y .wr none true 8 (i.onePlace a) ∧
      (t.isTwin w.g = false → t.askOwn w [lineOf (t.paOf i a .wr)] = .ok ())) →
    ReleaseReady (t.relHeld i y a) i y (immScope f.imm) u →
    Completes (.rel f) s w x b 8 true ((u.writeThrough w a (((u.warp? w).map Warp.relPa).getD 0) (leBytes (x.gv f.sb).toNat 8)
      (x.greg f.sb.toNat).p).fallThrough i) := by
  intro t y i a hfree hrelease
  have hchecks : relChecks t i y a = .ok (t.relHeld i y a) := relChecks_free hfree
  have hcommit := commitRelease_ready (cmd := []) hrelease
  rw [Completes, exec_rel, execRel]
  refine sysFrame_ready hi hregs ?_
  simp only [t, y, i, a] at hchecks hcommit
  simp only [Warp.gv_issued, Warp.greg_issued, mkIss_wid, halign, hchecks, hcommit, ne_eq, not_true_eq_false, if_false, i, a]

end

theorem completes_bind (hregs : SysReady x [f.sa.toNat, f.sb.toNat, f.sb.toNat + 1] [f.d.toNat]) :
    let t := s.issued w
    let i := mkIss s w x b 8
    let r := bindStatus (t.ctxOf i.ctx).binds (x.gv f.sa).toNat (x.gv f.sb).toNat (x.gv (f.sb + 1)).toNat
    Completes (.bind f) s w x b 8 false ((t.setBinds i.ctx (x.gv f.sa).toNat r.2).putG w f.d.toNat (BitVec.ofNat 64 r.1)) :=
  exec_bind.trans (sysFrame_ready hi hregs rfl)

theorem completes_unbind (hregs : SysReady x [f.sa.toNat] []) :
    let t := s.issued w
    let i := mkIss s w x b 8
    Completes (.unbind f) s w x b 8 false
      (t.setBinds i.ctx (x.gv f.sa).toNat (sdel (t.ctxOf i.ctx).binds (x.gv f.sa).toNat)) :=
  exec_unbind.trans (sysFrame_ready hi hregs rfl)

end

end

/-- Settles O22: each of the five, once what it asks for is over. -/
theorem orderingCompletes : Obligations.OrderingCompletes := by
  intro s w x b f hi t y i scope
  refine ⟨?fence, ?acq, ?rel, completes_bind hi, completes_unbind hi⟩
  case fence => exact fun u z hrelease hwarp => completes_fence hi hrelease hwarp
  case acq => exact fun hregs halign => completes_acq hi halign hregs
  case rel => exact fun u hregs halign hfree hrelease => completes_rel hi halign hregs hfree hrelease

end Sys2Proof.Machine
end

section
/-! SUPPORT. BARSET, BARQ, BARARV, BARSYNC and BARWT (16_barrier R290 to R296): a bundle none of whose threads carries the barrier's
mark goes on whole, and each way out of BARWT. -/

namespace Sys2Proof.Machine

section
variable {s : State} {w : WarpId} {x : Warp} {b : Bundle} {f : FmtS}

theorem exec_barset : exec (.barset f) s = execBarset f s := rfl

theorem exec_barq : exec (.barq f) s = execBarq f s := rfl

theorem exec_bararv : exec (.bararv f) s = execBararv f s := rfl

theorem exec_barsync : exec (.barsync f) s = execBarsync f s := rfl

theorem exec_barwt : exec (.barwt f) s = execBarwt f s := rfl

/-- No thread of the bundle has arrived in this phase, so none parks (R290). -/
theorem splitMarked_unmarked {t : State} {i : Iss}
    (h : sgetD (t.barOf i f).marks (t.barKey i.wid (barGang f.imm)) 0 &&& i.lanes = 0) : t.splitMarked i f = .ok (t, i) := by
  simp only [State.splitMarked, h, if_true]

/-- BARWT returns `v` (R294): what its lanes were owed for a broken barrier is taken, and its limit is kept no longer. -/
def State.barwtReturns (s : State) (i : Iss) (f : FmtS) (v : DWord) : State :=
  (s.updWarp i.wid fun z => (z.mendBar f i.lanes).dropLimit i.at_.pc.toNat i.lanes).putG i.wid f.d.toNat v

/-- The bundle has threads that a gang barrier broke under (R291). -/
abbrev Warp.hurtBy (x : Warp) (f : FmtS) (lanes : LaneMask) : Prop :=
  barGang f.imm = true ∧ sgetD x.broken (barNum f.imm) 0 &&& lanes ≠ 0

/-- BARWT's test that the phase it names is over, in execution's own form. -/
theorem phaseOver_iff {t : State} {i : Iss} {y : Warp} :
    (decide ((t.barOf i f).gen ≠ (y.gv f.sa).getLsbD 0) &&
      !(barGang f.imm && decide (sgetD y.broken (barNum f.imm) 0 &&& i.lanes ≠ 0))) = true ↔
      (t.barOf i f).gen ≠ (y.gv f.sa).getLsbD 0 ∧ ¬ y.hurtBy f i.lanes := by
  cases h : barGang f.imm <;> simp [Warp.hurtBy, h]

section
variable (hi : Issuing s w x b)
include hi

section
variable (hregs : SysReady x [] [f.d.toNat])
include hregs

theorem completes_barset :
    let t := s.issued w
    let i := mkIss s w x b 8
    let r := barsetResult (t.barOf i f) (fld f.imm.toNat 7 10) (t.barCapacity i f) (t.participants w (barGang f.imm))
    Completes (.barset f) s w x b 8 false
      ((t.setBar w (barGang f.imm) (barNum f.imm) r.2).putG w f.d.toNat (BitVec.ofNat 64 r.1)) :=
  exec_barset.trans (sysFrame_ready hi hregs rfl)

theorem completes_barq :
    let t := s.issued w
    Completes (.barq f) s w x b 8 false (t.putG w f.d.toNat (t.barOf (mkIss s w x b 8) f).word) :=
  exec_barq.trans (sysFrame_ready hi hregs rfl)

end

variable (hh : x.handler = none)
include hh

section
variable (hwhole : (s.issued w).barBroken (mkIss s w x b 8) x.presented f = false)
  (hnew : sgetD ((s.issued w).barOf (mkIss s w x b 8) f).marks ((s.issued w).barKey w (barGang f.imm)) 0 &&& b.mask = 0)
include hwhole hnew

theorem completes_bararv {g : Group} (hregs : SysReady x [] [f.d.toNat]) (hcommit : CommitReady (s.issued w) w g x.presented) :
    let i := mkIss s w x b 8
    let c := (s.issued w).committed w g x.presented b.mask i.fall
    Completes (.bararv f) s w x b 8 true
      (((c.barArrive w (barGang f.imm) (barNum f.imm) b.mask).putG w f.d.toNat (if (c.barOf i f).gen then 1 else 0)).fallThrough
        i) := by
  intro i c
  rw [Completes, exec_bararv, execBararv]
  refine sysFrameOut_ready hi hh hregs ?_
  simp only [hwhole, splitMarked_unmarked hnew, mkIss_wid, mkIss_lanes, commit_ready hcommit, Bool.false_eq_true, if_false, i, c]

theorem completes_barsync {u : State}
    (hrelease : ReleaseReady (s.issued w) (mkIss s w x b 8) x.presented (if barGang f.imm then 2 else 1) u) :
    let i := mkIss s w x b 8
    Completes (.barsync f) s w x b 8 true
      (((u.fallThrough i).updWarp w fun z => z.syncAt (barGang f.imm) (barNum f.imm) b.mask b.at_).barArrive w (barGang f.imm)
        (barNum f.imm) b.mask) := by
  intro i
  have hout : notInHandler (s.issued w) i = .ok () := if_neg (by simp [i, hh])
  rw [Completes, exec_barsync, execBarsync]
  refine issue_ok hi ?_
  simp only [i] at hout
  simp only [hout, mkIss_wid, mkIss_lanes, mkIss_at, warp?_issued_of_issuing hi, hwhole, splitMarked_unmarked hnew,
    commitRelease_ready hrelease, Bool.false_eq_true, if_false, i]

end

section
variable (hregs : SysReady x ([f.sa.toNat] ++ if f.sb = 0 then [] else [f.sb.toNat]) [f.d.toNat])
include hregs

theorem completes_barwt_phaseOver (hgen : ((s.issued w).barOf (mkIss s w x b 8) f).gen ≠ (x.gv f.sa).getLsbD 0)
    (hunhurt : ¬ x.hurtBy f b.mask) :
    Completes (.barwt f) s w x b 8 false ((s.issued w).barwtReturns (mkIss s w x b 8) f 0) := by
  have htest := phaseOver_iff.2 ⟨hgen, hunhurt⟩
  exact exec_barwt.trans (sysFrameOut_ready hi hh hregs (if_pos htest))

section
variable (hlimited : f.sb ≠ 0)
include hlimited

theorem completes_barwt_broken
    (hgen : ((s.issued w).barOf (mkIss s w x b 8) f).gen = (x.gv f.sa).getLsbD 0 ∨ x.hurtBy f b.mask)
    (hbroken : (s.issued w).barBroken (mkIss s w x b 8) x.presented f = true) :
    Completes (.barwt f) s w x b 8 false ((s.issued w).barwtReturns (mkIss s w x b 8) f 2) := by
  have htest := mt (phaseOver_iff (f := f) (t := s.issued w) (i := mkIss s w x b 8) (y := x)).1 fun ⟨hne, hun⟩ =>
    hgen.elim hne hun
  refine exec_barwt.trans (sysFrameOut_ready hi hh hregs ?_)
  exact (if_neg htest).trans ((if_pos hbroken).trans (if_pos (decide_eq_true hlimited)))

theorem completes_barwt_limit (hgen : ((s.issued w).barOf (mkIss s w x b 8) f).gen = (x.gv f.sa).getLsbD 0)
    (hwhole : (s.issued w).barBroken (mkIss s w x b 8) x.presented f = false)
    (hpassed : x.presented.limitPassed b.at_.pc.toNat (fld (x.gv f.sb).toNat 0 32) = true) :
    Completes (.barwt f) s w x b 8 false ((s.issued w).barwtReturns (mkIss s w x b 8) f 1) := by
  have htest := mt (phaseOver_iff (f := f) (t := s.issued w) (i := mkIss s w x b 8) (y := x)).1 fun h => h.1 hgen
  refine exec_barwt.trans (sysFrameOut_ready hi hh hregs ?_)
  exact (if_neg htest).trans ((if_neg (Bool.eq_false_iff.1 hwhole)).trans
    (if_pos (Bool.and_eq_true_iff.2 ⟨decide_eq_true hlimited, hpassed⟩)))

end

end

end

end

/-- Settles O23: BARSET and BARQ need nothing, BARARV and BARSYNC a bundle without marks, BARWT one of its three answers. -/
theorem barriersComplete : Obligations.BarriersComplete := by
  intro s w x b f hi t y i g n bar
  refine ⟨fun hregs => ⟨completes_barset hi hregs, completes_barq hi hregs⟩, fun hh hwhole hnew => ⟨?arrive, ?sync⟩,
    fun hh hregs => ⟨?phaseOver, ?broken, ?limit⟩⟩
  case arrive => exact fun gr hregs hcommit => completes_bararv hi hh hwhole hnew hregs hcommit
  case sync => exact fun u hrelease => completes_barsync hi hh hwhole hnew hrelease
  case phaseOver => exact fun hgen hunhurt => completes_barwt_phaseOver hi hh hregs hgen hunhurt
  case broken => exact fun hgen hlimited hbroken => completes_barwt_broken hi hh hregs hlimited hgen hbroken
  case limit => exact fun hgen hlimited hwhole hpassed => completes_barwt_limit hi hh hregs hlimited hgen hwhole hpassed

end Sys2Proof.Machine
end

section
/-! SUPPORT. WAITU and the life of a monitor entry (17_wait R297 to R312): what a wait that no request timed out for leaves, and the
events that evaluate, end and move entries. -/

namespace Sys2Proof.Machine

/-! ### WAITU (R300 to R305) -/

/-- Lanes that all pass give no first fault. -/
theorem firstFault_ok {l : Chks} (h : ∀ e ∈ l, e.2 = .ok) (cs : List FaultCode) : firstFault l cs = none := by
  induction cs with
  | nil => rfl
  | cons c cs ih =>
    rw [firstFault, failing_nil fun e he _ _ => by rw [h e he]; exact nofun]
    exact ih

section
variable {s t : State} {w : WarpId} {x : Warp} {b : Bundle} {f : FmtM} {cc : WaitCc} {i : Iss} {m : Mx}

theorem exec_waitu : exec (.waitu cc f) s = execWaitu cc f s := rfl

/-- What the requests for a WAITU's watched lines have met, lane by lane (R303). -/
def State.waitTxns (t : State) (i : Iss) (sp : Space) (m : Mx) : Chks :=
  if isGen sp then m.places.map fun e => (e.1, t.txnChk i m.w e.2) else []

/-- The lanes of a WAITU whose request timed out. -/
def State.waitTimed (t : State) (i : Iss) (sp : Space) (m : Mx) : LaneMask :=
  maskOfList (((t.waitTxns i sp m).filter fun e => decide (e.2 ≠ .ok)).map Prod.fst)

/-- The lanes of a WAITU whose watched line has lost its home (R303). -/
def State.waitLost (t : State) (i : Iss) (sp : Space) (m : Mx) : LaneMask :=
  maskOfList ((m.places.filter fun e => isGen sp && (match t.gate (t.atomPa i e.2) with
    | .lost _ => true
    | _ => false)).map Prod.fst)

/-- The wait that a WAITU names (R300, R302). -/
def State.namedWait (t : State) (i : Iss) (m : Mx) (cc : WaitCc) (f : FmtM) (ctl : DWord) : Wait :=
  { ctx := i.ctx, who := .bundle i.wid i.lanes f.d.toNat, sp := f.sp, cc, ty := f.ty, any := ctl.getLsbD 32,
    acq := if ctl.getLsbD 33 then some (fld ctl.toNat 34 3) else none,
    lanes := m.places.map fun e => ⟨e.1, t.watchAt i f.sp e.2, (m.waitOperand cc e.1).1, none, false⟩, entries := [] }

theorem waitTxns_ok {sp : Space} (h : isGen sp = true → ∀ e ∈ m.places, t.txnChk i m.w e.2 = .ok) :
    ∀ e ∈ t.waitTxns i sp m, e.2 = .ok := by
  intro e he
  rw [State.waitTxns] at he
  split at he
  next hgen =>
    obtain ⟨p, hp, rfl⟩ := List.mem_map.1 he
    exact h hgen p hp
  next => cases he

theorem waitTimed_eq_zero {sp : Space} (h : ∀ e ∈ t.waitTxns i sp m, e.2 = .ok) : t.waitTimed i sp m = 0 := by
  have hnone : ((t.waitTxns i sp m).filter fun e => decide (e.2 ≠ .ok)) = [] :=
    List.filter_eq_nil_iff.2 fun e he => by simp [h e he]
  rw [State.waitTimed, hnone]
  rfl

/-- The poison that WAITU raises of its lanes' operands (R303, R389). -/
theorem waitPoison_eq_zero (h : ∀ L < 32, inMask m.act L = true → m.addrPsn L = false ∧ (m.waitOperand cc L).2 = false) :
    (maskOf fun L => inMask m.act L && (m.addrPsn L || (m.waitOperand cc L).2)) = 0 := by
  refine maskOf_eq_zero fun L hL => ?_
  cases hact : inMask m.act L with
  | false => rfl
  | true =>
    obtain ⟨haddr, hop⟩ := h L hL hact
    rw [haddr, hop]
    rfl

theorem completes_waitu {g : Group} (hi : Issuing s w x b) (hh : x.handler = none)
    (hready : MemFull s w x b (specWaitu cc f.ty) f) :
    let t := s.issued w
    let y := x.presented
    let i := mkIss s w x b (unitSize f.pfx)
    let m := memOperands s w x b (specWaitu cc f.ty) f
    let d := f.d.toNat
    let ctl := (x.greg d).v
    let n := waitBytes f.ty
    (x.greg d).p = false → (∀ L < 32, inMask m.act L = true → m.addrPsn L = false ∧ (m.waitOperand cc L).2 = false) →
    SpaceFree t i f.sp (decide (f.sp = .gen) || decide (f.sp = .l2w)) n n m.places →
    waitReady t i y f.sp m.places = .ok () → CommitReady t w g y →
    let c := t.committed w g y b.mask i.fall
    c.isTwin w.g = false → (isGen f.sp = true → ∀ e ∈ m.places, t.txnChk i y e.2 = .ok) →
    let u := ((c.fresh.2.mailTwin w (.g (BitVec.ofNat 64 c.fresh.1))).touchAll i f.sp .wait m.places).tieL2w w f.sp
    Completes (.waitu cc f) s w x b (unitSize f.pfx) true
      ((u.parkWait i d c.fresh.1).openWait i c.fresh.1 (t.namedWait i m cc f ctl) (t.waitLost i f.sp m) 0
        (ctl.getLsbD 33 && decide (5 < fld ctl.toNat 34 3))).1 := by
  intro t y i m d ctl n hclean hlanes hspace hwait hcommit c htwin htxn u
  have hout : notInHandler t i = .ok () := if_neg (by simp [i, hh])
  have hops : memOps t i y false (specWaitu cc f.ty) f = .ok m := memOps_ready hready fun h => absurd h Bool.false_ne_true
  have hpsn : ((x.greg f.d.toNat).p || decide ((maskOf fun L => inMask m.act L && (m.addrPsn L || (m.waitOperand cc L).2)) ≠ 0)) =
      false := by
    rw [hclean, waitPoison_eq_zero hlanes]
    rfl
  have hmet : ∀ e ∈ t.waitTxns i f.sp m, e.2 = .ok := waitTxns_ok htxn
  have htimed := waitTimed_eq_zero hmet
  rw [Completes, exec_waitu, execWaitu]
  refine issue_ok hi ?_
  simp only [mkIss_wid, mkIss_lanes, warp?_issued_of_issuing hi, Warp.greg_issued, hout, hops, hpsn, spaceChecks_free hspace, hwait,
    commit_ready hcommit, htwin, Bool.false_eq_true, if_false, t, y, i, m, d, ctl, n, c, u]
  simp only [State.waitTimed, State.waitTxns, memOperands_w, t, i, m] at htimed
  rw [htimed]
  split
  next hopen => exact congrArg Except.ok (congrArg Prod.fst hopen).symm
  next hopen =>
    split
    next => exact congrArg Except.ok (congrArg Prod.fst hopen).symm
    next hfault => exact absurd ((firstFault_ok (fun e he => hmet e (List.mem_filter.1 he).1) _).symm.trans hfault) nofun

end

/-- Settles O27: past its checks and its commit WAITU parks its threads, and the installation is what ends it. -/
theorem waitsComplete : Obligations.WaitsComplete := by
  intro s w x b f cc hi hh hready t y i m d ctl n hclean hlanes hspace hwait g hcommit c htwin htxn id wait lost u
  exact completes_waitu hi hh hready hclean hlanes hspace hwait hcommit htwin htxn

/-! ### Events of monitor entries (R298, R306 to R311) -/

section
variable {s : State}

theorem exec_sampledEvaluation (wait line : Nat) : exec (.sampledEvaluation wait line) s = execSampledEvaluation wait line s := rfl

theorem exec_waitTimeout (wait : Nat) : exec (.waitTimeout wait) s = execWaitTimeout wait s := rfl

theorem exec_dependenceRetry (kernel dep : Nat) : exec (.dependenceRetry kernel dep) s = execDependenceRetry kernel dep s := rfl

theorem exec_lineMigration (line slice : Nat) : exec (.lineMigration line slice) s = execLineMigration line slice s := rfl

theorem happens_sampledEvaluation {wait line : Nat} (h : wait ∈ s.waitsOn line (fun e => !e.exact && !e.spilled)) :
    Happens (.sampledEvaluation wait line) s (s.evalWait wait line) :=
  (exec_sampledEvaluation wait line).trans (if_pos (decide_eq_true h))

theorem happens_waitTimeout {wait : Nat} {x : Wait} {w : WarpId} {m : LaneMask} {d : Nat} (hx : sget? s.waits wait = some x)
    (hwho : x.who = .bundle w m d) (hfree : s.waitHeld x = false) :
    Happens (.waitTimeout wait) s (s.endWait wait x 1 (latchedMask x.lanes) 0 0 false) := by
  simp only [Happens, exec_waitTimeout, execWaitTimeout, hx, hwho, hfree]
  rfl

theorem happens_dependenceRetry {kernel dep : Nat} {k : Kernel} {va : DWord} {v : Word} {y : Xl} (hk : s.kernel? kernel = some k)
    (hst : k.st = .pending) (hdep : dep ∈ k.retry) (hat : nth? k.deps dep = some (va, v))
    (hfind : s.hubFind k va.toNat .wait = .ok y) :
    Happens (.dependenceRetry kernel dep) s (s.installDep kernel dep y.pa v.toNat) := by
  simp only [Happens, exec_dependenceRetry, execDependenceRetry, hk, hst, hdep, hat, hfind]
  rfl

theorem happens_lineMigration {line slice : Nat} {t : State} (hmem : isL2w (128 * line) = false)
    (hhome : s.homeOf (128 * line) = s.pkg) (hslice : slice < 192)
    (hmove : s.moveEntries line slice (s.waitsOn line fun e => e.exact && !e.spilled) = .ok t) :
    Happens (.lineMigration line slice) s { t with migrated := sset t.migrated line slice } := by
  have hmoves : (isL2w (128 * line) || decide (s.homeOf (128 * line) ≠ s.pkg) || decide (192 ≤ slice)) = false := by
    simp [hmem, hhome, hslice]
  simp only [Happens, exec_lineMigration, execLineMigration, hmoves, hmove]
  rfl

end

/-- Settles O35: each event's entry stands as its rule asks, so its case is the one that runs. -/
theorem monitorsHappen : Obligations.MonitorsHappen := by
  intro s
  refine ⟨?sampled, ?spilled, ?timeout, ?retry, ?migration⟩
  case sampled => exact fun _ _ h => happens_sampledEvaluation h
  case spilled => exact fun _ => rfl
  case timeout => exact fun _ _ _ _ _ hx hwho hfree => happens_waitTimeout hx hwho hfree
  case retry => exact fun _ _ _ _ _ _ hk hst hdep hat hfind => happens_dependenceRetry hk hst hdep hat hfind
  case migration => exact fun _ _ _ hmem hhome hslice hmove => happens_lineMigration hmem hhome hslice hmove

end Sys2Proof.Machine
end

section
/-! SUPPORT. The instructions of the matrix engine (18_matrix R316, R323 to R330): the frame that they share, its tail that holds,
commits and issues, and each operation's own checks. -/

namespace Sys2Proof.Machine

section
variable {s : State} {w : WarpId} {x : Warp} {b : Bundle} {f : FmtS}

theorem exec_mxcfg : exec (.mxcfg f) s = execMxcfg f s := rfl

theorem exec_mxw : exec (.mxw f) s = execMxw f s := rfl

theorem exec_mxa : exec (.mxa f) s = execMxa f s := rfl

theorem exec_mxz : exec (.mxz f) s = execMxz f s := rfl

theorem exec_mxfree : exec (.mxfree f) s = execMxfree f s := rfl

theorem exec_mxrd {f : FmtV} : exec (.mxrd f) s = execMxrd f s := rfl

theorem exec_mxwr {f : FmtV} : exec (.mxwr f) s = execMxwr f s := rfl

/-! ### The tail of MxCommon (R323) -/

/-- What an engine instruction leaves of its commit: the primary's operation stands for both copies (R172). -/
def State.mxIssues (s : State) (w : WarpId) (i : Iss) (run : State → State) : State :=
  (if s.isTwin w.g then s else run s).fallThrough i

/-- The hold is over, weights are there where they are asked for, and the warp commits. -/
theorem mxTail_ready {t u : State} {i : Iss} {y z : Warp} {mxa : Bool} {cmd : List DWord} {run : State → State} {g : Group}
    (hhold : mxHold t i y = .ok u) (hweights : mxa = true → followed t i y = true ∨ u.hasWeights i.wid.g = true)
    (hcommit : CommitReady u i.wid g z) :
    mxTail t i y mxa cmd run = .ok ((u.committed i.wid g z i.lanes i.fall).mxIssues i.wid i run) := by
  have hloaded : (mxa && !followed t i y && !u.hasWeights i.wid.g) = false := by
    cases mxa with
    | false => rfl
    | true => rcases hweights rfl with h | h <;> simp [h]
  simp only [mxTail, hhold, hloaded, commit_ready hcommit, Bool.false_eq_true, if_false]
  rfl

/-- Only MXA asks for weights. -/
theorem mxTail_weightless {t u : State} {i : Iss} {y z : Warp} {cmd : List DWord} {run : State → State} {g : Group}
    (hhold : mxHold t i y = .ok u) (hcommit : CommitReady u i.wid g z) :
    mxTail t i y false cmd run = .ok ((u.committed i.wid g z i.lanes i.fall).mxIssues i.wid i run) :=
  mxTail_ready hhold (fun h => absurd h Bool.false_ne_true) hcommit

/-! ### The operands of an engine operation -/

/-- No value misses its multiple. -/
theorem lowestOff_nil : lowestOff [] = none := rfl

theorem firstPsn_clean {l : List (Nat × Bool)} (h : ∀ e ∈ l, e.2 = false) (va : Nat) : firstPsn va l = none := by
  induction l generalizing va with
  | nil => rfl
  | cons e l ih =>
    rw [firstPsn, h e List.mem_cons_self, if_neg Bool.false_ne_true]
    exact ih (fun e' he' => h e' (List.mem_cons_of_mem _ he')) _

section
variable (hi : Issuing s w x b) (hwhole : wholeWarp (mkIss s w x b 8) x.presented b.mask = true)
  (hgate : mxGate (s.issued w) (mkIss s w x b 8) x.presented = .ok ())
include hi hwhole hgate

theorem completes_mxcfg {u : State} {z : Warp} {g : Group} :
    let t := s.issued w
    let i := mkIss s w x b 8
    CommitReady u w g z → mxHold t i x.presented = .ok u →
    Completes (.mxcfg f) s w x b 8 true ((u.committed w g z b.mask i.fall).mxIssues w i fun v =>
      v.updGroup w.g fun g => { g with chk := bitsAt f.imm 0 2 }) := by
  intro t i hcommit hhold
  have hregs : SysReady x [] [] := ⟨by simp, by simp⟩
  exact exec_mxcfg.trans (mxFrame_ready hi hwhole hregs hgate (mxTail_weightless hhold hcommit))

theorem completes_mxw {u : State} {z : Warp} {g : Group} :
    let t := s.issued w
    let y := x.presented
    let i := mkIss s w x b 8
    let d := (x.gv f.sa).toNat
    let a := (x.gv f.sb).toNat
    let wb := ((t.group? w.g).map Group.wb).getD Mem.empty
    let words := t.readWords i y d 16
    let desc := leBytes (wordsNat words) 64
    SysReady x [f.sa.toNat, f.sb.toNat] [] → d % 64 = 0 → a % 128 = 0 → ReadFree t i y 64 (i.onePlace d) →
    (∀ e ∈ words, e.2 = false) → t.covers i .wb a (tileSize desc) = true → markedIn wb a (tileSize desc) = none →
    CommitReady u w g z → mxHold (t.fillRead i d) i y = .ok u →
    Completes (.mxw f) s w x b 8 true ((u.committed w g z b.mask i.fall).mxIssues w i fun v =>
      let r : MxwRec := ⟨a, desc, tileChk desc (((v.group? w.g).map Group.chk).getD 0)⟩
      (v.updGroup w.g fun g => { g with lastMxw := some r, weights := true }).issueOp i (.w r)) := by
  intro t y i d a wb words desc hregs hd ha hread hclean hcovers hunmarked hcommit hhold
  have hwords : firstPsn d words = none := firstPsn_clean hclean d
  have htail := fun cmd run => mxTail_weightless (cmd := cmd) (run := run) hhold hcommit
  refine exec_mxw.trans (mxFrame_ready hi hwhole hregs hgate ?_)
  simp only [t, y, i, d, a, wb, words, desc] at hd ha hread hwords hcovers hunmarked htail ⊢
  simp only [mkIss_wid, mkIss_lanes, Warp.gv_issued, hd, ha, lowestOff_nil, readChecks_free hread, hwords, hcovers, hunmarked, htail,
    ne_eq, not_true_eq_false, if_false, List.append_nil, Bool.not_true, Bool.false_eq_true]

theorem completes_mxa {u : State} {z : Warp} {g : Group} :
    let t := s.issued w
    let y := x.presented
    let i := mkIss s w x b 8
    let ab := ((t.group? w.g).map Group.ab).getD Mem.empty
    let cb := ((t.group? w.g).map Group.cb).getD Mem.empty
    let o := mxaOpds y f
    SysReady x [f.sa.toNat, f.sa.toNat + 1, f.sb.toNat] [] → o.misaligned = none → o.outside t i ab = [] → o.marked ab cb = [] →
    (followed t i y = true ∨ u.hasWeights w.g = true) → CommitReady u w g z → mxHold t i y = .ok u →
    Completes (.mxa f) s w x b 8 true ((u.committed w g z b.mask i.fall).mxIssues w i fun v =>
      (v.countMxa i.core).issueOp i (.a o.arow o.stride o.afmt o.m o.cdst)) := by
  intro t y i ab cb o hregs haligned hinside hunmarked hweights hcommit hhold
  have htail := fun cmd run => mxTail_ready (mxa := true) (cmd := cmd) (run := run) hhold (fun _ => hweights) hcommit
  refine exec_mxa.trans (mxFrame_ready hi hwhole hregs hgate ?_)
  simp only [t, y, i, ab, cb, o] at haligned hinside hunmarked htail ⊢
  simp only [mkIss_wid, mkIss_lanes, haligned, hinside, hunmarked, lowestOff_nil, htail]

theorem completes_mxz {u : State} {z : Warp} {g : Group} :
    let t := s.issued w
    let i := mkIss s w x b 8
    let cdst := fld (x.gv f.sa).toNat 0 32
    let m := fld (x.gv f.sa).toNat 32 8 + 1
    SysReady x [f.sa.toNat] [] → cdst % 512 = 0 → t.covers i .cb cdst (512 * m) = true →
    CommitReady u w g z → mxHold t i x.presented = .ok u →
    Completes (.mxz f) s w x b 8 true ((u.committed w g z b.mask i.fall).mxIssues w i fun v => v.issueOp i (.z cdst m)) := by
  intro t i cdst m hregs haligned hcovers hcommit hhold
  have htail := fun cmd run => mxTail_weightless (cmd := cmd) (run := run) hhold hcommit
  refine exec_mxz.trans (mxFrame_ready hi hwhole hregs hgate ?_)
  simp only [t, i, cdst, m] at haligned hcovers htail ⊢
  simp only [mkIss_wid, mkIss_lanes, Warp.gv_issued, haligned, hcovers, htail, ne_eq, not_true_eq_false, if_false, Bool.not_true, Bool.false_eq_true]

end

end

/-- Settles O24: past its own operands each of the four holds, commits and issues. -/
theorem engineOperationsComplete : Obligations.EngineOperationsComplete := by
  intro s w x b f hi t y i ab cb wb enters
  refine ⟨?cfg, ?weights, ?activations, ?zero⟩
  case cfg => exact fun u g z hcommit hwhole hgate hhold => completes_mxcfg hi hwhole hgate hcommit hhold
  case weights =>
    intro d a words desc hregs hd ha hread hclean hcovers hunmarked u g z hcommit hwhole hgate hhold
    exact completes_mxw hi hwhole hgate hregs hd ha hread hclean hcovers hunmarked hcommit hhold
  case activations =>
    intro o hregs haligned hinside hunmarked u hweights g z hcommit hwhole hgate hhold
    exact completes_mxa hi hwhole hgate hregs haligned hinside hunmarked hweights hcommit hhold
  case zero =>
    intro a cdst m hregs haligned hcovers u g z hcommit hwhole hgate hhold
    exact completes_mxz hi hwhole hgate hregs haligned hcovers hcommit hhold

end Sys2Proof.Machine
end

section
/-! SUPPORT. MXRD and MXWR (18_matrix R328, R329), the lease (R316, R324), and the events of the engine (R315, R316, R332 to
R334). -/

namespace Sys2Proof.Machine

/-! ### MXRD and MXWR -/

section
variable {s t : State} {w : WarpId} {x : Warp} {b : Bundle} {f : FmtV} {i : Iss} {v : Vx}

/-- Lane `L` of an MXRD or MXWR names a word of CB (R328). -/
abbrev Vx.CbOpen (v : Vx) (t : State) (i : Iss) (L : Nat) : Prop := v.cbOff L % 4 = 0 ∧ t.covers i .cb (v.cbOff L) 4 = true

theorem cbChecks_free (h : ∀ L < 32, v.CbOpen t i L) (need : Nat) : cbChecks t i v need = .ok () := by
  have haligned : (((List.range 32).map fun L => (L, v.cbOff L)).filter fun e => decide (e.2 % 4 ≠ 0)).isEmpty = true := by
    simp only [List.isEmpty_iff, List.filter_eq_nil_iff, List.mem_map, List.mem_range]
    rintro _ ⟨L, hL, rfl⟩
    simp [(h L hL).1]
  have hinside : (((List.range 32).map fun L => (L, v.cbOff L)).filter fun e => !t.covers i .cb e.2 4).isEmpty = true := by
    simp only [List.isEmpty_iff, List.filter_eq_nil_iff, List.mem_map, List.mem_range]
    rintro _ ⟨L, hL, rfl⟩
    simp [(h L hL).2]
  simp only [cbChecks, haligned, hinside, Bool.not_true, Bool.false_eq_true, if_false]

section
variable (hi : Issuing s w x b) (hready : VecReady s w x b false specMxrd f)
  (hwhole : wholeWarp (mkIss s w x b (unitSize f.pfx)) x.presented (vecOperands s w x b false specMxrd f).act = true)
  (hlanes : ∀ L < 32, ((vecOperands s w x b false specMxrd f).a.read x.presented L).2 = false ∧
    ((vecOperands s w x b false specMxrd f).b.read x.presented L).2 = false ∧
    (vecOperands s w x b false specMxrd f).CbOpen (s.issued w) (mkIss s w x b (unitSize f.pfx)) L)
include hi hready hwhole hlanes

/-- MXRD and MXWR with ready operands and unpoisoned offsets do what their run does. -/
theorem mxvFrame_ready {ends : Bool} {run : State → Iss → Vx → Except Stop State} {u : State}
    (hrun : run (s.issued w) (mkIss s w x b (unitSize f.pfx)) (vecOperands s w x b false specMxrd f) = .ok u) :
    mxvFrame s f ends run = .next (u.retire ends (mkIss s w x b (unitSize f.pfx))) := by
  have hclean : (maskOf fun L => ((vecOperands s w x b false specMxrd f).a.read x.presented L).2 ||
      ((vecOperands s w x b false specMxrd f).b.read x.presented L).2) = 0 := by
    refine maskOf_eq_zero fun L hL => ?_
    obtain ⟨ha, hb, -⟩ := hlanes L hL
    rw [ha, hb]
    rfl
  refine issue_ok hi ?_
  simp only [mkIss_wid, warp?_issued_of_issuing hi, vecPrep_whole hready hwhole, hclean, hrun, ne_eq, not_true_eq_false, if_false]

theorem completes_mxrd :
    let t := s.issued w
    let y := x.presented
    let i := mkIss s w x b (unitSize f.pfx)
    let v := vecOperands s w x b false specMxrd f
    mxPending t i y = .ok () → t.mxrdEarly w y = false →
    Completes (.mxrd f) s w x b (unitSize f.pfx) false
      ((t.updWarp w fun z => { z with mxrds := z.mxrds + 1 }).startLoad w (.cb (t.mxBefore w)) v.d.regs 0
        ((List.range 32).map fun L => { lane := L, reg := (v.d.regs).headD 0, addr := v.cbOff L, va := 0, n := 4, fwd := [], fwdP := none })) := by
  intro t y i v hpending hlate
  have hopen := cbChecks_free (fun L hL => (hlanes L hL).2.2)
  have hrecord : v.w = y := rfl
  refine exec_mxrd.trans (mxvFrame_ready hi hready hwhole hlanes ?_)
  simp only [t, y, i, v] at hpending hlate hrecord ⊢
  simp only [hrecord, mkIss_wid, hpending, hlate, hopen, Bool.false_eq_true, if_false]

theorem completes_mxwr {u : State} {z : Warp} {g : Group} :
    let t := s.issued w
    let y := x.presented
    let i := mkIss s w x b (unitSize f.pfx)
    let v := vecOperands s w x b false specMxrd f
    mxGate t i y = .ok () → mxHold t i y = .ok u → CommitReady u w g z →
    Completes (.mxwr f) s w x b (unitSize f.pfx) true ((u.committed w g z b.mask i.fall).mxIssues w i fun t =>
      t.issueOp i (.wr ((List.range 32).map fun L =>
        (v.cbOff L, ⟨((v.d.read y L).1.setWidth 32), (v.d.read y L).2⟩)))) := by
  intro t y i v hgate hhold hcommit
  have hopen := cbChecks_free (fun L hL => (hlanes L hL).2.2)
  have hrecord : v.w = y := rfl
  have htail := fun cmd run => mxTail_weightless (cmd := cmd) (run := run) hhold hcommit
  refine exec_mxwr.trans (mxvFrame_ready hi hready hwhole hlanes ?_)
  simp only [t, y, i, v] at hgate hrecord htail ⊢
  simp only [hrecord, mkIss_wid, mkIss_lanes, hgate, hopen, htail]

end

end

/-- Settles O25: the offsets name words of CB; MXRD starts its load, MXWR holds, commits and issues. -/
theorem engineTransfersComplete : Obligations.EngineTransfersComplete := by
  intro s w x b f hi hready t y i v open_ hwhole hlanes
  refine ⟨?read, ?write⟩
  case read => exact fun hpending hlate => completes_mxrd hi hready hwhole hlanes hpending hlate
  case write => exact fun u g z hgate hhold hcommit => completes_mxwr hi hready hwhole hlanes hgate hhold hcommit

/-! ### The lease (R316, R324) -/

/-- What MXLEASE answers with, and in which state (R324). -/
def State.Leases (t : State) (core g : Nat) (try_ : Bool) (v : DWord) (u : State) : Prop :=
  (t.leaseView g = 1 ∨ t.leaseView g = 2) ∧ v = 0 ∧ u = t ∨
  (t.leaseView g = 0 ∨ 3 ≤ t.leaseView g) ∧ try_ = true ∧ (t.engine core).st ≠ .idle ∧ v = 1 ∧ u = t ∨
  t.leaseView g ≠ 1 ∧ t.leaseView g ≠ 2 ∧ t.leaseView g ≠ 4 ∧ ¬(try_ = true ∧ (t.engine core).st ≠ .idle) ∧ v = 0 ∧
    u = t.askLease core g ∧ u.leaseView g = 1

theorem mxlease_answers {t u : State} {i : Iss} {try_ : Bool} {v : DWord} (h : t.Leases i.core i.wid.g try_ v u) :
    t.mxlease i try_ = .ok (v, u) := by
  have htest : (try_ && decide ((t.engine i.core).st ≠ .idle)) = true ↔ try_ = true ∧ (t.engine i.core).st ≠ .idle := by simp
  unfold State.mxlease
  dsimp only
  rcases h with ⟨hheld, rfl, rfl⟩ | ⟨hnot, htry, htaken, rfl, rfl⟩ | ⟨h1, h2, h4, hfree, rfl, rfl, hgranted⟩
  · rw [if_pos hheld]
  · rw [if_neg (by omega), if_pos (htest.2 ⟨htry, htaken⟩)]
  · rw [if_neg (by omega), if_neg (mt htest.1 hfree), if_neg h4, if_pos hgranted]

section
variable {s u : State} {w : WarpId} {x z : Warp} {b : Bundle} {f : FmtS} {g : Group} {v : DWord} (hi : Issuing s w x b)
  (hwhole : wholeWarp (mkIss s w x b 8) x.presented b.mask = true)
  (hpending : mxPending (s.issued w) (mkIss s w x b 8) x.presented = .ok ())
include hi hwhole hpending

theorem completes_mxlease (hregs : SysReady x [] [f.d.toNat]) (hprimary : (s.issued w).isTwin w.g = false)
    (hanswer : (s.issued w).Leases (mkIss s w x b 8).core w.g (f.imm.getLsbD 0) v u) (hcommit : CommitReady u w g z) :
    let i := mkIss s w x b 8
    Completes (.mxlease f) s w x b 8 true
      ((((u.committed w g z b.mask i.fall).mailTwin w (.g v)).putG w f.d.toNat v).fallThrough i) := by
  intro i
  refine exec_mxlease.trans (mxFrame_ready hi hwhole hregs hpending ?_)
  simp only [mkIss_wid, mkIss_lanes, hprimary, mxlease_answers (i := i) hanswer, commit_ready hcommit, Bool.false_eq_true, if_false, i]

theorem completes_mxfree (hcommit : CommitReady (s.issued w) w g x.presented) :
    let i := mkIss s w x b 8
    Completes (.mxfree f) s w x b 8 true (((s.issued w).committed w g x.presented b.mask i.fall).mxIssues w i fun t =>
      t.mxfree i.core w.g) := by
  have hregs : SysReady x [] [] := ⟨by simp, by simp⟩
  refine exec_mxfree.trans (mxFrame_ready hi hwhole hregs hpending ?_)
  simp only [mkIss_wid, mkIss_lanes, commit_ready hcommit]
  rfl

end

/-- Settles O26: MXLEASE answers by the holder, TRY and the grant, MXFREE gives the lease up. -/
theorem leasesComplete : Obligations.LeasesComplete := by
  intro s w x b f hi t y i hwhole hpending
  refine ⟨?lease, ?free⟩
  case lease =>
    exact fun hregs hprimary v u hanswer g z hcommit => completes_mxlease hi hwhole hpending hregs hprimary hanswer hcommit
  case free => exact fun g hcommit => completes_mxfree hi hwhole hpending hcommit

/-! ### Events of the engine (R315, R316, R332 to R334) -/

section
variable {s : State} {core : Nat}

theorem exec_mxOperationComplete : exec (.mxOperationComplete core) s = execMxOperationComplete core s := rfl

theorem exec_checkFailure (op : Nat) : exec (.checkFailure core op) s = execCheckFailure core op s := rfl

theorem exec_engineResetComplete : exec (.engineResetComplete core) s = execEngineResetComplete core s := rfl

theorem happens_mxOperationComplete {o : MxOp} {r : List MxOp} (hops : (s.engine core).ops = o :: r)
    (hruns : (s.engine core).st ≠ .reset) (hfree : s.opWaits o = false) :
    let t := s.runOp core o
    let tile := if r.isEmpty && !t.hasWeights o.wid.g then none else (t.engine core).tile
    Happens (.mxOperationComplete core) s
      ((t.setEngine core { t.engine core with ops := r, tile := tile }).opsEnded core [o.wid.g]) := by
  have hgoes : ¬((s.engine core).st = .reset ∨ s.opWaits o = true) := by simp [hruns, hfree]
  simp only [Happens, exec_mxOperationComplete, execMxOperationComplete, hops, if_neg hgoes]
  rfl

theorem happens_leaseExpiry (hst : (s.engine core).st = .granted) (hqueue : (s.engine core).queue ≠ []) :
    Happens (.leaseExpiry core) s ((s.setEngine core { s.engine core with st := .expiring }).settleLease core) :=
  if_pos ⟨hst, hqueue⟩

theorem happens_checkFailure {op : Nat} :
    let e := s.engine core
    let m := checkMode (e.tile.map Tile.r) e.ops op
    (m.1.getLsbD 0 || (m.2.2 && m.2.1 && m.1.getLsbD 1)) = true →
    Happens (.checkFailure core op) s
      ((s.loseOps core (e.ops.take op) (e.ops.drop op) false).opsEnded core (e.ops.map fun o => o.wid.g)) :=
  fun h => (exec_checkFailure op).trans (if_pos h)

theorem happens_watchdog (hst : (s.engine core).st = .granted ∨ (s.engine core).st = .expiring) (hops : (s.engine core).ops ≠ []) :
    let t := s.loseOps core [] (s.engine core).ops true
    Happens (.watchdog core) s
      ((t.setEngine core { t.engine core with st := .reset }).groupsCheck ((s.engine core).ops.map fun o => o.wid.g)) :=
  if_pos ⟨hst, hops⟩

section
variable {g : Nat} (hst : (s.engine core).st = .reset) (hholder : (s.engine core).holder = some g)
include hst hholder

theorem happens_engineResetComplete_keeps (hnone : (s.engine core).ending = none) :
    let e := s.engine core
    let q := e.queue.filter (· ≠ g)
    Happens (.engineResetComplete core) s
      ((s.setEngine core { e with st := if e.qleft = 0 ∧ q ≠ [] then .expiring else .granted, queue := q, tile := none }).settleLease
        core) := by
  simp only [Happens, exec_engineResetComplete, execEngineResetComplete, hst, hholder, hnone]
  rfl

theorem happens_engineResetComplete_ends {why : LeaseEnd} (hwhy : (s.engine core).ending = some why) :
    Happens (.engineResetComplete core) s (((if why = .free then s.updGroup g Group.clearLease else s).setEngine core
      { s.engine core with st := .granted }).settleLease core) := by
  simp only [Happens, exec_engineResetComplete, execEngineResetComplete, hst, hholder, hwhy]
  rfl

end

end

/-- Settles O36: each event finds the engine in the state that its rule asks for. -/
theorem engineEventsHappen : Obligations.EngineEventsHappen := by
  intro s core e
  refine ⟨?completes, ?expires, ?fails, ?watchdog, ?reset⟩
  case completes => exact fun _ _ hops hruns hfree => happens_mxOperationComplete hops hruns hfree
  case expires => exact fun hst hqueue => happens_leaseExpiry hst hqueue
  case fails => exact fun _ => happens_checkFailure
  case watchdog => exact fun hst hops => happens_watchdog hst hops
  case reset =>
    intro g hst hholder q
    exact ⟨happens_engineResetComplete_keeps hst hholder, fun _ hwhy => happens_engineResetComplete_ends hst hholder hwhy⟩

end Sys2Proof.Machine
end

section
/-! SUPPORT. PUT and RECONF (21_link R374 to R379): a PUT that is routed, has room and is admitted, and the results that a RECONF can
find standing. -/

namespace Sys2Proof.Machine

/-! ### PUT (R378, R379) -/

section
variable {s : State} {w : WarpId} {x : Warp} {b : Bundle} {f : FmtS}

theorem exec_put : exec (.put f) s = execPut f s := rfl

/-- No line that leaves the package is poisoned (R379). -/
theorem put_unpoisoned {t : State} {i : Iss} {y : Warp} {o : PutOpds} {h : Nat}
    (hclean : h = t.pkg ∨ ∀ a ∈ lineVas o.src o.b, (t.sendLine i y o.ssp a).poisoned = false) :
    ((lineVas o.src o.b).find? fun a => decide (h ≠ t.pkg) && (t.sendLine i y o.ssp a).poisoned) = none := by
  refine List.find?_eq_none.2 fun a ha => ?_
  rcases hclean with rfl | hlines
  · simp
  · simp [hlines a ha]

theorem completes_put {h : Nat} {g : Group} (hi : Issuing s w x b) (hregs : SysReady x (fourOf f.sa ++ [f.sb.toNat]) []) :
    let t := s.issued w
    let y := x.presented
    let i := mkIss s w x b 8
    let o := putOpds y f
    wholeWarp i y b.mask = true → t.isTwin w.g = false → o.route t i y = .ok h → t.idBusy w.g o.id = false →
    t.engineLoad i.core < 64 → t.sendLoad i.core + o.b ≤ 524288 → o.present t i = .ok () → t.sealedFor i [o.ssp] = false →
    (h = t.pkg ∨ ∀ a ∈ lineVas o.src o.b, (t.sendLine i y o.ssp a).poisoned = false) → t.admitPut i o h = .ok t →
    CommitReady t w g y →
    let c := t.committed w g y b.mask i.fall
    c.isTwin w.g = false → Completes (.put f) s w x b 8 true ((c.sendPut i y o h).fallThrough i) := by
  intro t y i o hwhole hprimary hroute hidle hengine hsend hpresent hunsealed hclean hadmit hcommit c hstill
  have hshape : checkWhole t i y b.mask = .ok () := if_pos hwhole
  have hleads : followed t i y = false := by
    rw [followed, mkIss_wid, hprimary]
    rfl
  have hroom : (t.idBusy w.g o.id || decide (64 ≤ t.engineLoad i.core) || decide (524288 < t.sendLoad i.core + o.b)) = false := by
    rw [hidle, decide_eq_false (Nat.not_le.2 hengine), decide_eq_false (Nat.not_lt.2 hsend)]
    rfl
  have hlines := put_unpoisoned hclean
  rw [Completes, exec_put, execPut]
  refine issue_ok hi ?_
  simp only [t, y, i, o, c] at hshape hleads hprimary hroute hroom hpresent hunsealed hlines hadmit hcommit hstill ⊢
  simp only [mkIss_wid, mkIss_lanes, warp?_issued_of_issuing hi, hshape, sysRegs_ready hregs, hleads, hprimary, hroute, hunsealed,
    hroom, hpresent, hlines, hadmit, commit_ready hcommit, hstill, Bool.false_eq_true, if_false]
  rfl

end

/-- Settles O29: the PUT passes its checks, finds room, is admitted and commits. -/
theorem putCompletes : Obligations.PutCompletes := by
  intro s w x b f hi hregs t y i o hwhole hprimary h hroute hidle hengine hsend hpresent hunsealed hclean hadmit g hcommit c hstill
  exact completes_put hi hregs hwhole hprimary hroute hidle hengine hsend hpresent hunsealed hclean hadmit hcommit hstill

/-! ### RECONF (R374, R375) -/

/-- What a warp has been told of its round. -/
def State.roundMailOf (s : State) (w : WarpId) : SMap Mail := ((s.warp? w).map Warp.mail).getD []

/-- A RECONF of the warp is over: what stood of it is gone (R375). -/
def State.reconfOver (s : State) (w : WarpId) : State :=
  s.updWarp w fun z => { z with mail := sdel (sdel z.mail roundMail) roundValid }

/-- The slot of a RECONF was invalid when it was tested, at its first presentation (R375). -/
abbrev State.ReconfRefused (s : State) (w : WarpId) (slot : Nat) : Prop :=
  sget? (s.roundMailOf w) roundValid = none ∧ (vget s.slots slot TopoSlot.reset).valid = false

section
variable {u : State} {w : WarpId} {slot : Nat} {e : Word}

theorem reconf_of_mail {m : Mail} (h : sget? (u.roundMailOf w) roundMail = some m) :
    u.reconf w slot e = .ok (m.gVal, u.reconfOver w) := by
  rw [State.roundMailOf] at h
  simp only [State.reconf, h]
  rfl

section
variable (hmail : sget? (u.roundMailOf w) roundMail = none) (hround : ∀ r, u.round = some r → w ∉ r.warps)
include hmail hround

/-- Without a result a RECONF that has joined no round is judged by its slot, a round past its commit point, its generation, and
the gathering round, in this order (R375). -/
theorem reconf_of_no_mail (hopen : ¬ u.ReconfRefused w slot → u.roundOn = false) (hjoins : u.ReconfRefused w slot ∨ e ≠ u.tgen ∨
      ∃ r, u.round = some r ∧ (r.slot ≠ slot ∨ r.gen ≠ e)) :
    u.reconf w slot e =
      .ok (reconfWord (if u.ReconfRefused w slot then 1 else if e ≠ u.tgen then 2 else 1) u.tgen, u.reconfOver w) := by
  have hout : (u.round.map fun r => decide (w ∈ r.warps)).getD false = false := by
    cases hr : u.round with
    | none => rfl
    | some r => exact decide_eq_false (hround r hr)
  have hrefused : ((sget? (u.roundMailOf w) roundValid).isNone && !(vget u.slots slot TopoSlot.reset).valid) = true ↔
      u.ReconfRefused w slot := by simp [State.ReconfRefused]
  unfold State.reconf
  dsimp only
  rw [State.roundMailOf] at hmail hrefused
  rw [hmail]
  dsimp only
  rw [if_neg (Bool.eq_false_iff.1 hout)]
  by_cases hr : u.ReconfRefused w slot
  · rw [if_pos (hrefused.2 hr), if_pos hr]
    rfl
  rw [if_neg (mt hrefused.1 hr), if_neg (Bool.eq_false_iff.1 (hopen hr)), if_neg hr]
  by_cases he : e ≠ u.tgen
  · rw [if_pos he, if_pos he]
    rfl
  obtain ⟨r, hr', hother⟩ := (hjoins.resolve_left hr).resolve_left he
  rw [if_neg he, if_neg he, hr']
  exact if_pos hother

end

/-- No round is past its commit point while each that there is gathers (R374). -/
theorem roundOn_of_gather (h : ∀ r, u.round = some r → r.phase = .gather) : u.roundOn = false := by
  rw [State.roundOn]
  cases hr : u.round with
  | none => rfl
  | some r => simp [h r hr]

end

section
variable {s t u : State} {w : WarpId} {x : Warp} {b : Bundle} {f : FmtS}

/-- A RECONF presented before, or of a context that holds fabric control, is permitted (R377). -/
theorem reconf_permitted {y : Warp} {ctx : Nat} (h : y.releasing = true ∨ t.fabricControl ctx = true) :
    (!y.releasing && !t.fabricControl ctx) = false := by
  rcases h with h | h <;> simp [h]

theorem completes_reconf {r : DWord} {v : State} (hi : Issuing s w x b) (hregs : SysReady x [f.sa.toNat, f.sb.toNat] [f.d.toNat])
    (hpermitted : x.releasing = true ∨ (s.issued w).fabricControl (mkIss s w x b 8).ctx = true)
    (hcommit : (s.issued w).reconfCommit (mkIss s w x b 8) x.presented f = .ok u) (hprimary : u.isTwin w.g = false)
    (hresult : u.reconf w (fld f.imm.toNat 0 3) (bitsAt (x.gv f.sa) 0 32) = .ok (r, v)) :
    Completes (.reconf f) s w x b 8 true (((v.mailTwin w (.g r)).putG w f.d.toNat r).fallThrough (mkIss s w x b 8)) := by
  have hallowed := reconf_permitted (y := x.presented) hpermitted
  rw [Completes, exec_reconf, execReconf]
  refine sysFrame_ready hi hregs ?_
  simp only [hallowed, hcommit, mkIss_wid, hprimary, Warp.gv_issued, hresult, Bool.false_eq_true, if_false]

end

/-- Settles O30: whichever result stands is the one that RECONF answers with. -/
theorem reconfCompletes : Obligations.ReconfCompletes := by
  intro s w x b f hi hregs t y i hpermitted u hu hprimary slot e back mail refused
  have hcompletes : ∀ r, u.reconf w slot e = .ok (r, u.reconfOver w) → back r := fun _ hresult =>
    completes_reconf hi hregs hpermitted (reconfCommit_ready hu) hprimary hresult
  refine ⟨fun m hm => hcompletes _ (reconf_of_mail hm), fun hmail hround =>
    ⟨?refused, fun (hnot : ¬ u.ReconfRefused w slot) hgather => ⟨?stale, ?other⟩⟩⟩
  case refused =>
    intro (hr : u.ReconfRefused w slot)
    have hresult := reconf_of_no_mail (e := e) hmail hround (fun h => absurd hr h) (.inl hr)
    rw [if_pos hr] at hresult
    exact hcompletes _ hresult
  case stale =>
    intro he
    have hresult := reconf_of_no_mail (slot := slot) hmail hround (fun _ => roundOn_of_gather hgather) (.inr (.inl he))
    rw [if_neg hnot, if_pos he] at hresult
    exact hcompletes _ hresult
  case other =>
    intro he r hr hother
    have hresult := reconf_of_no_mail (slot := slot) hmail hround (fun _ => roundOn_of_gather hgather) (.inr (.inr ⟨r, hr, hother⟩))
    rw [if_neg hnot, if_neg (not_not_intro he)] at hresult
    exact hcompletes _ hresult

end Sys2Proof.Machine
end

section
/-! SUPPORT. The events of the fabric (21_link R374 to R376, R379, R380): answers to admissions, landings, joins and withdrawals, and
the steps of a round. -/

namespace Sys2Proof.Machine

section
variable {s : State}

/-! ### PUTs (R363, R379, R380) -/

theorem exec_putAdmission (id : Nat) (reply : Admission) : exec (.putAdmission id reply) s = execPutAdmission id reply s := rfl

theorem exec_putLanding (id : Nat) (how : Landing) : exec (.putLanding id how) s = execPutLanding id how s := rfl

theorem happens_putAdmission {id : Nat} {reply : Admission} {a : Admit} (ha : sget? s.admits id = some a) (hopen : a.reply = none)
    (htimer : reply ≠ .txnTimeout ∨ s.timerHeld a.dest = false) :
    Happens (.putAdmission id reply) s { s with admits := sset s.admits id { a with reply := some reply } } := by
  have hanswers : (a.reply.isNone && !(decide (reply = .txnTimeout) && s.timerHeld a.dest)) = true := by
    rcases htimer with h | h <;> simp [hopen, h]
  simp only [Happens, exec_putAdmission, execPutAdmission, ha, hanswers]
  rfl

section
variable {id : Nat} {how : Landing} {p : Put} (hp : s.puts.find? (fun p => decide (p.id = id)) = some p)
  (htimer : s.timerHeld p.dest = false)
include hp htimer

theorem happens_putLanding_waits (hnot : s.putBehind p = true ∨ s.gateHome p.dest = .hold) :
    Happens (.putLanding id how) s (s.addDue (.putLanding id how)) := by
  obtain rfl : p.id = id := by simpa using List.find?_some hp
  have hwaits : (s.putBehind p || decide (s.gateHome p.dest = .hold)) = true := by
    rcases hnot with h | h <;> simp [h]
  simp only [Happens, exec_putLanding, execPutLanding, hp, State.tryLand, htimer, hwaits]
  rfl

section
variable (hfirst : s.putBehind p = false) (hgate : s.gateHome p.dest ≠ .hold)
include hfirst hgate

theorem happens_putLanding_lands (hhome : s.putRecalls p = []) : Happens (.putLanding id how) s (s.landPut p how) := by
  have hgoes : (s.putBehind p || decide (s.gateHome p.dest = .hold)) = false := by simp [hfirst, hgate]
  simp only [Happens, exec_putLanding, execPutLanding, hp, State.tryLand, htimer, hgoes, hhome]
  rfl

theorem happens_putLanding_recalls (haway : s.putRecalls p ≠ []) :
    Happens (.putLanding id how) s (((s.putRecalls p).foldl State.askRecall s).addDue (.putLanding id how)) := by
  obtain rfl : p.id = id := by simpa using List.find?_some hp
  have hgoes : (s.putBehind p || decide (s.gateHome p.dest = .hold)) = false := by simp [hfirst, hgate]
  obtain ⟨n, l, hl⟩ := List.exists_cons_of_ne_nil haway
  simp only [Happens, exec_putLanding, execPutLanding, hp, State.tryLand, htimer, hgoes, hl]
  rfl

end

end

/-! ### Joins and withdrawals (R374 to R376) -/

theorem exec_join (pkg slot : Nat) (gen : Word) : exec (.join pkg slot gen) s = execJoin pkg slot gen s := rfl

theorem exec_gatherTimeout (w : WarpId) : exec (.gatherTimeout w) s = execGatherTimeout w s := rfl

section
variable {pkg slot : Nat} {gen : Word} (hother : pkg ≠ s.pkg) (hgroup : pkg ∈ s.topoGroup) (hgen : gen = s.tgen)
  (hopen : s.roundOn = false)
include hother hgroup hgen hopen

omit hother in
/-- A join by another package of the group, under the generation of this one, reaches the gathering round (R374). -/
theorem join_considered : (!decide (pkg ∈ s.topoGroup) || decide (gen ≠ s.tgen) || s.roundOn) = false := by
  simp [hgroup, hgen, hopen]

theorem happens_join_opens (hnone : s.round = none) :
    Happens (.join pkg slot gen) s ({ s with round := some ⟨slot, gen, [pkg], [], .gather, 0⟩ }.roundCheck) := by
  have hconsidered := join_considered hgroup hgen hopen
  rw [Happens, exec_join, execJoin, if_neg hother, hconsidered, hnone]
  rfl

section
variable {r : Round} (hr : s.round = some r)
include hr

theorem happens_join_joins (hsame : r.slot = slot ∧ r.gen = gen) :
    Happens (.join pkg slot gen) s ({ s with round := some { r with joins := addOnce pkg r.joins } }.roundCheck) := by
  have hconsidered := join_considered hgroup hgen hopen
  rw [Happens, exec_join, execJoin, if_neg hother, hconsidered, hr]
  exact if_pos hsame

theorem happens_join_refused (hdiffers : ¬(r.slot = slot ∧ r.gen = gen)) :
    Happens (.join pkg slot gen) s (s.say (.refused pkg)) := by
  have hconsidered := join_considered hgroup hgen hopen
  rw [Happens, exec_join, execJoin, if_neg hother, hconsidered, hr]
  exact if_neg hdiffers

end

end

section
variable {r : Round} (hr : s.round = some r)
include hr

section
variable (hphase : r.phase = .gather)
include hphase

/-- The last RECONF of the package to withdraw takes the package's join with it (R376). -/
theorem happens_gatherTimeout {w : WarpId} (hw : w ∈ r.warps) :
    let ws := r.warps.filter (· ≠ w)
    let js := if ws.isEmpty then r.joins.filter (· ≠ s.pkg) else r.joins
    let t := s.keepRound r js ws
    Happens (.gatherTimeout w) s ((if ws.isEmpty then t.tellCoordinator r.slot r.gen false else t).giveRound (reconfWord 3 s.tgen)
      w) := by
  intro ws js t
  rw [Happens, exec_gatherTimeout, execGatherTimeout, hr]
  refine (if_pos ⟨hphase, hw⟩).trans (congrArg (fun u : State => event (u.giveRound (reconfWord 3 s.tgen) w)) ?_)
  by_cases hlast : (r.warps.filter (· ≠ w)).isEmpty = true
  · simp only [hlast, if_true, t, js, ws]
  · simp only [hlast, Bool.false_eq_true, if_false, t, js, ws]

theorem happens_join_own (haway : s.coordinator ≠ s.pkg) :
    Happens (.join s.pkg r.slot r.gen) s (r.warps.foldl (fun (t : State) w => t.giveRound (reconfWord 1 s.tgen) w)
      (s.keepRound r (r.joins.filter (· ≠ s.pkg)) [])) := by
  rw [Happens, exec_join, execJoin, if_pos rfl, State.refuseJoin, hr]
  exact congrArg event (if_pos ⟨hphase, rfl, rfl, haway⟩)

theorem happens_withdraws {pkg : Nat} (hother : pkg ≠ s.pkg) :
    Happens (.registerWrite (.withdraws pkg)) s (s.keepRound r (r.joins.filter (· ≠ pkg)) r.warps) := by
  change event (s.withdrawJoin pkg) = event _
  rw [State.withdrawJoin, hr]
  exact congrArg event (if_pos ⟨hphase, hother⟩)

end

/-! ### The steps of a round (R374) -/

theorem happens_drainComplete (hphase : r.phase = .drain) (hdrained : s.drained r.mark = true) :
    Happens .drainComplete s ({ s.clearSent with round := some { r with phase := .switch } }.addDue .switch) := by
  change execDrainComplete s = event _
  rw [execDrainComplete, hr]
  exact (if_neg (not_not_intro hphase)).trans (if_pos hdrained)

theorem happens_switch (hphase : r.phase = .switch) :
    let t := vget s.slots r.slot TopoSlot.reset
    Happens .switch s ({ (List.range 16).foldl (fun (u : State) n => (u.drivePort t n).say (.circuit n (t.circuitOf n)))
      { s with active := some t } with round := some { r with phase := .retrain } }.addDue .commitStep) := by
  change execSwitch s = event _
  rw [execSwitch, hr]
  exact if_neg (not_not_intro hphase)

theorem happens_commitStep (hphase : r.phase = .retrain) :
    Happens .commitStep s (r.warps.foldl (fun (t : State) w => t.giveRound (reconfWord 0 (s.tgen + 1)) w)
      { s with tgen := s.tgen + 1, round := none }).retryAsks := by
  change execCommitStep s = event _
  rw [execCommitStep, hr]
  exact if_neg (not_not_intro hphase)

end

end

/-- Settles O37: an admission, a landing, a join, a withdrawal and a step of the round each find what their rule asks for. -/
theorem fabricEventsHappen : Obligations.FabricEventsHappen := by
  intro s
  refine ⟨?admission, fun id how p hp => ⟨fun hfirst hgate htimer => ⟨?lands, ?recalls⟩, ?waits⟩,
    fun pkg slot gen hother hgroup hgen hopen => ⟨?opens, ?joins, ?refused⟩, ?timeout, fun r hr hphase => ⟨?own, ?withdraws⟩,
    fun r hr => ⟨?drain, ?switch, ?commit⟩⟩
  case admission => exact fun _ _ _ ha hopen htimer => happens_putAdmission ha hopen htimer
  case lands => exact happens_putLanding_lands hp htimer hfirst hgate
  case recalls => exact happens_putLanding_recalls hp htimer hfirst hgate
  case waits => exact fun hnot htimer => happens_putLanding_waits hp htimer hnot
  case opens => exact happens_join_opens hother hgroup hgen hopen
  case joins => exact fun _ hr hslot hgen' => happens_join_joins hother hgroup hgen hopen hr ⟨hslot, hgen'⟩
  case refused => exact fun _ hr hdiffers => happens_join_refused hother hgroup hgen hopen hr hdiffers
  case timeout => exact fun _ _ hr hphase hw => happens_gatherTimeout hr hphase hw
  case own => exact happens_join_own hr hphase
  case withdraws => exact fun _ hother => happens_withdraws hr hphase hother
  case drain => exact happens_drainComplete hr
  case switch => exact happens_switch hr
  case commit => exact happens_commitStep hr

end Sys2Proof.Machine
end

section
/-! SUPPORT. Links: training, faults and repairs, packets that arrive, and firmware's slots, shapes and grants (R365-R372, R377). -/

namespace Sys2Proof.Machine

theorem exec_enablesThePort (n : Nat) (s : State) : exec (.enablesThePort n) s = execEnablesThePort n s := rfl
theorem exec_summary (n : Nat) (q : LinkSummary) (s : State) : exec (.summary n q) s = execSummary n q s := rfl
theorem exec_trainingTimeout (n : Nat) (s : State) : exec (.trainingTimeout n) s = execTrainingTimeout n s := rfl
theorem exec_wavelengthFailure (n f v : Nat) (s : State) :
    exec (.wavelengthFailure n f v) s = execWavelengthFailure n f v s := rfl
theorem exec_laserFailure (n f v : Nat) (s : State) : exec (.laserFailure n f v) s = execLaserFailure n f v s := rfl
theorem exec_blackoutEnd (n : Nat) (s : State) : exec (.blackoutEnd n) s = execBlackoutEnd n s := rfl
theorem exec_flitCrcFailure (n : Nat) (same : Bool) (s : State) :
    exec (.flitCrcFailure n same) s = execFlitCrcFailure n same s := rfl
theorem exec_resetsThePort (n : Nat) (s : State) : exec (.resetsThePort n) s = execResetsThePort n s := rfl
theorem exec_packetArrival (h : PacketHdr) (s : State) : exec (.packetArrival h) s = execPacketArrival h s := rfl
theorem exec_slotWrite (slot : Nat) (block : List Byte) (s : State) :
    exec (.slotWrite slot block) s = execSlotWrite slot block s := rfl
theorem exec_shapeWrite (sector slot : Nat) (v : BitVec 256) (s : State) :
    exec (.shapeWrite sector slot v) s = execShapeWrite sector slot v s := rfl

/-- A link trains in just the two states of R366. -/
theorem LinkSt.trains_iff (x : LinkSt) : x.trains = true ↔ x = .training ∨ x = .retraining := by
  cases x <;> simp [LinkSt.trains]

section
variable {s : State} {n : Nat} (hn : n < 16)
include hn

/-- An event of a port that exists is the change of that port. -/
theorem onPort_event {f : Port → State} {t : State} (h : f (s.port n) = t) : onPort s n f = event t :=
  (if_pos hn).trans (congrArg event h)

/-- A wavelength in service of a link that carries packets fails. -/
theorem onWave_event {f v : Nat} {g : Port → State} {t : State} (hcarries : (s.port n).st.carries = true)
    (hserves : ((s.port n).mapAt f).getLsbD v = true) (h : g (s.port n) = t) : onWave s n f v g = event t :=
  onPort_event hn ((if_pos (Bool.and_eq_true_iff.2 ⟨hcarries, hserves⟩)).trans h)

theorem happens_enablesThePort (hdown : (s.port n).st = .down) :
    Happens (.enablesThePort n) s (s.linkTo n (s.port n) .training) :=
  (exec_enablesThePort n s).trans (onPort_event hn (if_pos hdown))

theorem happens_resetsThePort (hfailed : (s.port n).st = .failed) :
    Happens (.resetsThePort n) s (s.linkTo n { s.port n with mc := 0 } .down) :=
  (exec_resetsThePort n s).trans (onPort_event hn (if_pos hfailed))

theorem happens_blackoutEnd : Happens (.blackoutEnd n) s (s.setPort n { s.port n with blackout := false }) :=
  (exec_blackoutEnd n s).trans (onPort_event hn rfl)

theorem happens_summary_agrees {q : LinkSummary} (htrains : (s.port n).st.trains = true) (hagrees : (s.port n).agrees q = true) :
    Happens (.summary n q) s (s.linkTo n { s.port n with mc := 0, replays := 0 }
      (if (s.port n).whole then .up else .degraded)) :=
  (exec_summary n q s).trans (onPort_event hn ((if_pos htrains).trans (if_pos hagrees)))

theorem happens_summary_disagrees {q : LinkSummary} (htrains : (s.port n).st.trains = true)
    (hagrees : (s.port n).agrees q = false) : Happens (.summary n q) s (s.mismatch n (s.port n)) :=
  (exec_summary n q s).trans (onPort_event hn ((if_pos htrains).trans (if_neg (Bool.eq_false_iff.1 hagrees))))

theorem happens_trainingTimeout (htrains : (s.port n).st.trains = true) :
    Happens (.trainingTimeout n) s (s.mismatch n (s.port n)) :=
  (exec_trainingTimeout n s).trans (onPort_event hn (if_pos htrains))

section
variable {f v : Nat} (hcarries : (s.port n).st.carries = true) (hserves : ((s.port n).mapAt f).getLsbD v = true)
include hcarries hserves

theorem happens_wavelengthFailure_spare (hspare : sgetD (s.port n).spares f 0 = 0) :
    Happens (.wavelengthFailure n f v) s (s.repaired n ((s.port n).spareIn f v)) :=
  (exec_wavelengthFailure n f v s).trans (onWave_event hn hcarries hserves (if_pos hspare))

theorem happens_wavelengthFailure_narrows (hspare : sgetD (s.port n).spares f 0 ≠ 0) :
    Happens (.wavelengthFailure n f v) s (s.narrowed n ((s.port n).without f v)) :=
  (exec_wavelengthFailure n f v s).trans (onWave_event hn hcarries hserves (if_neg hspare))

theorem happens_laserFailure_spare (hspare : (s.port n).lasers < spareLasers) :
    Happens (.laserFailure n f v) s (s.repaired n { s.port n with lasers := (s.port n).lasers + 1 }) :=
  (exec_laserFailure n f v s).trans (onWave_event hn hcarries hserves (if_pos hspare))

theorem happens_laserFailure_narrows (hspare : spareLasers ≤ (s.port n).lasers) :
    Happens (.laserFailure n f v) s (s.narrowed n ((s.port n).without f v)) :=
  (exec_laserFailure n f v s).trans (onWave_event hn hcarries hserves (if_neg (Nat.not_lt.2 hspare)))

end

section
variable {same : Bool} (hcarries : (s.port n).st.carries = true)
include hcarries

theorem happens_flitCrcFailure_replays (hk : (if same then (s.port n).replays + 1 else 1) ≤ 16) :
    Happens (.flitCrcFailure n same) s
      (s.setPort n { s.port n with replays := if same then (s.port n).replays + 1 else 1 }) := by
  refine (exec_flitCrcFailure n same s).trans (onPort_event hn ?_)
  simp only [hcarries, Bool.not_true, Bool.false_eq_true, if_false]
  exact if_pos hk

theorem happens_flitCrcFailure_retrains (hk : 16 < (if same then (s.port n).replays + 1 else 1)) :
    Happens (.flitCrcFailure n same) s (s.narrowed n (s.port n)) := by
  refine (exec_flitCrcFailure n same s).trans (onPort_event hn ?_)
  simp only [hcarries, Bool.not_true, Bool.false_eq_true, if_false]
  exact if_neg (Nat.not_le.2 hk)

end

end

section
variable {s : State} {h : PacketHdr} (hn : h.port < 16) (hcarries : (s.port h.port).st.carries = true)
include hn hcarries

section
variable (hok : h.checkOk = true) (hfrom : s.refusesFrom h.src = false)
include hok hfrom

theorem happens_packetArrival_delivers (hdst : h.dst = s.pkg) (hidle : s.asks = [] ∧ s.ownAsks = [] ∧ s.fwOpen = []) :
    Happens (.packetArrival h) s (s.deliver h) := by
  obtain ⟨hasks, hown, hfw⟩ := hidle
  refine (exec_packetArrival h s).trans (onPort_event hn ?_)
  simp [hcarries, hok, hfrom, hdst, hasks, hown, hfw]

theorem happens_packetArrival_serves (hdst : h.dst = s.pkg) (hbusy : ¬(s.asks = [] ∧ s.ownAsks = [] ∧ s.fwOpen = [])) :
    Happens (.packetArrival h) s (s.deliver h).afterRecall := by
  have hwaits : (s.asks.isEmpty && s.ownAsks.isEmpty && s.fwOpen.isEmpty) = false := by
    simpa [← Bool.not_eq_true, and_assoc] using hbusy
  refine (exec_packetArrival h s).trans (onPort_event hn ?_)
  simp only [hcarries, hok, hfrom, hdst, hwaits, Bool.not_true, Bool.or_false, Bool.false_eq_true, ne_eq, not_true_eq_false,
    if_false]

theorem happens_packetArrival_forwards (hdst : h.dst ≠ s.pkg) : Happens (.packetArrival h) s (s.forward h) := by
  refine (exec_packetArrival h s).trans (onPort_event hn ?_)
  simp [hcarries, hok, hfrom, hdst]

end

/-- A packet that fails its check, or comes from a lost cell, counts against the link; its number is passed over. -/
theorem happens_packetArrival_drops (hbad : h.checkOk = false ∨ s.refusesFrom h.src = true) :
    Happens (.packetArrival h) s
      (if h.dst = s.pkg then
        (s.setPort h.port { s.port h.port with drops := (s.port h.port).drops + 1 }).deliver { h with kind := .other }
      else s.setPort h.port { s.port h.port with drops := (s.port h.port).drops + 1 }) := by
  have hdrops : (!h.checkOk || s.refusesFrom h.src) = true := by simpa using hbad
  refine (exec_packetArrival h s).trans (onPort_event hn ?_)
  simp only [hcarries, hdrops, Bool.not_true, Bool.false_eq_true, if_false, if_true]

end

theorem happens_slotWrite {s : State} {slot : Nat} {block : List Byte} (hslot : slot < 8)
    (hok : ∃ p ∈ s.blockPkgs, blockOk p block = true) :
    let t : TopoSlot := ⟨block.take 8, decide ((block.getD 8 0).toNat = 1), blockPorts block, blockRoutes block⟩
    Happens (.slotWrite slot block) s { s with slots := vset s.slots slot t } :=
  (exec_slotWrite slot block s).trans (if_pos ⟨hslot, List.any_eq_true.2 hok⟩)

theorem happens_shapeWrite {s : State} {sector slot : Nat} {v : BitVec 256} (hsector : sector < 12) (hslot : slot < 8)
    (hlegal : (shapeOf v).legal = true) :
    Happens (.shapeWrite sector slot v) s { s with shapes := sset s.shapes (sector * 8 + slot) (shapeOf v) } :=
  (exec_shapeWrite sector slot v s).trans (if_pos ⟨hsector, hslot, hlegal⟩)

/-- Settles O38: each event of a port, of a packet and of firmware finds what its row asks for. -/
theorem linkEventsHappen : Obligations.LinkEventsHappen := by
  intro s n hn p
  refine ⟨?enables, fun q htrains => ?trains, fun f v hcarries hserves => ?fails, ?blackout, fun same hcarries => ?crc, ?resets,
    fun h hport hcarries => ?arrives, ?slot, ?shape, fun c => rfl⟩
  case enables => exact happens_enablesThePort hn
  case trains =>
    have htrains := (LinkSt.trains_iff _).2 htrains
    exact ⟨happens_summary_agrees hn htrains, happens_summary_disagrees hn htrains, happens_trainingTimeout hn htrains⟩
  case fails =>
    exact ⟨happens_wavelengthFailure_spare hn hcarries hserves, happens_wavelengthFailure_narrows hn hcarries hserves,
      happens_laserFailure_spare hn hcarries hserves, happens_laserFailure_narrows hn hcarries hserves⟩
  case blackout => exact happens_blackoutEnd hn
  case crc => exact ⟨happens_flitCrcFailure_replays hn hcarries, happens_flitCrcFailure_retrains hn hcarries⟩
  case resets => exact happens_resetsThePort hn
  case arrives =>
    subst hport
    exact ⟨fun hok hfrom => happens_packetArrival_delivers hn hcarries hok hfrom,
      fun hok hfrom => happens_packetArrival_serves hn hcarries hok hfrom,
      fun hok hfrom => happens_packetArrival_forwards hn hcarries hok hfrom, happens_packetArrival_drops hn hcarries⟩
  case slot => exact fun _ _ => happens_slotWrite
  case shape => exact fun _ _ _ => happens_shapeWrite

end Sys2Proof.Machine
end

section
/-! SUPPORT. The space: its formation, the views of other cells, and the stop of a package cut from its cell (R352-R364). -/

namespace Sys2Proof.Machine

theorem exec_formsTheSpace (pkg cell : Nat) (members : List (Nat × Nat)) (slot : Nat) (s : State) :
    exec (.formsTheSpace pkg cell members slot) s = execFormsTheSpace pkg cell members slot s := rfl
theorem exec_admitsTheCell (c : Nat) (s : State) : exec (.admitsTheCell c) s = execAdmitsTheCell c s := rfl
theorem exec_pathLoss (c : Nat) (s : State) : exec (.pathLoss c) s = execPathLoss c s := rfl
theorem exec_pathRestored (c : Nat) (s : State) : exec (.pathRestored c) s = execPathRestored c s := rfl
theorem exec_suspectTimeout (c : Nat) (s : State) : exec (.suspectTimeout c) s = execSuspectTimeout c s := rfl
theorem exec_declaresTheCellDead (c : Nat) (s : State) :
    exec (.declaresTheCellDead c) s = execDeclaresTheCellDead c s := rfl
theorem exec_scanComplete (c : Nat) (s : State) : exec (.scanComplete c) s = execScanComplete c s := rfl
theorem exec_readmitsTheCell (c : Nat) (s : State) : exec (.readmitsTheCell c) s = execReadmitsTheCell c s := rfl
theorem exec_rejoinComplete (c : Nat) (s : State) : exec (.rejoinComplete c) s = execRejoinComplete c s := rfl
theorem exec_packageStop (lastPath : Nat) (s : State) : exec (.packageStop lastPath) s = execPackageStop lastPath s := rfl

/-- The state in which a package learns its number, its cell and the space's members (R12, R353). -/
def State.numberedAs (s : State) (pkg cell : Nat) (all : List (Nat × Nat)) : State :=
  { s with pkg := pkg, cell := cell, numbered := true, cells := formedCells cell all, slots := ownSlots pkg s.slots }

theorem happens_formsTheSpace {s : State} {pkg cell slot : Nat} {members all : List (Nat × Nat)}
    (hall : (if (pkg, cell) ∈ members then members else (pkg, cell) :: members) = all) (hactive : s.active = none)
    (hvalid : (s.numberedAs pkg cell all).validSlot slot = true) (hmembers : membersOk all = true)
    (hnumber : s.numbered = false ∨ (pkg, cell) = (s.pkg, s.cell)) (hfit : (s.numberedAs pkg cell all).homesFit = true) :
    Happens (.formsTheSpace pkg cell members slot) s
      (if s.bringUp = 5 then { ((s.numberedAs pkg cell all).activate slot 1).enablePorts with bringUp := 7 }
      else (s.numberedAs pkg cell all).activate slot 1) := by
  subst hall
  refine (exec_formsTheSpace pkg cell members slot s).trans (if_neg ?_)
  have hkeeps : (s.numbered && decide ((pkg, cell) ≠ (s.pkg, s.cell))) = false :=
    Bool.and_eq_false_iff.2 (hnumber.imp_right fun hsame => decide_eq_false (not_not_intro hsame))
  change ¬ (s.active.isSome || !(s.numberedAs pkg cell _).validSlot slot || !membersOk _ ||
    (s.numbered && decide ((pkg, cell) ≠ (s.pkg, s.cell))) || !(s.numberedAs pkg cell _).homesFit) = true
  rw [hvalid, hmembers, hkeeps, hfit, hactive]
  decide

section
variable {s : State} {c : Nat} {x : Cell} (hother : c ≠ s.cell) (hx : sget? s.cells c = some x)
include hother hx

/-- An event of the view of another cell is the change of that view. -/
theorem onCell_event {f : Cell → State} {t : State} (h : f x = t) : onCell s c f = event t := by
  rw [onCell, if_neg hother, hx]
  exact congrArg event h

theorem happens_admitsTheCell (hst : x.st = .forming) (hreached : s.cellReached c = true) :
    Happens (.admitsTheCell c) s (s.setCell c { x with st := .member }) :=
  (exec_admitsTheCell c s).trans (onCell_event hother hx (if_pos ⟨hst, hreached⟩))

theorem happens_pathLoss_member (hst : x.st = .member) (hlost : s.cellReached c = false) :
    Happens (.pathLoss c) s (s.setCell c { x with st := .suspect }) :=
  (exec_pathLoss c s).trans (onCell_event hother hx (by rw [if_neg (Bool.eq_false_iff.1 hlost), hst]))

theorem happens_pathLoss_rejoining (hst : x.st = .rejoining) (hlost : s.cellReached c = false) :
    Happens (.pathLoss c) s (s.setCell c { x with st := .fenced }) :=
  (exec_pathLoss c s).trans (onCell_event hother hx (by rw [if_neg (Bool.eq_false_iff.1 hlost), hst]))

theorem happens_pathRestored (hst : x.st = .suspect) (hreached : s.cellReached c = true) :
    Happens (.pathRestored c) s (s.setCell c { x with st := .member }).afterRecall :=
  (exec_pathRestored c s).trans (onCell_event hother hx (if_pos ⟨hst, hreached⟩))

theorem happens_suspectTimeout (hst : x.st = .suspect) : Happens (.suspectTimeout c) s (s.recover c x 0) :=
  (exec_suspectTimeout c s).trans (onCell_event hother hx (if_pos hst))

theorem happens_declaresTheCellDead_recovers (hst : x.st = .member ∨ x.st = .suspect) :
    Happens (.declaresTheCellDead c) s (s.recover c x 1) := by
  refine (exec_declaresTheCellDead c s).trans (onCell_event hother hx ?_)
  obtain hst | hst := hst
  · rw [hst]
  · rw [hst]

theorem happens_declaresTheCellDead_fences (hst : x.st = .rejoining) :
    Happens (.declaresTheCellDead c) s (s.setCell c { x with st := .fenced }) :=
  (exec_declaresTheCellDead c s).trans (onCell_event hother hx (by rw [hst]))

theorem happens_scanComplete (hst : x.st = .recovering) :
    Happens (.scanComplete c) s (({ s.recallDirty c with
      dir := (s.recallDirty c).dir.filterMap fun (e : Nat × DirEntry) => (scanEntry c e.2).map fun d => (e.1, d) }.setCell c
        { x with st := .fenced }).cellRecord c .recovering .fenced (s.unstated 0)) :=
  (exec_scanComplete c s).trans (onCell_event hother hx (if_neg (not_not_intro hst)))

theorem happens_readmitsTheCell (hst : x.st = .fenced) (hreset : ∀ p ∈ x.members, p ∈ x.reset) :
    Happens (.readmitsTheCell c) s ({ s with
      seqs := s.seqs.filter (fun e => !(decide (e.1 ∈ x.members))),
      outSeq := s.outSeq.filter (fun e => !(decide (e.1 ∈ x.members))),
      early := s.early.filter fun h => !(decide (h.src ∈ x.members)) }.setCell c { x with st := .rejoining }) := by
  have hall : (x.members.all fun p => decide (p ∈ x.reset)) = true := by simpa using hreset
  exact (exec_readmitsTheCell c s).trans (onCell_event hother hx (if_pos ⟨hst, hall⟩))

theorem happens_rejoinComplete (hst : x.st = .rejoining) :
    Happens (.rejoinComplete c) s (s.setCell c { x with st := .member }) :=
  (exec_rejoinComplete c s).trans (onCell_event hother hx (if_pos hst))

end

theorem happens_packageStop {s : State} {lastPath : Nat} (hruns : s.stopped = .running) (hlost : s.cellReached s.cell = false) :
    Happens (.packageStop lastPath) s ({ s with stopped := .lost }.lanternHub 11 2 [s.cell, lastPath]) :=
  (exec_packageStop lastPath s).trans (if_pos ⟨hruns, by simp [hlost]⟩)

/-- Settles O39: each transition of a view finds the view in the row it leaves. -/
theorem cellEventsHappen : Obligations.CellEventsHappen := by
  intro s
  refine ⟨?forms, fun c x hother hx => ?views, fun _ => happens_packageStop⟩
  case forms =>
    intro pkg cell members slot all u t hactive hvalid hslot hmembers hnumber hfit
    have hvalid : (s.numberedAs pkg cell all).validSlot slot = true := Bool.and_eq_true_iff.2 ⟨decide_eq_true hslot, hvalid⟩
    exact happens_formsTheSpace rfl hactive hvalid hmembers hnumber hfit
  case views =>
    exact ⟨happens_admitsTheCell hother hx, happens_pathLoss_member hother hx, happens_pathLoss_rejoining hother hx,
      happens_pathRestored hother hx, happens_suspectTimeout hother hx, happens_declaresTheCellDead_recovers hother hx,
      happens_declaresTheCellDead_fences hother hx, happens_scanComplete hother hx, happens_readmitsTheCell hother hx,
      happens_rejoinComplete hother hx⟩

end Sys2Proof.Machine
end

section
/-! SUPPORT. The package's registers and its reports (R231, R403-R406). -/

namespace Sys2Proof.Machine

theorem exec_registerWrite (w : RegWrite) (s : State) : exec (.registerWrite w) s = execRegisterWrite w s := rfl
theorem exec_telemetryReport (regs : List RegulatorReport) (trim : List Nat) (s : State) :
    exec (.telemetryReport regs trim) s = execTelemetryReport regs trim s := rfl
theorem exec_connectorReport (conn : Connector) (readings : List Nat) (s : State) :
    exec (.connectorReport conn readings) s = execConnectorReport conn readings s := rfl

section
variable {s : State}

theorem happens_registerWrite_wayMask {ctx sector : Nat} {cache scratch : BitVec 16}
    (hok : s.waysOk ctx sector cache scratch = true) :
    Happens (.registerWrite (.wayMask ctx sector cache scratch)) s
      (s.setL2w (l2wKey ctx sector) { s.l2wOf (l2wKey ctx sector) with posted := some (cache, scratch) }) :=
  (exec_registerWrite _ s).trans (if_pos hok)

theorem happens_registerWrite_allot {ctx : Nat} {sectors : List Nat} (hctx : ctx < 256) (hsectors : ∀ x ∈ sectors, x < 12) :
    Happens (.registerWrite (.allot ctx sectors)) s
      ((s.setCtx ctx { s.ctxOf ctx with allot := distinct sectors }).judgeFit ctx) :=
  (exec_registerWrite _ s).trans (if_pos ⟨hctx, by simpa using hsectors⟩)

theorem happens_registerWrite_cap {die watts : Nat} (hdie : die < 4) (hwatts : watts ≤ 780) :
    Happens (.registerWrite (.cap die watts)) s (s.recordCap { s with caps := vset s.caps die watts } die) :=
  (exec_registerWrite _ s).trans (if_pos ⟨hdie, hwatts⟩)

theorem happens_registerWrite_boiling {die watts : Nat} (hdie : die < 4) :
    Happens (.registerWrite (.boiling die watts)) s (s.recordCap { s with boiling := vset s.boiling die watts } die) :=
  (exec_registerWrite _ s).trans (if_pos hdie)

theorem happens_registerWrite_threshold {conn : Connector} {reading warn fault : Nat} (hlt : warn < fault) :
    Happens (.registerWrite (.threshold conn reading warn fault)) s
      { s with thresholds := sset s.thresholds conn.key (sset (s.thresholdsOf conn) reading (warn, fault)) } :=
  (exec_registerWrite _ s).trans (if_pos hlt)

theorem happens_registerWrite_portDown {port : Nat} (hport : port < 16) (hpast : s.pastFault (.optical port) = true) :
    Happens (.registerWrite (.portDown port)) s (s.linkTo port (s.port port) .down) :=
  (exec_registerWrite _ s).trans (if_pos ⟨hport, hpast⟩)

theorem happens_registerWrite_unsampledRead {core : Nat} (hcore : core < 192) :
    Happens (.registerWrite (.unsampledRead core)) s (s.say (.unsampled core (sgetD s.unsampled core 0))) :=
  (exec_registerWrite _ s).trans (congrArg event (if_pos hcore))

theorem happens_registerWrite_grant {ctx : Nat} (hctx : ctx < 256) :
    Happens (.registerWrite (.grant ctx)) s { s with grants := addOnce ctx s.grants } :=
  (exec_registerWrite _ s).trans (if_pos hctx)

theorem happens_registerWrite_topology {slot : Nat} {gen : Word} (hactive : s.active = none) (hvalid : s.validSlot slot = true) :
    Happens (.registerWrite (.topology slot gen)) s (s.activate slot gen) :=
  (exec_registerWrite _ s).trans (if_pos (by rw [hactive, hvalid]; rfl))

section
variable {base size home : Nat} (hrange : homeRangeOk base size home = true)
include hrange

theorem happens_registerWrite_home
    (hfits : s.numbered = false ∨ ({ s with homes := ⟨base, size, home⟩ :: s.homes } : State).homesFit = true) :
    Happens (.registerWrite (.home base size home)) s { s with homes := ⟨base, size, home⟩ :: s.homes } :=
  (exec_registerWrite _ s).trans (if_pos (by simpa [hrange] using hfits))

theorem happens_registerWrite_home_refused (hnumbered : s.numbered = true)
    (hfits : ({ s with homes := ⟨base, size, home⟩ :: s.homes } : State).homesFit = false) :
    Happens (.registerWrite (.home base size home)) s (s.say (.refused home)) :=
  (exec_registerWrite _ s).trans (if_neg (by rw [hfits, hnumbered, hrange]; decide))

end

/-! ### Trip limits (R405) -/

theorem judgeTrip_unreported {reg : Nat} (hreport : sget? s.lastReport reg = none) : s.judgeTrip reg = s := by
  rw [State.judgeTrip, hreport]

section
variable {reg volts amps heat : Nat} (hreport : sget? s.lastReport reg = some (volts, amps, heat))
include hreport

theorem judgeTrip_within (hamps : amps ≤ (s.tripOf reg).1) (hheat : heat ≤ (s.tripOf reg).2) : s.judgeTrip reg = s := by
  rw [State.judgeTrip, hreport]
  exact if_neg (by omega)

theorem judgeTrip_beyond (hbeyond : (s.tripOf reg).1 < amps ∨ (s.tripOf reg).2 < heat) :
    s.judgeTrip reg = { s with stopped := .trip }.lanternHub 10 2
      [Config.regulatorDie reg, if (s.tripOf reg).1 < amps then amps else heat] := by
  rw [State.judgeTrip, hreport]
  exact if_pos hbeyond

end

/-- A record of the Hub leaves the clocks as they are. -/
theorem lanternHub_stopped (kind sev : Nat) (payload : List Nat) : (s.lanternHub kind sev payload).stopped = s.stopped := by
  rw [State.lanternHub, State.lanternAdd]
  split
  · rfl
  · rfl

/-- The limit that firmware has just set for a regulator is in force. -/
theorem tripOf_set (reg current temp : Nat) :
    ({ s with trips := sset s.trips reg (current, temp) } : State).tripOf reg = (current, temp) := by
  simp [State.tripOf]

theorem exec_registerWrite_trip {reg current temp : Nat} (hcurrent : current ≤ (s.tripOf reg).1)
    (htemp : temp ≤ (s.tripOf reg).2) :
    exec (.registerWrite (.trip reg current temp)) s =
      event ({ s with trips := sset s.trips reg (current, temp) }.judgeTrip reg) :=
  (exec_registerWrite _ s).trans (if_pos ⟨hcurrent, htemp⟩)

/-! ### Telemetry (R403-R405) -/

/-- The last report of each regulator, after the reports of one telemetry message. -/
def keepReports (regs : List RegulatorReport) (m : SMap (Nat × Nat × Nat)) : SMap (Nat × Nat × Nat) :=
  regs.foldl (fun m (r : RegulatorReport) => sset m r.reg (r.voltage, r.current, r.temp)) m

theorem sget?_keepReports_other {regs : List RegulatorReport} {reg : Nat} (hother : ∀ q ∈ regs, q.reg ≠ reg)
    (m : SMap (Nat × Nat × Nat)) : sget? (keepReports regs m) reg = sget? m reg := by
  induction regs generalizing m with
  | nil => rfl
  | cons q rest ih =>
    obtain ⟨hq, hrest⟩ := List.forall_mem_cons.1 hother
    exact (ih hrest _).trans (sget?_sset_ne m _ hq.symm)

theorem sget?_keepReports_last {r : RegulatorReport} {rest : List RegulatorReport} (hlast : ∀ q ∈ rest, q.reg ≠ r.reg)
    (m : SMap (Nat × Nat × Nat)) : sget? (keepReports (r :: rest) m) r.reg = some (r.voltage, r.current, r.temp) :=
  (sget?_keepReports_other hlast _).trans (sget?_sset_same m _ _)

/-- What is kept of a regulator that reports is one of the message's reports of it. -/
theorem sget?_keepReports_mem {regs : List RegulatorReport} {reg : Nat} (hmem : ∃ q ∈ regs, q.reg = reg)
    (m : SMap (Nat × Nat × Nat)) :
    ∃ q ∈ regs, q.reg = reg ∧ sget? (keepReports regs m) reg = some (q.voltage, q.current, q.temp) := by
  induction regs generalizing m with
  | nil => simp at hmem
  | cons r rest ih =>
    by_cases hrest : ∃ q ∈ rest, q.reg = reg
    · obtain ⟨q, hq, hreg, hget⟩ := ih hrest (sset m r.reg (r.voltage, r.current, r.temp))
      exact ⟨q, List.mem_cons_of_mem _ hq, hreg, hget⟩
    · have hr : r.reg = reg := by simpa [hrest] using hmem
      subst hr
      exact ⟨r, List.mem_cons_self, rfl, sget?_keepReports_last (by simpa using hrest) m⟩

/-- The state that a telemetry message leaves before any regulator is judged: readings, powers, and the cap loops (R403, R404). -/
def State.readingsKept (s : State) (regs : List RegulatorReport) (trim : List Nat) : State :=
  let t := { s with
    lastReport := keepReports regs s.lastReport
    power := Vector.ofFn fun (i : Fin 4) => Config.diePower i.val (keepReports regs s.lastReport) trim }
  { t with throttled := Vector.ofFn t.capLoop }

/-- A regulator is judged until one has stopped the clocks. -/
def State.judgeNext (s : State) (r : RegulatorReport) : State := if s.stopped = .trip then s else s.judgeTrip r.reg

theorem exec_telemetryReport_judges (regs : List RegulatorReport) (trim : List Nat) :
    exec (.telemetryReport regs trim) s = event (regs.foldl State.judgeNext (s.readingsKept regs trim)) := rfl

theorem foldl_judgeNext_tripped (htrip : s.stopped = .trip) (regs : List RegulatorReport) :
    regs.foldl State.judgeNext s = s := by
  induction regs with
  | nil => rfl
  | cons r rest ih => rwa [List.foldl_cons, State.judgeNext, if_pos htrip]

theorem foldl_judgeNext_within {regs : List RegulatorReport} (hwithin : ∀ r ∈ regs, s.judgeTrip r.reg = s) :
    regs.foldl State.judgeNext s = s := by
  induction regs with
  | nil => rfl
  | cons r rest ih =>
    obtain ⟨hr, hrest⟩ := List.forall_mem_cons.1 hwithin
    rw [List.foldl_cons, State.judgeNext, hr, ite_self, ih hrest]

theorem happens_telemetryReport_within {regs : List RegulatorReport} {trim : List Nat}
    (hwithin : ∀ r ∈ regs, r.current ≤ (s.tripOf r.reg).1 ∧ r.temp ≤ (s.tripOf r.reg).2) :
    Happens (.telemetryReport regs trim) s (s.readingsKept regs trim) := by
  refine (exec_telemetryReport_judges regs trim).trans (congrArg event (foldl_judgeNext_within fun r hr => ?_))
  obtain ⟨q, hq, hreg, hget⟩ := sget?_keepReports_mem ⟨r, hr, rfl⟩ s.lastReport
  obtain ⟨hamps, hheat⟩ := hwithin q hq
  rw [hreg] at hamps hheat
  exact judgeTrip_within hget hamps hheat

theorem happens_telemetryReport_beyond {r : RegulatorReport} {rest : List RegulatorReport} {trim : List Nat}
    (hlast : ∀ q ∈ rest, q.reg ≠ r.reg) (hbeyond : ¬(r.current ≤ (s.tripOf r.reg).1 ∧ r.temp ≤ (s.tripOf r.reg).2))
    (hclocks : s.stopped ≠ .trip) :
    Happens (.telemetryReport (r :: rest) trim) s ({ s.readingsKept (r :: rest) trim with stopped := .trip }.lanternHub 10 2
      [Config.regulatorDie r.reg, if (s.tripOf r.reg).1 < r.current then r.current else r.temp]) := by
  have hjudged : (s.readingsKept (r :: rest) trim).judgeTrip r.reg = _ :=
    judgeTrip_beyond (sget?_keepReports_last hlast s.lastReport) (show (s.tripOf r.reg).1 < _ ∨ (s.tripOf r.reg).2 < _ by omega)
  have hnext : (s.readingsKept (r :: rest) trim).judgeNext r = _ := (if_neg hclocks).trans hjudged
  refine (exec_telemetryReport_judges _ _).trans (congrArg event ?_)
  rw [List.foldl_cons, hnext]
  exact foldl_judgeNext_tripped (lanternHub_stopped _ _ _) rest

end

end Sys2Proof.Machine
end

section
/-! SUPPORT. Attestation, reset and loss of power (R393, R407-R410), and the host's snoops and accesses over CXL (R312, R345, R354). -/

namespace Sys2Proof.Machine

theorem exec_spdmMeasurementRequest (link : Nat) (nonce : BitVec 256) (s : State) :
    exec (.spdmMeasurementRequest link nonce) s = execSpdmMeasurementRequest link nonce s := rfl
theorem exec_packageReset (b : BringUp) (s : State) : exec (.packageReset b) s = execPackageReset b s := rfl
theorem exec_hostSnoop (sn : Snoop) (s : State) : exec (.hostSnoop sn) s = execHostSnoop sn s := rfl
theorem exec_cxlMemRequest_read (pa n : Nat) (s : State) : exec (.cxlMemRequest (.read pa n)) s =
    s.hostAccess (rangeLines pa n) fun t => t.say (.cxlRead (t.mem.bytesAt pa n)) := rfl
theorem exec_cxlMemRequest_write (pa : Nat) (data : List Byte) (s : State) : exec (.cxlMemRequest (.write pa data)) s =
    s.hostAccess (rangeLines pa data.length) fun t => t.cohWriteLong pa data (data.length / 128 + 2) := rfl

section
variable {s : State}

theorem happens_spdmMeasurementRequest {link : Nat} {nonce : BitVec 256} {key : List Byte} (hkey : s.identity = some key)
    (hlink : link < 2) :
    Happens (.spdmMeasurementRequest link nonce) s
      (s.say (.spdm link (s.measurementLog nonce) nonce (Config.ed448Sign key (s.measurementLog nonce)))) := by
  refine (exec_spdmMeasurementRequest link nonce s).trans ?_
  rw [execSpdmMeasurementRequest, hkey]
  exact congrArg event (if_pos hlink)

/-! ### Reset (R393, R407, R410) -/

/-- The state that bring-up starts from: what a reset keeps, and its record. -/
def State.resetBy (s : State) (b : BringUp) : State :=
  { s.cleared with lantern := { s.lantern with resets := s.lantern.resets + 1 } }.lanternHub 9 0 [b.cause]

section
variable {b : BringUp} (hclocks : s.stopped ≠ .trip)
include hclocks

theorem happens_packageReset_noPower (hpower : b.power = false) :
    Happens (.packageReset b) s ((s.resetBy b).heldAt 0 .noPower) :=
  (exec_packageReset b s).trans ((if_neg hclocks).trans (if_pos (by rw [hpower]; rfl)))

theorem happens_packageReset_imageFail (hpower : b.power = true) (himage : imageGood b = false) :
    Happens (.packageReset b) s ((s.resetBy b).heldAt 2 .imageFail) :=
  (exec_packageReset b s).trans ((if_neg hclocks).trans
    ((if_neg (by rw [hpower]; decide)).trans (if_pos (by rw [himage]; rfl))))

theorem happens_packageReset_loads (hpower : b.power = true) (himage : imageGood b = true) :
    Happens (.packageReset b) s { s.resetBy b with
      imageVersion := b.imageVersion, minVersion := b.minVersion.getD (s.resetBy b).minVersion,
      imageDigest := digest b.image, blobDigest := digest b.blob,
      identity := (Config.pufResponse b.sram b.helper).map identityKey, scrub := b.scrub } :=
  (exec_packageReset b s).trans ((if_neg hclocks).trans
    ((if_neg (by rw [hpower]; decide)).trans (if_neg (by rw [himage]; decide))))

end

/-! ### The host over CXL (R312) -/

section
variable {pa : Nat} (hhost : isHost (s.homeOf pa) = true)
include hhost

theorem happens_hostSnoop_invalidate (data : List Byte) :
    Happens (.hostSnoop (.invalidate pa data)) s
      ((if data.isEmpty then (s.loseLine (lineOf pa)).noteWrite (lineOf pa)
        else (s.loseLine (lineOf pa)).cohWrite pa (data.take (128 - pa % 128)) false).loseLine (lineOf pa)) :=
  (exec_hostSnoop _ s).trans (if_neg (by rw [hhost]; decide))

theorem happens_hostSnoop_downgrade_owned (hgranted : lineOf pa ∈ s.granted) :
    Happens (.hostSnoop (.downgrade pa)) s ((s.yieldLine (lineOf pa)).shareHost (lineOf pa)) :=
  (exec_hostSnoop _ s).trans ((if_neg (by rw [hhost]; decide)).trans (if_pos hgranted))

theorem happens_hostSnoop_downgrade_shared (hgranted : lineOf pa ∉ s.granted) :
    Happens (.hostSnoop (.downgrade pa)) s (s.yieldLine (lineOf pa)) :=
  (exec_hostSnoop _ s).trans ((if_neg (by rw [hhost]; decide)).trans (if_neg hgranted))

end

section
variable {lines : List Nat} {f : State → State} (hhome : ∀ l ∈ lines, s.homeOf (128 * l) = s.pkg)
include hhome

/-- An access to lines of this package goes by what they wait for: a recall, then the fill of a Cold page. -/
theorem hostAccess_recalls {l : Nat} {r : List Nat} (hrecalls : lines.filter s.recallWaits = l :: r) :
    s.hostAccess lines f = event ((l :: r).foldl State.askRecall s) := by
  rw [State.hostAccess, if_neg (by simpa using hhome), hrecalls]

section
variable (hhere : ∀ l ∈ lines, s.recallWaits l = false)
include hhere

theorem hostAccess_fills {l : Nat} {r : List Nat} (hcold : (lines.filter fun l => s.isCold (128 * l)) = l :: r) :
    s.hostAccess lines f = event (s.startFills (distinct ((l :: r).map fun l => l / 512))) := by
  have hnone : lines.filter s.recallWaits = [] := by simpa using hhere
  rw [State.hostAccess, if_neg (by simpa using hhome), hnone, hcold]

theorem hostAccess_served (hwarm : ∀ l ∈ lines, s.isCold (128 * l) = false) :
    s.hostAccess lines f = event (f (s.recallRange lines)) := by
  have hnone : lines.filter s.recallWaits = [] := by simpa using hhere
  have hready : (lines.filter fun l => s.isCold (128 * l)) = [] := by simpa using hwarm
  rw [State.hostAccess, if_neg (by simpa using hhome), hnone, hready]

end

end

end

/-- Settles O47: a register, a report, a reset, a snoop and an access over CXL each find what their rule asks for. -/
theorem packageEventsHappen : Obligations.PackageEventsHappen := by
  intro s
  refine ⟨?wayMask, ?allot, fun die watts hdie => ⟨?cap, ?boiling⟩, ?threshold, ?portDown, ?unsampled, ?grant, ?trip,
    fun _ => rfl, fun _ _ => rfl, fun base size home hrange => ⟨?home, ?refused⟩, ?topology, rfl, fun _ => rfl,
    fun regs trim => ⟨?within, ?beyond⟩, ?connector, ?spdm, fun b hclocks => ⟨?loads, ?imageFail, ?noPower⟩, fun _ => rfl,
    fun pa data hhost => ⟨?invalidate, ?owned, ?shared⟩, fun pa n hhome => ⟨fun hhere => ⟨fun hwarm => ⟨?read, ?write⟩, ?fills⟩, ?recalls⟩⟩
  case wayMask => exact fun _ _ _ _ => happens_registerWrite_wayMask
  case allot => exact fun _ _ => happens_registerWrite_allot
  case cap => exact happens_registerWrite_cap hdie
  case boiling => exact happens_registerWrite_boiling hdie
  case threshold => exact fun _ _ _ _ => happens_registerWrite_threshold
  case portDown => exact fun _ => happens_registerWrite_portDown
  case unsampled => exact fun _ => happens_registerWrite_unsampledRead
  case grant => exact fun _ => happens_registerWrite_grant
  case trip =>
    intro reg current temp hcurrent htemp t sets
    have hset := exec_registerWrite_trip hcurrent htemp
    have hlimit := tripOf_set (s := s) reg current temp
    refine ⟨fun hreport => ?_, fun v i h hreport => ⟨fun hi hh => ?_, fun hbeyond => ?_⟩⟩
    · exact hset.trans (congrArg event (judgeTrip_unreported (s := t) hreport))
    · exact hset.trans (congrArg event (judgeTrip_within (s := t) hreport (by rwa [hlimit]) (by rwa [hlimit])))
    · have hstops := judgeTrip_beyond (s := t) hreport (by rwa [hlimit])
      rw [hlimit] at hstops
      exact hset.trans (congrArg event hstops)
  case home => exact happens_registerWrite_home hrange
  case refused => exact happens_registerWrite_home_refused hrange
  case topology => exact fun _ _ => happens_registerWrite_topology
  case within => exact happens_telemetryReport_within
  case beyond =>
    rintro r rest rfl hlast hbeyond hclocks
    exact happens_telemetryReport_beyond hlast hbeyond hclocks
  case connector => exact fun conn readings hform => (exec_connectorReport conn readings s).trans (if_neg hform)
  case spdm => exact fun _ _ _ => happens_spdmMeasurementRequest
  case loads => exact happens_packageReset_loads hclocks
  case imageFail => exact happens_packageReset_imageFail hclocks
  case noPower => exact happens_packageReset_noPower hclocks
  case invalidate => exact happens_hostSnoop_invalidate hhost data
  case owned => exact happens_hostSnoop_downgrade_owned hhost
  case shared => exact happens_hostSnoop_downgrade_shared hhost
  case read => exact (exec_cxlMemRequest_read pa n s).trans (hostAccess_served hhome hhere hwarm)
  case write =>
    rintro data rfl
    exact (exec_cxlMemRequest_write pa data s).trans (hostAccess_served hhome hhere hwarm)
  case fills => exact fun _ _ hcold => (exec_cxlMemRequest_read pa n s).trans (hostAccess_fills hhome hhere hcold)
  case recalls => exact fun _ _ hrecalls => (exec_cxlMemRequest_read pa n s).trans (hostAccess_recalls hhome hrecalls)

end Sys2Proof.Machine
end
